-- ==== Sys2Proof/Word.lean ====
section
/-! DEFINITION. The word types of the GV2416: bytes on the wires, the corridor clock, the node tick
and the six-position lane set. -/

namespace Sys2Proof

/-- One byte of the supervisor link or of a gantry line (R18, R33). -/
abbrev Byte := BitVec 8

/-- A value of the corridor clock: a 32-bit count of milliseconds that wraps (R17). -/
abbrev Clock := BitVec 32

/-- A value of a node tick: a 16-bit millisecond count that wraps (00_scope.md, Time). -/
abbrev Tick := BitVec 16

/-- A set of the lane positions 0 to 5; bit p stands for position p, as a lane set byte has it (R174). -/
abbrev LaneSet := BitVec 6

end Sys2Proof
end

