-- ==== Sys2Proof/Syntax.lean ====
section
/-! DEFINITION. The commands of the block: one constructor of `Instr` for each of the 53 rows of
spec/opcode_table.json, with the operands each needs. -/

namespace Sys2Proof

/-- The two gantry lines (00_scope.md, Terms: Line). -/
inductive Line where
  | a
  | b
  deriving DecidableEq, Repr

/-- A character as it arrives on SUP_RX (R18, R23). -/
structure SupChar where
  /-- the eight data bits -/
  data : Byte
  /-- the parity bit received; even parity over the data is error-free -/
  parity : Bool
  /-- the stop bit as sampled; low is a framing error -/
  stop : Bool
  deriving DecidableEq, Repr

/-- What the controller samples in the two halves of an acknowledge slot, true for the high level (R33). -/
structure Slot where
  first : Bool
  second : Bool
  deriving DecidableEq, Repr

/-- A byte of a reply telegram as it arrives on a gantry line (R33, R40). -/
structure LineChar where
  /-- the eight data bits -/
  data : Byte
  /-- the parity bit received; odd parity over the data is error-free -/
  parity : Bool
  /-- the stop bit as sampled -/
  stop : Bool
  /-- microseconds from the end of the previous acknowledge slot to this byte's start bit -/
  gap : Nat
  deriving DecidableEq, Repr

/-- All that the telegram engine observes of one telegram, from its first byte to its outcome: the
acknowledge slots of its own bytes, the bytes of the reply, and the silence after the last of them in
microseconds (log 5, 6). -/
structure Transcript where
  slots : List Slot
  reply : List LineChar
  idle : Nat
  deriving DecidableEq, Repr

/-- The commands and events that change the controller's state, in the order of the table. -/
inductive Instr where
  /-- POWER_ON: power is applied with the straps at these levels (R15). -/
  | powerOn (rate1 rate0 : Bool)
  /-- RESET_N: the pin takes this level with the straps at these levels (R15). -/
  | resetN (high rate1 rate0 : Bool)
  /-- SUP_RX_CHARACTER: a character arrives on SUP_RX (R19). -/
  | supRxCharacter (c : SupChar)
  /-- FRAME_TIMEOUT: the gap timer has measured this many bit times (R21). -/
  | frameTimeout (gapBits : Nat)
  /-- SEND_REPLY: the transmitter takes the reply of the reply slot (R28). -/
  | sendReply
  /-- SEND_NOTICE: the transmitter takes the head of the notice queue (R28, R30). -/
  | sendNotice
  /-- RESET_REPLY_SENT: the last byte of the RESET reply leaves; the straps are at these levels (R16). -/
  | resetReplySent (rate1 rate0 : Bool)
  /-- UNKNOWN_TYPE: a request of no known TYPE is taken (R26). -/
  | unknownType
  /-- IDENTIFY is taken (R31). -/
  | identify
  /-- DEFINE_GANTRY is taken (R2). -/
  | defineGantry
  /-- DEFINE_STATION is taken (R3). -/
  | defineStation
  /-- SET_PARAMETERS is taken (R8). -/
  | setParameters
  /-- START is taken (R12). -/
  | start
  /-- STOP is taken (R14). -/
  | stop
  /-- RESET is taken (R16). -/
  | reset
  /-- RAISE_INCIDENT is taken (R116). -/
  | raiseIncident
  /-- AMEND_INCIDENT is taken (R117). -/
  | amendIncident
  /-- CLEAR_INCIDENT is taken (R118). -/
  | clearIncident
  /-- CONFIRM_INCIDENT is taken (R119). -/
  | confirmIncident
  /-- PLACE_DEMAND is taken (R132). -/
  | placeDemand
  /-- WITHDRAW_DEMAND is taken (R133). -/
  | withdrawDemand
  /-- SHOULDER is taken (R129). -/
  | shoulder
  /-- GANTRY_SERVICE is taken (R64). -/
  | gantryService
  /-- STATION_RESET is taken (R109). -/
  | stationReset
  /-- LUMINANCE is taken (R48). -/
  | luminance
  /-- READ_GANTRY is taken (R168). -/
  | readGantry
  /-- READ_STATION is taken (R113). -/
  | readStation
  /-- READ_INCIDENTS is taken (R130). -/
  | readIncidents
  /-- READ_NODE is taken (R73). -/
  | readNode
  /-- READ_FAULTS is taken (R173). -/
  | readFaults
  /-- TELEGRAM_START: the arbiter of this line chooses (R50). -/
  | telegramStart (line : Line)
  /-- SHOW_ACCEPTED: the SHOW in flight ends ACCEPTED (R159). -/
  | showAccepted (line : Line) (t : Transcript)
  /-- STATE_REPLY: the STATE in flight ends REPLIED (R69). -/
  | stateReply (line : Line) (t : Transcript)
  /-- TRACE_REPLY: the TRACE in flight ends REPLIED (R75). -/
  | traceReply (line : Line) (t : Transcript)
  /-- DESCRIBE_REPLY: the DESCRIBE in flight ends REPLIED (R58). -/
  | describeReply (line : Line) (t : Transcript)
  /-- CAPS_REPLY: the CAPS in flight ends REPLIED (R68). -/
  | capsReply (line : Line) (t : Transcript)
  /-- SENT: the broadcast in flight ends SENT (R42). -/
  | sent (line : Line)
  /-- NO_NODE: the telegram in flight ends NO_NODE (R37). -/
  | noNode (line : Line) (t : Transcript)
  /-- NACK_LIMIT: the telegram in flight ends NACK_LIMIT (R38). -/
  | nackLimit (line : Line) (t : Transcript)
  /-- CORRUPT: the telegram in flight ends CORRUPT (R38, R41). -/
  | corrupt (line : Line) (t : Transcript)
  /-- REPLY_TIMEOUT: the telegram in flight ends REPLY_TIMEOUT (R39). -/
  | replyTimeout (line : Line) (t : Transcript)
  /-- REPLY_BROKEN: the telegram in flight ends REPLY_BROKEN (R40). -/
  | replyBroken (line : Line) (t : Transcript)
  /-- LINE_QUIET_END: the line has been undriven for this many microseconds (R36). -/
  | lineQuietEnd (line : Line) (undriven : Nat)
  /-- TRACE_POLL_DUE: the TRACE timer of this gantry's node is due (R52). -/
  | tracePollDue (gantry : Nat)
  /-- ROUTINE_STATE_DUE: the STATE timer of this gantry's node is due (R52). -/
  | routineStateDue (gantry : Nat)
  /-- CONFIRM_DUE: this gantry's held confirmation STATE is due (R51). -/
  | confirmDue (gantry : Nat)
  /-- LUMEN_REPEAT: this line's LUMEN repeat timer reaches 30 s (R48). -/
  | lumenRepeat (line : Line)
  /-- OFFLINE_RETRY: this gantry's OFFLINE retry timer reaches 30 s (R63). -/
  | offlineRetry (gantry : Nat)
  /-- INTERVAL_CLOSE: the interval timer expires (R94). -/
  | intervalClose
  /-- INCIDENT_EXPIRY: the expiry timer of this slot's record reaches 0 (R121). -/
  | incidentExpiry (handle : Nat)
  /-- PASS_COMPLETE: the running pass completes (R136). -/
  | passComplete
  /-- GATE_EXPIRED: the gate timer of this gantry's pending SHOW reaches gate_time (R163). -/
  | gateExpired (gantry : Nat)
  /-- FRAME_SENT: the last byte of a reply or notice frame leaves SUP_TX (R28). -/
  | frameSent
  deriving DecidableEq, Repr

end Sys2Proof
end

