-- ==== Sys2Proof/Decode.lean ====
section
/-! DEFINITION. The command a word spells. The opcode table gives none of its 53 rows any bits: a command
is an event (a character, a pin, a telegram's outcome, a timer) or the taking of a request frame, and no
word stands for one (log 27). -/

namespace Sys2Proof

/-- The command that a word spells by the table's bits: none, for the table gives no row any bits. -/
def decodeTableWord (_nbits _w : Nat) : Option Instr := none

end Sys2Proof
end

