-- ==== Sys2Proof/Config.lean ====
section
/-! DEFINITION. The free values: what the manual leaves open and the machine nevertheless goes on with.
Each is a constant with no body, so that a claim about it holds for every value. -/

namespace Sys2Proof.Config

/-- R23 does not say which mark the first faulty character sets when it has a parity error AND a framing
error. True: PARITY; false: FRAMING. The argument is the model's counter `State.freeCount` (log 9). -/
opaque doubleErrorIsParity : Nat → Bool

/-- R66 leaves open where the DISPLAY_CHANGE of an entry to OFFLINE or DISABLED stands beside the
NODE_EVENT and its FAULT notice: 0 before both, 1 between them, any other value after both. The argument
is the model's counter `State.freeCount` (log 10). -/
opaque displayChangePlace : Nat → Nat

/-- R170 lets either of two errors that reach a bank at one moment be taken first: the place, counted from 0, at
which an error stands among those listed after it. The arguments are the model's counter `State.freeCount` and
the number of errors listed after it (log 25). -/
opaque errorPlace : Nat → Nat → Nat

/-- R11 and R163 do not say whether a PLAN group taken in RUN first applies its gate_time to the running gate
timers or first evaluates the gates with its continuity. True: the timers first. The argument is the model's counter
`State.freeCount` (log 24). -/
opaque gateTimeFirst : Nat → Bool

/-- R31: an index that names no leaf is answered "with every field zero"; how many zero bytes these
fields take is not stated (log 16). -/
opaque unknownLeafZeros : Nat

/-- R55 and R153 give the OFFLINE retry timer and the gate timer in seconds and do not say how a part of a second is
reported. True: as the next whole second; false: not at all. The argument is the time in milliseconds (log 37). -/
opaque secondsRoundUp : Nat → Bool

/-- Section 2.2 bounds a payload by 248 bytes; what is sent after the result code of a reply, or after the clock and
the notices_lost byte of a notice, whose fields take more (many host demands at one gantry, a full incident table) is
not stated (log 17). The argument is those fields as they would stand. -/
opaque oversizePayload : List (BitVec 8) → List (BitVec 8)

end Sys2Proof.Config
end

