-- ==== Sys2Proof/Machine/State.lean ====
section
/-! DEFINITION. The state of the GV2416 as plain data: every register, queue, table, timer and mode the
spec gives the controller, block by block, and the state right after power-on (R15). -/

namespace Sys2Proof.Machine

/-- Why a run stops with a fault. The GV2416 never stops: every error it detects is recorded in a fault
bank and the machine goes on (R169 to R173), so there is no such reason and nothing raises one. -/
inductive Fault : Type
  deriving DecidableEq, Repr

/-- Why a command is given no meaning. -/
inductive Refusal where
  /-- Raised by `exec` alone, for a row of the table that has no meaning yet. Safe: the run stops. -/
  | notModelled (mnemonic : String)
  deriving DecidableEq, Repr

/-- A table keyed by number: pairs of a number and its record, the numbers strictly rising. A number
that is not listed has no record. -/
abbrev Table (α : Type) := List (Nat × α)

/-! ### Geometry tables (chapter 1) -/

/-- The two operating modes (R7). -/
inductive Mode where
  | setup
  | run
  deriving DecidableEq, Repr

/-- The service state of a gantry (R1). -/
inductive Service where
  | inService
  | out
  deriving DecidableEq, Repr

/-- A gantry record (R1); its number is the key of its table. -/
structure GantryRec where
  /-- metres, 0 to 65,000 -/
  chainage : Nat
  line : Line
  /-- 1 to 16 -/
  address : Nat
  lanes : LaneSet
  panel : Bool
  /-- shoulder section, 0 for none -/
  sec : Nat
  service : Service
  deriving DecidableEq, Repr

/-- A station record (R3); its number is the key of its table. -/
structure StationRec where
  /-- metres, 0 to 65,000 -/
  chainage : Nat
  /-- the gantry whose node carries the loops -/
  host : Nat
  lanes : LaneSet
  /-- D, centimetres -/
  spacing : Nat
  /-- centimetres -/
  loopLength : Nat
  deriving DecidableEq, Repr

/-- The side of the carriageway an arrow points to. -/
inductive Side where
  | near
  | off
  deriving DecidableEq, Repr

/-- Group MEASURE (section 1.6). -/
structure MeasureParams where
  interval : Nat
  maxGap : Nat
  freeSpeed : Nat
  class1Limit : Nat
  class2Limit : Nat
  smoothingShift : Nat
  stuckMarks : Nat
  silentMarks : Nat
  silentFlow : Nat
  edgeErrorLimit : Nat
  deriving DecidableEq, Repr

/-- One level of group CONGESTION; flowOn 0 marks it absent (R9). -/
structure LevelParams where
  flowOn : Nat
  flowOff : Nat
  speed : Nat
  deriving DecidableEq, Repr

/-- Group CONGESTION (section 1.6). -/
structure CongestionParams where
  l1 : LevelParams
  l2 : LevelParams
  l3 : LevelParams
  releaseCount : Nat
  deriving DecidableEq, Repr

/-- Group QUEUE (section 1.6); a reach entry of 0 is absent (R9). -/
structure QueueParams where
  queueOn : Nat
  queueOff : Nat
  queueRelease : Nat
  reach0 : Nat
  reach1 : Nat
  reach2 : Nat
  deriving DecidableEq, Repr

/-- Group WRONGWAY (section 1.6). -/
structure WrongwayParams where
  threshold : Nat
  /-- seconds -/
  window : Nat
  /-- seconds -/
  expiry : Nat
  reach : Nat
  track : Nat
  speed : Nat
  deriving DecidableEq, Repr

/-- Group PLAN (section 1.6). -/
structure PlanParams where
  step : Nat
  continuity : Nat
  closureSpeed : Nat
  shoulderSpeed : Nat
  corridorMax : Nat
  divertPref : Side
  /-- seconds -/
  gateTime : Nat
  deriving DecidableEq, Repr

/-- Group LINE (section 1.6). -/
structure LineParams where
  /-- milliseconds -/
  pollPeriod : Nat
  /-- seconds -/
  statePeriod : Nat
  /-- milliseconds -/
  settle : Nat
  deriving DecidableEq, Repr

/-- The six parameter groups in force. -/
structure Params where
  measure : MeasureParams
  congestion : CongestionParams
  queue : QueueParams
  wrongway : WrongwayParams
  plan : PlanParams
  line : LineParams
  deriving DecidableEq, Repr

/-- Values waiting for the next interval close (R11). -/
structure Waiting where
  congestion : Option CongestionParams
  queue : Option QueueParams
  wrongway : Option WrongwayParams
  deriving DecidableEq, Repr

/-- The geometry tables with the derived relations of R5 and R6. -/
structure Geometry where
  mode : Mode
  gantries : Table GantryRec
  stations : Table StationRec
  params : Params
  waiting : Waiting
  /-- the home gantry of a station (R5); a station not listed has none -/
  home : Table Nat
  /-- the g for which g and g+1 are continuous (R6) -/
  contin : List Nat
  deriving DecidableEq, Repr

/-! ### Aspects (00_scope.md) -/

/-- What a sign shows. -/
inductive Aspect where
  | blank
  | speed (v : Nat)
  | closed
  | divert (d : Side)
  | legend (n : Nat)
  deriving DecidableEq, Repr

/-- The aspect of a cell demand: CLOSED or a DIVERT (section 8.3). -/
inductive Cell where
  | closed
  | divert (d : Side)
  deriving DecidableEq, Repr

/-- The kind of a sign (R1): a lane signal at a position, or the message panel. -/
inductive SignKind where
  | lane (p : Nat)
  | panel
  deriving DecidableEq, Repr

/-! ### Fault banks (chapter 10) -/

/-- The severity of an error. -/
inductive Severity where
  | warn
  | fault
  deriving DecidableEq, Repr

/-- The error codes of R174's table, in the order of their values. -/
inductive ErrorCode where
  | stray
  | frameTimeout
  | badLen
  | parity
  | framing
  | crc
  | overrun
  | noticeLost
  | noNode
  | nackLimit
  | replyTimeout
  | replyBroken
  | corrupt
  | describeMismatch
  | nodeRestart
  | nodeOffline
  | nodeSuspect
  | badCapability
  | confirmFail
  | edgeSequence
  | bufferOverflow
  | implausible
  | stuckOn
  | silent
  | stationInvalid
  | unserved
  | gateExpired
  | detectionTableFull
  deriving DecidableEq, Repr

/-- The five banks, in the order of their values (R174). -/
inductive BankId where
  | link
  | lineA
  | lineB
  | measure
  | plan
  deriving DecidableEq, Repr

/-- The held error of a bank (R169). -/
structure ErrorRec where
  severity : Severity
  code : ErrorCode
  gantry : Option Nat
  station : Option Nat
  clock : Clock
  deriving DecidableEq, Repr

/-- A bank: valid is yes exactly when an error is held (R169). -/
structure Bank where
  held : Option ErrorRec
  overflow : Bool
  deriving DecidableEq, Repr

/-- The five banks. -/
structure Banks where
  link : Bank
  lineA : Bank
  lineB : Bank
  measure : Bank
  plan : Bank
  deriving DecidableEq, Repr

/-- What became of an error that reached a bank (R171). -/
inductive Disposition where
  | held
  | replaced
  | notHeld
  deriving DecidableEq, Repr

/-! ### Node registry (chapter 4) -/

/-- Node states (section 4.2). -/
inductive NodeState where
  | absent
  | describing
  | online
  | suspect
  | offline
  | disabled
  deriving DecidableEq, Repr

/-- The failure outcomes of a telegram (R43). -/
inductive Failure where
  | noNode
  | nackLimit
  | corrupt
  | replyTimeout
  | replyBroken
  deriving DecidableEq, Repr

/-- The reasons of R65. -/
inductive Reason where
  | start
  | serviceIn
  | described
  | recovered
  | retryReplied
  | nodeRestart
  | failure (f : Failure)
  | describeMismatch
  | serviceOut
  deriving DecidableEq, Repr

/-- The next description step (R55, R57). -/
inductive DescStep where
  | describe
  | caps (i : Nat)
  | state
  deriving DecidableEq, Repr

/-- What disagreed in a DESCRIBE comparison (R58). -/
inductive Mismatch where
  | lanes
  | panel
  | loops
  deriving DecidableEq, Repr

/-- The health a STATE reply reports (R45). -/
inductive Health where
  | ok
  | degraded
  | failed
  deriving DecidableEq, Repr

/-- A sign record (R67). -/
structure SignRec where
  caps : List Aspect
  health : Option Health
  displayed : Option Aspect
  confirmFailed : Bool
  degradedMark : Bool
  deriving DecidableEq, Repr

/-- A node record (R55) with the sign records of its gantry (R67). -/
structure NodeRec where
  state : NodeState
  reason : Reason
  since : Clock
  step : Option DescStep
  mismatch : Option Mismatch
  /-- milliseconds since the OFFLINE retry timer last started; absent while it does not run -/
  retry : Option Nat
  signs : List SignRec
  deriving DecidableEq, Repr

/-! ### Rollout unit (chapter 9) -/

/-- Kind of a pending SHOW (R153). -/
inductive ShowKind where
  | ordinary
  | resend
  deriving DecidableEq, Repr

/-- Class of a pending SHOW (R158). -/
inductive ShowClass where
  | urgent
  | normal
  deriving DecidableEq, Repr

/-- What a SHOW carries. -/
structure ShowBody where
  contents : List Aspect
  kind : ShowKind
  cls : ShowClass
  deriving DecidableEq, Repr

/-- The pending SHOW of a gantry (R153). -/
structure Pending where
  body : ShowBody
  retry : Bool
  deriving DecidableEq, Repr

/-- Confirmation states (section 9.5). -/
inductive Confirmation where
  | settled
  | awaiting
  | resending
  deriving DecidableEq, Repr

/-- A rollout record (R153); an absent commanded or confirmed entry is "unknown". -/
structure RolloutRec where
  commanded : List (Option Aspect)
  confirmed : List (Option Aspect)
  failed : List (Option Aspect)
  pending : Option Pending
  inFlight : Bool
  gateHeld : Bool
  /-- milliseconds since the pending SHOW was first held -/
  gateTimer : Option Nat
  gateExpired : Bool
  confirmation : Confirmation
  polls : Nat
  resends : Nat
  deriving DecidableEq, Repr

/-! ### Line controllers (chapter 3) -/

/-- Telegram engine states (section 3.3). AWAITING and RECEIVING are passed through inside one row of
the table (log 6). -/
inductive EngineState where
  | free
  | sending
  | awaiting
  | receiving
  | quiet
  deriving DecidableEq, Repr

/-- What a STATE telegram is for (section 3.4). -/
inductive StateOrigin where
  | confirm
  | routine
  | enrol
  deriving DecidableEq, Repr

/-- Function and payload of a queue entry (section 3.4). The aspects of a SHOW stand in the rollout
record's pending SHOW until the arbiter takes it. -/
inductive Job where
  | display
  | state (o : StateOrigin)
  | trace
  | describe
  | caps (i : Nat)
  | lumen (level : Nat)
  deriving DecidableEq, Repr

/-- The block that deposited an entry (R51). -/
inductive Depositor where
  | rollout
  | registry
  | line
  deriving DecidableEq, Repr

/-- An entry of a class queue (section 3.6). -/
structure Entry where
  /-- the gantry whose node is addressed; 0 for a broadcast -/
  gantry : Nat
  job : Job
  depositor : Depositor
  retry : Bool
  deriving DecidableEq, Repr

/-- The six arbiter classes (R50), highest first. -/
inductive Class where
  | urgentShow
  | confirm
  | trace
  | normalShow
  | service
  | lumen
  deriving DecidableEq, Repr

/-- The six class queues of a line, each oldest first. -/
structure Queues where
  urgentShow : List Entry
  confirm : List Entry
  trace : List Entry
  normalShow : List Entry
  service : List Entry
  lumen : List Entry
  deriving DecidableEq, Repr

/-- The telegram in flight (R36). -/
structure Flight where
  gantry : Nat
  job : Job
  retry : Bool
  /-- what a SHOW carries; absent for the other functions -/
  body : Option ShowBody
  /-- the bytes of the request telegram (R35) -/
  request : List Byte
  /-- R54 discards the outcome -/
  discarded : Bool
  deriving DecidableEq, Repr

/-- The poll timers of a node (R52): milliseconds since the last TRACE and the last STATE for it reached
their outcome, each stopping at its period. -/
structure Poll where
  trace : Nat
  state : Nat
  deriving DecidableEq, Repr

/-- A line controller. -/
structure LineCtl where
  engine : EngineState
  flight : Option Flight
  queues : Queues
  /-- confirmation STATEs held for their due time: per gantry the milliseconds left (R51) -/
  held : Table Nat
  polls : Table Poll
  /-- luminance level, 1 to 8 (R48) -/
  level : Nat
  /-- LUMEN repeat timer in milliseconds; absent while stopped (R48) -/
  lumenTimer : Option Nat
  deriving DecidableEq, Repr

/-! ### Measurement unit (chapter 5) -/

/-- The passage machine with the ticks each state holds (R74, R80). -/
inductive Passage where
  | idle
  | aLead (tA : Tick) (tAf : Option Tick)
  | fwdWait (tA tB : Tick)
  | bLead (tB : Tick)
  | revWait
  deriving DecidableEq, Repr

/-- What the unit holds of one loop (R74). -/
structure Loop where
  high : Bool
  held : Nat
  stuck : Bool
  deriving DecidableEq, Repr

/-- A set of lane fault reasons (R87). -/
structure Reasons where
  stuckOn : Bool
  silent : Bool
  node : Bool
  deriving DecidableEq, Repr

/-- The accumulators of an interval (R74). -/
structure Acc where
  count : Nat
  sumV : Nat
  occupied : Nat
  class1 : Nat
  class2 : Nat
  class3 : Nat
  reverse : Nat
  unpaired : Nat
  rejected : Nat
  edgeErrors : Nat
  deriving DecidableEq, Repr

/-- A lane record (R74). -/
structure LaneRec where
  machine : Passage
  loopA : Loop
  loopB : Loop
  silent : Bool
  suspect : Bool
  excluded : Bool
  seen : Reasons
  shoulderExcluded : Bool
  acc : Acc
  /-- an IMPLAUSIBLE record has been made for the lane in the open interval (R83; log 26) -/
  implausible : Bool
  /-- the lane was included at the last close (R113; log 26) -/
  lastIncluded : Bool
  deriving DecidableEq, Repr

/-- A station entry: the node condition of R90 and the lane records by position. -/
structure StationEntry where
  nodeCond : Bool
  lanes : Table LaneRec
  deriving DecidableEq, Repr

/-- The measurement unit: the interval timer (absent while stopped) and the station entries. -/
structure Measure where
  timer : Option Nat
  stations : Table StationEntry
  deriving DecidableEq, Repr

/-- Lane status (R87). -/
inductive LaneStatus where
  | valid
  | suspect
  | faulty
  deriving DecidableEq, Repr

/-- The per-lane results of an interval close as a STATION_REPORT carries them (R94, R112). -/
structure LaneReport where
  lane : Nat
  count : Nat
  meanSpeed : Option Nat
  occupancy : Nat
  class1 : Nat
  class2 : Nat
  class3 : Nat
  reverse : Nat
  unpaired : Nat
  rejected : Nat
  edgeErrors : Nat
  status : LaneStatus
  reasons : Reasons
  included : Bool
  shoulderExcluded : Bool
  deriving DecidableEq, Repr

/-- The hand-over of one lane: its report and the two sums the traffic state unit needs (R94). -/
structure LaneResult where
  report : LaneReport
  sumV : Nat
  occupied : Nat
  deriving DecidableEq, Repr

/-! ### Traffic state unit (chapter 6) -/

/-- Congestion levels (R96). -/
inductive Level where
  | clear
  | l1
  | l2
  | l3
  deriving DecidableEq, Repr

/-- An entry of the reverse window (R96): the corridor clock of the passage and its lane. -/
structure WindowEntry where
  clock : Clock
  lane : Nat
  deriving DecidableEq, Repr

/-- A station record of the traffic state unit (R96); its home gantry is `Geometry.home`. -/
structure StationState where
  /-- smoothed speed, sixteenths of km/h -/
  s : Nat
  /-- smoothed flow, sixteenths of veh/h/lane -/
  q : Nat
  level : Level
  levelCount : Nat
  queueOn : Bool
  queueCount : Nat
  valid : Bool
  invalidCloses : Nat
  v : Option Nat
  f : Option Nat
  window : List WindowEntry
  deriving DecidableEq, Repr

/-! ### Incident unit (chapter 7) -/

/-- Incident kinds (R114). -/
inductive IncidentKind where
  | laneClosure
  | carriagewayClosure
  | hazard
  | wrongWay
  deriving DecidableEq, Repr

/-- The origin of an incident (R114). -/
inductive Origin where
  | supervisor
  | detection
  deriving DecidableEq, Repr

/-- An incident record (R114); its handle is the key of its table. -/
structure Incident where
  kind : IncidentKind
  origin : Origin
  /-- upstream end of the extent -/
  start : Nat
  /-- downstream end of the extent -/
  stop : Nat
  lanes : Option LaneSet
  cap : Option Nat
  legend : Option Nat
  anchor : Option Nat
  /-- milliseconds left -/
  expiry : Option Nat
  raised : Clock
  deriving DecidableEq, Repr

/-- The changes an INCIDENT_EVENT names (R122). -/
inductive IncidentChange where
  | raised
  | amended
  | tracked
  | confirmed
  | cleared
  | expired
  deriving DecidableEq, Repr

/-- The state of a shoulder section (R128). -/
inductive Shoulder where
  | closed
  | opened
  deriving DecidableEq, Repr

/-! ### Plan engine (chapter 8) -/

/-- What a host demand asks (R131). -/
inductive DemandWhat where
  | cell (lanes : LaneSet) (aspect : Cell)
  | speed (v : Nat)
  | legend (n : Nat)
  deriving DecidableEq, Repr

/-- An entry of the host demand table (R131); its handle is the key of its table. -/
structure Demand where
  gantry : Nat
  what : DemandWhat
  deriving DecidableEq, Repr

/-- The target of one sign (R151). -/
structure SignTarget where
  wanted : Aspect
  shown : Aspect
  mismatch : Bool
  unserved : Bool
  lost : Bool
  deriving DecidableEq, Repr

/-- The target record of a gantry (R151). -/
structure Target where
  speed : Option Nat
  signs : List SignTarget
  deriving DecidableEq, Repr

/-- What a pass reads of one sign (R135). -/
structure SignView where
  caps : List Aspect
  serviceable : Bool
  deriving DecidableEq, Repr

/-- What a pass reads of one station (R135). -/
structure StationView where
  level : Level
  queueOn : Bool
  deriving DecidableEq, Repr

/-- The snapshot a pass works from (R135). -/
structure Snapshot where
  gantries : Table GantryRec
  home : Table Nat
  contin : List Nat
  plan : PlanParams
  congestion : CongestionParams
  queue : QueueParams
  wrongway : WrongwayParams
  incidents : Table Incident
  sections : Table Shoulder
  stations : Table StationView
  demands : Table Demand
  signs : Table (List SignView)
  deriving DecidableEq, Repr

/-- The plan engine: RUNNING exactly while it holds a snapshot (R134, R135). -/
structure Plan where
  demands : Table Demand
  targets : Table Target
  running : Option Snapshot
  again : Bool
  deriving DecidableEq, Repr

/-! ### Supervisor link unit (chapter 2) -/

/-- The receive framer's states with the bytes still to come (section 2.3). -/
inductive FramerState where
  | idle
  | length
  | body (left : Nat)
  | check (left : Nat)
  deriving DecidableEq, Repr

/-- The error mark of a frame being assembled (R23). -/
inductive CharError where
  | parity
  | framing
  deriving DecidableEq, Repr

/-- The receive framer. -/
structure Framer where
  state : FramerState
  /-- the bytes received since SOF, from LEN on, oldest first -/
  bytes : List Byte
  mark : Option CharError
  /-- a run of discarded characters has been recorded (R20) -/
  strayRun : Bool
  deriving DecidableEq, Repr

/-- A checked request frame (R24). -/
structure Frame where
  typ : Byte
  tag : Byte
  payload : List Byte
  deriving DecidableEq, Repr

/-- Result codes in the order of their values (R26). -/
inductive Result where
  | ok
  | okClamped
  | unknownType
  | badLength
  | badValue
  | badConfig
  | wrongMode
  | notFound
  | tableFull
  | conflict
  deriving DecidableEq, Repr

/-- The item kinds a BAD_CONFIG reply names (R12). -/
inductive ItemKind where
  | corridor
  | gantry
  | station
  | sec
  deriving DecidableEq, Repr

/-- The checks of START in their order (R12). -/
inductive StartCheck where
  | noGantry
  | gantryNumbering
  | gantryOrder
  | addressShared
  | shoulderPosition
  | sectionRun
  | stationNumbering
  | stationOrder
  | hostMissing
  | nodeShared
  | stationEmpty
  | laneNotPresent
  deriving DecidableEq, Repr

/-- When a gantry's confirmation STATE is due, as READ_GANTRY shows it (R168). -/
inductive ConfirmDue where
  | absent
  | remaining (ms : Nat)
  | queued
  deriving DecidableEq, Repr

/-- The contents of a READ_GANTRY reply (R168). -/
structure GantryReport where
  nodeState : Option NodeState
  target : Option Target
  rollout : Option RolloutRec
  due : ConfirmDue
  demands : Table Demand
  deriving DecidableEq, Repr

/-- A demand a station places (R105, R107), as READ_STATION lists it. -/
structure StationDemand where
  gantry : Nat
  speed : Nat
  legend : Option Nat
  deriving DecidableEq, Repr

/-- The lane part of a READ_STATION reply (R113). -/
structure LaneNow where
  lane : Nat
  status : LaneStatus
  reasons : Reasons
  included : Bool
  deriving DecidableEq, Repr

/-- The contents of a READ_STATION reply (R113). -/
structure StationReadout where
  station : Nat
  home : Option Nat
  host : Nat
  state : StationState
  demands : List StationDemand
  lanes : List LaneNow
  deriving DecidableEq, Repr

/-- The contents of a READ_NODE reply (R73). -/
structure NodeReport where
  gantry : Nat
  service : Service
  node : NodeRec
  kinds : List SignKind
  deriving DecidableEq, Repr

/-- A section as READ_INCIDENTS shows it (R130): its state when it exists. -/
abbrev SectionView := Option Shoulder

/-- The detail of a reply after its result code (R27). -/
inductive Detail where
  | none
  | identity
  | capacities
  | counts (gantries stations sections lineA lineB : Nat)
  | status (mode : Mode) (clock : Clock) (rate : BitVec 2)
  | unknownLeaf
  | clamped (fields : List Nat)
  | badConfig (kind : ItemKind) (number : Nat) (check : StartCheck)
  | handle (h : Nat)
  | handleClamped (h : Nat) (fields : List Nat)
  | handleSpeed (h : Nat) (v : Nat)
  | gantry (r : GantryReport)
  | station (r : StationReadout)
  | incidents (supervisor : Nat) (records : Table Incident) (sections : List SectionView)
  | node (r : NodeReport)
  | bank (id : BankId) (b : Bank)
  deriving DecidableEq, Repr

/-- A reply (R27): TYPE with the top bit set, TAG, result and detail. -/
structure Reply where
  typ : Byte
  tag : Byte
  result : Result
  detail : Detail
  deriving DecidableEq, Repr

/-- The cause of a DISPLAY_CHANGE (R156). -/
inductive DisplayCause where
  | state
  | node
  deriving DecidableEq, Repr

/-- One sign of a DISPLAY_CHANGE (R156). -/
structure SignChange where
  confirmed : Option Aspect
  commanded : Option Aspect
  changed : Bool
  deriving DecidableEq, Repr

/-- The bodies of the six notices (section 2.6). -/
inductive NoticeBody where
  /-- R112 -/
  | stationReport (station : Nat) (intervalEnd : Clock) (lanes : List LaneReport) (after : StationState)
  /-- R156 -/
  | displayChange (gantry : Nat) (cause : DisplayCause) (signs : List SignChange)
  /-- R122 -/
  | incidentEvent (change : IncidentChange) (handle : Nat) (record : Incident) (previous : Option Nat)
  /-- R111 -/
  | wrongWayAlert (station chainage lane : Nat) (passages : List Clock)
  /-- R65 -/
  | nodeEvent (gantry : Nat) (line : Line) (address : Nat) (previous present : NodeState) (reason : Reason)
      (mismatch : Option Mismatch)
  /-- R171 -/
  | fault (bank : BankId) (code : ErrorCode) (severity : Severity) (gantry station : Option Nat)
      (disposition : Disposition) (output : Bool)
  deriving DecidableEq, Repr

/-- A queued notice (R29): the clock at which it was raised, and its body. -/
structure Notice where
  clock : Clock
  body : NoticeBody
  deriving DecidableEq, Repr

/-- What the transmitter is sending (R28). -/
inductive Sent where
  | reply (r : Reply)
  | notice (n : Notice) (lost : Bool)
  /-- the reply to a RESET, after whose last byte the controller is reset (R16) -/
  | resetReply (r : Reply)
  deriving DecidableEq, Repr

/-- The frame being sent: what it is and its bytes from SOF to the check. -/
structure Sending where
  what : Sent
  frame : List Byte
  deriving DecidableEq, Repr

/-- The supervisor link unit. -/
structure Link where
  /-- rate code (R18) -/
  rate : BitVec 2
  framer : Framer
  rxQueue : List Frame
  replySlot : Option Reply
  notices : List Notice
  lost : Bool
  tx : Option Sending
  /-- a RESET has been taken and its reply has not yet left (R16, R25) -/
  resetting : Bool
  deriving DecidableEq, Repr

/-! ### The whole machine -/

/-- The state of the controller. -/
structure State where
  /-- the commands waiting, oldest first (the model's own field, log 3) -/
  pending : List Instr
  /-- counts the free values drawn (the model's own field, log 10) -/
  freeCount : Nat
  /-- the level of the RESET_N pin -/
  resetHigh : Bool
  clock : Clock
  link : Link
  geo : Geometry
  lineA : LineCtl
  lineB : LineCtl
  nodes : Table NodeRec
  measure : Measure
  traffic : Table StationState
  incidents : Table Incident
  sections : Table Shoulder
  plan : Plan
  rollout : Table RolloutRec
  banks : Banks
  deriving DecidableEq, Repr

/-! ### The state after power-on (R15) -/

/-- The defaults of section 1.6. -/
def Params.defaults : Params where
  measure := { interval := 60, maxGap := 1000, freeSpeed := 110, class1Limit := 520, class2Limit := 1100,
               smoothingShift := 2, stuckMarks := 4, silentMarks := 37, silentFlow := 300, edgeErrorLimit := 5 }
  congestion := { l1 := ⟨1200, 1000, 100⟩, l2 := ⟨1500, 1300, 80⟩, l3 := ⟨1800, 1600, 60⟩, releaseCount := 3 }
  queue := { queueOn := 35, queueOff := 50, queueRelease := 3, reach0 := 40, reach1 := 60, reach2 := 0 }
  wrongway := { threshold := 2, window := 60, expiry := 300, reach := 3000, track := 3000, speed := 60 }
  plan := { step := 20, continuity := 2000, closureSpeed := 60, shoulderSpeed := 100, corridorMax := 120,
            divertPref := .near, gateTime := 15 }
  line := { pollPeriod := 1000, statePeriod := 10, settle := 500 }

/-- A line controller after reset: idle, nothing queued, luminance 8 (R15, R36, R48). -/
def LineCtl.idle : LineCtl where
  engine := .free
  flight := none
  queues := ⟨[], [], [], [], [], []⟩
  held := []
  polls := []
  level := 8
  lumenTimer := none

/-- An empty bank (R169). -/
def Bank.empty : Bank := ⟨none, false⟩

/-- Every section CLOSED (R128). -/
def Shoulder.allClosed : Table Shoulder := [(1, .closed), (2, .closed), (3, .closed), (4, .closed)]

/-- The state of R15. The rate code before any strap is sampled is 0 (DESIGN CHOICE, log 7); RESET_N is
high. -/
def State.reset : State where
  pending := []
  freeCount := 0
  resetHigh := true
  clock := 0
  link := { rate := 0, framer := ⟨.idle, [], none, false⟩, rxQueue := [], replySlot := none, notices := [],
            lost := false, tx := none, resetting := false }
  geo := { mode := .setup, gantries := [], stations := [], params := Params.defaults, waiting := ⟨none, none, none⟩,
           home := [], contin := [] }
  lineA := LineCtl.idle
  lineB := LineCtl.idle
  nodes := []
  measure := ⟨none, []⟩
  traffic := []
  incidents := []
  sections := Shoulder.allClosed
  plan := ⟨[], [], none, false⟩
  rollout := []
  banks := ⟨Bank.empty, Bank.empty, Bank.empty, Bank.empty, Bank.empty⟩

end Sys2Proof.Machine
end

