-- ==== Sys2Proof/Machine/Ops.lean ====
section
/-! DEFINITION. The operations every block uses: tables, lane sets, the geometry lookups, notices, error
recording, replies, and the acts of one block on its own record. -/

namespace Sys2Proof.Machine

/-! ### Tables -/

/-- The record under a number. -/
def Table.look {α : Type} : Table α → Nat → Option α
  | [], _ => none
  | (k, v) :: t, n => if n = k then some v else Table.look t n

/-- Store a record under a number, replacing the one there; the numbers stay strictly rising. -/
def Table.put {α : Type} : Table α → Nat → α → Table α
  | [], n, v => [(n, v)]
  | (k, w) :: t, n, v =>
    if n < k then (n, v) :: (k, w) :: t
    else if n = k then (n, v) :: t
    else (k, w) :: Table.put t n v

/-- Remove the record under a number. -/
def Table.del {α : Type} : Table α → Nat → Table α
  | [], _ => []
  | (k, w) :: t, n => if n = k then Table.del t n else (k, w) :: Table.del t n

/-- Change the record under a number, if there is one. -/
def Table.adjust {α : Type} (t : Table α) (n : Nat) (f : α → α) : Table α :=
  t.map fun kv => if kv.1 = n then (kv.1, f kv.2) else kv

/-- Change every record. -/
def Table.mapValues {α β : Type} (t : Table α) (f : α → β) : Table β :=
  t.map fun kv => (kv.1, f kv.2)

/-- The numbers that have a record, ascending. -/
def Table.keys {α : Type} (t : Table α) : List Nat := t.map (·.1)

/-- Whether a number has a record. -/
def Table.has {α : Type} (t : Table α) (n : Nat) : Bool := (t.look n).isSome

/-- The canonical form: numbers strictly rising. -/
def Table.rising {α : Type} : Table α → Bool
  | [] => true
  | [_] => true
  | (k, _) :: (k', v') :: t => k < k' && Table.rising ((k', v') :: t)

/-- The lowest number below `cap` that has no record: the slot a new record takes (R115, R132). -/
def Table.lowestFree {α : Type} (t : Table α) (cap : Nat) : Option Nat :=
  (List.range cap).find? fun n => !t.has n

/-! ### Numbers -/

/-- A counter that stays at the top of its range (R74, R96). -/
def satAdd (top a b : Nat) : Nat := min top (a + b)

/-- A value brought to the nearest bound of its range (R9). -/
def clampTo (lo hi v : Nat) : Nat := max lo (min hi v)

/-- A speed rounded down to a multiple of 10 (R9). -/
def roundSpeed (v : Nat) : Nat := v / 10 * 10

/-- The lowest of a list of numbers. -/
def lowest : List Nat → Option Nat
  | [] => none
  | v :: vs => some (match lowest vs with | none => v | some w => min v w)

/-! ### Lane sets -/

/-- Whether a lane set holds a position. -/
def LaneSet.holds (l : LaneSet) (p : Nat) : Bool := l.getLsbD p

/-- The positions of a lane set, ascending. -/
def LaneSet.positions (l : LaneSet) : List Nat := (List.range 6).filter fun p => LaneSet.holds l p

/-- A run of consecutive positions (R1). -/
def LaneSet.contiguous (l : LaneSet) : Bool :=
  match LaneSet.positions l with
  | [] => false
  | p :: ps => (p :: ps).getLast?.getD p == p + ps.length

/-- Lanes a gantry may have (R1): a contiguous run with at least one of the positions 1 to 5. -/
def LaneSet.gantryLanes (l : LaneSet) : Bool :=
  LaneSet.contiguous l && (LaneSet.positions l).any (fun p => 1 ≤ p)

/-- Whether every position of one lane set is in another. -/
def LaneSet.within (l m : LaneSet) : Bool := (LaneSet.positions l).all fun p => LaneSet.holds m p

/-! ### Signs (R1) -/

/-- The signs of a gantry in index order: the lane signals in ascending position, then the panel. -/
def GantryRec.kinds (r : GantryRec) : List SignKind :=
  (LaneSet.positions r.lanes).map SignKind.lane ++ (if r.panel then [.panel] else [])

/-- The number of signs of a gantry. -/
def GantryRec.signCount (r : GantryRec) : Nat := r.kinds.length

/-- The entry of a per-sign list that belongs to the lane signal at position p. -/
def entryAt {α : Type} : List SignKind → List α → Nat → Option α
  | k :: ks, x :: xs, p => if k = .lane p then some x else entryAt ks xs p
  | _, _, _ => none

/-- The entry of a per-sign list that belongs to the panel. -/
def panelEntry {α : Type} : List SignKind → List α → Option α
  | k :: ks, x :: xs => if k = .panel then some x else panelEntry ks xs
  | _, _ => none

/-- Whether an aspect is one the sign's kind can show (R44). -/
def Aspect.fits : SignKind → Aspect → Bool
  | _, .blank => true
  | .lane _, .legend _ => false
  | .lane _, _ => true
  | .panel, .legend _ => true
  | .panel, _ => false

/-- CLOSED or a DIVERT. -/
def Aspect.isCell : Aspect → Bool
  | .closed => true
  | .divert _ => true
  | _ => false

/-! ### Lookups -/

/-- The line controller of a line. -/
def State.line (s : State) : Line → LineCtl
  | .a => s.lineA
  | .b => s.lineB

/-- Replace the line controller of a line. -/
def State.setLine (s : State) (l : Line) (c : LineCtl) : State :=
  match l with
  | .a => { s with lineA := c }
  | .b => { s with lineB := c }

/-- Change the line controller of a line. -/
def State.onLine (s : State) (l : Line) (f : LineCtl → LineCtl) : State := s.setLine l (f (s.line l))

/-- Change the line controller that reaches a gantry's node. -/
def State.onLineOf (s : State) (g : Nat) (f : LineCtl → LineCtl) : State :=
  match s.geo.gantries.look g with
  | none => s
  | some r => s.onLine r.line f

/-- The signs of a gantry, none for an undefined gantry. -/
def State.kinds (s : State) (g : Nat) : List SignKind :=
  match s.geo.gantries.look g with
  | none => []
  | some r => r.kinds

/-- The state of a gantry's node, if it has a record. -/
def State.nodeState (s : State) (g : Nat) : Option NodeState := (s.nodes.look g).map (·.state)

/-- The station whose host is this gantry (R46; START lets no two stations share a host). -/
def State.hosted (s : State) (g : Nat) : Option (Nat × StationRec) :=
  s.geo.stations.find? fun kv => kv.2.host == g

/-- The bank of a line (R43). -/
def lineBank : Line → BankId
  | .a => .lineA
  | .b => .lineB

/-- The bank of the line that carries a gantry (section 10.4). -/
def State.bankOf (s : State) (g : Nat) : BankId :=
  match s.geo.gantries.look g with
  | none => .lineA
  | some r => lineBank r.line

/-- R4: a section exists when a defined gantry names it. -/
def State.sectionExists (s : State) (n : Nat) : Bool := s.geo.gantries.any fun kv => kv.2.sec == n

/-- The gantry with the greatest chainage no greater than x (R5, R123), the last such in ascending
number. -/
def atOrUpstream (gs : Table GantryRec) (x : Nat) : Option Nat :=
  (gs.foldl (fun (best : Option (Nat × Nat)) kv =>
      if kv.2.chainage ≤ x then
        match best with
        | none => some (kv.1, kv.2.chainage)
        | some b => if b.2 ≤ kv.2.chainage then some (kv.1, kv.2.chainage) else best
      else best) none).map (·.1)

/-! ### Fault banks (R170 to R172) -/

/-- The bank under its name. -/
def Banks.look (b : Banks) : BankId → Bank
  | .link => b.link
  | .lineA => b.lineA
  | .lineB => b.lineB
  | .measure => b.measure
  | .plan => b.plan

/-- Replace one bank. -/
def Banks.put (b : Banks) (id : BankId) (v : Bank) : Banks :=
  match id with
  | .link => { b with link := v }
  | .lineA => { b with lineA := v }
  | .lineB => { b with lineB := v }
  | .measure => { b with measure := v }
  | .plan => { b with plan := v }

/-- An error arrives at a bank (R170), with what became of it (R171). -/
def Bank.take (b : Bank) (e : ErrorRec) : Bank × Disposition :=
  match b.held with
  | none => (⟨some e, false⟩, .held)
  | some h =>
    if h.severity = .warn ∧ e.severity = .fault then (⟨some e, true⟩, .replaced)
    else (⟨some h, true⟩, .notHeld)

/-- Whether a bank holds a fault-severity record. -/
def Bank.faulty (b : Bank) : Bool :=
  match b.held with
  | some e => e.severity == .fault
  | none => false

/-- The FAULT output (R172): asserted while any bank holds a fault-severity record. -/
def Banks.output (b : Banks) : Bool :=
  b.link.faulty || b.lineA.faulty || b.lineB.faulty || b.measure.faulty || b.plan.faulty

/-- The level of the FAULT pin. -/
def State.faultOutput (s : State) : Bool := s.banks.output

/-! ### Notices and error records -/

/-- R29: the notice queue holds at most 32 notices. -/
def noticeCapacity : Nat := 32

/-- Raise a notice (R29). A full queue drops it; the first drop sets the lost flag and records
NOTICE_LOST in LINK, whose own FAULT notice finds the queue still full (R30). -/
def State.raise (b : NoticeBody) (s : State) : State :=
  if s.link.notices.length < noticeCapacity then
    { s with link := { s.link with notices := s.link.notices ++ [⟨s.clock, b⟩] } }
  else if s.link.lost then s
  else
    { s with
      link := { s.link with lost := true }
      banks := { s.banks with link := (s.banks.link.take ⟨.warn, .noticeLost, none, none, s.clock⟩).1 } }

/-- Record an error in a bank (R170) and raise its FAULT notice (R171). -/
def State.record (id : BankId) (code : ErrorCode) (sev : Severity) (gantry station : Option Nat) (s : State) : State :=
  let r := (s.banks.look id).take ⟨sev, code, gantry, station, s.clock⟩
  let s1 := { s with banks := s.banks.put id r.1 }
  s1.raise (.fault id code sev gantry station r.2 s1.faultOutput)

/-- A WARN of the link unit (R32): no gantry, no station. -/
def State.linkError (code : ErrorCode) (s : State) : State := s.record .link code .warn none none

/-- A WARN or FAULT of the measurement unit, with the station and its host gantry (section 5.8). -/
def State.measureError (code : ErrorCode) (sev : Severity) (st : Nat) (s : State) : State :=
  s.record .measure code sev ((s.geo.stations.look st).map (·.host)) (some st)

/-! ### Requests and replies (R25 to R27) -/

/-- What a block answers to a request: the state after it, the result code and the detail. -/
structure Answer where
  state : State
  result : Result
  detail : Detail

/-- A refusal changes no state and carries its code alone (R26, R27). -/
def refuse (s : State) (r : Result) : Answer := ⟨s, r, .none⟩

/-- A request taken with nothing more to say. -/
def accept (s : State) : Answer := ⟨s, .ok, .none⟩

/-- The frame a request row takes, with the queue behind it: the oldest of the receive queue, while the
reply slot is empty, no RESET has been taken (R25) and RESET_N is high. -/
def State.takeable (s : State) (fits : Byte → Bool) : Option (Frame × List Frame) :=
  if s.resetHigh && !s.link.resetting && s.link.replySlot.isNone then
    match s.link.rxQueue with
    | [] => none
    | f :: rest => if fits f.typ then some (f, rest) else none
  else none

/-- The reply to a frame (R27) placed in the reply slot. -/
def State.placeReply (s : State) (f : Frame) (r : Result) (d : Detail) : State :=
  { s with link := { s.link with replySlot := some ⟨f.typ ||| 0x80#8, f.tag, r, d⟩ } }

/-- Take a request (R25, R26): the frame leaves the queue, its block answers, the reply is placed. While
no such request can be taken the row has no effect (log 2). -/
def takeRequest (fits : Byte → Bool) (h : State → List Byte → Answer) (s : State) :
    Host.Outcome State Fault Refusal :=
  match s.takeable fits with
  | none => .next s
  | some (f, rest) =>
    let a := h { s with link := { s.link with rxQueue := rest } } f.payload
    .next (a.state.placeReply f a.result a.detail)

/-- An event of the controller's own or of its lines: without effect while RESET_N is low (R15, log 8). -/
def whenRunning (s : State) (f : State → State) : Host.Outcome State Fault Refusal :=
  if s.resetHigh then .next (f s) else .next s

/-- The request TYPE values (section 11.1). -/
def requestTypes : List Byte :=
  [0x01#8, 0x02#8, 0x03#8, 0x04#8, 0x05#8, 0x06#8, 0x07#8, 0x08#8, 0x09#8, 0x0A#8, 0x0B#8, 0x0C#8, 0x0D#8, 0x0E#8,
   0x0F#8, 0x10#8, 0x11#8, 0x12#8, 0x13#8, 0x14#8, 0x15#8, 0x16#8]

/-! ### Line queues (section 3.6) -/

/-- The queue of a class. -/
def Queues.look (q : Queues) : Class → List Entry
  | .urgentShow => q.urgentShow
  | .confirm => q.confirm
  | .trace => q.trace
  | .normalShow => q.normalShow
  | .service => q.service
  | .lumen => q.lumen

/-- Replace the queue of a class. -/
def Queues.put (q : Queues) (c : Class) (l : List Entry) : Queues :=
  match c with
  | .urgentShow => { q with urgentShow := l }
  | .confirm => { q with confirm := l }
  | .trace => { q with trace := l }
  | .normalShow => { q with normalShow := l }
  | .service => { q with service := l }
  | .lumen => { q with lumen := l }

/-- The classes in the arbiter's order (R50). -/
def Class.order : List Class := [.urgentShow, .confirm, .trace, .normalShow, .service, .lumen]

/-- An entry joins the tail of a class. -/
def LineCtl.deposit (c : Class) (e : Entry) (l : LineCtl) : LineCtl :=
  { l with queues := l.queues.put c (l.queues.look c ++ [e]) }

/-- An entry joins the head of a class (R53). -/
def LineCtl.depositHead (c : Class) (e : Entry) (l : LineCtl) : LineCtl :=
  { l with queues := l.queues.put c (e :: l.queues.look c) }

/-- Keep only the entries of a class that pass. -/
def LineCtl.keepIn (c : Class) (keep : Entry → Bool) (l : LineCtl) : LineCtl :=
  { l with queues := l.queues.put c ((l.queues.look c).filter keep) }

/-- The class of a SHOW (R51). -/
def ShowClass.cls : ShowClass → Class
  | .urgent => .urgentShow
  | .normal => .normalShow

/-- Remove a gantry's SHOW entries. -/
def LineCtl.removeShow (g : Nat) (l : LineCtl) : LineCtl :=
  (l.keepIn .urgentShow (fun e => e.gantry != g)).keepIn .normalShow (fun e => e.gantry != g)

/-- Withdraw a gantry's confirmation STATE, held or waiting in CONFIRM; a retry entry of the line
controller's own stays (R160). -/
def LineCtl.withdrawConfirm (g : Nat) (l : LineCtl) : LineCtl :=
  { (l.keepIn .confirm (fun e => e.gantry != g || e.retry)) with held := l.held.del g }

/-- Stop a node's poll timers and remove its TRACE and routine STATE entries (R52). -/
def LineCtl.stopPolls (g : Nat) (l : LineCtl) : LineCtl :=
  let l1 := (l.keepIn .trace (fun e => e.gantry != g)).keepIn .service
    (fun e => e.gantry != g || e.job != .state .routine)
  { l1 with polls := l1.polls.del g }

/-- Start a node's poll timers with its first TRACE due at once (R52, R57). -/
def LineCtl.startPolls (pollPeriod : Nat) (g : Nat) (l : LineCtl) : LineCtl :=
  { l with polls := l.polls.put g ⟨pollPeriod, 0⟩ }

/-- GANTRY_SERVICE OUT (R54): every entry of the node is removed, its confirmation STATE discarded, its
timers stopped, and a telegram for it in flight runs on to be discarded. -/
def LineCtl.dropNode (g : Nat) (l : LineCtl) : LineCtl :=
  let keep : Entry → Bool := fun e => e.gantry != g
  { l with
    queues := ⟨l.queues.urgentShow.filter keep, l.queues.confirm.filter keep, l.queues.trace.filter keep,
               l.queues.normalShow.filter keep, l.queues.service.filter keep, l.queues.lumen.filter keep⟩
    held := l.held.del g
    polls := l.polls.del g
    flight := l.flight.map fun f => if f.gantry = g then { f with discarded := true } else f }

/-- STOP (R14, R54): queues emptied, held STATEs discarded, timers stopped; the telegram in flight runs
on to be discarded. -/
def LineCtl.stopped (l : LineCtl) : LineCtl :=
  { l with
    queues := ⟨[], [], [], [], [], []⟩
    held := []
    polls := []
    lumenTimer := none
    flight := l.flight.map fun f => { f with discarded := true } }

/-- Queue a LUMEN (R48): a waiting one keeps its place and takes the level. -/
def LineCtl.queueLumen (level : Nat) (l : LineCtl) : LineCtl :=
  match l.queues.lumen with
  | [] => l.deposit .lumen ⟨0, .lumen level, .line, false⟩
  | e :: es => { l with queues := { l.queues with lumen := { e with job := .lumen level } :: es } }

/-- Deposit a confirmation STATE, due `settle` from now: a new due time replaces a held one, and one
that has joined CONFIRM stays where it is (R51). -/
def LineCtl.depositConfirm (settle : Nat) (g : Nat) (l : LineCtl) : LineCtl :=
  if l.queues.confirm.any (fun e => e.gantry == g) then l else { l with held := l.held.put g settle }

/-! ### Free values -/

/-- Draw the next free value. -/
def State.draw (s : State) : Nat × State := (s.freeCount, { s with freeCount := s.freeCount + 1 })

/-- Put `x` into a list at a place, or at its tail. -/
def insertAt {α : Type} (x : α) : List α → Nat → List α
  | [], _ => [x]
  | y :: ys, n => if n = 0 then x :: y :: ys else y :: insertAt x ys (n - 1)

/-- A list in the order that the places give: each element goes to its place among those after it, so every order
comes of some places. -/
def reorder {α : Type} (place : Nat → Nat) : List α → List α
  | [] => []
  | x :: xs => insertAt x (reorder place xs) (place xs.length)

/-- Errors that reach one bank at one moment, in a free order (R170, log 25). One error alone draws nothing. -/
def State.anyOrder {α : Type} (xs : List α) (s : State) : List α × State :=
  if xs.length < 2 then (xs, s) else (reorder (Config.errorPlace s.draw.1) xs, s.draw.2)

end Sys2Proof.Machine
end

