-- ==== Sys2Proof/Machine/Operands.lean ====
section
/-! DEFINITION. The wire formats the controller reads, and the request telegrams it builds (chapter 11):
characters and check codes, request payloads, telegram contents, edge records and aspect codes. -/

namespace Sys2Proof.Machine

/-! ### Characters (R18, R33) -/

/-- Whether a byte has an odd number of ones. -/
def oddOnes (b : Byte) : Bool := (List.range 8).foldl (fun x i => x ^^ b.getLsbD i) false

/-- R23: even parity on the supervisor link. -/
def SupChar.parityError (c : SupChar) : Bool := oddOnes c.data != c.parity

/-- R23: the stop bit sampled low. -/
def SupChar.framingError (c : SupChar) : Bool := !c.stop

/-- R40: odd parity and a high stop bit on a gantry line. -/
def LineChar.intact (c : LineChar) : Bool := (oddOnes c.data != c.parity) && c.stop

/-- The eleven bit times of a character as they are sent (R18, R33): a low start bit, the data least significant bit
first, the parity bit, a high stop bit. True is the high level. -/
def charBits (b : Byte) (parity : Bool) : List Bool := false :: (List.range 8).map b.getLsbD ++ [parity, true]

/-- A byte as the controller sends it on a gantry line: odd parity (R33). -/
def lineBits (b : Byte) : List Bool := charBits b (!oddOnes b)

/-- A byte as the controller sends it on SUP_TX: even parity (R18). -/
def supBits (b : Byte) : List Bool := charBits b (oddOnes b)

/-- What the controller does with a line in each half of a bit time: the level it drives with TXEN asserted, or none
while it has released the line (R33). -/
abbrev Drive := List (Option Bool)

/-- LA_TXEN and LB_TXEN are asserted exactly while the controller drives (R33). -/
def txEnable (h : Option Bool) : Bool := h.isSome

/-- The twelve bit times of a byte the controller sends: eleven driven, then the line released for the slot (R33). -/
def ownByteDrive (b : Byte) : Drive := (lineBits b).flatMap (fun x => [some x, some x]) ++ [none, none]

/-- How the controller answers the slot of a reply byte (R33, R40, R41). -/
inductive SlotDrive where
  | ack
  | nack
  | undriven
  deriving DecidableEq, Repr

/-- The two halves of a slot that the controller answers: ACK low then high, NACK high then low (R33). -/
def SlotDrive.halves : SlotDrive → Drive
  | .ack => [some false, some true]
  | .nack => [some true, some false]
  | .undriven => [none, none]

/-- The twelve bit times of a node's byte: eleven released, then the slot (R33). -/
def nodeByteDrive (a : SlotDrive) : Drive := List.replicate 22 none ++ a.halves

/-- What an acknowledge slot says (R33). -/
inductive SlotAnswer where
  | ack
  | nack
  | silence
  deriving DecidableEq, Repr

/-- R33: low then high is ACK, high then low is NACK, any other pattern is silence. -/
def slotAnswer (sl : Slot) : SlotAnswer :=
  if sl.first then (if sl.second then .silence else .nack)
  else (if sl.second then .ack else .silence)

/-! ### Check codes (R175, R176) -/

/-- One shift of the CRC-16 register. -/
def crc16Bit (r : BitVec 16) : BitVec 16 := if r.msb then (r <<< 1) ^^^ 0x1021#16 else r <<< 1

/-- One byte of the CRC-16 computation. -/
def crc16Byte (r : BitVec 16) (b : Byte) : BitVec 16 :=
  let r0 := r ^^^ (b.setWidth 16 <<< 8)
  crc16Bit (crc16Bit (crc16Bit (crc16Bit (crc16Bit (crc16Bit (crc16Bit (crc16Bit r0)))))))

/-- The CRC-16 of the supervisor link (R175). -/
def crc16 (bs : List Byte) : BitVec 16 := bs.foldl crc16Byte 0xFFFF#16

/-- One shift of the CRC-8 register. -/
def crc8Bit (r : Byte) : Byte := if r.msb then (r <<< 1) ^^^ 0x07#8 else r <<< 1

/-- One byte of the CRC-8 computation. -/
def crc8Byte (r b : Byte) : Byte :=
  crc8Bit (crc8Bit (crc8Bit (crc8Bit (crc8Bit (crc8Bit (crc8Bit (crc8Bit (r ^^^ b))))))))

/-- The CRC-8 of the gantry lines (R176). -/
def crc8 (bs : List Byte) : Byte := bs.foldl crc8Byte 0x00#8

/-- The high byte of a 16-bit value. -/
def highByte (w : BitVec 16) : Byte := w.extractLsb' 8 8

/-- The low byte of a 16-bit value. -/
def lowByte (w : BitVec 16) : Byte := w.extractLsb' 0 8

/-! ### Aspect codes (section 11.3) -/

/-- The code of an aspect. -/
def Aspect.code : Aspect → Byte
  | .blank => 0x00#8
  | .closed => 0x01#8
  | .divert .near => 0x02#8
  | .divert .off => 0x03#8
  | .speed v => BitVec.ofNat 8 (0x40 + v / 10)
  | .legend n => BitVec.ofNat 8 (0x80 + n)

/-- The aspect a code names (R177); none for a value outside the table. -/
def aspectOfCode (b : Byte) : Option Aspect :=
  let n := b.toNat
  if n = 0 then some .blank
  else if n = 1 then some .closed
  else if n = 2 then some (.divert .near)
  else if n = 3 then some (.divert .off)
  else if 0x42 ≤ n ∧ n ≤ 0x4D then some (.speed ((n - 0x40) * 10))
  else if 0x81 ≤ n ∧ n ≤ 0xBF then some (.legend (n - 0x80))
  else none

/-! ### Request payload fields (R174, R175) -/

/-- What reading a payload gives: the fields, or the refusal R175 names. -/
inductive Parsed (α : Type) where
  | ok (a : α)
  | badLength
  | badValue
  deriving DecidableEq, Repr

/-- Go on with the fields read so far. -/
def Parsed.andThen {α β : Type} (p : Parsed α) (f : α → Parsed β) : Parsed β :=
  match p with
  | .ok a => f a
  | .badLength => .badLength
  | .badValue => .badValue

/-- A two-byte number, high byte first. -/
def num2 (h l : Byte) : Nat := h.toNat * 256 + l.toNat

/-- A lane set byte: bit 6 or 7 set is no lane set (R175). -/
def laneSetOf (b : Byte) : Option LaneSet := if b.toNat < 64 then some (b.setWidth 6) else none

/-- A lane set byte read as a set of positions. -/
def laneSetBits (b : Byte) : LaneSet := b.setWidth 6

/-- A yes or no byte: 0 no, 1 yes (log 11). -/
def yesNo (b : Byte) : Option Bool := if b = 0#8 then some false else if b = 1#8 then some true else none

/-- A one-byte field that may be absent: a presence byte, then the value if present (R174). A presence
byte outside its list is BAD_VALUE (R175). -/
def optByte : List Byte → Parsed (Option Byte × List Byte)
  | [] => .badLength
  | p :: rest =>
    if p = 0#8 then .ok (none, rest)
    else if p = 1#8 then
      match rest with
      | [] => .badLength
      | v :: rest' => .ok (some v, rest')
    else .badValue

/-- Whether a payload is as long as fields of these widths call for, each behind a byte that says whether its value
follows. A byte outside its list may stand for either (log 14), so that the length is judged first (R26). -/
def fieldsFit (carries : Byte → Option Bool) : List Nat → List Byte → Bool
  | [], bs => bs.isEmpty
  | _ :: _, [] => false
  | w :: ws, m :: rest =>
    (carries m != some true && fieldsFit carries ws rest) ||
      (carries m != some false && decide (w ≤ rest.length) && fieldsFit carries ws (rest.drop w))

/-- A payload of one of these lengths has a bad byte, BAD_VALUE; one of any other length fits no reading, BAD_LENGTH
(R26, log 14). -/
def badOf {α : Type} (lengths : List Nat) (payload : List Byte) : Parsed α :=
  if lengths.contains payload.length then .badValue else .badLength

/-- What DEFINE_GANTRY asks (R2). -/
inductive GantryEdit where
  | remove (g : Nat)
  | define (g : Nat) (r : GantryRec)
  deriving DecidableEq, Repr

/-- The payload of DEFINE_GANTRY (R2): remove first, then the gantry alone or every field of R1 in order. -/
def parseDefineGantry : List Byte → Parsed GantryEdit
  | [] => .badLength
  | rm :: rest =>
    match yesNo rm with
    | none => badOf [1, 8] rest
    | some true =>
      match rest with
      | [g] => if 1 ≤ g.toNat ∧ g.toNat ≤ 32 then .ok (.remove g.toNat) else .badValue
      | _ => .badLength
    | some false =>
      match rest with
      | [g, c1, c0, l, a, ls, p, sc] =>
        match laneSetOf ls, yesNo p with
        | some lanes, some panel =>
          if 1 ≤ g.toNat ∧ g.toNat ≤ 32 ∧ num2 c1 c0 ≤ 65000 ∧ l.toNat ≤ 1 ∧ 1 ≤ a.toNat ∧ a.toNat ≤ 16 ∧
              LaneSet.gantryLanes lanes = true ∧ sc.toNat ≤ 4 then
            .ok (.define g.toNat
              { chainage := num2 c1 c0, line := if l = 0#8 then .a else .b, address := a.toNat, lanes := lanes,
                panel := panel, sec := sc.toNat, service := .inService })
          else .badValue
        | _, _ => .badValue
      | _ => .badLength

/-- What DEFINE_STATION asks (R3). -/
inductive StationEdit where
  | remove (n : Nat)
  | define (n : Nat) (r : StationRec)
  deriving DecidableEq, Repr

/-- The payload of DEFINE_STATION (R3), laid out as that of DEFINE_GANTRY. -/
def parseDefineStation : List Byte → Parsed StationEdit
  | [] => .badLength
  | rm :: rest =>
    match yesNo rm with
    | none => badOf [1, 9] rest
    | some true =>
      match rest with
      | [n] => if 1 ≤ n.toNat ∧ n.toNat ≤ 24 then .ok (.remove n.toNat) else .badValue
      | _ => .badLength
    | some false =>
      match rest with
      | [n, c1, c0, h, ls, d1, d0, w1, w0] =>
        match laneSetOf ls with
        | some lanes =>
          if 1 ≤ n.toNat ∧ n.toNat ≤ 24 ∧ num2 c1 c0 ≤ 65000 ∧ 1 ≤ h.toNat ∧ h.toNat ≤ 32 ∧
              300 ≤ num2 d1 d0 ∧ num2 d1 d0 ≤ 600 ∧ 100 ≤ num2 w1 w0 ∧ num2 w1 w0 ≤ 300 ∧
              num2 w1 w0 < num2 d1 d0 then
            .ok (.define n.toNat
              { chainage := num2 c1 c0, host := h.toNat, lanes := lanes, spacing := num2 d1 d0,
                loopLength := num2 w1 w0 })
          else .badValue
        | none => .badValue
      | _ => .badLength

/-! ### Parameter groups (R8 to R10) -/

/-- The group codes of R174. -/
inductive Group where
  | measure
  | congestion
  | queue
  | wrongway
  | plan
  | line
  deriving DecidableEq, Repr

/-- The group a code names. -/
def groupOfCode (b : Byte) : Option Group :=
  if b = 0#8 then some .measure
  else if b = 1#8 then some .congestion
  else if b = 2#8 then some .queue
  else if b = 3#8 then some .wrongway
  else if b = 4#8 then some .plan
  else if b = 5#8 then some .line
  else none

/-- The bytes of each field of a group, in the order of section 1.6: the fewest that hold its range (R174). -/
def Group.widths : Group → List Nat
  | .measure => [1, 2, 1, 2, 2, 1, 1, 1, 2, 1]
  | .congestion => [2, 2, 1, 2, 2, 1, 2, 2, 1, 1]
  | .queue => [1, 1, 1, 1, 1, 1]
  | .wrongway => [1, 2, 2, 2, 2, 1]
  | .plan => [1, 2, 1, 1, 1, 1, 1]
  | .line => [2, 1, 2]

/-- Split a payload into fields of the given widths; none unless the length is exact. -/
def splitFields : List Nat → List Byte → Option (List Nat)
  | [], [] => some []
  | 1 :: ws, b :: bs => (splitFields ws bs).map (b.toNat :: ·)
  | 2 :: ws, h :: l :: bs => (splitFields ws bs).map (num2 h l :: ·)
  | _, _ => none

/-- The values of a group as they are stored. -/
inductive GroupValue where
  | measure (p : MeasureParams)
  | congestion (p : CongestionParams)
  | queue (p : QueueParams)
  | wrongway (p : WrongwayParams)
  | plan (p : PlanParams)
  | line (p : LineParams)
  deriving DecidableEq, Repr

/-- A speed field (R9): rounded down to a multiple of 10, then clamped. -/
def fitSpeed (lo hi v : Nat) : Nat := clampTo lo hi (roundSpeed v)

/-- The interval (R9): below 45 is 30, else 60. -/
def fitInterval (v : Nat) : Nat := if v < 45 then 30 else 60

/-- A reach entry (R9): 0 is absent and stays 0; any other value is present. -/
def fitReach (v : Nat) : Nat := if v = 0 then 0 else fitSpeed 20 80 v

/-- A congestion level (R9): absent when flow_on is sent as 0, and then stored as zeros. -/
def fitLevel (on off speed : Nat) : LevelParams :=
  if on = 0 then ⟨0, 0, 0⟩ else ⟨clampTo 200 3000 on, clampTo 200 3000 off, fitSpeed 20 130 speed⟩

/-- The positions, counted from 0, at which two lists differ. -/
def changedAt : Nat → List Nat → List Nat → List Nat
  | n, x :: xs, y :: ys => if x = y then changedAt (n + 1) xs ys else n :: changedAt (n + 1) xs ys
  | _, _, _ => []

/-- The three values of a level sent, as far as R9 compares them: an absent level is neither rounded nor
clamped (log 19). -/
def levelSent (on off speed : Nat) : List Nat := if on = 0 then [0, 0, 0] else [on, off, speed]

/-- The three values of a level as stored. -/
def LevelParams.values (l : LevelParams) : List Nat := [l.flowOn, l.flowOff, l.speed]

/-- Bring a group's fields within their ranges (R9), with the fields whose stored value differs from the
value sent, named by their place in the group. -/
def fitGroup (g : Group) (raw : List Nat) : Parsed (GroupValue × List Nat) :=
  match g, raw with
  | .measure, [iv, mg, fs, c1, c2, k, st, si, sf, ee] =>
    let p : MeasureParams :=
      { interval := fitInterval iv, maxGap := clampTo 300 2000 mg, freeSpeed := fitSpeed 60 130 fs,
        class1Limit := clampTo 300 800 c1, class2Limit := clampTo 800 2000 c2, smoothingShift := clampTo 1 3 k,
        stuckMarks := clampTo 2 15 st, silentMarks := clampTo 8 110 si, silentFlow := clampTo 100 2000 sf,
        edgeErrorLimit := clampTo 1 50 ee }
    .ok (.measure p, changedAt 0 raw
      [p.interval, p.maxGap, p.freeSpeed, p.class1Limit, p.class2Limit, p.smoothingShift, p.stuckMarks, p.silentMarks,
       p.silentFlow, p.edgeErrorLimit])
  | .congestion, [a1, b1, v1, a2, b2, v2, a3, b3, v3, rc] =>
    let p : CongestionParams :=
      { l1 := fitLevel a1 b1 v1, l2 := fitLevel a2 b2 v2, l3 := fitLevel a3 b3 v3, releaseCount := clampTo 1 10 rc }
    .ok (.congestion p, changedAt 0 (levelSent a1 b1 v1 ++ levelSent a2 b2 v2 ++ levelSent a3 b3 v3 ++ [rc])
      (p.l1.values ++ p.l2.values ++ p.l3.values ++ [p.releaseCount]))
  | .queue, [on, off, rel, r0, r1, r2] =>
    let p : QueueParams :=
      { queueOn := clampTo 20 60 on, queueOff := clampTo 25 80 off, queueRelease := clampTo 1 10 rel,
        reach0 := fitReach r0, reach1 := fitReach r1, reach2 := fitReach r2 }
    .ok (.queue p, changedAt 0 raw [p.queueOn, p.queueOff, p.queueRelease, p.reach0, p.reach1, p.reach2])
  | .wrongway, [th, wi, ex, re, tr, sp] =>
    let p : WrongwayParams :=
      { threshold := clampTo 1 3 th, window := clampTo 20 300 wi, expiry := clampTo 60 1800 ex,
        reach := clampTo 500 6000 re, track := clampTo 500 6000 tr, speed := fitSpeed 20 80 sp }
    .ok (.wrongway p, changedAt 0 raw [p.threshold, p.window, p.expiry, p.reach, p.track, p.speed])
  | .plan, [st, co, cs, sh, cm, dp, gt] =>
    if dp > 1 then .badValue
    else
      let p : PlanParams :=
        { step := fitSpeed 10 30 st, continuity := clampTo 500 5000 co, closureSpeed := fitSpeed 40 80 cs,
          shoulderSpeed := fitSpeed 60 120 sh, corridorMax := fitSpeed 80 130 cm,
          divertPref := if dp = 0 then .near else .off, gateTime := clampTo 5 60 gt }
      .ok (.plan p, changedAt 0 raw
        [p.step, p.continuity, p.closureSpeed, p.shoulderSpeed, p.corridorMax, dp, p.gateTime])
  | .line, [pp, sp, se] =>
    let p : LineParams :=
      { pollPeriod := clampTo 250 2000 pp, statePeriod := clampTo 2 30 sp, settle := clampTo 200 2000 se }
    .ok (.line p, changedAt 0 raw [p.pollPeriod, p.statePeriod, p.settle])
  | _, _ => .badLength

/-- A congestion level that is present (R9). -/
def LevelParams.present (l : LevelParams) : Bool := l.flowOn != 0

/-- R10 for two neighbouring levels: the higher one present only with the lower one, its flow_on strictly
higher and its speed no higher. -/
def levelsRise (lo hi : LevelParams) : Bool :=
  !hi.present || (lo.present && decide (lo.flowOn < hi.flowOn) && decide (hi.speed ≤ lo.speed))

/-- R10: flow_off below flow_on in a present level. -/
def LevelParams.releases (l : LevelParams) : Bool := !l.present || decide (l.flowOff < l.flowOn)

/-- The cross-field checks of R10. -/
def GroupValue.crossOk : GroupValue → Bool
  | .measure p => decide (p.class1Limit < p.class2Limit)
  | .congestion p => p.l1.releases && p.l2.releases && p.l3.releases && levelsRise p.l1 p.l2 && levelsRise p.l2 p.l3
  | .queue p =>
    decide (p.queueOn + 5 ≤ p.queueOff) && (p.reach1 == 0 || p.reach0 != 0) && (p.reach2 == 0 || p.reach1 != 0)
  | _ => true

/-! ### Incident and demand requests -/

/-- What RAISE_INCIDENT carries (R116), the speed cap as sent. -/
structure RaiseReq where
  kind : IncidentKind
  start : Nat
  stop : Nat
  lanes : Option LaneSet
  cap : Option Nat
  legend : Option Nat
  deriving DecidableEq, Repr

/-- The incident kind a code names, in the order of R114. -/
def kindOfCode (b : Byte) : Option IncidentKind :=
  if b = 0#8 then some .laneClosure
  else if b = 1#8 then some .carriagewayClosure
  else if b = 2#8 then some .hazard
  else if b = 3#8 then some .wrongWay
  else none

/-- A lane set a LANE_CLOSURE may have (R114): not empty, not all six positions. -/
def closureLanes (b : Byte) : Option LaneSet :=
  if 0 < b.toNat ∧ b.toNat < 63 then some (laneSetBits b) else none

/-- A legend code 1 to 63 (R116). -/
def legendOk (b : Byte) : Bool := 1 ≤ b.toNat && b.toNat ≤ 63

/-- A legend that may be absent. -/
def legendOptOk : Option Byte → Bool
  | none => true
  | some b => legendOk b

/-- The value checks of RAISE_INCIDENT (R116, step 2). A LANE_CLOSURE that carries no lane set lacks a
required field (BAD_LENGTH, R26; log 13). -/
def checkRaise (k s1 s0 e1 e0 : Byte) (lanes cap legend : Option Byte) : Parsed RaiseReq :=
  match kindOfCode k with
  | none => .badValue
  | some kind =>
    if kind = .laneClosure ∧ lanes = none then .badLength
    else if 65000 < num2 s1 s0 ∨ 65000 < num2 e1 e0 ∨ num2 e1 e0 < num2 s1 s0 then .badValue
    else if legendOptOk legend = false then .badValue
    else
      match lanes with
      | none => .ok ⟨kind, num2 s1 s0, num2 e1 e0, none, cap.map (·.toNat), legend.map (·.toNat)⟩
      | some b =>
        if kind = .laneClosure then
          match closureLanes b with
          | none => .badValue
          | some ls => .ok ⟨kind, num2 s1 s0, num2 e1 e0, some ls, cap.map (·.toNat), legend.map (·.toNat)⟩
        else .badValue

/-- A presence byte: 0 absent, 1 present (R174). -/
def presence (b : Byte) : Option Bool := yesNo b

/-- R116 step 1: the payload behind kind, start and end is as long as the kind and the presence bytes call for; a
LANE_CLOSURE calls for its lane set (log 13). -/
def raiseFits (k : Byte) (rest : List Byte) : Bool :=
  if k = 0#8 then
    match rest with
    | p :: _ :: r => p != 0#8 && fieldsFit presence [1, 1] r
    | _ => false
  else fieldsFit presence [1, 1, 1] rest

/-- The payload of RAISE_INCIDENT (R116): kind, start, end, then lanes, speed cap and legend, each behind
its presence byte. -/
def parseRaise : List Byte → Parsed RaiseReq
  | k :: s1 :: s0 :: e1 :: e0 :: r0 =>
    if raiseFits k r0 then
      (optByte r0).andThen fun x => (optByte x.2).andThen fun y => (optByte y.2).andThen fun z =>
        match z.2 with
        | [] => checkRaise k s1 s0 e1 e0 x.1 y.1 z.1
        | _ :: _ => .badLength
    else .badLength
  | _ => .badLength

/-- The mark of an AMEND_INCIDENT field (R117). -/
inductive Mark where
  | keep
  | set (v : Nat)
  | remove
  deriving DecidableEq, Repr

/-- A one-byte field behind its mark (R117): keep 0, set 1 with the value, remove 2. -/
def mark1 : List Byte → Parsed (Mark × List Byte)
  | [] => .badLength
  | m :: rest =>
    if m = 0#8 then .ok (.keep, rest)
    else if m = 1#8 then
      match rest with
      | v :: rest' => .ok (.set v.toNat, rest')
      | [] => .badLength
    else if m = 2#8 then .ok (.remove, rest)
    else .badValue

/-- A two-byte field behind its mark. -/
def mark2 : List Byte → Parsed (Mark × List Byte)
  | [] => .badLength
  | m :: rest =>
    if m = 0#8 then .ok (.keep, rest)
    else if m = 1#8 then
      match rest with
      | h :: l :: rest' => .ok (.set (num2 h l), rest')
      | _ => .badLength
    else if m = 2#8 then .ok (.remove, rest)
    else .badValue

/-- Whether a mark byte is followed by a value (R117). -/
def markCarries (m : Byte) : Option Bool :=
  if m = 0#8 ∨ m = 2#8 then some false else if m = 1#8 then some true else none

/-- What AMEND_INCIDENT carries (R117). -/
structure AmendReq where
  handle : Nat
  start : Mark
  stop : Mark
  lanes : Mark
  cap : Mark
  legend : Mark
  deriving DecidableEq, Repr

/-- R117 step 2: the ranges of set values, and no remove mark on start, end or lanes. -/
def AmendReq.valuesOk (a : AmendReq) : Bool :=
  let chain : Mark → Bool := fun | .keep => true | .set v => decide (v ≤ 65000) | .remove => false
  let lanes : Bool := match a.lanes with | .keep => true | .set v => decide (0 < v ∧ v < 63) | .remove => false
  let legend : Bool := match a.legend with | .set v => decide (1 ≤ v ∧ v ≤ 63) | _ => true
  decide (a.handle < 16) && chain a.start && chain a.stop && lanes && legend

/-- The payload of AMEND_INCIDENT (R117): handle, then start, end, lanes, speed cap and legend; its length is judged
before its marks. -/
def parseAmend : List Byte → Parsed AmendReq
  | [] => .badLength
  | h :: r0 =>
    if fieldsFit markCarries [2, 2, 1, 1, 1] r0 then
      (mark2 r0).andThen fun a => (mark2 a.2).andThen fun b => (mark1 b.2).andThen fun c =>
        (mark1 c.2).andThen fun d => (mark1 d.2).andThen fun e =>
          match e.2 with
          | [] =>
            let q : AmendReq := ⟨h.toNat, a.1, b.1, c.1, d.1, e.1⟩
            if q.valuesOk then .ok q else .badValue
          | _ :: _ => .badLength
    else .badLength

/-- The payload of PLACE_DEMAND (R132): gantry, kind, then the fields the kind calls for (log 13). The
speed is as sent. -/
def parsePlace : List Byte → Parsed Demand
  | g :: k :: rest =>
    if k = 0#8 then
      match rest with
      | [ls, a] =>
        if 1 ≤ g.toNat ∧ g.toNat ≤ 32 ∧ 0 < ls.toNat ∧ ls.toNat < 64 then
          match aspectOfCode a with
          | some .closed => .ok ⟨g.toNat, .cell (laneSetBits ls) .closed⟩
          | some (.divert d) => .ok ⟨g.toNat, .cell (laneSetBits ls) (.divert d)⟩
          | _ => .badValue
        else .badValue
      | _ => .badLength
    else if k = 1#8 then
      match rest with
      | [v] => if 1 ≤ g.toNat ∧ g.toNat ≤ 32 then .ok ⟨g.toNat, .speed v.toNat⟩ else .badValue
      | _ => .badLength
    else if k = 2#8 then
      match rest with
      | [n] =>
        if 1 ≤ g.toNat ∧ g.toNat ≤ 32 ∧ legendOk n = true then .ok ⟨g.toNat, .legend n.toNat⟩ else .badValue
      | _ => .badLength
    else badOf [1, 2] rest
  | _ => .badLength

/-! ### Telegrams (R35, section 11.2) -/

/-- Function codes. -/
def Job.code : Job → Byte
  | .display => 0x01#8
  | .state _ => 0x02#8
  | .trace => 0x03#8
  | .describe => 0x04#8
  | .caps _ => 0x05#8
  | .lumen _ => 0x06#8

/-- The entries of a SHOW: sign index and aspect code for every sign in index order (R44). -/
def showPayload : Nat → List Aspect → List Byte
  | _, [] => []
  | i, a :: as => BitVec.ofNat 8 i :: a.code :: showPayload (i + 1) as

/-- The request payload of a function (section 3.4). -/
def Job.payload (contents : List Aspect) : Job → List Byte
  | .display => showPayload 0 contents
  | .caps i => [BitVec.ofNat 8 i]
  | .lumen l => [BitVec.ofNat 8 l]
  | _ => []

/-- A telegram (R35): ADDRESS, FUNCTION, LENGTH, payload and CHECK. -/
def telegram (address function : Byte) (payload : List Byte) : List Byte :=
  let head := address :: function :: BitVec.ofNat 8 payload.length :: payload
  head ++ [crc8 head]

/-- The contents of a STATE reply (R45). -/
structure StateReply where
  restarted : Bool
  overflowPending : Bool
  signs : List (Health × Aspect)
  deriving DecidableEq, Repr

/-- Health codes (section 11.2). -/
def healthOfCode (b : Byte) : Option Health :=
  if b = 0#8 then some .ok else if b = 1#8 then some .degraded else if b = 2#8 then some .failed else none

/-- The sign entries of a STATE reply, one for each sign of the gantry (R45, R177). -/
def stateSigns : List SignKind → List Byte → Option (List (Health × Aspect))
  | [], [] => some []
  | k :: ks, h :: a :: rest =>
    match healthOfCode h, aspectOfCode a with
    | some hl, some asp =>
      if Aspect.fits k asp then (stateSigns ks rest).map ((hl, asp) :: ·) else none
    | _, _ => none
  | _, _ => none

/-- The content limits of a STATE reply (R45, R176); none ends the telegram CORRUPT. -/
def decodeState (kinds : List SignKind) : List Byte → Option StateReply
  | [] => none
  | fl :: rest =>
    if fl.toNat < 4 then (stateSigns kinds rest).map fun sg => ⟨fl.getLsbD 0, fl.getLsbD 1, sg⟩ else none

/-- An edge record (R46). -/
structure EdgeRec where
  lane : Nat
  /-- loop B of the pair -/
  loopB : Bool
  /-- HELD, not EDGE -/
  held : Bool
  high : Bool
  tick : Tick
  deriving DecidableEq, Repr

/-- The three bytes of an edge record (section 11.2, R176). -/
def decodeEdge (lanes : LaneSet) (b0 b1 b2 : Byte) : Option EdgeRec :=
  let lane := (b0.extractLsb' 0 3).toNat
  if b0.toNat < 64 ∧ LaneSet.holds lanes lane = true then
    some ⟨lane, b0.getLsbD 3, b0.getLsbD 4, b0.getLsbD 5, b1 ++ b2⟩
  else none

/-- The records of a TRACE reply in their order. -/
def decodeEdges (lanes : LaneSet) : List Byte → Option (List EdgeRec)
  | [] => some []
  | b0 :: b1 :: b2 :: rest =>
    match decodeEdge lanes b0 b1 b2 with
    | some e => (decodeEdges lanes rest).map (e :: ·)
    | none => none
  | _ => none

/-- The contents of a TRACE reply (R46). -/
structure TraceReply where
  overflow : Bool
  more : Bool
  records : List EdgeRec
  deriving DecidableEq, Repr

/-- The content limits of a TRACE reply; `lanes` are those of the station the gantry hosts, none if it
hosts no station. -/
def decodeTrace (lanes : LaneSet) : List Byte → Option TraceReply
  | [] => none
  | fl :: rest =>
    if fl.toNat < 4 then (decodeEdges lanes rest).map fun es => ⟨fl.getLsbD 0, fl.getLsbD 1, es⟩ else none

/-- The contents of a DESCRIBE reply (R47). -/
structure DescribeReply where
  lanes : List Nat
  panel : Bool
  loops : LaneSet
  deriving DecidableEq, Repr

/-- Strictly increasing numbers. -/
def strictlyRising : List Nat → Bool
  | [] => true
  | [_] => true
  | a :: b :: rest => decide (a < b) && strictlyRising (b :: rest)

/-- The content limits of a DESCRIBE reply (R47, R176). -/
def decodeDescribe : List Byte → Option DescribeReply
  | c :: p :: l :: ls =>
    match yesNo p with
    | none => none
    | some panel =>
      let lanes := ls.map (·.toNat)
      if 1 ≤ c.toNat ∧ c.toNat ≤ 7 ∧ l.toNat < 64 ∧ c.toNat = lanes.length + (if panel then 1 else 0) ∧
          strictlyRising lanes = true ∧ lanes.all (fun q => decide (q ≤ 5)) = true then
        some ⟨lanes, panel, laneSetBits l⟩
      else none
  | _ => none

/-- The aspects of a CAPS reply; one entry that names no aspect ends it CORRUPT (R177). -/
def decodeAspects : List Byte → Option (List Aspect)
  | [] => some []
  | b :: bs =>
    match aspectOfCode b with
    | some a => (decodeAspects bs).map (a :: ·)
    | none => none

/-- The content limits of a CAPS reply to the request for sign i (R47, R176). -/
def decodeCaps (i : Nat) : List Byte → Option (List Aspect)
  | ix :: n :: rest =>
    if ix.toNat = i ∧ n.toNat ≤ 12 ∧ rest.length = n.toNat then decodeAspects rest else none
  | _ => none

/-- The reply lengths R41 accepts at the LENGTH byte (section 11.2). -/
def Job.lengthOk (n : Nat) : Job → Bool
  | .state _ => decide (3 ≤ n ∧ n ≤ 15 ∧ n % 2 = 1)
  | .trace => decide (1 ≤ n ∧ n ≤ 46 ∧ n % 3 = 1)
  | .describe => decide (3 ≤ n ∧ n ≤ 9)
  | .caps _ => decide (2 ≤ n ∧ n ≤ 14)
  | _ => false

end Sys2Proof.Machine
end

