-- ==== Sys2Proof/Machine/Encode.lean ====
section
/-! DEFINITION. The bytes of replies and notices (sections 2.2, 11.1, R174). Where R174 leaves a layout to
inference the choice is that of log 11, 12, 15, 18 and 37. -/

namespace Sys2Proof.Machine

/-! ### Numbers and choices -/

/-- A one-byte number. -/
def b1 (n : Nat) : List Byte := [BitVec.ofNat 8 n]

/-- A two-byte number, high byte first. -/
def b2 (n : Nat) : List Byte := [BitVec.ofNat 8 (n / 256), BitVec.ofNat 8 n]

/-- A three-byte number. -/
def b3 (n : Nat) : List Byte := BitVec.ofNat 8 (n / 65536) :: b2 n

/-- A four-byte number. -/
def b4 (n : Nat) : List Byte := b2 (n / 65536) ++ b2 n

/-- A corridor clock value. -/
def bClock (c : Clock) : List Byte := b4 c.toNat

/-- A yes or no field: 0 no, 1 yes (log 11). -/
def bBool (b : Bool) : List Byte := b1 (if b then 1 else 0)

/-- A field that may be absent: its presence byte, then its value (R174). -/
def bOpt {α : Type} (f : α → List Byte) : Option α → List Byte
  | none => b1 0
  | some a => b1 1 ++ f a

/-- A record that stands whenever it is reported: no presence byte (R174). -/
def bHeld {α : Type} (f : α → List Byte) : Option α → List Byte
  | none => []
  | some a => f a

/-- A time that its rule's table gives in seconds (R55, R153; log 37). -/
def bSeconds (ms : Nat) : List Byte :=
  b1 (ms / 1000 + if ms % 1000 ≠ 0 ∧ Config.secondsRoundUp ms = true then 1 else 0)

/-- The entries of a list one after another. -/
def bEach {α : Type} (f : α → List Byte) : List α → List Byte
  | [] => []
  | a :: as => f a ++ bEach f as

/-- A list: its count, then its entries (R174). -/
def bList {α : Type} (f : α → List Byte) (l : List α) : List Byte := b1 l.length ++ bEach f l

/-- A lane set byte. -/
def bLanes (l : LaneSet) : List Byte := b1 l.toNat

/-- An aspect field. -/
def bAspect (a : Aspect) : List Byte := [a.code]

/-- A commanded or confirmed entry: 0xFF while unknown (section 11.3). -/
def bEntry : Option Aspect → List Byte
  | none => [0xFF#8]
  | some a => bAspect a

/-- Result codes (section 11.1). -/
def Result.code : Result → Nat
  | .ok => 0
  | .okClamped => 1
  | .unknownType => 2
  | .badLength => 3
  | .badValue => 4
  | .badConfig => 5
  | .wrongMode => 6
  | .notFound => 7
  | .tableFull => 8
  | .conflict => 9

/-- Error codes (R174). -/
def ErrorCode.value : ErrorCode → Nat
  | .stray => 0x00
  | .frameTimeout => 0x01
  | .badLen => 0x02
  | .parity => 0x03
  | .framing => 0x04
  | .crc => 0x05
  | .overrun => 0x06
  | .noticeLost => 0x07
  | .noNode => 0x08
  | .nackLimit => 0x09
  | .replyTimeout => 0x0A
  | .replyBroken => 0x0B
  | .corrupt => 0x0C
  | .describeMismatch => 0x0D
  | .nodeRestart => 0x0E
  | .nodeOffline => 0x0F
  | .nodeSuspect => 0x10
  | .badCapability => 0x11
  | .confirmFail => 0x12
  | .edgeSequence => 0x13
  | .bufferOverflow => 0x14
  | .implausible => 0x15
  | .stuckOn => 0x16
  | .silent => 0x17
  | .stationInvalid => 0x18
  | .unserved => 0x19
  | .gateExpired => 0x1A
  | .detectionTableFull => 0x1B

/-- Bank codes (R174). -/
def BankId.code : BankId → Nat
  | .link => 0
  | .lineA => 1
  | .lineB => 2
  | .measure => 3
  | .plan => 4

/-- The bank a code names (R173). -/
def bankOfCode (b : Byte) : Option BankId :=
  if b = 0#8 then some .link
  else if b = 1#8 then some .lineA
  else if b = 2#8 then some .lineB
  else if b = 3#8 then some .measure
  else if b = 4#8 then some .plan
  else none

/-- NODE_EVENT reasons (R174). -/
def Reason.code : Reason → Nat
  | .start => 0x00
  | .serviceIn => 0x01
  | .described => 0x02
  | .recovered => 0x03
  | .retryReplied => 0x04
  | .nodeRestart => 0x05
  | .failure .noNode => 0x06
  | .failure .nackLimit => 0x07
  | .failure .corrupt => 0x08
  | .failure .replyTimeout => 0x09
  | .failure .replyBroken => 0x0A
  | .describeMismatch => 0x0B
  | .serviceOut => 0x0C

/-- Node states in the order of R55. -/
def NodeState.code : NodeState → Nat
  | .absent => 0
  | .describing => 1
  | .online => 2
  | .suspect => 3
  | .offline => 4
  | .disabled => 5

/-- Mismatches in the order of R55. -/
def Mismatch.code : Mismatch → Nat
  | .lanes => 0
  | .panel => 1
  | .loops => 2

/-- Health codes in the order of R67. -/
def Health.code : Health → Nat
  | .ok => 0
  | .degraded => 1
  | .failed => 2

/-- Severities in the order of R169. -/
def Severity.code : Severity → Nat
  | .warn => 0
  | .fault => 1

/-- Lines in the order of R1. -/
def lineCode : Line → Nat
  | .a => 0
  | .b => 1

/-- Levels in the order of R96. -/
def Level.code : Level → Nat
  | .clear => 0
  | .l1 => 1
  | .l2 => 2
  | .l3 => 3

/-- Incident kinds in the order of R114. -/
def IncidentKind.code : IncidentKind → Nat
  | .laneClosure => 0
  | .carriagewayClosure => 1
  | .hazard => 2
  | .wrongWay => 3

/-- Incident changes in the order of R122. -/
def IncidentChange.code : IncidentChange → Nat
  | .raised => 0
  | .amended => 1
  | .tracked => 2
  | .confirmed => 3
  | .cleared => 4
  | .expired => 5

/-- Lane statuses in the order of R112. -/
def LaneStatus.code : LaneStatus → Nat
  | .valid => 0
  | .suspect => 1
  | .faulty => 2

/-- The checks of START in their order (R12), counted from 0. -/
def StartCheck.code : StartCheck → Nat
  | .noGantry => 0
  | .gantryNumbering => 1
  | .gantryOrder => 2
  | .addressShared => 3
  | .shoulderPosition => 4
  | .sectionRun => 5
  | .stationNumbering => 6
  | .stationOrder => 7
  | .hostMissing => 8
  | .nodeShared => 9
  | .stationEmpty => 10
  | .laneNotPresent => 11

/-- The item kinds of R12 in their order. -/
def ItemKind.code : ItemKind → Nat
  | .corridor => 0
  | .gantry => 1
  | .station => 2
  | .sec => 3

/-! ### Records -/

/-- Fault reasons as a list of their codes: STUCK_ON 0, SILENT 1, NODE 2 (R112). -/
def bReasons (r : Reasons) : List Byte :=
  bList b1 ((if r.stuckOn then [0] else []) ++ (if r.silent then [1] else []) ++ (if r.node then [2] else []))

/-- A lane of a STATION_REPORT (R112). -/
def bLaneReport (l : LaneReport) : List Byte :=
  b1 l.lane ++ b2 l.count ++ bOpt b1 l.meanSpeed ++ b2 l.occupancy ++ b2 l.class1 ++ b2 l.class2 ++ b2 l.class3 ++
    b2 l.reverse ++ b2 l.unpaired ++ b2 l.rejected ++ b2 l.edgeErrors ++ b1 l.status.code ++ bReasons l.reasons ++
    bBool l.included ++ bBool l.shoulderExcluded

/-- R102: a smoothed value in whole units. -/
def smoothed (x : Nat) : Nat := (x + 8) / 16

/-- An incident record with its handle (R114). -/
def bIncident (h : Nat) (r : Incident) : List Byte :=
  b1 h ++ b1 r.kind.code ++ b1 (match r.origin with | .supervisor => 0 | .detection => 1) ++ b2 r.start ++ b2 r.stop ++
    bOpt bLanes r.lanes ++ bOpt b1 r.cap ++ bOpt b1 r.legend ++ bOpt b1 r.anchor ++ bOpt b3 r.expiry ++ bClock r.raised

/-- The aspect code of a cell demand. -/
def Cell.toAspect : Cell → Aspect
  | .closed => .closed
  | .divert d => .divert d

/-- A host demand with its handle (R131): gantry, kind and the fields of R131, absent ones marked. -/
def bDemand (h : Nat) (d : Demand) : List Byte :=
  b1 h ++ b1 d.gantry ++
    match d.what with
    | .cell ls a => b1 0 ++ bOpt bLanes (some ls) ++ bOpt bAspect (some a.toAspect) ++ b1 0 ++ b1 0
    | .speed v => b1 1 ++ b1 0 ++ b1 0 ++ bOpt b1 (some v) ++ b1 0
    | .legend n => b1 2 ++ b1 0 ++ b1 0 ++ b1 0 ++ bOpt b1 (some n)

/-- A target record (R151). -/
def bTarget (t : Target) : List Byte :=
  bOpt b1 t.speed ++ bList (fun x : SignTarget =>
    bAspect x.wanted ++ bAspect x.shown ++ bBool x.mismatch ++ bBool x.unserved ++ bBool x.lost) t.signs

/-- The pending SHOW (R168): contents, kind, class, retry mark, then its gate. -/
def bPending (r : RolloutRec) (p : Pending) : List Byte :=
  bList bAspect p.body.contents ++ b1 (match p.body.kind with | .ordinary => 0 | .resend => 1) ++
    b1 (match p.body.cls with | .urgent => 0 | .normal => 1) ++ bBool p.retry ++
    b1 (if r.gateHeld then 1 else 0) ++ bOpt bSeconds r.gateTimer ++ bBool r.gateExpired

/-- A rollout record in the order of R168 (log 18). -/
def bRollout (r : RolloutRec) (due : ConfirmDue) : List Byte :=
  bList bEntry r.commanded ++ bList bEntry r.confirmed ++ bList (bOpt bAspect) r.failed ++
    bOpt (bPending r) r.pending ++ bBool r.inFlight ++
    b1 (match r.confirmation with | .settled => 0 | .awaiting => 1 | .resending => 2) ++ b1 r.polls ++ b1 r.resends ++
    match due with
    | .absent => b1 0
    | .remaining ms => b1 1 ++ b2 ms
    | .queued => b1 2

/-- A READ_GANTRY reply (R168). In RUN a defined gantry has a node, a target and a rollout record. -/
def bGantryReport (r : GantryReport) : List Byte :=
  bHeld (fun n : NodeState => b1 n.code) r.nodeState ++ bHeld bTarget r.target ++
    bHeld (fun x => bRollout x r.due) r.rollout ++ bList (fun kv : Nat × Demand => bDemand kv.1 kv.2) r.demands

/-- A READ_STATION reply (R113). Each lane entry begins with the lane position (log 18). -/
def bStationReadout (r : StationReadout) : List Byte :=
  b1 r.station ++ bOpt b1 r.home ++ b1 r.host ++ b2 r.state.s ++ b2 r.state.q ++ b1 (smoothed r.state.s) ++
    b2 (smoothed r.state.q) ++ b1 r.state.level.code ++ b1 r.state.levelCount ++ bBool r.state.queueOn ++
    b1 r.state.queueCount ++ b1 (if r.state.valid then 0 else 1) ++ b1 r.state.invalidCloses ++ bOpt b1 r.state.v ++
    bOpt b2 r.state.f ++ bList (fun w : WindowEntry => bClock w.clock ++ b1 w.lane) r.state.window ++
    bList (fun d : StationDemand => b1 d.gantry ++ b1 d.speed ++ bOpt b1 d.legend) r.demands ++
    bList (fun l : LaneNow => b1 l.lane ++ b1 l.status.code ++ bReasons l.reasons ++ bBool l.included) r.lanes

/-- The description step (R55): DESCRIBE 0, CAPS 1 with its sign index behind it, STATE 2 (log 18). -/
def bStep : DescStep → List Byte
  | .describe => b1 0
  | .caps i => b1 1 ++ b1 i
  | .state => b1 2

/-- A sign record with its kind (R73): lane signal 0 or panel 1, then the lane position, absent for the panel
(log 18). -/
def bSign (x : SignKind × SignRec) : List Byte :=
  (match x.1 with | .lane p => b1 0 ++ bOpt b1 (some p) | .panel => b1 1 ++ b1 0) ++
    bList bAspect x.2.caps ++ bOpt (fun h : Health => b1 h.code) x.2.health ++ bOpt bAspect x.2.displayed ++
    bBool x.2.confirmFailed ++ bBool x.2.degradedMark

/-- The retry timer of a READ_NODE reply: the time left, or queued while it does not run in OFFLINE (R73; log 18, 37). That
a retry DESCRIBE in flight is reported as queued too is the model's choice (log 38). -/
def bRetry (n : NodeRec) : List Byte :=
  match n.state, n.retry with
  | .offline, some t => b1 1 ++ bSeconds (30000 - t)
  | .offline, none => b1 2
  | _, _ => b1 0

/-- A READ_NODE reply (R73). -/
def bNodeReport (r : NodeReport) : List Byte :=
  b1 (match r.service with | .inService => 0 | .out => 1) ++ b1 r.gantry ++ b1 r.node.state.code ++
    b1 r.node.reason.code ++ bClock r.node.since ++ bOpt bStep r.node.step ++
    bOpt (fun m : Mismatch => b1 m.code) r.node.mismatch ++ bRetry r.node ++ bList bSign (r.kinds.zip r.node.signs)

/-- A READ_FAULTS reply (R173): the bank, then its record in the order of the field table of R169, as R174 asks: valid,
overflow, severity, code, gantry, station and clock; the last five may be absent (log 18). -/
def bBank (id : BankId) (b : Bank) : List Byte :=
  b1 id.code ++ bBool b.held.isSome ++ bBool b.overflow ++ bOpt (fun e : ErrorRec => b1 e.severity.code) b.held ++
    bOpt (fun e : ErrorRec => b1 e.code.value) b.held ++ bOpt b1 (b.held.bind (·.gantry)) ++
    bOpt b1 (b.held.bind (·.station)) ++ bOpt (fun e : ErrorRec => bClock e.clock) b.held

/-- The detail of a reply (R27). -/
def Detail.bytes : Detail → List Byte
  | .none => []
  | .identity => b1 0 ++ b2 0x3C1 ++ b2 2416 ++ b1 1 ++ b1 1
  | .capacities => b1 1 ++ b1 32 ++ b1 24 ++ b1 6 ++ b1 2 ++ b1 16 ++ b1 16 ++ b1 12 ++ b1 48 ++ b1 4 ++ b1 12
  | .counts g st se a b => b1 2 ++ b1 g ++ b1 st ++ b1 se ++ b1 a ++ b1 b
  | .status m c r => b1 3 ++ b1 (match m with | .setup => 0 | .run => 1) ++ bClock c ++ b1 r.toNat
  | .unknownLeaf => b1 0xFF ++ List.replicate (min 246 Config.unknownLeafZeros) 0#8
  | .clamped fs => bList b1 fs
  | .badConfig k n c => b1 k.code ++ b1 n ++ b1 c.code
  | .handle h => b1 h
  | .handleClamped h fs => b1 h ++ bList b1 fs
  | .handleSpeed h v => b1 h ++ b1 v
  | .gantry r => bGantryReport r
  | .station r => bStationReadout r
  | .incidents sup recs secs =>
    b1 recs.length ++ b1 sup ++ bList (fun kv : Nat × Incident => bIncident kv.1 kv.2) recs ++
      bEach (bOpt fun x : Shoulder => b1 (match x with | .closed => 0 | .opened => 1)) secs
  | .node r => bNodeReport r
  | .bank id b => bBank id b

/-- TYPE of a notice (section 11.1). -/
def NoticeBody.typ : NoticeBody → Byte
  | .stationReport .. => 0x40#8
  | .displayChange .. => 0x41#8
  | .incidentEvent .. => 0x42#8
  | .wrongWayAlert .. => 0x43#8
  | .nodeEvent .. => 0x44#8
  | .fault .. => 0x45#8

/-- The body of a notice in the order of its owning rule (log 18). -/
def NoticeBody.bytes : NoticeBody → List Byte
  | .stationReport st ie ls a =>
    b1 st ++ bClock ie ++ bList bLaneReport ls ++ bOpt b1 a.v ++ bOpt b2 a.f ++ b1 (smoothed a.s) ++ b2 (smoothed a.q) ++
      b1 a.level.code ++ bBool a.queueOn ++ b1 (if a.valid then 0 else 1) ++ b1 a.invalidCloses
  | .displayChange g c sg =>
    b1 g ++ b1 (match c with | .state => 0 | .node => 1) ++
      bList (fun x : SignChange => bEntry x.confirmed ++ bEntry x.commanded ++ bBool x.changed) sg
  | .incidentEvent c h r p => b1 c.code ++ b1 h ++ bIncident h r ++ bOpt b1 p
  | .wrongWayAlert st ch ln cs => b1 st ++ b2 ch ++ b1 ln ++ b1 cs.length ++ bList bClock cs
  | .nodeEvent g l a p n r m =>
    b1 g ++ b1 (lineCode l) ++ b1 a ++ b1 p.code ++ b1 n.code ++ b1 r.code ++ bOpt (fun x : Mismatch => b1 x.code) m
  | .fault bk c sv g st d o =>
    b1 bk.code ++ b1 c.value ++ b1 sv.code ++ bOpt b1 g ++ bOpt b1 st ++
      b1 (match d with | .held => 0 | .replaced => 1 | .notHeld => 2) ++ bBool o

/-! ### Frames (section 2.2) -/

/-- A payload has at most 248 bytes. For fields that take more, the head stands as its rule defines it and what is
sent after it is a free value (log 17). -/
def fitPayload (head fields : List Byte) : List Byte :=
  if head.length + fields.length ≤ 248 then head ++ fields
  else head ++ (Config.oversizePayload fields).take (248 - head.length)

/-- A frame: SOF, LEN, TYPE, TAG, payload and the CRC-16, high byte first (R175). -/
def frameBytes (typ tag : Byte) (payload : List Byte) : List Byte :=
  let body := BitVec.ofNat 8 (payload.length + 2) :: typ :: tag :: payload
  0xA5#8 :: body ++ [highByte (crc16 body), lowByte (crc16 body)]

/-- The frame of a reply (R27). -/
def Reply.frame (r : Reply) : List Byte :=
  frameBytes r.typ r.tag (fitPayload (b1 r.result.code) r.detail.bytes)

/-- The frame of a notice (R29, R174): TAG 0, clock, notices_lost, body. -/
def Notice.frame (n : Notice) (lost : Bool) : List Byte :=
  frameBytes n.body.typ 0x00#8 (fitPayload (bClock n.clock ++ bBool lost) n.body.bytes)

end Sys2Proof.Machine
end

