-- ==== Sys2Proof/Machine/Flags.lean ====
section
/-! DEFINITION. The conditions the controller reads and does not store: serviceability, lane status,
continuity, the rollout gate and the arbiter's eligibility. -/

namespace Sys2Proof.Machine

/-- R71: node ONLINE, health OK or DEGRADED, not confirm-failed. -/
def SignRec.serviceable (node : NodeState) (r : SignRec) : Bool :=
  node == .online && (r.health == some .ok || r.health == some .degraded) && !r.confirmFailed

/-- Whether the lane signal of gantry g at position p exists and is serviceable (R71). -/
def State.laneServiceable (s : State) (g p : Nat) : Bool :=
  match s.nodes.look g with
  | none => false
  | some n =>
    match entryAt (s.kinds g) n.signs p with
    | none => false
    | some r => r.serviceable n.state

/-- R6: gantries g and g+1 are continuous in the relation in force. -/
def State.continuous (s : State) (g : Nat) : Bool := s.geo.contin.contains g

/-- The confirmed aspect of the lane signal of gantry g at position p; none while unknown. -/
def State.confirmedLane (s : State) (g p : Nat) : Option Aspect :=
  match s.rollout.look g with
  | none => none
  | some r => (entryAt (s.kinds g) r.confirmed p).join

/-- Whether an entry holds CLOSED or a DIVERT; an unknown entry holds neither. -/
def entryIsCell : Option Aspect → Bool
  | none => false
  | some a => a.isCell

/-- R161, adding: the SHOW puts CLOSED where none is commanded, and the continuous upstream neighbour has
a serviceable sign for the position that shows neither CLOSED nor a DIVERT. -/
def State.gateAdding (s : State) (g : Nat) (shown : Option Aspect) (commanded : Option Aspect) (p : Nat) : Bool :=
  shown == some .closed && commanded != some .closed && s.continuous (g - 1) && s.laneServiceable (g - 1) p &&
    !entryIsCell (s.confirmedLane (g - 1) p)

/-- R161, removing: the SHOW takes a CLOSED or a DIVERT away while the continuous downstream neighbour has
a serviceable sign for the position that shows CLOSED. -/
def State.gateRemoving (s : State) (g : Nat) (shown : Option Aspect) (commanded : Option Aspect) (p : Nat) : Bool :=
  !entryIsCell shown && entryIsCell commanded && s.continuous g && s.laneServiceable (g + 1) p &&
    s.confirmedLane (g + 1) p == some .closed

/-- R161: whether some lane position holds the SHOW with these contents at its gate. -/
def State.gateHolds (s : State) (g : Nat) (contents : List Aspect) (commanded : List (Option Aspect)) : Bool :=
  (List.range 6).any fun p =>
    match entryAt (s.kinds g) contents p with
    | none => false
    | some a =>
      s.gateAdding g (some a) (entryAt (s.kinds g) commanded p).join p ||
        s.gateRemoving g (some a) (entryAt (s.kinds g) commanded p).join p

/-- R50: a SHOW that its gate holds is not eligible, nor is an entry of a SUSPECT node without the retry
mark. -/
def State.eligible (s : State) (e : Entry) : Bool :=
  let gated : Bool :=
    match e.job with
    | .display => match s.rollout.look e.gantry with | some r => r.gateHeld | none => false
    | _ => false
  !gated && (s.nodeState e.gantry != some .suspect || e.retry)

/-- The fault reasons present on a lane now (R87). -/
def LaneRec.reasons (l : LaneRec) (nodeCond : Bool) : Reasons := ⟨l.loopA.stuck || l.loopB.stuck, l.silent, nodeCond⟩

/-- A lane is FAULTY while a reason is present (R87). -/
def LaneRec.faulty (l : LaneRec) (nodeCond : Bool) : Bool :=
  l.loopA.stuck || l.loopB.stuck || l.silent || nodeCond

/-- The present status of a lane (R87). -/
def LaneRec.status (l : LaneRec) (nodeCond : Bool) : LaneStatus :=
  if l.faulty nodeCond then .faulty else if l.suspect then .suspect else .valid

/-- The status of a lane at a close, as reported (R87). -/
def LaneRec.closeStatus (l : LaneRec) : LaneStatus :=
  if l.excluded then .faulty else if l.suspect then .suspect else .valid

/-- R87: inclusion from the excluded and shoulder excluded marks. -/
def LaneRec.included (l : LaneRec) : Bool := !l.excluded && !l.shoulderExcluded

/-- Two reason sets together. -/
def Reasons.union (a b : Reasons) : Reasons := ⟨a.stuckOn || b.stuckOn, a.silent || b.silent, a.node || b.node⟩

/-- Position 0 is the shoulder (R92): whether a lane of a station is shoulder excluded from now on. -/
def State.shoulderOut (s : State) (st p : Nat) : Bool :=
  p == 0 &&
    match s.geo.stations.look st with
    | none => true
    | some r =>
      match s.geo.gantries.look r.host with
      | none => true
      | some g => s.sections.look g.sec != some .opened

end Sys2Proof.Machine
end

