-- ==== Sys2Proof/Machine/Plan.lean ====
section
/-! DEFINITION. The corridor plan (chapter 8) and the demands it reads from incidents, sections and
stations (R105, R107, R123 to R128): the snapshot, the trigger, the sweep and the host demand table. -/

namespace Sys2Proof.Machine

/-! ### Demands of incidents (R123 to R127) -/

/-- The covering gantries of an extent (R123): the one at or upstream of start, and those strictly between
start and end. -/
def covering (gs : Table GantryRec) (r : Incident) : List Nat :=
  (atOrUpstream gs r.start).toList ++
    (gs.filter fun kv => decide (r.start < kv.2.chainage ∧ kv.2.chainage < r.stop)).map (·.1)

/-- Whether gantry g stands n below the first covering gantry (R124 to R126). -/
def belowFirst (gs : Table GantryRec) (r : Incident) (n g : Nat) : Bool :=
  match lowest (covering gs r) with
  | none => false
  | some f => g + n == f

/-- Whether a record demands CLOSED at gantry g in position p, a position the gantry has (R124, R125). -/
def incidentCloses (gs : Table GantryRec) (r : Incident) (g p : Nat) : Bool :=
  match r.kind with
  | .laneClosure => (covering gs r).contains g && (match r.lanes with | some l => LaneSet.holds l p | none => false)
  | .carriagewayClosure => (covering gs r).contains g
  | _ => false

/-- Whether a WRONG_WAY record's warning reaches a gantry (R127). -/
def warned (w : WrongwayParams) (r : Incident) (chainage : Nat) : Bool :=
  decide (r.start - w.reach ≤ chainage ∧ chainage ≤ r.stop)

/-- The speed a record demands at gantry g, if any (R124 to R127). -/
def incidentSpeed (gs : Table GantryRec) (pl : PlanParams) (w : WrongwayParams) (r : Incident) (g chainage : Nat) :
    Option Nat :=
  let covers := (covering gs r).contains g
  match r.kind with
  | .laneClosure => if covers then some (r.cap.getD pl.closureSpeed) else none
  | .carriagewayClosure =>
    if belowFirst gs r 1 g || belowFirst gs r 2 g then some (r.cap.getD pl.closureSpeed) else none
  | .hazard => if covers || belowFirst gs r 1 g then some (r.cap.getD pl.closureSpeed) else none
  | .wrongWay => if warned w r chainage then some (r.cap.getD w.speed) else none

/-- The legend a record demands at gantry g, if any (R124 to R127). -/
def incidentLegend (gs : Table GantryRec) (w : WrongwayParams) (r : Incident) (g chainage : Nat) : Option Nat :=
  let covers := (covering gs r).contains g
  match r.kind with
  | .laneClosure => if covers || belowFirst gs r 1 g then some (r.legend.getD 3) else none
  | .carriagewayClosure =>
    if covers || belowFirst gs r 1 g || belowFirst gs r 2 g then some (r.legend.getD 2) else none
  | .hazard => if covers || belowFirst gs r 1 g then some (r.legend.getD 4) else none
  | .wrongWay => if warned w r chainage then some (r.legend.getD 1) else none

/-! ### Demands of stations (R105, R107) -/

/-- The demand of a congestion level at the home gantry (R105). -/
def levelDemand (c : CongestionParams) (home : Nat) : Level → List StationDemand
  | .clear => []
  | .l1 => [⟨home, c.l1.speed, none⟩]
  | .l2 => [⟨home, c.l2.speed, some 6⟩]
  | .l3 => [⟨home, c.l3.speed, some 6⟩]

/-- The present reach entries, ending at the first absent one (R107). -/
def reachEntries (q : QueueParams) : List (Nat × Nat) :=
  if q.reach0 = 0 then []
  else if q.reach1 = 0 then [(0, q.reach0)]
  else if q.reach2 = 0 then [(0, q.reach0), (1, q.reach1)]
  else [(0, q.reach0), (1, q.reach1), (2, q.reach2)]

/-- The demands of a queue that is ON (R107): entry j at the gantry j below the home gantry. -/
def queueDemands (q : QueueParams) (home : Nat) : List StationDemand :=
  ((reachEntries q).filter fun e => decide (e.1 < home)).map fun e => ⟨home - e.1, e.2, some 5⟩

/-- All demands of a station with this home gantry, none without one. As READ_STATION lists them the congestion demand
comes first, then the reach entries in order, speed and legend of one source in one entry (log 39). -/
def stationDemands (c : CongestionParams) (q : QueueParams) (home : Option Nat) (lv : Level) (queueOn : Bool) :
    List StationDemand :=
  match home with
  | none => []
  | some h => levelDemand c h lv ++ (if queueOn then queueDemands q h else [])

/-! ### Snapshot and trigger (R134, R135) -/

/-- What a pass reads of a node's signs (R71, R135). -/
def NodeRec.views (n : NodeRec) : List SignView := n.signs.map fun r => ⟨r.caps, r.serviceable n.state⟩

/-- The snapshot of R135. -/
def State.snapshot (s : State) : Snapshot where
  gantries := s.geo.gantries
  home := s.geo.home
  contin := s.geo.contin
  plan := s.geo.params.plan
  congestion := s.geo.params.congestion
  queue := s.geo.params.queue
  wrongway := s.geo.params.wrongway
  incidents := s.incidents
  sections := s.sections
  stations := s.traffic.mapValues fun t => ⟨t.level, t.queueOn⟩
  demands := s.plan.demands
  signs := s.nodes.mapValues NodeRec.views

/-- A trigger (R134): IDLE starts a pass at once, RUNNING sets the again-flag; none is taken in SETUP. -/
def State.trigger (s : State) : State :=
  if s.geo.mode = .setup then s
  else
    match s.plan.running with
    | none => { s with plan := { s.plan with running := some s.snapshot } }
    | some _ => { s with plan := { s.plan with again := true } }

/-! ### The sweep (section 8.4) -/

/-- Every speed demand above corridor_max is taken as corridor_max (R138). -/
def Snapshot.cap (n : Snapshot) (v : Nat) : Nat := min v n.plan.corridorMax

/-- What a gantry hands on upstream (R149). -/
structure Carry where
  cells : List (Nat × Cell)
  speeds : List Nat
  deriving DecidableEq, Repr

/-- Nothing carried. -/
def Carry.empty : Carry := ⟨[], []⟩

/-- The cell demands gathered on position p of gantry g (R140). -/
def Snapshot.cellsAt (n : Snapshot) (g : Nat) (r : GantryRec) (c : Carry) (p : Nat) : List Cell :=
  (n.incidents.filter fun kv => incidentCloses n.gantries kv.2 g p).map (fun _ => Cell.closed) ++
  (if p = 0 ∧ r.sec ≠ 0 ∧ n.sections.look r.sec ≠ some .opened then [.closed] else []) ++
  n.demands.filterMap (fun kv =>
    match kv.2.what with
    | .cell ls a => if kv.2.gantry = g ∧ LaneSet.holds ls p = true then some a else none
    | _ => none) ++
  (c.cells.filter fun x => x.1 == p).map (·.2)

/-- The speed demands that reach gantry g without the sweep (R138, R143). -/
def Snapshot.speedsAt (n : Snapshot) (g : Nat) (r : GantryRec) : List Nat :=
  n.incidents.filterMap (fun kv => incidentSpeed n.gantries n.plan n.wrongway kv.2 g r.chainage) ++
  (if r.sec ≠ 0 ∧ n.sections.look r.sec = some .opened then [n.plan.shoulderSpeed] else []) ++
  n.stations.flatMap (fun kv =>
    ((stationDemands n.congestion n.queue (n.home.look kv.1) kv.2.level kv.2.queueOn).filter
      fun d => d.gantry == g).map (·.speed)) ++
  n.demands.filterMap (fun kv =>
    match kv.2.what with
    | .speed v => if kv.2.gantry = g then some v else none
    | _ => none)

/-- The legend demands that reach gantry g without the sweep (R138, R145). -/
def Snapshot.legendsAt (n : Snapshot) (g : Nat) (r : GantryRec) : List Nat :=
  n.incidents.filterMap (fun kv => incidentLegend n.gantries n.wrongway kv.2 g r.chainage) ++
  (if r.sec ≠ 0 ∧ n.sections.look r.sec = some .opened then [7] else []) ++
  n.stations.flatMap (fun kv =>
    ((stationDemands n.congestion n.queue (n.home.look kv.1) kv.2.level kv.2.queueOn).filter
      fun d => d.gantry == g).filterMap (·.legend)) ++
  n.demands.filterMap (fun kv =>
    match kv.2.what with
    | .legend m => if kv.2.gantry = g then some m else none
    | _ => none)

/-- The aspect gantry g+1's finished target shows at position p. -/
def shownAt (r : GantryRec) (t : Target) (p : Nat) : Option Aspect := (entryAt r.kinds t.signs p).map (·.shown)

/-- The positions of g+1 whose shown aspect is SPEED or BLANK (R141). -/
def openLanes (r : GantryRec) (t : Target) : List Nat :=
  (LaneSet.positions r.lanes).filter fun q =>
    match shownAt r t q with
    | some .blank => true
    | some (.speed _) => true
    | _ => false

/-- The direction of the lead-in arrow at p toward the nearest of the open lanes (R141). -/
def leadDirection (pref : Side) (p : Nat) (open_ : List Nat) : Side :=
  let below := (open_.filter fun q => decide (q < p)).getLast?
  let above := (open_.filter fun q => decide (p < q)).head?
  match below, above with
  | some b, some a => if p - b < a - p then .near else if a - p < p - b then .off else pref
  | some _, none => .near
  | none, _ => .off

/-- Whether the lead-in has work on position p (R141): g+1 shows CLOSED there and no CLOSED demand was
gathered at g. -/
def leadCalled (down : Option (GantryRec × Target)) (gathered : Nat → List Cell) (p : Nat) : Bool :=
  match down with
  | none => false
  | some (r, t) => shownAt r t p == some .closed && !(gathered p).contains .closed

/-- The lead-in cell demand on position p (R141), if any. -/
def leadCell (pref : Side) (down : Option (GantryRec × Target)) (gathered : Nat → List Cell) (p : Nat) : List Cell :=
  match down with
  | none => []
  | some (r, t) =>
    if leadCalled down gathered p && !(openLanes r t).isEmpty then [.divert (leadDirection pref p (openLanes r t))]
    else []

/-- Whether the lead-in finds no open lane at g+1 (R141): LEGEND 2 and closure_speed are added at g. -/
def leadBlocked (r : GantryRec) (down : Option (GantryRec × Target)) (gathered : Nat → List Cell) : Bool :=
  match down with
  | none => false
  | some (r', t) => (openLanes r' t).isEmpty && (LaneSet.positions r.lanes).any (leadCalled down gathered)

/-- The join (R142): the most restrictive of the cell demands; divert_pref settles opposite arrows. -/
def joinCells (pref : Side) (cs : List Cell) : Option Cell :=
  if cs.contains .closed then some .closed
  else if cs.contains (.divert .near) then
    (if cs.contains (.divert .off) then some (.divert pref) else some (.divert .near))
  else if cs.contains (.divert .off) then some (.divert .off)
  else none

/-- The lowest SPEED a target shows in any lane (R143). -/
def lowestShown (t : Target) : Option Nat :=
  lowest (t.signs.filterMap fun x => match x.shown with | .speed v => some v | _ => none)

/-- The largest SPEED in a capability list no greater than v (R146). -/
def bestSpeed (caps : List Aspect) (v : Nat) : Option Nat :=
  caps.foldl (fun best a =>
    match a with
    | .speed w => if w ≤ v then (match best with | none => some w | some b => some (max b w)) else best
    | _ => best) none

/-- The negotiation of a lane signal (R146). -/
def negotiateLane (caps : List Aspect) : Aspect → Aspect
  | .speed v => match bestSpeed caps v with | some w => .speed w | none => .blank
  | .closed => if caps.contains .closed then .closed else .blank
  | .divert d => if caps.contains (.divert d) then .divert d else if caps.contains .closed then .closed else .blank
  | _ => .blank

/-- The negotiation of the panel (R147). -/
def negotiatePanel (caps : List Aspect) : Aspect → Aspect
  | .legend n => if caps.contains (.legend n) then .legend n else .blank
  | _ => .blank

/-- The marks of a sign's target (R148). -/
def signTarget (wanted shown : Aspect) (carried : Bool) : SignTarget where
  wanted := wanted
  shown := shown
  mismatch := shown != wanted
  unserved := wanted != .blank && shown == .blank
  lost := wanted != .blank && shown == .blank && !carried

/-- The capability list a pass negotiates with: empty for a sign that is not serviceable (R146). -/
def SignView.list (v : SignView) : List Aspect := if v.serviceable then v.caps else []

/-- The signs of a gantry with the lists they are negotiated with; a sign without a view has none. -/
def signLists : List SignKind → List SignView → List (SignKind × List Aspect)
  | [], _ => []
  | k :: ks, [] => (k, []) :: signLists ks []
  | k :: ks, v :: vs => (k, v.list) :: signLists ks vs

/-- Whether an unserved aspect of gantry g at p can be handed on to g−1 (R149). -/
def Snapshot.carries (n : Snapshot) (g p : Nat) : Bool :=
  n.contin.contains (g - 1) &&
    match n.gantries.look (g - 1) with
    | none => false
    | some r => LaneSet.holds r.lanes p

/-- What an unserved lane signal at p hands on (R149). -/
def carryOf (p : Nat) (x : SignTarget) (c : Carry) : Carry :=
  if x.unserved && !x.lost then
    match x.wanted with
    | .closed => { c with cells := (p, .closed) :: c.cells }
    | .divert d => { c with cells := (p, .divert d) :: c.cells }
    | .speed v => { c with speeds := v :: c.speeds }
    | _ => c
  else c

/-- The carry of a gantry's settled signs (R149). -/
def carryAll : List SignKind → List SignTarget → Carry
  | .lane p :: ks, x :: xs => carryOf p x (carryAll ks xs)
  | .panel :: ks, _ :: xs => carryAll ks xs
  | _, _ => Carry.empty

/-- The wanted cell aspects of gantry g (R140 to R142). -/
def Snapshot.wantedCell (n : Snapshot) (g : Nat) (r : GantryRec) (down : Option (GantryRec × Target)) (c : Carry)
    (p : Nat) : Option Cell :=
  let gathered := n.cellsAt g r c
  joinCells n.plan.divertPref (gathered p ++ leadCell n.plan.divertPref down gathered p)

/-- The gantry speed (R143). -/
def Snapshot.gantrySpeed (n : Snapshot) (g : Nat) (r : GantryRec) (down : Option (GantryRec × Target)) (c : Carry) :
    Option Nat :=
  let blocked := leadBlocked r down (n.cellsAt g r c)
  let stepdown : List Nat :=
    match down with
    | none => []
    | some (_, t) => match lowestShown t with | some v => [v + n.plan.step] | none => []
  let closing := (LaneSet.positions r.lanes).any fun p => (n.wantedCell g r down c p).isSome
  lowest ((n.speedsAt g r ++ c.speeds ++ (if blocked then [n.plan.closureSpeed] else []) ++ stepdown ++
    (if closing then [n.plan.closureSpeed] else [])).map n.cap)

/-- The wanted aspect of a sign (R144, R145). -/
def Snapshot.wanted (n : Snapshot) (g : Nat) (r : GantryRec) (down : Option (GantryRec × Target)) (c : Carry) :
    SignKind → Aspect
  | .lane p =>
    match n.wantedCell g r down c p with
    | some .closed => .closed
    | some (.divert d) => .divert d
    | none => match n.gantrySpeed g r down c with | some v => .speed v | none => .blank
  | .panel =>
    match lowest (n.legendsAt g r ++ (if leadBlocked r down (n.cellsAt g r c) then [2] else [])) with
    | some m => .legend m
    | none => .blank

/-- The target of one sign. -/
def Snapshot.settleSign (n : Snapshot) (g : Nat) (r : GantryRec) (down : Option (GantryRec × Target)) (c : Carry)
    (x : SignKind × List Aspect) : SignTarget :=
  let w := n.wanted g r down c x.1
  match x.1 with
  | .lane p => signTarget w (negotiateLane x.2 w) (n.carries g p)
  | .panel => signTarget w (negotiatePanel x.2 w) true

/-- Settle gantry g whole (R139). -/
def Snapshot.settle (n : Snapshot) (g : Nat) (r : GantryRec) (down : Option (GantryRec × Target)) (c : Carry) : Target where
  speed := n.gantrySpeed g r down c
  signs := (signLists r.kinds ((n.signs.look g).getD [])).map (n.settleSign g r down c)

/-- The sweep (R139) over gantries in descending number; `prev` is the gantry just settled, with its
target. -/
def Snapshot.sweep (n : Snapshot) : List (Nat × GantryRec) → Option (Nat × GantryRec × Target) → List (Nat × Target)
  | [], _ => []
  | (g, r) :: rest, prev =>
    let near : Option (GantryRec × Target) :=
      match prev with
      | none => none
      | some (g', r', t') => if g' = g + 1 ∧ n.contin.contains g = true then some (r', t') else none
    let carry : Carry :=
      match near with
      | none => Carry.empty
      | some (r', t') => carryAll r'.kinds t'.signs
    let t := n.settle g r near carry
    (g, t) :: n.sweep rest (some (g, r, t))

/-- The targets of a pass, by ascending gantry (R136). -/
def Snapshot.targets (n : Snapshot) : Table Target := (n.sweep n.gantries.reverse none).reverse

/-- The START targets (R13, R151): every sign BLANK with no mark, no gantry speed. -/
def blankTarget (r : GantryRec) : Target :=
  ⟨none, r.kinds.map fun _ => ⟨.blank, .blank, false, false, false⟩⟩

/-! ### UNSERVED records (R150) -/

/-- The severity of a lost aspect. -/
def lostSeverity : Aspect → Severity
  | .speed _ => .warn
  | _ => .fault

/-- The severities of the UNSERVED records of one gantry: one for each sign whose lost mark is newly set. -/
def newlyLost : List SignTarget → List SignTarget → List Severity
  | [], _ => []
  | x :: xs, olds =>
    let was : Bool := match olds with | o :: _ => o.lost | [] => false
    let more := newlyLost xs olds.tail
    if x.lost && !was then lostSeverity x.wanted :: more else more

/-- The UNSERVED records of a pass, each with its gantry and its severity. -/
def lostErrors (old new : Table Target) : List (Nat × Severity) :=
  new.flatMap fun kv =>
    (newlyLost kv.2.signs (((old.look kv.1).map (·.signs)).getD [])).map fun sev => (kv.1, sev)

/-- Make these UNSERVED records. -/
def recordLost : List (Nat × Severity) → State → State
  | [], s => s
  | x :: xs, s => recordLost xs (s.record .plan .unserved x.2 (some x.1) none)

/-- The UNSERVED records of a pass that completes (R150), in a free order (R170, log 25). -/
def recordAllLost (old new : Table Target) (s : State) : State :=
  let d := s.anyOrder (lostErrors old new)
  recordLost d.1 d.2

/-! ### The host demand table (R131 to R133) -/

/-- R131: 48 slots. -/
def demandSlots : Nat := 48

/-- Place a demand whose values have passed (R132, steps 4 to 6), with the detail that names the speed
when step 3 changed it. -/
def placeChecked (s : State) (d : Demand) (changed : Option Nat) : Answer :=
  match s.geo.gantries.look d.gantry with
  | none => refuse s .notFound
  | some r =>
    let present : Bool := match d.what with | .cell ls _ => LaneSet.within ls r.lanes | _ => true
    if present then
      match s.plan.demands.lowestFree demandSlots with
      | none => refuse s .tableFull
      | some h =>
        let s1 := { s with plan := { s.plan with demands := s.plan.demands.put h d } }
        match changed with
        | none => ⟨s1.trigger, .ok, .handle h⟩
        | some v => ⟨s1.trigger, .okClamped, .handleSpeed h v⟩
    else refuse s .badValue

/-- PLACE_DEMAND (R132). -/
def handlePlaceDemand (s : State) (p : List Byte) : Answer :=
  if s.geo.mode = .setup then refuse s .wrongMode
  else
    match parsePlace p with
    | .badLength => refuse s .badLength
    | .badValue => refuse s .badValue
    | .ok d =>
      match d.what with
      | .speed v =>
        let w := fitSpeed 20 130 v
        placeChecked s { d with what := .speed w } (if w = v then none else some w)
      | _ => placeChecked s d none

/-- WITHDRAW_DEMAND (R133). -/
def handleWithdrawDemand (s : State) (p : List Byte) : Answer :=
  if s.geo.mode = .setup then refuse s .wrongMode
  else
    match p with
    | [h] =>
      if demandSlots ≤ h.toNat then refuse s .badValue
      else
        match s.plan.demands.look h.toNat with
        | none => refuse s .notFound
        | some _ =>
          accept (State.trigger { s with plan := { s.plan with demands := s.plan.demands.del h.toNat } })
    | _ => refuse s .badLength

/-- The row PLACE_DEMAND. -/
def execPlaceDemand (s : State) : Host.Outcome State Fault Refusal := takeRequest (· == 0x0C#8) handlePlaceDemand s

/-- The row WITHDRAW_DEMAND. -/
def execWithdrawDemand (s : State) : Host.Outcome State Fault Refusal :=
  takeRequest (· == 0x0D#8) handleWithdrawDemand s

end Sys2Proof.Machine
end

