-- ==== Sys2Proof/Machine/Incidents.lean ====
section
/-! DEFINITION. The incident unit (chapter 7): the incident table and its requests, detection incidents,
expiry, and the shoulder sections. -/

namespace Sys2Proof.Machine

/-- R115: 16 slots. -/
def incidentSlots : Nat := 16

/-- R115: at most 12 records of SUPERVISOR origin. -/
def supervisorLimit : Nat := 12

/-- The number of records of SUPERVISOR origin. -/
def State.supervisorCount (s : State) : Nat :=
  (s.incidents.filter fun kv => kv.2.origin == .supervisor).length

/-- A change of the incident table (R122): the new table, one INCIDENT_EVENT, one trigger. -/
def State.incidentChanged (t : Table Incident) (c : IncidentChange) (h : Nat) (r : Incident) (previous : Option Nat)
    (s : State) : State :=
  State.trigger (State.raise (.incidentEvent c h r previous) { s with incidents := t })

/-- The speed cap as stored (R116 step 3): rounded, then clamped. -/
def storedCap (c : Option Nat) : Option Nat := c.map (fitSpeed 20 130)

/-- RAISE_INCIDENT (R116). The clamped field is named by its place among the fields of the request. -/
def handleRaiseIncident (s : State) (p : List Byte) : Answer :=
  if s.geo.mode = .setup then refuse s .wrongMode
  else
    match parseRaise p with
    | .badLength => refuse s .badLength
    | .badValue => refuse s .badValue
    | .ok q =>
      if supervisorLimit ≤ s.supervisorCount then refuse s .tableFull
      else
        match s.incidents.lowestFree incidentSlots with
        | none => refuse s .tableFull
        | some h =>
          let r : Incident :=
            { kind := q.kind, origin := .supervisor, start := q.start, stop := q.stop, lanes := q.lanes,
              cap := storedCap q.cap, legend := q.legend, anchor := none, expiry := none, raised := s.clock }
          let s1 := s.incidentChanged (s.incidents.put h r) .raised h r none
          if storedCap q.cap = q.cap then ⟨s1, .ok, .handle h⟩ else ⟨s1, .okClamped, .handleClamped h [4]⟩

/-- A field that is kept, set or removed (R117). -/
def Mark.apply (m : Mark) (old : Option Nat) : Option Nat :=
  match m with
  | .keep => old
  | .set v => some v
  | .remove => none

/-- A field that is kept or set. -/
def Mark.applyTo (m : Mark) (old : Nat) : Nat :=
  match m with
  | .set v => v
  | _ => old

/-- Whether a mark is set. -/
def Mark.isSet : Mark → Bool
  | .set _ => true
  | _ => false

/-- The cap mark after rounding and clamping (R117 step 3). -/
def Mark.fitCap : Mark → Mark
  | .set v => .set (fitSpeed 20 130 v)
  | m => m

/-- The record as it would stand after an amendment (R117 step 5). -/
def AmendReq.apply (q : AmendReq) (r : Incident) : Incident :=
  { r with
    start := q.start.applyTo r.start
    stop := q.stop.applyTo r.stop
    lanes := match q.lanes with | .set v => some (BitVec.ofNat 6 v) | _ => r.lanes
    cap := q.cap.fitCap.apply r.cap
    legend := q.legend.apply r.legend }

/-- AMEND_INCIDENT (R117). -/
def handleAmendIncident (s : State) (p : List Byte) : Answer :=
  if s.geo.mode = .setup then refuse s .wrongMode
  else
    match parseAmend p with
    | .badLength => refuse s .badLength
    | .badValue => refuse s .badValue
    | .ok q =>
      match s.incidents.look q.handle with
      | none => refuse s .notFound
      | some r =>
        let r' := q.apply r
        if r'.stop < r'.start then refuse s .badValue
        else if q.lanes.isSet = true ∧ r.kind ≠ .laneClosure then refuse s .badValue
        else if (q.start.isSet = true ∨ q.stop.isSet = true) ∧ r.anchor ≠ none then refuse s .conflict
        else
          let s1 := s.incidentChanged (s.incidents.put q.handle r') .amended q.handle r' none
          if q.cap.fitCap = q.cap then ⟨s1, .ok, .none⟩ else ⟨s1, .okClamped, .clamped [4]⟩

/-- CLEAR_INCIDENT (R118). -/
def handleClearIncident (s : State) (p : List Byte) : Answer :=
  if s.geo.mode = .setup then refuse s .wrongMode
  else
    match p with
    | [h] =>
      if incidentSlots ≤ h.toNat then refuse s .badValue
      else
        match s.incidents.look h.toNat with
        | none => refuse s .notFound
        | some r => accept (s.incidentChanged (s.incidents.del h.toNat) .cleared h.toNat r none)
    | _ => refuse s .badLength

/-- CONFIRM_INCIDENT (R119). -/
def handleConfirmIncident (s : State) (p : List Byte) : Answer :=
  if s.geo.mode = .setup then refuse s .wrongMode
  else
    match p with
    | [h] =>
      if incidentSlots ≤ h.toNat then refuse s .badValue
      else
        match s.incidents.look h.toNat with
        | none => refuse s .notFound
        | some r =>
          if r.origin = .supervisor then refuse s .conflict
          else if supervisorLimit ≤ s.supervisorCount then refuse s .tableFull
          else
            let r' := { r with origin := .supervisor, anchor := none, expiry := none }
            accept (s.incidentChanged (s.incidents.put h.toNat r') .confirmed h.toNat r' none)
    | _ => refuse s .badLength

/-! ### Detection (R120, R121) -/

/-- The chainage of a station, 0 for an undefined one. -/
def State.stationChainage (s : State) (st : Nat) : Nat :=
  match s.geo.stations.look st with
  | none => 0
  | some r => r.chainage

/-- Whether a record qualifies to be tracked from station st (R120): its anchor lies at st or downstream
within track. -/
def State.qualifies (s : State) (st : Nat) (r : Incident) : Bool :=
  r.origin == .detection &&
    match r.anchor with
    | none => false
    | some a =>
      decide (s.stationChainage st ≤ s.stationChainage a ∧
        s.stationChainage a ≤ s.stationChainage st + s.geo.params.wrongway.track)

/-- The anchor's chainage of a record. -/
def State.anchorChainage (s : State) (r : Incident) : Nat :=
  match r.anchor with
  | none => 0
  | some a => s.stationChainage a

/-- The record to track (R120): the qualifying one whose anchor has the lowest chainage, the lower handle
between two at the same chainage. -/
def State.nearest (s : State) (st : Nat) : List (Nat × Incident) → Option (Nat × Incident)
  | [] => none
  | (h, r) :: rest =>
    let best := s.nearest st rest
    if s.qualifies st r then
      match best with
      | none => some (h, r)
      | some b => if s.anchorChainage r ≤ s.anchorChainage b.2 then some (h, r) else some b
    else best

/-- A wrong-way driver is confirmed at station st (R120): track, raise, or record the loss. -/
def State.raiseOrTrack (st : Nat) (s : State) : State :=
  let at_ := s.stationChainage st
  let life := s.geo.params.wrongway.expiry * 1000
  match s.nearest st s.incidents with
  | some (h, r) =>
    let r' := { r with anchor := some st, start := at_, stop := at_, expiry := some life }
    s.incidentChanged (s.incidents.put h r') .tracked h r' r.anchor
  | none =>
    match s.incidents.lowestFree incidentSlots with
    | some h =>
      let r : Incident :=
        { kind := .wrongWay, origin := .detection, start := at_, stop := at_, lanes := none, cap := none, legend := none,
          anchor := some st, expiry := some life, raised := s.clock }
      s.incidentChanged (s.incidents.put h r) .raised h r none
    | none => s.record .plan .detectionTableFull .fault none (some st)

/-- A detection record expires (R121). -/
def State.expireIncident (h : Nat) (s : State) : State :=
  match s.incidents.look h with
  | none => s
  | some r =>
    if r.origin = .detection ∧ r.expiry = some 0 ∧ s.geo.mode = .run then
      s.incidentChanged (s.incidents.del h) .expired h r none
    else s

/-! ### Shoulder sections (R128, R129) -/

/-- R129 step 4: some record would place CLOSED in position 0 at a gantry of the section. -/
def State.shoulderConflict (s : State) (n : Nat) : Bool :=
  s.geo.gantries.any fun gv =>
    gv.2.sec == n && s.incidents.any fun kv => incidentCloses s.geo.gantries kv.2 gv.1 0

/-- SHOULDER (R129): OPEN is coded 0 and CLOSED 1 in the order of the rule (log 12). -/
def handleShoulder (s : State) (p : List Byte) : Answer :=
  if s.geo.mode = .setup then refuse s .wrongMode
  else
    match p with
    | [n, w] =>
      if n.toNat = 0 ∨ 4 < n.toNat ∨ 1 < w.toNat then refuse s .badValue
      else if s.sectionExists n.toNat = false then refuse s .notFound
      else if w = 0#8 ∧ s.shoulderConflict n.toNat = true then refuse s .conflict
      else
        let want : Shoulder := if w = 0#8 then .opened else .closed
        if s.sections.look n.toNat = some want then accept s
        else accept (State.trigger { s with sections := s.sections.put n.toNat want })
    | _ => refuse s .badLength

/-- READ_INCIDENTS (R130). -/
def handleReadIncidents (s : State) (p : List Byte) : Answer :=
  if s.geo.mode = .setup then refuse s .wrongMode
  else
    match p with
    | [] =>
      ⟨s, .ok, .incidents s.supervisorCount s.incidents
        ([1, 2, 3, 4].map fun n => if s.sectionExists n then s.sections.look n else none)⟩
    | _ :: _ => refuse s .badLength

/-! ### The rows -/

/-- The row RAISE_INCIDENT. -/
def execRaiseIncident (s : State) : Host.Outcome State Fault Refusal :=
  takeRequest (· == 0x08#8) handleRaiseIncident s

/-- The row AMEND_INCIDENT. -/
def execAmendIncident (s : State) : Host.Outcome State Fault Refusal :=
  takeRequest (· == 0x09#8) handleAmendIncident s

/-- The row CLEAR_INCIDENT. -/
def execClearIncident (s : State) : Host.Outcome State Fault Refusal :=
  takeRequest (· == 0x0A#8) handleClearIncident s

/-- The row CONFIRM_INCIDENT. -/
def execConfirmIncident (s : State) : Host.Outcome State Fault Refusal :=
  takeRequest (· == 0x0B#8) handleConfirmIncident s

/-- The row SHOULDER. -/
def execShoulder (s : State) : Host.Outcome State Fault Refusal := takeRequest (· == 0x0E#8) handleShoulder s

/-- The row READ_INCIDENTS. -/
def execReadIncidents (s : State) : Host.Outcome State Fault Refusal :=
  takeRequest (· == 0x14#8) handleReadIncidents s

/-- The row INCIDENT_EXPIRY. -/
def execIncidentExpiry (h : Nat) (s : State) : Host.Outcome State Fault Refusal :=
  whenRunning s fun s => s.expireIncident h

end Sys2Proof.Machine
end

