-- ==== Sys2Proof/Machine/Traffic.lean ====
section
/-! DEFINITION. The traffic state unit (chapter 6): station sums and filters, the congestion level and queue
machines, invalid stations, wrong-way confirmation, STATION_RESET and READ_STATION. -/

namespace Sys2Proof.Machine

/-! ### Interval values (R98 to R102) -/

/-- The sums of a station over its included lanes (R98). -/
structure Sums where
  lanes : Nat
  count : Nat
  sumV : Nat
  occupied : Nat
  deriving DecidableEq, Repr

/-- R98: four sums over the included lanes only. -/
def stationSums : List LaneResult → Sums
  | [] => ⟨0, 0, 0, 0⟩
  | l :: ls =>
    let t := stationSums ls
    if l.report.included then ⟨t.lanes + 1, t.count + l.report.count, t.sumV + l.sumV, t.occupied + l.occupied⟩ else t

/-- The interval speed V (R99). -/
def intervalSpeed (freeSpeed intervalMs : Nat) (x : Sums) : Nat :=
  if x.count = 0 then
    (if 500 ≤ x.occupied * 1000 / (x.lanes * intervalMs) then 0 else freeSpeed)
  else (x.sumV + x.count / 2) / x.count

/-- The interval flow F (R100). -/
def intervalFlow (intervalMs : Nat) (x : Sums) : Nat :=
  min 4000 ((x.count * 3600000 + x.lanes * intervalMs / 2) / (x.lanes * intervalMs))

/-- One step of the first-order filter (R101): x + floor((16 × target − x) / 2^k). -/
def smooth (k x target : Nat) : Nat :=
  (((x : Int) + ((16 * target : Int) - (x : Int)) / (2 ^ k : Int))).toNat

/-! ### The congestion level machine (R103, R104) -/

/-- The parameters of a level; NONE has none. -/
def CongestionParams.level (c : CongestionParams) : Level → Option LevelParams
  | .clear => none
  | .l1 => some c.l1
  | .l2 => some c.l2
  | .l3 => some c.l3

/-- The order of the levels. -/
def Level.rank : Level → Nat
  | .clear => 0
  | .l1 => 1
  | .l2 => 2
  | .l3 => 3

/-- One level down (R103). -/
def Level.down : Level → Level
  | .l3 => .l2
  | .l2 => .l1
  | _ => .clear

/-- Whether a level is present with flow_on no greater than q. -/
def LevelParams.calledBy (l : LevelParams) (q : Nat) : Bool := l.present && decide (l.flowOn ≤ q)

/-- The highest present level whose flow_on is no greater than q (R103). -/
def CongestionParams.highest (c : CongestionParams) (q : Nat) : Level :=
  if c.l3.calledBy q then .l3 else if c.l2.calledBy q then .l2 else if c.l1.calledBy q then .l1 else .clear

/-- The congestion level machine at a VALID close (R103). -/
def levelMachine (c : CongestionParams) (q : Nat) (t : StationState) : StationState :=
  let h := c.highest q
  if t.level.rank < h.rank then { t with level := h, levelCount := 0 }
  else
    match c.level t.level with
    | none => t
    | some l =>
      if q < l.flowOff then
        if c.releaseCount ≤ t.levelCount + 1 then { t with level := t.level.down, levelCount := 0 }
        else { t with levelCount := t.levelCount + 1 }
      else { t with levelCount := 0 }

/-- The highest present level at or below a level. -/
def CongestionParams.floorLevel (c : CongestionParams) : Level → Level
  | .l3 => if c.l3.present then .l3 else if c.l2.present then .l2 else if c.l1.present then .l1 else .clear
  | .l2 => if c.l2.present then .l2 else if c.l1.present then .l1 else .clear
  | .l1 => if c.l1.present then .l1 else .clear
  | .clear => .clear

/-- A CONGESTION group that takes effect at a close (R104). -/
def adjustLevel (c : CongestionParams) (t : StationState) : StationState :=
  if c.floorLevel t.level = t.level then t else { t with level := c.floorLevel t.level, levelCount := 0 }

/-! ### The queue machine (R106) -/

/-- The queue machine at a VALID close. -/
def queueMachine (q : QueueParams) (speed : Nat) (t : StationState) : StationState :=
  if t.queueOn then
    if q.queueOff < speed then
      if q.queueRelease ≤ t.queueCount + 1 then { t with queueOn := false, queueCount := 0 }
      else { t with queueCount := t.queueCount + 1 }
    else { t with queueCount := 0 }
  else if speed < q.queueOn then { t with queueOn := true, queueCount := 0 }
  else t

/-! ### The close of one station (R97, R108) -/

/-- A VALID close: interval values, filters, level machine, queue machine. -/
def validClose (p : Params) (x : Sums) (t : StationState) : StationState :=
  let ms := p.measure.interval * 1000
  let v := intervalSpeed p.measure.freeSpeed ms x
  let f := intervalFlow ms x
  let s := smooth p.measure.smoothingShift t.s v
  let q := smooth p.measure.smoothingShift t.q f
  let t1 := { t with s := s, q := q, valid := true, invalidCloses := 0, v := some v, f := some f }
  queueMachine p.queue (smoothed s) (levelMachine p.congestion (smoothed q) t1)

/-- An INVALID close (R108): values held, V and F absent, and the level dropped at the third. A STATION_RESET within the
run sets the count to 0 (R109), so that a third close after it is one more third close (log 36). -/
def invalidClose (t : StationState) : StationState :=
  let n := satAdd 255 t.invalidCloses 1
  let t1 := { t with valid := false, v := none, f := none, invalidCloses := n }
  if n = 3 then { t1 with level := .clear, levelCount := 0 } else t1

/-- One station's results are taken whole (R97): its record, the STATION_INVALID record of a close at which the count of
R108 reaches 3 (log 36), then its STATION_REPORT. -/
def State.closeStation (adjust : Bool) (intervalEnd : Clock) (st : Nat) (ls : List LaneResult) (s : State) : State :=
  match s.traffic.look st with
  | none => s
  | some t0 =>
    let t := if adjust then adjustLevel s.geo.params.congestion t0 else t0
    let x := stationSums ls
    let valid : Bool := x.lanes != 0
    let t' := if valid then validClose s.geo.params x t else invalidClose t
    let s1 := { s with traffic := s.traffic.put st t' }
    let s2 := if valid = false ∧ t'.invalidCloses = 3 then s1.measureError .stationInvalid .fault st else s1
    s2.raise (.stationReport st intervalEnd (ls.map (·.report)) t')

/-- All stations in ascending number (R97). -/
def closeStations (adjust : Bool) (intervalEnd : Clock) : List (Nat × List LaneResult) → State → State
  | [], s => s
  | (st, ls) :: rest, s => closeStations adjust intervalEnd rest (s.closeStation adjust intervalEnd st ls)

/-- Waiting values take effect (R11, R97). -/
def State.applyWaiting (s : State) : State :=
  { s with
    geo := { s.geo with
             params := { s.geo.params with
                         congestion := s.geo.waiting.congestion.getD s.geo.params.congestion
                         queue := s.geo.waiting.queue.getD s.geo.params.queue
                         wrongway := s.geo.waiting.wrongway.getD s.geo.params.wrongway }
             waiting := ⟨none, none, none⟩ } }

/-! ### Wrong-way detection (R110, R111) -/

/-- The age of a window entry: the clock difference modulo 2^32. -/
def age (now c : Clock) : Nat := (now - c).toNat

/-- The entries younger than the window (R110). -/
def freshEntries (window : Nat) (now : Clock) (w : List WindowEntry) : List WindowEntry :=
  w.filter fun e => decide (age now e.clock < window * 1000)

/-- The window after a passage arrives (R110, steps 1 to 3). -/
def windowAfter (window : Nat) (now : Clock) (lane : Nat) (w : List WindowEntry) : List WindowEntry :=
  let w1 := freshEntries window now w ++ [⟨now, lane⟩]
  if w1.length = 4 then w1.tail else w1

/-- A reverse passage reaches the station's window (R110); at threshold the station confirms a wrong-way
driver (R111). -/
def State.reversePassage (st lane : Nat) (s : State) : State :=
  match s.traffic.look st with
  | none => s
  | some t =>
    let p := s.geo.params.wrongway
    let w := windowAfter p.window s.clock lane t.window
    if p.threshold ≤ w.length then
      let s1 := { s with traffic := s.traffic.put st { t with window := [] } }
      (s1.raise (.wrongWayAlert st (s.stationChainage st) lane (w.map (·.clock)))).raiseOrTrack st
    else { s with traffic := s.traffic.put st { t with window := w } }

/-! ### Requests -/

/-- The start values of a station (R96). -/
def freshStation (freeSpeed : Nat) : StationState where
  s := 16 * freeSpeed
  q := 0
  level := .clear
  levelCount := 0
  queueOn := false
  queueCount := 0
  valid := true
  invalidCloses := 0
  v := none
  f := none
  window := []

/-- STATION_RESET of one record (R109). -/
def StationState.restart (freeSpeed : Nat) (t : StationState) : StationState :=
  { t with s := 16 * freeSpeed, q := 0, level := .clear, levelCount := 0, queueOn := false, queueCount := 0,
           invalidCloses := 0 }

/-- STATION_RESET (R109). -/
def handleStationReset (s : State) (p : List Byte) : Answer :=
  if s.geo.mode = .setup then refuse s .wrongMode
  else
    match p with
    | [n] =>
      if n.toNat = 0 ∨ 24 < n.toNat then refuse s .badValue
      else if s.geo.stations.has n.toNat = false then refuse s .notFound
      else
        accept { s with traffic :=
          s.traffic.adjust n.toNat (StationState.restart s.geo.params.measure.freeSpeed) }
    | _ => refuse s .badLength

/-- The lanes of a station as they stand now (R113). -/
def lanesNow (e : StationEntry) : List LaneNow :=
  e.lanes.map fun kv => ⟨kv.1, kv.2.status e.nodeCond, kv.2.reasons e.nodeCond, kv.2.lastIncluded⟩

/-- READ_STATION (R113). -/
def handleReadStation (s : State) (p : List Byte) : Answer :=
  if s.geo.mode = .setup then refuse s .wrongMode
  else
    match p with
    | [n] =>
      if n.toNat = 0 ∨ 24 < n.toNat then refuse s .badValue
      else
        match s.geo.stations.look n.toNat with
        | none => refuse s .notFound
        | some r =>
          let t := (s.traffic.look n.toNat).getD (freshStation s.geo.params.measure.freeSpeed)
          let home := s.geo.home.look n.toNat
          ⟨s, .ok, .station
            { station := n.toNat, home := home, host := r.host,
              state := { t with window := freshEntries s.geo.params.wrongway.window s.clock t.window },
              demands := stationDemands s.geo.params.congestion s.geo.params.queue home t.level t.queueOn,
              lanes := match s.measure.stations.look n.toNat with | some e => lanesNow e | none => [] }⟩
    | _ => refuse s .badLength

/-- The row STATION_RESET. -/
def execStationReset (s : State) : Host.Outcome State Fault Refusal := takeRequest (· == 0x10#8) handleStationReset s

/-- The row READ_STATION. -/
def execReadStation (s : State) : Host.Outcome State Fault Refusal := takeRequest (· == 0x13#8) handleReadStation s

end Sys2Proof.Machine
end

