-- ==== Sys2Proof/Machine/Passages.lean ====
section
/-! DEFINITION. Loop stations and vehicle passages (chapter 5): edge records, the passage machine, passages,
lane faults, the node condition and the interval close. -/

namespace Sys2Proof.Machine

/-! ### Counters and times -/

/-- R74: counts stay at 65,535. -/
def countTop : Nat := 65535

/-- R74: sums stay at 2^32 − 1. -/
def sumTop : Nat := 4294967295

/-- The difference Δ(t1→t2), taken modulo 65,536 (R79). -/
def tickDelta (t1 t2 : Tick) : Nat := (t2 - t1).toNat

/-- What one record makes known beyond its lane. -/
inductive LaneEvent where
  | edgeSequence
  | implausible
  | stuckOn
  | reverse
  deriving DecidableEq, Repr

/-- A start that never found its partner (R80, R82). -/
def LaneRec.countUnpaired (l : LaneRec) : LaneRec :=
  { l with acc := { l.acc with unpaired := satAdd countTop l.acc.unpaired 1 } }

/-- A passage counted as rejected (R82, R83). -/
def LaneRec.countRejected (l : LaneRec) : LaneRec :=
  { l with acc := { l.acc with rejected := satAdd countTop l.acc.rejected 1 } }

/-- An implausible passage (R83): rejected, and reported if it is the lane's first in the interval. -/
def LaneRec.rejectImplausible (l : LaneRec) : LaneRec × List LaneEvent :=
  ({ l.countRejected with implausible := true }, if l.implausible then [] else [.implausible])

/-! ### Passages (R83 to R86) -/

/-- The speed of a forward passage (R83). -/
def passageSpeed (spacing d : Nat) : Nat := (36 * spacing + d / 2) / d

/-- The length of a vehicle (R84), from 0 to 5,000. -/
def vehicleLength (spacing loopLength occ d : Nat) : Nat := min 5000 ((spacing * occ + d / 2) / d - loopLength)

/-- The accumulators after a counted passage (R84, R85). -/
def Acc.addPassage (p : MeasureParams) (a : Acc) (v occ len : Nat) : Acc :=
  { a with
    count := satAdd countTop a.count 1
    sumV := satAdd sumTop a.sumV v
    occupied := satAdd sumTop a.occupied occ
    class1 := if len ≤ p.class1Limit then satAdd countTop a.class1 1 else a.class1
    class2 := if p.class1Limit < len ∧ len ≤ p.class2Limit then satAdd countTop a.class2 1 else a.class2
    class3 := if p.class1Limit < len ∧ p.class2Limit < len then satAdd countTop a.class3 1 else a.class3 }

/-- A forward passage completes (R83 to R85). -/
def forwardPassage (p : MeasureParams) (r : StationRec) (nodeCond : Bool) (l : LaneRec) (tA tB tAf : Tick) :
    LaneRec × List LaneEvent :=
  let d := tickDelta tA tB
  if d = 0 ∨ 250 < passageSpeed r.spacing d then l.rejectImplausible
  else if l.faulty nodeCond then ({ l with silent := false }, [])
  else
    let occ := tickDelta tA tAf
    ({ l with acc := l.acc.addPassage p (passageSpeed r.spacing d) occ (vehicleLength r.spacing r.loopLength occ d) }, [])

/-- A reverse passage (R86); the machine then waits in REV_WAIT. -/
def reversed (nodeCond : Bool) (l : LaneRec) (d : Nat) : LaneRec × List LaneEvent :=
  let l1 := { l with machine := .revWait }
  if d = 0 then l1.rejectImplausible
  else
    ({ l1 with acc := { l1.acc with reverse := satAdd countTop l1.acc.reverse 1 } },
      if l.faulty nodeCond then [] else [.reverse])

/-! ### The passage machine (R80 to R82) -/

/-- A rise or fall given to the machine (R80). -/
def passEdge (p : MeasureParams) (r : StationRec) (nodeCond : Bool) (l : LaneRec) (isB rise : Bool) (t : Tick) :
    LaneRec × List LaneEvent :=
  match l.machine, isB, rise with
  | .idle, false, true => ({ l with machine := .aLead t none }, [])
  | .idle, true, true => if l.loopA.high then (l, []) else ({ l with machine := .bLead t }, [])
  | .idle, _, false => (l, [])
  | .aLead tA _, false, false => ({ l with machine := .aLead tA (some t) }, [])
  | .aLead tA tAf, true, true =>
    if tickDelta tA t ≤ p.maxGap then
      match tAf with
      | some f => forwardPassage p r nodeCond { l with machine := .idle } tA t f
      | none => ({ l with machine := .fwdWait tA t }, [])
    else ({ l.countUnpaired with machine := if l.loopA.high then .idle else .bLead t }, [])
  | .aLead _ _, false, true => ({ l.countUnpaired with machine := .aLead t none }, [])
  | .aLead _ _, true, false => (l, [])
  | .fwdWait tA tB, false, false => forwardPassage p r nodeCond { l with machine := .idle } tA tB t
  | .fwdWait _ _, _, _ => (l, [])
  | .bLead tB, false, true =>
    if tickDelta tB t ≤ p.maxGap then reversed nodeCond l (tickDelta tB t)
    else ({ l.countUnpaired with machine := .aLead t none }, [])
  | .bLead _, true, true => ({ l.countUnpaired with machine := .bLead t }, [])
  | .bLead _, _, false => (l, [])
  | .revWait, _, _ => (l, [])

/-- A HELD record given to the machine (R82). -/
def passHeld (l : LaneRec) (isB : Bool) : LaneRec :=
  match l.machine, isB with
  | .aLead _ _, false => { l.countUnpaired with machine := .idle }
  | .fwdWait _ _, false => if l.loopA.held = 4 then { l.countRejected with machine := .idle } else l
  | .bLead _, true => { l.countUnpaired with machine := .idle }
  | _, _ => l

/-- R81: after each record a machine in REV_WAIT moves to IDLE when both loops are low. -/
def endReverse (l : LaneRec) : LaneRec :=
  if l.machine = .revWait ∧ l.loopA.high = false ∧ l.loopB.high = false then { l with machine := .idle } else l

/-! ### Edge records (R75 to R77, R88, R91) -/

/-- The loop a record names. -/
def LaneRec.loop (l : LaneRec) (isB : Bool) : Loop := if isB then l.loopB else l.loopA

/-- Replace the loop a record names. -/
def LaneRec.setLoop (l : LaneRec) (isB : Bool) (x : Loop) : LaneRec :=
  if isB then { l with loopB := x } else { l with loopA := x }

/-- An edge sequence error (R76, R77): the machine returns to IDLE and the error is counted; rising above
edge_error_limit makes the lane SUSPECT and is reported once (R91). -/
def sequenceError (p : MeasureParams) (l : LaneRec) : LaneRec × List LaneEvent :=
  let n := satAdd countTop l.acc.edgeErrors 1
  let crosses : Bool := decide (l.acc.edgeErrors ≤ p.edgeErrorLimit ∧ p.edgeErrorLimit < n)
  ({ l with machine := .idle, acc := { l.acc with edgeErrors := n }, suspect := l.suspect || crosses },
    if crosses then [.edgeSequence] else [])

/-- R88: the loop's held count at the high level reaches stuck_marks. -/
def becomeStuck (l : LaneRec) (isB : Bool) : LaneRec × List LaneEvent :=
  let was : Bool := l.loopA.stuck || l.loopB.stuck
  let l1 := l.setLoop isB { l.loop isB with stuck := true }
  ({ l1 with excluded := true, seen := { l1.seen with stuckOn := true } }, if was then [] else [.stuckOn])

/-- An EDGE record (R76). The loop, with its stuck mark, is updated before the passage machine takes the record (R75), so
that a passage completed by the fall that ends a STUCK_ON fault is counted: the model's reading (log 40). -/
def takeEdge (p : MeasureParams) (r : StationRec) (nodeCond : Bool) (l : LaneRec) (e : EdgeRec) :
    LaneRec × List LaneEvent :=
  let x := l.loop e.loopB
  if x.high = e.high then sequenceError p (l.setLoop e.loopB { x with held := 0 })
  else passEdge p r nodeCond (l.setLoop e.loopB ⟨e.high, 0, e.high && x.stuck⟩) e.loopB e.high e.tick

/-- A HELD record (R77, R88). -/
def takeHeld (p : MeasureParams) (l : LaneRec) (e : EdgeRec) : LaneRec × List LaneEvent :=
  let x := l.loop e.loopB
  if x.high = e.high then
    let l1 := passHeld (l.setLoop e.loopB { x with held := satAdd 255 x.held 1 }) e.loopB
    if e.high = true ∧ satAdd 255 x.held 1 = p.stuckMarks then becomeStuck l1 e.loopB else (l1, [])
  else sequenceError p (l.setLoop e.loopB ⟨e.high, 1, e.high && x.stuck⟩)

/-- One edge record applied to its lane (R75). -/
def takeRecord (p : MeasureParams) (r : StationRec) (nodeCond : Bool) (l : LaneRec) (e : EdgeRec) :
    LaneRec × List LaneEvent :=
  let x := if e.held then takeHeld p l e else takeEdge p r nodeCond l e
  (endReverse x.1, x.2)

/-- What a record's events do beyond its lane: error records (section 5.8) and the hand-over of a reverse
passage (R86). -/
def State.laneEvents (st lane : Nat) : List LaneEvent → State → State
  | [], s => s
  | e :: es, s =>
    State.laneEvents st lane es
      (match e with
       | .edgeSequence => s.measureError .edgeSequence .warn st
       | .implausible => s.measureError .implausible .warn st
       | .stuckOn => s.measureError .stuckOn .fault st
       | .reverse => s.reversePassage st lane)

/-- Change the entry of a station. -/
def State.onStation (st : Nat) (f : StationEntry → StationEntry) (s : State) : State :=
  { s with measure := { s.measure with stations := s.measure.stations.adjust st f } }

/-- The effects of one record are complete before the next is taken (R75). -/
def State.edgeRecord (st : Nat) (r : StationRec) (s : State) (e : EdgeRec) : State :=
  match s.measure.stations.look st with
  | none => s
  | some en =>
    match en.lanes.look e.lane with
    | none => s
    | some l =>
      let x := takeRecord s.geo.params.measure r en.nodeCond l e
      State.laneEvents st e.lane x.2
        (s.onStation st fun en => { en with lanes := en.lanes.put e.lane x.1 })

/-- R78: the overflow flag, or an edge-loss indication (R46). -/
def State.edgesLost (st : Nat) (s : State) : State :=
  State.measureError .bufferOverflow .warn st
    (s.onStation st fun en =>
      { en with lanes := en.lanes.mapValues fun l => { l with suspect := true, machine := .idle } })

/-- A TRACE reply at a station (R75): the overflow flag first, then the records in reply order. -/
def State.traceStation (st : Nat) (r : StationRec) (t : TraceReply) (s : State) : State :=
  t.records.foldl (State.edgeRecord st r) (if t.overflow then s.edgesLost st else s)

/-! ### The node condition (R90) -/

/-- A lane whose node leaves ONLINE. -/
def LaneRec.nodeLost (l : LaneRec) : LaneRec :=
  { l with machine := .idle, excluded := true, seen := { l.seen with node := true } }

/-- The loop state of START. -/
def Loop.fresh : Loop := ⟨false, 0, false⟩

/-- A lane whose node is ONLINE after a new description. -/
def LaneRec.described (l : LaneRec) : LaneRec := { l with loopA := Loop.fresh, loopB := Loop.fresh }

/-- What the measurement unit does at a change of node state (R66, R90). -/
def State.measureOnNode (g : Nat) (old new : NodeState) (s : State) : State :=
  match s.hosted g with
  | none => s
  | some (st, _) =>
    if old = .online ∧ new ≠ .online then
      s.onStation st fun en => ⟨true, en.lanes.mapValues LaneRec.nodeLost⟩
    else if old ≠ .online ∧ new = .online then
      s.onStation st fun en => ⟨false, if old = .suspect then en.lanes else en.lanes.mapValues LaneRec.described⟩
    else s

/-- Empty accumulators. -/
def Acc.zero : Acc := ⟨0, 0, 0, 0, 0, 0, 0, 0, 0, 0⟩

/-- A lane record at START (R74): FAULTY with reason NODE, shoulder excluded at position 0. -/
def freshLane (p : Nat) : LaneRec where
  machine := .idle
  loopA := Loop.fresh
  loopB := Loop.fresh
  silent := false
  suspect := false
  excluded := true
  seen := ⟨false, false, true⟩
  shoulderExcluded := p == 0
  acc := Acc.zero
  implausible := false
  lastIncluded := false

/-- A station entry at START (R74, R90). -/
def freshEntry (r : StationRec) : StationEntry := ⟨true, (LaneSet.positions r.lanes).map fun p => (p, freshLane p)⟩

/-! ### The interval close (R89, R94, R95) -/

/-- The flow of the station's other included lanes, veh/h (R89). -/
def otherFlow (intervalMs p : Nat) (ls : Table LaneRec) : Nat :=
  ((ls.filter fun kv => kv.1 != p && kv.2.included).map fun kv => kv.2.acc.count).sum * 3600000 / intervalMs

/-- Whether a lane becomes silent at this close (R89). -/
def becomesSilent (p : MeasureParams) (nodeCond : Bool) (ls : Table LaneRec) (kv : Nat × LaneRec) : Bool :=
  !kv.2.faulty nodeCond && !kv.2.shoulderExcluded && !kv.2.loopA.high && decide (p.silentMarks ≤ kv.2.loopA.held) &&
    decide (p.silentFlow ≤ otherFlow (p.interval * 1000) kv.1 ls)

/-- A lane that becomes SILENT. -/
def LaneRec.silence (l : LaneRec) : LaneRec :=
  { l with silent := true, excluded := true, seen := { l.seen with silent := true } }

/-- The lanes of a station after the silent test: every test uses the inclusion fixed before it. -/
def silenceLanes (p : MeasureParams) (en : StationEntry) : Table LaneRec :=
  en.lanes.map fun kv => if becomesSilent p en.nodeCond en.lanes kv then (kv.1, kv.2.silence) else kv

/-- A SILENT record for each of these stations. -/
def recordSilent : List Nat → State → State
  | [], s => s
  | st :: sts, s => recordSilent sts (s.measureError .silent .fault st)

/-- The stations of the lanes that become silent at this close, one entry for each lane. -/
def silentErrors (p : MeasureParams) (es : List (Nat × StationEntry)) : List Nat :=
  es.flatMap fun kv => (kv.2.lanes.filter fun x => becomesSilent p kv.2.nodeCond kv.2.lanes x).map fun _ => kv.1

/-- The silent tests of all stations (R94 step 3, log 21), with their records in a free order (R170, log 25). -/
def State.silentTests (s : State) : State :=
  let p := s.geo.params.measure
  let s1 := { s with measure := { s.measure with
    stations := s.measure.stations.mapValues fun en => { en with lanes := silenceLanes p en } } }
  let d := s1.anyOrder (silentErrors p s.measure.stations)
  recordSilent d.1 d.2

/-- The results of one lane (R94). -/
def laneResult (intervalMs : Nat) (kv : Nat × LaneRec) : LaneResult :=
  let a := kv.2.acc
  { report :=
      { lane := kv.1, count := a.count,
        meanSpeed := if a.count = 0 then none else some ((a.sumV + a.count / 2) / a.count),
        occupancy := min 1000 (a.occupied * 1000 / intervalMs),
        class1 := a.class1, class2 := a.class2, class3 := a.class3, reverse := a.reverse, unpaired := a.unpaired,
        rejected := a.rejected, edgeErrors := a.edgeErrors, status := kv.2.closeStatus, reasons := kv.2.seen,
        included := kv.2.included, shoulderExcluded := kv.2.shoulderExcluded }
    sumV := a.sumV
    occupied := a.occupied }

/-- The next interval of one lane (R95). -/
def LaneRec.nextInterval (nodeCond shoulder : Bool) (l : LaneRec) : LaneRec :=
  { l with
    acc := Acc.zero
    implausible := false
    suspect := false
    excluded := l.faulty nodeCond
    seen := l.reasons nodeCond
    shoulderExcluded := shoulder
    lastIncluded := l.included }

/-- The next interval of every lane; the timer restarts from 0 (R93, R95). -/
def State.nextInterval (s : State) : State :=
  { s with
    measure :=
      { timer := some 0
        stations := s.measure.stations.map fun kv =>
          (kv.1, { kv.2 with lanes := kv.2.lanes.map fun lv =>
            (lv.1, lv.2.nextInterval kv.2.nodeCond (s.shoulderOut kv.1 lv.1)) }) } }

/-- Whether the interval timer has reached interval_ms (R93). -/
def State.intervalDue (s : State) : Bool :=
  match s.measure.timer with
  | none => false
  | some t => decide (s.geo.params.measure.interval * 1000 ≤ t)

/-- An interval close (R94, R97, R95). -/
def State.closeInterval (s : State) : State :=
  let ms := s.geo.params.measure.interval * 1000
  let adjust := s.geo.waiting.congestion.isSome
  let s1 := s.silentTests
  let results := s1.measure.stations.map fun kv => (kv.1, kv.2.lanes.map (laneResult ms))
  (closeStations adjust s.clock results s1.applyWaiting).trigger.nextInterval

/-- The row INTERVAL_CLOSE. -/
def execIntervalClose (s : State) : Host.Outcome State Fault Refusal :=
  whenRunning s fun s => if s.intervalDue then s.closeInterval else s

end Sys2Proof.Machine
end

