-- ==== Sys2Proof/Machine/Rollout.lean ====
section
/-! DEFINITION. Display rollout and confirmation (chapter 9): pending SHOWs and their classes, gates,
publication, acceptance, the confirmation sequence, and the completion of a pass (R136). -/

namespace Sys2Proof.Machine

/-! ### The rollout record -/

/-- Change the rollout record of a gantry, if it has one. -/
def State.onRollout (g : Nat) (f : RolloutRec → RolloutRec) (s : State) : State :=
  { s with rollout := s.rollout.adjust g f }

/-- A rollout record at START (R153). -/
def freshRollout (signs : Nat) : RolloutRec where
  commanded := List.replicate signs none
  confirmed := List.replicate signs none
  failed := List.replicate signs none
  pending := none
  inFlight := false
  gateHeld := false
  gateTimer := none
  gateExpired := false
  confirmation := .settled
  polls := 0
  resends := 0

/-- No SHOW waits: pending absent and the gate fields NONE, absent and no (R153). -/
def RolloutRec.noPending (r : RolloutRec) : RolloutRec :=
  { r with pending := none, gateHeld := false, gateTimer := none, gateExpired := false }

/-- The gate fields return to NONE, absent and no (R160). -/
def RolloutRec.clearGate (r : RolloutRec) : RolloutRec :=
  { r with gateHeld := false, gateTimer := none, gateExpired := false }

/-- No confirmation sequence (R157). -/
def RolloutRec.settle (r : RolloutRec) : RolloutRec := { r with confirmation := .settled, polls := 0, resends := 0 }

/-- A sign entry that is known to hold an aspect; an unknown entry differs from every aspect (R157). -/
def entriesEqual : List (Option Aspect) → List Aspect → Bool
  | [], [] => true
  | some a :: es, b :: bs => a == b && entriesEqual es bs
  | _, _ => false

/-! ### Classes (R158) -/

/-- The cell state of a lane aspect: CLOSED, the arrows, or OPEN; an unknown entry is OPEN. -/
def cellState : Option Aspect → Option Cell
  | some .closed => some .closed
  | some (.divert d) => some (.divert d)
  | _ => none

/-- LEGEND 1, 2, 3 or 4; an unknown entry is neither. -/
def warningLegend : Option Aspect → Bool
  | some (.legend n) => decide (1 ≤ n ∧ n ≤ 4)
  | _ => false

/-- Whether an ORDINARY SHOW changes a closure or a warning against the commanded record. -/
def changesWarning : List SignKind → List Aspect → List (Option Aspect) → Bool
  | .lane _ :: ks, a :: as, c :: cs => cellState (some a) != cellState c || changesWarning ks as cs
  | .panel :: ks, a :: as, c :: cs =>
    (c != some a && (warningLegend (some a) || warningLegend c)) || changesWarning ks as cs
  | _, _, _ => false

/-- Whether a RESEND SHOW carries a closure or a warning. -/
def carriesWarning (contents : List Aspect) : Bool := contents.any fun a => a.isCell || warningLegend (some a)

/-- The class of a SHOW (R158). -/
def showClass (kinds : List SignKind) (kind : ShowKind) (contents : List Aspect) (commanded : List (Option Aspect)) :
    ShowClass :=
  let urgent : Bool :=
    match kind with
    | .ordinary => changesWarning kinds contents commanded
    | .resend => carriesWarning contents
  if urgent then .urgent else .normal

/-! ### Gates (R161 to R163) -/

/-- Evaluate the gate of a gantry's pending SHOW (R161); a first hold starts the timer at 0 (R163). -/
def State.evalGate (g : Nat) (s : State) : State :=
  match s.rollout.look g with
  | none => s
  | some r =>
    match r.pending with
    | none => s
    | some p =>
      let held := !r.gateExpired && s.gateHolds g p.body.contents r.commanded
      s.onRollout g fun r =>
        { r with gateHeld := held, gateTimer := if held && r.gateTimer.isNone then some 0 else r.gateTimer }

/-- R162: what gantry g shows, or the serviceability of its signs, has changed: the gates of its
neighbours are evaluated again. -/
def State.gatesBeside (g : Nat) (s : State) : State := (s.evalGate (g - 1)).evalGate (g + 1)

/-- Evaluate the gates of these gantries. -/
def evalGates : List Nat → State → State
  | [], s => s
  | g :: gs, s => evalGates gs (s.evalGate g)

/-- The gate of a pending SHOW expires (R163): the mark is set, and a SHOW that was held is released and
recorded. -/
def State.expireGate (g : Nat) (s : State) : State :=
  match s.rollout.look g with
  | none => s
  | some r =>
    let s1 := s.onRollout g fun r => { r with gateExpired := true, gateHeld := false }
    if r.gateHeld then s1.record .plan .gateExpired .warn (some g) none else s1

/-- Whether a gantry's gate timer has reached gate_time and has not expired yet. -/
def State.gateDue (s : State) (g : Nat) : Bool :=
  match s.rollout.look g with
  | none => false
  | some r =>
    r.pending.isSome && !r.gateExpired &&
      match r.gateTimer with
      | none => false
      | some t => decide (s.geo.params.plan.gateTime * 1000 ≤ t)

/-- Expire the gates of these gantries. -/
def expireGates : List Nat → State → State
  | [], s => s
  | g :: gs, s => expireGates gs (s.expireGate g)

/-- Expire every gate timer that has passed gate_time (R163, a lowered gate_time), in a free order (R170, log 25). -/
def State.expireDue (s : State) : State :=
  let d := s.anyOrder (s.rollout.keys.filter s.gateDue)
  expireGates d.1 d.2

/-! ### Confirmation STATEs -/

/-- Deposit a confirmation STATE for a gantry, due settle from now (R51, R159). -/
def State.depositConfirm (g : Nat) (s : State) : State :=
  s.onLineOf g (LineCtl.depositConfirm s.geo.params.line.settle g)

/-- Withdraw a gantry's confirmation STATE (R157). -/
def State.withdrawConfirm (g : Nat) (s : State) : State := s.onLineOf g (LineCtl.withdrawConfirm g)

/-- End a gantry's confirmation sequence (R157, R160). -/
def State.endConfirmation (g : Nat) (s : State) : State := (s.onRollout g RolloutRec.settle).withdrawConfirm g

/-! ### Pending SHOWs -/

/-- Remove a gantry's pending SHOW from the record and its queue. -/
def State.removePending (g : Nat) (s : State) : State :=
  (s.onRollout g RolloutRec.noPending).onLineOf g (LineCtl.removeShow g)

/-- Create a pending SHOW at the tail of its class and evaluate its gate (R157, R165). -/
def State.createPending (g : Nat) (kind : ShowKind) (contents : List Aspect) (s : State) : State :=
  match s.rollout.look g with
  | none => s
  | some r =>
    let cls := showClass (s.kinds g) kind contents r.commanded
    let s1 := (s.removePending g).onRollout g fun r => { r with pending := some ⟨⟨contents, kind, cls⟩, false⟩ }
    (s1.onLineOf g (LineCtl.deposit cls.cls ⟨g, .display, .rollout, false⟩)).evalGate g

/-- The positions shown CLOSED or DIVERT with their aspects (R163). -/
def closureSet : List SignKind → List Aspect → List (Nat × Cell)
  | .lane p :: ks, a :: as =>
    match cellState (some a) with
    | some c => (p, c) :: closureSet ks as
    | none => closureSet ks as
  | .panel :: ks, _ :: as => closureSet ks as
  | _, _ => []

/-- Replace the contents of a pending SHOW (R157): the kind becomes ORDINARY, the retry mark is kept, the
class is worked out afresh and a SHOW that changes class joins the tail of its new queue (R51). A change
of the closures shown clears the gate's expiry and timer (R163). -/
def State.replacePending (g : Nat) (contents : List Aspect) (s : State) : State :=
  match s.rollout.look g with
  | none => s
  | some r =>
    match r.pending with
    | none => s
    | some p =>
      let cls := showClass (s.kinds g) .ordinary contents r.commanded
      let same : Bool := closureSet (s.kinds g) p.body.contents == closureSet (s.kinds g) contents
      let s1 := s.onRollout g fun r =>
        { r with
          pending := some ⟨⟨contents, .ordinary, cls⟩, p.retry⟩
          gateTimer := if same then r.gateTimer else none
          gateExpired := same && r.gateExpired }
      let s2 :=
        if cls = p.body.cls then s1
        else s1.onLineOf g fun l =>
          (l.removeShow g).deposit cls.cls ⟨g, .display, if p.retry then .line else .rollout, p.retry⟩
      s2.evalGate g

/-- The shown aspects of a gantry's target (R151). -/
def State.shown (s : State) (g : Nat) : List Aspect :=
  match s.plan.targets.look g with
  | none => []
  | some t => t.signs.map (·.shown)

/-- R157, first case: the comparison of targets and commanded record for a node that is ONLINE with no
SHOW in flight. -/
def State.compare (g : Nat) (s : State) : State :=
  match s.rollout.look g with
  | none => s
  | some r =>
    let want := s.shown g
    if entriesEqual r.commanded want then
      match r.pending with
      | some p => if p.body.kind = .ordinary ∧ p.retry = false then s.removePending g else s
      | none => s
    else
      match r.pending with
      | none => (s.endConfirmation g).createPending g .ordinary want
      | some p => if p.body.contents = want then s else (s.endConfirmation g).replacePending g want

/-- Publication at one gantry (R157). -/
def State.publish (g : Nat) (s : State) : State :=
  match s.rollout.look g with
  | none => s
  | some r =>
    match s.nodeState g with
    | some .online => if r.inFlight then s else s.compare g
    | some .suspect =>
      match r.pending with
      | some p =>
        if p.retry = true ∧ p.body.contents ≠ s.shown g then (s.endConfirmation g).replacePending g (s.shown g) else s
      | none => s
    | _ => s

/-- Publication at these gantries in turn. -/
def publishAll : List Nat → State → State
  | [], s => s
  | g :: gs, s => publishAll gs (s.publish g)

/-! ### Outcomes of a SHOW (R159) -/

/-- A SHOW has been accepted: commanded record, confirmation sequence, then the comparison afresh. -/
def State.showAccepted (g : Nat) (b : ShowBody) (s : State) : State :=
  let s1 := s.onRollout g fun r =>
    { r with
      inFlight := false
      commanded := b.contents.map some
      confirmation := .awaiting
      polls := 0
      resends := match b.kind with | .ordinary => 0 | .resend => r.resends + 1 }
  (s1.depositConfirm g).compare g

/-- A SHOW failed while its node was ONLINE: the queued retry is the pending SHOW, its gate fresh. -/
def State.showRetried (g : Nat) (b : ShowBody) (s : State) : State :=
  State.evalGate g (s.onRollout g fun r => { r.noPending with inFlight := false, pending := some ⟨b, true⟩ })

/-! ### Node changes (R160) -/

/-- Whether some entry of a record is known. -/
def anyKnown (es : List (Option Aspect)) : Bool := es.any Option.isSome

/-- Every commanded entry is known and at least one confirmed entry differs (R160). -/
def RolloutRec.disagrees (r : RolloutRec) : Bool := r.commanded.all Option.isSome && r.commanded != r.confirmed

/-- Forget every entry of a record. -/
def unknown (es : List (Option Aspect)) : List (Option Aspect) := es.map fun _ => none

/-- What the rollout unit does at a change of node state (R160), the notice apart. -/
def State.rolloutOnNode (g : Nat) (old new : NodeState) (s : State) : State :=
  let s1 :=
    if old = .online then
      let keepsRetry : Bool :=
        match s.rollout.look g with
        | some r => (match r.pending with | some p => p.retry | none => false)
        | none => false
      (if keepsRetry then s.onRollout g RolloutRec.clearGate else s.removePending g).endConfirmation g
    else s
  match new with
  | .describing => s1.onRollout g fun r => { r with commanded := unknown r.commanded, failed := unknown r.failed }
  | .offline =>
    ((s1.removePending g).onRollout g fun r =>
      { r with inFlight := false, confirmed := unknown r.confirmed }).withdrawConfirm g
  | .disabled =>
    (s1.removePending g).onRollout g fun r => { r with inFlight := false, confirmed := unknown r.confirmed }
  | .online =>
    if old = .suspect then
      match s1.rollout.look g with
      | none => s1
      | some r =>
        if r.disagrees then
          (s1.onRollout g fun r => { r with confirmation := .awaiting, polls := 0, resends := 0 }).depositConfirm g
        else s1
    else s1
  | _ => s1

/-- The signs of a DISPLAY_CHANGE (R156): the confirmed record after the change, the commanded record, and
which entries changed. -/
def signChanges : List (Option Aspect) → List (Option Aspect) → List (Option Aspect) → List SignChange
  | b :: bs, a :: as, c :: cs => ⟨a, c, b != a⟩ :: signChanges bs as cs
  | _, _, _ => []

/-! ### STATE replies (R155, R164 to R167) -/

/-- Set the confirm-failed mark of each sign whose entry in `marks` is true (R70). -/
def markSigns : List Bool → List SignRec → List SignRec
  | m :: ms, r :: rs => (if m then { r with confirmFailed := true } else r) :: markSigns ms rs
  | _, rs => rs

/-- Clear the confirm-failed mark of each sign whose entry in `marks` is true (R70). -/
def clearSigns : List Bool → List SignRec → List SignRec
  | m :: ms, r :: rs => (if m then { r with confirmFailed := false } else r) :: clearSigns ms rs
  | _, rs => rs

/-- The registry applies a request about confirm-failed marks (R70): a change evaluates the gates beside
(R162) and gives one trigger (R72). -/
def State.applyMarks (g : Nat) (f : List SignRec → List SignRec) (s : State) : State :=
  match s.nodes.look g with
  | none => s
  | some n =>
    if f n.signs = n.signs then s
    else
      State.trigger (State.gatesBeside g { s with nodes := s.nodes.put g { n with signs := f n.signs } })

/-- Which signs differ from their commanded entries. -/
def differing : List (Option Aspect) → List Aspect → List Bool
  | c :: cs, d :: ds => (c != some d) :: differing cs ds
  | _, _ => []

/-- Record the commanded aspect of each marked sign as its failed aspect (R166). -/
def recordFailed : List Bool → List (Option Aspect) → List (Option Aspect) → List (Option Aspect)
  | m :: ms, c :: cs, f :: fs => (if m then c else f) :: recordFailed ms cs fs
  | _, _, fs => fs

/-- The sequence has failed (R166). -/
def State.confirmFailed (g : Nat) (shown : List Aspect) (s : State) : State :=
  match s.rollout.look g with
  | none => s
  | some r =>
    let marks := differing r.commanded shown
    let s1 := s.onRollout g fun r => { r with failed := recordFailed marks r.commanded r.failed }
    let s2 := s1.applyMarks g (markSigns marks)
    let s3 := s2.record (s2.bankOf g) .confirmFail .fault (some g) none
    s3.onRollout g RolloutRec.settle

/-- The aspects of a commanded record all of whose entries are known. -/
def knownAspects (es : List (Option Aspect)) : List Aspect := es.filterMap id

/-- The third poll of a round finds a sign that differs (R165, R166). -/
def State.roundFailed (g : Nat) (shown : List Aspect) (s : State) : State :=
  match s.rollout.look g with
  | none => s
  | some r =>
    if r.resends < 2 then
      (s.onRollout g fun r => { r with confirmation := .resending, polls := 0 }).createPending g .resend
        (knownAspects r.commanded)
    else s.confirmFailed g shown

/-- Judge a STATE reply (R164, R165). `poll` says that it answers the confirmation STATE of the present
round (log 23). -/
def State.judge (g : Nat) (poll : Bool) (shown : List Aspect) (s : State) : State :=
  match s.rollout.look g with
  | none => s
  | some r =>
    let matching := entriesEqual r.commanded shown
    match r.confirmation with
    | .settled => s
    | .awaiting =>
      if matching then s.endConfirmation g
      else if poll then
        let s1 := s.onRollout g fun r => { r with polls := r.polls + 1 }
        if r.polls + 1 < 3 then s1.depositConfirm g else s1.roundFailed g shown
      else s
    | .resending =>
      if matching then
        let s1 := s.onRollout g RolloutRec.settle
        match r.pending with
        | some p => if p.body.kind = .resend then s1.removePending g else s1
        | none => s1
      else s

/-- Which signs R167 clears: displayed as commanded, commanded as failed. -/
def recovered : List (Option Aspect) → List (Option Aspect) → List Aspect → List Bool
  | c :: cs, f :: fs, d :: ds => (f.isSome && c == some d && c == f) :: recovered cs fs ds
  | _, _, _ => []

/-- Discard the failed aspect of each cleared sign. -/
def discardFailed : List Bool → List (Option Aspect) → List (Option Aspect)
  | m :: ms, f :: fs => (if m then none else f) :: discardFailed ms fs
  | _, fs => fs

/-- Clear the confirm-failed marks a STATE reply settles (R167). -/
def State.clearRecovered (g : Nat) (shown : List Aspect) (s : State) : State :=
  match s.rollout.look g with
  | none => s
  | some r =>
    if r.inFlight then s
    else
      let marks := recovered r.commanded r.failed shown
      (s.onRollout g fun r => { r with failed := discardFailed marks r.failed }).applyMarks g (clearSigns marks)

/-- The displayed aspects of a STATE reply reach the rollout unit (R155): the confirmed record and its
DISPLAY_CHANGE, the gates beside, the judgement, the marks it clears. -/
def State.rolloutState (g : Nat) (poll : Bool) (shown : List Aspect) (s : State) : State :=
  match s.rollout.look g with
  | none => s
  | some r =>
    let now := shown.map some
    let s1 :=
      if r.confirmed = now then s
      else
        State.gatesBeside g
          (State.raise (.displayChange g .state (signChanges r.confirmed now r.commanded))
            (s.onRollout g fun r => { r with confirmed := now }))
    (s1.judge g poll shown).clearRecovered g shown

/-! ### Completion of a pass (R136) -/

/-- A pass has settled gantry 1: targets replaced, UNSERVED records, publication downstream first, and the
next pass if the again-flag is set. -/
def State.completePass (n : Snapshot) (s : State) : State :=
  let old := s.plan.targets
  let new := n.targets
  let s1 := { s with plan := { s.plan with targets := new } }
  let s2 := recordAllLost old new s1
  let s3 := publishAll (Table.keys new).reverse s2
  if s3.plan.again then { s3 with plan := { s3.plan with again := false, running := some s3.snapshot } }
  else { s3 with plan := { s3.plan with running := none } }

/-- The row PASS_COMPLETE. -/
def execPassComplete (s : State) : Host.Outcome State Fault Refusal :=
  whenRunning s fun s =>
    match s.plan.running with
    | none => s
    | some n => s.completePass n

/-- The row GATE_EXPIRED (R163). -/
def execGateExpired (g : Nat) (s : State) : Host.Outcome State Fault Refusal :=
  whenRunning s fun s => if s.gateDue g then s.expireGate g else s

end Sys2Proof.Machine
end

