-- ==== Sys2Proof/Machine/Registry.lean ====
section
/-! DEFINITION. The node registry (chapter 4): changes of node state with all they bring about, description,
sign records, GANTRY_SERVICE, READ_NODE and the OFFLINE retry. -/

namespace Sys2Proof.Machine

/-! ### A change of node state (R55, R56, R65, R66, R72) -/

/-- The confirm-failed marks cleared (R56, R70). -/
def clearAllFailed (rs : List SignRec) : List SignRec := rs.map fun r => { r with confirmFailed := false }

/-- The node record after a change of state (R55, R56, R63): a DESCRIBING node starts at DESCRIBE, or at
CAPS 0 on entry from OFFLINE; the retry timer starts on entry to OFFLINE. -/
def NodeRec.moved (new : NodeState) (reason : Reason) (mismatch : Option Mismatch) (now : Clock) (n : NodeRec) :
    NodeRec where
  state := new
  reason := reason
  since := now
  step := if new = .describing then some (if n.state = .offline then .caps 0 else .describe) else none
  mismatch := mismatch
  retry := if new = .offline then some 0 else none
  signs := if new = .describing then clearAllFailed n.signs else n.signs

/-- What the line controller does at a change of node state (R52, R54, R57). -/
def State.lineOnNode (g : Nat) (old new : NodeState) (s : State) : State :=
  match new with
  | .describing => s.onLineOf g (LineCtl.stopPolls g)
  | .offline => s.onLineOf g (LineCtl.stopPolls g)
  | .disabled => s.onLineOf g (LineCtl.dropNode g)
  | .online =>
    if old = .describing then s.onLineOf g (LineCtl.startPolls s.geo.params.line.pollPeriod g) else s
  | _ => s

/-- The record a change of node state makes in the line's bank (R65). -/
def Reason.recorded (r : Reason) (new : NodeState) : Option (ErrorCode × Severity) :=
  match r with
  | .nodeRestart => some (.nodeRestart, .fault)
  | .failure _ => if new = .suspect then some (.nodeSuspect, .warn) else some (.nodeOffline, .fault)
  | .describeMismatch => some (.describeMismatch, .fault)
  | _ => none

/-- The NODE_EVENT of a change (R65). -/
def State.nodeEvent (g : Nat) (old new : NodeState) (reason : Reason) (mismatch : Option Mismatch) (s : State) : State :=
  match s.geo.gantries.look g with
  | none => s
  | some r => s.raise (.nodeEvent g r.line r.address old new reason mismatch)

/-- The bank record of a change (R65). -/
def State.nodeRecord (g : Nat) (new : NodeState) (reason : Reason) (s : State) : State :=
  match reason.recorded new with
  | none => s
  | some x => s.record (s.bankOf g) x.1 x.2 (some g) none

/-- The confirmed record of a gantry, empty without a rollout record. -/
def State.confirmed (s : State) (g : Nat) : List (Option Aspect) :=
  match s.rollout.look g with
  | none => []
  | some r => r.confirmed

/-- The commanded record of a gantry, empty without a rollout record. -/
def State.commanded (s : State) (g : Nat) : List (Option Aspect) :=
  match s.rollout.look g with
  | none => []
  | some r => r.commanded

/-- The notices of a change of node state: NODE_EVENT, then the record with its FAULT (R65); the
DISPLAY_CHANGE of an entry to OFFLINE or DISABLED stands before, between or after them as a free value
says (R66, log 10). `shown` is the DISPLAY_CHANGE, if there is one. -/
def State.nodeNotices (g : Nat) (old new : NodeState) (reason : Reason) (mismatch : Option Mismatch)
    (shown : Option NoticeBody) (s : State) : State :=
  match shown with
  | none => (s.nodeEvent g old new reason mismatch).nodeRecord g new reason
  | some b =>
    let s1 := s.draw.2
    if Config.displayChangePlace s.draw.1 = 0 then
      ((s1.raise b).nodeEvent g old new reason mismatch).nodeRecord g new reason
    else if Config.displayChangePlace s.draw.1 = 1 then
      ((s1.nodeEvent g old new reason mismatch).raise b).nodeRecord g new reason
    else ((s1.nodeEvent g old new reason mismatch).nodeRecord g new reason).raise b

/-- A telegram of the registry joins the tail of SERVICE (R56, R57). -/
def State.depositService (g : Nat) (j : Job) (s : State) : State :=
  s.onLineOf g (LineCtl.deposit .service ⟨g, j, .registry, false⟩)

/-- The DISPLAY_CHANGE of a gantry whose confirmed record becomes unknown (R155, R156), if any entry was
known. -/
def State.forgetNotice (s : State) (g : Nat) (new : NodeState) : Option NoticeBody :=
  if (new = .offline ∨ new = .disabled) ∧ anyKnown (s.confirmed g) = true then
    some (.displayChange g .node (signChanges (s.confirmed g) (unknown (s.confirmed g)) (s.commanded g)))
  else none

/-- The node of gantry g changes its state (R55 to R66): node record, line controller, measurement unit,
rollout unit, notices and records, the telegram a description begins with, the gates beside (R162) and the
triggers of R72. -/
def State.changeNode (g : Nat) (new : NodeState) (reason : Reason) (mismatch : Option Mismatch) (s : State) : State :=
  match s.nodes.look g with
  | none => s
  | some n =>
    let old := n.state
    let shown := s.forgetNotice g new
    let s1 := { s with nodes := s.nodes.put g (n.moved new reason mismatch s.clock) }
    let s2 := ((s1.lineOnNode g old new).measureOnNode g old new).rolloutOnNode g old new
    let s3 := s2.nodeNotices g old new reason mismatch shown
    let s4 :=
      if new = .describing then s3.depositService g (if old = .offline then .caps 0 else .describe) else s3
    let crosses : Bool := (old == .online) != (new == .online)
    let s5 := if crosses || shown.isSome then s4.gatesBeside g else s4
    let s6 := if crosses then s5.trigger else s5
    if new = .describing ∧ n.signs.any (·.confirmFailed) = true then s6.trigger else s6

/-- A node record as START creates it (R55, R67). -/
def freshNode (now : Clock) (r : GantryRec) : NodeRec where
  state := .absent
  reason := .start
  since := now
  step := none
  mismatch := none
  retry := none
  signs := List.replicate r.signCount ⟨[], none, none, false, false⟩

/-- Every node of a START moves on to DESCRIBING (R56), in ascending gantry: on one line R56 says so, and over both lines
the order of their NODE_EVENTs is the model's choice (log 41). -/
def describeAll : List Nat → State → State
  | [], s => s
  | g :: gs, s => describeAll gs (s.changeNode g .describing .start none)

/-! ### Success and failure (R57, R59 to R63) -/

/-- A success outcome: the retry of a SUSPECT node brings it back ONLINE (R62). -/
def State.nodeSucceeded (g : Nat) (retry : Bool) (s : State) : State :=
  if s.nodeState g = some .suspect ∧ retry = true then s.changeNode g .online .recovered none else s

/-- Change the record of a node in place. -/
def State.onNode (g : Nat) (f : NodeRec → NodeRec) (s : State) : State := { s with nodes := s.nodes.adjust g f }

/-- The description goes on with its next step (R57). -/
def State.nextStep (g : Nat) (st : DescStep) (s : State) : State :=
  let j : Job := match st with | .describe => .describe | .caps i => .caps i | .state => .state .enrol
  (s.onNode g fun n => { n with step := some st }).depositService g j

/-- The check at which a DESCRIBE reply first disagrees with the records (R58). -/
def State.describeCheck (s : State) (g : Nat) (r : DescribeReply) : Option Mismatch :=
  match s.geo.gantries.look g with
  | none => some .lanes
  | some gr =>
    let loops : LaneSet := match s.hosted g with | some x => x.2.lanes | none => 0
    if r.lanes ≠ LaneSet.positions gr.lanes then some .lanes
    else if r.panel ≠ gr.panel then some .panel
    else if r.loops ≠ loops then some .loops
    else none

/-- A retry DESCRIBE disagrees (R63): the timer starts again; a mismatch that is new becomes the reason,
with its NODE_EVENT and record. -/
def State.offlineMismatch (g : Nat) (m : Mismatch) (n : NodeRec) (s : State) : State :=
  let s1 := s.onNode g fun n => { n with retry := some 0 }
  if n.reason = .describeMismatch ∧ n.mismatch = some m then s1
  else
    ((s1.onNode g fun n => { n with reason := .describeMismatch, mismatch := some m }).nodeEvent g .offline .offline
      .describeMismatch (some m)).nodeRecord g .offline .describeMismatch

/-- A REPLIED DESCRIBE (R57, R58, R63). -/
def State.described (g : Nat) (r : DescribeReply) (s : State) : State :=
  match s.nodes.look g with
  | none => s
  | some n =>
    match n.state, s.describeCheck g r with
    | .describing, none => if n.step = some .describe then s.nextStep g (.caps 0) else s
    | .describing, some m =>
      if n.step = some .describe then s.changeNode g .offline .describeMismatch (some m) else s
    | .offline, none => s.changeNode g .describing .retryReplied none
    | .offline, some m => s.offlineMismatch g m n
    | _, _ => s

/-- The entries of a CAPS reply that are kept (R68, R177): no BLANK, nothing of the wrong kind, no entry
twice; in reply order. -/
def keepCaps (k : SignKind) : List Aspect → List Aspect → List Aspect
  | kept, [] => kept
  | kept, a :: as =>
    if a = .blank ∨ Aspect.fits k a = false ∨ kept.contains a = true then keepCaps k kept as
    else keepCaps k (kept ++ [a]) as

/-- The same capabilities, taken as sets. -/
def sameSet (a b : List Aspect) : Bool := a.all (fun x => b.contains x) && b.all (fun x => a.contains x)

/-- A REPLIED CAPS for sign i (R57, R68). -/
def State.capsTaken (g i : Nat) (entries : List Aspect) (s : State) : State :=
  match s.nodes.look g, (s.kinds g)[i]? with
  | some n, some k =>
    match n.signs[i]? with
    | none => s
    | some r =>
      let list := keepCaps k [] entries
      let s1 := s.onNode g fun n => { n with signs := n.signs.set i { r with caps := list } }
      let s2 :=
        if entries.any (fun a => !Aspect.fits k a) then s1.record (s1.bankOf g) .badCapability .warn (some g) none else s1
      let s3 := if sameSet r.caps list then s2 else s2.trigger
      if n.state = .describing ∧ n.step = some (.caps i) then
        s3.nextStep g (if i + 1 < n.signs.length then .caps (i + 1) else .state)
      else s3
  | _, _ => s

/-- A sign record after a STATE reply (R69). -/
def SignRec.report (r : SignRec) (x : Health × Aspect) : SignRec :=
  { r with health := some x.1, displayed := some x.2, degradedMark := r.degradedMark || x.1 == .degraded }

/-- Every sign record after a STATE reply. -/
def takeReports : List SignRec → List (Health × Aspect) → List SignRec
  | r :: rs, x :: xs => r.report x :: takeReports rs xs
  | rs, _ => rs

/-- Whether the health of some sign changes (R69). -/
def healthChanges : List SignRec → List (Health × Aspect) → Bool
  | r :: rs, x :: xs => r.health != some x.1 || healthChanges rs xs
  | _, _ => false

/-- The registry takes the signs of a STATE reply (R69): a change of health evaluates the gates beside
(R162) and triggers a pass (R72). -/
def State.takeSigns (g : Nat) (xs : List (Health × Aspect)) (s : State) : State :=
  match s.nodes.look g with
  | none => s
  | some n =>
    let s1 := s.onNode g fun n => { n with signs := takeReports n.signs xs }
    if healthChanges n.signs xs then (s1.gatesBeside g).trigger else s1

/-- A REPLIED STATE at the registry (R57, R60 to R62, R69): recovery, the signs, then a restart (log 20)
or the end of the description. -/
def State.stateTaken (g : Nat) (retry : Bool) (r : StateReply) (s : State) : State :=
  let restart : Bool := r.restarted && (s.nodeState g == some .online || s.nodeState g == some .suspect)
  let s1 := if restart then s else s.nodeSucceeded g retry
  let s2 := s1.takeSigns g r.signs
  if restart then s2.changeNode g .describing .nodeRestart none
  else
    match s2.nodes.look g with
    | none => s2
    | some n =>
      if n.state = .describing ∧ n.step = some .state then s2.changeNode g .online .described none else s2

/-! ### GANTRY_SERVICE (R64) -/

/-- Set a gantry's service state. -/
def State.setService (g : Nat) (v : Service) (s : State) : State :=
  { s with geo := { s.geo with gantries := s.geo.gantries.adjust g fun r => { r with service := v } } }

/-- GANTRY_SERVICE: IN is coded 0 and OUT 1 (R1, log 12). -/
def handleGantryService (s : State) (p : List Byte) : Answer :=
  if s.geo.mode = .setup then refuse s .wrongMode
  else
    match p with
    | [g, v] =>
      if g.toNat = 0 ∨ 32 < g.toNat ∨ 1 < v.toNat then refuse s .badValue
      else if s.geo.gantries.has g.toNat = false then refuse s .notFound
      else if v = 1#8 then
        (if s.nodeState g.toNat = some .disabled then accept s
         else accept ((s.setService g.toNat .out).changeNode g.toNat .disabled .serviceOut none))
      else if s.nodeState g.toNat = some .disabled then
        accept ((s.setService g.toNat .inService).changeNode g.toNat .describing .serviceIn none)
      else accept s
    | _ => refuse s .badLength

/-! ### READ_NODE (R73) -/

/-- The degraded marks cleared. -/
def clearDegraded (n : NodeRec) : NodeRec := { n with signs := n.signs.map fun r => { r with degradedMark := false } }

/-- READ_NODE: the reply is built first, then the marks it reports are cleared. -/
def handleReadNode (s : State) (p : List Byte) : Answer :=
  if s.geo.mode = .setup then refuse s .wrongMode
  else
    match p with
    | [g] =>
      if g.toNat = 0 ∨ 32 < g.toNat then refuse s .badValue
      else
        match s.geo.gantries.look g.toNat, s.nodes.look g.toNat with
        | some r, some n =>
          ⟨s.onNode g.toNat clearDegraded, .ok, .node ⟨g.toNat, r.service, n, r.kinds⟩⟩
        | _, _ => refuse s .notFound
    | _ => refuse s .badLength

/-! ### OFFLINE retry (R63) -/

/-- R63: 30 s. -/
def retryLimit : Nat := 30000

/-- Whether a gantry's OFFLINE retry timer has reached 30 s. -/
def State.retryDue (s : State) (g : Nat) : Bool :=
  match s.nodes.look g with
  | none => false
  | some n =>
    n.state == .offline &&
      match n.retry with
      | none => false
      | some t => decide (retryLimit ≤ t)

/-- The retry DESCRIBE joins SERVICE and the timer stops. -/
def State.offlineRetry (g : Nat) (s : State) : State :=
  (s.onNode g fun n => { n with retry := none }).depositService g .describe

/-! ### The rows -/

/-- The row GANTRY_SERVICE. -/
def execGantryService (s : State) : Host.Outcome State Fault Refusal :=
  takeRequest (· == 0x0F#8) handleGantryService s

/-- The row READ_NODE. -/
def execReadNode (s : State) : Host.Outcome State Fault Refusal := takeRequest (· == 0x15#8) handleReadNode s

/-- The row OFFLINE_RETRY. -/
def execOfflineRetry (g : Nat) (s : State) : Host.Outcome State Fault Refusal :=
  whenRunning s fun s => if s.retryDue g then s.offlineRetry g else s

end Sys2Proof.Machine
end

