-- ==== Sys2Proof/Machine/Telegrams.lean ====
section
/-! DEFINITION. The gantry lines (chapter 3): the telegram engine, the arbiter, the outcomes and where they
go, the poll timers and the luminance. -/

namespace Sys2Proof.Machine

/-! ### Sending a request (R34, R37, R38) -/

/-- How the sending of a request went. -/
inductive SendResult where
  /-- every byte was ACKed -/
  | accepted
  | failed (f : Failure)
  /-- the slots given do not reach an end -/
  | unfinished
  deriving DecidableEq, Repr

/-- One byte sent up to a number of times: whether it was ACKed, and the slots left; none when the slots run
out. -/
def sendByte : Nat → List Slot → Option (Bool × List Slot)
  | 0, sl => some (false, sl)
  | _ + 1, [] => none
  | n + 1, x :: xs => if slotAnswer x = .ack then some (true, xs) else sendByte n xs

/-- The bytes after ADDRESS (R38): four sendings each, the last byte (CHECK) one. The argument counts the
bytes before CHECK. -/
def sendRest : Nat → List Slot → SendResult
  | 0, sl =>
    match sendByte 1 sl with
    | none => .unfinished
    | some (true, _) => .accepted
    | some (false, _) => .failed .corrupt
  | n + 1, sl =>
    match sendByte 4 sl with
    | none => .unfinished
    | some (true, rest) => sendRest n rest
    | some (false, _) => .failed .nackLimit

/-- A non-broadcast request of this many bytes (R37): two sendings of ADDRESS, then the rest. -/
def sendRequest (length : Nat) (sl : List Slot) : SendResult :=
  match sendByte 2 sl with
  | none => .unfinished
  | some (false, _) => .failed .noNode
  | some (true, rest) => sendRest (length - 2) rest

/-- How often a byte may be sent, by the bytes behind it (R38): the last, CHECK, once, another four times. -/
def sendingsBefore (behind : List Byte) : Nat := if behind.isEmpty then 1 else 4

/-- The bytes of a request in the order in which they go out, each as often as its slots ask (R37, R38). -/
def sentBytes : Nat → List Byte → List Slot → List Byte
  | _, [], _ => []
  | _, b :: _, [] => [b]
  | n, b :: bs, x :: xs =>
    b :: (if slotAnswer x = .ack then sentBytes (sendingsBefore bs.tail) bs xs
          else if n ≤ 1 then [] else sentBytes (n - 1) (b :: bs) xs)

/-! ### Receiving a reply (R39 to R41) -/

/-- The reply timer in microseconds (R39). -/
def replyLimit : Nat := 20000

/-- The largest gap between reply bytes in microseconds (R40). -/
def gapLimit : Nat := 3000

/-- How the receiving of a reply went. -/
inductive RecvResult where
  /-- a whole reply whose CHECK matches, with its payload -/
  | reply (payload : List Byte)
  /-- `completed` says that the CHECK byte was ACKed (R41) -/
  | failed (f : Failure) (completed : Bool)
  | unfinished
  deriving DecidableEq, Repr

/-- Whether the byte just received, the last of `got`, ends the telegram CORRUPT at its place (R41). -/
def headerFails (address function : Byte) (j : Job) (got : List Byte) : Bool :=
  match got with
  | [a] => a != address
  | [_, f] => f != (function ||| 0x80#8)
  | [_, _, n] => !(decide (n.toNat ≤ 48) && j.lengthOk n.toNat)
  | _ => false

/-- The payload of a telegram whose bytes are all received; none while bytes are missing. -/
def wholePayload : List Byte → Option (List Byte)
  | _ :: _ :: n :: rest => if rest.length = n.toNat + 1 then some (rest.take n.toNat) else none
  | _ => none

/-- The CHECK of a telegram matches (R41, R176). -/
def checkMatches (got : List Byte) : Bool := got.getLast? == some (crc8 got.dropLast)

/-- Receive a reply byte by byte: a silence too long ends the telegram, a faulty byte is NACKed and comes
again, a good byte is checked at its place. `got` are the bytes ACKed so far, `first` says that no start bit
has come. -/
def receive (address function : Byte) (j : Job) (idle : Nat) : List Byte → Bool → List LineChar → RecvResult
  | _, first, [] =>
    if first then (if replyLimit ≤ idle then .failed .replyTimeout false else .unfinished)
    else if gapLimit < idle then .failed .replyBroken false
    else .unfinished
  | got, first, c :: cs =>
    if first ∧ replyLimit < c.gap then .failed .replyTimeout false
    else if first = false ∧ gapLimit < c.gap then .failed .replyBroken false
    else if LineChar.intact c then
      let got' := got ++ [c.data]
      if headerFails address function j got' then .failed .corrupt false
      else
        match wholePayload got' with
        | none => receive address function j idle got' false cs
        | some p => if checkMatches got' then .reply p else .failed .corrupt true
    else receive address function j idle got false cs

/-- How the slot of each reply byte is answered (R40, R41): ACK a good byte and NACK a faulty one, until a byte ends
the telegram at ADDRESS, FUNCTION or LENGTH, whose slot and every later one are left undriven. -/
def slotDrives (address function : Byte) (j : Job) : List Byte → Bool → List LineChar → List SlotDrive
  | _, _, [] => []
  | got, first, c :: cs =>
    if (if first then replyLimit else gapLimit) < c.gap then (c :: cs).map fun _ => .undriven
    else if LineChar.intact c then
      let got' := got ++ [c.data]
      if headerFails address function j got' then (c :: cs).map fun _ => .undriven
      else if (wholePayload got').isSome then .ack :: cs.map fun _ => .undriven
      else .ack :: slotDrives address function j got' false cs
    else .nack :: slotDrives address function j got false cs

/-- What the controller drives on the line over a telegram, half bit time by half bit time (R33, R34): its own bytes,
and the slots of the reply once the request is accepted. A broadcast's slots are neither driven nor read. -/
def telegramDrive (f : Flight) (t : Transcript) : Drive :=
  match f.job with
  | .lumen _ => f.request.flatMap ownByteDrive
  | _ =>
    (sentBytes 2 f.request t.slots).flatMap ownByteDrive ++
      if sendRequest f.request.length t.slots = .accepted ∧ f.job ≠ .display then
        (slotDrives (f.request.getD 0 0) (f.request.getD 1 0) f.job [] true t.reply).flatMap nodeByteDrive
      else []

/-- The contents of a reply that keeps every limit (R41, section 3.4). -/
inductive Content where
  | state (r : StateReply)
  | trace (r : TraceReply)
  | describe (r : DescribeReply)
  | caps (entries : List Aspect)
  deriving DecidableEq, Repr

/-- The content check (R45 to R47); none ends the telegram CORRUPT. -/
def decodeContent (kinds : List SignKind) (lanes : LaneSet) (p : List Byte) : Job → Option Content
  | .state _ => (decodeState kinds p).map .state
  | .trace => (decodeTrace lanes p).map .trace
  | .describe => (decodeDescribe p).map .describe
  | .caps i => (decodeCaps i p).map .caps
  | _ => none

/-! ### Outcomes (R43) -/

/-- The outcome a transcript gives. -/
inductive Ending where
  | accepted
  | replied (c : Content)
  | failed (f : Failure) (completed : Bool)
  | unfinished
  deriving DecidableEq, Repr

/-- The lanes of the station a gantry hosts, none without one. -/
def State.hostedLanes (s : State) (g : Nat) : LaneSet :=
  match s.hosted g with
  | some x => x.2.lanes
  | none => 0

/-- The ending of a reply's bytes. -/
def State.replyEnding (s : State) (f : Flight) (t : Transcript) : Ending :=
  match receive (f.request.getD 0 0) (f.request.getD 1 0) f.job t.idle [] true t.reply with
  | .reply p =>
    match decodeContent (s.kinds f.gantry) (s.hostedLanes f.gantry) p f.job with
    | some c => .replied c
    | none => .failed .corrupt true
  | .failed w c => .failed w c
  | .unfinished => .unfinished

/-- The ending of a telegram in flight (R37 to R41). A broadcast has no slots and no reply (R42). -/
def State.telegramEnding (s : State) (f : Flight) (t : Transcript) : Ending :=
  match f.job with
  | .lumen _ => .unfinished
  | .display =>
    match sendRequest f.request.length t.slots with
    | .accepted => .accepted
    | .failed w => .failed w false
    | .unfinished => .unfinished
  | _ =>
    match sendRequest f.request.length t.slots with
    | .accepted => s.replyEnding f t
    | .failed w => .failed w false
    | .unfinished => .unfinished

/-- The telegram in flight on a line with the outcome this transcript gives it. -/
def State.ending (s : State) (l : Line) (t : Transcript) : Option (Flight × Ending) :=
  match (s.line l).flight with
  | none => none
  | some f => some (f, s.telegramEnding f t)

/-- The telegram has ended (R36): FREE after a success, QUIET after a failure. -/
def LineCtl.ended (e : EngineState) (c : LineCtl) : LineCtl := { c with engine := e, flight := none }

/-- An outcome is reached: the engine changes, then the outcome is handed on unless it is discarded (R36,
R43, R54). -/
def State.outcome (l : Line) (f : Flight) (e : EngineState) (hand : State → State) (s : State) : State :=
  let s1 := s.onLine l (LineCtl.ended e)
  if f.discarded then s1 else hand s1

/-- The name under which a failure is recorded (R43). -/
def Failure.error : Failure → ErrorCode
  | .noNode => .noNode
  | .nackLimit => .nackLimit
  | .corrupt => .corrupt
  | .replyTimeout => .replyTimeout
  | .replyBroken => .replyBroken

/-- The poll timers at the outcome of a TRACE or a STATE (R52). -/
def Job.restartPolls (j : Job) (p : Poll) : Poll :=
  match j with
  | .trace => { p with trace := 0 }
  | .state _ => { p with state := 0 }
  | _ => p

/-- The class a telegram is queued in (R51, R53). -/
def Flight.cls (f : Flight) : Class :=
  match f.job with
  | .display => match f.body with | some b => b.cls.cls | none => .normalShow
  | .state .confirm => .confirm
  | .trace => .trace
  | .lumen _ => .lumen
  | _ => .service

/-- The registry and R53 act on a failure (R59, R60, R62, R63). -/
def State.nodeFailed (l : Line) (f : Flight) (w : Failure) (s : State) : State :=
  let g := f.gantry
  match s.nodeState g with
  | some .online =>
    (s.changeNode g .suspect (.failure w) none).onLine l (LineCtl.depositHead f.cls ⟨g, f.job, .line, true⟩)
  | some .suspect => if f.retry then s.changeNode g .offline (.failure w) none else s
  | some .describing => s.changeNode g .offline (.failure w) none
  | some .offline => s.onNode g fun n => { n with retry := some 0 }
  | _ => s

/-- The edge-loss indication of a completed TRACE (R46). -/
def State.loseEdges (g : Nat) (s : State) : State :=
  match s.hosted g with
  | none => s
  | some x => s.edgesLost x.1

/-- Whether a completed STATE gives a restart-loss indication (R45). -/
def State.restartLoss (s : State) (f : Flight) (completed : Bool) : Bool :=
  completed && (match f.job with | .state _ => true | _ => false) &&
    (s.nodeState f.gantry == some .online || s.nodeState f.gantry == some .suspect)

/-- A failure outcome is handed on (R43, R45, R46, R53, R159). -/
def State.handFailure (l : Line) (f : Flight) (w : Failure) (completed : Bool) (s : State) : State :=
  let g := f.gantry
  let s1 := (s.onLine l fun c => { c with polls := c.polls.adjust g f.job.restartPolls }).record (lineBank l) w.error
    .warn (some g) none
  if s.restartLoss f completed then s1.changeNode g .describing .nodeRestart none
  else
    let s2 := s1.nodeFailed l f w
    let s3 := if completed = true ∧ f.job = .trace then s2.loseEdges g else s2
    match f.job, f.body with
    | .display, some b => if s.nodeState g = some .online then s3.showRetried g b else s3
    | _, _ => s3

/-- A SHOW is ACCEPTED (R43, R159). -/
def State.handAccepted (f : Flight) (s : State) : State :=
  let s1 := s.nodeSucceeded f.gantry f.retry
  match f.body with
  | none => s1
  | some b => s1.showAccepted f.gantry b

/-- The poll timers after a REPLIED STATE (R45, R52). -/
def Poll.afterState (pollPeriod : Nat) (overflow : Bool) (p : Poll) : Poll :=
  { trace := if overflow then pollPeriod else p.trace, state := 0 }

/-- A STATE is REPLIED (R43, R45, R155). Only a confirmation STATE's own first sending counts as a poll
(log 23). -/
def State.handState (l : Line) (f : Flight) (r : StateReply) (s : State) : State :=
  let g := f.gantry
  let s1 := s.stateTaken g f.retry r
  let s2 := s1.onLine l fun c =>
    { c with polls := c.polls.adjust g (Poll.afterState s.geo.params.line.pollPeriod r.overflowPending) }
  s2.rolloutState g (f.job == .state .confirm && !f.retry) (r.signs.map (·.2))

/-- The poll timers after a REPLIED TRACE (R52). -/
def Poll.afterTrace (pollPeriod : Nat) (more : Bool) (p : Poll) : Poll :=
  { p with trace := if more then pollPeriod else 0 }

/-- A TRACE is REPLIED (R43, R46). -/
def State.handTrace (l : Line) (f : Flight) (r : TraceReply) (s : State) : State :=
  let g := f.gantry
  let s1 := s.nodeSucceeded g f.retry
  let s2 := s1.onLine l fun c =>
    { c with polls := c.polls.adjust g (Poll.afterTrace s.geo.params.line.pollPeriod r.more) }
  match s2.hosted g with
  | none => s2
  | some x => s2.traceStation x.1 x.2 r

/-! ### The arbiter (R50) -/

/-- The first entry that passes, with the queue without it. -/
def takeFirst (ok : Entry → Bool) : List Entry → Option (Entry × List Entry)
  | [] => none
  | e :: es => if ok e then some (e, es) else (takeFirst ok es).map fun x => (x.1, e :: x.2)

/-- The arbiter's choice: the oldest eligible entry of the first of these classes that holds one, with the
queues without it. -/
def State.choose (s : State) (q : Queues) : List Class → Option (Entry × Queues)
  | [] => none
  | c :: cs =>
    match takeFirst s.eligible (q.look c) with
    | some x => some (x.1, q.put c x.2)
    | none => s.choose q cs

/-- What a SHOW carries when the arbiter takes it (R153). -/
def State.showBody (s : State) (e : Entry) : Option ShowBody :=
  match e.job with
  | .display =>
    match s.rollout.look e.gantry with
    | none => none
    | some r => r.pending.map (·.body)
  | _ => none

/-- The address of a gantry's node; 0, a broadcast, for no gantry (R35). -/
def State.addressOf (s : State) (g : Nat) : Byte :=
  match s.geo.gantries.look g with
  | none => 0
  | some r => BitVec.ofNat 8 r.address

/-- The telegram that goes into flight for an entry (R35, R36). -/
def State.flightOf (s : State) (e : Entry) : Flight where
  gantry := e.gantry
  job := e.job
  retry := e.retry
  body := s.showBody e
  request := telegram (s.addressOf e.gantry) e.job.code
    (e.job.payload (match s.showBody e with | some b => b.contents | none => []))
  discarded := false

/-- A SHOW that is taken stops being pending (R153). -/
def State.takeShow (e : Entry) (s : State) : State :=
  match e.job with
  | .display => s.onRollout e.gantry fun r => { r.noPending with inFlight := true }
  | _ => s

/-- The arbiter chooses and the engine begins to send (R50). -/
def State.startTelegram (l : Line) (s : State) : State :=
  if s.geo.mode = .run ∧ (s.line l).engine = .free then
    match s.choose (s.line l).queues Class.order with
    | none => s
    | some (e, q) =>
      State.takeShow e
        (s.onLine l fun c => { c with engine := .sending, flight := some (s.flightOf e), queues := q })
  else s

/-! ### Timers of a line (R48, R51, R52) -/

/-- A TRACE poll is due (R52, log 22): the node is ONLINE, its timer has reached poll_period, and no TRACE
for it waits or is in flight. -/
def State.tracePollDue (s : State) (g : Nat) (c : LineCtl) : Bool :=
  s.nodeState g == some .online &&
    (match c.polls.look g with | some p => decide (s.geo.params.line.pollPeriod ≤ p.trace) | none => false) &&
    !c.queues.trace.any (fun e => e.gantry == g) &&
    (match c.flight with | some f => !(f.gantry == g && f.job == .trace) | none => true)

/-- A routine STATE is due (R52, log 22). -/
def State.routineStateDue (s : State) (g : Nat) (c : LineCtl) : Bool :=
  s.nodeState g == some .online &&
    (match c.polls.look g with | some p => decide (s.geo.params.line.statePeriod * 1000 ≤ p.state) | none => false) &&
    !c.queues.service.any (fun e => e.gantry == g && e.job == .state .routine) &&
    (match c.flight with | some f => !(f.gantry == g && f.job == .state .routine) | none => true)

/-- The TRACE joins its class. -/
def State.pollTrace (g : Nat) (s : State) : State :=
  s.onLineOf g fun c => if s.tracePollDue g c then c.deposit .trace ⟨g, .trace, .line, false⟩ else c

/-- The routine STATE joins SERVICE. -/
def State.pollState (g : Nat) (s : State) : State :=
  s.onLineOf g fun c => if s.routineStateDue g c then c.deposit .service ⟨g, .state .routine, .line, false⟩ else c

/-- A held confirmation STATE whose time has run down joins the tail of CONFIRM (R51). -/
def LineCtl.confirmDue (g : Nat) (c : LineCtl) : LineCtl :=
  if c.held.look g = some 0 then
    LineCtl.deposit .confirm ⟨g, .state .confirm, .rollout, false⟩ { c with held := c.held.del g }
  else c

/-- R48: 30 s. -/
def lumenPeriod : Nat := 30000

/-- The LUMEN repeat timer reaches 30 s: a LUMEN is queued and the timer starts again. -/
def LineCtl.repeatLumen (c : LineCtl) : LineCtl :=
  match c.lumenTimer with
  | none => c
  | some t => if lumenPeriod ≤ t then { c.queueLumen c.level with lumenTimer := some 0 } else c

/-- R36: a line undriven for 3 ms ends QUIET. -/
def LineCtl.quietEnd (undriven : Nat) (c : LineCtl) : LineCtl :=
  if c.engine = .quiet ∧ gapLimit ≤ undriven then { c with engine := .free } else c

/-- A broadcast has been sent (R42): nothing is handed on. -/
def LineCtl.broadcastSent (c : LineCtl) : LineCtl :=
  match c.flight with
  | some f => match f.job with | .lumen _ => c.ended .free | _ => c
  | none => c

/-- A new luminance level on one line (R48). -/
def LineCtl.setLevel (n : Nat) (c : LineCtl) : LineCtl := { c with level := n }.queueLumen n

/-- LUMINANCE (R48). -/
def handleLuminance (s : State) (p : List Byte) : Answer :=
  if s.geo.mode = .setup then refuse s .wrongMode
  else
    match p with
    | [n] =>
      if n.toNat = 0 ∨ 8 < n.toNat then refuse s .badValue
      else accept ((s.onLine .a (LineCtl.setLevel n.toNat)).onLine .b (LineCtl.setLevel n.toNat))
    | _ => refuse s .badLength

/-! ### The rows -/

/-- The row LUMINANCE. -/
def execLuminance (s : State) : Host.Outcome State Fault Refusal := takeRequest (· == 0x11#8) handleLuminance s

/-- The row TELEGRAM_START. -/
def execTelegramStart (l : Line) (s : State) : Host.Outcome State Fault Refusal :=
  whenRunning s fun s => s.startTelegram l

/-- The row SHOW_ACCEPTED. -/
def execShowAccepted (l : Line) (t : Transcript) (s : State) : Host.Outcome State Fault Refusal :=
  whenRunning s fun s =>
    match s.ending l t with
    | some (f, .accepted) => s.outcome l f .free (State.handAccepted f)
    | _ => s

/-- The row STATE_REPLY. -/
def execStateReply (l : Line) (t : Transcript) (s : State) : Host.Outcome State Fault Refusal :=
  whenRunning s fun s =>
    match s.ending l t with
    | some (f, .replied (.state r)) => s.outcome l f .free (State.handState l f r)
    | _ => s

/-- The row TRACE_REPLY. -/
def execTraceReply (l : Line) (t : Transcript) (s : State) : Host.Outcome State Fault Refusal :=
  whenRunning s fun s =>
    match s.ending l t with
    | some (f, .replied (.trace r)) => s.outcome l f .free (State.handTrace l f r)
    | _ => s

/-- The row DESCRIBE_REPLY. -/
def execDescribeReply (l : Line) (t : Transcript) (s : State) : Host.Outcome State Fault Refusal :=
  whenRunning s fun s =>
    match s.ending l t with
    | some (f, .replied (.describe r)) =>
      s.outcome l f .free fun s => (s.nodeSucceeded f.gantry f.retry).described f.gantry r
    | _ => s

/-- The row CAPS_REPLY. -/
def execCapsReply (l : Line) (t : Transcript) (s : State) : Host.Outcome State Fault Refusal :=
  whenRunning s fun s =>
    match s.ending l t with
    | some (f, .replied (.caps es)) =>
      s.outcome l f .free fun s =>
        (s.nodeSucceeded f.gantry f.retry).capsTaken f.gantry (match f.job with | .caps i => i | _ => 0) es
    | _ => s

/-- The row SENT. -/
def execSent (l : Line) (s : State) : Host.Outcome State Fault Refusal :=
  whenRunning s fun s => s.onLine l LineCtl.broadcastSent

/-- A row of a failure outcome: the telegram in flight ends with this failure. -/
def failureRow (want : Failure) (l : Line) (t : Transcript) (s : State) : State :=
  match s.ending l t with
  | some (f, .failed w c) => if w = want then s.outcome l f .quiet (State.handFailure l f w c) else s
  | _ => s

/-- The row NO_NODE. -/
def execNoNode (l : Line) (t : Transcript) (s : State) : Host.Outcome State Fault Refusal :=
  whenRunning s (failureRow .noNode l t)

/-- The row NACK_LIMIT. -/
def execNackLimit (l : Line) (t : Transcript) (s : State) : Host.Outcome State Fault Refusal :=
  whenRunning s (failureRow .nackLimit l t)

/-- The row CORRUPT. -/
def execCorrupt (l : Line) (t : Transcript) (s : State) : Host.Outcome State Fault Refusal :=
  whenRunning s (failureRow .corrupt l t)

/-- The row REPLY_TIMEOUT. -/
def execReplyTimeout (l : Line) (t : Transcript) (s : State) : Host.Outcome State Fault Refusal :=
  whenRunning s (failureRow .replyTimeout l t)

/-- The row REPLY_BROKEN. -/
def execReplyBroken (l : Line) (t : Transcript) (s : State) : Host.Outcome State Fault Refusal :=
  whenRunning s (failureRow .replyBroken l t)

/-- The row LINE_QUIET_END. -/
def execLineQuietEnd (l : Line) (undriven : Nat) (s : State) : Host.Outcome State Fault Refusal :=
  whenRunning s fun s => s.onLine l (LineCtl.quietEnd undriven)

/-- The row TRACE_POLL_DUE. -/
def execTracePollDue (g : Nat) (s : State) : Host.Outcome State Fault Refusal :=
  whenRunning s fun s => s.pollTrace g

/-- The row ROUTINE_STATE_DUE. -/
def execRoutineStateDue (g : Nat) (s : State) : Host.Outcome State Fault Refusal :=
  whenRunning s fun s => s.pollState g

/-- The row CONFIRM_DUE. -/
def execConfirmDue (g : Nat) (s : State) : Host.Outcome State Fault Refusal :=
  whenRunning s fun s => s.onLineOf g (LineCtl.confirmDue g)

/-- The row LUMEN_REPEAT. -/
def execLumenRepeat (l : Line) (s : State) : Host.Outcome State Fault Refusal :=
  whenRunning s fun s => s.onLine l LineCtl.repeatLumen

end Sys2Proof.Machine
end

