-- ==== Sys2Proof/Machine/Clock.lean ====
section
/-! DEFINITION. One millisecond of the controller's own time (log 1): the corridor clock (R17) and the
millisecond timers of the blocks, each of which stops at its limit until its row is taken (log 4). -/

namespace Sys2Proof.Machine

/-- A timer that counts up to its limit and stops there. -/
def countTo (limit t : Nat) : Nat := if t < limit then t + 1 else t

/-- The poll timers of a node (R52). -/
def Poll.tick (p : LineParams) (x : Poll) : Poll :=
  ⟨countTo p.pollPeriod x.trace, countTo (p.statePeriod * 1000) x.state⟩

/-- The timers of a line: polls (R52), held confirmation STATEs (R51), LUMEN repeat (R48). -/
def LineCtl.tick (p : LineParams) (c : LineCtl) : LineCtl :=
  { c with
    polls := c.polls.mapValues (Poll.tick p)
    held := c.held.mapValues fun t => t - 1
    lumenTimer := c.lumenTimer.map (countTo lumenPeriod) }

/-- The OFFLINE retry timer (R63). -/
def NodeRec.tick (n : NodeRec) : NodeRec := { n with retry := n.retry.map (countTo retryLimit) }

/-- The interval timer (R93). -/
def Measure.tick (intervalMs : Nat) (m : Measure) : Measure := { m with timer := m.timer.map (countTo intervalMs) }

/-- The expiry timer of an incident (R121). -/
def Incident.tick (r : Incident) : Incident := { r with expiry := r.expiry.map fun t => t - 1 }

/-- The gate timer of a pending SHOW (R163); it stops once the gate has expired. -/
def RolloutRec.tick (gateMs : Nat) (r : RolloutRec) : RolloutRec :=
  { r with gateTimer := if r.gateExpired then r.gateTimer else r.gateTimer.map (countTo gateMs) }

/-- One millisecond passes. While RESET_N is low nothing moves (R15). -/
def State.tick (s : State) : State :=
  if s.resetHigh then
    { s with
      clock := s.clock + 1
      lineA := s.lineA.tick s.geo.params.line
      lineB := s.lineB.tick s.geo.params.line
      nodes := s.nodes.mapValues NodeRec.tick
      measure := s.measure.tick (s.geo.params.measure.interval * 1000)
      incidents := s.incidents.mapValues Incident.tick
      rollout := s.rollout.mapValues (RolloutRec.tick (s.geo.params.plan.gateTime * 1000)) }
  else s

end Sys2Proof.Machine
end

