-- ==== Sys2Proof/Machine/Link.lean ====
section
/-! DEFINITION. The supervisor link unit (chapter 2): the receive framer, the gap timer, the transmit arbiter,
UNKNOWN_TYPE and IDENTIFY. -/

namespace Sys2Proof.Machine

/-! ### The receive framer (R19 to R24) -/

/-- A fresh framer: IDLE, no bytes, no mark, no run of discarded characters. -/
def Framer.fresh : Framer := ⟨.idle, [], none, false⟩

/-- Replace the framer. -/
def State.setFramer (f : Framer) (s : State) : State := { s with link := { s.link with framer := f } }

/-- The mark a faulty character sets (R23); of one with both errors the spec does not say which (log 9). -/
def charMark (c : SupChar) (both : Bool) : Option CharError :=
  if SupChar.parityError c then
    (if SupChar.framingError c then (if both then some .parity else some .framing) else some .parity)
  else if SupChar.framingError c then some .framing
  else none

/-- The mark of the frame after a character: the first faulty character sets it (R23). -/
def markAfter (old : Option CharError) (c : SupChar) (both : Bool) : Option CharError :=
  match old with
  | some m => some m
  | none => charMark c both

/-- R24: the receive queue holds at most 4 frames. -/
def rxCapacity : Nat := 4

/-- A checked frame joins the receive queue, or is lost with OVERRUN (R24). -/
def State.queueFrame (f : Frame) (s : State) : State :=
  if s.link.rxQueue.length < rxCapacity then { s with link := { s.link with rxQueue := s.link.rxQueue ++ [f] } }
  else s.linkError .overrun

/-- The bytes of a complete frame from LEN on, without the two check bytes. -/
def frameBody (bytes : List Byte) : List Byte := bytes.take (bytes.length - 2)

/-- The two check bytes, high byte first (R175). -/
def frameCheck (bytes : List Byte) : List Byte := bytes.drop (bytes.length - 2)

/-- The frame that a body from LEN on spells (section 2.2). -/
def frameOf : List Byte → Option Frame
  | _ :: ty :: tg :: payload => some ⟨ty, tg, payload⟩
  | _ => none

/-- The second check byte completes a frame (R23, R24). -/
def State.completeFrame (bytes : List Byte) (mark : Option CharError) (s : State) : State :=
  match mark with
  | some .parity => s.linkError .parity
  | some .framing => s.linkError .framing
  | none =>
    let body := frameBody bytes
    if frameCheck bytes = [highByte (crc16 body), lowByte (crc16 body)] then
      match frameOf body with
      | some f => s.queueFrame f
      | none => s
    else s.linkError .crc

/-- A character advances the framer (R19 to R24). -/
def State.character (c : SupChar) (both : Bool) (s : State) : State :=
  let fr := s.link.framer
  match fr.state with
  | .idle =>
    if c.data = 0xA5#8 ∧ charMark c both = none then s.setFramer ⟨.length, [], none, false⟩
    else if fr.strayRun then s
    else (s.setFramer ⟨.idle, [], none, true⟩).linkError .stray
  | .length =>
    if c.data.toNat < 2 ∨ 250 < c.data.toNat then (s.setFramer Framer.fresh).linkError .badLen
    else s.setFramer ⟨.body c.data.toNat, [c.data], markAfter fr.mark c both, false⟩
  | .body n =>
    s.setFramer ⟨if n ≤ 1 then .check 2 else .body (n - 1), fr.bytes ++ [c.data], markAfter fr.mark c both, false⟩
  | .check n =>
    if 2 ≤ n then s.setFramer ⟨.check 1, fr.bytes ++ [c.data], markAfter fr.mark c both, false⟩
    else (s.setFramer Framer.fresh).completeFrame (fr.bytes ++ [c.data]) (markAfter fr.mark c both)

/-- Whether the transmitter is sending the reply to a RESET; what arrives meanwhile is discarded unrecorded
(R16, log 28). -/
def Link.sendsReset (l : Link) : Bool :=
  match l.tx with
  | some x => match x.what with | .resetReply _ => true | _ => false
  | none => false

/-- A character arrives on SUP_RX; one with both errors draws a free value (log 9). -/
def State.receiveCharacter (c : SupChar) (s : State) : State :=
  if s.link.sendsReset then s
  else if SupChar.parityError c && SupChar.framingError c then
    s.draw.2.character c (Config.doubleErrorIsParity s.draw.1)
  else s.character c true

/-- The gap limit in bit times (R18, R21): 4 characters of 11 bits. -/
def gapBitLimit : Nat := 44

/-- The gap timer passes its limit out of IDLE (R21); while the RESET reply is sent nothing is recorded (R16, log 28). -/
def State.frameTimeout (gapBits : Nat) (s : State) : State :=
  if s.link.sendsReset then s
  else if s.link.framer.state ≠ .idle ∧ gapBitLimit < gapBits then
    (s.setFramer Framer.fresh).linkError .frameTimeout
  else s

/-! ### The transmit path (R28 to R30) -/

/-- The transmitter takes the reply of the reply slot (R28), which empties. -/
def State.sendReply (s : State) : State :=
  match s.link.tx, s.link.replySlot with
  | none, some r =>
    { s with
      link := { s.link with
                replySlot := none
                tx := some ⟨if s.link.resetting then .resetReply r else .reply r, r.frame⟩ } }
  | _, _ => s

/-- The transmitter takes the head of the notice queue, no reply waiting and no request left to take (R28: notices go
out once the receive queue is empty); the notice carries the lost flag, which is then cleared (R30). -/
def State.sendNotice (s : State) : State :=
  match s.link.tx, s.link.replySlot, s.link.rxQueue, s.link.notices with
  | none, none, [], n :: rest =>
    { s with
      link := { s.link with
                notices := rest
                lost := false
                tx := some ⟨.notice n s.link.lost, n.frame s.link.lost⟩ } }
  | _, _, _, _ => s

/-- The last byte of a reply or notice frame has left (R28). -/
def State.frameSent (s : State) : State :=
  if s.link.sendsReset then s else { s with link := { s.link with tx := none } }

/-! ### IDENTIFY (R31) -/

/-- The gantries on a line. -/
def countOnLine (gs : Table GantryRec) (l : Line) : Nat := (gs.filter fun kv => decide (kv.2.line = l)).length

/-- The sections named by defined gantries. -/
def State.sectionCount (s : State) : Nat := ([1, 2, 3, 4].filter fun n => s.sectionExists n).length

/-- IDENTIFY (R31). -/
def handleIdentify (s : State) (p : List Byte) : Answer :=
  match p with
  | [b] =>
    if b = 0#8 then ⟨s, .ok, .identity⟩
    else if b = 1#8 then ⟨s, .ok, .capacities⟩
    else if b = 2#8 then
      ⟨s, .ok, .counts s.geo.gantries.length s.geo.stations.length s.sectionCount (countOnLine s.geo.gantries .a)
        (countOnLine s.geo.gantries .b)⟩
    else if b = 3#8 then ⟨s, .ok, .status s.geo.mode s.clock s.link.rate⟩
    else ⟨s, .ok, .unknownLeaf⟩
  | _ => refuse s .badLength

/-- A request of no known TYPE (R26). -/
def handleUnknown (s : State) (_ : List Byte) : Answer := refuse s .unknownType

/-! ### The rows -/

/-- The row SUP_RX_CHARACTER. -/
def execSupRxCharacter (c : SupChar) (s : State) : Host.Outcome State Fault Refusal :=
  whenRunning s fun s => s.receiveCharacter c

/-- The row FRAME_TIMEOUT. -/
def execFrameTimeout (gapBits : Nat) (s : State) : Host.Outcome State Fault Refusal :=
  whenRunning s fun s => s.frameTimeout gapBits

/-- The row SEND_REPLY. -/
def execSendReply (s : State) : Host.Outcome State Fault Refusal := whenRunning s State.sendReply

/-- The row SEND_NOTICE. -/
def execSendNotice (s : State) : Host.Outcome State Fault Refusal := whenRunning s State.sendNotice

/-- The row FRAME_SENT. -/
def execFrameSent (s : State) : Host.Outcome State Fault Refusal := whenRunning s State.frameSent

/-- The row UNKNOWN_TYPE. -/
def execUnknownType (s : State) : Host.Outcome State Fault Refusal :=
  takeRequest (fun ty => !requestTypes.contains ty) handleUnknown s

/-- The row IDENTIFY. -/
def execIdentify (s : State) : Host.Outcome State Fault Refusal := takeRequest (· == 0x01#8) handleIdentify s

end Sys2Proof.Machine
end

