-- ==== Sys2Proof/Machine/Reads.lean ====
section
/-! DEFINITION. READ_GANTRY (R168) and READ_FAULTS (R173). -/

namespace Sys2Proof.Machine

/-- When a gantry's confirmation STATE is due (R168): the time left while it is held, queued once it has
joined CONFIRM; absent while that STATE is in flight, of which R168 says nothing (log 38). -/
def State.confirmDueOf (s : State) (g : Nat) : ConfirmDue :=
  match s.geo.gantries.look g with
  | none => .absent
  | some r =>
    match (s.line r.line).held.look g with
    | some ms => .remaining ms
    | none => if (s.line r.line).queues.confirm.any (fun e => e.gantry == g) then .queued else .absent

/-- What READ_GANTRY reports (R168). The host demand entries stand in ascending handle (log 39). -/
def State.gantryReport (s : State) (g : Nat) : GantryReport where
  nodeState := s.nodeState g
  target := s.plan.targets.look g
  rollout := s.rollout.look g
  due := s.confirmDueOf g
  demands := s.plan.demands.filter fun kv => kv.2.gantry == g

/-- READ_GANTRY (R168). -/
def handleReadGantry (s : State) (p : List Byte) : Answer :=
  if s.geo.mode = .setup then refuse s .wrongMode
  else
    match p with
    | [g] =>
      if g.toNat = 0 ∨ 32 < g.toNat then refuse s .badValue
      else if s.geo.gantries.has g.toNat = false then refuse s .notFound
      else ⟨s, .ok, .gantry (s.gantryReport g.toNat)⟩
    | _ => refuse s .badLength

/-- READ_FAULTS (R173): the bank as it stands, which is then cleared. -/
def handleReadFaults (s : State) (p : List Byte) : Answer :=
  match p with
  | [b] =>
    match bankOfCode b with
    | none => refuse s .badValue
    | some id => ⟨{ s with banks := s.banks.put id Bank.empty }, .ok, .bank id (s.banks.look id)⟩
  | _ => refuse s .badLength

/-- The row READ_GANTRY. -/
def execReadGantry (s : State) : Host.Outcome State Fault Refusal := takeRequest (· == 0x12#8) handleReadGantry s

/-- The row READ_FAULTS. -/
def execReadFaults (s : State) : Host.Outcome State Fault Refusal := takeRequest (· == 0x16#8) handleReadFaults s

end Sys2Proof.Machine
end

