-- ==== Sys2Proof/Machine/Setup.lean ====
section
/-! DEFINITION. Corridor geometry and operating modes (chapter 1): the geometry requests, SET_PARAMETERS, START,
STOP, RESET, power-on and RESET_N. -/

namespace Sys2Proof.Machine

/-! ### Geometry records (R2, R3) -/

/-- DEFINE_GANTRY (R2). -/
def handleDefineGantry (s : State) (p : List Byte) : Answer :=
  if s.geo.mode = .run then refuse s .wrongMode
  else
    match parseDefineGantry p with
    | .badLength => refuse s .badLength
    | .badValue => refuse s .badValue
    | .ok (.remove g) =>
      if s.geo.gantries.has g = false then refuse s .notFound
      else accept { s with geo := { s.geo with gantries := s.geo.gantries.del g } }
    | .ok (.define g r) => accept { s with geo := { s.geo with gantries := s.geo.gantries.put g r } }

/-- DEFINE_STATION (R3). -/
def handleDefineStation (s : State) (p : List Byte) : Answer :=
  if s.geo.mode = .run then refuse s .wrongMode
  else
    match parseDefineStation p with
    | .badLength => refuse s .badLength
    | .badValue => refuse s .badValue
    | .ok (.remove n) =>
      if s.geo.stations.has n = false then refuse s .notFound
      else accept { s with geo := { s.geo with stations := s.geo.stations.del n } }
    | .ok (.define n r) => accept { s with geo := { s.geo with stations := s.geo.stations.put n r } }

/-! ### Parameters (R8 to R11) -/

/-- The groups a mode takes (R7). -/
def Group.takenIn (g : Group) : Mode → Bool
  | .setup => true
  | .run => g != .measure && g != .line

/-- A group's values in force (R11). -/
def Params.store (p : Params) : GroupValue → Params
  | .measure v => { p with measure := v }
  | .congestion v => { p with congestion := v }
  | .queue v => { p with queue := v }
  | .wrongway v => { p with wrongway := v }
  | .plan v => { p with plan := v }
  | .line v => { p with line := v }

/-- The continuity relation (R6): the g for which g and g+1 are defined and no further apart than
`continuity`. -/
def deriveContin (gs : Table GantryRec) (continuity : Nat) : List Nat :=
  (gs.filter fun kv =>
    match gs.look (kv.1 + 1) with
    | none => false
    | some r => decide (r.chainage ≤ kv.2.chainage + continuity)).map (·.1)

/-- A PLAN group taken in RUN (R11, R162, R163): continuity derived again, every gate evaluated, timers past
the new gate_time expired (log 24), a pass triggered. -/
def State.planInRun (v : PlanParams) (s : State) : State :=
  let s1 := { s with geo := { s.geo with
                              params := { s.geo.params with plan := v }
                              contin := deriveContin s.geo.gantries v.continuity } }
  let gs := s1.rollout.keys
  State.trigger
    (if gs.any s1.gateDue then
      if Config.gateTimeFirst s1.draw.1 then evalGates gs s1.draw.2.expireDue
      else (evalGates gs s1.draw.2).expireDue
    else evalGates gs s1)

/-- A group that has passed takes effect (R11). -/
def State.storeGroup (v : GroupValue) (s : State) : State :=
  match s.geo.mode, v with
  | .setup, v => { s with geo := { s.geo with params := s.geo.params.store v } }
  | .run, .congestion c => { s with geo := { s.geo with waiting := { s.geo.waiting with congestion := some c } } }
  | .run, .queue q => { s with geo := { s.geo with waiting := { s.geo.waiting with queue := some q } } }
  | .run, .wrongway w => { s with geo := { s.geo with waiting := { s.geo.waiting with wrongway := some w } } }
  | .run, .plan p => s.planInRun p
  | .run, _ => s

/-- SET_PARAMETERS (R8). A payload without a group code is BAD_LENGTH (log 29). -/
def handleSetParameters (s : State) (p : List Byte) : Answer :=
  match p with
  | [] => refuse s .badLength
  | b :: fields =>
    match groupOfCode b with
    | none => refuse s .badValue
    | some g =>
      if g.takenIn s.geo.mode = false then refuse s .wrongMode
      else
        match splitFields g.widths fields with
        | none => refuse s .badLength
        | some raw =>
          match fitGroup g raw with
          | .badLength => refuse s .badLength
          | .badValue => refuse s .badValue
          | .ok (v, clamped) =>
            if v.crossOk = false then refuse s .badValue
            else if clamped = [] then ⟨s.storeGroup v, .ok, .none⟩
            else ⟨s.storeGroup v, .okClamped, .clamped clamped⟩

/-! ### START (R12, R13) -/

/-- The lowest number that is not defined while a higher one is (R12, checks 2 and 7). -/
def numberingGap {α : Type} (t : Table α) : Option Nat :=
  (List.range' 1 32).find? fun n => !t.has n && t.any fun kv => decide (n < kv.1)

/-- The first record whose chainage does not exceed that of the record before it (checks 3 and 8). -/
def orderBreach : List (Nat × Nat) → Option Nat
  | a :: b :: rest => if b.2 ≤ a.2 then some b.1 else orderBreach (b :: rest)
  | _ => none

/-- The lowest-numbered record that repeats something of a lower-numbered one (checks 4 and 10). -/
def repeated {α β : Type} [DecidableEq β] (f : α → β) : List β → List (Nat × α) → Option Nat
  | _, [] => none
  | seen, (n, r) :: rest => if seen.contains (f r) then some n else repeated f (f r :: seen) rest

/-- The first record that fails a test. -/
def firstFailing {α : Type} (ok : α → Bool) (t : Table α) : Option Nat := (t.find? fun kv => !ok kv.2).map (·.1)

/-- Position 0 is present exactly when a section is named (check 5). -/
def shoulderOk (r : GantryRec) : Bool := LaneSet.holds r.lanes 0 == (r.sec != 0)

/-- The gantries naming a section are a run of consecutive numbers (check 6). -/
def sectionRunOk (gs : Table GantryRec) (n : Nat) : Bool :=
  match (gs.filter fun kv => kv.2.sec == n).map (·.1) with
  | [] => true
  | g :: rest => (g :: rest).getLast?.getD g == g + rest.length

/-- Whether a station's host is defined (check 9). -/
def hostOk (gs : Table GantryRec) (r : StationRec) : Bool := gs.has r.host

/-- Whether a station's lanes are present at its host (check 12). -/
def lanesOk (gs : Table GantryRec) (r : StationRec) : Bool :=
  match gs.look r.host with
  | none => false
  | some g => LaneSet.within r.lanes g.lanes

/-- The checks of START in their order (R12), each with the number of the item that fails it. -/
def Geometry.startChecks (x : Geometry) : List (StartCheck × ItemKind × Option Nat) :=
  [(.noGantry, .corridor, if x.gantries = [] then some 0 else none),
   (.gantryNumbering, .gantry, numberingGap x.gantries),
   (.gantryOrder, .gantry, orderBreach (x.gantries.mapValues (·.chainage))),
   (.addressShared, .gantry, repeated (fun r : GantryRec => (r.line, r.address)) [] x.gantries),
   (.shoulderPosition, .gantry, firstFailing shoulderOk x.gantries),
   (.sectionRun, .sec, [1, 2, 3, 4].find? fun n => !sectionRunOk x.gantries n),
   (.stationNumbering, .station, numberingGap x.stations),
   (.stationOrder, .station, orderBreach (x.stations.mapValues (·.chainage))),
   (.hostMissing, .station, firstFailing (hostOk x.gantries) x.stations),
   (.nodeShared, .station, repeated (fun r : StationRec => r.host) [] x.stations),
   (.stationEmpty, .station, firstFailing (fun r : StationRec => r.lanes != 0) x.stations),
   (.laneNotPresent, .station, firstFailing (lanesOk x.gantries) x.stations)]

/-- The first check that fails. -/
def firstFailure : List (StartCheck × ItemKind × Option Nat) → Option (StartCheck × ItemKind × Nat)
  | [] => none
  | (c, k, some n) :: _ => some (c, k, n)
  | (_, _, none) :: rest => firstFailure rest

/-- A line controller at START (R13): queues empty, no timers but LUMEN; engine, telegram in flight and
level kept. -/
def LineCtl.started (l : LineCtl) : LineCtl :=
  { l with queues := ⟨[], [], [], [], [], []⟩, held := [], polls := [], lumenTimer := some 0 }

/-- The home gantries (R5). -/
def Geometry.deriveHome (x : Geometry) : Table Nat :=
  x.stations.filterMap fun kv => (atOrUpstream x.gantries kv.2.chainage).map fun g => (kv.1, g)

/-- The runtime blocks at START (R13), before the nodes move on to DESCRIBING. -/
def State.begun (s : State) : State :=
  { s with
    geo := { s.geo with mode := .run, home := s.geo.deriveHome,
                        contin := deriveContin s.geo.gantries s.geo.params.plan.continuity,
                        waiting := ⟨none, none, none⟩ }
    lineA := s.lineA.started
    lineB := s.lineB.started
    nodes := s.geo.gantries.mapValues (freshNode s.clock)
    measure := ⟨some 0, s.geo.stations.mapValues freshEntry⟩
    traffic := s.geo.stations.mapValues fun _ => freshStation s.geo.params.measure.freeSpeed
    incidents := []
    sections := Shoulder.allClosed
    plan := ⟨[], s.geo.gantries.mapValues blankTarget, none, false⟩
    rollout := s.geo.gantries.mapValues fun r => freshRollout r.signCount }

/-- A START that passes its checks (R13): every node moves on to DESCRIBING and a pass is triggered. -/
def State.startRun (s : State) : State := (describeAll s.geo.gantries.keys s.begun).trigger

/-- START (R12). -/
def handleStart (s : State) (p : List Byte) : Answer :=
  if s.geo.mode = .run then refuse s .wrongMode
  else
    match p with
    | _ :: _ => refuse s .badLength
    | [] =>
      match firstFailure s.geo.startChecks with
      | some x => ⟨s, .badConfig, .badConfig x.2.1 x.2.2 x.1⟩
      | none => accept s.startRun

/-! ### STOP (R14) -/

/-- Every runtime block at STOP (R14). -/
def State.stopRun (s : State) : State :=
  let s1 := s.applyWaiting
  { s1 with
    geo := { s1.geo with mode := .setup, gantries := s1.geo.gantries.mapValues fun r => { r with service := .inService },
                         home := [], contin := [] }
    lineA := s.lineA.stopped
    lineB := s.lineB.stopped
    nodes := []
    measure := ⟨none, []⟩
    traffic := []
    incidents := []
    sections := Shoulder.allClosed
    plan := ⟨[], [], none, false⟩
    rollout := [] }

/-- STOP. -/
def handleStop (s : State) (p : List Byte) : Answer :=
  if s.geo.mode = .setup then refuse s .wrongMode
  else
    match p with
    | _ :: _ => refuse s .badLength
    | [] => accept s.stopRun

/-! ### RESET, power-on and RESET_N (R15, R16) -/

/-- RESET (R16): the reply goes out first; no request is taken any more. -/
def handleReset (s : State) (p : List Byte) : Answer :=
  match p with
  | _ :: _ => refuse s .badLength
  | [] => accept { s with link := { s.link with resetting := true } }

/-- The rate code of the straps (R18). -/
def strapRate (rate1 rate0 : Bool) : BitVec 2 := BitVec.ofBool rate1 ++ BitVec.ofBool rate0

/-- The state of R15 with this rate code and this level on RESET_N; the model's own fields are kept. -/
def State.resetWith (rate : BitVec 2) (high : Bool) (s : State) : State :=
  { State.reset with
    pending := s.pending
    freeCount := s.freeCount
    resetHigh := high
    link := { State.reset.link with rate := rate } }

/-- RESET_N takes a level (R15): held low it forces the state of R15, and its release does so again and
samples the straps (log 8). A high level without a release changes nothing. -/
def State.resetPin (high rate1 rate0 : Bool) (s : State) : State :=
  if high then (if s.resetHigh then s else s.resetWith (strapRate rate1 rate0) true)
  else s.resetWith s.link.rate false

/-! ### The rows -/

/-- The row POWER_ON. -/
def execPowerOn (rate1 rate0 : Bool) (s : State) : Host.Outcome State Fault Refusal :=
  .next (s.resetWith (strapRate rate1 rate0) s.resetHigh)

/-- The row RESET_N. -/
def execResetN (high rate1 rate0 : Bool) (s : State) : Host.Outcome State Fault Refusal :=
  .next (s.resetPin high rate1 rate0)

/-- The row RESET_REPLY_SENT. -/
def execResetReplySent (rate1 rate0 : Bool) (s : State) : Host.Outcome State Fault Refusal :=
  whenRunning s fun s => if s.link.sendsReset then s.resetWith (strapRate rate1 rate0) true else s

/-- The row DEFINE_GANTRY. -/
def execDefineGantry (s : State) : Host.Outcome State Fault Refusal := takeRequest (· == 0x02#8) handleDefineGantry s

/-- The row DEFINE_STATION. -/
def execDefineStation (s : State) : Host.Outcome State Fault Refusal := takeRequest (· == 0x03#8) handleDefineStation s

/-- The row SET_PARAMETERS. -/
def execSetParameters (s : State) : Host.Outcome State Fault Refusal := takeRequest (· == 0x04#8) handleSetParameters s

/-- The row START. -/
def execStart (s : State) : Host.Outcome State Fault Refusal := takeRequest (· == 0x05#8) handleStart s

/-- The row STOP. -/
def execStop (s : State) : Host.Outcome State Fault Refusal := takeRequest (· == 0x06#8) handleStop s

/-- The row RESET. -/
def execReset (s : State) : Host.Outcome State Fault Refusal := takeRequest (· == 0x07#8) handleReset s

end Sys2Proof.Machine
end

