-- ==== Sys2Proof/Machine/Dispatch.lean ====
section
/-! DEFINITION. One arm for each command: the meaning it calls. -/

namespace Sys2Proof.Machine

/-- The effect of a command on everything but the queue of waiting commands. -/
def exec (i : Instr) (s : State) : Host.Outcome State Fault Refusal :=
  match i with
  | .powerOn rate1 rate0 => Sys2Proof.Machine.execPowerOn rate1 rate0 s
  | .resetN high rate1 rate0 => Sys2Proof.Machine.execResetN high rate1 rate0 s
  | .supRxCharacter c => Sys2Proof.Machine.execSupRxCharacter c s
  | .frameTimeout gapBits => Sys2Proof.Machine.execFrameTimeout gapBits s
  | .sendReply => Sys2Proof.Machine.execSendReply s
  | .sendNotice => Sys2Proof.Machine.execSendNotice s
  | .resetReplySent rate1 rate0 => Sys2Proof.Machine.execResetReplySent rate1 rate0 s
  | .unknownType => Sys2Proof.Machine.execUnknownType s
  | .identify => Sys2Proof.Machine.execIdentify s
  | .defineGantry => Sys2Proof.Machine.execDefineGantry s
  | .defineStation => Sys2Proof.Machine.execDefineStation s
  | .setParameters => Sys2Proof.Machine.execSetParameters s
  | .start => Sys2Proof.Machine.execStart s
  | .stop => Sys2Proof.Machine.execStop s
  | .reset => Sys2Proof.Machine.execReset s
  | .raiseIncident => Sys2Proof.Machine.execRaiseIncident s
  | .amendIncident => Sys2Proof.Machine.execAmendIncident s
  | .clearIncident => Sys2Proof.Machine.execClearIncident s
  | .confirmIncident => Sys2Proof.Machine.execConfirmIncident s
  | .placeDemand => Sys2Proof.Machine.execPlaceDemand s
  | .withdrawDemand => Sys2Proof.Machine.execWithdrawDemand s
  | .shoulder => Sys2Proof.Machine.execShoulder s
  | .gantryService => Sys2Proof.Machine.execGantryService s
  | .stationReset => Sys2Proof.Machine.execStationReset s
  | .luminance => Sys2Proof.Machine.execLuminance s
  | .readGantry => Sys2Proof.Machine.execReadGantry s
  | .readStation => Sys2Proof.Machine.execReadStation s
  | .readIncidents => Sys2Proof.Machine.execReadIncidents s
  | .readNode => Sys2Proof.Machine.execReadNode s
  | .readFaults => Sys2Proof.Machine.execReadFaults s
  | .telegramStart line => Sys2Proof.Machine.execTelegramStart line s
  | .showAccepted line t => Sys2Proof.Machine.execShowAccepted line t s
  | .stateReply line t => Sys2Proof.Machine.execStateReply line t s
  | .traceReply line t => Sys2Proof.Machine.execTraceReply line t s
  | .describeReply line t => Sys2Proof.Machine.execDescribeReply line t s
  | .capsReply line t => Sys2Proof.Machine.execCapsReply line t s
  | .sent line => Sys2Proof.Machine.execSent line s
  | .noNode line t => Sys2Proof.Machine.execNoNode line t s
  | .nackLimit line t => Sys2Proof.Machine.execNackLimit line t s
  | .corrupt line t => Sys2Proof.Machine.execCorrupt line t s
  | .replyTimeout line t => Sys2Proof.Machine.execReplyTimeout line t s
  | .replyBroken line t => Sys2Proof.Machine.execReplyBroken line t s
  | .lineQuietEnd line undriven => Sys2Proof.Machine.execLineQuietEnd line undriven s
  | .tracePollDue gantry => Sys2Proof.Machine.execTracePollDue gantry s
  | .routineStateDue gantry => Sys2Proof.Machine.execRoutineStateDue gantry s
  | .confirmDue gantry => Sys2Proof.Machine.execConfirmDue gantry s
  | .lumenRepeat line => Sys2Proof.Machine.execLumenRepeat line s
  | .offlineRetry gantry => Sys2Proof.Machine.execOfflineRetry gantry s
  | .intervalClose => Sys2Proof.Machine.execIntervalClose s
  | .incidentExpiry handle => Sys2Proof.Machine.execIncidentExpiry handle s
  | .passComplete => Sys2Proof.Machine.execPassComplete s
  | .gateExpired gantry => Sys2Proof.Machine.execGateExpired gantry s
  | .frameSent => Sys2Proof.Machine.execFrameSent s

end Sys2Proof.Machine
end

