-- ==== Sys2Proof/Safety.lean ====
section
/-! DEFINITION. What counts as a good state and a good run, in the terms the statements use: when a request
can be taken, what an answer alone changes, the stored form every step keeps, and the empty runtime state of
SETUP. -/

namespace Sys2Proof.Machine

/-! ### Requests -/

/-- The request frame `f` of TYPE `ty` stands at the head of the receive queue and can be taken (R25). -/
abbrev State.takes (s : State) (ty : Byte) (f : Frame) (rest : List Frame) : Prop :=
  s.resetHigh = true ∧ s.link.resetting = false ∧ s.link.replySlot = none ∧ s.link.rxQueue = f :: rest ∧ f.typ = ty

/-- The state after a request that changes nothing but the link unit's own state (R25, R26): the frame has
left the queue and the reply (R27) stands in the reply slot. -/
def State.answered (s : State) (f : Frame) (rest : List Frame) (r : Result) (d : Detail) : State :=
  { s with link := { s.link with rxQueue := rest, replySlot := some ⟨f.typ ||| 0x80#8, f.tag, r, d⟩ } }

/-- The request rows with their TYPE values (section 11.1). -/
def requestRows : List (Instr × Byte) :=
  [(.identify, 0x01#8), (.defineGantry, 0x02#8), (.defineStation, 0x03#8), (.setParameters, 0x04#8),
   (.start, 0x05#8), (.stop, 0x06#8), (.reset, 0x07#8), (.raiseIncident, 0x08#8), (.amendIncident, 0x09#8),
   (.clearIncident, 0x0A#8), (.confirmIncident, 0x0B#8), (.placeDemand, 0x0C#8), (.withdrawDemand, 0x0D#8),
   (.shoulder, 0x0E#8), (.gantryService, 0x0F#8), (.stationReset, 0x10#8), (.luminance, 0x11#8),
   (.readGantry, 0x12#8), (.readStation, 0x13#8), (.readIncidents, 0x14#8), (.readNode, 0x15#8),
   (.readFaults, 0x16#8)]

/-- The requests R7 takes in RUN alone: incident, demand, shoulder, service, station-reset, luminance and
runtime read requests, and STOP. -/
def runOnlyRows : List (Instr × Byte) :=
  [(.stop, 0x06#8), (.raiseIncident, 0x08#8), (.amendIncident, 0x09#8), (.clearIncident, 0x0A#8),
   (.confirmIncident, 0x0B#8), (.placeDemand, 0x0C#8), (.withdrawDemand, 0x0D#8), (.shoulder, 0x0E#8),
   (.gantryService, 0x0F#8), (.stationReset, 0x10#8), (.luminance, 0x11#8), (.readGantry, 0x12#8),
   (.readStation, 0x13#8), (.readIncidents, 0x14#8), (.readNode, 0x15#8)]

/-- The requests R7 takes in SETUP alone. -/
def setupOnlyRows : List (Instr × Byte) := [(.defineGantry, 0x02#8), (.defineStation, 0x03#8), (.start, 0x05#8)]

/-! ### Rows with an effect of their own kind -/

/-- The three rows that lead to the state of R15. -/
def isReset : Instr → Bool
  | .powerOn _ _ => true
  | .resetN _ _ _ => true
  | .resetReplySent _ _ => true
  | _ => false

/-- The row of each failure outcome (R43). -/
def Failure.row (l : Line) (t : Transcript) : Failure → Instr
  | .noNode => .noNode l t
  | .nackLimit => .nackLimit l t
  | .corrupt => .corrupt l t
  | .replyTimeout => .replyTimeout l t
  | .replyBroken => .replyBroken l t

/-- Run commands one after another, stopping at the first that gives no next state. -/
def execAll : List Instr → State → Host.Outcome State Fault Refusal
  | [], s => .next s
  | c :: cs, s =>
    match exec c s with
    | .next t => execAll cs t
    | .fault r => .fault r
    | .refused r => .refused r

/-- A byte as it arrives without error on SUP_RX: even parity, stop bit high (R18). -/
def cleanChar (b : Byte) : SupChar := ⟨b, oddOnes b, true⟩

/-- These characters bring these bytes without error and without a gap past its limit (R33, R39, R40). -/
def arrives (bytes : List Byte) (cs : List LineChar) : Prop :=
  cs.map (·.data) = bytes ∧ ∀ c ∈ cs, LineChar.intact c = true ∧ c.gap ≤ gapLimit

/-- Every acknowledge slot of a request of this many bytes is an ACK (R33). -/
def allAcked (n : Nat) (sl : List Slot) : Prop := sl.length = n ∧ ∀ x ∈ sl, slotAnswer x = .ack

/-- The bytes sent so far are ACKed, each within its number of sendings (R37, R38): the slots are those of the sendings
that were not ACKed and of the one that was, byte after byte. -/
def ackedWithin : List Nat → List Slot → Prop
  | [], sl => sl = []
  | n :: ns, sl => ∃ (bad : List Slot) (x : Slot) (rest : List Slot), sl = bad ++ x :: rest ∧ bad.length < n ∧
      (∀ y ∈ bad, slotAnswer y ≠ .ack) ∧ slotAnswer x = .ack ∧ ackedWithin ns rest

/-- These characters bring these bytes (R40): each intact once, behind at most three faulty sendings of it. -/
def brings : List Byte → List LineChar → Prop
  | [], cs => cs = []
  | b :: bs, cs => ∃ (bad : List LineChar) (c : LineChar) (rest : List LineChar), cs = bad ++ c :: rest ∧
      bad.length ≤ 3 ∧ (∀ y ∈ bad, LineChar.intact y = false) ∧ LineChar.intact c = true ∧ c.data = b ∧ brings bs rest

/-- Every character starts in time: the first of the reply within 20 ms (R39), each later one within 3 ms of the one
before it (R40). -/
def inTime : Bool → List LineChar → Prop
  | _, [] => True
  | first, c :: cs => c.gap ≤ (if first then 20000 else 3000) ∧ inTime false cs

/-! ### What a statement asks of one part of the machine -/

/-- How the reply names what was rounded or clamped (R9, R27): OK alone where every value is stored as it was sent, else
OK_CLAMPED with the places, rising, at which a stored value differs (the form of the list is log 15). -/
def clampAnswer (sent stored : List Nat) (r : Result) (d : Detail) : Prop :=
  sent = stored ∧ r = .ok ∧ d = .none ∨
    sent ≠ stored ∧ r = .okClamped ∧ ∃ places : List Nat, d = .clamped places ∧ places.Pairwise (· < ·) ∧
      ∀ i, i ∈ places ↔ sent[i]? ≠ stored[i]?

/-- SET_PARAMETERS of a group whose values are as sent before, and as stored after, R9: if they pass the checks of R10 the
tables take them by `put`, else the reply is BAD_VALUE and nothing changes. -/
def State.groupTaken (s : State) (f : Frame) (rest : List Frame) (sent stored : List Nat) (ok : Prop)
    (put : Geometry → Geometry) : Prop :=
  (ok → ∃ r d, clampAnswer sent stored r d ∧
    exec .setParameters s = .next { s.answered f rest r d with geo := put s.geo }) ∧
  (¬ok → exec .setParameters s = .next (s.answered f rest .badValue .none))

/-- The item kind a failed check names (R12). -/
def StartCheck.item : StartCheck → ItemKind
  | .noGantry => .corridor
  | .gantryNumbering => .gantry
  | .gantryOrder => .gantry
  | .addressShared => .gantry
  | .shoulderPosition => .gantry
  | .sectionRun => .sec
  | .stationNumbering => .station
  | .stationOrder => .station
  | .hostMissing => .station
  | .nodeShared => .station
  | .stationEmpty => .station
  | .laneNotPresent => .station

/-- When a check of START fails for the item n (the table of R12). -/
def Geometry.checkFails (x : Geometry) (n : Nat) : StartCheck → Prop
  | .noGantry => x.gantries = [] ∧ n = 0
  | .gantryNumbering => 1 ≤ n ∧ x.gantries.look n = none ∧ ∃ m, n < m ∧ x.gantries.look m ≠ none
  | .gantryOrder => ∃ r q, x.gantries.look n = some r ∧ x.gantries.look (n - 1) = some q ∧ n ≠ 0 ∧ r.chainage ≤ q.chainage
  | .addressShared => ∃ m r q, m < n ∧ x.gantries.look n = some r ∧ x.gantries.look m = some q ∧ r.line = q.line ∧
      r.address = q.address
  | .shoulderPosition => ∃ r, x.gantries.look n = some r ∧ (r.lanes.getLsbD 0 = true ↔ r.sec = 0)
  | .sectionRun => 1 ≤ n ∧ n ≤ 4 ∧ ∃ a b c r q, a < b ∧ b < c ∧ x.gantries.look a = some r ∧ r.sec = n ∧
      x.gantries.look c = some q ∧ q.sec = n ∧ ∀ y, x.gantries.look b = some y → y.sec ≠ n
  | .stationNumbering => 1 ≤ n ∧ x.stations.look n = none ∧ ∃ m, n < m ∧ x.stations.look m ≠ none
  | .stationOrder => ∃ r q, x.stations.look n = some r ∧ x.stations.look (n - 1) = some q ∧ n ≠ 0 ∧ r.chainage ≤ q.chainage
  | .hostMissing => ∃ r, x.stations.look n = some r ∧ x.gantries.look r.host = none
  | .nodeShared => ∃ m r q, m < n ∧ x.stations.look n = some r ∧ x.stations.look m = some q ∧ r.host = q.host
  | .stationEmpty => ∃ r, x.stations.look n = some r ∧ r.lanes = 0
  | .laneNotPresent => ∃ r q p, x.stations.look n = some r ∧ x.gantries.look r.host = some q ∧ p < 6 ∧
      r.lanes.getLsbD p = true ∧ q.lanes.getLsbD p = false

/-- The error mark after a character (R23): the first faulty character sets it; which mark one with both errors sets is
free (log 9). -/
def marksFirst (old : Option CharError) (c : SupChar) (new : Option CharError) : Prop :=
  (∀ m, old = some m → new = some m) ∧
  (old = none → SupChar.parityError c = false → SupChar.framingError c = false → new = none) ∧
  (old = none → SupChar.parityError c = true → SupChar.framingError c = false → new = some .parity) ∧
  (old = none → SupChar.parityError c = false → SupChar.framingError c = true → new = some .framing) ∧
  (old = none → SupChar.parityError c = true → SupChar.framingError c = true → new ≠ none)

/-- The state in which a character is judged: one with both errors draws a free value (log 9). -/
def State.drawn (s : State) (c : SupChar) : State :=
  if SupChar.parityError c = true ∧ SupChar.framingError c = true then { s with freeCount := s.freeCount + 1 } else s

/-- The records of one lane applied to its record in reply order (R75), with what they make known beyond the lane. -/
def takeRecords (p : MeasureParams) (r : StationRec) (nodeCond : Bool) : LaneRec → List EdgeRec → LaneRec × List LaneEvent
  | l, [] => (l, [])
  | l, e :: es =>
    let x := takeRecord p r nodeCond l e
    let y := takeRecords p r nodeCond x.1 es
    (y.1, x.2 ++ y.2)

/-- How a mark of AMEND_INCIDENT is sent (R117; keep 0, set 1 before its value, remove 2: log 13), for a field of one byte
or, where `wide`, of two, high byte first. -/
def Mark.sent (wide : Bool) : Mark → List Byte
  | .keep => [0#8]
  | .set v => 1#8 :: (if wide then [BitVec.ofNat 8 (v / 256), BitVec.ofNat 8 v] else [BitVec.ofNat 8 v])
  | .remove => [2#8]

/-! ### What a gate asks, in the words of the rules (R71, R161) -/

/-- CLOSED or a DIVERT. -/
def Aspect.closes (a : Aspect) : Prop := a = .closed ∨ ∃ d, a = .divert d

/-- R71: gantry m exists, has lane position p, and the lane signal there is serviceable: its node ONLINE, its health OK or
DEGRADED, not confirm-failed. -/
def State.laneTested (s : State) (m p : Nat) : Prop :=
  ∃ n x, s.nodes.look m = some n ∧ entryAt (s.kinds m) n.signs p = some x ∧ n.state = .online ∧
    (x.health = some .ok ∨ x.health = some .degraded) ∧ x.confirmFailed = false

/-- The confirmed entry of gantry m in lane position p is known and is this aspect. -/
def State.laneConfirms (s : State) (m p : Nat) (a : Aspect) : Prop :=
  ∃ r, s.rollout.look m = some r ∧ entryAt (s.kinds m) r.confirmed p = some (some a)

/-- R161: one of the two conditions holds for a SHOW with these contents at gantry g, over this commanded record. Adding:
CLOSED where none is commanded, and the tested neighbour g−1 confirms neither CLOSED nor a DIVERT. Removing: a commanded
CLOSED or DIVERT goes, and the tested neighbour g+1 confirms CLOSED. -/
def State.gateAsks (s : State) (g : Nat) (contents : List Aspect) (commanded : List (Option Aspect)) : Prop :=
  ∃ p a, p < 6 ∧ entryAt (s.kinds g) contents p = some a ∧
    ((a = .closed ∧ entryAt (s.kinds g) commanded p ≠ some (some .closed) ∧ g - 1 ∈ s.geo.contin ∧
        s.laneTested (g - 1) p ∧ ¬∃ b, s.laneConfirms (g - 1) p b ∧ b.closes) ∨
      (¬a.closes ∧ (∃ b, entryAt (s.kinds g) commanded p = some (some b) ∧ b.closes) ∧ g ∈ s.geo.contin ∧
        s.laneTested (g + 1) p ∧ s.laneConfirms (g + 1) p .closed))

/-- The gate of a pending SHOW stands as R161 says it does now: HELD exactly while it has not expired and one of the two
conditions holds; a HELD gate has a timer (R163). -/
def State.gateStands (s : State) (g : Nat) : Prop :=
  ∀ r q, s.rollout.look g = some r → r.pending = some q →
    (r.gateHeld = true ↔ r.gateExpired = false ∧ s.gateAsks g q.body.contents r.commanded) ∧
    (r.gateHeld = true → r.gateTimer ≠ none)

/-! ### What an interval close hands over, in the words of the rules (R87, R89, R94) -/

/-- R89: the lane at position p becomes SILENT at this close: it is not FAULTY nor shoulder excluded, its loop A is low
with at least silent_marks held, and the station's other included lanes carry at least silent_flow. -/
def StationEntry.silentNow (m : MeasureParams) (en : StationEntry) (p : Nat) (l : LaneRec) : Bool :=
  let others : List Nat := (en.lanes.filter fun kv => kv.1 != p && !kv.2.excluded && !kv.2.shoulderExcluded).map
    fun kv => kv.2.acc.count
  !(l.loopA.stuck || l.loopB.stuck || l.silent || en.nodeCond) && !l.shoulderExcluded && !l.loopA.high &&
    decide (m.silentMarks ≤ l.loopA.held) && decide (m.silentFlow ≤ others.sum * 3600000 / (m.interval * 1000))

/-- R94: the results of a station's lanes, in ascending position: counts, mean speed and occupancy in thousandths from
the accumulators; FAULTY for a lane excluded in the interval or silent now, else SUSPECT or VALID (R87). -/
def StationEntry.results (m : MeasureParams) (en : StationEntry) : List LaneResult :=
  en.lanes.map fun kv =>
    let a := kv.2.acc
    let now := en.silentNow m kv.1 kv.2
    let out := kv.2.excluded || now
    { report :=
        { lane := kv.1, count := a.count,
          meanSpeed := if a.count = 0 then none else some ((a.sumV + a.count / 2) / a.count),
          occupancy := min 1000 (a.occupied * 1000 / (m.interval * 1000)),
          class1 := a.class1, class2 := a.class2, class3 := a.class3, reverse := a.reverse, unpaired := a.unpaired,
          rejected := a.rejected, edgeErrors := a.edgeErrors,
          status := if out then .faulty else if kv.2.suspect then .suspect else .valid,
          reasons := ⟨kv.2.seen.stuckOn, kv.2.seen.silent || now, kv.2.seen.node⟩,
          included := !out && !kv.2.shoulderExcluded, shoulderExcluded := kv.2.shoulderExcluded }
      sumV := a.sumV
      occupied := a.occupied }

/-! ### What a pass is asked for, in the words of the rules (R105, R107, R123 to R128, R138 to R145) -/

/-- R123: gantry g covers the extent of a record: it is the one at or upstream of start (of two at one chainage the higher
number), or it stands between start and end. -/
def Incident.covers (gs : Table GantryRec) (r : Incident) (g : Nat) : Prop :=
  ∃ q, gs.look g = some q ∧
    (q.chainage ≤ r.start ∧
        (∀ g' q', gs.look g' = some q' → q'.chainage ≤ r.start →
          q'.chainage < q.chainage ∨ q'.chainage = q.chainage ∧ g' ≤ g) ∨
      r.start < q.chainage ∧ q.chainage < r.stop)

/-- R123: g is the first covering gantry, the lowest in number. -/
def Incident.coversFirst (gs : Table GantryRec) (r : Incident) (g : Nat) : Prop :=
  r.covers gs g ∧ ∀ g', r.covers gs g' → g ≤ g'

/-- R124, R125: a record closes position p at gantry g. -/
def Incident.closes (gs : Table GantryRec) (r : Incident) (g p : Nat) : Prop :=
  r.covers gs g ∧
    (r.kind = .carriagewayClosure ∨ r.kind = .laneClosure ∧ ∃ ls, r.lanes = some ls ∧ ls.getLsbD p = true)

/-- R127: a WRONG_WAY record warns a gantry that stands from start − reach to end. -/
def Incident.warns (w : WrongwayParams) (r : Incident) (chainage : Nat) : Prop :=
  r.kind = .wrongWay ∧ r.start - w.reach ≤ chainage ∧ chainage ≤ r.stop

/-- R124 to R127: a record demands speed v at gantry g. -/
def Snapshot.incidentSpeed (n : Snapshot) (r : Incident) (g : Nat) (q : GantryRec) (v : Nat) : Prop :=
  let here := r.covers n.gantries g
  let upstream (k : Nat) := r.coversFirst n.gantries (g + k)
  ((r.kind = .laneClosure ∧ here ∨ r.kind = .carriagewayClosure ∧ (upstream 1 ∨ upstream 2) ∨
      r.kind = .hazard ∧ (here ∨ upstream 1)) ∧ v = r.cap.getD n.plan.closureSpeed) ∨
    r.warns n.wrongway q.chainage ∧ v = r.cap.getD n.wrongway.speed

/-- R124 to R127: a record demands legend m at gantry g. -/
def Snapshot.incidentLegend (n : Snapshot) (r : Incident) (g : Nat) (q : GantryRec) (m : Nat) : Prop :=
  let here := r.covers n.gantries g
  let upstream (k : Nat) := r.coversFirst n.gantries (g + k)
  r.kind = .laneClosure ∧ (here ∨ upstream 1) ∧ m = r.legend.getD 3 ∨
    r.kind = .carriagewayClosure ∧ (here ∨ upstream 1 ∨ upstream 2) ∧ m = r.legend.getD 2 ∨
    r.kind = .hazard ∧ (here ∨ upstream 1) ∧ m = r.legend.getD 4 ∨
    r.warns n.wrongway q.chainage ∧ m = r.legend.getD 1

/-- The reach entries by their number (section 1.6). -/
def QueueParams.entry (q : QueueParams) : Nat → Nat
  | 0 => q.reach0
  | 1 => q.reach1
  | 2 => q.reach2
  | _ => 0

/-- R107: a station with home gantry h and its queue ON reaches gantry g with the present entry j. -/
def QueueParams.reaches (q : QueueParams) (h g j : Nat) : Prop := 1 ≤ g ∧ h = g + j ∧ ∀ i, i ≤ j → q.entry i ≠ 0

/-- R105, R107: a station demands speed v at gantry g. -/
def Snapshot.stationSpeed (n : Snapshot) (st : Nat) (x : StationView) (g v : Nat) : Prop :=
  ∃ h, n.home.look st = some h ∧
    ((h = g ∧ ∃ l, n.congestion.level x.level = some l ∧ v = l.speed) ∨
      x.queueOn = true ∧ ∃ j, n.queue.reaches h g j ∧ v = n.queue.entry j)

/-- R105, R107: a station demands legend m at gantry g. -/
def Snapshot.stationLegend (n : Snapshot) (st : Nat) (x : StationView) (g m : Nat) : Prop :=
  ∃ h, n.home.look st = some h ∧
    ((h = g ∧ (x.level = .l2 ∨ x.level = .l3) ∧ m = 6) ∨ x.queueOn = true ∧ (∃ j, n.queue.reaches h g j) ∧ m = 5)

/-- R139: g reads gantry g+1, its record and its finished target, when g+1 exists and the two are continuous. -/
def Snapshot.below (n : Snapshot) (g : Nat) (r : GantryRec) (t : Target) : Prop :=
  g ∈ n.contin ∧ n.gantries.look (g + 1) = some r ∧ n.targets.look (g + 1) = some t

/-- A target shows an aspect in lane position p. -/
def Target.shows (r : GantryRec) (t : Target) (p : Nat) (a : Aspect) : Prop :=
  ∃ (i : Nat) (x : SignTarget), r.kinds[i]? = some (.lane p) ∧ t.signs[i]? = some x ∧ x.shown = a

/-- R149: a target hands its wanted aspect of position p on: unserved there, and not lost. -/
def Target.handsOn (r : GantryRec) (t : Target) (p : Nat) (a : Aspect) : Prop :=
  ∃ (i : Nat) (x : SignTarget), r.kinds[i]? = some (.lane p) ∧ t.signs[i]? = some x ∧ x.unserved = true ∧ x.lost = false ∧
    x.wanted = a

/-- R140: a cell demand is gathered on position p of gantry g: an incident, a CLOSED section, a host entry, a carry. -/
def Snapshot.asksCell (n : Snapshot) (g : Nat) (q : GantryRec) (p : Nat) (a : Cell) : Prop :=
  a = .closed ∧ (∃ h r, (h, r) ∈ n.incidents ∧ r.closes n.gantries g p) ∨
    a = .closed ∧ p = 0 ∧ q.sec ≠ 0 ∧ n.sections.look q.sec ≠ some .opened ∨
    (∃ h ls, (h, ⟨g, .cell ls a⟩) ∈ n.demands ∧ ls.getLsbD p = true) ∨
    ∃ r t, n.below g r t ∧ t.handsOn r p a.toAspect

/-- R141: the lead-in is called for at position p of gantry g: g+1 shows CLOSED in p, g has p, and no CLOSED demand was
gathered on it. -/
def Snapshot.leadsIn (n : Snapshot) (g : Nat) (q : GantryRec) (p : Nat) : Prop :=
  q.lanes.getLsbD p = true ∧ ¬n.asksCell g q p .closed ∧ ∃ r t, n.below g r t ∧ t.shows r p .closed

/-- R141: position p of g+1 shows SPEED or BLANK. -/
def Snapshot.opensBelow (n : Snapshot) (g p : Nat) : Prop :=
  ∃ r t, n.below g r t ∧ (t.shows r p .blank ∨ ∃ v, t.shows r p (.speed v))

/-- R141: the arrow points from p to the nearest such position; divert_pref settles two equally near. -/
def Snapshot.leadsTo (n : Snapshot) (g p : Nat) (d : Side) : Prop :=
  let far (q : Nat) : Nat := (p - q) + (q - p)
  ∃ q, n.opensBelow g q ∧ (∀ q', n.opensBelow g q' → far q ≤ far q') ∧ (q < p ∧ d = .near ∨ p < q ∧ d = .off) ∧
    ((∃ q', n.opensBelow g q' ∧ q' ≠ q ∧ far q' = far q) → d = n.plan.divertPref)

/-- R141: the lead-in is called for at g, and no position of g+1 shows SPEED or BLANK. -/
def Snapshot.leadsNowhere (n : Snapshot) (g : Nat) (q : GantryRec) : Prop :=
  (∃ p, n.leadsIn g q p) ∧ ∀ p, ¬n.opensBelow g p

/-- R142: the wanted cell aspect of position p: CLOSED before a DIVERT, and divert_pref where the two DIVERTs meet. -/
def Snapshot.wantsCell (n : Snapshot) (g : Nat) (q : GantryRec) (p : Nat) : Cell → Prop
  | .closed => n.asksCell g q p .closed
  | .divert d =>
    let diverts (e : Side) : Prop := n.asksCell g q p (.divert e) ∨ n.leadsIn g q p ∧ n.leadsTo g p e
    ¬n.asksCell g q p .closed ∧ diverts d ∧ ∀ e, e ≠ d → diverts e → d = n.plan.divertPref

/-- R143: a speed of the table is present at gantry g. -/
def Snapshot.asksSpeed (n : Snapshot) (g : Nat) (q : GantryRec) (v : Nat) : Prop :=
  (∃ h r, (h, r) ∈ n.incidents ∧ n.incidentSpeed r g q v) ∨
    (q.sec ≠ 0 ∧ n.sections.look q.sec = some .opened ∧ v = n.plan.shoulderSpeed) ∨
    (∃ st x, (st, x) ∈ n.stations ∧ n.stationSpeed st x g v) ∨
    (∃ h, (h, ⟨g, .speed v⟩) ∈ n.demands) ∨
    (∃ r t p, n.below g r t ∧ t.handsOn r p (.speed v)) ∨
    (n.leadsNowhere g q ∧ v = n.plan.closureSpeed) ∨
    (∃ r t w, n.below g r t ∧ (∃ p, t.shows r p (.speed w)) ∧ (∀ p u, t.shows r p (.speed u) → w ≤ u) ∧
      v = w + n.plan.step) ∨
    ((∃ p a, q.lanes.getLsbD p = true ∧ n.wantsCell g q p a) ∧ v = n.plan.closureSpeed)

/-- R145: a legend demand reaches gantry g. -/
def Snapshot.asksLegend (n : Snapshot) (g : Nat) (q : GantryRec) (m : Nat) : Prop :=
  (∃ h r, (h, r) ∈ n.incidents ∧ n.incidentLegend r g q m) ∨
    (q.sec ≠ 0 ∧ n.sections.look q.sec = some .opened ∧ m = 7) ∨
    (∃ st x, (st, x) ∈ n.stations ∧ n.stationLegend st x g m) ∨
    (∃ h, (h, ⟨g, .legend m⟩) ∈ n.demands) ∨
    (n.leadsNowhere g q ∧ m = 2)

/-! ### The stored form -/

/-- A bank marks an overflow only while it holds an error (R169). -/
def Bank.wf (b : Bank) : Prop := b.overflow = true → b.held ≠ none

/-- A line has a telegram in flight exactly while its engine is SENDING; AWAITING and RECEIVING are passed
through inside one row (R36, log 6). -/
def LineCtl.wf (c : LineCtl) : Prop :=
  (c.engine = .sending ∧ c.flight ≠ none) ∨ ((c.engine = .free ∨ c.engine = .quiet) ∧ c.flight = none)

/-- A slot table: numbers strictly rising, all below the number of slots (R115, R131). -/
def Table.slotted {α : Type} (cap : Nat) (t : Table α) : Prop := t.rising = true ∧ ∀ n ∈ t.keys, n < cap

/-- Every table that is keyed by gantry, station or section has its numbers strictly rising, the gantries of the snapshot
of a running pass (R135) among them, and the numbers of gantries (R1) and stations (R3) are in their ranges. -/
def State.tablesFit (s : State) : Prop :=
  s.geo.gantries.rising = true ∧ s.geo.stations.rising = true ∧ s.nodes.rising = true ∧
    s.measure.stations.rising = true ∧ s.traffic.rising = true ∧ s.rollout.rising = true ∧ s.sections.rising = true ∧
    (∀ n ∈ s.geo.gantries.keys, 1 ≤ n ∧ n ≤ 32) ∧ (∀ n ∈ s.geo.stations.keys, 1 ≤ n ∧ n ≤ 24) ∧
    (∀ n, s.plan.running = some n → n.gantries.rising = true)

/-- The stored form every step keeps: at most 4 request frames (R24), at most 32 notices (R29), the incident
table of 16 slots with at most 12 records of SUPERVISOR origin (R115), the demand table of 48 slots (R131),
the banks (R169), the engines (R36), the order of the tables and the numbers of gantries (R1) and stations (R3). -/
structure State.Wf (s : State) : Prop where
  rxQueue : s.link.rxQueue.length ≤ 4
  notices : s.link.notices.length ≤ 32
  incidents : Table.slotted 16 s.incidents
  supervisor : s.supervisorCount ≤ 12
  demands : Table.slotted 48 s.plan.demands
  banks : ∀ id, (s.banks.look id).wf
  lineA : s.lineA.wf
  lineB : s.lineB.wf
  tables : s.tablesFit

/-! ### SETUP -/

/-- A line controller as SETUP holds it (R7, R14): nothing queued, held or timed; a telegram still in flight
is one whose outcome R54 discards. -/
def LineCtl.still (c : LineCtl) : Prop :=
  c.queues = ⟨[], [], [], [], [], []⟩ ∧ c.held = [] ∧ c.polls = [] ∧ c.lumenTimer = none ∧
    ∀ f, c.flight = some f → f.discarded = true

/-- In SETUP the runtime blocks hold nothing (R7, R14, R15). -/
def State.SetupStill (s : State) : Prop :=
  s.geo.mode = .setup →
    s.nodes = [] ∧ s.rollout = [] ∧ s.traffic = [] ∧ s.measure = ⟨none, []⟩ ∧ s.incidents = [] ∧
      s.sections = Shoulder.allClosed ∧ s.plan = ⟨[], [], none, false⟩ ∧ s.geo.waiting = ⟨none, none, none⟩ ∧
      s.lineA.still ∧ s.lineB.still

/-! ### Safe runs -/

/-- A state from which a step gives a next state: no fault, no refusal. -/
def State.Safe (s : State) : Prop := ∃ t, step s = .next t

end Sys2Proof.Machine
end

