-- ==== Sys2Proof/Certificates/Slice0/Obligations.lean ====
section
/-! DEFINITION. The statements for the provers. Each docstring names the rules of spec/ it formalises, or says
that it is the model's own choice. -/

open Sys2Proof Sys2Proof.Machine

/-! ### The queue of commands -/

/-- A step runs the command at the front of the queue on the state with the queue's rest (the model's own
queue, log 3). -/
def Obligations.StepRunsFrontCommand : Prop :=
  ∀ (c : Instr) (rest : List Instr) (s : State), s.pending = c :: rest →
    step s = exec c { s with pending := rest }

/-- On an empty queue one millisecond passes (the model's choice, log 1): the corridor clock advances by one (R17), and
so does every timer that runs: the two poll timers of each node up to poll_period and state_period (R52), the LUMEN
repeat timer up to 30 s (R48), the OFFLINE retry timer up to 30 s (R63), the gate timer up to gate_time while
gate_expired is not set (R163), the interval timer up to interval (R93); a held confirmation STATE (R51) and an expiry
(R121) count down to 0. A timer that has reached its limit stands still until its row is taken (log 4), an absent one
stays absent, and nothing but the timers of the blocks changes. While RESET_N is low no time passes (log 8). -/
def Obligations.EmptyQueuePassesOneMillisecond : Prop :=
  (∀ s : State, s.pending = [] → s.resetHigh = false → step s = .next s) ∧
  ∀ s : State, s.pending = [] → s.resetHigh = true →
    let runs (limit ms : Nat) : Nat := if ms < limit then ms + 1 else ms
    let p := s.geo.params
    ∃ t, step s = .next t ∧ t.clock = s.clock + 1 ∧
      { t with clock := s.clock, lineA := s.lineA, lineB := s.lineB, nodes := s.nodes, measure := s.measure,
               incidents := s.incidents, rollout := s.rollout } = s ∧
      (∀ l, { t.line l with polls := (s.line l).polls, held := (s.line l).held,
                            lumenTimer := (s.line l).lumenTimer } = s.line l ∧
        (∀ g, (t.line l).polls.look g = ((s.line l).polls.look g).map fun x =>
          ⟨runs p.line.pollPeriod x.trace, runs (p.line.statePeriod * 1000) x.state⟩) ∧
        (∀ g, (t.line l).held.look g = ((s.line l).held.look g).map fun ms => ms - 1) ∧
        (t.line l).lumenTimer = (s.line l).lumenTimer.map (runs 30000)) ∧
      (∀ g, t.nodes.look g = (s.nodes.look g).map fun n => { n with retry := n.retry.map (runs 30000) }) ∧
      (∀ g, t.rollout.look g = (s.rollout.look g).map fun r =>
        { r with gateTimer := if r.gateExpired = true then r.gateTimer
                              else r.gateTimer.map (runs (p.plan.gateTime * 1000)) }) ∧
      (∀ h, t.incidents.look h = (s.incidents.look h).map fun r => { r with expiry := r.expiry.map fun e => e - 1 }) ∧
      t.measure = { s.measure with timer := s.measure.timer.map (runs (p.measure.interval * 1000)) }

/-- No command changes the queue of waiting commands, which is the model's own field (log 3). -/
def Obligations.EveryCommandKeepsTheQueue : Prop :=
  ∀ (c : Instr) (s t : State), exec c s = .next t → t.pending = s.pending

/-- The machine never stops: every step gives a next state. The manual gives every row an effect; that a step on an
empty queue is a millisecond, and that a row whose condition fails leaves the state as it is, are the model's choices
(log 1 and 2). -/
def Obligations.NoStepStops : Prop := ∀ s : State, s.Safe

/-! ### Rules of the whole machine -/

/-- Every step keeps the stored form: queue and table capacities (R24, R29, R115, R131), the overflow mark of
the banks (R169), the numbers of gantries and stations (R1, R3), and a telegram in flight exactly while the engine is
SENDING: R36 has one in flight in AWAITING and RECEIVING too, and that these two are passed inside one row is the
model's choice (log 6). -/
def Obligations.StepKeepsStoredForm : Prop := ∀ s t : State, s.Wf → step s = .next t → t.Wf

/-- R7, R14, R15: every step keeps the runtime blocks empty while the mode is SETUP, however SETUP was entered: from
power-on and the resets, or by STOP. (That all four section states are held, CLOSED, whether a gantry names the section
or not, and not those of the existing sections alone (R4), is the model's choice, log 33.) -/
def Obligations.StepKeepsSetupEmpty : Prop := ∀ s t : State, s.SetupStill → step s = .next t → t.SetupStill

/-- The state of R15: SETUP, nothing defined, the parameters at their defaults, empty blocks, clear banks, the FAULT
output not asserted, the clock at 0; R48: luminance 8; R36: each engine FREE with no telegram in flight. It has the
stored form, and its runtime blocks are empty as SETUP asks. (That all four sections are held there, CLOSED, is the
model's choice, log 33.) -/
def Obligations.ResetStateIsEmpty : Prop :=
  State.reset.Wf ∧ State.reset.SetupStill ∧ State.reset.geo.mode = .setup ∧ State.reset.geo.gantries = [] ∧
    State.reset.geo.stations = [] ∧ State.reset.geo.params = Params.defaults ∧ State.reset.clock = 0 ∧
    State.reset.link.rxQueue = [] ∧ State.reset.link.notices = [] ∧ State.reset.link.replySlot = none ∧
    State.reset.link.tx = none ∧ State.reset.link.lost = false ∧ State.reset.link.framer.state = .idle ∧
    (∀ l, (State.reset.line l).engine = .free ∧ (State.reset.line l).flight = none ∧
      (State.reset.line l).level = 8) ∧
    (∀ id, State.reset.banks.look id = ⟨none, false⟩) ∧ State.reset.faultOutput = false

/-- R170: a FAULT-severity record stays in its bank, whatever command runs, until READ_FAULTS or one of the
three resets. -/
def Obligations.FaultRecordStaysUntilRead : Prop :=
  ∀ (c : Instr) (s t : State) (id : BankId) (e : ErrorRec), isReset c = false → c ≠ .readFaults →
    (s.banks.look id).held = some e → e.severity = .fault → exec c s = .next t →
    (t.banks.look id).held = some e

/-- R172: the FAULT output is asserted exactly while a bank holds a FAULT record; it is not asserted after
power-on and the resets; the recording of a FAULT asserts it; the READ_FAULTS of the only bank that holds one
releases it; START and STOP do not change it. -/
def Obligations.FaultOutputFollowsBanks : Prop :=
  (∀ s : State, s.faultOutput = true ↔ ∃ id e, (s.banks.look id).held = some e ∧ e.severity = .fault) ∧
  (∀ (c : Instr) (s t : State), isReset c = true → (∀ r1 r0, c = .resetReplySent r1 r0 → ∃ x r, s.link.tx = some x ∧
      x.what = .resetReply r ∧ s.resetHigh = true) → (∀ r1 r0, c = .resetN true r1 r0 → s.resetHigh = false) →
    exec c s = .next t → t.faultOutput = false) ∧
  (∀ (s : State) (id : BankId) (code : ErrorCode) (g st : Option Nat),
    (s.record id code .fault g st).faultOutput = true) ∧
  (∀ (s t : State) (f : Frame) (rest : List Frame) (b : Byte) (id : BankId), s.takes 0x16#8 f rest →
    f.payload = [b] → bankOfCode b = some id →
    (∀ id' e, id' ≠ id → (s.banks.look id').held = some e → e.severity = .warn) →
    exec .readFaults s = .next t → t.faultOutput = false) ∧
  (∀ (c : Instr) (s t : State), c = .start ∨ c = .stop → exec c s = .next t → t.faultOutput = s.faultOutput)

/-- R17, R48: of the commands only the three resets change the corridor clock (START and STOP do not), and only they
and LUMINANCE change the luminance level of a line. -/
def Obligations.ClockAndLuminanceAreKept : Prop :=
  ∀ (c : Instr) (s t : State), isReset c = false → exec c s = .next t →
    t.clock = s.clock ∧ (c ≠ .luminance → ∀ l, (t.line l).level = (s.line l).level)

/-- R25 to R27: a request that can be taken leaves the queue and its reply, of its TYPE with the top bit set
and with its TAG, stands in the reply slot; a refused one has changed nothing else. -/
def Obligations.RefusedRequestChangesNothing : Prop :=
  ∀ (c : Instr) (ty : Byte) (s : State) (f : Frame) (rest : List Frame), (c, ty) ∈ requestRows →
    s.takes ty f rest →
    ∃ t r d, exec c s = .next t ∧ t.link.rxQueue = rest ∧
      t.link.replySlot = some ⟨ty ||| 0x80#8, f.tag, r, d⟩ ∧
      (r ≠ .ok → r ≠ .okClamped → t = s.answered f rest r d)

/-- R7: a request that the present mode does not take is refused with WRONG_MODE and changes nothing. -/
def Obligations.WrongModeIsRefused : Prop :=
  (∀ (c : Instr) (ty : Byte) (s : State) (f : Frame) (rest : List Frame), (c, ty) ∈ runOnlyRows →
    s.takes ty f rest → s.geo.mode = .setup → exec c s = .next (s.answered f rest .wrongMode .none)) ∧
  (∀ (c : Instr) (ty : Byte) (s : State) (f : Frame) (rest : List Frame), (c, ty) ∈ setupOnlyRows →
    s.takes ty f rest → s.geo.mode = .run → exec c s = .next (s.answered f rest .wrongMode .none))

/-- R29, R30: a notice joins the tail of a queue that has room; a full queue drops it, and the first drop sets
the lost flag and records NOTICE_LOST in LINK; nothing else changes. -/
def Obligations.NoticeQueueTakesOrDrops : Prop :=
  ∀ (s : State) (b : NoticeBody),
    (s.link.notices.length < 32 →
      s.raise b = { s with link := { s.link with notices := s.link.notices ++ [⟨s.clock, b⟩] } }) ∧
    (32 ≤ s.link.notices.length → s.link.lost = true → s.raise b = s) ∧
    (32 ≤ s.link.notices.length → s.link.lost = false →
      (s.raise b).link = { s.link with lost := true } ∧
      (s.banks.link.held = none →
        (s.raise b).banks.link = ⟨some ⟨.warn, .noticeLost, none, none, s.clock⟩, false⟩) ∧
      (∀ e, s.banks.link.held = some e → (s.raise b).banks.link = ⟨some e, true⟩) ∧
      { s.raise b with link := s.link, banks := s.banks } = s ∧
      (∀ id, id ≠ .link → (s.raise b).banks.look id = s.banks.look id))

/-- R134, R135: a trigger in RUN starts a pass with a snapshot while the plan engine is IDLE and sets the again-flag
while a pass runs, whose snapshot stays as it was; in SETUP none is taken. R135: the snapshot holds the gantry records,
home gantries and continuity relation of the geometry, the PLAN, CONGESTION, QUEUE and WRONGWAY values in force and not
those that wait (R11), every incident, section state and demand, every station's level and queue state, and every sign's
capability list and whether it is serviceable: its node ONLINE, its health OK or DEGRADED, not confirm-failed (R71). -/
def Obligations.TriggerStartsOrDefersPass : Prop :=
  ∀ s : State,
    (s.geo.mode = .setup → s.trigger = s) ∧
    (s.geo.mode = .run → s.plan.running = none →
      s.trigger = { s with plan := { s.plan with running := some s.snapshot } }) ∧
    (s.geo.mode = .run → ∀ n, s.plan.running = some n → s.trigger = { s with plan := { s.plan with again := true } }) ∧
    (let n := s.snapshot
     n.gantries = s.geo.gantries ∧ n.home = s.geo.home ∧ n.contin = s.geo.contin ∧ n.plan = s.geo.params.plan ∧
      n.congestion = s.geo.params.congestion ∧ n.queue = s.geo.params.queue ∧ n.wrongway = s.geo.params.wrongway ∧
      n.incidents = s.incidents ∧ n.sections = s.sections ∧ n.demands = s.plan.demands ∧
      (∀ st, n.stations.look st = (s.traffic.look st).map fun x => ⟨x.level, x.queueOn⟩) ∧
      (∀ g, s.nodes.look g = none → n.signs.look g = none) ∧
      (∀ g x, s.nodes.look g = some x → ∃ vs, n.signs.look g = some vs ∧ vs.length = x.signs.length ∧
        ∀ (i : Nat) (y : SignRec), x.signs[i]? = some y → ∃ v, vs[i]? = some v ∧ v.caps = y.caps ∧
          (v.serviceable = true ↔ x.state = .online ∧ (y.health = some .ok ∨ y.health = some .degraded) ∧
            y.confirmFailed = false)))

/-! ### Power and reset -/

/-- R15, R18: POWER_ON gives the state of R15 with the rate code of the straps. RESET_N held low forces that state; its
release does so again and reads the straps (that the falling edge leaves the rate code is the model's choice,
log 8); a high level that is no release changes nothing, and while the pin is low no other command acts (log 8). The
model's own queue and counter stay. -/
def Obligations.PowerOnAndResetPinReset : Prop :=
  ∀ (r1 r0 : Bool) (s : State),
    exec (.powerOn r1 r0) s = .next
      { State.reset with
        pending := s.pending, freeCount := s.freeCount, resetHigh := s.resetHigh,
        link := { State.reset.link with rate := BitVec.ofNat 2 (2 * r1.toNat + r0.toNat) } } ∧
    exec (.resetN false r1 r0) s = .next
      { State.reset with
        pending := s.pending, freeCount := s.freeCount, resetHigh := false,
        link := { State.reset.link with rate := s.link.rate } } ∧
    (s.resetHigh = false →
      exec (.resetN true r1 r0) s = .next
        { State.reset with
          pending := s.pending, freeCount := s.freeCount, resetHigh := true,
          link := { State.reset.link with rate := BitVec.ofNat 2 (2 * r1.toNat + r0.toNat) } }) ∧
    (s.resetHigh = true → exec (.resetN true r1 r0) s = .next s) ∧
    (∀ c : Instr, s.resetHigh = false → isReset c = false → exec c s = .next s)

/-- R16: RESET with a payload is BAD_LENGTH (R26); else it replies OK and ends the taking of requests (R25), frames of
an unknown TYPE among them; its reply is sent as the last frame: while it waits no notice is sent, while it is sent no
other frame is taken up and FRAME_SENT does not end it; and when its last byte has left the controller is in the state
of R15 with the straps read anew. -/
def Obligations.ResetRequestRepliesThenResets : Prop :=
  (∀ (s : State) (f : Frame) (rest : List Frame), s.takes 0x07#8 f rest → f.payload = [] →
    exec .reset s = .next
      { s.answered f rest .ok .none with link := { (s.answered f rest .ok .none).link with resetting := true } }) ∧
  (∀ (s : State) (f : Frame) (rest : List Frame), s.takes 0x07#8 f rest → f.payload ≠ [] →
    exec .reset s = .next (s.answered f rest .badLength .none)) ∧
  (∀ (s : State) (c : Instr) (ty : Byte), s.link.resetting = true → (c, ty) ∈ requestRows ∨ c = .unknownType →
    exec c s = .next s) ∧
  (∀ (s : State) (r : Reply), s.link.resetting = true → s.link.replySlot = some r → exec .sendNotice s = .next s) ∧
  (∀ (s : State) (r : Reply) (bs : List Byte) (c : Instr), s.link.tx = some ⟨.resetReply r, bs⟩ →
    c ∈ [Instr.frameSent, .sendNotice, .sendReply] → exec c s = .next s) ∧
  (∀ (s : State) (r : Reply), s.resetHigh = true → s.link.resetting = true → s.link.tx = none →
    s.link.replySlot = some r →
    exec .sendReply s = .next
      { s with link := { s.link with replySlot := none, tx := some ⟨.resetReply r, r.frame⟩ } }) ∧
  (∀ (r1 r0 : Bool) (s : State) (r : Reply) (bs : List Byte), s.resetHigh = true →
    s.link.tx = some ⟨.resetReply r, bs⟩ →
    exec (.resetReplySent r1 r0) s = .next
      { State.reset with
        pending := s.pending, freeCount := s.freeCount, resetHigh := true,
        link := { State.reset.link with rate := BitVec.ofNat 2 (2 * r1.toNat + r0.toNat) } })

/-! ### Supervisor link -/

/-- R19, R20, R22: in IDLE an error-free SOF starts a frame; of a run of other characters, faulty ones and a faulty
SOF among them, the first records STRAY and the later ones change nothing; a LEN out of range discards the frame and
records BAD_LEN, faulty or not, and one in range counts the bytes of the body. R23: a faulty LEN, body or check byte
counts like any other, and the first faulty character sets the error mark; at completion a marked frame is discarded
with one PARITY or FRAMING record. R24: an unmarked frame whose check disagrees is discarded with one CRC record. A
character with both errors draws the free value of log 9 and no more. -/
def Obligations.FramerTakesCharacters : Prop :=
  ∀ (c : SupChar) (s : State), s.resetHigh = true → s.link.sendsReset = false →
    let d := s.drawn c
    (s.link.framer.state = .idle → c = cleanChar 0xA5#8 →
      exec (.supRxCharacter c) s = .next
        { s with link := { s.link with framer := ⟨.length, [], none, false⟩ } }) ∧
    (s.link.framer.state = .idle →
      (c.data ≠ 0xA5#8 ∨ SupChar.parityError c = true ∨ SupChar.framingError c = true) →
      (s.link.framer.strayRun = true → exec (.supRxCharacter c) s = .next d) ∧
      (s.link.framer.strayRun = false →
        exec (.supRxCharacter c) s = .next
          (State.record .link .stray .warn none none
            { d with link := { s.link with framer := ⟨.idle, [], none, true⟩ } }))) ∧
    (s.link.framer.state = .length → (c.data.toNat < 2 ∨ 250 < c.data.toNat) →
      exec (.supRxCharacter c) s = .next
        (State.record .link .badLen .warn none none
          { d with link := { s.link with framer := ⟨.idle, [], none, false⟩ } })) ∧
    (s.link.framer.state = .length → 2 ≤ c.data.toNat → c.data.toNat ≤ 250 →
      ∃ m, marksFirst s.link.framer.mark c m ∧
        exec (.supRxCharacter c) s = .next
          { d with link := { s.link with framer := ⟨.body c.data.toNat, [c.data], m, false⟩ } }) ∧
    (∀ n, s.link.framer.state = .body n →
      ∃ m, marksFirst s.link.framer.mark c m ∧
        exec (.supRxCharacter c) s = .next
          { d with link := { s.link with framer :=
              ⟨if 2 ≤ n then .body (n - 1) else .check 2, s.link.framer.bytes ++ [c.data], m, false⟩ } }) ∧
    (s.link.framer.state = .check 2 →
      ∃ m, marksFirst s.link.framer.mark c m ∧
        exec (.supRxCharacter c) s = .next
          { d with link := { s.link with framer := ⟨.check 1, s.link.framer.bytes ++ [c.data], m, false⟩ } }) ∧
    (s.link.framer.state = .check 1 →
      ∃ m, marksFirst s.link.framer.mark c m ∧
        let done : State := { d with link := { s.link with framer := ⟨.idle, [], none, false⟩ } }
        (m = some .parity → exec (.supRxCharacter c) s = .next (State.record .link .parity .warn none none done)) ∧
        (m = some .framing → exec (.supRxCharacter c) s = .next (State.record .link .framing .warn none none done)) ∧
        (∀ body hi, m = none → s.link.framer.bytes = body ++ [hi] →
          (hi ≠ highByte (crc16 body) ∨ c.data ≠ lowByte (crc16 body)) →
          exec (.supRxCharacter c) s = .next (State.record .link .crc .warn none none done)))

/-- R19, R24, R175: the characters of a whole frame, arriving without error at an IDLE framer, put exactly
that frame at the tail of a receive queue with room; a full queue loses it with OVERRUN. A frame that is being sent at
that time does not matter (chapter 2, full duplex), but for the reply to a RESET (R16). -/
def Obligations.WholeFrameIsQueued : Prop :=
  ∀ (ty tag : Byte) (payload : List Byte) (s : State), payload.length ≤ 248 → s.resetHigh = true →
    s.link.sendsReset = false → s.link.framer.state = .idle →
    (s.link.rxQueue.length < 4 →
      execAll ((frameBytes ty tag payload).map fun b => .supRxCharacter (cleanChar b)) s = .next
        { s with link := { s.link with framer := ⟨.idle, [], none, false⟩,
                                       rxQueue := s.link.rxQueue ++ [⟨ty, tag, payload⟩] } }) ∧
    (4 ≤ s.link.rxQueue.length →
      execAll ((frameBytes ty tag payload).map fun b => .supRxCharacter (cleanChar b)) s = .next
        (State.record .link .overrun .warn none none
          { s with link := { s.link with framer := ⟨.idle, [], none, false⟩ } }))

/-- R21: out of IDLE a gap of more than 44 bit times (4 characters) discards the partial frame and records
FRAME_TIMEOUT; at most 44, or in IDLE, nothing happens. While the reply to a RESET is being sent, a character that
arrives changes and records nothing (R16 discards frames that arrive then, unanswered and unrecorded), nor does a gap:
that no FRAME_TIMEOUT and no other link error is recorded then is the model's reading (log 28). -/
def Obligations.GapDiscardsPartialFrame : Prop :=
  ∀ (gap : Nat) (s : State), s.resetHigh = true →
    (s.link.sendsReset = false → s.link.framer.state ≠ .idle → 44 < gap →
      exec (.frameTimeout gap) s = .next
        (State.record .link .frameTimeout .warn none none
          { s with link := { s.link with framer := ⟨.idle, [], none, false⟩ } })) ∧
    (s.link.framer.state ≠ .idle → gap ≤ 44 → exec (.frameTimeout gap) s = .next s) ∧
    (s.link.framer.state = .idle → exec (.frameTimeout gap) s = .next s) ∧
    (s.link.sendsReset = true →
      exec (.frameTimeout gap) s = .next s ∧ ∀ c, exec (.supRxCharacter c) s = .next s)

/-- R28 to R30: the free transmitter takes the reply first; with none waiting, and no request waiting to be taken, it
takes the oldest notice, which carries the lost flag and clears it; a frame that has left frees the transmitter, the
reply to a RESET excepted (R16, O16). -/
def Obligations.TransmitterTakesReplyThenNotice : Prop :=
  (∀ (s : State) (r : Reply), s.resetHigh = true → s.link.resetting = false → s.link.tx = none →
    s.link.replySlot = some r →
    exec .sendReply s = .next { s with link := { s.link with replySlot := none, tx := some ⟨.reply r, r.frame⟩ } } ∧
    exec .sendNotice s = .next s) ∧
  (∀ (s : State) (n : Notice) (rest : List Notice), s.resetHigh = true → s.link.tx = none →
    s.link.replySlot = none → s.link.rxQueue = [] → s.link.notices = n :: rest →
    exec .sendNotice s = .next
      { s with link := { s.link with notices := rest, lost := false,
                                     tx := some ⟨.notice n s.link.lost, n.frame s.link.lost⟩ } }) ∧
  (∀ s : State, s.link.rxQueue ≠ [] → exec .sendNotice s = .next s) ∧
  (∀ (s : State) (x : Sending), s.resetHigh = true → s.link.tx = some x → (∀ r, x.what ≠ .resetReply r) →
    exec .frameSent s = .next { s with link := { s.link with tx := none } } ∧
    exec .sendReply s = .next s ∧ exec .sendNotice s = .next s)

/-- R26, R31: a TYPE that names no request is answered UNKNOWN_TYPE; IDENTIFY answers its four leaves in both modes,
with the identity and the capacities byte by byte in leaves 0 and 1, the counts of what is defined in leaf 2, and the
mode, the clock and the rate code in leaf 3; any other index is answered with leaf 0xFF and zeros (how many is free,
log 16). -/
def Obligations.UnknownTypeAndIdentify : Prop :=
  (∀ (s : State) (f : Frame) (rest : List Frame) (ty : Byte), s.takes ty f rest → (∀ p ∈ requestRows, p.2 ≠ ty) →
    exec .unknownType s = .next (s.answered f rest .unknownType .none)) ∧
  (∀ (s : State) (f : Frame) (rest : List Frame), s.takes 0x01#8 f rest →
    (f.payload = [0#8] → exec .identify s = .next (s.answered f rest .ok .identity)) ∧
    (f.payload = [1#8] → exec .identify s = .next (s.answered f rest .ok .capacities)) ∧
    (f.payload = [2#8] →
      exec .identify s = .next (s.answered f rest .ok (.counts s.geo.gantries.length s.geo.stations.length
        ([1, 2, 3, 4].filter fun n => s.geo.gantries.any fun kv => kv.2.sec == n).length
        (s.geo.gantries.filter fun kv => decide (kv.2.line = .a)).length
        (s.geo.gantries.filter fun kv => decide (kv.2.line = .b)).length))) ∧
    (f.payload = [3#8] →
      exec .identify s = .next (s.answered f rest .ok (.status s.geo.mode s.clock s.link.rate))) ∧
    (∀ b, f.payload = [b] → 3 < b.toNat → exec .identify s = .next (s.answered f rest .ok .unknownLeaf)) ∧
    (f.payload.length ≠ 1 → exec .identify s = .next (s.answered f rest .badLength .none))) ∧
  Detail.identity.bytes = [0#8, 0x03#8, 0xC1#8, 0x09#8, 0x70#8, 1#8, 1#8] ∧
  Detail.capacities.bytes = [1#8, 32#8, 24#8, 6#8, 2#8, 16#8, 16#8, 12#8, 48#8, 4#8, 12#8] ∧
  (∀ g st se a b : Nat, (Detail.counts g st se a b).bytes =
    [2#8, BitVec.ofNat 8 g, BitVec.ofNat 8 st, BitVec.ofNat 8 se, BitVec.ofNat 8 a, BitVec.ofNat 8 b]) ∧
  (∃ k, Detail.unknownLeaf.bytes = 0xFF#8 :: List.replicate k 0#8)

/-! ### Geometry and modes -/

/-- R1, R2: DEFINE_GANTRY stores a record of fields in range with service IN, or makes a defined record undefined; a
number that is not defined is NOT_FOUND. A payload with remove no that has not all the fields, or more, and one with
remove yes that is not the number alone, is BAD_LENGTH; a gantry number outside 1 to 32, a chainage above 65,000, a line
or panel byte that names none, an address outside 1 to 16, lanes that are not a contiguous run with one of 1 to 5, or a
section above 4 is BAD_VALUE, and the table stays. That remove and panel are 0 for no and 1 for yes, and line A is 0 and
B 1, is the model's reading (log 11, 12), and so are BAD_VALUE for a remove of a number out of range (log 30) and the
refusal of another remove byte (log 14). -/
def Obligations.DefineGantryStoresRecord : Prop :=
  ∀ (s : State) (f : Frame) (rest : List Frame), s.takes 0x02#8 f rest → s.geo.mode = .setup →
    (∀ g c1 c0 l a ls p sc : Byte, f.payload = [0#8, g, c1, c0, l, a, ls, p, sc] →
      let lanesOk : Prop := ls.toNat < 64 ∧ ∃ lo hi, lo ≤ hi ∧ 1 ≤ hi ∧ hi ≤ 5 ∧
        ∀ q, q < 6 → (ls.getLsbD q = true ↔ lo ≤ q ∧ q ≤ hi)
      let good : Prop := 1 ≤ g.toNat ∧ g.toNat ≤ 32 ∧ c1.toNat * 256 + c0.toNat ≤ 65000 ∧ l.toNat ≤ 1 ∧ 1 ≤ a.toNat ∧
        a.toNat ≤ 16 ∧ lanesOk ∧ p.toNat ≤ 1 ∧ sc.toNat ≤ 4
      (good →
        ∃ t, exec .defineGantry s = .next t ∧
          t.geo.gantries.look g.toNat = some
            { chainage := c1.toNat * 256 + c0.toNat, line := if l = 0#8 then .a else .b, address := a.toNat,
              lanes := ls.setWidth 6, panel := decide (p = 1#8), sec := sc.toNat, service := .inService } ∧
          (∀ k, k ≠ g.toNat → t.geo.gantries.look k = s.geo.gantries.look k) ∧
          { t with geo := { t.geo with gantries := s.geo.gantries } } = s.answered f rest .ok .none) ∧
      (¬good → exec .defineGantry s = .next (s.answered f rest .badValue .none))) ∧
    (∀ g : Byte, f.payload = [1#8, g] →
      (g.toNat = 0 ∨ 32 < g.toNat → exec .defineGantry s = .next (s.answered f rest .badValue .none)) ∧
      (1 ≤ g.toNat → g.toNat ≤ 32 →
        (s.geo.gantries.look g.toNat = none → exec .defineGantry s = .next (s.answered f rest .notFound .none)) ∧
        (s.geo.gantries.look g.toNat ≠ none →
          ∃ t, exec .defineGantry s = .next t ∧ t.geo.gantries.look g.toNat = none ∧
            (∀ k, k ≠ g.toNat → t.geo.gantries.look k = s.geo.gantries.look k) ∧
            { t with geo := { t.geo with gantries := s.geo.gantries } } = s.answered f rest .ok .none))) ∧
    (f.payload = [] → exec .defineGantry s = .next (s.answered f rest .badLength .none)) ∧
    (∀ (rm : Byte) (fields : List Byte), f.payload = rm :: fields →
      (rm = 0#8 ∧ fields.length ≠ 8 ∨ rm = 1#8 ∧ fields.length ≠ 1 ∨
          2 ≤ rm.toNat ∧ fields.length ≠ 1 ∧ fields.length ≠ 8 →
        exec .defineGantry s = .next (s.answered f rest .badLength .none)) ∧
      (2 ≤ rm.toNat → fields.length = 1 ∨ fields.length = 8 →
        exec .defineGantry s = .next (s.answered f rest .badValue .none)))

/-- R3: DEFINE_STATION stores a record of fields in range, and refuses with BAD_VALUE one with a field out of range
(station outside 1 to 24, chainage above 65,000, host outside 1 to 32, a position above 5, spacing outside 300 to 600,
loop_length outside 100 to 300) or whose loop_length is not less than its spacing; with remove it makes a defined record
undefined, or answers NOT_FOUND. A payload with remove no that has not all the fields, or more, and one with remove yes
that is not the number alone, is BAD_LENGTH (R2). That remove is 0 for no and 1 for yes is the model's reading (log 11),
and so are BAD_VALUE for a remove of a number out of range (log 30) and the refusal of another remove byte (log 14). -/
def Obligations.DefineStationStoresRecord : Prop :=
  (∀ (s : State) (f : Frame) (rest : List Frame) (n : Byte), s.takes 0x03#8 f rest → s.geo.mode = .setup →
    f.payload = [1#8, n] →
    (n.toNat = 0 ∨ 24 < n.toNat → exec .defineStation s = .next (s.answered f rest .badValue .none)) ∧
    (1 ≤ n.toNat → n.toNat ≤ 24 →
      (s.geo.stations.look n.toNat = none → exec .defineStation s = .next (s.answered f rest .notFound .none)) ∧
      (s.geo.stations.look n.toNat ≠ none →
        ∃ t, exec .defineStation s = .next t ∧ t.geo.stations.look n.toNat = none ∧
          (∀ k, k ≠ n.toNat → t.geo.stations.look k = s.geo.stations.look k) ∧
          { t with geo := { t.geo with stations := s.geo.stations } } = s.answered f rest .ok .none))) ∧
  (∀ (s : State) (f : Frame) (rest : List Frame) (n c1 c0 h ls d1 d0 w1 w0 : Byte), s.takes 0x03#8 f rest →
    s.geo.mode = .setup → f.payload = [0#8, n, c1, c0, h, ls, d1, d0, w1, w0] →
    let spacing := d1.toNat * 256 + d0.toNat
    let loop := w1.toNat * 256 + w0.toNat
    let good : Prop := 1 ≤ n.toNat ∧ n.toNat ≤ 24 ∧ c1.toNat * 256 + c0.toNat ≤ 65000 ∧ 1 ≤ h.toNat ∧ h.toNat ≤ 32 ∧
      ls.toNat < 64 ∧ 300 ≤ spacing ∧ spacing ≤ 600 ∧ 100 ≤ loop ∧ loop ≤ 300 ∧ loop < spacing
    (good →
      ∃ t, exec .defineStation s = .next t ∧
        t.geo.stations.look n.toNat = some
          { chainage := c1.toNat * 256 + c0.toNat, host := h.toNat, lanes := ls.setWidth 6,
            spacing := spacing, loopLength := loop } ∧
        (∀ k, k ≠ n.toNat → t.geo.stations.look k = s.geo.stations.look k) ∧
        { t with geo := { t.geo with stations := s.geo.stations } } = s.answered f rest .ok .none) ∧
    (¬good → exec .defineStation s = .next (s.answered f rest .badValue .none))) ∧
  ∀ (s : State) (f : Frame) (rest : List Frame), s.takes 0x03#8 f rest → s.geo.mode = .setup →
    (f.payload = [] → exec .defineStation s = .next (s.answered f rest .badLength .none)) ∧
    (∀ (rm : Byte) (fields : List Byte), f.payload = rm :: fields →
      (rm = 0#8 ∧ fields.length ≠ 9 ∨ rm = 1#8 ∧ fields.length ≠ 1 ∨
          2 ≤ rm.toNat ∧ fields.length ≠ 1 ∧ fields.length ≠ 9 →
        exec .defineStation s = .next (s.answered f rest .badLength .none)) ∧
      (2 ≤ rm.toNat → fields.length = 1 ∨ fields.length = 9 →
        exec .defineStation s = .next (s.answered f rest .badValue .none)))

/-- R8 to R11: in SETUP each of the six groups is rounded and clamped field by field (R9), checked across its fields
(R10: BAD_VALUE, nothing changed) and stored at once; in RUN a CONGESTION, QUEUE or WRONGWAY group waits for the next
close, a PLAN group is stored at once with the continuity relation of R6 derived again and a pass triggered, and
MEASURE and LINE are WRONG_MODE. The reply is OK where every stored value equals the value sent, else OK_CLAMPED with
the places of those that differ; a code of no group and a divert_pref above 1 are BAD_VALUE, a wrong length
BAD_LENGTH. That an absent level is not listed is log 19, the form of the list log 15, the codes of the choices log
12. -/
def Obligations.ParametersAreClampedAndStored : Prop :=
  let cl : Nat → Nat → Nat → Nat := fun lo hi v => max lo (min hi v)
  let sp : Nat → Nat → Nat → Nat := fun lo hi v => max lo (min hi (v / 10 * 10))
  let w : Byte → Byte → Nat := fun h l => h.toNat * 256 + l.toNat
  ∀ (s : State) (f : Frame) (rest : List Frame), s.takes 0x04#8 f rest →
    (∀ iv g1 g0 fs a1 a0 b1 b0 k st si q1 q0 ee : Byte, s.geo.mode = .setup →
      f.payload = [0#8, iv, g1, g0, fs, a1, a0, b1, b0, k, st, si, q1, q0, ee] →
      let v : MeasureParams :=
        { interval := if iv.toNat < 45 then 30 else 60, maxGap := cl 300 2000 (w g1 g0), freeSpeed := sp 60 130 fs.toNat,
          class1Limit := cl 300 800 (w a1 a0), class2Limit := cl 800 2000 (w b1 b0), smoothingShift := cl 1 3 k.toNat,
          stuckMarks := cl 2 15 st.toNat, silentMarks := cl 8 110 si.toNat, silentFlow := cl 100 2000 (w q1 q0),
          edgeErrorLimit := cl 1 50 ee.toNat }
      s.groupTaken f rest
        [iv.toNat, w g1 g0, fs.toNat, w a1 a0, w b1 b0, k.toNat, st.toNat, si.toNat, w q1 q0, ee.toNat]
        [v.interval, v.maxGap, v.freeSpeed, v.class1Limit, v.class2Limit, v.smoothingShift, v.stuckMarks, v.silentMarks,
          v.silentFlow, v.edgeErrorLimit]
        (v.class1Limit < v.class2Limit) (fun x => { x with params := { x.params with measure := v } })) ∧
    (∀ (a b c : Byte × Byte × Byte × Byte × Byte) (n : Byte),
      let bytes : Byte × Byte × Byte × Byte × Byte → List Byte := fun x => [x.1, x.2.1, x.2.2.1, x.2.2.2.1, x.2.2.2.2]
      f.payload = 1#8 :: bytes a ++ bytes b ++ bytes c ++ [n] →
      let on : Byte × Byte × Byte × Byte × Byte → Nat := fun x => w x.1 x.2.1
      let sent : Byte × Byte × Byte × Byte × Byte → List Nat := fun x =>
        if on x = 0 then [0, 0, 0] else [on x, w x.2.2.1 x.2.2.2.1, x.2.2.2.2.toNat]
      let lv : Byte × Byte × Byte × Byte × Byte → LevelParams := fun x =>
        if on x = 0 then ⟨0, 0, 0⟩
        else ⟨cl 200 3000 (on x), cl 200 3000 (w x.2.2.1 x.2.2.2.1), sp 20 130 x.2.2.2.2.toNat⟩
      let v : CongestionParams := { l1 := lv a, l2 := lv b, l3 := lv c, releaseCount := cl 1 10 n.toNat }
      let stored : List Nat := [v.l1.flowOn, v.l1.flowOff, v.l1.speed, v.l2.flowOn, v.l2.flowOff, v.l2.speed, v.l3.flowOn,
        v.l3.flowOff, v.l3.speed, v.releaseCount]
      let ok : Prop := (∀ l ∈ [v.l1, v.l2, v.l3], l.flowOn ≠ 0 → l.flowOff < l.flowOn) ∧
        ∀ p ∈ [(v.l1, v.l2), (v.l2, v.l3)], p.2.flowOn ≠ 0 →
          p.1.flowOn ≠ 0 ∧ p.1.flowOn < p.2.flowOn ∧ p.2.speed ≤ p.1.speed
      (s.geo.mode = .setup → s.groupTaken f rest (sent a ++ sent b ++ sent c ++ [n.toNat]) stored ok
        fun x => { x with params := { x.params with congestion := v } }) ∧
      (s.geo.mode = .run → s.groupTaken f rest (sent a ++ sent b ++ sent c ++ [n.toNat]) stored ok
        fun x => { x with waiting := { x.waiting with congestion := some v } })) ∧
    (∀ on off rl r0 r1 r2 : Byte, f.payload = [2#8, on, off, rl, r0, r1, r2] →
      let reach : Byte → Nat := fun b => if b = 0#8 then 0 else sp 20 80 b.toNat
      let v : QueueParams :=
        { queueOn := cl 20 60 on.toNat, queueOff := cl 25 80 off.toNat, queueRelease := cl 1 10 rl.toNat,
          reach0 := reach r0, reach1 := reach r1, reach2 := reach r2 }
      let sent : List Nat := [on.toNat, off.toNat, rl.toNat, r0.toNat, r1.toNat, r2.toNat]
      let stored : List Nat := [v.queueOn, v.queueOff, v.queueRelease, v.reach0, v.reach1, v.reach2]
      let ok : Prop := v.queueOn + 5 ≤ v.queueOff ∧ (v.reach1 ≠ 0 → v.reach0 ≠ 0) ∧ (v.reach2 ≠ 0 → v.reach1 ≠ 0)
      (s.geo.mode = .setup → s.groupTaken f rest sent stored ok
        fun x => { x with params := { x.params with queue := v } }) ∧
      (s.geo.mode = .run → s.groupTaken f rest sent stored ok
        fun x => { x with waiting := { x.waiting with queue := some v } })) ∧
    (∀ th w1 w0 x1 x0 r1 r0 k1 k0 sd : Byte, f.payload = [3#8, th, w1, w0, x1, x0, r1, r0, k1, k0, sd] →
      let v : WrongwayParams :=
        { threshold := cl 1 3 th.toNat, window := cl 20 300 (w w1 w0), expiry := cl 60 1800 (w x1 x0),
          reach := cl 500 6000 (w r1 r0), track := cl 500 6000 (w k1 k0), speed := sp 20 80 sd.toNat }
      let sent : List Nat := [th.toNat, w w1 w0, w x1 x0, w r1 r0, w k1 k0, sd.toNat]
      let stored : List Nat := [v.threshold, v.window, v.expiry, v.reach, v.track, v.speed]
      (s.geo.mode = .setup → s.groupTaken f rest sent stored True
        fun x => { x with params := { x.params with wrongway := v } }) ∧
      (s.geo.mode = .run → s.groupTaken f rest sent stored True
        fun x => { x with waiting := { x.waiting with wrongway := some v } })) ∧
    (∀ sb c1 c0 cs sh cm dp gt : Byte, f.payload = [4#8, sb, c1, c0, cs, sh, cm, dp, gt] →
      (1 < dp.toNat → exec .setParameters s = .next (s.answered f rest .badValue .none)) ∧
      (dp.toNat ≤ 1 →
        let v : PlanParams :=
          { step := sp 10 30 sb.toNat, continuity := cl 500 5000 (w c1 c0), closureSpeed := sp 40 80 cs.toNat,
            shoulderSpeed := sp 60 120 sh.toNat, corridorMax := sp 80 130 cm.toNat,
            divertPref := if dp = 0#8 then .near else .off, gateTime := cl 5 60 gt.toNat }
        let sent : List Nat := [sb.toNat, w c1 c0, cs.toNat, sh.toNat, cm.toNat, dp.toNat, gt.toNat]
        let stored : List Nat := [v.step, v.continuity, v.closureSpeed, v.shoulderSpeed, v.corridorMax, dp.toNat, v.gateTime]
        (s.geo.mode = .setup → s.groupTaken f rest sent stored True
          fun x => { x with params := { x.params with plan := v } }) ∧
        (s.geo.mode = .run → ∃ t r d, clampAnswer sent stored r d ∧ exec .setParameters s = .next t ∧
          t.geo = { s.geo with params := { s.geo.params with plan := v }, contin := t.geo.contin } ∧
          (s.geo.gantries.rising = true → ∀ g, g ∈ t.geo.contin ↔ ∃ a b, s.geo.gantries.look g = some a ∧
            s.geo.gantries.look (g + 1) = some b ∧ b.chainage ≤ a.chainage + v.continuity) ∧
          t.plan.running ≠ none ∧ (s.plan.running = none → t.plan.again = s.plan.again) ∧
          (∀ m, s.plan.running = some m → t.plan.running = some m ∧ t.plan.again = true) ∧
          t.plan.demands = s.plan.demands ∧ t.plan.targets = s.plan.targets ∧
          t.link.replySlot = some ⟨f.typ ||| 0x80#8, f.tag, r, d⟩ ∧ t.link.rxQueue = rest ∧ t.nodes = s.nodes ∧
          t.incidents = s.incidents ∧ t.sections = s.sections ∧ t.traffic = s.traffic ∧ t.measure = s.measure ∧
          t.lineA = s.lineA ∧ t.lineB = s.lineB ∧ t.clock = s.clock))) ∧
    (∀ p1 p0 sd e1 e0 : Byte, s.geo.mode = .setup → f.payload = [5#8, p1, p0, sd, e1, e0] →
      let v : LineParams := { pollPeriod := cl 250 2000 (w p1 p0), statePeriod := cl 2 30 sd.toNat,
                              settle := cl 200 2000 (w e1 e0) }
      s.groupTaken f rest [w p1 p0, sd.toNat, w e1 e0] [v.pollPeriod, v.statePeriod, v.settle] True
        fun x => { x with params := { x.params with line := v } }) ∧
    (∀ fields : List Byte, s.geo.mode = .run → (f.payload = 0#8 :: fields ∨ f.payload = 5#8 :: fields) →
      exec .setParameters s = .next (s.answered f rest .wrongMode .none)) ∧
    (∀ (b : Byte) (fields : List Byte), f.payload = b :: fields →
      (5 < b.toNat → exec .setParameters s = .next (s.answered f rest .badValue .none)) ∧
      (∀ n : Nat, ((b, n) ∈ [(0#8, 14), (1#8, 16), (2#8, 6), (3#8, 10), (4#8, 8), (5#8, 5)]) → fields.length ≠ n →
        (s.geo.mode = .setup ∨ b ∉ [0#8, 5#8]) →
        exec .setParameters s = .next (s.answered f rest .badLength .none)))

/-- R12, R13: a START whose checks pass enters RUN with every runtime block initialised: home gantries (R5) and the
continuity relation (R6) derived, every lane of every station IDLE, low, empty and FAULTY with reason NODE (R74, R90),
every station, target, rollout record and section at its start values, every node moved on to DESCRIBING with a DESCRIBE
queued in ascending gantry on its line, and a pass running; the first check that fails is answered BAD_CONFIG and
changes nothing, and a START with a payload is BAD_LENGTH. The twelve checks of R12 fail as its table says: in a state
of the stored form the check that START reports is the first that fails for any item, for the lowest item it fails for,
with the kind of that item, and it reports none exactly when none fails. (The marks implausible and lastIncluded of a
lane, which start clear, are the model's, log 26; that all four sections are held, CLOSED, and not the existing ones
alone, is its choice, log 33.) -/
def Obligations.StartEntersRun : Prop :=
  (∀ (s : State) (f : Frame) (rest : List Frame), s.takes 0x05#8 f rest → s.geo.mode = .setup → f.payload = [] →
    s.geo.gantries.rising = true → s.geo.stations.rising = true → firstFailure s.geo.startChecks = none →
    ∃ t, exec .start s = .next t ∧ t.geo.mode = .run ∧ t.geo.gantries = s.geo.gantries ∧
      t.geo.stations = s.geo.stations ∧ t.geo.params = s.geo.params ∧ t.geo.waiting = ⟨none, none, none⟩ ∧
      (∀ st r g, s.geo.stations.look st = some r → (t.geo.home.look st = some g ↔
        ∃ q, s.geo.gantries.look g = some q ∧ q.chainage ≤ r.chainage ∧
          ∀ g' q', s.geo.gantries.look g' = some q' → q'.chainage ≤ r.chainage → q'.chainage ≤ q.chainage)) ∧
      (∀ g, g ∈ t.geo.contin ↔ ∃ a b, s.geo.gantries.look g = some a ∧ s.geo.gantries.look (g + 1) = some b ∧
        b.chainage ≤ a.chainage + s.geo.params.plan.continuity) ∧
      t.clock = s.clock ∧ t.link.replySlot = some ⟨f.typ ||| 0x80#8, f.tag, .ok, .none⟩ ∧
      t.incidents = [] ∧ t.sections = Shoulder.allClosed ∧ t.plan.demands = [] ∧
      t.plan.targets = s.geo.gantries.mapValues blankTarget ∧ t.plan.running ≠ none ∧ t.plan.again = false ∧
      t.measure.timer = some 0 ∧ t.measure.stations.keys = s.geo.stations.keys ∧
      (∀ st r, s.geo.stations.look st = some r → ∃ en, t.measure.stations.look st = some en ∧ en.nodeCond = true ∧
        en.lanes.keys = LaneSet.positions r.lanes ∧
        ∀ p y, en.lanes.look p = some y → y =
          { machine := .idle, loopA := ⟨false, 0, false⟩, loopB := ⟨false, 0, false⟩, silent := false, suspect := false,
            excluded := true, seen := ⟨false, false, true⟩, shoulderExcluded := decide (p = 0),
            acc := ⟨0, 0, 0, 0, 0, 0, 0, 0, 0, 0⟩, implausible := false, lastIncluded := false }) ∧
      t.traffic = s.geo.stations.mapValues (fun _ => freshStation s.geo.params.measure.freeSpeed) ∧
      (∀ g r, s.geo.gantries.look g = some r →
        t.rollout.look g = some (freshRollout r.signCount) ∧
        t.nodes.look g = some
          { state := .describing, reason := .start, since := s.clock, step := some .describe, mismatch := none,
            retry := none, signs := List.replicate r.signCount ⟨[], none, none, false, false⟩ }) ∧
      (∀ l, { t.line l with queues := (s.line l).queues, held := (s.line l).held, polls := (s.line l).polls,
                            lumenTimer := (s.line l).lumenTimer } = s.line l ∧
        (t.line l).held = [] ∧ (t.line l).polls = [] ∧ (t.line l).lumenTimer = some 0 ∧
        (t.line l).queues = ⟨[], [], [], [],
          (s.geo.gantries.filter fun kv => decide (kv.2.line = l)).map fun kv => ⟨kv.1, .describe, .registry, false⟩,
          []⟩)) ∧
  (∀ (s : State) (f : Frame) (rest : List Frame) (c : StartCheck) (k : ItemKind) (n : Nat), s.takes 0x05#8 f rest →
    s.geo.mode = .setup → f.payload = [] → firstFailure s.geo.startChecks = some (c, k, n) →
    exec .start s = .next (s.answered f rest .badConfig (.badConfig k n c))) ∧
  (∀ (s : State) (f : Frame) (rest : List Frame), s.takes 0x05#8 f rest → s.geo.mode = .setup → f.payload ≠ [] →
    exec .start s = .next (s.answered f rest .badLength .none)) ∧
  (∀ s : State, s.Wf →
    (firstFailure s.geo.startChecks = none ↔ ∀ n c, ¬s.geo.checkFails n c) ∧
    (∀ c k n, firstFailure s.geo.startChecks = some (c, k, n) ↔
      k = c.item ∧ s.geo.checkFails n c ∧ (∀ m, m < n → ¬s.geo.checkFails m c) ∧
        ∀ c' m, c'.code < c.code → ¬s.geo.checkFails m c'))

/-- R14, R54: STOP enters SETUP and empties every runtime block; waiting values take effect, service states return to
IN, a telegram in flight runs on to be discarded; records, banks, notices and clock are kept. That no home gantry and no
continuity relation is left, and that the states of all four sections are kept, are the model's (log 33, 34). A STOP
with a payload is BAD_LENGTH (R26). -/
def Obligations.StopEmptiesTheRun : Prop :=
  ∀ (s : State) (f : Frame) (rest : List Frame), s.takes 0x06#8 f rest → s.geo.mode = .run →
    (f.payload ≠ [] → exec .stop s = .next (s.answered f rest .badLength .none)) ∧
    (f.payload = [] → exec .stop s = .next
      { s.answered f rest .ok .none with
        geo := { mode := .setup
                 gantries := s.geo.gantries.map fun kv => (kv.1, { kv.2 with service := .inService })
                 stations := s.geo.stations
                 params := { s.geo.params with
                             congestion := s.geo.waiting.congestion.getD s.geo.params.congestion
                             queue := s.geo.waiting.queue.getD s.geo.params.queue
                             wrongway := s.geo.waiting.wrongway.getD s.geo.params.wrongway }
                 waiting := ⟨none, none, none⟩
                 home := []
                 contin := [] }
        lineA := { LineCtl.idle with engine := s.lineA.engine, level := s.lineA.level,
                                     flight := s.lineA.flight.map fun x => { x with discarded := true } }
        lineB := { LineCtl.idle with engine := s.lineB.engine, level := s.lineB.level,
                                     flight := s.lineB.flight.map fun x => { x with discarded := true } }
        nodes := []
        measure := ⟨none, []⟩
        traffic := []
        incidents := []
        sections := [(1, .closed), (2, .closed), (3, .closed), (4, .closed)]
        plan := ⟨[], [], none, false⟩
        rollout := [] })

/-! ### Incidents, demands, shoulder -/

/-- R115, R116, R122: RAISE_INCIDENT carries kind, start, end, then lanes, speed cap and legend, each behind a presence
byte. A payload that lacks a byte or has more of them, and a LANE_CLOSURE without lanes, is BAD_LENGTH; a kind that is
none of the four, a chainage above 65,000, a start above the end, a lane set of a LANE_CLOSURE that is empty, names all
six positions or one above 5, a lane set of another kind, and a legend outside 1 to 63 are BAD_VALUE. With 12 records of
SUPERVISOR origin, or all 16 slots occupied, it is TABLE_FULL. A request that passes takes the lowest free slot with the
fields it carries, the cap rounded and clamped, raises one INCIDENT_EVENT and triggers a pass; the reply names the
handle, and the cap where it was changed. The layout, the codes of the kinds, BAD_LENGTH for absent lanes and the place
4 that names the clamped cap are the model's (log 12, 13, 15). A presence byte outside its list (R175) is BAD_VALUE
where the length fits some reading of it (log 14). -/
def Obligations.RaiseIncidentTakesLowestSlot : Prop :=
  ∀ (s : State) (f : Frame) (rest : List Frame) (k s1 s0 e1 e0 : Byte) (lanes cap legend : Option Byte)
    (more : List Byte), s.takes 0x08#8 f rest → s.geo.mode = .run →
    let field : Option Byte → List Byte := fun o => match o with | none => [0#8] | some v => [1#8, v]
    let whole : List Byte := k :: s1 :: s0 :: e1 :: e0 :: (field lanes ++ field cap ++ field legend)
    let start := s1.toNat * 256 + s0.toNat
    let stop := e1.toNat * 256 + e0.toNat
    let fits (v : Nat) : Nat := max 20 (min 130 (v / 10 * 10))
    let lacks : Prop := k = 0#8 ∧ lanes = none
    let bad : Prop := 3 < k.toNat ∨ 65000 < start ∨ 65000 < stop ∨ stop < start ∨
      (∃ v, k = 0#8 ∧ lanes = some v ∧ (v.toNat = 0 ∨ 63 ≤ v.toNat)) ∨ k ≠ 0#8 ∧ lanes ≠ none ∨
      ∃ v, legend = some v ∧ (v.toNat = 0 ∨ 63 < v.toNat)
    (let piece (x : List Byte) : Prop := (∃ p, x = [p] ∧ p ≠ 1#8) ∨ ∃ p v, x = [p, v] ∧ p ≠ 0#8
     let odd (x : List Byte) : Prop := ∃ p v, x = p :: v ∧ 2 ≤ p.toNat
     ∀ a b c : List Byte, f.payload = k :: s1 :: s0 :: e1 :: e0 :: (a ++ b ++ c) → piece a → piece b → piece c →
      (k = 0#8 → a.length = 2) → odd a ∨ odd b ∨ odd c →
      exec .raiseIncident s = .next (s.answered f rest .badValue .none)) ∧
    (f.payload = whole ++ more → more ≠ [] ∨ lacks →
      exec .raiseIncident s = .next (s.answered f rest .badLength .none)) ∧
    (∀ n, n < whole.length → f.payload = whole.take n →
      exec .raiseIncident s = .next (s.answered f rest .badLength .none)) ∧
    (f.payload = whole → ¬lacks → bad → exec .raiseIncident s = .next (s.answered f rest .badValue .none)) ∧
    (f.payload = whole → ¬lacks → ¬bad →
      (12 ≤ s.supervisorCount ∨ (∀ h, h < 16 → s.incidents.look h ≠ none) →
        exec .raiseIncident s = .next (s.answered f rest .tableFull .none)) ∧
      (∀ h kind, ((k, kind) ∈ [(0#8, IncidentKind.laneClosure), (1#8, .carriagewayClosure), (2#8, .hazard),
          (3#8, .wrongWay)]) →
        s.supervisorCount < 12 → h < 16 → s.incidents.look h = none → (∀ j, j < h → s.incidents.look j ≠ none) →
        ∃ t r d, exec .raiseIncident s = .next t ∧
          ((∀ v, cap = some v → fits v.toNat = v.toNat) ∧ r = .ok ∧ d = .handle h ∨
            (∃ v, cap = some v ∧ fits v.toNat ≠ v.toNat) ∧ r = .okClamped ∧ d = .handleClamped h [4]) ∧
          (let rec_ : Incident :=
            { kind := kind, origin := .supervisor, start := start, stop := stop,
              lanes := lanes.map fun v => v.setWidth 6, cap := cap.map fun v => fits v.toNat,
              legend := legend.map fun v => v.toNat, anchor := none, expiry := none, raised := s.clock }
           t.incidents.look h = some rec_ ∧ (∀ j, j ≠ h → t.incidents.look j = s.incidents.look j) ∧
           t = State.trigger (State.raise (.incidentEvent .raised h rec_ none)
             { s.answered f rest r d with incidents := t.incidents }))))

/-- R117, R122: AMEND_INCIDENT carries for start, end, lanes, speed cap and legend a mark keep, set or remove. A payload
longer or shorter than the marks call for is BAD_LENGTH; a handle outside 0 to 15, a remove mark on start, end or lanes,
a chainage above 65,000, a lane set that is empty, names all six positions or one above 5, and a legend outside 1 to 63
are BAD_VALUE; a free slot is NOT_FOUND; then a start above the end and a set lane set on another kind than LANE_CLOSURE
are BAD_VALUE, and a set extent on a record with an anchor a CONFLICT. A request that passes replaces the fields set or
removed alone, the cap rounded and clamped, raises one INCIDENT_EVENT and triggers a pass; its reply names the cap where
it was changed. The mark bytes keep 0, set 1 and remove 2, the layout and the place 4 that names the clamped cap are the
model's (log 13, 15). A mark byte that is none of the three (R175) is BAD_VALUE where the length fits some reading of it
(log 14). -/
def Obligations.AmendIncidentReplacesFields : Prop :=
  ∀ (s : State) (f : Frame) (rest more : List Byte) (rx : List Frame) (h : Byte) (start stop lanes cap legend : Mark),
    s.takes 0x09#8 f rx → s.geo.mode = .run → (∀ v, start = .set v ∨ stop = .set v → v < 65536) →
    (∀ v, lanes = .set v ∨ cap = .set v ∨ legend = .set v → v < 256) →
    rest = start.sent true ++ stop.sent true ++ lanes.sent false ++ cap.sent false ++ legend.sent false →
    let fits (v : Nat) : Nat := max 20 (min 130 (v / 10 * 10))
    let bad : Prop := 16 ≤ h.toNat ∨ start = .remove ∨ stop = .remove ∨ lanes = .remove ∨
      (∃ v, (start = .set v ∨ stop = .set v) ∧ 65000 < v) ∨ (∃ v, lanes = .set v ∧ (v = 0 ∨ 63 ≤ v)) ∨
      ∃ v, legend = .set v ∧ (v = 0 ∨ 63 < v)
    (f.payload = h :: (rest ++ more) → more ≠ [] →
      exec .amendIncident s = .next (s.answered f rx .badLength .none)) ∧
    (∀ n, n < (h :: rest).length → f.payload = (h :: rest).take n →
      exec .amendIncident s = .next (s.answered f rx .badLength .none)) ∧
    (let piece (w : Nat) (x : List Byte) : Prop :=
       (∃ m, x = [m] ∧ m ≠ 1#8) ∨ ∃ m v, x = m :: v ∧ v.length = w ∧ m ≠ 0#8 ∧ m ≠ 2#8
     let odd (x : List Byte) : Prop := ∃ m v, x = m :: v ∧ 3 ≤ m.toNat
     ∀ a b c d e : List Byte, f.payload = h :: (a ++ b ++ c ++ d ++ e) → piece 2 a → piece 2 b → piece 1 c →
      piece 1 d → piece 1 e → odd a ∨ odd b ∨ odd c ∨ odd d ∨ odd e →
      exec .amendIncident s = .next (s.answered f rx .badValue .none)) ∧
    (f.payload = h :: rest →
      (bad → exec .amendIncident s = .next (s.answered f rx .badValue .none)) ∧
      (¬bad → s.incidents.look h.toNat = none → exec .amendIncident s = .next (s.answered f rx .notFound .none)) ∧
      (∀ r : Incident, ¬bad → s.incidents.look h.toNat = some r →
        let r' : Incident :=
          { r with start := match start with | .set v => v | _ => r.start
                   stop := match stop with | .set v => v | _ => r.stop
                   lanes := match lanes with | .set v => some (BitVec.ofNat 6 v) | _ => r.lanes
                   cap := match cap with | .keep => r.cap | .set v => some (fits v) | .remove => none
                   legend := match legend with | .keep => r.legend | .set v => some v | .remove => none }
        let extent : Prop := ∃ v, start = .set v ∨ stop = .set v
        let lanesSet : Prop := ∃ v, lanes = .set v
        (r'.stop < r'.start ∨ lanesSet ∧ r.kind ≠ .laneClosure →
          exec .amendIncident s = .next (s.answered f rx .badValue .none)) ∧
        (r'.start ≤ r'.stop → (lanesSet → r.kind = .laneClosure) → extent → r.anchor ≠ none →
          exec .amendIncident s = .next (s.answered f rx .conflict .none)) ∧
        (r'.start ≤ r'.stop → (lanesSet → r.kind = .laneClosure) → (extent → r.anchor = none) →
          ∃ t res d, exec .amendIncident s = .next t ∧
            ((∀ v, cap = .set v → fits v = v) ∧ res = .ok ∧ d = .none ∨
              (∃ v, cap = .set v ∧ fits v ≠ v) ∧ res = .okClamped ∧ d = .clamped [4]) ∧
            t.incidents.look h.toNat = some r' ∧
            (∀ k, k ≠ h.toNat → t.incidents.look k = s.incidents.look k) ∧
            t = State.trigger (State.raise (.incidentEvent .amended h.toNat r' none)
              { s.answered f rx res d with incidents := t.incidents }))))

/-- R118, R122: CLEAR_INCIDENT frees an occupied slot of either origin, whose record goes out in one
INCIDENT_EVENT, and triggers a pass; no station's window changes; a payload of the wrong length is BAD_LENGTH (R26), a
handle outside 0 to 15 BAD_VALUE, a free slot NOT_FOUND. -/
def Obligations.ClearIncidentFreesSlot : Prop :=
  ∀ (s : State) (f : Frame) (rest : List Frame), s.takes 0x0A#8 f rest → s.geo.mode = .run →
    (f.payload.length ≠ 1 → exec .clearIncident s = .next (s.answered f rest .badLength .none)) ∧
    (∀ h : Byte, f.payload = [h] →
      (16 ≤ h.toNat → exec .clearIncident s = .next (s.answered f rest .badValue .none)) ∧
      (h.toNat < 16 → s.incidents.look h.toNat = none →
        exec .clearIncident s = .next (s.answered f rest .notFound .none)) ∧
      (∀ r, h.toNat < 16 → s.incidents.look h.toNat = some r →
        ∃ t, exec .clearIncident s = .next t ∧ t.incidents.look h.toNat = none ∧
          (∀ k, k ≠ h.toNat → t.incidents.look k = s.incidents.look k) ∧
          t = State.trigger (State.raise (.incidentEvent .cleared h.toNat r none)
            { s.answered f rest .ok .none with incidents := t.incidents })))

/-- R119, R122: CONFIRM_INCIDENT turns a DETECTION record into a SUPERVISOR record without anchor and expiry and
keeps its other fields, raises one INCIDENT_EVENT and triggers a pass. In order: a payload of the wrong length is
BAD_LENGTH (R26), a handle outside 0 to 15 BAD_VALUE, a free slot NOT_FOUND, a SUPERVISOR record a CONFLICT, and with 12
SUPERVISOR records present the table is full. -/
def Obligations.ConfirmIncidentTakesOver : Prop :=
  ∀ (s : State) (f : Frame) (rest : List Frame), s.takes 0x0B#8 f rest → s.geo.mode = .run →
    (f.payload.length ≠ 1 → exec .confirmIncident s = .next (s.answered f rest .badLength .none)) ∧
    (∀ h : Byte, f.payload = [h] →
      (16 ≤ h.toNat → exec .confirmIncident s = .next (s.answered f rest .badValue .none)) ∧
      (h.toNat < 16 → s.incidents.look h.toNat = none →
        exec .confirmIncident s = .next (s.answered f rest .notFound .none)) ∧
      (∀ r : Incident, h.toNat < 16 → s.incidents.look h.toNat = some r →
        (r.origin = .supervisor → exec .confirmIncident s = .next (s.answered f rest .conflict .none)) ∧
        (r.origin = .detection → 12 ≤ s.supervisorCount →
          exec .confirmIncident s = .next (s.answered f rest .tableFull .none)) ∧
        (r.origin = .detection → s.supervisorCount < 12 →
          ∃ t, exec .confirmIncident s = .next t ∧
            (let r' : Incident := { r with origin := .supervisor, anchor := none, expiry := none }
             t.incidents.look h.toNat = some r' ∧ (∀ k, k ≠ h.toNat → t.incidents.look k = s.incidents.look k) ∧
             t = State.trigger (State.raise (.incidentEvent .confirmed h.toNat r' none)
               { s.answered f rest .ok .none with incidents := t.incidents })))))

/-- R121, R122: a DETECTION record whose expiry has run down to 0 in RUN is freed with one INCIDENT_EVENT and a
trigger; one with time left, and one of SUPERVISOR origin, stays. -/
def Obligations.DetectionRecordExpires : Prop :=
  ∀ (s : State) (h : Nat) (r : Incident), s.resetHigh = true → s.geo.mode = .run → s.incidents.look h = some r →
    (r.origin = .detection → r.expiry = some 0 →
      ∃ t, exec (.incidentExpiry h) s = .next t ∧ t.incidents.look h = none ∧
        (∀ k, k ≠ h → t.incidents.look k = s.incidents.look k) ∧
        t = State.trigger (State.raise (.incidentEvent .expired h r none) { s with incidents := t.incidents })) ∧
    (r.origin = .supervisor ∨ r.expiry ≠ some 0 → exec (.incidentExpiry h) s = .next s)

/-- R131, R132: PLACE_DEMAND carries a gantry, a kind and the fields of that kind: a lane set and an aspect for CELL, a
speed for SPEED, a legend code for LEGEND. In order: a payload that does not fit the kind is BAD_LENGTH; a gantry
outside 1 to 32, a kind that is none of the three, a CELL aspect other than CLOSED and the two DIVERTs, a lane set that
is empty or names a position above 5, and a legend outside 1 to 63 are BAD_VALUE; a speed is rounded and clamped to 20
to 130; a gantry that is not defined is NOT_FOUND; a CELL lane set that names a position the gantry lacks is BAD_VALUE;
a table of 48 entries is TABLE_FULL, whatever the kind. A request that passes stores the entry in the lowest free slot,
triggers a pass and raises no notice; the reply names the handle, and the speed where it was changed. The payload
without presence bytes, the kind codes CELL 0, SPEED 1, LEGEND 2, and the lengths that are judged under an unknown kind
are the model's (log 12, 13, 14). -/
def Obligations.PlaceDemandTakesLowestSlot : Prop :=
  ∀ (s : State) (f : Frame) (rest : List Frame), s.takes 0x0C#8 f rest → s.geo.mode = .run →
    (f.payload.length < 2 → exec .placeDemand s = .next (s.answered f rest .badLength .none)) ∧
    ∀ (g k : Byte) (more : List Byte), f.payload = g :: k :: more →
      let fits : Prop := k = 0#8 ∧ more.length = 2 ∨ (k = 1#8 ∨ k = 2#8) ∧ more.length = 1 ∨
        3 ≤ k.toNat ∧ (more.length = 1 ∨ more.length = 2)
      let bad : Prop := g.toNat = 0 ∨ 32 < g.toNat ∨ 3 ≤ k.toNat ∨
        (∃ ls a, k = 0#8 ∧ more = [ls, a] ∧ (ls.toNat = 0 ∨ 64 ≤ ls.toNat ∨ a.toNat = 0 ∨ 3 < a.toNat)) ∨
        ∃ n, k = 2#8 ∧ more = [n] ∧ (n.toNat = 0 ∨ 63 < n.toNat)
      let stored (v : Nat) : Nat := max 20 (min 130 (v / 10 * 10))
      let asks : DemandWhat → Prop := fun what =>
        (∃ ls a c, k = 0#8 ∧ more = [ls, a] ∧ what = .cell (ls.setWidth 6) c ∧
          (a, c) ∈ [(1#8, Cell.closed), (2#8, .divert .near), (3#8, .divert .off)]) ∨
        (∃ v, k = 1#8 ∧ more = [v] ∧ what = .speed (stored v.toNat)) ∨
        ∃ n, k = 2#8 ∧ more = [n] ∧ what = .legend n.toNat
      let changed : Prop := ∃ v, k = 1#8 ∧ more = [v] ∧ stored v.toNat ≠ v.toNat
      (¬fits → exec .placeDemand s = .next (s.answered f rest .badLength .none)) ∧
      (fits → bad → exec .placeDemand s = .next (s.answered f rest .badValue .none)) ∧
      (fits → ¬bad → ∃ what, asks what ∧
        (s.geo.gantries.look g.toNat = none → exec .placeDemand s = .next (s.answered f rest .notFound .none)) ∧
        (∀ r, s.geo.gantries.look g.toNat = some r →
          let lacks : Prop := ∃ ls c q, what = .cell ls c ∧ q < 6 ∧ ls.getLsbD q = true ∧ r.lanes.getLsbD q = false
          (lacks → exec .placeDemand s = .next (s.answered f rest .badValue .none)) ∧
          (¬lacks → (∀ h, h < 48 → s.plan.demands.look h ≠ none) →
            exec .placeDemand s = .next (s.answered f rest .tableFull .none)) ∧
          (∀ h, ¬lacks → h < 48 → s.plan.demands.look h = none → (∀ j, j < h → s.plan.demands.look j ≠ none) →
            ∃ t res d, exec .placeDemand s = .next t ∧
              (¬changed ∧ res = .ok ∧ d = .handle h ∨
                changed ∧ res = .okClamped ∧ ∃ w, what = .speed w ∧ d = .handleSpeed h w) ∧
              t.plan.demands.look h = some ⟨g.toNat, what⟩ ∧
              (∀ j, j ≠ h → t.plan.demands.look j = s.plan.demands.look j) ∧
              t = State.trigger
                { s.answered f rest res d with plan := { s.plan with demands := t.plan.demands } })))

/-- R133: WITHDRAW_DEMAND is refused in SETUP with WRONG_MODE; a payload of the wrong length gives BAD_LENGTH, a
handle outside 0 to 47 BAD_VALUE, a free slot NOT_FOUND; otherwise the entry is removed and its slot free at
once, the reply is OK and a pass is triggered, and nothing else changes (so no notice is raised); a later
PLACE_DEMAND may be given the same handle. -/
def Obligations.WithdrawDemandFreesSlot : Prop :=
  ∀ (s : State) (f : Frame) (rest : List Frame), s.takes 0x0D#8 f rest →
    (s.geo.mode = .setup → exec .withdrawDemand s = .next (s.answered f rest .wrongMode .none)) ∧
    (s.geo.mode = .run → f.payload.length ≠ 1 →
      exec .withdrawDemand s = .next (s.answered f rest .badLength .none)) ∧
    (∀ h : Byte, s.geo.mode = .run → f.payload = [h] →
      (48 ≤ h.toNat → exec .withdrawDemand s = .next (s.answered f rest .badValue .none)) ∧
      (h.toNat < 48 → s.plan.demands.look h.toNat = none →
        exec .withdrawDemand s = .next (s.answered f rest .notFound .none)) ∧
      (h.toNat < 48 → s.plan.demands.look h.toNat ≠ none →
        ∃ t, exec .withdrawDemand s = .next t ∧ t.plan.demands.look h.toNat = none ∧
          (∀ k, k ≠ h.toNat → t.plan.demands.look k = s.plan.demands.look k) ∧
          t = State.trigger
            { s.answered f rest .ok .none with plan := { s.plan with demands := t.plan.demands } } ∧
          ((∀ k, k < h.toNat → s.plan.demands.look k ≠ none) →
            Table.lowestFree t.plan.demands 48 = some h.toNat)))

/-- R128, R129: SHOULDER of a wrong length is BAD_LENGTH; a section outside 1 to 4 or a state that is neither is
BAD_VALUE; a section that no gantry names is NOT_FOUND; OPEN is a CONFLICT exactly where a LANE_CLOSURE whose lanes hold
position 0, or a CARRIAGEWAY_CLOSURE, covers a gantry of the section. A request that passes sets the state of that
section and triggers a pass where it differs, and changes nothing else. (The gantries stand in rising number: O5 keeps
that.) That OPEN is 0 and CLOSED 1 is the model's reading of R129's order (log 12). -/
def Obligations.ShoulderChangesSection : Prop :=
  ∀ (s : State) (f : Frame) (rest : List Frame), s.takes 0x0E#8 f rest → s.geo.mode = .run →
    s.geo.gantries.rising = true →
    let inSection (n g : Nat) : Prop := ∃ q, s.geo.gantries.look g = some q ∧ q.sec = n
    let closed (n : Nat) : Prop := ∃ g h r, inSection n g ∧ (h, r) ∈ s.incidents ∧ r.covers s.geo.gantries g ∧
      (r.kind = .carriagewayClosure ∨ r.kind = .laneClosure ∧ ∃ ls, r.lanes = some ls ∧ ls.getLsbD 0 = true)
    (f.payload.length ≠ 2 → exec .shoulder s = .next (s.answered f rest .badLength .none)) ∧
    (∀ n w, f.payload = [n, w] →
      (n.toNat = 0 ∨ 4 < n.toNat ∨ 1 < w.toNat → exec .shoulder s = .next (s.answered f rest .badValue .none)) ∧
      (1 ≤ n.toNat → n.toNat ≤ 4 → w.toNat ≤ 1 → (¬∃ g, inSection n.toNat g) →
        exec .shoulder s = .next (s.answered f rest .notFound .none)) ∧
      (1 ≤ n.toNat → n.toNat ≤ 4 → (∃ g, inSection n.toNat g) →
        (w = 0#8 → closed n.toNat → exec .shoulder s = .next (s.answered f rest .conflict .none)) ∧
        (∀ want, w = 0#8 ∧ want = .opened ∧ ¬closed n.toNat ∨ w = 1#8 ∧ want = .closed →
          (s.sections.look n.toNat = some want → exec .shoulder s = .next (s.answered f rest .ok .none)) ∧
          (s.sections.look n.toNat ≠ some want →
            ∃ t, exec .shoulder s = .next t ∧ t.sections.look n.toNat = some want ∧
              (∀ k, k ≠ n.toNat → t.sections.look k = s.sections.look k) ∧
              t = State.trigger { s.answered f rest .ok .none with sections := t.sections }))))

/-! ### Service, station reset, luminance, reads -/

/-- R54, R55, R56, R64: GANTRY_SERVICE OUT takes the gantry out of service: its node DISABLED, every entry for it gone
from its line, its timers stopped, its telegram in flight discarded; R160: no SHOW of it is pending or in flight and its
confirmed record is unknown; R90: the station hosted there by an ONLINE node gets its node condition, every lane IDLE,
excluded and with reason NODE. IN of a DISABLED node enters DESCRIBING with a DESCRIBE at the tail of SERVICE and an
unknown commanded record. R65: each of the two raises its NODE_EVENT. R155, R156: an OUT that makes known confirmed
entries unknown raises one DISPLAY_CHANGE with cause NODE, before or after it (the order is free, log 10). R72: a node
that leaves ONLINE triggers one pass, and so does an IN that clears a confirm-failed mark (R70); else none is triggered.
A request for the state held changes nothing. A payload of the wrong length is BAD_LENGTH, a gantry outside 1 to 32 or a
value that is neither BAD_VALUE, an undefined gantry NOT_FOUND. That IN is 0 and OUT 1 is the model's reading of R1's
order (log 12). -/
def Obligations.GantryServiceMovesNode : Prop :=
  (∀ (s : State) (f : Frame) (rest : List Frame) (g : Byte) (r : GantryRec) (n : NodeRec), s.takes 0x0F#8 f rest →
    s.geo.mode = .run → 1 ≤ g.toNat → g.toNat ≤ 32 → s.geo.gantries.look g.toNat = some r →
    s.nodes.look g.toNat = some n →
    let triggers : State → Prop := fun t =>
      (s.plan.running = none → t.plan = { s.plan with running := some t.snapshot }) ∧
      (∀ m, s.plan.running = some m → t.plan = { s.plan with again := true })
    (f.payload = [g, 1#8] → n.state ≠ .disabled →
      ∃ t, exec .gantryService s = .next t ∧
        t.geo.gantries.look g.toNat = some { r with service := .out } ∧
        t.nodes.look g.toNat = some
          { n with state := .disabled, reason := .serviceOut, since := s.clock, step := none, mismatch := none,
                   retry := none } ∧
        (∀ k, k ≠ g.toNat → t.nodes.look k = s.nodes.look k) ∧
        (∀ c, ∀ e ∈ (t.line r.line).queues.look c, e.gantry ≠ g.toNat) ∧
        (t.line r.line).held.look g.toNat = none ∧ (t.line r.line).polls.look g.toNat = none ∧
        (∀ x, (t.line r.line).flight = some x → x.gantry = g.toNat → x.discarded = true) ∧
        (∀ q, s.rollout.look g.toNat = some q → ∃ q', t.rollout.look g.toNat = some q' ∧ q'.pending = none ∧
          q'.inFlight = false ∧ (∀ a ∈ q'.confirmed, a = none) ∧ q'.commanded = q.commanded) ∧
        (n.state = .online → ∀ st sr en, s.hosted g.toNat = some (st, sr) → s.measure.stations.look st = some en →
          t.measure.stations.look st = some ⟨true, en.lanes.map fun kv =>
            (kv.1, { kv.2 with machine := .idle, excluded := true, seen := { kv.2.seen with node := true } })⟩ ∧
          ∀ k, k ≠ st → t.measure.stations.look k = s.measure.stations.look k) ∧
        (n.state ≠ .online ∨ s.hosted g.toNat = none → t.measure = s.measure) ∧
        (s.link.notices.length ≤ 30 →
          ⟨s.clock, .nodeEvent g.toNat r.line r.address n.state .disabled .serviceOut none⟩ ∈ t.link.notices) ∧
        (let e : Notice := ⟨s.clock, .nodeEvent g.toNat r.line r.address n.state .disabled .serviceOut none⟩
         ∀ q, s.link.notices.length ≤ 30 → s.rollout.look g.toNat = some q →
          ((∀ a ∈ q.confirmed, a = none) → t.link.notices = s.link.notices ++ [e]) ∧
          ((∃ a ∈ q.confirmed, a ≠ none) → ∃ chs : List SignChange,
            (let d : Notice := ⟨s.clock, .displayChange g.toNat .node chs⟩
             t.link.notices = s.link.notices ++ [e, d] ∨ t.link.notices = s.link.notices ++ [d, e]) ∧
            ∀ (i : Nat) (b c : Option Aspect), q.confirmed[i]? = some b → q.commanded[i]? = some c →
              chs[i]? = some ⟨none, c, decide (b ≠ none)⟩)) ∧
        (n.state = .online → triggers t) ∧ (n.state ≠ .online → t.plan = s.plan) ∧
        (∀ l, l ≠ r.line → t.line l = s.line l) ∧ t.clock = s.clock ∧ t.incidents = s.incidents ∧
        t.sections = s.sections ∧ t.traffic = s.traffic ∧ t.geo.params = s.geo.params ∧
        t.plan.targets = s.plan.targets ∧ t.plan.demands = s.plan.demands ∧
        t.link.replySlot = some ⟨f.typ ||| 0x80#8, f.tag, .ok, .none⟩) ∧
    (f.payload = [g, 0#8] → n.state = .disabled →
      ∃ t, exec .gantryService s = .next t ∧
        t.geo.gantries.look g.toNat = some { r with service := .inService } ∧
        (∃ n', t.nodes.look g.toNat = some n' ∧ n'.state = .describing ∧ n'.reason = .serviceIn ∧
          n'.step = some .describe ∧ n'.since = s.clock ∧
          n'.signs = n.signs.map fun y => { y with confirmFailed := false }) ∧
        ((∃ y ∈ n.signs, y.confirmFailed = true) → triggers t) ∧
        ((∀ y ∈ n.signs, y.confirmFailed = false) → t.plan = s.plan) ∧
        (∀ k, k ≠ g.toNat → t.nodes.look k = s.nodes.look k) ∧
        (t.line r.line).queues.service.getLast? = some ⟨g.toNat, .describe, .registry, false⟩ ∧
        (∀ q, s.rollout.look g.toNat = some q → ∃ q', t.rollout.look g.toNat = some q' ∧
          (∀ a ∈ q'.commanded, a = none) ∧ (∀ a ∈ q'.failed, a = none) ∧ q'.confirmed = q.confirmed) ∧
        (s.link.notices.length ≤ 31 →
          ⟨s.clock, .nodeEvent g.toNat r.line r.address .disabled .describing .serviceIn none⟩ ∈ t.link.notices) ∧
        (∀ l, l ≠ r.line → t.line l = s.line l) ∧ t.clock = s.clock ∧ t.incidents = s.incidents ∧
        t.sections = s.sections ∧ t.traffic = s.traffic ∧ t.geo.params = s.geo.params) ∧
    (f.payload = [g, 1#8] ∧ n.state = .disabled ∨ f.payload = [g, 0#8] ∧ n.state ≠ .disabled →
      exec .gantryService s = .next (s.answered f rest .ok .none))) ∧
  (∀ (s : State) (f : Frame) (rest : List Frame), s.takes 0x0F#8 f rest → s.geo.mode = .run →
    (f.payload.length ≠ 2 → exec .gantryService s = .next (s.answered f rest .badLength .none)) ∧
    (∀ g v : Byte, f.payload = [g, v] →
      (g.toNat = 0 ∨ 32 < g.toNat ∨ 1 < v.toNat → exec .gantryService s = .next (s.answered f rest .badValue .none)) ∧
      (1 ≤ g.toNat → g.toNat ≤ 32 → v.toNat ≤ 1 → s.geo.gantries.look g.toNat = none →
        exec .gantryService s = .next (s.answered f rest .notFound .none))))

/-- R109: STATION_RESET sets S, Q, level, queue, their counts and the invalid-close count of one station to the
values START gives them and leaves all else, validity, V, F and window included; it raises no notice and
triggers no pass; a payload of the wrong length is BAD_LENGTH, a number outside 1 to 24 BAD_VALUE, an undefined station
NOT_FOUND. -/
def Obligations.StationResetRestartsFilters : Prop :=
  ∀ (s : State) (f : Frame) (rest : List Frame), s.takes 0x10#8 f rest → s.geo.mode = .run →
    (f.payload.length ≠ 1 → exec .stationReset s = .next (s.answered f rest .badLength .none)) ∧
    ∀ n : Byte, f.payload = [n] →
    (n.toNat = 0 ∨ 24 < n.toNat → exec .stationReset s = .next (s.answered f rest .badValue .none)) ∧
    (1 ≤ n.toNat → n.toNat ≤ 24 → s.geo.stations.look n.toNat = none →
      exec .stationReset s = .next (s.answered f rest .notFound .none)) ∧
    (∀ r x, 1 ≤ n.toNat → n.toNat ≤ 24 → s.geo.stations.look n.toNat = some r → s.traffic.look n.toNat = some x →
      ∃ t, exec .stationReset s = .next t ∧
        t.traffic.look n.toNat = some
          { x with s := 16 * s.geo.params.measure.freeSpeed, q := 0, level := .clear, levelCount := 0,
                   queueOn := false, queueCount := 0, invalidCloses := 0 } ∧
        (∀ k, k ≠ n.toNat → t.traffic.look k = s.traffic.look k) ∧
        { t with traffic := s.traffic } = s.answered f rest .ok .none)

/-- R48: LUMINANCE stores the level in both line controllers and queues one LUMEN with it on each line, where a
waiting one keeps its place and takes the level; a level outside 1 to 8 is BAD_VALUE, and a
payload of the wrong length BAD_LENGTH (R26). -/
def Obligations.LuminanceReachesBothLines : Prop :=
  ∀ (s : State) (f : Frame) (rest : List Frame), s.takes 0x11#8 f rest → s.geo.mode = .run →
    (f.payload.length ≠ 1 → exec .luminance s = .next (s.answered f rest .badLength .none)) ∧
    ∀ n : Byte, f.payload = [n] →
    (1 ≤ n.toNat → n.toNat ≤ 8 →
      ∃ t, exec .luminance s = .next t ∧ { t with lineA := s.lineA, lineB := s.lineB } = s.answered f rest .ok .none ∧
        ∀ l, (t.line l).level = n.toNat ∧
          { t.line l with level := (s.line l).level,
                          queues := { (t.line l).queues with lumen := (s.line l).queues.lumen } } = s.line l ∧
          ((s.line l).queues.lumen = [] → (t.line l).queues.lumen = [⟨0, .lumen n.toNat, .line, false⟩]) ∧
          (∀ e es, (s.line l).queues.lumen = e :: es →
            (t.line l).queues.lumen = { e with job := .lumen n.toNat } :: es)) ∧
    (n.toNat = 0 ∨ 8 < n.toNat → exec .luminance s = .next (s.answered f rest .badValue .none))

/-- R113, R130, R168: READ_GANTRY, READ_STATION and READ_INCIDENTS answer from the state held and change nothing.
READ_GANTRY shows a held confirmation STATE with the time that remains, and as queued once it stands in CONFIRM (with
neither, as absent: log 38). READ_STATION lists the demands the station places under its present state at its home
gantry and, its queue ON, over the present reach entries (R105, R107), and for each lane its present status and fault
reasons (R87) and whether it was included at the last close (the mark of log 26). That the speed and the legend of one
source at one gantry are one entry, the congestion demand and each reach entry apart, is the model's choice (log 39);
that a lane entry names its position and the entries stand in ascending position is its reading (log 18). READ_INCIDENTS
counts the records of SUPERVISOR origin and shows the state of each section that exists. In each a payload of the wrong
length is BAD_LENGTH; a gantry outside 1 to 32 and a station outside 1 to 24 are BAD_VALUE, an undefined one NOT_FOUND.
-/
def Obligations.ReadsChangeNothing : Prop :=
  ∀ (s : State) (f : Frame) (rest : List Frame), s.geo.mode = .run →
    (∀ (g : Byte) (r : GantryRec), s.takes 0x12#8 f rest → f.payload = [g] → 1 ≤ g.toNat → g.toNat ≤ 32 →
      s.geo.gantries.look g.toNat = some r →
      ∃ rep, exec .readGantry s = .next (s.answered f rest .ok (.gantry rep)) ∧
        rep.nodeState = (s.nodes.look g.toNat).map (·.state) ∧ rep.target = s.plan.targets.look g.toNat ∧
        rep.rollout = s.rollout.look g.toNat ∧
        (∀ ms, (s.line r.line).held.look g.toNat = some ms → rep.due = .remaining ms) ∧
        ((s.line r.line).held.look g.toNat = none →
          ((∃ e ∈ (s.line r.line).queues.confirm, e.gantry = g.toNat) → rep.due = .queued) ∧
          ((∀ e ∈ (s.line r.line).queues.confirm, e.gantry ≠ g.toNat) → rep.due = .absent)) ∧
        (∀ kv, kv ∈ rep.demands ↔ kv ∈ s.plan.demands ∧ kv.2.gantry = g.toNat)) ∧
    (∀ (n : Byte) (r : StationRec) (x : StationState), s.takes 0x13#8 f rest → f.payload = [n] → 1 ≤ n.toNat →
      n.toNat ≤ 24 → s.geo.stations.look n.toNat = some r → s.traffic.look n.toNat = some x →
      ∃ rep, exec .readStation s = .next (s.answered f rest .ok (.station rep)) ∧ rep.station = n.toNat ∧
        rep.host = r.host ∧ rep.home = s.geo.home.look n.toNat ∧
        { rep.state with window := x.window } = x ∧
        rep.state.window = x.window.filter
          (fun e => decide ((s.clock - e.clock).toNat < s.geo.params.wrongway.window * 1000)) ∧
        (∀ d, d ∈ rep.demands ↔ ∃ h, s.geo.home.look n.toNat = some h ∧
          ((d.gantry = h ∧ (∃ l, s.geo.params.congestion.level x.level = some l ∧ d.speed = l.speed) ∧
              d.legend = if x.level = .l1 then none else some 6) ∨
            x.queueOn = true ∧ ∃ j, s.geo.params.queue.reaches h d.gantry j ∧ d.speed = s.geo.params.queue.entry j ∧
              d.legend = some 5)) ∧
        (∀ en, s.measure.stations.look n.toNat = some en → rep.lanes.length = en.lanes.length ∧
          ∀ (i p : Nat) (y : LaneRec), en.lanes[i]? = some (p, y) → ∃ z, rep.lanes[i]? = some z ∧ z.lane = p ∧
            z.reasons = ⟨y.loopA.stuck || y.loopB.stuck, y.silent, en.nodeCond⟩ ∧
            z.status = (if z.reasons ≠ ⟨false, false, false⟩ then .faulty else if y.suspect then .suspect else .valid) ∧
            z.included = y.lastIncluded)) ∧
    (s.takes 0x14#8 f rest → f.payload = [] →
      ∃ secs, exec .readIncidents s = .next
        (s.answered f rest .ok (.incidents (s.incidents.filter fun kv => kv.2.origin == .supervisor).length
          s.incidents secs)) ∧
        secs.length = 4 ∧
        (∀ i, i < 4 → secs[i]? = some (if s.sectionExists (i + 1) then s.sections.look (i + 1) else none))) ∧
    (s.takes 0x12#8 f rest →
      (f.payload.length ≠ 1 → exec .readGantry s = .next (s.answered f rest .badLength .none)) ∧
      ∀ g : Byte, f.payload = [g] →
        (g.toNat = 0 ∨ 32 < g.toNat → exec .readGantry s = .next (s.answered f rest .badValue .none)) ∧
        (1 ≤ g.toNat → g.toNat ≤ 32 → s.geo.gantries.look g.toNat = none →
          exec .readGantry s = .next (s.answered f rest .notFound .none))) ∧
    (s.takes 0x13#8 f rest →
      (f.payload.length ≠ 1 → exec .readStation s = .next (s.answered f rest .badLength .none)) ∧
      ∀ n : Byte, f.payload = [n] →
        (n.toNat = 0 ∨ 24 < n.toNat → exec .readStation s = .next (s.answered f rest .badValue .none)) ∧
        (1 ≤ n.toNat → n.toNat ≤ 24 → s.geo.stations.look n.toNat = none →
          exec .readStation s = .next (s.answered f rest .notFound .none))) ∧
    (s.takes 0x14#8 f rest → f.payload ≠ [] →
      exec .readIncidents s = .next (s.answered f rest .badLength .none))

/-- R73: READ_NODE answers with the service state, the node record and the kinds of the signs, and clears the
degraded marks of that gantry's signs alone; a payload of the wrong length is BAD_LENGTH, a number outside 1 to 32
BAD_VALUE, an undefined gantry NOT_FOUND. -/
def Obligations.ReadNodeClearsDegradedMarks : Prop :=
  ∀ (s : State) (f : Frame) (rest : List Frame), s.takes 0x15#8 f rest → s.geo.mode = .run →
    (f.payload.length ≠ 1 → exec .readNode s = .next (s.answered f rest .badLength .none)) ∧
    (∀ g : Byte, f.payload = [g] →
      (g.toNat = 0 ∨ 32 < g.toNat → exec .readNode s = .next (s.answered f rest .badValue .none)) ∧
      (1 ≤ g.toNat → g.toNat ≤ 32 → s.geo.gantries.look g.toNat = none →
        exec .readNode s = .next (s.answered f rest .notFound .none)) ∧
      (∀ (r : GantryRec) (n : NodeRec), 1 ≤ g.toNat → g.toNat ≤ 32 → s.geo.gantries.look g.toNat = some r →
        s.nodes.look g.toNat = some n →
        ∃ t, exec .readNode s = .next t ∧
          t.nodes.look g.toNat = some { n with signs := n.signs.map fun x => { x with degradedMark := false } } ∧
          (∀ k, k ≠ g.toNat → t.nodes.look k = s.nodes.look k) ∧
          { t with nodes := s.nodes } = s.answered f rest .ok (.node ⟨g.toNat, r.service, n, r.kinds⟩)))

/-- R173: READ_FAULTS, in either mode, answers with the bank as it stands and clears it alone; a wrong length is
BAD_LENGTH and a code that names no bank BAD_VALUE; an error that comes next is held with overflow no. R169, R174: the
bytes of the reply are the bank and its record in the order of the field table of R169: valid, overflow, severity, code,
gantry, station, clock. That each of the last five, which stand while valid is yes, is sent behind a presence byte is
the model's reading (log 18), and so is 0 for no and 1 for yes (log 11). -/
def Obligations.ReadFaultsClearsOneBank : Prop :=
  (∀ (s : State) (f : Frame) (rest : List Frame), s.takes 0x16#8 f rest →
    (f.payload.length ≠ 1 → exec .readFaults s = .next (s.answered f rest .badLength .none)) ∧
    (∀ b, f.payload = [b] → 4 < b.toNat → exec .readFaults s = .next (s.answered f rest .badValue .none)) ∧
    (∀ b id, f.payload = [b] →
      ((b, id) ∈ [(0#8, BankId.link), (1#8, .lineA), (2#8, .lineB), (3#8, .measure), (4#8, .plan)]) →
      ∃ t, exec .readFaults s = .next t ∧ t.banks.look id = ⟨none, false⟩ ∧
        (∀ id', id' ≠ id → t.banks.look id' = s.banks.look id') ∧
        { t with banks := s.banks } = s.answered f rest .ok (.bank id (s.banks.look id)) ∧
        (∀ code sev g st, t.link.notices.length < 32 →
          (t.record id code sev g st).banks.look id = ⟨some ⟨sev, code, g, st, s.clock⟩, false⟩))) ∧
  (∀ (id : BankId) (more : Bool), (Detail.bank id ⟨none, more⟩).bytes =
    [BitVec.ofNat 8 id.code, 0#8, if more then 1#8 else 0#8, 0#8, 0#8, 0#8, 0#8, 0#8]) ∧
  (∀ (id : BankId) (more : Bool) (e : ErrorRec), (Detail.bank id ⟨some e, more⟩).bytes =
    let field (o : Option Nat) : List Byte := match o with | none => [0#8] | some n => [1#8, BitVec.ofNat 8 n]
    [BitVec.ofNat 8 id.code, 1#8, if more then 1#8 else 0#8] ++
      [1#8, match e.severity with | .warn => 0#8 | .fault => 1#8] ++ [1#8, BitVec.ofNat 8 e.code.value] ++
      field e.gantry ++ field e.station ++
      [1#8, e.clock.extractLsb' 24 8, e.clock.extractLsb' 16 8, e.clock.extractLsb' 8 8, e.clock.extractLsb' 0 8])

/-! ### Gantry lines -/

/-- R36, R50, R153: on a FREE line in RUN the arbiter takes the oldest eligible entry of the first class that holds one:
an entry is eligible unless it is a SHOW whose gate is HELD, or its node is SUSPECT and it has no retry mark. Its
telegram is in flight with the engine SENDING, and a SHOW stops being pending; with no eligible entry nothing changes.
R35, R176: the bytes sent are ADDRESS, FUNCTION, LENGTH, the payload and the CRC-8 over them all: a STATE, a TRACE and a
DESCRIBE have no payload, a SHOW the index and the aspect code of every sign in index order (R44), a CAPS its sign index
(R47), and a LUMEN, which is of no gantry and goes to address 0 as a broadcast, its level (R48). -/
def Obligations.ArbiterTakesFirstEligible : Prop :=
  ∀ (s : State) (l : Line), s.resetHigh = true → s.geo.mode = .run → (s.line l).engine = .free →
  let eligible (e : Entry) : Prop :=
    ¬(e.job = .display ∧ ∃ r, s.rollout.look e.gantry = some r ∧ r.gateHeld = true) ∧
    ¬(e.retry = false ∧ ∃ n, s.nodes.look e.gantry = some n ∧ n.state = .suspect)
  let bytes (address function : Byte) (payload : List Byte) : List Byte :=
    let head := [address, function, BitVec.ofNat 8 payload.length] ++ payload
    head ++ [crc8 head]
  ((∀ c, ∀ e ∈ (s.line l).queues.look c, ¬eligible e) → exec (.telegramStart l) s = .next s) ∧
  ∀ (before after : List Machine.Class) (c : Machine.Class) (ahead behind : List Entry) (e : Entry),
    before ++ c :: after = [.urgentShow, .confirm, .trace, .normalShow, .service, .lumen] →
    (∀ c' ∈ before, ∀ x ∈ (s.line l).queues.look c', ¬eligible x) →
    (s.line l).queues.look c = ahead ++ e :: behind → (∀ x ∈ ahead, ¬eligible x) → eligible e →
    ∃ t x, exec (.telegramStart l) s = .next t ∧ (t.line l).engine = .sending ∧ (t.line l).flight = some x ∧
      x.gantry = e.gantry ∧ x.job = e.job ∧ x.retry = e.retry ∧ x.discarded = false ∧
      (t.line l).queues.look c = ahead ++ behind ∧
      (∀ c', c' ≠ c → (t.line l).queues.look c' = (s.line l).queues.look c') ∧
      (∀ l', l' ≠ l → t.line l' = s.line l') ∧
      { t with lineA := s.lineA, lineB := s.lineB, rollout := s.rollout } = s ∧
      (∀ o r, e.job = .state o → s.geo.gantries.look e.gantry = some r →
        x.request = [BitVec.ofNat 8 r.address, 2#8, 0#8, crc8 [BitVec.ofNat 8 r.address, 2#8, 0#8]]) ∧
      (∀ r, e.job = .trace → s.geo.gantries.look e.gantry = some r →
        x.request = [BitVec.ofNat 8 r.address, 3#8, 0#8, crc8 [BitVec.ofNat 8 r.address, 3#8, 0#8]]) ∧
      (∀ r, s.geo.gantries.look e.gantry = some r →
        (e.job = .describe → x.request = bytes (BitVec.ofNat 8 r.address) 4#8 []) ∧
        (∀ i, e.job = .caps i → x.request = bytes (BitVec.ofNat 8 r.address) 5#8 [BitVec.ofNat 8 i]) ∧
        (∀ k p, e.job = .display → s.rollout.look e.gantry = some k → k.pending = some p →
          x.request = bytes (BitVec.ofNat 8 r.address) 1#8
            (p.body.contents.zipIdx.flatMap fun y => [BitVec.ofNat 8 y.2, y.1.code]))) ∧
      (∀ n, e.job = .lumen n → s.geo.gantries.look e.gantry = none → x.request = bytes 0#8 6#8 [BitVec.ofNat 8 n]) ∧
      (e.job ≠ .display → t.rollout = s.rollout) ∧
      (e.job = .display → ∀ r p, s.rollout.look e.gantry = some r → r.pending = some p →
        x.body = some p.body ∧
        t.rollout.look e.gantry = some
          { r with pending := none, gateHeld := false, gateTimer := none, gateExpired := false, inFlight := true } ∧
        ∀ k, k ≠ e.gantry → t.rollout.look k = s.rollout.look k)

/-- R34, R37 to R41: what a transcript says. Two unacknowledged ADDRESS slots are NO_NODE; four on one byte of FUNCTION,
LENGTH or payload, whatever the bytes before it took, are NACK_LIMIT; a missing ACK on CHECK is CORRUPT. A request whose
every byte is ACKed within its sendings is accepted: a SHOW is ACCEPTED, and for the others 20 ms without a start bit
are REPLY_TIMEOUT, and more than 3 ms of silence after a reply byte, intact or faulty, before the CHECK byte has come,
are REPLY_BROKEN. In a reply a faulty byte does not count, and its intact resend counts as the byte. A first byte that
is not the request's ADDRESS, a second that is not its FUNCTION with the top bit set, a LENGTH above 48 or not one of
the function's replies end CORRUPT at once, the reply not completed, whatever is sent behind it (log 6); a CHECK that is
not the CRC-8 of the bytes received, and contents that break a limit, end CORRUPT with the reply completed; a reply
whose length, CHECK and contents keep every limit is REPLIED with exactly those contents (R176). -/
def Obligations.TranscriptGivesOutcome : Prop :=
  ∀ (s : State) (l : Line) (f : Flight), (s.line l).flight = some f → (∀ n, f.job ≠ .lumen n) →
    4 ≤ f.request.length →
    let address := f.request.getD 0 0
    let function := f.request.getD 1 0 ||| 0x80#8
    let taken : Nat → List Slot → Prop := fun k sl => ackedWithin (2 :: List.replicate (k - 1) 4) sl
    (∀ a b reply idle, slotAnswer a ≠ .ack → slotAnswer b ≠ .ack →
      s.ending l ⟨[a, b], reply, idle⟩ = some (f, .failed .noNode false)) ∧
    (∀ k sl xs reply idle, 1 ≤ k → k ≤ f.request.length - 2 → taken k sl → xs.length = 4 →
      (∀ x ∈ xs, slotAnswer x ≠ .ack) → s.ending l ⟨sl ++ xs, reply, idle⟩ = some (f, .failed .nackLimit false)) ∧
    (∀ sl x reply idle, taken (f.request.length - 1) sl → slotAnswer x ≠ .ack →
      s.ending l ⟨sl ++ [x], reply, idle⟩ = some (f, .failed .corrupt false)) ∧
    (∀ sl x, taken (f.request.length - 1) sl → slotAnswer x = .ack →
      let ends : List LineChar → Nat → Ending → Prop := fun cs idle e => s.ending l ⟨sl ++ [x], cs, idle⟩ = some (f, e)
      (f.job = .display → ∀ reply idle, ends reply idle .accepted) ∧
      (f.job ≠ .display →
        (∀ idle, 20000 ≤ idle → ends [] idle (.failed .replyTimeout false)) ∧
        (∀ c cs idle, 20000 < c.gap → ends (c :: cs) idle (.failed .replyTimeout false)) ∧
        (∀ b cs rest idle, inTime true cs →
          (b ≠ address → brings [b] cs → ends (cs ++ rest) idle (.failed .corrupt false)) ∧
          (b ≠ function → brings [address, b] cs → ends (cs ++ rest) idle (.failed .corrupt false)) ∧
          (48 < b.toNat ∨ f.job.lengthOk b.toNat = false → brings [address, function, b] cs →
            ends (cs ++ rest) idle (.failed .corrupt false))) ∧
        (∀ p cs idle, p.length ≤ 48 → f.job.lengthOk p.length = true → inTime true cs →
          let head := [address, function, BitVec.ofNat 8 p.length] ++ p
          let content := decodeContent (s.kinds f.gantry) (s.hostedLanes f.gantry) p f.job
          (∀ k bad, k ≤ head.length → brings (head.take k) cs → bad.length ≤ 4 →
            (∀ y ∈ bad, LineChar.intact y = false) → inTime cs.isEmpty bad → cs ++ bad ≠ [] →
            (3000 < idle → ends (cs ++ bad) idle (.failed .replyBroken false)) ∧
            (∀ c rest, 3000 < c.gap → ends (cs ++ bad ++ c :: rest) idle (.failed .replyBroken false))) ∧
          (∀ check, check ≠ crc8 head → brings (head ++ [check]) cs → ends cs idle (.failed .corrupt true)) ∧
          (brings (head ++ [crc8 head]) cs →
            (content = none → ends cs idle (.failed .corrupt true)) ∧
            (∀ c, content = some c → ends cs idle (.replied c))))))

/-- R43, R52 to R54, R60: on each of the five failure outcomes (NO_NODE, NACK_LIMIT, CORRUPT, REPLY_TIMEOUT,
REPLY_BROKEN) of a telegram of an ONLINE node, whatever its function, the engine is QUIET, the node SUSPECT with the
failure as its reason, and the same telegram stands at the head of its class with the retry mark. The failure is
recorded WARN in the line's bank with its gantry, its FAULT notice first, and after it the NODE_SUSPECT of R65: an empty
bank holds the failure, a held record stays. R46: a TRACE that the node completed is an edge loss as well: every lane of
the station SUSPECT and IDLE, one BUFFER_OVERFLOW in MEASURE. R159: a failed SHOW is the pending SHOW again, with its
contents, kind and class and the retry mark, its gate evaluated afresh (O59), and its confirmation is abandoned (R160).
R45, R61: a CORRUPT STATE that an ONLINE or SUSPECT node completed is recorded and taken as a restart, not retried: the
node goes to DESCRIBING with a DESCRIBE at the tail of SERVICE, and NODE_RESTART takes the bank. -/
def Obligations.FailureQueuesRetry : Prop :=
  let reported : State → State → Line → Nat → Failure → Prop := fun s t l g w =>
    s.link.notices.length < 32 → t.link.notices[s.link.notices.length]? =
      some ⟨s.clock, .fault (lineBank l) w.error .warn (some g) none
        (if (s.banks.look (lineBank l)).held = none then .held else .notHeld) s.faultOutput⟩
  let warned : State → State → Line → Nat → Failure → Prop := fun s t l g w =>
    ((s.banks.look (lineBank l)).held = none →
      t.banks.look (lineBank l) = ⟨some ⟨.warn, w.error, some g, none, s.clock⟩, true⟩) ∧
    (∀ e, (s.banks.look (lineBank l)).held = some e → t.banks.look (lineBank l) = ⟨some e, true⟩)
  (∀ (s : State) (l : Line) (x : Transcript) (f : Flight) (w : Failure) (whole : Bool) (r : GantryRec) (n : NodeRec),
    s.resetHigh = true → s.ending l x = some (f, .failed w whole) → f.discarded = false →
    f.job ≠ .display → (whole = true → ∀ o, f.job ≠ .state o) →
    s.geo.gantries.look f.gantry = some r → r.line = l → s.nodes.look f.gantry = some n → n.state = .online →
    let loses : Prop := whole = true ∧ f.job = .trace
    ∃ t, exec (w.row l x) s = .next t ∧ (t.line l).engine = .quiet ∧ (t.line l).flight = none ∧
      (∃ n', t.nodes.look f.gantry = some n' ∧
        n' = { n with state := .suspect, reason := .failure w, since := s.clock, step := none, mismatch := none,
                      retry := none }) ∧
      (∀ k, k ≠ f.gantry → t.nodes.look k = s.nodes.look k) ∧
      ((t.line l).queues.look f.cls).head? = some ⟨f.gantry, f.job, .line, true⟩ ∧
      (∀ l', l' ≠ l → t.line l' = s.line l') ∧ (t.line l).level = (s.line l).level ∧
      reported s t l f.gantry w ∧ warned s t l f.gantry w ∧
      (s.link.notices.length ≤ 30 →
        ⟨s.clock, .nodeEvent f.gantry l r.address .online .suspect (.failure w) none⟩ ∈ t.link.notices) ∧
      (s.geo.mode = .run → t.plan.running ≠ none) ∧ t.clock = s.clock ∧ t.geo = s.geo ∧
      t.incidents = s.incidents ∧ t.sections = s.sections ∧ t.traffic = s.traffic ∧
      t.plan.targets = s.plan.targets ∧ t.plan.demands = s.plan.demands ∧
      (∀ st sr en, s.hosted f.gantry = some (st, sr) → s.measure.stations.look st = some en →
        t.measure.stations.look st = some ⟨true, en.lanes.map fun kv =>
          (kv.1, { kv.2 with machine := .idle, excluded := true, seen := { kv.2.seen with node := true },
                             suspect := kv.2.suspect || (whole && decide (f.job = .trace)) })⟩ ∧
        (∀ k, k ≠ st → t.measure.stations.look k = s.measure.stations.look k) ∧
        (loses → s.geo.stations.look st = some sr →
          (s.banks.measure.held = none →
            t.banks.measure = ⟨some ⟨.warn, .bufferOverflow, some sr.host, some st, s.clock⟩, false⟩) ∧
          (∀ e, s.banks.measure.held = some e → t.banks.measure = ⟨some e, true⟩))) ∧
      (¬loses → t.banks.measure = s.banks.measure)) ∧
  (∀ (s : State) (l : Line) (x : Transcript) (f : Flight) (w : Failure) (whole : Bool) (b : ShowBody) (r : GantryRec)
      (n : NodeRec) (q : RolloutRec), s.resetHigh = true → s.ending l x = some (f, .failed w whole) →
    f.discarded = false → f.job = .display → f.body = some b →
    s.geo.gantries.look f.gantry = some r → r.line = l → s.nodes.look f.gantry = some n → n.state = .online →
    s.rollout.look f.gantry = some q →
    ∃ t n' q', exec (w.row l x) s = .next t ∧ (t.line l).engine = .quiet ∧ (t.line l).flight = none ∧
      t.nodes.look f.gantry = some n' ∧ n'.state = .suspect ∧ n'.reason = .failure w ∧ n'.signs = n.signs ∧
      ((t.line l).queues.look b.cls.cls).head? = some ⟨f.gantry, .display, .line, true⟩ ∧
      t.rollout.look f.gantry = some q' ∧ q'.pending = some ⟨b, true⟩ ∧ q'.inFlight = false ∧ q'.gateExpired = false ∧
      q'.confirmation = .settled ∧ q'.polls = 0 ∧ q'.resends = 0 ∧ q'.commanded = q.commanded ∧
      q'.confirmed = q.confirmed ∧ q'.failed = q.failed ∧ (t.line l).held.look f.gantry = none ∧
      t.evalGate f.gantry = t ∧
      (∀ l', l' ≠ l → t.line l' = s.line l') ∧ reported s t l f.gantry w ∧ warned s t l f.gantry w ∧ t.clock = s.clock ∧
      t.geo = s.geo ∧ t.incidents = s.incidents ∧ t.sections = s.sections ∧ t.traffic = s.traffic ∧
      t.plan.targets = s.plan.targets ∧ t.plan.demands = s.plan.demands) ∧
  (∀ (s : State) (l : Line) (x : Transcript) (f : Flight) (o : StateOrigin) (r : GantryRec) (n : NodeRec)
      (q : RolloutRec), s.resetHigh = true → s.ending l x = some (f, .failed .corrupt true) →
    f.discarded = false → f.job = .state o →
    s.geo.gantries.look f.gantry = some r → r.line = l → s.nodes.look f.gantry = some n →
    (n.state = .online ∨ n.state = .suspect) → s.rollout.look f.gantry = some q →
    ∃ t n' q', exec (.corrupt l x) s = .next t ∧ (t.line l).engine = .quiet ∧ (t.line l).flight = none ∧
      t.nodes.look f.gantry = some n' ∧ n'.state = .describing ∧ n'.reason = .nodeRestart ∧
      n'.step = some .describe ∧ n'.since = s.clock ∧ (∀ y ∈ n'.signs, y.confirmFailed = false) ∧
      (∀ k, k ≠ f.gantry → t.nodes.look k = s.nodes.look k) ∧
      (t.line l).queues.service.getLast? = some ⟨f.gantry, .describe, .registry, false⟩ ∧
      (t.line l).polls.look f.gantry = none ∧ t.rollout.look f.gantry = some q' ∧ (∀ a ∈ q'.commanded, a = none) ∧
      q'.confirmed = q.confirmed ∧ reported s t l f.gantry .corrupt ∧
      ((∀ e, (s.banks.look (lineBank l)).held = some e → e.severity = .warn) →
        t.banks.look (lineBank l) = ⟨some ⟨.fault, .nodeRestart, some f.gantry, none, s.clock⟩, true⟩) ∧
      (∀ e, (s.banks.look (lineBank l)).held = some e → e.severity = .fault →
        t.banks.look (lineBank l) = ⟨some e, true⟩) ∧ (∀ l', l' ≠ l → t.line l' = s.line l') ∧
      t.clock = s.clock ∧ t.geo = s.geo ∧ t.incidents = s.incidents ∧ t.traffic = s.traffic)

/-- R53, R59, R62, R63: a failure of the retried telegram of a SUSPECT node, or of any telegram of a DESCRIBING node,
completed or not, moves the node to OFFLINE with the failure as its reason and the retry timer at 0 (but for the restart
of R45: a completed CORRUPT STATE of a SUSPECT node, O43); an OFFLINE node stays OFFLINE and its retry timer starts
again. No poll timer of the node is left. The failure is recorded WARN in the line's bank, its FAULT notice first;
NODE_OFFLINE, a FAULT, then takes a bank that holds no FAULT (R65). R46: a completed TRACE is an edge loss as well.
R159, R160: a retried SHOW is not queued again: no SHOW is pending or in flight, and the confirmed record is unknown. -/
def Obligations.FailureMovesNodeOffline : Prop :=
  ∀ (s : State) (l : Line) (x : Transcript) (f : Flight) (w : Failure) (whole : Bool) (r : GantryRec) (n : NodeRec),
    s.resetHigh = true → s.ending l x = some (f, .failed w whole) → f.discarded = false →
    s.geo.gantries.look f.gantry = some r → r.line = l → s.nodes.look f.gantry = some n →
    let bank := s.banks.look (lineBank l)
    let reported : State → Prop := fun t => s.link.notices.length < 32 → t.link.notices[s.link.notices.length]? =
      some ⟨s.clock, .fault (lineBank l) w.error .warn (some f.gantry) none
        (if bank.held = none then .held else .notHeld) s.faultOutput⟩
    let loses : Prop := whole = true ∧ f.job = .trace
    (n.state = .suspect ∧ f.retry = true ∧ (whole = true → ∀ o, f.job ≠ .state o) ∨ n.state = .describing →
      ∃ t, exec (w.row l x) s = .next t ∧ (t.line l).engine = .quiet ∧ (t.line l).flight = none ∧
        t.nodes.look f.gantry = some
          { n with state := .offline, reason := .failure w, since := s.clock, step := none, mismatch := none,
                   retry := some 0 } ∧
        (∀ k, k ≠ f.gantry → t.nodes.look k = s.nodes.look k) ∧ (t.line l).polls.look f.gantry = none ∧
        (∀ q, s.rollout.look f.gantry = some q → ∃ q', t.rollout.look f.gantry = some q' ∧ q'.pending = none ∧
          q'.inFlight = false ∧ (∀ a ∈ q'.confirmed, a = none) ∧ q'.commanded = q.commanded) ∧
        (∀ e ∈ (t.line l).queues.urgentShow ++ (t.line l).queues.normalShow, e.gantry ≠ f.gantry) ∧
        reported t ∧
        ((∀ e, bank.held = some e → e.severity = .warn) →
          t.banks.look (lineBank l) = ⟨some ⟨.fault, .nodeOffline, some f.gantry, none, s.clock⟩, true⟩) ∧
        (∀ e, bank.held = some e → e.severity = .fault → t.banks.look (lineBank l) = ⟨some e, true⟩) ∧
        (s.link.notices.length ≤ 28 →
          ⟨s.clock, .nodeEvent f.gantry l r.address n.state .offline (.failure w) none⟩ ∈ t.link.notices) ∧
        (loses → ∀ st sr en, s.hosted f.gantry = some (st, sr) → s.measure.stations.look st = some en →
          t.measure.stations.look st = some ⟨en.nodeCond,
            en.lanes.map fun kv => (kv.1, { kv.2 with suspect := true, machine := .idle })⟩ ∧
          (∀ k, k ≠ st → t.measure.stations.look k = s.measure.stations.look k) ∧
          (s.geo.stations.look st = some sr → s.banks.measure.held = none →
            t.banks.measure = ⟨some ⟨.warn, .bufferOverflow, some sr.host, some st, s.clock⟩, false⟩)) ∧
        (¬loses → t.measure = s.measure ∧ t.banks.measure = s.banks.measure) ∧
        t.geo = s.geo ∧ t.incidents = s.incidents ∧ t.traffic = s.traffic ∧ t.clock = s.clock) ∧
    (n.state = .offline →
      ∃ t, exec (w.row l x) s = .next t ∧ t.nodes.look f.gantry = some { n with retry := some 0 } ∧
        (∀ k, k ≠ f.gantry → t.nodes.look k = s.nodes.look k) ∧ reported t ∧
        (bank.held = none →
          t.banks.look (lineBank l) = ⟨some ⟨.warn, w.error, some f.gantry, none, s.clock⟩, false⟩) ∧
        (∀ e, bank.held = some e → t.banks.look (lineBank l) = ⟨some e, true⟩) ∧
        (t.line l).queues = (s.line l).queues ∧ t.rollout = s.rollout ∧ t.plan = s.plan ∧ t.geo = s.geo)

/-- R36, R54: the outcome of a discarded telegram, whatever it is (a failure, an ACCEPTED SHOW, a reply to a STATE, a
TRACE, a DESCRIBE or a CAPS), changes nothing but the engine: FREE after a success, QUIET after a failure, no telegram
in flight. -/
def Obligations.DiscardedOutcomeChangesNothing : Prop :=
  ∀ (s : State) (l : Line) (x : Transcript) (f : Flight), s.resetHigh = true → f.discarded = true →
    (∀ w c, s.ending l x = some (f, .failed w c) →
      exec (w.row l x) s = .next (s.setLine l { s.line l with engine := .quiet, flight := none })) ∧
    (s.ending l x = some (f, .accepted) →
      exec (.showAccepted l x) s = .next (s.setLine l { s.line l with engine := .free, flight := none })) ∧
    (∀ r, s.ending l x = some (f, .replied (.state r)) →
      exec (.stateReply l x) s = .next (s.setLine l { s.line l with engine := .free, flight := none })) ∧
    (∀ r, s.ending l x = some (f, .replied (.trace r)) →
      exec (.traceReply l x) s = .next (s.setLine l { s.line l with engine := .free, flight := none })) ∧
    (∀ r, s.ending l x = some (f, .replied (.describe r)) →
      exec (.describeReply l x) s = .next (s.setLine l { s.line l with engine := .free, flight := none })) ∧
    (∀ es, s.ending l x = some (f, .replied (.caps es)) →
      exec (.capsReply l x) s = .next (s.setLine l { s.line l with engine := .free, flight := none }))

/-- R43, R154, R159: an accepted SHOW of an ONLINE node makes its contents the commanded record, sets AWAITING with no
polls and holds a confirmation STATE for settle, unless one already waits in CONFIRM, which stays where it is (R51);
then the gantry is compared with the targets last published, as O57 says of a node ONLINE with no SHOW in flight (R157):
where the contents are those of the targets nothing else changes, where they differ an ORDINARY SHOW of the targets
becomes pending at the tail of its class, its gate evaluated, and the confirmation ends, with a confirmation STATE that
waits in CONFIRM withdrawn; every other queue, held STATE and gantry stays. How a STATE reply is judged then: R164: in
AWAITING a reply that shows the commanded record settles the gantry and withdraws the confirmation STATE, one that does
not counts as a poll, below the third with a new confirmation STATE after settle unless one waits, and a routine one
that does not match changes nothing. R165: at the third poll a RESEND of the commanded record is made pending, twice; in
RESENDING a reply that matches settles. R166: after the second resend the differing signs' commanded aspects become
failed aspects, the signs are confirm-failed, and CONFIRM_FAIL is recorded in the line's bank. R167: a sign that shows
its commanded aspect, equal to its failed one, with no SHOW in flight, loses the mark. That only the first sending of a
confirmation STATE counts as a poll is the model's reading (log 23). -/
def Obligations.AcceptedShowIsCommanded : Prop :=
  (∀ (s : State) (l : Line) (x : Transcript) (f : Flight) (b : ShowBody) (g : GantryRec) (r : RolloutRec),
    s.resetHigh = true → s.ending l x = some (f, .accepted) → f.discarded = false → f.body = some b →
    s.nodeState f.gantry = some .online → s.geo.gantries.look f.gantry = some g → g.line = l →
    s.rollout.look f.gantry = some r →
    let waits : Prop := ∃ e ∈ (s.line l).queues.confirm, e.gantry = f.gantry
    let want := s.shown f.gantry
    let taken : RolloutRec :=
      { r with inFlight := false, commanded := b.contents.map some, confirmation := .awaiting, polls := 0,
               resends := if b.kind = .ordinary then 0 else r.resends + 1 }
    ∃ u t, exec (.showAccepted l x) s = .next t ∧ t = u.publish f.gantry ∧
      u.rollout.look f.gantry = some taken ∧ (∀ k, k ≠ f.gantry → u.rollout.look k = s.rollout.look k) ∧
      (¬waits → (u.line l).held.look f.gantry = some s.geo.params.line.settle) ∧
      (waits → (u.line l).held.look f.gantry = (s.line l).held.look f.gantry) ∧
      (∀ k, k ≠ f.gantry → (u.line l).held.look k = (s.line l).held.look k) ∧
      { u.line l with held := (s.line l).held } = { s.line l with engine := .free, flight := none } ∧
      (∀ l', l' ≠ l → u.line l' = s.line l') ∧
      { u with lineA := s.lineA, lineB := s.lineB, rollout := s.rollout } = s ∧
      (want = b.contents → (∀ p, r.pending = some p → p.body.kind = .resend ∨ p.retry = true) → t = u) ∧
      (want ≠ b.contents → r.pending = none →
        let cls := showClass g.kinds .ordinary want (b.contents.map some)
        (∃ r', t.rollout.look f.gantry = some r' ∧ t.gateStands f.gantry ∧
          r' = { taken with pending := some ⟨⟨want, .ordinary, cls⟩, false⟩, gateHeld := r'.gateHeld,
                            gateTimer := if r'.gateHeld = true then some 0 else none, gateExpired := false,
                            confirmation := .settled, polls := 0, resends := 0 }) ∧
        (∀ k, k ≠ f.gantry → t.rollout.look k = s.rollout.look k) ∧
        (t.line l).held.look f.gantry = none ∧
        (∀ k, k ≠ f.gantry → (t.line l).held.look k = (s.line l).held.look k) ∧
        (∀ c, (t.line l).queues.look c =
          if c = .urgentShow ∨ c = .normalShow then
            ((s.line l).queues.look c).filter (fun e => decide (e.gantry ≠ f.gantry)) ++
              (if c = cls.cls then [⟨f.gantry, .display, .rollout, false⟩] else [])
          else if c = .confirm then
            (s.line l).queues.confirm.filter fun e => decide (e.gantry ≠ f.gantry) || e.retry
          else (s.line l).queues.look c) ∧
        { t.line l with held := (s.line l).held, queues := (s.line l).queues } =
          { s.line l with engine := .free, flight := none } ∧
        (∀ l', l' ≠ l → t.line l' = s.line l') ∧
        { t with lineA := s.lineA, lineB := s.lineB, rollout := s.rollout } = s)) ∧
  (∀ (s : State) (g : Nat) (poll : Bool) (shown : List Aspect) (gr : GantryRec) (n : NodeRec) (r : RolloutRec),
    s.geo.gantries.look g = some gr → s.nodes.look g = some n → s.rollout.look g = some r →
    let t := s.judge g poll shown
    let calm : RolloutRec := { r with confirmation := .settled, polls := 0, resends := 0 }
    let same : Prop := r.commanded = shown.map some
    (r.confirmation = .settled ∨ r.confirmation = .resending ∧ ¬same ∨
        r.confirmation = .awaiting ∧ ¬same ∧ poll = false → t = s) ∧
    (r.confirmation ≠ .awaiting ∨ same ∨ r.polls + 1 < 3 ∨ r.resends < 2 →
      ∀ k, k ≠ g → t.rollout.look k = s.rollout.look k) ∧
    (r.confirmation = .awaiting → same →
      t.rollout.look g = some calm ∧ (t.line gr.line).held.look g = none ∧
      (∀ e ∈ (t.line gr.line).queues.confirm, e.gantry = g → e.retry = true) ∧
      { t with lineA := s.lineA, lineB := s.lineB, rollout := s.rollout } = s) ∧
    (r.confirmation = .awaiting → ¬same → poll = true →
      (r.polls + 1 < 3 →
        t.rollout.look g = some { r with polls := r.polls + 1 } ∧
        ((∀ e ∈ (s.line gr.line).queues.confirm, e.gantry ≠ g) →
          (t.line gr.line).held.look g = some s.geo.params.line.settle) ∧
        ((∃ e ∈ (s.line gr.line).queues.confirm, e.gantry = g) → t.line gr.line = s.line gr.line) ∧
        (∀ k, k ≠ g → (t.line gr.line).held.look k = (s.line gr.line).held.look k) ∧
        { t.line gr.line with held := (s.line gr.line).held } = s.line gr.line ∧
        { t with lineA := s.lineA, lineB := s.lineB, rollout := s.rollout } = s) ∧
      (3 ≤ r.polls + 1 → r.resends < 2 → ∀ as, r.commanded = as.map some →
        let cls := showClass gr.kinds .resend as r.commanded
        (∃ r', t.rollout.look g = some r' ∧ r'.pending = some ⟨⟨as, .resend, cls⟩, false⟩ ∧
          r'.confirmation = .resending ∧ r'.polls = 0 ∧ r'.resends = r.resends ∧ r'.commanded = r.commanded ∧
          r'.confirmed = r.confirmed ∧ r'.failed = r.failed) ∧
        ((t.line gr.line).queues.look cls.cls).getLast? = some ⟨g, .display, .rollout, false⟩ ∧
        { t with lineA := s.lineA, lineB := s.lineB, rollout := s.rollout } = s) ∧
      (3 ≤ r.polls + 1 → 2 ≤ r.resends →
        ∃ r' n', t.rollout.look g = some r' ∧ t.nodes.look g = some n' ∧
          r' = { calm with failed := r'.failed, gateHeld := r'.gateHeld, gateTimer := r'.gateTimer } ∧
          n' = { n with signs := n'.signs } ∧
          (∀ (i : Nat) (c : Option Aspect) (d : Aspect) (y : Option Aspect) (z : SignRec), r.commanded[i]? = some c →
            shown[i]? = some d → r.failed[i]? = some y → n.signs[i]? = some z →
            r'.failed[i]? = some (if c = some d then y else c) ∧
            n'.signs[i]? = some (if c = some d then z else { z with confirmFailed := true })) ∧
          ((s.banks.look (lineBank gr.line)).held = none →
            (t.banks.look (lineBank gr.line)).held = some ⟨.fault, .confirmFail, some g, none, s.clock⟩) ∧
          (t.banks.look (lineBank gr.line)).held ≠ none ∧
          (n'.signs ≠ n.signs → s.geo.mode = .run → t.plan.running ≠ none) ∧
          t.lineA = s.lineA ∧ t.lineB = s.lineB ∧ t.geo = s.geo ∧ t.traffic = s.traffic)) ∧
    (r.confirmation = .resending → same →
      ∃ r', t.rollout.look g = some r' ∧ r'.confirmation = .settled ∧ r'.polls = 0 ∧ r'.resends = 0 ∧
        r'.commanded = r.commanded ∧ (∀ p, r.pending = some p → p.body.kind = .resend → r'.pending = none) ∧
        { t with lineA := s.lineA, lineB := s.lineB, rollout := s.rollout } = s)) ∧
  (∀ (s : State) (g : Nat) (shown : List Aspect) (n : NodeRec) (r : RolloutRec),
    s.nodes.look g = some n → s.rollout.look g = some r →
    let t := s.clearRecovered g shown
    (r.inFlight = true → t = s) ∧
    (r.inFlight = false →
      ∃ r' n', t.rollout.look g = some r' ∧ t.nodes.look g = some n' ∧ n' = { n with signs := n'.signs } ∧
        ∀ (i : Nat) (c : Option Aspect) (d : Aspect) (y : Option Aspect) (z : SignRec), r.commanded[i]? = some c →
          shown[i]? = some d → r.failed[i]? = some y → n.signs[i]? = some z →
          (c = some d → y = c →
            r'.failed[i]? = some none ∧ n'.signs[i]? = some { z with confirmFailed := false } ∧
            (z.confirmFailed = true → s.geo.mode = .run → t.plan.running ≠ none)) ∧
          (c ≠ some d ∨ y ≠ c → r'.failed[i]? = some y ∧ n'.signs[i]? = some z)))

/-- R43, R52, R69, R155, R156, R164: a STATE reply of an ONLINE node, not restarted, gives every sign the health and
aspect reported, and the degraded mark where it is DEGRADED; a changed health evaluates the gates beside (R162) and
triggers a pass (R72); other displayed aspects than those of the confirmed record replace it with one DISPLAY_CHANGE;
then the reply is judged and the recovered marks cleared (O46), as a poll exactly when it answers the first sending of a
confirmation STATE (log 23). The STATE timer starts again, and overflow_pending makes the TRACE due at once (R45). With
nothing changed, nothing else happens. R45, R56, R61: with restarted set, an ONLINE or SUSPECT node moves to DESCRIBING
with reason NODE_RESTART, recorded FAULT, step DESCRIBE and every confirm-failed mark clear, a DESCRIBE queued and the
poll timers stopped; the commanded record is unknown and the confirmed record what was reported. R57: the enrolment
STATE ends the description: ONLINE, reason DESCRIBED, its NODE_EVENT, a TRACE due at once, the station measuring with
its loops low (R90), a pass triggered. R62, R160: any success of a SUSPECT node's retried telegram is taken as by the
node ONLINE, which it enters first with reason RECOVERED and its NODE_EVENT, the station's lanes kept; where the
commanded record is known and not the confirmed one, AWAITING starts again, its STATE held for settle unless one waits
in CONFIRM (R51). (R160 compares them before the displayed aspects of a retried STATE are taken: the model's choice, log
35.) -/
def Obligations.StateReplyIsTaken : Prop :=
  (∀ (s : State) (l : Line) (x : Transcript) (f : Flight) (q : StateReply) (g : GantryRec) (n : NodeRec)
      (r : RolloutRec), s.resetHigh = true → s.ending l x = some (f, .replied (.state q)) → f.discarded = false →
      f.job = .state .routine → s.geo.gantries.look f.gantry = some g → g.line = l →
      s.nodes.look f.gantry = some n → n.state = .online → q.restarted = false → q.overflowPending = false →
      s.rollout.look f.gantry = some r → r.confirmation = .settled → (∀ a ∈ r.failed, a = none) →
      r.confirmed = q.signs.map (fun y => some y.2) → n.signs.map (·.health) = q.signs.map (fun y => some y.1) →
      ∃ t n', exec (.stateReply l x) s = .next t ∧ t.nodes.look f.gantry = some n' ∧
        { n' with signs := n.signs } = n ∧ n'.signs.map (·.health) = q.signs.map (fun y => some y.1) ∧
        n'.signs.map (·.displayed) = q.signs.map (fun y => some y.2) ∧
        n'.signs.map (·.caps) = n.signs.map (·.caps) ∧
        n'.signs.map (·.confirmFailed) = n.signs.map (·.confirmFailed) ∧
        (∀ k, k ≠ f.gantry → t.nodes.look k = s.nodes.look k) ∧
        { t.line l with polls := (s.line l).polls } = { s.line l with engine := .free, flight := none } ∧
        (∀ p, (s.line l).polls.look f.gantry = some p →
          (t.line l).polls.look f.gantry = some { p with state := 0 }) ∧
        (∀ l', l' ≠ l → t.line l' = s.line l') ∧
        { t with lineA := s.lineA, lineB := s.lineB, nodes := s.nodes } = s) ∧
  (∀ (s : State) (l : Line) (x : Transcript) (f : Flight) (q : StateReply) (g : GantryRec) (n : NodeRec)
      (r : RolloutRec), s.resetHigh = true → s.ending l x = some (f, .replied (.state q)) → f.discarded = false →
      s.geo.gantries.look f.gantry = some g → g.line = l → s.nodes.look f.gantry = some n → n.state = .online →
      q.restarted = false → s.rollout.look f.gantry = some r →
      let shown := q.signs.map fun y => y.2
      let changed : Prop := ∃ (i : Nat) (z : SignRec) (y : Health × Aspect), n.signs[i]? = some z ∧ q.signs[i]? = some y ∧
        z.health ≠ some y.1
      ∃ (ys : List SignRec) (ns : Table NodeRec) (ps : Table Poll) (s2 s3 : State),
        let s1 : State :=
          { s.setLine l { s.line l with engine := .free, flight := none, polls := ps } with nodes := ns }
        ys.length = n.signs.length ∧
        (∀ (i : Nat) (z : SignRec), n.signs[i]? = some z →
          (∀ y, q.signs[i]? = some y → ys[i]? = some
            { z with health := some y.1, displayed := some y.2,
                     degradedMark := z.degradedMark || decide (y.1 = .degraded) }) ∧
          (q.signs[i]? = none → ys[i]? = some z)) ∧
        ns.look f.gantry = some { n with signs := ys } ∧ (∀ k, k ≠ f.gantry → ns.look k = s.nodes.look k) ∧
        ps.look f.gantry = ((s.line l).polls.look f.gantry).map (fun p =>
          ⟨if q.overflowPending then s.geo.params.line.pollPeriod else p.trace, 0⟩) ∧
        (∀ k, k ≠ f.gantry → ps.look k = (s.line l).polls.look k) ∧
        (changed → s2 = (s1.gatesBeside f.gantry).trigger) ∧ (¬changed → s2 = s1) ∧
        (r.confirmed = shown.map some → s3 = s2) ∧
        (r.confirmed ≠ shown.map some → ∃ (rs : Table RolloutRec) (chs : List SignChange),
          rs.look f.gantry = (s2.rollout.look f.gantry).map (fun y => { y with confirmed := shown.map some }) ∧
          (∀ k, k ≠ f.gantry → rs.look k = s2.rollout.look k) ∧
          (∀ (i : Nat) (b c : Option Aspect) (d : Aspect), r.confirmed[i]? = some b → r.commanded[i]? = some c →
            shown[i]? = some d → chs[i]? = some ⟨some d, c, decide (b ≠ some d)⟩) ∧
          s3 = State.gatesBeside f.gantry
            (State.raise (.displayChange f.gantry .state chs) { s2 with rollout := rs })) ∧
        exec (.stateReply l x) s = .next
          ((s3.judge f.gantry (decide (f.job = .state .confirm ∧ f.retry = false)) shown).clearRecovered f.gantry shown)) ∧
  (∀ (s : State) (l : Line) (x : Transcript) (f : Flight) (q : StateReply) (g : GantryRec) (n : NodeRec)
      (r : RolloutRec), s.resetHigh = true → s.ending l x = some (f, .replied (.state q)) → f.discarded = false →
      s.geo.gantries.look f.gantry = some g → g.line = l → s.nodes.look f.gantry = some n →
      (n.state = .online ∨ n.state = .suspect) → q.restarted = true → s.rollout.look f.gantry = some r →
      ∃ t n' r', exec (.stateReply l x) s = .next t ∧ t.nodes.look f.gantry = some n' ∧ n'.state = .describing ∧
        n'.reason = .nodeRestart ∧ n'.step = some .describe ∧ n'.since = s.clock ∧
        (t.line l).queues.service.getLast? = some ⟨f.gantry, .describe, .registry, false⟩ ∧
        (t.line l).engine = .free ∧ (t.line l).flight = none ∧
        (t.line l).polls.look f.gantry = none ∧ t.rollout.look f.gantry = some r' ∧
        (∀ a ∈ r'.commanded, a = none) ∧ r'.confirmed = q.signs.map (fun y => some y.2) ∧
        (n.state = .online ∨ r.confirmation = .settled →
          (∀ y ∈ n'.signs, y.confirmFailed = false) ∧ r'.confirmation = .settled) ∧
        ((s.banks.look (lineBank l)).held = none →
          (t.banks.look (lineBank l)).held = some ⟨.fault, .nodeRestart, some f.gantry, none, s.clock⟩)) ∧
  (∀ (s : State) (l : Line) (x : Transcript) (f : Flight) (q : StateReply) (g : GantryRec) (n : NodeRec)
      (r : RolloutRec), s.resetHigh = true → s.ending l x = some (f, .replied (.state q)) → f.discarded = false →
      s.geo.gantries.look f.gantry = some g → g.line = l → s.nodes.look f.gantry = some n → n.state = .describing →
      n.step = some .state → s.rollout.look f.gantry = some r → n.signs.length = q.signs.length →
      ∃ t n' r', exec (.stateReply l x) s = .next t ∧ t.nodes.look f.gantry = some n' ∧
        n' = { n with state := .online, reason := .described, since := s.clock, step := none, mismatch := none,
                      retry := none, signs := n'.signs } ∧
        n'.signs.map (·.health) = q.signs.map (fun y => some y.1) ∧
        n'.signs.map (·.displayed) = q.signs.map (fun y => some y.2) ∧
        n'.signs.map (·.caps) = n.signs.map (·.caps) ∧
        (∀ k, k ≠ f.gantry → t.nodes.look k = s.nodes.look k) ∧ (t.line l).engine = .free ∧ (t.line l).flight = none ∧
        (t.line l).polls.look f.gantry = some ⟨s.geo.params.line.pollPeriod, 0⟩ ∧
        (∀ l', l' ≠ l → t.line l' = s.line l') ∧ t.rollout.look f.gantry = some r' ∧ r'.commanded = r.commanded ∧
        r'.confirmed = q.signs.map (fun y => some y.2) ∧
        (∀ st sr en, s.hosted f.gantry = some (st, sr) → s.measure.stations.look st = some en →
          t.measure.stations.look st = some ⟨false, en.lanes.map fun kv =>
            (kv.1, { kv.2 with loopA := ⟨false, 0, false⟩, loopB := ⟨false, 0, false⟩ })⟩ ∧
          ∀ k, k ≠ st → t.measure.stations.look k = s.measure.stations.look k) ∧
        (s.geo.mode = .run → t.plan.running ≠ none) ∧
        (s.link.notices.length < 32 → t.link.notices[s.link.notices.length]? =
          some ⟨s.clock, .nodeEvent f.gantry l g.address .describing .online .described none⟩) ∧
        t.geo = s.geo ∧ t.clock = s.clock ∧ t.incidents = s.incidents ∧ t.sections = s.sections ∧ t.traffic = s.traffic ∧
        t.plan.targets = s.plan.targets ∧ t.plan.demands = s.plan.demands) ∧
  (∀ (s : State) (l : Line) (x : Transcript) (f : Flight) (g : GantryRec) (n : NodeRec) (r : RolloutRec),
      s.resetHigh = true → (s.line l).flight = some f → f.discarded = false → f.retry = true → 1 ≤ f.gantry →
      s.geo.gantries.look f.gantry = some g → g.line = l → s.nodes.look f.gantry = some n → n.state = .suspect →
      s.rollout.look f.gantry = some r →
      let differs : Prop := (∀ a ∈ r.commanded, a ≠ none) ∧ r.commanded ≠ r.confirmed
      ∃ u : State, u.ending l x = s.ending l x ∧
        (∀ q, s.ending l x = some (f, .replied (.state q)) → q.restarted = false →
          exec (.stateReply l x) s = exec (.stateReply l x) u) ∧
        (∀ q, s.ending l x = some (f, .replied (.trace q)) → exec (.traceReply l x) s = exec (.traceReply l x) u) ∧
        (∀ q, s.ending l x = some (f, .replied (.describe q)) →
          exec (.describeReply l x) s = exec (.describeReply l x) u) ∧
        (∀ q, s.ending l x = some (f, .replied (.caps q)) → exec (.capsReply l x) s = exec (.capsReply l x) u) ∧
        (s.ending l x = some (f, .accepted) → exec (.showAccepted l x) s = exec (.showAccepted l x) u) ∧
        u.nodes.look f.gantry = some { n with state := .online, reason := .recovered, since := s.clock, step := none,
                                              mismatch := none, retry := none } ∧
        (∀ k, k ≠ f.gantry → u.nodes.look k = s.nodes.look k) ∧
        (∀ st sr en, s.hosted f.gantry = some (st, sr) → s.measure.stations.look st = some en →
          u.measure.stations.look st = some ⟨false, en.lanes⟩ ∧
          ∀ k, k ≠ st → u.measure.stations.look k = s.measure.stations.look k) ∧
        (s.hosted f.gantry = none → u.measure = s.measure) ∧
        (differs →
          u.rollout.look f.gantry = some { r with confirmation := .awaiting, polls := 0, resends := 0 } ∧
          ((∀ e ∈ (s.line l).queues.confirm, e.gantry ≠ f.gantry) →
            (u.line l).held.look f.gantry = some s.geo.params.line.settle) ∧
          ((∃ e ∈ (s.line l).queues.confirm, e.gantry = f.gantry) → u.line l = s.line l) ∧
          (∀ k, k ≠ f.gantry → (u.line l).held.look k = (s.line l).held.look k)) ∧
        (¬differs → u.rollout.look f.gantry = some r ∧ u.line l = s.line l) ∧
        (∀ k, k ≠ f.gantry → k + 1 ≠ f.gantry → k ≠ f.gantry + 1 → u.rollout.look k = s.rollout.look k) ∧
        (∀ l', { u.line l' with held := (s.line l').held } = s.line l') ∧ (∀ l', l' ≠ l → u.line l' = s.line l') ∧
        (s.geo.mode = .run → u.plan.running ≠ none) ∧ u.plan.targets = s.plan.targets ∧
        u.plan.demands = s.plan.demands ∧
        (s.link.notices.length < 32 → u.banks = s.banks ∧ u.link = { s.link with notices := s.link.notices ++
          [⟨s.clock, .nodeEvent f.gantry l g.address .suspect .online .recovered none⟩] }) ∧
        { u with lineA := s.lineA, lineB := s.lineB, nodes := s.nodes, measure := s.measure, rollout := s.rollout,
                 plan := s.plan, link := s.link, banks := s.banks } = s)

/-- R43, R52, R75, R78: a TRACE reply of an ONLINE node restarts the node's TRACE timer, or makes it due at once with
the more flag; the overflow flag, taken first, marks every lane of the station SUSPECT and brings every machine to IDLE,
with one BUFFER_OVERFLOW recorded WARN in MEASURE with the station and its host, and with no records that is all; then
each lane takes its own records in reply order, whatever those of the other lanes are. Other stations and lanes, the
node condition, nodes, rollout, geometry and clock stay. Where no record makes an event known, nothing but the engine
and the station changes. R91, R83, R88, R86: each record, in reply order and behind the overflow's, does what it makes
known of its lane as the earlier records left it: one that crosses the error limit, completes a first implausible
passage or makes a lane STUCK_ON is recorded in MEASURE with the station and its host; one that completes a reverse
passage of a lane that is not FAULTY hands it to the traffic state unit; and nothing else is done. (With records behind
an overflow, an empty MEASURE bank holds the BUFFER_OVERFLOW or a FAULT that has replaced it, R170.) A gantry without a
station takes the timers alone. A SUSPECT node's retried TRACE is O47's. -/
def Obligations.TraceReplyReachesStation : Prop :=
  (∀ (s : State) (l : Line) (x : Transcript) (f : Flight) (q : TraceReply) (g : GantryRec), s.resetHigh = true →
    s.ending l x = some (f, .replied (.trace q)) → f.discarded = false → s.geo.gantries.look f.gantry = some g →
    g.line = l → s.nodeState f.gantry = some .online → s.hosted f.gantry = none →
    ∃ t, exec (.traceReply l x) s = .next t ∧
      { t.line l with polls := (s.line l).polls } = { s.line l with engine := .free, flight := none } ∧
      (∀ p, (s.line l).polls.look f.gantry = some p →
        (t.line l).polls.look f.gantry =
          some { p with trace := if q.more then s.geo.params.line.pollPeriod else 0 }) ∧
      (∀ k, k ≠ f.gantry → (t.line l).polls.look k = (s.line l).polls.look k) ∧
      (∀ l', l' ≠ l → t.line l' = s.line l') ∧ { t with lineA := s.lineA, lineB := s.lineB } = s) ∧
  ∀ (s : State) (l : Line) (x : Transcript) (f : Flight) (q : TraceReply) (g : GantryRec) (st : Nat)
    (sr : StationRec) (en : StationEntry), s.resetHigh = true → s.ending l x = some (f, .replied (.trace q)) →
    f.discarded = false → s.geo.gantries.look f.gantry = some g → g.line = l →
    s.nodeState f.gantry = some .online → s.hosted f.gantry = some (st, sr) →
    s.measure.stations.look st = some en →
    let after : List EdgeRec → Nat → LaneRec → LaneRec × List LaneEvent := fun es p y =>
      takeRecords s.geo.params.measure sr en.nodeCond
        (if q.overflow then { y with suspect := true, machine := .idle } else y)
        (es.filter fun e => e.lane == p)
    let ofLane : Nat → LaneRec → LaneRec × List LaneEvent := after q.records
    let known : List (Nat × LaneEvent) := q.records.zipIdx.flatMap fun x =>
      ((en.lanes.look x.1.lane).map fun y =>
        (takeRecord s.geo.params.measure sr en.nodeCond (after (q.records.take x.2) x.1.lane y).1 x.1).2.map
          fun ev => (x.1.lane, ev)).getD []
    let does : State → Nat × LaneEvent → State := fun w x =>
      match x.2 with
      | .edgeSequence => w.record .measure .edgeSequence .warn (some sr.host) (some st)
      | .implausible => w.record .measure .implausible .warn (some sr.host) (some st)
      | .stuckOn => w.record .measure .stuckOn .fault (some sr.host) (some st)
      | .reverse => w.reversePassage st x.1
    ∃ t, exec (.traceReply l x) s = .next t ∧
      { t.line l with polls := (s.line l).polls } = { s.line l with engine := .free, flight := none } ∧
      (∀ p, (s.line l).polls.look f.gantry = some p →
        (t.line l).polls.look f.gantry =
          some { p with trace := if q.more then s.geo.params.line.pollPeriod else 0 }) ∧
      (∀ l', l' ≠ l → t.line l' = s.line l') ∧
      (∃ en', t.measure.stations.look st = some en' ∧ en'.nodeCond = en.nodeCond ∧
        (∀ p y, en.lanes.look p = some y → en'.lanes.look p = some (ofLane p y).1) ∧
        (∀ p, en.lanes.look p = none → en'.lanes.look p = none)) ∧
      (∀ k, k ≠ st → t.measure.stations.look k = s.measure.stations.look k) ∧ t.measure.timer = s.measure.timer ∧
      { t with lineA := s.lineA, lineB := s.lineB, measure := s.measure, traffic := s.traffic,
               incidents := s.incidents, link := s.link, banks := s.banks, plan := s.plan } = s ∧
      (q.overflow = false → (∀ p y, en.lanes.look p = some y → (ofLane p y).2 = []) →
        { t with lineA := s.lineA, lineB := s.lineB, measure := s.measure } = s) ∧
      (q.overflow = false → q.records = [] → { t with lineA := s.lineA, lineB := s.lineB } = s) ∧
      (q.overflow = true → s.geo.stations.look st = some sr →
        (s.banks.measure.held = none →
          ∃ h, t.banks.measure.held = some h ∧
            (h = ⟨.warn, .bufferOverflow, some sr.host, some st, s.clock⟩ ∨ h.severity = .fault ∧ q.records ≠ [])) ∧
        (q.records = [] →
          t.measure.stations.look st = some ⟨en.nodeCond,
            en.lanes.map fun kv => (kv.1, { kv.2 with suspect := true, machine := .idle })⟩ ∧
          { t with lineA := s.lineA, lineB := s.lineB, measure := s.measure } =
            s.record .measure .bufferOverflow .warn (some sr.host) (some st) ∧
          (s.banks.measure.held = none →
            t.banks.measure = ⟨some ⟨.warn, .bufferOverflow, some sr.host, some st, s.clock⟩, false⟩))) ∧
      (s.geo.stations.look st = some sr →
        { t with lineA := s.lineA, lineB := s.lineB, measure := s.measure } = known.foldl does
          (if q.overflow then s.record .measure .bufferOverflow .warn (some sr.host) (some st) else s))

/-- R58: a DESCRIBE reply is compared in the order LANES, PANEL, LOOPS (no station: no loops), and the first that
disagrees is the mismatch. R57: one that agrees takes a DESCRIBING node to CAPS 0, with that CAPS at the tail of
SERVICE; a mismatch takes it to OFFLINE with reason DESCRIBE_MISMATCH, that mismatch and the retry timer at 0, recorded
FAULT in the line's bank with its NODE_EVENT (R65). R63: an OFFLINE node whose retry DESCRIBE agrees goes to DESCRIBING
with reason RETRY_REPLIED at CAPS 0, that CAPS at the tail of SERVICE, its confirm-failed marks clear and its commanded
record unknown; the mismatch it already has only starts the retry timer again; a new one is its reason from then on,
with one NODE_EVENT from OFFLINE to OFFLINE and one FAULT record. -/
def Obligations.DescribeReplyIsCompared : Prop :=
  ∀ (s : State) (l : Line) (x : Transcript) (f : Flight) (q : DescribeReply) (g : GantryRec) (n : NodeRec),
    s.resetHigh = true → s.ending l x = some (f, .replied (.describe q)) → f.discarded = false →
    s.geo.gantries.look f.gantry = some g → g.line = l → s.nodes.look f.gantry = some n →
    let loops : LaneSet := match s.hosted f.gantry with | some y => y.2.lanes | none => 0
    let finds : Mismatch → Prop := fun m =>
      match m with
      | .lanes => q.lanes ≠ LaneSet.positions g.lanes
      | .panel => q.lanes = LaneSet.positions g.lanes ∧ q.panel ≠ g.panel
      | .loops => q.lanes = LaneSet.positions g.lanes ∧ q.panel = g.panel ∧ q.loops ≠ loops
    let agrees : Prop := q.lanes = LaneSet.positions g.lanes ∧ q.panel = g.panel ∧ q.loops = loops
    (n.state = .describing → n.step = some .describe → agrees →
      ∃ t, exec (.describeReply l x) s = .next t ∧
        t.nodes.look f.gantry = some { n with step := some (.caps 0) } ∧
        (∀ k, k ≠ f.gantry → t.nodes.look k = s.nodes.look k) ∧
        (t.line l).queues.service = (s.line l).queues.service ++ [⟨f.gantry, .caps 0, .registry, false⟩] ∧
        { t.line l with queues := { (t.line l).queues with service := (s.line l).queues.service } } =
          { s.line l with engine := .free, flight := none } ∧
        (∀ l', l' ≠ l → t.line l' = s.line l') ∧
        { t with lineA := s.lineA, lineB := s.lineB, nodes := s.nodes } = s) ∧
    (∀ m, n.state = .describing → n.step = some .describe → finds m →
      ∃ t, exec (.describeReply l x) s = .next t ∧
        t.nodes.look f.gantry = some
          { n with state := .offline, reason := .describeMismatch, since := s.clock, step := none,
                   mismatch := some m, retry := some 0 } ∧
        (∀ k, k ≠ f.gantry → t.nodes.look k = s.nodes.look k) ∧ (t.line l).engine = .free ∧ (t.line l).flight = none ∧
        ((∀ e, (s.banks.look (lineBank l)).held = some e → e.severity = .warn) →
          (t.banks.look (lineBank l)).held = some ⟨.fault, .describeMismatch, some f.gantry, none, s.clock⟩) ∧
        (s.link.notices.length ≤ 30 →
          ⟨s.clock, .nodeEvent f.gantry l g.address .describing .offline .describeMismatch (some m)⟩ ∈ t.link.notices) ∧
        t.geo = s.geo ∧ t.incidents = s.incidents ∧ t.traffic = s.traffic ∧ t.clock = s.clock) ∧
    (n.state = .offline → agrees →
      ∃ t n', exec (.describeReply l x) s = .next t ∧ t.nodes.look f.gantry = some n' ∧
        n' = { n with state := .describing, reason := .retryReplied, since := s.clock, step := some (.caps 0),
                      mismatch := none, retry := none,
                      signs := n.signs.map fun y => { y with confirmFailed := false } } ∧
        (∀ k, k ≠ f.gantry → t.nodes.look k = s.nodes.look k) ∧ (t.line l).engine = .free ∧ (t.line l).flight = none ∧
        (t.line l).queues.service.getLast? = some ⟨f.gantry, .caps 0, .registry, false⟩ ∧
        (∀ r, s.rollout.look f.gantry = some r → ∃ r', t.rollout.look f.gantry = some r' ∧
          (∀ a ∈ r'.commanded, a = none) ∧ (∀ a ∈ r'.failed, a = none) ∧ r'.confirmed = r.confirmed) ∧
        (s.link.notices.length < 32 → t.link.notices = s.link.notices ++
          [⟨s.clock, .nodeEvent f.gantry l g.address .offline .describing .retryReplied none⟩] ∧ t.banks = s.banks) ∧
        (∀ l', l' ≠ l → t.line l' = s.line l') ∧ t.measure = s.measure ∧ t.geo = s.geo ∧ t.incidents = s.incidents ∧
        t.traffic = s.traffic ∧ t.clock = s.clock) ∧
    (∀ m, n.state = .offline → finds m →
      ∃ (t : State) (ns : Table NodeRec) (n' : NodeRec), exec (.describeReply l x) s = .next t ∧
        ns.look f.gantry = some n' ∧ (∀ k, k ≠ f.gantry → ns.look k = s.nodes.look k) ∧
        (let u : State := { s.setLine l { s.line l with engine := .free, flight := none } with nodes := ns }
         (n.reason = .describeMismatch ∧ n.mismatch = some m → n' = { n with retry := some 0 } ∧ t = u) ∧
         (¬(n.reason = .describeMismatch ∧ n.mismatch = some m) →
           n' = { n with retry := some 0, reason := .describeMismatch, mismatch := some m } ∧
           t = State.record (lineBank l) .describeMismatch .fault (some f.gantry) none
             (State.raise (.nodeEvent f.gantry l g.address .offline .offline .describeMismatch (some m)) u))))

/-- R57, R68, R177: whatever the node's state, a CAPS reply replaces the sign's capability list by its entries in
reply order, each once, without BLANK and without the entries of the wrong kind; a wrong-kind entry makes one
BAD_CAPABILITY record in the line's bank, and BLANK or a duplicate makes none. R72: a list that differs from the old
one as a set triggers a pass, one that does not triggers nothing. The description of a DESCRIBING node at this sign's
step goes on with the next sign, or with the enrolment STATE after the last. -/
def Obligations.CapsReplyReplacesList : Prop :=
  ∀ (s : State) (l : Line) (x : Transcript) (f : Flight) (i : Nat) (es : List Aspect) (g : GantryRec)
    (n : NodeRec) (k : SignKind) (y : SignRec), s.resetHigh = true →
    s.ending l x = some (f, .replied (.caps es)) → f.discarded = false → f.job = .caps i →
    s.geo.gantries.look f.gantry = some g → g.line = l → s.nodes.look f.gantry = some n →
    (n.state = .suspect → f.retry = false) → g.kinds[i]? = some k → n.signs[i]? = some y →
    let kept : List Aspect := (es.filter fun a => decide (a ≠ .blank) && Aspect.fits k a).eraseDups
    let goesOn : Prop := n.state = .describing ∧ n.step = some (.caps i)
    let next : DescStep := if i + 1 < n.signs.length then .caps (i + 1) else .state
    let job : Job := if i + 1 < n.signs.length then .caps (i + 1) else .state .enrol
    ∃ t, exec (.capsReply l x) s = .next t ∧
      (∃ n', t.nodes.look f.gantry = some n' ∧
        n' = { n with signs := n.signs.set i { y with caps := kept }, step := n'.step } ∧
        (goesOn → n'.step = some next) ∧ (¬goesOn → n'.step = n.step)) ∧
      (∀ k', k' ≠ f.gantry → t.nodes.look k' = s.nodes.look k') ∧
      (goesOn → (t.line l).queues.service = (s.line l).queues.service ++ [⟨f.gantry, job, .registry, false⟩]) ∧
      (¬goesOn → (t.line l).queues.service = (s.line l).queues.service) ∧
      { t.line l with queues := { (t.line l).queues with service := (s.line l).queues.service } } =
        { s.line l with engine := .free, flight := none } ∧
      (∀ l', l' ≠ l → t.line l' = s.line l') ∧
      ((∀ a ∈ es, Aspect.fits k a = true) → t.banks = s.banks ∧ t.link = s.link) ∧
      ((∃ a ∈ es, Aspect.fits k a = false) →
        (∀ e, (s.banks.look (lineBank l)).held = some e →
          (t.banks.look (lineBank l)).held = some e ∧ (t.banks.look (lineBank l)).overflow = true) ∧
        ((s.banks.look (lineBank l)).held = none →
          (t.banks.look (lineBank l)).held = some ⟨.warn, .badCapability, some f.gantry, none, s.clock⟩)) ∧
      ((∀ a, a ∈ kept ↔ a ∈ y.caps) → t.plan = s.plan) ∧
      ((∃ a, ¬(a ∈ kept ↔ a ∈ y.caps)) → s.geo.mode = .run →
        (s.plan.running = none → ∃ m, t.plan = { s.plan with running := some m }) ∧
        (∀ m, s.plan.running = some m → t.plan = { s.plan with again := true })) ∧
      { t with lineA := s.lineA, lineB := s.lineB, nodes := s.nodes, plan := s.plan, link := s.link,
               banks := s.banks } = s

/-- R36, R42: a broadcast that has been sent frees the engine and hands nothing on; a QUIET engine is FREE once the
line has been undriven for 3 ms, and not before. -/
def Obligations.LineBecomesFree : Prop :=
  ∀ (s : State) (l : Line), s.resetHigh = true →
    (∀ f n, (s.line l).flight = some f → f.job = .lumen n →
      exec (.sent l) s = .next (s.setLine l { s.line l with engine := .free, flight := none })) ∧
    (∀ us, (s.line l).engine = .quiet →
      (3000 ≤ us → exec (.lineQuietEnd l us) s = .next (s.setLine l { s.line l with engine := .free })) ∧
      (us < 3000 → exec (.lineQuietEnd l us) s = .next s))

/-- R48, R51, R52: a due TRACE of an ONLINE node with none waiting and none in flight joins TRACE, a due routine STATE
with none waiting and none in flight joins SERVICE, whatever else the line is doing; a confirmation STATE whose time has
run out joins CONFIRM, each at the tail; the LUMEN repeat timer at 30 s starts again and queues a LUMEN of
the line's level, or gives that level to the one already waiting, which keeps its place (R48). With one
waiting or in flight, before its period, or while its node is not ONLINE, a poll is not queued (log 22). R63: the retry
timer of an OFFLINE node at 30 s stops and a retry DESCRIBE joins the tail of SERVICE; before 30 s nothing happens. -/
def Obligations.DueTimersQueueTelegrams : Prop :=
  ∀ (s : State) (g : Nat) (r : GantryRec), s.resetHigh = true → s.geo.gantries.look g = some r →
    (∀ p, s.nodeState g = some .online → (s.line r.line).polls.look g = some p →
      let flies : Job → Prop := fun j => ∃ f, (s.line r.line).flight = some f ∧ f.gantry = g ∧ f.job = j
      (s.geo.params.line.pollPeriod ≤ p.trace → (∀ e ∈ (s.line r.line).queues.trace, e.gantry ≠ g) → ¬flies .trace →
        exec (.tracePollDue g) s = .next (s.setLine r.line
          { s.line r.line with queues := { (s.line r.line).queues with
              trace := (s.line r.line).queues.trace ++ [⟨g, .trace, .line, false⟩] } })) ∧
      (p.trace < s.geo.params.line.pollPeriod ∨ (∃ e ∈ (s.line r.line).queues.trace, e.gantry = g) ∨ flies .trace →
        exec (.tracePollDue g) s = .next s) ∧
      (s.geo.params.line.statePeriod * 1000 ≤ p.state →
        (∀ e ∈ (s.line r.line).queues.service, e.gantry = g → e.job ≠ .state .routine) → ¬flies (.state .routine) →
        exec (.routineStateDue g) s = .next (s.setLine r.line
          { s.line r.line with queues := { (s.line r.line).queues with
              service := (s.line r.line).queues.service ++ [⟨g, .state .routine, .line, false⟩] } })) ∧
      (p.state < s.geo.params.line.statePeriod * 1000 ∨
          (∃ e ∈ (s.line r.line).queues.service, e.gantry = g ∧ e.job = .state .routine) ∨ flies (.state .routine) →
        exec (.routineStateDue g) s = .next s)) ∧
    (s.nodeState g ≠ some .online →
      exec (.tracePollDue g) s = .next s ∧ exec (.routineStateDue g) s = .next s) ∧
    ((s.line r.line).held.look g = some 0 →
      ∃ t, exec (.confirmDue g) s = .next t ∧ (t.line r.line).held.look g = none ∧
        (∀ k, k ≠ g → (t.line r.line).held.look k = (s.line r.line).held.look k) ∧
        t = s.setLine r.line { s.line r.line with
          held := (t.line r.line).held
          queues := { (s.line r.line).queues with
            confirm := (s.line r.line).queues.confirm ++ [⟨g, .state .confirm, .rollout, false⟩] } }) ∧
    (∀ l ms, (s.line l).lumenTimer = some ms →
      (30000 ≤ ms → (s.line l).queues.lumen = [] →
        exec (.lumenRepeat l) s = .next (s.setLine l { s.line l with
          lumenTimer := some 0
          queues := { (s.line l).queues with lumen := [⟨0, .lumen (s.line l).level, .line, false⟩] } })) ∧
      (∀ e es, 30000 ≤ ms → (s.line l).queues.lumen = e :: es →
        exec (.lumenRepeat l) s = .next (s.setLine l { s.line l with
          lumenTimer := some 0
          queues := { (s.line l).queues with lumen := { e with job := .lumen (s.line l).level } :: es } })) ∧
      (ms < 30000 → exec (.lumenRepeat l) s = .next s)) ∧
    (∀ n ms, s.nodes.look g = some n → n.state = .offline → n.retry = some ms →
      (30000 ≤ ms →
        ∃ t, exec (.offlineRetry g) s = .next t ∧ t.nodes.look g = some { n with retry := none } ∧
          (∀ k, k ≠ g → t.nodes.look k = s.nodes.look k) ∧
          { t with nodes := s.nodes } = s.setLine r.line
            { s.line r.line with queues := { (s.line r.line).queues with
                service := (s.line r.line).queues.service ++ [⟨g, .describe, .registry, false⟩] } }) ∧
      (ms < 30000 → exec (.offlineRetry g) s = .next s))

/-! ### Measurement and traffic -/

/-- R79, R83 to R85: a forward passage with Δ of 0 or a speed above 250 km/h adds one to rejected alone, and is made
known if it is the lane's first in the interval (the mark that says so is the model's, log 26); on a FAULTY lane a
plausible one clears the silent mark alone; otherwise it adds one to count, v to sum_v, occ to occupied_ms and one to
the class of its length. R80, R81: an EDGE to another level moves the passage machine by each row of its table, the
rises it ignores and the second starts among them; the four edges of a vehicle on two low loops, in each of the three
orders in which A rises first, make one forward passage, and in each of the three in which B rises first one reverse
passage (R86), counted always, handed on unless the lane is FAULTY, and rejected when Δ is 0; a gap above max_gap, or a
second rise, is one unpaired start. R76, R88: such an EDGE gives its loop the level with no held mark, a fall clears its
stuck mark, and the other loop stays. (The mark is cleared before the machine takes the fall, so that a passage
completed by the fall of a stuck loop is counted: the model's reading, log 40.) R76, R77, R91: a record that disagrees
with the loop's level ends the start at IDLE and counts one edge error; the one that exceeds edge_error_limit marks the
lane SUSPECT and is made known. R77, R82, R88: a HELD record that agrees adds one to the loop's held count, abandons a
start of A_LEAD or B_LEAD on its own loop as unpaired and a FWD_WAIT at A's fourth as rejected; at stuck_marks a high
loop is stuck, the lane excluded, and this made known unless its other loop was stuck already. R90: a node that leaves
ONLINE sets the node condition, every lane IDLE, excluded and with reason NODE; its return clears the condition, and
after a description every loop is low with no held mark and not stuck. -/
def Obligations.ForwardPassageIsMeasured : Prop :=
  (∀ (p : MeasureParams) (r : StationRec) (nc : Bool) (l : LaneRec) (tA tB tAf : Tick),
    p.class1Limit < p.class2Limit →
    let d := (tB - tA).toNat
    let v := (36 * r.spacing + d / 2) / d
    let occ := (tAf - tA).toNat
    let len := min 5000 ((r.spacing * occ + d / 2) / d - r.loopLength)
    let plus : Nat → Bool → Nat := fun c b => if b then min 65535 (c + 1) else c
    (d = 0 ∨ 250 < v →
      forwardPassage p r nc l tA tB tAf =
        ({ l with implausible := true, acc := { l.acc with rejected := min 65535 (l.acc.rejected + 1) } },
          if l.implausible then [] else [.implausible])) ∧
    (1 ≤ d → v ≤ 250 → l.faulty nc = true →
      forwardPassage p r nc l tA tB tAf = ({ l with silent := false }, [])) ∧
    (1 ≤ d → v ≤ 250 → l.faulty nc = false →
      forwardPassage p r nc l tA tB tAf =
        ({ l with acc := { l.acc with
            count := plus l.acc.count true
            sumV := min 4294967295 (l.acc.sumV + v)
            occupied := min 4294967295 (l.acc.occupied + occ)
            class1 := plus l.acc.class1 (decide (len ≤ p.class1Limit))
            class2 := plus l.acc.class2 (decide (p.class1Limit < len ∧ len ≤ p.class2Limit))
            class3 := plus l.acc.class3 (decide (p.class2Limit < len)) } }, []))) ∧
  (∀ (p : MeasureParams) (r : StationRec) (nc : Bool) (l : LaneRec) (n hA hB : Nat) (a a' b b' : Tick),
    l.machine = .idle → l.loopA = ⟨false, hA, false⟩ → l.loopB = ⟨false, hB, false⟩ →
    let edge : Bool → Bool → Tick → EdgeRec := fun isB high t => ⟨n, isB, false, high, t⟩
    let passed : LaneRec := { l with loopA := ⟨false, 0, false⟩, loopB := ⟨false, 0, false⟩ }
    let missed : Acc := { l.acc with unpaired := min 65535 (l.acc.unpaired + 1) }
    ((b - a).toNat ≤ p.maxGap →
      ∀ es, es ∈ [[edge false true a, edge true true b, edge false false a', edge true false b'],
          [edge false true a, edge false false a', edge true true b, edge true false b'],
          [edge false true a, edge true true b, edge true false b', edge false false a']] →
        takeRecords p r nc l es = forwardPassage p r nc passed a b a') ∧
    (p.maxGap < (b - a).toNat →
      takeRecords p r nc l [edge false true a, edge true true b] =
        ({ l with acc := missed, loopA := ⟨true, 0, false⟩, loopB := ⟨true, 0, false⟩ }, []) ∧
      takeRecords p r nc l [edge false true a, edge false false a', edge true true b] =
        ({ l with acc := missed, machine := .bLead b, loopA := ⟨false, 0, false⟩, loopB := ⟨true, 0, false⟩ }, [])) ∧
    takeRecords p r nc l [edge false true a, edge false false a', edge false true b] =
      ({ l with acc := missed, machine := .aLead b none, loopA := ⟨true, 0, false⟩ }, []) ∧
    ((a - b).toNat ≤ p.maxGap →
      ∀ es, es ∈ [[edge true true b, edge false true a, edge true false b', edge false false a'],
          [edge true true b, edge false true a, edge false false a', edge true false b'],
          [edge true true b, edge true false b', edge false true a, edge false false a']] →
        (1 ≤ (a - b).toNat →
          takeRecords p r nc l es =
            ({ passed with acc := { l.acc with reverse := min 65535 (l.acc.reverse + 1) } },
              if l.faulty nc then [] else [.reverse])) ∧
        ((a - b).toNat = 0 →
          takeRecords p r nc l es =
            ({ passed with implausible := true, acc := { l.acc with rejected := min 65535 (l.acc.rejected + 1) } },
              if l.implausible then [] else [.implausible])))) ∧
  (∀ (p : MeasureParams) (r : StationRec) (nc : Bool) (l : LaneRec) (e : EdgeRec),
    let x := l.loop e.loopB
    let y := (takeRecord p r nc l e).1
    let made := (takeRecord p r nc l e).2
    (x.high ≠ e.high → e.held = false →
      y.loop e.loopB = ⟨e.high, 0, e.high && x.stuck⟩ ∧ y.loop (!e.loopB) = l.loop (!e.loopB) ∧
        y = { l.setLoop e.loopB (y.loop e.loopB) with
              machine := y.machine, acc := y.acc, silent := y.silent, implausible := y.implausible } ∧
        y.acc.edgeErrors = l.acc.edgeErrors ∧ LaneEvent.edgeSequence ∉ made ∧ LaneEvent.stuckOn ∉ made) ∧
    (x.high ≠ e.high → e.held = false →
      let set : LaneRec := l.setLoop e.loopB ⟨e.high, 0, e.high && x.stuck⟩
      let ends : Passage → Acc → Prop := fun m a => y = { set with machine := m, acc := a } ∧ made = []
      let missed : Acc := { l.acc with unpaired := min 65535 (l.acc.unpaired + 1) }
      let riseA : Prop := e.loopB = false ∧ e.high = true
      let riseB : Prop := e.loopB = true ∧ e.high = true
      let fallA : Prop := e.loopB = false ∧ e.high = false
      (l.machine = .idle →
        (riseA → ends (.aLead e.tick none) l.acc) ∧
        (riseB → ends (if l.loopA.high then .idle else .bLead e.tick) l.acc) ∧
        (e.high = false → ends .idle l.acc)) ∧
      (∀ tA tAf, l.machine = .aLead tA tAf →
        (fallA → ends (.aLead tA (some e.tick)) l.acc) ∧
        (riseB → (e.tick - tA).toNat ≤ p.maxGap →
          (tAf = none → ends (.fwdWait tA e.tick) l.acc) ∧
          (∀ f, tAf = some f →
            takeRecord p r nc l e = forwardPassage p r nc { set with machine := .idle } tA e.tick f)) ∧
        (riseB → p.maxGap < (e.tick - tA).toNat → ends (if l.loopA.high then .idle else .bLead e.tick) missed) ∧
        (riseA → ends (.aLead e.tick none) missed) ∧
        (e.loopB = true → e.high = false → ends l.machine l.acc)) ∧
      (∀ tA tB, l.machine = .fwdWait tA tB →
        (fallA → takeRecord p r nc l e = forwardPassage p r nc { set with machine := .idle } tA tB e.tick) ∧
        (e.loopB = true → ends l.machine l.acc)) ∧
      (∀ tB, l.machine = .bLead tB →
        (riseA → (e.tick - tB).toNat ≤ p.maxGap →
          (1 ≤ (e.tick - tB).toNat →
            y = { set with machine := .revWait, acc := { l.acc with reverse := min 65535 (l.acc.reverse + 1) } } ∧
            made = if l.faulty nc then [] else [.reverse]) ∧
          ((e.tick - tB).toNat = 0 →
            y = { set with machine := .revWait, implausible := true,
                           acc := { l.acc with rejected := min 65535 (l.acc.rejected + 1) } } ∧
            made = if l.implausible then [] else [.implausible])) ∧
        (riseA → p.maxGap < (e.tick - tB).toNat → ends (.aLead e.tick none) missed) ∧
        (riseB → ends (.bLead e.tick) missed) ∧
        (e.high = false → ends l.machine l.acc)) ∧
      (l.machine = .revWait → ends (if e.high || (l.loop (!e.loopB)).high then .revWait else .idle) l.acc)) ∧
    (x.high = e.high ∧ e.held = false ∨ x.high ≠ e.high ∧ e.held = true →
      let n := min 65535 (l.acc.edgeErrors + 1)
      let crosses : Prop := l.acc.edgeErrors ≤ p.edgeErrorLimit ∧ p.edgeErrorLimit < n
      let z : Loop := if e.held then ⟨e.high, 1, e.high && x.stuck⟩ else { x with held := 0 }
      y = { l.setLoop e.loopB z with machine := .idle, acc := { l.acc with edgeErrors := n }, suspect := y.suspect } ∧
      (crosses → y.suspect = true ∧ made = [.edgeSequence]) ∧ (¬crosses → y.suspect = l.suspect ∧ made = [])) ∧
    (x.high = e.high → e.held = true →
      let n := min 255 (x.held + 1)
      let sticks : Prop := e.high = true ∧ n = p.stuckMarks
      let unpaired : Acc := { l.acc with unpaired := min 65535 (l.acc.unpaired + 1) }
      y = { l.setLoop e.loopB { x with held := n, stuck := (y.loop e.loopB).stuck } with
            machine := y.machine, acc := y.acc, excluded := y.excluded, seen := y.seen } ∧
      (sticks → (y.loop e.loopB).stuck = true ∧ y.excluded = true ∧ y.seen = { l.seen with stuckOn := true } ∧
        made = if l.loopA.stuck || l.loopB.stuck then [] else [.stuckOn]) ∧
      (¬sticks → (y.loop e.loopB).stuck = x.stuck ∧ y.excluded = l.excluded ∧ y.seen = l.seen ∧ made = []) ∧
      (∀ tA tAf tB, l.machine = .aLead tA tAf ∧ e.loopB = false ∨ l.machine = .bLead tB ∧ e.loopB = true →
        y.machine = .idle ∧ y.acc = unpaired) ∧
      (∀ tA tB, l.machine = .fwdWait tA tB → e.loopB = false → n = 4 →
        y.machine = .idle ∧ y.acc = { l.acc with rejected := min 65535 (l.acc.rejected + 1) }) ∧
      (∀ tA tAf tB, l.machine = .idle ∨ l.machine = .aLead tA tAf ∧ e.loopB = true ∨
          l.machine = .bLead tB ∧ e.loopB = false ∨ l.machine = .fwdWait tA tB ∧ (e.loopB = true ∨ n ≠ 4) →
        y.machine = l.machine ∧ y.acc = l.acc) ∧
      (l.machine = .revWait → y.acc = l.acc ∧
        y.machine = if l.loopA.high || l.loopB.high then .revWait else .idle))) ∧
  (∀ (s : State) (g st : Nat) (sr : StationRec) (en : StationEntry) (old new : NodeState),
    s.hosted g = some (st, sr) → s.measure.stations.look st = some en →
    let t := s.measureOnNode g old new
    { t with measure := s.measure } = s ∧ t.measure.timer = s.measure.timer ∧
    (∀ k, k ≠ st → t.measure.stations.look k = s.measure.stations.look k) ∧
    (old = .online → new ≠ .online →
      t.measure.stations.look st = some ⟨true, en.lanes.map fun kv =>
        (kv.1, { kv.2 with machine := .idle, excluded := true, seen := { kv.2.seen with node := true } })⟩) ∧
    (old = .suspect → new = .online → t.measure.stations.look st = some ⟨false, en.lanes⟩) ∧
    (old ≠ .online → old ≠ .suspect → new = .online →
      t.measure.stations.look st = some ⟨false, en.lanes.map fun kv =>
        (kv.1, { kv.2 with loopA := ⟨false, 0, false⟩, loopB := ⟨false, 0, false⟩ })⟩) ∧
    ((old = .online ↔ new = .online) → t = s))

/-- R93 to R95, R97, R11: an interval close with its timer due takes the waiting values, starts the next interval with
the timer at 0, every accumulator at 0 and every suspect mark clear, keeps every station and every lane, carries
machines, levels, held counts and stuck marks over, and triggers a pass. R89: a lane becomes silent exactly when it is
not FAULTY nor shoulder excluded, its loop A is low with at least silent_marks held, and the station's other included
lanes carry at least silent_flow; each such lane makes one SILENT record in MEASURE (in a free order, log 25), those of
all stations before the first station is handed over (the model's reading of the steps of R94, log 21); a silent mark
carries over. R87, R95: excluded and reasons seen start from the reasons present. R92: the shoulder mark follows the
section of the host gantry. R94, R97: each station is then closed in ascending number, with the results of its lanes as
`results` says them and the parameters that have just taken effect, adjusted first where a CONGESTION group waited
(R104); traffic state, notices and banks are what these closes leave. (O55 says what one close does.) Node, rollout and
incident state and the demands are left alone. (The marks lastIncluded, which keeps whether the lane was included at
this close, and implausible, which starts clear, are the model's, log 26.) -/
def Obligations.IntervalCloseStartsNext : Prop :=
  ∀ (s : State) (ms : Nat), s.Wf → s.resetHigh = true → s.geo.mode = .run → s.measure.timer = some ms →
    s.geo.params.measure.interval * 1000 ≤ ms →
    ∃ t, exec .intervalClose s = .next t ∧ t.measure.timer = some 0 ∧ t.plan.running ≠ none ∧
      t.geo = { s.geo with
        params := { s.geo.params with
          congestion := s.geo.waiting.congestion.getD s.geo.params.congestion
          queue := s.geo.waiting.queue.getD s.geo.params.queue
          wrongway := s.geo.waiting.wrongway.getD s.geo.params.wrongway }
        waiting := ⟨none, none, none⟩ } ∧
      (∃ quiet : List Nat,
        quiet.Perm (s.measure.stations.flatMap fun kv =>
          (kv.2.lanes.filter fun x => kv.2.silentNow s.geo.params.measure x.1 x.2).map fun _ => kv.1) ∧
        (let v := quiet.foldl (fun (w : State) st =>
            w.record .measure .silent .fault ((s.geo.stations.look st).map fun r => r.host) (some st)) s
         let u := s.measure.stations.foldl (fun (w : State) kv =>
            w.closeStation s.geo.waiting.congestion.isSome s.clock kv.1 (kv.2.results s.geo.params.measure))
            { v with geo := t.geo }
         t.traffic = u.traffic ∧ t.link = u.link ∧ t.banks = u.banks)) ∧
      t.measure.stations.keys = s.measure.stations.keys ∧
      (∀ st en0, s.measure.stations.look st = some en0 →
        ∃ en, t.measure.stations.look st = some en ∧ en.nodeCond = en0.nodeCond ∧ en.lanes.keys = en0.lanes.keys) ∧
      (∀ st en p y, t.measure.stations.look st = some en → en.lanes.look p = some y →
        y.acc = ⟨0, 0, 0, 0, 0, 0, 0, 0, 0, 0⟩ ∧ y.suspect = false ∧ y.implausible = false ∧
        ∃ en0 y0, s.measure.stations.look st = some en0 ∧ en0.lanes.look p = some y0 ∧ y.machine = y0.machine ∧
          y.loopA = y0.loopA ∧ y.loopB = y0.loopB ∧ en.nodeCond = en0.nodeCond ∧
          (let others := (en0.lanes.filter fun kv => kv.1 != p && !kv.2.excluded && !kv.2.shoulderExcluded).map
              fun kv => kv.2.acc.count
           let test : Prop := y0.faulty en0.nodeCond = false ∧ y0.shoulderExcluded = false ∧ y0.loopA.high = false ∧
              s.geo.params.measure.silentMarks ≤ y0.loopA.held ∧
              s.geo.params.measure.silentFlow ≤ others.sum * 3600000 / (s.geo.params.measure.interval * 1000)
           (y.silent = true ↔ y0.silent = true ∨ test) ∧ (test → (t.banks.look .measure).held ≠ none) ∧
           (y.lastIncluded = true ↔ y0.excluded = false ∧ y0.shoulderExcluded = false ∧ ¬test) ∧
           y.seen = ⟨y0.loopA.stuck || y0.loopB.stuck, y.silent, en0.nodeCond⟩ ∧
           (y.excluded = true ↔ y.seen ≠ ⟨false, false, false⟩) ∧
           (y.shoulderExcluded = true → p = 0) ∧
           (p = 0 → ∀ r h, s.geo.stations.look st = some r → s.geo.gantries.look r.host = some h →
             (y.shoulderExcluded = true ↔ s.sections.look h.sec ≠ some .opened)))) ∧
      t.nodes = s.nodes ∧ t.rollout = s.rollout ∧ t.incidents = s.incidents ∧ t.sections = s.sections ∧
      t.plan.demands = s.plan.demands ∧ t.plan.targets = s.plan.targets ∧ t.lineA = s.lineA ∧ t.lineB = s.lineB ∧
      t.clock = s.clock

/-- R101: one step of the filter, with k from 1 to 3, moves a smoothed value to x plus the floor of the difference
over 2^k, and leaves it between its old value and 16 times the interval value. R103: the level becomes at once the
highest present level that the flow calls for, if that is above it; with no such call a flow below flow_off counts,
the level dropping one step at release_count, a flow not below it sets the count to 0, and NONE stays. R104: a level
that is no longer present becomes the highest present one below it, or NONE, with count 0. R106: a queue that is OFF
comes ON at once below queue_on and stays OFF at or above it; one that is ON counts the closes above queue_off, goes
OFF at queue_release, and starts again at or below it. R98 to R102: a VALID close takes V and F from the sums over the
included lanes, smooths them, and gives the rounded values to the two machines. R97, R108: an INVALID close keeps the
values and machines, V and F absent, and counts; when the count reaches 3 the level is NONE and STATION_INVALID is
recorded; either close ends with its STATION_REPORT. At a close that takes a CONGESTION group the adjustment of
R104 comes first. (A STATION_RESET between restarts the count: log 36.) -/
def Obligations.TrafficMachinesFollowTheirRules : Prop :=
  (∀ k x v : Nat, 1 ≤ k → k ≤ 3 →
    ((smooth k x v : Int) = (x : Int) + ((16 * v : Int) - x) / 2 ^ k) ∧
    (x ≤ 16 * v → x ≤ smooth k x v ∧ smooth k x v ≤ 16 * v) ∧
    (16 * v ≤ x → 16 * v ≤ smooth k x v ∧ smooth k x v ≤ x)) ∧
  (∀ (c : CongestionParams) (q : Nat) (t : StationState),
    let called : Level → Prop := fun x => ∃ l, c.level x = some l ∧ l.flowOn ≠ 0 ∧ l.flowOn ≤ q
    (∀ x : Level, called x → t.level.rank < x.rank → (∀ z : Level, x.rank < z.rank → ¬called z) →
      levelMachine c q t = { t with level := x, levelCount := 0 }) ∧
    ((∀ x : Level, called x → x.rank ≤ t.level.rank) →
      (t.level = .clear → levelMachine c q t = t) ∧
      (∀ l, c.level t.level = some l →
        (l.flowOff ≤ q → levelMachine c q t = { t with levelCount := 0 }) ∧
        (q < l.flowOff → t.levelCount + 1 < c.releaseCount →
          levelMachine c q t = { t with levelCount := t.levelCount + 1 }) ∧
        (∀ x : Level, q < l.flowOff → c.releaseCount ≤ t.levelCount + 1 → x.rank + 1 = t.level.rank →
          levelMachine c q t = { t with level := x, levelCount := 0 }))) ∧
    ((∀ l, c.level t.level = some l → l.flowOn ≠ 0) → adjustLevel c t = t) ∧
    (∀ l, c.level t.level = some l → l.flowOn = 0 →
      ∃ x : Level, adjustLevel c t = { t with level := x, levelCount := 0 } ∧ x.rank < t.level.rank ∧
        (∀ m, c.level x = some m → m.flowOn ≠ 0) ∧
        ∀ (z : Level) (m : LevelParams), x.rank < z.rank → z.rank < t.level.rank → c.level z = some m → m.flowOn = 0)) ∧
  (∀ (q : QueueParams) (v : Nat) (t : StationState),
    (t.queueOn = false →
      (v < q.queueOn → queueMachine q v t = { t with queueOn := true, queueCount := 0 }) ∧
      (q.queueOn ≤ v → queueMachine q v t = t)) ∧
    (t.queueOn = true →
      (v ≤ q.queueOff → queueMachine q v t = { t with queueCount := 0 }) ∧
      (q.queueOff < v → t.queueCount + 1 < q.queueRelease →
        queueMachine q v t = { t with queueCount := t.queueCount + 1 }) ∧
      (q.queueOff < v → q.queueRelease ≤ t.queueCount + 1 →
        queueMachine q v t = { t with queueOn := false, queueCount := 0 }))) ∧
  (∀ (p : Params) (ls : List LaneResult) (t : StationState),
    let used := ls.filter fun y => y.report.included
    let width := used.length * (p.measure.interval * 1000)
    let count := (used.map fun y => y.report.count).sum
    let v := if count = 0 then
        (if 500 ≤ (used.map fun y => y.occupied).sum * 1000 / width then 0 else p.measure.freeSpeed)
      else ((used.map fun y => y.sumV).sum + count / 2) / count
    let f := min 4000 ((count * 3600000 + width / 2) / width)
    let s1 := smooth p.measure.smoothingShift t.s v
    let q1 := smooth p.measure.smoothingShift t.q f
    validClose p (stationSums ls) t =
      queueMachine p.queue ((s1 + 8) / 16) (levelMachine p.congestion ((q1 + 8) / 16)
        { t with s := s1, q := q1, valid := true, invalidCloses := 0, v := some v, f := some f })) ∧
  (∀ (s : State) (st : Nat) (now : Clock) (ls : List LaneResult) (x0 : StationState) (adjust : Bool),
    s.traffic.look st = some x0 →
    let t := s.closeStation adjust now st ls
    let x := if adjust then adjustLevel s.geo.params.congestion x0 else x0
    let n := min 255 (x.invalidCloses + 1)
    let held : StationState :=
      { x with valid := false, v := none, f := none, invalidCloses := n,
               level := if n = 3 then .clear else x.level, levelCount := if n = 3 then 0 else x.levelCount }
    let report : StationState → NoticeBody := .stationReport st now (ls.map fun y => y.report)
    (∀ k, k ≠ st → t.traffic.look k = s.traffic.look k) ∧
    ((∃ y ∈ ls, y.report.included = true) →
      let y := validClose s.geo.params (stationSums ls) x
      t.traffic.look st = some y ∧ t = State.raise (report y) { s with traffic := t.traffic }) ∧
    ((∀ y ∈ ls, y.report.included = false) →
      t.traffic.look st = some held ∧
      (n ≠ 3 → t = State.raise (report held) { s with traffic := t.traffic }) ∧
      (n = 3 → t = State.raise (report held)
        (State.record .measure .stationInvalid .fault ((s.geo.stations.look st).map fun r => r.host) (some st)
          { s with traffic := t.traffic }))))

/-- R110: a reverse passage joins the window of its station, where the entries younger than window stay, at most 3;
below the threshold nothing else happens. R111: at the threshold the window is emptied and WRONG_WAY_ALERT raised, with
the station, its chainage, the lane and the clock of each confirming passage; then R120: of the DETECTION records whose
anchor stands at the station or downstream within track, the one with the lowest anchor (of two at one chainage the
lower handle) is tracked: anchor, extent and expiry are replaced, with one INCIDENT_EVENT that names the old anchor and
a trigger (R122); with none, a WRONG_WAY record of origin DETECTION, anchored at the station, takes the lowest free
slot, with its INCIDENT_EVENT and trigger; with none and no free slot, DETECTION_TABLE_FULL is recorded FAULT in PLAN
with the station. Nothing else changes. (An undefined anchor counts as chainage 0; no run holds one.) -/
def Obligations.WrongWayDriverIsConfirmed : Prop :=
  ∀ (s : State) (st lane : Nat) (x : StationState) (r : StationRec), s.Wf → s.traffic.look st = some x →
    s.geo.stations.look st = some r →
    let p := s.geo.params.wrongway
    let w0 := x.window.filter (fun e => decide ((s.clock - e.clock).toNat < p.window * 1000)) ++ [⟨s.clock, lane⟩]
    let w := if w0.length = 4 then w0.tail else w0
    (w.length < p.threshold →
      (s.reversePassage st lane).traffic.look st = some { x with window := w } ∧
      (∀ k, k ≠ st → (s.reversePassage st lane).traffic.look k = s.traffic.look k) ∧
      { s.reversePassage st lane with traffic := s.traffic } = s) ∧
    (p.threshold ≤ w.length →
      ∃ tr : Table StationState, tr.look st = some { x with window := [] } ∧
        (∀ k, k ≠ st → tr.look k = s.traffic.look k) ∧
        (let a : State := State.raise (.wrongWayAlert st r.chainage lane (w.map fun e => e.clock)) { s with traffic := tr }
         let chainage : Nat → Nat := fun k => match s.geo.stations.look k with | some y => y.chainage | none => 0
         let tracks : Nat → Incident → Nat → Prop := fun h i b => s.incidents.look h = some i ∧ i.origin = .detection ∧
           i.anchor = some b ∧ r.chainage ≤ chainage b ∧ chainage b ≤ r.chainage + p.track
         (∀ h i b, tracks h i b →
           (∀ h' i' b', tracks h' i' b' → chainage b < chainage b' ∨ chainage b = chainage b' ∧ h ≤ h') →
           let i' : Incident := { i with anchor := some st, start := r.chainage, stop := r.chainage,
                                         expiry := some (p.expiry * 1000) }
           ∃ ins : Table Incident, ins.look h = some i' ∧ (∀ k, k ≠ h → ins.look k = s.incidents.look k) ∧
             s.reversePassage st lane =
               State.trigger (State.raise (.incidentEvent .tracked h i' (some b)) { a with incidents := ins })) ∧
         ((∀ h i b, ¬tracks h i b) →
           (∀ h, h < 16 → s.incidents.look h = none → (∀ k, k < h → s.incidents.look k ≠ none) →
             let i' : Incident :=
               { kind := .wrongWay, origin := .detection, start := r.chainage, stop := r.chainage, lanes := none,
                 cap := none, legend := none, anchor := some st, expiry := some (p.expiry * 1000), raised := s.clock }
             ∃ ins : Table Incident, ins.look h = some i' ∧ (∀ k, k ≠ h → ins.look k = s.incidents.look k) ∧
               s.reversePassage st lane =
                 State.trigger (State.raise (.incidentEvent .raised h i' none) { a with incidents := ins })) ∧
           ((∀ h, h < 16 → s.incidents.look h ≠ none) →
             s.reversePassage st lane = a.record .plan .detectionTableFull .fault none (some st)))))

/-! ### Plan and rollout -/

/-- R136: a pass that completes replaces the targets together with those of its snapshot, and leaves the engine IDLE, or
running a new pass with a snapshot of what stands then and the again-flag clear when it was set; nodes, incidents,
demands and traffic state stay. R150: every sign that is lost now and was not lost in the old targets is recorded
UNSERVED in PLAN with its gantry, WARN for a wanted SPEED and FAULT for any other; no sign else makes a record or a
notice (their order is free, log 25). R157: the targets are published gantry by gantry in descending number. At one
gantry: an ONLINE node with no SHOW in flight whose commanded record differs from the targets gets a pending ORDINARY
SHOW of them at the tail of its class, or has the contents of its pending one replaced, the retry mark kept, and its
confirmation ends, with a confirmation STATE that already waits in CONFIRM withdrawn (R164; a retry is the line
controller's own and stays); where the record equals the targets an ORDINARY pending SHOW without the retry mark is
removed, and a RESEND or a retry stays. A SUSPECT node's retry takes new contents and is not removed. A SHOW in flight,
a SHOW that carries the targets, and a node in any other state are left alone. R158: an ORDINARY SHOW is URGENT exactly
when the cell state of some lane signal differs from that of its commanded entry, or the panel differs and one of the
two is LEGEND 1 to 4; a RESEND exactly when it carries CLOSED, a DIVERT or LEGEND 1 to 4. -/
def Obligations.PassCompletesWithTargets : Prop :=
  (∀ (s : State) (n : Snapshot), s.resetHigh = true → s.plan.running = some n →
    ∃ t, exec .passComplete s = .next t ∧ t.plan.targets = n.targets ∧ t.plan.again = false ∧
      (s.plan.again = false → t.plan.running = none) ∧
      (s.plan.again = true → t.plan.running = some t.snapshot) ∧
      (∃ es : List (Nat × Severity),
        es.Perm (n.targets.flatMap fun kv =>
          let before : List SignTarget := ((s.plan.targets.look kv.1).map fun o => o.signs).getD []
          (kv.2.signs.zipIdx.filter fun x => x.1.lost && !(before[x.2]?.any fun y => y.lost)).map fun x =>
            (kv.1, match x.1.wanted with | .speed _ => Severity.warn | _ => .fault)) ∧
        (let u := es.foldl (fun (w : State) e => w.record .plan .unserved e.2 (some e.1) none) s
         t.banks = u.banks ∧ t.link = u.link)) ∧
      (let u := (n.targets.map fun kv => kv.1).reverse.foldl (fun (w : State) g => w.publish g)
          { s with plan := { s.plan with targets := n.targets } }
       t.rollout = u.rollout ∧ t.lineA = u.lineA ∧ t.lineB = u.lineB) ∧
      t.plan.demands = s.plan.demands ∧ t.nodes = s.nodes ∧ t.incidents = s.incidents ∧ t.sections = s.sections ∧
      t.traffic = s.traffic ∧ t.measure = s.measure ∧ t.geo = s.geo ∧ t.clock = s.clock) ∧
  (∀ (s : State) (g : Nat) (gr : GantryRec) (r : RolloutRec), s.geo.gantries.look g = some gr →
    s.rollout.look g = some r →
    let t := s.publish g
    let want := s.shown g
    let same : Prop := r.commanded = want.map some
    let cls := showClass gr.kinds .ordinary want r.commanded
    let settled : RolloutRec → RolloutRec → Prop := fun a b =>
      b = { a with pending := b.pending, gateHeld := b.gateHeld, gateTimer := b.gateTimer, gateExpired := b.gateExpired,
                   confirmation := .settled, polls := 0, resends := 0 }
    let unpolled : Prop := (t.line gr.line).held.look g = none ∧
      (∀ k, k ≠ g → (t.line gr.line).held.look k = (s.line gr.line).held.look k) ∧
      (t.line gr.line).queues.confirm = (s.line gr.line).queues.confirm.filter fun e => e.gantry != g || e.retry
    let replaced : Pending → Prop := fun p =>
      (∃ r', t.rollout.look g = some r' ∧ settled r r' ∧ r'.pending = some ⟨⟨want, .ordinary, cls⟩, p.retry⟩) ∧
      unpolled ∧
      (cls = p.body.cls → (t.line gr.line).queues.urgentShow = (s.line gr.line).queues.urgentShow ∧
        (t.line gr.line).queues.normalShow = (s.line gr.line).queues.normalShow) ∧
      (cls ≠ p.body.cls → ((t.line gr.line).queues.look cls.cls).getLast? =
          some ⟨g, .display, if p.retry then .line else .rollout, p.retry⟩ ∧
        ∀ e ∈ (t.line gr.line).queues.look p.body.cls.cls, e.gantry ≠ g)
    (∀ k, k ≠ g → t.rollout.look k = s.rollout.look k) ∧ (∀ l, l ≠ gr.line → t.line l = s.line l) ∧
    { t with lineA := s.lineA, lineB := s.lineB, rollout := s.rollout } = s ∧
    (s.nodeState g ≠ some .online → s.nodeState g ≠ some .suspect → t = s) ∧
    (s.nodeState g = some .online →
      (r.inFlight = true → t = s) ∧
      (r.inFlight = false → same →
        (∀ p, r.pending = some p → p.body.kind = .ordinary → p.retry = false →
          t.rollout.look g = some
            { r with pending := none, gateHeld := false, gateTimer := none, gateExpired := false } ∧
          ∀ e ∈ (t.line gr.line).queues.urgentShow ++ (t.line gr.line).queues.normalShow, e.gantry ≠ g) ∧
        ((∀ p, r.pending = some p → p.body.kind = .resend ∨ p.retry = true) → t = s)) ∧
      (r.inFlight = false → ¬same →
        (r.pending = none →
          (∃ r', t.rollout.look g = some r' ∧ settled r r' ∧ r'.gateExpired = false ∧
            r'.pending = some ⟨⟨want, .ordinary, cls⟩, false⟩) ∧
          unpolled ∧
          ((t.line gr.line).queues.look cls.cls).getLast? = some ⟨g, .display, .rollout, false⟩) ∧
        (∀ p, r.pending = some p → (p.body.contents = want → t = s) ∧ (p.body.contents ≠ want → replaced p)))) ∧
    (s.nodeState g = some .suspect →
      (∀ p, r.pending = some p → p.retry = true → p.body.contents ≠ want → replaced p) ∧
      ((∀ p, r.pending = some p → p.retry = true → p.body.contents = want) → t = s))) ∧
  (∀ (kinds : List SignKind) (as : List Aspect) (cs : List (Option Aspect)),
    let warns : Option Aspect → Prop := fun o => ∃ m, 1 ≤ m ∧ m ≤ 4 ∧ o = some (.legend m)
    (showClass kinds .ordinary as cs = .urgent ↔
      ∃ (i : Nat) (k : SignKind) (a : Aspect) (c : Option Aspect), kinds[i]? = some k ∧ as[i]? = some a ∧ cs[i]? = some c ∧
        ((∃ p, k = .lane p) ∧ cellState (some a) ≠ cellState c ∨
          k = .panel ∧ c ≠ some a ∧ (warns (some a) ∨ warns c))) ∧
    (showClass kinds .resend as cs = .urgent ↔
      ∃ a ∈ as, a = .closed ∨ (∃ d, a = .divert d) ∨ warns (some a)))

/-- R139: a pass has a target for every gantry of its snapshot. R138, R143: the gantry speed is the lowest speed of the
table that is present, each taken as at most corridor_max. R140 to R142, R144: a lane signal wants its cell aspect, else
the gantry speed, else BLANK; R145: the panel wants the lowest legend that reaches it, else BLANK. What is asked of a
gantry and what it wants, `asksCell`, `wantsCell`, `asksSpeed` and `asksLegend` say in the words of R105, R107, R123 to
R128, R140 to R145 and R149. (The snapshot's gantries stand in rising number: O5 keeps that.) R146 to R148: each sign
shows BLANK or an aspect of the list it was negotiated with: its own capability list of the snapshot while it is
serviceable, the empty list otherwise. A wanted SPEED is shown as the greatest listed speed that is no greater, a
wanted CLOSED or LEGEND as itself if listed, a wanted DIVERT as itself or else as CLOSED if listed, and anything else
as BLANK; the unserved mark stands exactly on a wanted aspect shown as BLANK. R149, R150: an unserved lane signal is
marked lost exactly when no continuous gantry g−1 has its position, the panel never. -/
def Obligations.PlanShowsOnlyWhatSignsOffer : Prop :=
  ∀ n : Snapshot, n.targets.keys = n.gantries.keys ∧ ∀ (g : Nat) (t : Target), (g, t) ∈ n.targets →
    (∀ v, t.speed = some v → v ≤ n.plan.corridorMax) ∧
    ∃ r, (g, r) ∈ n.gantries ∧ t.signs.length = r.kinds.length ∧
      (n.gantries.rising = true → ∀ v, t.speed = some v ↔
        (∃ u, n.asksSpeed g r u ∧ v = min u n.plan.corridorMax) ∧
          ∀ u, n.asksSpeed g r u → v ≤ min u n.plan.corridorMax) ∧
      ∀ (i : Nat) (x : SignTarget) (k : SignKind), t.signs[i]? = some x → r.kinds[i]? = some k →
        let list : List Aspect :=
          match ((n.signs.look g).getD ([] : List SignView))[i]? with
          | some v => if v.serviceable then v.caps else []
          | none => []
        (n.gantries.rising = true →
          (∀ p, k = .lane p →
            (∀ a : Cell, n.wantsCell g r p a → x.wanted = a.toAspect) ∧
            ((∀ a : Cell, ¬n.wantsCell g r p a) →
              (∀ v, t.speed = some v → x.wanted = .speed v) ∧ (t.speed = none → x.wanted = .blank)) ∧
            (x.lost = true ↔ x.unserved = true ∧
              ¬∃ q, n.gantries.look (g - 1) = some q ∧ g - 1 ∈ n.contin ∧ q.lanes.getLsbD p = true)) ∧
          (k = .panel →
            (∀ m, n.asksLegend g r m → (∀ u, n.asksLegend g r u → m ≤ u) → x.wanted = .legend m) ∧
            ((∀ m, ¬n.asksLegend g r m) → x.wanted = .blank) ∧ x.lost = false)) ∧
        (x.shown = .blank ∨ x.shown ∈ list) ∧ Aspect.fits k x.wanted = true ∧ Aspect.fits k x.shown = true ∧
        (x.wanted = .blank → x.shown = .blank) ∧
        (∀ v, x.wanted = .speed v → (x.shown = .blank ∨ ∃ u, x.shown = .speed u ∧ u ≤ v) ∧
          ∀ w, .speed w ∈ list → w ≤ v → ∃ u, x.shown = .speed u ∧ w ≤ u) ∧
        (x.wanted = .closed → x.shown = if .closed ∈ list then .closed else .blank) ∧
        (∀ d, x.wanted = .divert d →
          x.shown = if .divert d ∈ list then .divert d else if .closed ∈ list then .closed else .blank) ∧
        (∀ m, x.wanted = .legend m → x.shown = if .legend m ∈ list then .legend m else .blank) ∧
        (x.unserved = true ↔ x.wanted ≠ .blank ∧ x.shown = .blank) ∧ (x.mismatch = true ↔ x.shown ≠ x.wanted) ∧
        (x.lost = true → x.unserved = true)

/-- R161, R71: at its evaluation the gate of a pending SHOW is HELD exactly while it has not expired and, in some lane
position, one of the two conditions holds: adding (CLOSED where none is commanded, and the neighbour g−1 confirms
neither CLOSED nor a DIVERT) or removing (a commanded CLOSED or DIVERT goes while the neighbour g+1 confirms CLOSED). A
neighbour that is not continuous with g, has no sign for the position or one that is not serviceable is exempt. R163:
the timer starts at 0 at the first hold and is kept else. R50, R162: a HELD SHOW is not eligible. R162, at the event
itself: after an outcome of a telegram, and after GANTRY_SERVICE, the gates of g−1 and g+1 stand as R161 says where the
confirmed record of g or the serviceability of one of its lane signals has changed (a change elsewhere leaves a gate
that stands standing); where the pending SHOW of g is created, replaced or taken as a retry, by an outcome or by a pass
that completes, its gate stands; a PLAN group taken in RUN leaves every gate standing. R163: a publication that replaces
the contents starts gate and timer afresh where the closures shown change, and keeps the expiry mark where they do not.
A gate timer that has reached gate_time expires: the mark is set and a HELD SHOW is released with one GATE_EXPIRED
record in PLAN; before gate_time nothing happens. That code 4 names the PLAN group is the model's reading (log 12). -/
def Obligations.GateHoldsUntilItExpires : Prop :=
  (∀ (s : State) (g : Nat) (r : RolloutRec) (q : Pending), s.rollout.look g = some r → r.pending = some q →
    let t := s.evalGate g
    ∃ r', t.rollout.look g = some r' ∧
      (r'.gateHeld = true ↔ r.gateExpired = false ∧ s.gateAsks g q.body.contents r.commanded) ∧
      r'.gateTimer = (if r'.gateHeld = true ∧ r.gateTimer = none then some 0 else r.gateTimer) ∧
      { r' with gateHeld := r.gateHeld, gateTimer := r.gateTimer } = r ∧
      (∀ k, k ≠ g → t.rollout.look k = s.rollout.look k) ∧ { t with rollout := s.rollout } = s ∧ t.gateStands g ∧
      (r'.gateHeld = true → ∀ d, t.eligible ⟨g, .display, d, q.retry⟩ = false)) ∧
  (∀ (s t : State) (l : Line) (x : Transcript) (f : Flight) (en : Ending) (c : Instr), s.ending l x = some (f, en) →
    (c ∈ [.showAccepted l x, .stateReply l x, .traceReply l x, .describeReply l x, .capsReply l x] ∨
      ∃ w : Failure, c = w.row l x) → exec c s = .next t →
    (∀ k, k + 1 = f.gantry ∨ k = f.gantry + 1 →
      ((∃ p, ¬(t.laneTested f.gantry p ↔ s.laneTested f.gantry p)) ∨
        (t.rollout.look f.gantry).map (·.confirmed) ≠ (s.rollout.look f.gantry).map (·.confirmed) → t.gateStands k) ∧
      (s.gateStands k → t.gateStands k)) ∧
    ((t.rollout.look f.gantry).bind (·.pending) ≠ (s.rollout.look f.gantry).bind (·.pending) →
      t.gateStands f.gantry)) ∧
  (∀ (s t : State) (f : Frame) (rest : List Frame) (g b : Byte) (k : Nat), s.takes 0x0F#8 f rest →
    f.payload = [g, b] → exec .gantryService s = .next t → k + 1 = g.toNat ∨ k = g.toNat + 1 →
    (∃ p, ¬(t.laneTested g.toNat p ↔ s.laneTested g.toNat p)) ∨
      (t.rollout.look g.toNat).map (·.confirmed) ≠ (s.rollout.look g.toNat).map (·.confirmed) → t.gateStands k) ∧
  (∀ (s t : State) (g : Nat), exec .passComplete s = .next t →
    (t.rollout.look g).bind (·.pending) ≠ (s.rollout.look g).bind (·.pending) → t.gateStands g) ∧
  (∀ (s t : State) (f : Frame) (rest : List Frame) (fields : List Byte) (rep : Reply), s.takes 0x04#8 f rest →
    s.geo.mode = .run → f.payload = 4#8 :: fields → exec .setParameters s = .next t →
    t.link.replySlot = some rep → rep.result = .ok ∨ rep.result = .okClamped → ∀ k, t.gateStands k) ∧
  (∀ (s : State) (g : Nat) (gr : GantryRec) (r : RolloutRec) (q : Pending), s.geo.gantries.look g = some gr →
    s.nodeState g = some .online → s.rollout.look g = some r → r.inFlight = false → r.pending = some q →
    r.commanded ≠ (s.shown g).map some → q.body.contents ≠ s.shown g →
    let same : Prop := ∀ p a, a.closes → (entryAt gr.kinds q.body.contents p = some a ↔
      entryAt gr.kinds (s.shown g) p = some a)
    ∃ r', (s.publish g).rollout.look g = some r' ∧
      (same → r'.gateExpired = r.gateExpired ∧ (r.gateTimer ≠ none → r'.gateTimer = r.gateTimer)) ∧
      (¬same → r'.gateExpired = false ∧ r'.gateTimer = if r'.gateHeld = true then some 0 else none)) ∧
  (∀ (s : State) (g : Nat) (r : RolloutRec) (q : Pending) (ms : Nat), s.resetHigh = true →
      s.rollout.look g = some r → r.pending = some q → r.gateTimer = some ms → r.gateExpired = false →
      (s.geo.params.plan.gateTime * 1000 ≤ ms →
        ∃ t, exec (.gateExpired g) s = .next t ∧
          t.rollout.look g = some { r with gateExpired := true, gateHeld := false } ∧
          (∀ k, k ≠ g → t.rollout.look k = s.rollout.look k) ∧
          (r.gateHeld = false → { t with rollout := s.rollout } = s) ∧
          (r.gateHeld = true → t = State.record .plan .gateExpired .warn (some g) none { s with rollout := t.rollout })) ∧
      (ms < s.geo.params.plan.gateTime * 1000 → exec (.gateExpired g) s = .next s))

/-! ### Wire formats -/

/-- R177: the code of every aspect a sign can show names that aspect again, and no two bytes name one aspect. R45,
R176: the payload of a STATE reply that carries flags and, for every sign of the gantry, a health and an aspect of its
kind is decoded to exactly those; one with another number of signs is refused. R18, R33: a byte that is sent is a low
start bit, the data least significant bit first, a parity bit (odd on a gantry line, even on SUP_TX) and a high stop
bit. R33: on a gantry line it is driven for its eleven bit times, TXEN asserted, and the slot after it is released.
R34, R38, R42: a broadcast and a SHOW that is accepted drive the bytes of the request, each once; an ADDRESS that is
not acknowledged is driven a second time. R33, R40: after an accepted request the line is released but for the slots
of the reply, ACK (low, high) on each byte of an intact reply and NACK (high, low) on a faulty one. -/
def Obligations.WireCodesRoundTrip : Prop :=
  (∀ a : Aspect, (a = .blank ∨ a = .closed ∨ a = .divert .near ∨ a = .divert .off ∨
      (∃ k, 2 ≤ k ∧ k ≤ 13 ∧ a = .speed (10 * k)) ∨ ∃ n, 1 ≤ n ∧ n ≤ 63 ∧ a = .legend n) →
    aspectOfCode a.code = some a) ∧
  (∀ b c : Byte, ∀ a, aspectOfCode b = some a → aspectOfCode c = some a → b = c) ∧
  (∀ (kinds : List SignKind) (xs : List (Health × Aspect)) (restarted overflow : Bool),
    (∀ y ∈ xs, aspectOfCode y.2.code = some y.2) →
    (xs.length = kinds.length → (∀ z ∈ kinds.zip xs, Aspect.fits z.1 z.2.2 = true) →
      decodeState kinds (BitVec.ofNat 8 (restarted.toNat + 2 * overflow.toNat) ::
        xs.flatMap fun y => [BitVec.ofNat 8 y.1.code, y.2.code]) = some ⟨restarted, overflow, xs⟩) ∧
    (xs.length ≠ kinds.length →
      decodeState kinds (BitVec.ofNat 8 (restarted.toNat + 2 * overflow.toNat) ::
        xs.flatMap fun y => [BitVec.ofNat 8 y.1.code, y.2.code]) = none)) ∧
  (∀ (b : Byte) (i : Nat), i < 8 →
    (lineBits b)[i + 1]? = some (b.getLsbD i) ∧ (supBits b)[i + 1]? = some (b.getLsbD i) ∧
    (lineBits b)[0]? = some false ∧ (supBits b)[0]? = some false ∧
    (lineBits b)[10]? = some true ∧ (supBits b)[10]? = some true ∧
    (lineBits b).length = 11 ∧ (supBits b).length = 11 ∧
    (((lineBits b).drop 1).take 9).count true % 2 = 1 ∧ (((supBits b).drop 1).take 9).count true % 2 = 0 ∧
    (ownByteDrive b).map txEnable = List.replicate 22 true ++ [false, false] ∧
    (ownByteDrive b)[2 * i]? = (lineBits b)[i]?.map some ∧ (ownByteDrive b)[2 * i + 1]? = (lineBits b)[i]?.map some) ∧
  (∀ (f : Flight) (x : Transcript),
    (∀ n, f.job = .lumen n → telegramDrive f x = f.request.flatMap ownByteDrive) ∧
    (f.job = .display → allAcked f.request.length x.slots → telegramDrive f x = f.request.flatMap ownByteDrive) ∧
    (∀ p, (∀ n, f.job ≠ .lumen n) → f.job ≠ .display → 4 ≤ f.request.length → allAcked f.request.length x.slots →
      p.length ≤ 48 → f.job.lengthOk p.length = true →
      arrives (telegram (f.request.getD 0 0) (f.request.getD 1 0 ||| 0x80#8) p) x.reply →
      telegramDrive f x = f.request.flatMap ownByteDrive ++
        x.reply.flatMap fun _ => List.replicate 22 none ++ [some false, some true]) ∧
    (∀ a more u v, (∀ n, f.job ≠ .lumen n) → f.request = a :: more → x.slots = [u, v] → slotAnswer u ≠ .ack →
      slotAnswer v ≠ .ack → telegramDrive f x = ownByteDrive a ++ ownByteDrive a)) ∧
  (∀ (a fn : Byte) (j : Job) (got : List Byte) (first : Bool) (c : LineChar) (cs : List LineChar),
    LineChar.intact c = false → c.gap ≤ (if first then 20000 else 3000) →
    (slotDrives a fn j got first (c :: cs)).flatMap nodeByteDrive =
      List.replicate 22 none ++ [some true, some false] ++ (slotDrives a fn j got false cs).flatMap nodeByteDrive)
end

