-- ==== Sys2Proof/Laws/Plan.lean ====
section
/-! SUPPORT. What the functions of the plan, the registry, the rollout and the traffic state unit give, said once: the
kept capabilities, the sweep, the negotiated lists and speeds, the comparison of records and the sums of a station. -/

namespace Sys2Proof.Machine

/-- A commanded record equals some aspects exactly when it holds each of them as known. -/
theorem entriesEqual_iff (es : List (Option Aspect)) (as : List Aspect) :
    entriesEqual es as = true ↔ es = as.map some := by
  induction es generalizing as with
  | nil => cases as <;> simp [entriesEqual]
  | cons e es ih => cases e <;> cases as <;> simp [entriesEqual, ih]

/-- The kept capabilities are the admissible entries, each at its first place. -/
theorem keepCaps_eq (k : SignKind) (kept es : List Aspect) :
    keepCaps k kept es = kept ++ ((es.filter fun a => decide (a ≠ .blank) && Aspect.fits k a).filter
      fun a => !kept.contains a).eraseDups := by
  induction es generalizing kept with
  | nil => simp [keepCaps]
  | cons a as ih =>
    by_cases h1 : a = .blank
    · simp [keepCaps, h1, ih]
    · by_cases h2 : Aspect.fits k a = false
      · simp [keepCaps, h1, h2, ih]
      · have h2' : Aspect.fits k a = true := by simpa using h2
        by_cases h3 : kept.contains a = true
        · have h3' : a ∈ kept := by simpa using h3
          rw [keepCaps, if_pos (.inr (.inr h3)), ih]
          simp [h1, h2', h3']
        · have h3' : a ∉ kept := by simpa using h3
          rw [keepCaps, if_neg (by simp [h1, h2', h3']), ih]
          simp [h1, h2', h3', List.eraseDups_cons, List.filter_filter]
          congr 2
          funext b
          by_cases e : b = a <;> simp [e, Bool.and_comm, Bool.and_left_comm]

/-- Every target of a sweep settles one of its gantries. -/
theorem sweep_mem {n : Snapshot} {g : Nat} {t : Target} : ∀ (l : List (Nat × GantryRec))
    (prev : Option (Nat × GantryRec × Target)), (g, t) ∈ n.sweep l prev → ∃ r d c, (g, r) ∈ l ∧ t = n.settle g r d c := by
  intro l
  induction l with
  | nil => intro p h; simp [Snapshot.sweep] at h
  | cons x xs ih =>
    intro p h
    obtain ⟨g', r'⟩ := x
    simp only [Snapshot.sweep, List.mem_cons] at h
    rcases h with h | h
    · simp only [Prod.mk.injEq] at h
      obtain ⟨rfl, rfl⟩ := h
      exact ⟨_, _, _, by simp, rfl⟩
    · obtain ⟨r, d, c, h1, h2⟩ := ih _ h
      exact ⟨r, d, c, by simp [h1], h2⟩

/-- The list a sign is negotiated with: its own capabilities while it is serviceable. -/
theorem signLists_get (ks : List SignKind) (vs : List SignView) (i : Nat) (k : SignKind) (h : ks[i]? = some k) :
    (signLists ks vs)[i]? = some (k,
      match vs[i]? with | some v => (if v.serviceable then v.caps else []) | none => []) := by
  induction ks generalizing vs i with
  | nil => simp at h
  | cons a as ih =>
    cases vs <;> cases i <;> simp_all [signLists, SignView.list]

theorem signLists_length (ks : List SignKind) (vs : List SignView) : (signLists ks vs).length = ks.length := by
  induction ks generalizing vs with
  | nil => simp [signLists]
  | cons a as ih => cases vs <;> simp [signLists, ih]

/-- One capability in the search for the greatest speed no greater than v. -/
def bestOf (v : Nat) (best : Option Nat) : Aspect → Option Nat
  | .speed w => if w ≤ v then (match best with | none => some w | some b => some (max b w)) else best
  | _ => best

/-- What one capability adds: the new best is the old one or the capability, and is no less than either. -/
theorem bestOf_spec (v : Nat) (best : Option Nat) (a : Aspect) :
    (∀ x, bestOf v best a = some x → best = some x ∨ a = .speed x ∧ x ≤ v) ∧
      ∀ w, best = some w ∨ a = .speed w ∧ w ≤ v → ∃ y, bestOf v best a = some y ∧ w ≤ y := by
  cases a with
  | speed u =>
    by_cases hu : u ≤ v
    · cases best with
      | none => simp [bestOf, hu]
      | some b =>
        simp only [bestOf, hu, if_true, Option.some.injEq, Aspect.speed.injEq]
        refine ⟨fun x hx => ?_, fun w hw => ⟨_, rfl, ?_⟩⟩ <;> omega
    · simp only [bestOf, hu, if_false, Aspect.speed.injEq]
      refine ⟨fun x hx => .inl hx, fun w hw => ⟨w, ?_, Nat.le_refl w⟩⟩
      rcases hw with hw | ⟨rfl, hw⟩
      · exact hw
      · exact absurd hw hu
  | blank => exact ⟨fun x hx => .inl hx, fun w hw => ⟨w, hw.resolve_right (by simp), Nat.le_refl w⟩⟩
  | closed => exact ⟨fun x hx => .inl hx, fun w hw => ⟨w, hw.resolve_right (by simp), Nat.le_refl w⟩⟩
  | divert d => exact ⟨fun x hx => .inl hx, fun w hw => ⟨w, hw.resolve_right (by simp), Nat.le_refl w⟩⟩
  | legend m => exact ⟨fun x hx => .inl hx, fun w hw => ⟨w, hw.resolve_right (by simp), Nat.le_refl w⟩⟩

/-- What the search gives from any start. -/
theorem bestOf_foldl (v : Nat) (caps : List Aspect) (best : Option Nat) :
    (∀ x, caps.foldl (bestOf v) best = some x → best = some x ∨ .speed x ∈ caps ∧ x ≤ v) ∧
      ∀ w, best = some w ∨ .speed w ∈ caps ∧ w ≤ v → ∃ y, caps.foldl (bestOf v) best = some y ∧ w ≤ y := by
  induction caps generalizing best with
  | nil => exact ⟨fun x hx => .inl hx, fun w hw => ⟨w, hw.resolve_right (by simp), Nat.le_refl w⟩⟩
  | cons a as ih =>
    obtain ⟨h1, h2⟩ := bestOf_spec v best a
    obtain ⟨i1, i2⟩ := ih (bestOf v best a)
    refine ⟨fun x hx => ?_, fun w hw => ?_⟩
    · rcases i1 x hx with h | ⟨h, hv⟩
      · rcases h1 x h with h | ⟨rfl, hv⟩
        · exact .inl h
        · exact .inr ⟨List.mem_cons_self, hv⟩
      · exact .inr ⟨List.mem_cons_of_mem _ h, hv⟩
    · rcases hw with h | ⟨h, hv⟩
      · obtain ⟨y, hy, hw⟩ := h2 w (.inl h)
        obtain ⟨z, hz, hy'⟩ := i2 y (.inl hy)
        exact ⟨z, hz, Nat.le_trans hw hy'⟩
      · rcases List.mem_cons.1 h with h | h
        · obtain ⟨y, hy, hw⟩ := h2 w (.inr ⟨h.symm, hv⟩)
          obtain ⟨z, hz, hy'⟩ := i2 y (.inl hy)
          exact ⟨z, hz, Nat.le_trans hw hy'⟩
        · exact i2 w (.inr ⟨h, hv⟩)

/-- The best speed is the greatest listed one that is no greater than v. -/
theorem bestSpeed_spec (caps : List Aspect) (v : Nat) :
    (∀ x, bestSpeed caps v = some x → .speed x ∈ caps ∧ x ≤ v) ∧
      ∀ w, .speed w ∈ caps → w ≤ v → ∃ y, bestSpeed caps v = some y ∧ w ≤ y := by
  have e : bestSpeed caps v = caps.foldl (bestOf v) none := by
    unfold bestSpeed
    congr 1
  obtain ⟨h1, h2⟩ := bestOf_foldl v caps none
  rw [e]
  exact ⟨fun x hx => (h1 x hx).resolve_left (by simp), fun w hw hv => h2 w (.inr ⟨hw, hv⟩)⟩

/-- The lowest of a list is in it. -/
theorem lowest_mem : ∀ (l : List Nat) v, lowest l = some v → v ∈ l := by
  intro l
  induction l with
  | nil => simp [lowest]
  | cons a as ih =>
    intro v h
    simp only [lowest] at h
    cases e : lowest as with
    | none => simp_all
    | some w =>
      have := ih w e
      simp [e] at h
      rcases Nat.le_total a w with q | q
      · simp [Nat.min_eq_left q] at h; simp [h]
      · simp [Nat.min_eq_right q] at h; subst h; simp [this]

/-- The sums of a station are taken over its included lanes. -/
theorem stationSums_eq (ls : List LaneResult) :
    stationSums ls =
      { lanes := (ls.filter fun y => y.report.included).length
        count := ((ls.filter fun y => y.report.included).map fun y => y.report.count).sum
        sumV := ((ls.filter fun y => y.report.included).map fun y => y.sumV).sum
        occupied := ((ls.filter fun y => y.report.included).map fun y => y.occupied).sum } := by
  induction ls with
  | nil => rfl
  | cons y ys ih =>
    simp only [stationSums, ih, List.filter_cons]
    split <;> simp [Nat.add_comm]

/-- A forward passage leaves the passage machine and the loops as they are. -/
theorem forwardPassage_keeps (p : MeasureParams) (r : StationRec) (nc : Bool) (l : LaneRec) (tA tB tAf : Tick) :
    (forwardPassage p r nc l tA tB tAf).1.machine = l.machine ∧ (forwardPassage p r nc l tA tB tAf).1.loopA = l.loopA ∧
      (forwardPassage p r nc l tA tB tAf).1.loopB = l.loopB := by
  simp only [forwardPassage, LaneRec.rejectImplausible, LaneRec.countRejected]
  generalize l.faulty nc = z
  cases z <;> split <;> exact ⟨rfl, rfl, rfl⟩

/-! ### UNSERVED records (R150, R170) -/

/-- The signs whose lost mark is newly set, by their index. -/
theorem newlyLost_eq (xs olds : List SignTarget) (k : Nat) :
    newlyLost xs (olds.drop k) = ((xs.zipIdx k).filter fun x => x.1.lost && !(olds[x.2]?.any fun y => y.lost)).map
      fun x => lostSeverity x.1.wanted := by
  induction xs generalizing k with
  | nil => rfl
  | cons x xs ih =>
    have h := ih (k + 1)
    simp only [newlyLost, List.tail_drop, h, List.zipIdx_cons, List.filter_cons]
    rw [← List.head?_drop]
    cases olds.drop k with
    | nil => cases x.lost <;> simp
    | cons o os => cases x.lost <;> cases ho : o.lost <;> simp [ho]

end Sys2Proof.Machine
end

