-- ==== Sys2Proof/Laws/Table.lean ====
section
/-! SUPPORT. Laws of tables: read after write, what a write leaves alone, and the canonical form. -/

namespace Sys2Proof.Machine

/-! ### Read after write -/

@[simp] theorem look_nil {α : Type} (n : Nat) : Table.look ([] : Table α) n = none := rfl

theorem look_cons {α : Type} (k : Nat) (v : α) (t : Table α) (n : Nat) :
    Table.look ((k, v) :: t) n = if n = k then some v else Table.look t n := rfl

@[simp] theorem look_put_self {α : Type} (t : Table α) (n : Nat) (v : α) : (t.put n v).look n = some v := by
  induction t with
  | nil => simp [Table.put, Table.look]
  | cons kv t ih =>
    obtain ⟨k, w⟩ := kv
    simp only [Table.put]
    split
    · simp [Table.look]
    · split
      · simp [Table.look]
      · rename_i h; simp [Table.look, h, ih]

@[simp] theorem look_put_other {α : Type} (t : Table α) {n m : Nat} (v : α) (h : m ≠ n) :
    (t.put n v).look m = t.look m := by
  induction t with
  | nil => simp [Table.put, Table.look, h]
  | cons kv t ih =>
    obtain ⟨k, w⟩ := kv
    simp only [Table.put]
    split
    · simp [Table.look, h]
    · split
      · rename_i h'; subst h'; simp [Table.look, h]
      · simp [Table.look, ih]

@[simp] theorem look_del_self {α : Type} (t : Table α) (n : Nat) : (t.del n).look n = none := by
  induction t with
  | nil => rfl
  | cons kv t ih =>
    obtain ⟨k, w⟩ := kv
    simp only [Table.del]
    split
    · exact ih
    · rename_i h; simp [Table.look, h, ih]

@[simp] theorem look_del_other {α : Type} (t : Table α) {n m : Nat} (h : m ≠ n) : (t.del n).look m = t.look m := by
  induction t with
  | nil => rfl
  | cons kv t ih =>
    obtain ⟨k, w⟩ := kv
    simp only [Table.del]
    split
    · rename_i h'; subst h'; simp [Table.look, h, ih]
    · simp [Table.look, ih]

@[simp] theorem look_adjust_self {α : Type} (t : Table α) (n : Nat) (f : α → α) :
    (t.adjust n f).look n = (t.look n).map f := by
  induction t with
  | nil => rfl
  | cons kv t ih =>
    obtain ⟨k, w⟩ := kv
    simp only [Table.adjust, List.map_cons] at ih ⊢
    by_cases h : k = n
    · subst h; simp [Table.look]
    · have h' : n ≠ k := fun e => h e.symm
      simpa [Table.look, h, h'] using ih

@[simp] theorem look_adjust_other {α : Type} (t : Table α) {n m : Nat} (f : α → α) (h : m ≠ n) :
    (t.adjust n f).look m = t.look m := by
  induction t with
  | nil => rfl
  | cons kv t ih =>
    obtain ⟨k, w⟩ := kv
    simp only [Table.adjust, List.map_cons] at ih ⊢
    by_cases h1 : k = n
    · subst h1; simpa [Table.look, h] using ih
    · simp only [if_neg h1, Table.look]
      split
      · rfl
      · exact ih

@[simp] theorem look_mapValues {α β : Type} (t : Table α) (f : α → β) (n : Nat) :
    (t.mapValues f).look n = (t.look n).map f := by
  induction t with
  | nil => rfl
  | cons kv t ih =>
    obtain ⟨k, w⟩ := kv
    simp only [Table.mapValues, List.map_cons, Table.look]
    split
    · rfl
    · exact ih

/-- A change that fixes the records stored under the number changes nothing. -/
theorem adjust_eq_self {α : Type} (t : Table α) (n : Nat) (f : α → α) (h : ∀ v, (n, v) ∈ t → f v = v) :
    t.adjust n f = t := by
  induction t with
  | nil => rfl
  | cons kv t ih =>
    obtain ⟨k, w⟩ := kv
    have ih := ih fun v hv => h v (List.mem_cons_of_mem _ hv)
    simp only [Table.adjust, List.map_cons] at ih ⊢
    by_cases hk : k = n
    · subst hk
      have := h w (List.mem_cons_self ..)
      simp [this, ih]
    · simp [hk, ih]

theorem mem_of_look {α : Type} {t : Table α} {n : Nat} {v : α} (h : t.look n = some v) : (n, v) ∈ t := by
  induction t with
  | nil => simp [Table.look] at h
  | cons kv t ih =>
    obtain ⟨k, w⟩ := kv
    simp only [Table.look] at h
    split at h
    · rename_i e; subst e; cases h; exact List.mem_cons_self ..
    · exact List.mem_cons_of_mem _ (ih h)

theorem has_iff {α : Type} (t : Table α) (n : Nat) : t.has n = true ↔ t.look n ≠ none := by
  simp [Table.has, Option.isSome_iff_ne_none]

theorem has_eq_false {α : Type} (t : Table α) (n : Nat) : t.has n = false ↔ t.look n = none := by
  simp [Table.has]

/-! ### The numbers of a table -/

@[simp] theorem keys_adjust {α : Type} (t : Table α) (n : Nat) (f : α → α) : (t.adjust n f).keys = t.keys := by
  simp only [Table.keys, Table.adjust, List.map_map]
  apply List.map_congr_left
  intro kv _
  by_cases h : kv.1 = n <;> simp [h]

@[simp] theorem keys_mapValues {α β : Type} (t : Table α) (f : α → β) : (t.mapValues f).keys = t.keys := by
  simp [Table.keys, Table.mapValues, List.map_map, Function.comp_def]

theorem keys_put_mem {α : Type} {t : Table α} {n m : Nat} {v : α} (h : m ∈ (t.put n v).keys) : m = n ∨ m ∈ t.keys := by
  induction t with
  | nil => simpa [Table.put, Table.keys] using h
  | cons kv t ih =>
    obtain ⟨k, w⟩ := kv
    simp only [Table.put] at h
    split at h
    · simpa [Table.keys] using h
    · split at h
      · rename_i e; subst e
        simp only [Table.keys, List.map_cons, List.mem_cons] at h ⊢
        tauto
      · simp only [Table.keys, List.map_cons, List.mem_cons] at h ih ⊢
        rcases h with h | h
        · exact .inr (.inl h)
        · rcases ih h with h | h
          · exact .inl h
          · exact .inr (.inr h)

theorem keys_del_mem {α : Type} {t : Table α} {n m : Nat} (h : m ∈ (t.del n).keys) : m ∈ t.keys := by
  induction t with
  | nil => exact h
  | cons kv t ih =>
    obtain ⟨k, w⟩ := kv
    simp only [Table.del] at h
    split at h
    · exact List.mem_cons_of_mem _ (ih h)
    · simp only [Table.keys, List.map_cons, List.mem_cons] at h ih ⊢
      exact h.imp id ih

/-! ### The canonical form -/

/-- The canonical form says that the list of numbers is strictly rising. -/
theorem rising_iff {α : Type} (t : Table α) : t.rising = true ↔ t.keys.Pairwise (· < ·) := by
  induction t with
  | nil => simp [Table.rising, Table.keys]
  | cons kv t ih =>
    obtain ⟨k, w⟩ := kv
    cases t with
    | nil => simp [Table.rising, Table.keys]
    | cons kv' t =>
      obtain ⟨k', w'⟩ := kv'
      simp only [Table.rising, Bool.and_eq_true, decide_eq_true_eq, ih]
      simp only [Table.keys, List.map_cons, List.pairwise_cons, List.mem_cons, List.mem_map]
      constructor
      · rintro ⟨h, h1, h2⟩
        refine ⟨?_, h1, h2⟩
        rintro a (rfl | ⟨x, hx, rfl⟩)
        · exact h
        · exact h.trans (h1 _ ⟨x, hx, rfl⟩)
      · rintro ⟨h, h1, h2⟩
        exact ⟨h _ (.inl rfl), h1, h2⟩

theorem rising_put {α : Type} {t : Table α} (h : t.rising = true) (n : Nat) (v : α) : (t.put n v).rising = true := by
  rw [rising_iff] at h ⊢
  induction t with
  | nil => simp [Table.put, Table.keys]
  | cons kv t ih =>
    obtain ⟨k, w⟩ := kv
    simp only [Table.keys, List.map_cons, List.pairwise_cons] at h
    simp only [Table.put]
    split
    · rename_i hn
      simp only [Table.keys, List.map_cons, List.pairwise_cons, List.mem_cons]
      refine ⟨?_, h⟩
      rintro a (rfl | ha)
      · exact hn
      · exact hn.trans (h.1 a ha)
    · split
      · rename_i e; subst e
        simpa [Table.keys] using h
      · rename_i h1 h2
        have hk : k < n := by omega
        have ih := ih h.2
        simp only [Table.keys, List.map_cons, List.pairwise_cons] at ih ⊢
        refine ⟨?_, ih⟩
        intro a ha
        rcases keys_put_mem ha with rfl | ha
        · exact hk
        · exact h.1 a ha

theorem rising_del {α : Type} {t : Table α} (h : t.rising = true) (n : Nat) : (t.del n).rising = true := by
  rw [rising_iff] at h ⊢
  induction t with
  | nil => exact h
  | cons kv t ih =>
    obtain ⟨k, w⟩ := kv
    simp only [Table.keys, List.map_cons, List.pairwise_cons] at h
    simp only [Table.del]
    split
    · exact ih h.2
    · have ih := ih h.2
      simp only [Table.keys, List.map_cons, List.pairwise_cons] at ih ⊢
      exact ⟨fun a ha => h.1 a (keys_del_mem ha), ih⟩

theorem rising_of_keys {α β : Type} {t : Table α} {u : Table β} (h : t.rising = true) (e : u.keys = t.keys) :
    u.rising = true := by
  rw [rising_iff] at h ⊢; rwa [e]

@[simp] theorem rising_adjust {α : Type} (t : Table α) (n : Nat) (f : α → α) : (t.adjust n f).rising = t.rising := by
  rw [Bool.eq_iff_iff, rising_iff, rising_iff, keys_adjust]

@[simp] theorem rising_mapValues {α β : Type} (t : Table α) (f : α → β) : (t.mapValues f).rising = t.rising := by
  rw [Bool.eq_iff_iff, rising_iff, rising_iff, keys_mapValues]

/-- In canonical form a listed pair is the one that is read. -/
theorem look_of_mem {α : Type} {t : Table α} (hr : t.rising = true) {n : Nat} {v : α} (h : (n, v) ∈ t) :
    t.look n = some v := by
  rw [rising_iff] at hr
  induction t with
  | nil => simp at h
  | cons kv t ih =>
    obtain ⟨k, w⟩ := kv
    simp only [Table.keys, List.map_cons, List.pairwise_cons] at hr
    simp only [Table.look]
    rcases List.mem_cons.1 h with h | h
    · cases h; simp
    · have : k < n := hr.1 n (List.mem_map.2 ⟨_, h, rfl⟩)
      rw [if_neg (by omega)]
      exact ih hr.2 h

/-! ### Counting -/

/-- How many records of a table pass a test. -/
theorem filter_length_put_fresh {α : Type} (p : Nat × α → Bool) {t : Table α} {n : Nat} (v : α)
    (h : t.look n = none) :
    ((t.put n v).filter p).length = (t.filter p).length + (if p (n, v) then 1 else 0) := by
  induction t with
  | nil => by_cases hv : p (n, v) <;> simp [Table.put, hv]
  | cons kv t ih =>
    obtain ⟨k, w⟩ := kv
    simp only [Table.look] at h
    split at h
    · cases h
    · rename_i hk
      have ih := ih h
      simp only [Table.put]
      split
      · by_cases hv : p (n, v) <;> simp [List.filter_cons, hv]
      · by_cases hw : p (k, w) <;> simp [hw, ih]
        omega

/-- Replacing the record under a number changes a count by what the two records count. -/
theorem filter_length_put_replace {α : Type} (p : Nat × α → Bool) {t : Table α} (hr : t.rising = true) {n : Nat}
    {w : α} (v : α) (h : t.look n = some w) :
    ((t.put n v).filter p).length + (if p (n, w) then 1 else 0) =
      (t.filter p).length + (if p (n, v) then 1 else 0) := by
  rw [rising_iff] at hr
  induction t with
  | nil => simp [Table.look] at h
  | cons kv t ih =>
    obtain ⟨k, u⟩ := kv
    simp only [Table.keys, List.map_cons, List.pairwise_cons] at hr
    simp only [Table.look] at h
    split at h
    · rename_i e; subst e; cases h
      simp only [Table.put, lt_irrefl, if_true, if_false]
      by_cases hv : p (n, v) <;> by_cases hw : p (n, w) <;> simp [hv, hw]
    · rename_i hk
      have hkn : k < n := hr.1 n (List.mem_map.2 ⟨_, mem_of_look h, rfl⟩)
      have ih := ih hr.2 h
      simp only [Table.put, if_neg (show ¬ n < k by omega), if_neg hk]
      by_cases hu : p (k, u) <;> simp [hu] <;> omega

theorem filter_length_del_le {α : Type} (p : Nat × α → Bool) (t : Table α) (n : Nat) :
    ((t.del n).filter p).length ≤ (t.filter p).length := by
  induction t with
  | nil => simp [Table.del]
  | cons kv t ih =>
    obtain ⟨k, w⟩ := kv
    simp only [Table.del]
    split
    · by_cases hw : p (k, w) <;> simp [hw] <;> omega
    · by_cases hw : p (k, w) <;> simp [hw] <;> omega

/-! ### The lowest free number -/

/-- What `lowestFree` answers: a free number below the limit, all lower ones being taken. -/
theorem lowestFree_eq_some {α : Type} {t : Table α} {cap n : Nat} :
    t.lowestFree cap = some n ↔ n < cap ∧ t.look n = none ∧ ∀ k, k < n → t.look k ≠ none := by
  simp only [Table.lowestFree, List.find?_range_eq_some]
  simp [Table.has, Option.isSome_iff_ne_none]
  tauto

/-! ### Signs of a gantry -/

/-- The signs of a gantry are of distinct kinds. -/
theorem kinds_nodup (r : GantryRec) : r.kinds.Nodup := by
  unfold GantryRec.kinds LaneSet.positions
  have h1 : (((List.range 6).filter fun p => LaneSet.holds r.lanes p).map SignKind.lane).Nodup :=
    List.Nodup.map (fun a b h => by cases h; rfl) (List.nodup_range.filter _)
  split
  · refine List.nodup_append.2 ⟨h1, by simp, ?_⟩
    intro a ha b hb
    rw [List.mem_singleton] at hb
    subst hb
    obtain ⟨p, -, rfl⟩ := List.mem_map.1 ha
    simp
  · simpa using h1

end Sys2Proof.Machine
end

