-- ==== Sys2Proof/Laws/Demands.lean ====
section
/-! SUPPORT. The demands a pass gathers at a gantry, and what it settles there, in the words of the rules: one lemma for
each function of the plan engine that Safety.lean restates (R123 to R127, R105, R107, R139 to R145, R149). -/

namespace Sys2Proof.Machine

/-! ### Lists and tables -/

/-- The lowest of a list is in it and no greater than any other. -/
theorem lowest_eq_some (l : List Nat) (v : Nat) : lowest l = some v ↔ v ∈ l ∧ ∀ u ∈ l, v ≤ u := by
  induction l generalizing v with
  | nil => simp [lowest]
  | cons a as ih =>
    cases e : lowest as with
    | none =>
      have hn : as = [] := by cases as <;> simp_all [lowest]
      subst hn
      simp only [lowest, Option.some.injEq, List.mem_singleton, forall_eq]
      omega
    | some w =>
      obtain ⟨h1, h2⟩ := (ih w).1 e
      simp only [lowest, e, Option.some.injEq, List.mem_cons, forall_eq_or_imp]
      constructor
      · rintro rfl
        refine ⟨?_, by omega, fun u hu => by have := h2 u hu; omega⟩
        rcases Nat.le_total a w with q | q
        · exact .inl (by omega)
        · rw [Nat.min_eq_right q]; exact .inr h1
      · rintro ⟨h3 | h3, h4, h5⟩
        · have := h5 w h1; omega
        · have := h2 v h3; have := h5 w h1; omega

/-- The lowest of a list whose elements are those of P. -/
theorem lowest_of {l : List Nat} {P : Nat → Prop} (h : ∀ u, u ∈ l ↔ P u) (v : Nat) :
    lowest l = some v ↔ P v ∧ ∀ u, P u → v ≤ u := by simp only [lowest_eq_some, h]

/-- The lowest of the images of such a list. -/
theorem lowest_map_of {l : List Nat} {P : Nat → Prop} (f : Nat → Nat) (h : ∀ u, u ∈ l ↔ P u) (v : Nat) :
    lowest (l.map f) = some v ↔ (∃ u, P u ∧ v = f u) ∧ ∀ u, P u → v ≤ f u := by
  simp only [lowest_eq_some, List.mem_map, h]
  exact and_congr ⟨fun ⟨u, a, b⟩ => ⟨u, a, b.symm⟩, fun ⟨u, a, b⟩ => ⟨u, a, b.symm⟩⟩
    ⟨fun k u hu => k _ ⟨u, hu, rfl⟩, fun k _ ⟨u, hu, e⟩ => e ▸ k u hu⟩

/-- No lowest: the list is empty. -/
theorem lowest_eq_none (l : List Nat) : lowest l = none ↔ l = [] := by cases l <;> simp [lowest]

/-- In a rising table a record is listed exactly under its number. -/
theorem mem_iff_look {α : Type} {t : Table α} (h : t.rising = true) (n : Nat) (v : α) :
    (n, v) ∈ t ↔ t.look n = some v := ⟨look_of_mem h, mem_of_look⟩

/-! ### Incidents (R123 to R127) -/

/-- One gantry in the search for the one at or upstream of x. -/
def nearerUp (x : Nat) (best : Option (Nat × Nat)) (kv : Nat × GantryRec) : Option (Nat × Nat) :=
  if kv.2.chainage ≤ x then
    match best with
    | none => some (kv.1, kv.2.chainage)
    | some b => if b.2 ≤ kv.2.chainage then some (kv.1, kv.2.chainage) else best
  else best

/-- What the search gives over gantries of rising number from any start below them. -/
theorem nearerUp_foldl (x : Nat) (gs : List (Nat × GantryRec)) (best : Option (Nat × Nat))
    (hr : (gs.map (·.1)).Pairwise (· < ·)) (hb : ∀ b, best = some b → ∀ k ∈ gs.map (·.1), b.1 < k) (g : Nat) :
    (∃ c, gs.foldl (nearerUp x) best = some (g, c)) ↔
      (∃ c, (best = some (g, c) ∨ ∃ q, (g, q) ∈ gs ∧ q.chainage = c ∧ c ≤ x) ∧
        (∀ b, best = some b → b.2 < c ∨ b.2 = c ∧ b.1 ≤ g) ∧
        ∀ g' q', (g', q') ∈ gs → q'.chainage ≤ x → q'.chainage < c ∨ q'.chainage = c ∧ g' ≤ g) := by
  induction gs generalizing best with
  | nil =>
    simp only [List.foldl_nil, List.not_mem_nil, false_and, exists_false, or_false, false_imp_iff, implies_true, and_true]
    constructor
    · rintro ⟨c, h⟩; exact ⟨c, h, fun b hb => by rw [h] at hb; cases hb; exact .inr ⟨rfl, Nat.le_refl _⟩⟩
    · rintro ⟨c, h, _⟩; exact ⟨c, h⟩
  | cons a as ih =>
    obtain ⟨k, r⟩ := a
    simp only [List.map_cons, List.pairwise_cons] at hr
    have hlt : ∀ m ∈ as.map (·.1), k < m := hr.1
    have hmem : ∀ g' q', (g', q') ∈ as → k < g' := fun g' q' h => hlt _ (List.mem_map_of_mem (f := (·.1)) h)
    rw [List.foldl_cons, ih _ hr.2]
    · by_cases hx : r.chainage ≤ x
      · cases best with
        | none =>
          simp only [nearerUp, hx, if_true, Option.some.injEq, Prod.mk.injEq, List.mem_cons, forall_eq', reduceCtorEq,
            false_or, false_imp_iff, implies_true, true_and]
          constructor
          · rintro ⟨c, h1, h2, h3⟩
            refine ⟨c, ?_, ?_⟩
            · rcases h1 with ⟨rfl, rfl⟩ | ⟨q, h, e⟩
              · exact ⟨r, .inl ⟨rfl, rfl⟩, rfl, hx⟩
              · exact ⟨q, .inr h, e⟩
            · rintro g' q' (⟨rfl, rfl⟩ | h) hq
              · exact h2
              · exact h3 _ _ h hq
          · rintro ⟨c, ⟨q, h | h, e⟩, h3⟩
            · obtain ⟨rfl, rfl⟩ := h
              exact ⟨c, .inl ⟨rfl, e.1⟩, h3 g q (.inl ⟨rfl, rfl⟩) hx, fun g' q' h => h3 g' q' (.inr h)⟩
            · exact ⟨c, .inr ⟨q, h, e⟩, h3 k r (.inl ⟨rfl, rfl⟩) hx, fun g' q' h => h3 g' q' (.inr h)⟩
        | some b =>
          have hbk : b.1 < k := hb b rfl k (by simp)
          by_cases hc : b.2 ≤ r.chainage
          · simp only [nearerUp, hx, if_true, hc, Option.some.injEq, Prod.mk.injEq, List.mem_cons, forall_eq']
            constructor
            · rintro ⟨c, h1, h2, h3⟩
              refine ⟨c, ?_, by omega, ?_⟩
              · rcases h1 with ⟨rfl, rfl⟩ | ⟨q, h, e⟩
                · exact .inr ⟨r, .inl ⟨rfl, rfl⟩, rfl, hx⟩
                · exact .inr ⟨q, .inr h, e⟩
              · rintro g' q' (⟨rfl, rfl⟩ | h) hq
                · exact h2
                · exact h3 _ _ h hq
            · rintro ⟨c, h1, h2, h3⟩
              have hk := h3 k r (.inl ⟨rfl, rfl⟩) hx
              refine ⟨c, ?_, hk, fun g' q' h => h3 g' q' (.inr h)⟩
              rcases h1 with h | ⟨q, h | h, e⟩
              · rw [h] at hbk hc; exfalso; simp at hbk hc; omega
              · obtain ⟨rfl, rfl⟩ := h; exact .inl ⟨rfl, e.1⟩
              · exact .inr ⟨q, h, e⟩
          · simp only [nearerUp, hx, if_true, hc, if_false, Option.some.injEq, List.mem_cons, forall_eq', Prod.mk.injEq]
            constructor
            · rintro ⟨c, h1, h2, h3⟩
              refine ⟨c, ?_, h2, ?_⟩
              · rcases h1 with h | ⟨q, h, e⟩
                · exact .inl h
                · exact .inr ⟨q, .inr h, e⟩
              · rintro g' q' (⟨rfl, rfl⟩ | h) hq
                · omega
                · exact h3 _ _ h hq
            · rintro ⟨c, h1, h2, h3⟩
              have hk := h3 k r (.inl ⟨rfl, rfl⟩) hx
              refine ⟨c, ?_, h2, fun g' q' h => h3 g' q' (.inr h)⟩
              rcases h1 with h | ⟨q, h | h, e⟩
              · exact .inl h
              · obtain ⟨rfl, rfl⟩ := h; omega
              · exact .inr ⟨q, h, e⟩
      · simp only [nearerUp, hx, if_false, List.mem_cons, Prod.mk.injEq]
        constructor
        · rintro ⟨c, h1, h2, h3⟩
          refine ⟨c, ?_, h2, ?_⟩
          · rcases h1 with h | ⟨q, h, e⟩
            · exact .inl h
            · exact .inr ⟨q, .inr h, e⟩
          · rintro g' q' (⟨rfl, rfl⟩ | h) hq
            · exact absurd hq hx
            · exact h3 _ _ h hq
        · rintro ⟨c, h1, h2, h3⟩
          refine ⟨c, ?_, h2, fun g' q' h => h3 g' q' (.inr h)⟩
          rcases h1 with h | ⟨q, h | h, e⟩
          · exact .inl h
          · obtain ⟨rfl, rfl⟩ := h; omega
          · exact .inr ⟨q, h, e⟩
    · intro b hb' m hm
      unfold nearerUp at hb'
      split at hb'
      · split at hb'
        · cases hb'; exact hlt m hm
        · split at hb'
          · cases hb'; exact hlt m hm
          · exact hb b hb' m (by simp at hm ⊢; exact .inr hm)
      · exact hb b hb' m (by simp at hm ⊢; exact .inr hm)

/-- R123: the gantry with the greatest chainage no greater than x, of two at one chainage the higher number. -/
theorem atOrUpstream_eq_some {gs : Table GantryRec} (hr : gs.rising = true) (x g : Nat) :
    atOrUpstream gs x = some g ↔ ∃ q, gs.look g = some q ∧ q.chainage ≤ x ∧
      ∀ g' q', gs.look g' = some q' → q'.chainage ≤ x →
        q'.chainage < q.chainage ∨ q'.chainage = q.chainage ∧ g' ≤ g := by
  have e : atOrUpstream gs x = (gs.foldl (nearerUp x) none).map (·.1) := by
    unfold atOrUpstream
    congr 2
  have h := nearerUp_foldl x gs none ((rising_iff gs).1 hr) (by simp) g
  rw [e]
  simp only [Option.map_eq_some_iff, Prod.exists]
  rw [show (∃ a b, List.foldl (nearerUp x) none gs = some (a, b) ∧ a = g) ↔
    ∃ c, gs.foldl (nearerUp x) none = some (g, c) from
    ⟨fun ⟨a, b, h, e⟩ => ⟨b, e ▸ h⟩, fun ⟨c, h⟩ => ⟨g, c, h, rfl⟩⟩, h]
  simp only [reduceCtorEq, false_or, false_imp_iff, implies_true, true_and, mem_iff_look hr]
  constructor
  · rintro ⟨c, ⟨q, h1, rfl, h2⟩, h3⟩; exact ⟨q, h1, h2, h3⟩
  · rintro ⟨q, h1, h2, h3⟩; exact ⟨_, ⟨q, h1, rfl, h2⟩, h3⟩

/-- The covering gantries of an extent are those of R123. -/
theorem mem_covering {gs : Table GantryRec} (hr : gs.rising = true) (r : Incident) (g : Nat) :
    g ∈ covering gs r ↔ r.covers gs g := by
  simp only [covering, List.mem_append, Option.mem_toList, atOrUpstream_eq_some hr, List.mem_map,
    List.mem_filter, decide_eq_true_eq, Prod.exists, mem_iff_look hr, Incident.covers]
  constructor
  · rintro (⟨q, h1, h2, h3⟩ | ⟨a, q, ⟨h1, h2⟩, rfl⟩)
    · exact ⟨q, h1, .inl ⟨h2, h3⟩⟩
    · exact ⟨q, h1, .inr h2⟩
  · rintro ⟨q, h1, ⟨h2, h3⟩ | h2⟩
    · exact .inl ⟨q, h1, h2, h3⟩
    · exact .inr ⟨g, q, ⟨h1, h2⟩, rfl⟩

/-- A gantry stands n below the first covering gantry of a record. -/
theorem belowFirst_iff {gs : Table GantryRec} (hr : gs.rising = true) (r : Incident) (n g : Nat) :
    belowFirst gs r n g = true ↔ r.coversFirst gs (g + n) := by
  unfold belowFirst
  split
  · rename_i h
    rw [lowest_eq_none] at h
    simp only [Bool.false_eq_true, false_iff, Incident.coversFirst, ← mem_covering hr]
    rw [h]; simp
  · rename_i f h
    rw [lowest_eq_some] at h
    simp only [beq_iff_eq, Incident.coversFirst, ← mem_covering hr]
    constructor
    · rintro rfl; exact h
    · rintro ⟨h1, h2⟩; exact Nat.le_antisymm (h2 _ h.1) (h.2 _ h1)

/-- R124, R125: which positions a record closes. -/
theorem incidentCloses_iff {gs : Table GantryRec} (hr : gs.rising = true) (r : Incident) (g p : Nat) :
    incidentCloses gs r g p = true ↔ r.closes gs g p := by
  unfold incidentCloses Incident.closes
  rw [← mem_covering hr]
  cases r.kind <;> cases r.lanes <;> simp [LaneSet.holds]

/-- R124 to R127: the speed a record demands. -/
theorem incidentSpeed_iff {n : Snapshot} (hr : n.gantries.rising = true) (r : Incident) (g : Nat) (q : GantryRec) (v : Nat) :
    incidentSpeed n.gantries n.plan n.wrongway r g q.chainage = some v ↔ n.incidentSpeed r g q v := by
  unfold incidentSpeed Snapshot.incidentSpeed Incident.warns warned
  simp only [← mem_covering hr, ← belowFirst_iff hr]
  cases r.kind <;> simp [eq_comm (a := v)]

/-- R124 to R127: the legend a record demands. -/
theorem incidentLegend_iff {n : Snapshot} (hr : n.gantries.rising = true) (r : Incident) (g : Nat) (q : GantryRec) (m : Nat) :
    incidentLegend n.gantries n.wrongway r g q.chainage = some m ↔ n.incidentLegend r g q m := by
  unfold incidentLegend Snapshot.incidentLegend Incident.warns warned
  simp only [← mem_covering hr, ← belowFirst_iff hr]
  cases r.kind <;> simp [eq_comm (a := m), or_assoc]

/-! ### Stations (R105, R107) -/

/-- The present reach entries are those with no absent one before them. -/
theorem mem_reachEntries (q : QueueParams) (j v : Nat) :
    (j, v) ∈ reachEntries q ↔ v = q.entry j ∧ ∀ i, i ≤ j → q.entry i ≠ 0 := by
  have low : (∀ i, i ≤ 0 → q.entry i ≠ 0) ↔ q.reach0 ≠ 0 :=
    ⟨fun h => h 0 (Nat.le_refl 0), fun h i hi => by obtain rfl := Nat.le_zero.1 hi; exact h⟩
  have mid : (∀ i, i ≤ 1 → q.entry i ≠ 0) ↔ q.reach0 ≠ 0 ∧ q.reach1 ≠ 0 :=
    ⟨fun h => ⟨h 0 (by omega), h 1 (by omega)⟩, fun h i hi => by
      rcases i with _ | _ | i
      · exact h.1
      · exact h.2
      · omega⟩
  have high : (∀ i, i ≤ 2 → q.entry i ≠ 0) ↔ q.reach0 ≠ 0 ∧ q.reach1 ≠ 0 ∧ q.reach2 ≠ 0 :=
    ⟨fun h => ⟨h 0 (by omega), h 1 (by omega), h 2 (by omega)⟩, fun h i hi => by
      rcases i with _ | _ | _ | i
      · exact h.1
      · exact h.2.1
      · exact h.2.2
      · omega⟩
  rcases j with _ | _ | _ | j
  · rw [low]; unfold reachEntries QueueParams.entry; repeat' split
    all_goals simp_all
  · rw [mid]; unfold reachEntries QueueParams.entry; repeat' split
    all_goals simp_all
  · rw [high]; unfold reachEntries QueueParams.entry; repeat' split
    all_goals simp_all
  · constructor
    · unfold reachEntries; repeat' split
      all_goals simp
    · rintro ⟨_, h⟩; exact absurd rfl (h (j + 3) (Nat.le_refl _))

/-- The demands of a queue that is ON are those of its reach. -/
theorem mem_queueDemands (q : QueueParams) (h : Nat) (d : StationDemand) :
    d ∈ queueDemands q h ↔ ∃ j, q.reaches h d.gantry j ∧ d.speed = q.entry j ∧ d.legend = some 5 := by
  obtain ⟨g, v, m⟩ := d
  simp only [queueDemands, List.mem_map, List.mem_filter, decide_eq_true_eq, Prod.exists, StationDemand.mk.injEq,
    mem_reachEntries, QueueParams.reaches]
  constructor
  · rintro ⟨j, w, ⟨⟨rfl, h1⟩, h2⟩, rfl, rfl, rfl⟩
    exact ⟨j, ⟨by omega, by omega, h1⟩, rfl, rfl⟩
  · rintro ⟨j, ⟨h1, h2, h3⟩, rfl, rfl⟩
    exact ⟨j, _, ⟨⟨rfl, h3⟩, by omega⟩, by omega, rfl, rfl⟩

/-- The demand of a level stands at the home gantry. -/
theorem mem_levelDemand (c : CongestionParams) (h : Nat) (lv : Level) (d : StationDemand) :
    d ∈ levelDemand c h lv ↔ d.gantry = h ∧ (∃ l, c.level lv = some l ∧ d.speed = l.speed) ∧
      d.legend = if lv = .l2 ∨ lv = .l3 then some 6 else none := by
  obtain ⟨g, v, m⟩ := d
  cases lv <;> simp [levelDemand, CongestionParams.level]

/-- R105, R107: the speeds a station demands at a gantry. -/
theorem stationSpeed_iff (n : Snapshot) (st : Nat) (x : StationView) (g v : Nat) :
    (∃ d ∈ stationDemands n.congestion n.queue (n.home.look st) x.level x.queueOn, d.gantry = g ∧ d.speed = v) ↔
      n.stationSpeed st x g v := by
  unfold stationDemands Snapshot.stationSpeed
  cases n.home.look st with
  | none => simp
  | some h =>
    simp only [List.mem_append, mem_levelDemand, Option.some.injEq, exists_eq_left']
    cases x.queueOn with
    | false =>
      simp only [Bool.false_eq_true, if_false, List.not_mem_nil, or_false, false_and]
      constructor
      · rintro ⟨d, ⟨rfl, ⟨l, h1, h2⟩, _⟩, rfl, rfl⟩; exact ⟨rfl, l, h1, h2⟩
      · rintro ⟨rfl, l, h1, rfl⟩; exact ⟨⟨h, l.speed, _⟩, ⟨rfl, ⟨l, h1, rfl⟩, rfl⟩, rfl, rfl⟩
    | true =>
      simp only [if_true, mem_queueDemands, true_and]
      constructor
      · rintro ⟨d, ⟨rfl, ⟨l, h1, h2⟩, _⟩ | ⟨j, h1, h2, _⟩, rfl, rfl⟩
        · exact .inl ⟨rfl, l, h1, h2⟩
        · exact .inr ⟨j, h1, h2⟩
      · rintro (⟨rfl, l, h1, rfl⟩ | ⟨j, h1, rfl⟩)
        · exact ⟨⟨h, l.speed, _⟩, .inl ⟨rfl, ⟨l, h1, rfl⟩, rfl⟩, rfl, rfl⟩
        · exact ⟨⟨g, _, _⟩, .inr ⟨j, h1, rfl, rfl⟩, rfl, rfl⟩

/-- R105, R107: the legends a station demands at a gantry. -/
theorem stationLegend_iff (n : Snapshot) (st : Nat) (x : StationView) (g m : Nat) :
    (∃ d ∈ stationDemands n.congestion n.queue (n.home.look st) x.level x.queueOn, d.gantry = g ∧ d.legend = some m) ↔
      n.stationLegend st x g m := by
  unfold stationDemands Snapshot.stationLegend
  cases n.home.look st with
  | none => simp
  | some h =>
    simp only [List.mem_append, mem_levelDemand, Option.some.injEq, exists_eq_left']
    have lv : ∀ l : Level, (l = .l2 ∨ l = .l3) → ∃ p, n.congestion.level l = some p := by
      rintro l (rfl | rfl) <;> exact ⟨_, rfl⟩
    have level : (∃ d : StationDemand, (d.gantry = h ∧ (∃ l, n.congestion.level x.level = some l ∧ d.speed = l.speed) ∧
        d.legend = if x.level = .l2 ∨ x.level = .l3 then some 6 else none) ∧ d.gantry = g ∧ d.legend = some m) ↔
        h = g ∧ (x.level = .l2 ∨ x.level = .l3) ∧ m = 6 := by
      constructor
      · rintro ⟨d, ⟨rfl, _, h2⟩, rfl, h3⟩
        rw [h2] at h3
        split at h3
        · rename_i h4; cases h3; exact ⟨rfl, h4, rfl⟩
        · cases h3
      · rintro ⟨rfl, h1, rfl⟩
        obtain ⟨p, hp⟩ := lv _ h1
        exact ⟨⟨h, p.speed, some 6⟩, ⟨rfl, ⟨p, hp, rfl⟩, (if_pos h1).symm⟩, rfl, rfl⟩
    cases x.queueOn with
    | false =>
      simp only [Bool.false_eq_true, if_false, List.not_mem_nil, or_false, false_and]
      exact level
    | true =>
      simp only [if_true, mem_queueDemands, true_and, or_and_right, exists_or, level]
      refine or_congr Iff.rfl ⟨?_, ?_⟩
      · rintro ⟨d, ⟨j, h1, _, h2⟩, rfl, h3⟩
        rw [h2] at h3; cases h3
        exact ⟨⟨j, h1⟩, rfl⟩
      · rintro ⟨⟨j, h1⟩, rfl⟩
        exact ⟨⟨g, _, _⟩, ⟨j, h1, rfl, rfl⟩, rfl, rfl⟩

/-! ### The gantry downstream (R139, R141, R149) -/

/-- The lane positions of a gantry, one sign for each. -/
theorem kinds_lane {r : GantryRec} {p : Nat} :
    (∃ i : Nat, r.kinds[i]? = some (.lane p)) ↔ p ∈ LaneSet.positions r.lanes := by
  rw [← List.mem_iff_getElem?]
  unfold GantryRec.kinds
  by_cases h : r.panel = true <;> simp [h]

/-- The entry of a list at a kind that stands once is the one at its index. -/
theorem entryAt_iff {α : Type} {ks : List SignKind} (hn : ks.Nodup) (xs : List α) (p : Nat) (x : α) :
    entryAt ks xs p = some x ↔ ∃ i : Nat, ks[i]? = some (.lane p) ∧ xs[i]? = some x := by
  induction ks generalizing xs with
  | nil => simp [entryAt]
  | cons k ks ih =>
    cases xs with
    | nil => simp [entryAt]
    | cons y ys =>
      rw [List.nodup_cons] at hn
      by_cases hk : k = .lane p
      · subst hk
        simp only [entryAt, if_true, Option.some.injEq]
        constructor
        · rintro rfl; exact ⟨0, rfl, rfl⟩
        · rintro ⟨i, h1, h2⟩
          cases i with
          | zero => simpa using h2
          | succ i => exact absurd (List.mem_of_getElem? (by simpa using h1)) hn.1
      · simp only [entryAt, hk, if_false, ih hn.2]
        constructor
        · rintro ⟨i, h⟩; exact ⟨i + 1, by simpa using h⟩
        · rintro ⟨i, h1, h2⟩
          cases i with
          | zero => simp at h1; exact absurd h1 hk
          | succ i => exact ⟨i, by simpa using h1, by simpa using h2⟩

/-- What a gantry's finished target shows in a position. -/
theorem shownAt_iff (r : GantryRec) (t : Target) (p : Nat) (a : Aspect) :
    shownAt r t p = some a ↔ t.shows r p a := by
  simp only [shownAt, Option.map_eq_some_iff, entryAt_iff (kinds_nodup r), Target.shows]
  constructor
  · rintro ⟨x, ⟨i, h1, h2⟩, rfl⟩; exact ⟨i, x, h1, h2, rfl⟩
  · rintro ⟨i, x, h1, h2, rfl⟩; exact ⟨x, ⟨i, h1, h2⟩, rfl⟩

/-- R141: the positions of a gantry that are open below. -/
theorem mem_openLanes (r : GantryRec) (t : Target) (p : Nat) :
    p ∈ openLanes r t ↔ t.shows r p .blank ∨ ∃ v, t.shows r p (.speed v) := by
  simp only [openLanes, List.mem_filter, ← shownAt_iff]
  have pos : ∀ a, shownAt r t p = some a → p ∈ LaneSet.positions r.lanes := by
    intro a h
    obtain ⟨i, x, h1, _⟩ := (shownAt_iff ..).1 h
    exact kinds_lane.1 ⟨i, h1⟩
  cases h : shownAt r t p with
  | none => simp
  | some a =>
    have hp := pos a h
    cases a <;> simp [hp]

/-- R149: what a gantry's finished target hands on. -/
theorem mem_carryAll (ks : List SignKind) (xs : List SignTarget) :
    (∀ p a, (p, a) ∈ (carryAll ks xs).cells ↔ ∃ (i : Nat) (x : SignTarget), ks[i]? = some (.lane p) ∧ xs[i]? = some x ∧
        x.unserved = true ∧ x.lost = false ∧ x.wanted = a.toAspect) ∧
      (∀ v, v ∈ (carryAll ks xs).speeds ↔ ∃ (p i : Nat) (x : SignTarget), ks[i]? = some (.lane p) ∧ xs[i]? = some x ∧
        x.unserved = true ∧ x.lost = false ∧ x.wanted = .speed v) := by
  have shift : ∀ {k : SignKind} {ks : List SignKind} {x : SignTarget} {xs : List SignTarget} {P : SignTarget → Prop} {p : Nat},
      (∃ (i : Nat) (y : SignTarget), (k :: ks)[i]? = some (.lane p) ∧ (x :: xs)[i]? = some y ∧ P y) ↔
        (k = .lane p ∧ P x) ∨ ∃ (i : Nat) (y : SignTarget), ks[i]? = some (.lane p) ∧ xs[i]? = some y ∧ P y := by
    intro k ks x xs P p
    constructor
    · rintro ⟨i, y, h1, h2, h3⟩
      cases i with
      | zero => simp at h1 h2; subst h2; exact .inl ⟨h1, h3⟩
      | succ i => exact .inr ⟨i, y, by simpa using h1, by simpa using h2, h3⟩
    · rintro (⟨rfl, h⟩ | ⟨i, y, h1, h2, h3⟩)
      · exact ⟨0, x, rfl, rfl, h⟩
      · exact ⟨i + 1, y, by simpa using h1, by simpa using h2, h3⟩
  induction ks generalizing xs with
  | nil => simp [carryAll, Carry.empty]
  | cons k ks ih =>
    cases xs with
    | nil => cases k <;> simp [carryAll, Carry.empty]
    | cons x xs =>
      obtain ⟨i1, i2⟩ := ih xs
      simp only [shift, exists_or, ← i1, ← i2]
      cases k with
      | panel => simp [carryAll]
      | lane q =>
        simp only [carryAll, SignKind.lane.injEq]
        cases hu : x.unserved <;> cases hl : x.lost <;> cases hw : x.wanted <;>
          simp [carryOf, hu, hl, hw, Cell.toAspect]
        case true.false.speed v => exact ⟨fun p a _ h => by cases a <;> simp at h, fun u => by rw [eq_comm]⟩
        all_goals intro p a; cases a <;> simp [eq_comm]

/-- The last element of a rising list is its greatest. -/
theorem getLast?_rising {l : List Nat} (h : l.Pairwise (· < ·)) (a : Nat) :
    l.getLast? = some a ↔ a ∈ l ∧ ∀ b ∈ l, b ≤ a := by
  induction l using List.reverseRecOn with
  | nil => simp
  | append_singleton l x _ =>
    rw [List.pairwise_append] at h
    simp only [List.getLast?_append, List.getLast?_singleton, Option.some_or, Option.some.injEq, List.mem_append,
      List.mem_singleton]
    constructor
    · rintro rfl
      exact ⟨.inr rfl, fun b hb => hb.elim (fun hb => Nat.le_of_lt (h.2.2 b hb x (by simp))) (fun e => e ▸ Nat.le_refl _)⟩
    · rintro ⟨h1 | h1, h2⟩
      · exact absurd (h2 x (.inr rfl)) (Nat.not_le.2 (h.2.2 a h1 x (by simp)))
      · exact h1.symm

/-- The first element of a rising list is its lowest. -/
theorem head?_rising {l : List Nat} (h : l.Pairwise (· < ·)) (a : Nat) :
    l.head? = some a ↔ a ∈ l ∧ ∀ b ∈ l, a ≤ b := by
  cases l with
  | nil => simp
  | cons x xs =>
    rw [List.pairwise_cons] at h
    simp only [List.head?_cons, Option.some.injEq, List.mem_cons, forall_eq_or_imp]
    constructor
    · rintro rfl; exact ⟨.inl rfl, Nat.le_refl _, fun b hb => Nat.le_of_lt (h.1 b hb)⟩
    · rintro ⟨h1 | h1, h2, _⟩
      · exact h1.symm
      · exact absurd (h.1 a h1) (Nat.not_lt.2 h2)

/-- R141: the arrow points to the nearest open position; the preference settles two equally near. -/
theorem leadDirection_iff (pref : Side) (p : Nat) {os : List Nat} (hs : os.Pairwise (· < ·)) (hp : p ∉ os) (ho : os ≠ [])
    (d : Side) :
    leadDirection pref p os = d ↔
      ∃ q ∈ os, (∀ q' ∈ os, (p - q) + (q - p) ≤ (p - q') + (q' - p)) ∧ (q < p ∧ d = .near ∨ p < q ∧ d = .off) ∧
        ((∃ q' ∈ os, q' ≠ q ∧ (p - q') + (q' - p) = (p - q) + (q - p)) → d = pref) := by
  have hlo : (os.filter fun q => decide (q < p)).Pairwise (· < ·) := hs.filter _
  have hhi : (os.filter fun q => decide (p < q)).Pairwise (· < ·) := hs.filter _
  unfold leadDirection
  simp only
  cases hb : (os.filter fun q => decide (q < p)).getLast? with
  | none =>
    have hno : ∀ q ∈ os, ¬q < p := fun q hq => by
      simpa using List.filter_eq_nil_iff.1 (List.getLast?_eq_none_iff.1 hb) q hq
    have hyes : ∀ q ∈ os, p < q := fun q hq => by
      have h1 := hno q hq
      have h2 : q ≠ p := fun e => hp (e ▸ hq)
      omega
    suffices h : Side.off = d ↔ ∃ q ∈ os, (∀ q' ∈ os, (p - q) + (q - p) ≤ (p - q') + (q' - p)) ∧
        (q < p ∧ d = .near ∨ p < q ∧ d = .off) ∧
        ((∃ q' ∈ os, q' ≠ q ∧ (p - q') + (q' - p) = (p - q) + (q - p)) → d = pref) by
      cases (os.filter fun q => decide (p < q)).head? <;> exact h
    obtain ⟨x, xs, rfl⟩ := List.exists_cons_of_ne_nil ho
    rw [List.pairwise_cons] at hs
    constructor
    · rintro rfl
      refine ⟨x, by simp, ?_, .inr ⟨hyes x (by simp), rfl⟩, ?_⟩
      · intro q hq
        have := hyes q hq
        rcases List.mem_cons.1 hq with rfl | hq
        · exact Nat.le_refl _
        · have := hs.1 q hq; have := hyes x (by simp); omega
      · rintro ⟨q, hq, hne, he⟩
        have h1 := hyes q hq
        have h2 := hyes x (by simp)
        omega
    · rintro ⟨q, hq, _, h | h, _⟩
      · exact absurd h.1 (hno q hq)
      · exact h.2.symm
  | some b =>
    obtain ⟨hb1, hb2⟩ := (getLast?_rising hlo b).1 hb
    simp only [List.mem_filter, decide_eq_true_eq] at hb1 hb2
    cases ha : (os.filter fun q => decide (p < q)).head? with
    | none =>
      have hyes : ∀ q ∈ os, q < p := by
        intro q hq
        have h2 : q ≠ p := fun e => hp (e ▸ hq)
        have h3 : ¬p < q := by simpa using List.filter_eq_nil_iff.1 (List.head?_eq_none_iff.1 ha) q hq
        omega
      constructor
      · rintro rfl
        refine ⟨b, hb1.1, ?_, .inl ⟨hb1.2, rfl⟩, ?_⟩
        · intro q hq
          have := hb2 q ⟨hq, hyes q hq⟩
          have := hyes q hq
          omega
        · rintro ⟨q, hq, hne, he⟩
          have := hb2 q ⟨hq, hyes q hq⟩
          have := hyes q hq
          omega
      · rintro ⟨q, hq, _, h | h, _⟩
        · exact h.2.symm
        · have := hyes q hq; omega
    | some a =>
      obtain ⟨ha1, ha2⟩ := (head?_rising hhi a).1 ha
      simp only [List.mem_filter, decide_eq_true_eq] at ha1 ha2
      have all : ∀ q ∈ os, q ≤ b ∨ a ≤ q := fun q hq => by
        have h2 : q ≠ p := fun e => hp (e ▸ hq)
        rcases Nat.lt_or_ge q p with h | h
        · exact .inl (hb2 q ⟨hq, h⟩)
        · exact .inr (ha2 q ⟨hq, by omega⟩)
      constructor
      · intro h
        simp only at h
        split at h
        · rename_i h1
          refine ⟨b, hb1.1, ?_, .inl ⟨hb1.2, h.symm⟩, ?_⟩
          · intro q hq; have := all q hq; omega
          · rintro ⟨q, hq, hne, he⟩; have := all q hq; omega
        · split at h
          · rename_i h1 h2
            refine ⟨a, ha1.1, ?_, .inr ⟨ha1.2, h.symm⟩, ?_⟩
            · intro q hq; have := all q hq; omega
            · rintro ⟨q, hq, hne, he⟩; have := all q hq; omega
          · rename_i h1 h2
            cases d with
            | near =>
              refine ⟨b, hb1.1, ?_, .inl ⟨hb1.2, rfl⟩, fun _ => h.symm⟩
              intro q hq; have := all q hq; omega
            | off =>
              refine ⟨a, ha1.1, ?_, .inr ⟨ha1.2, rfl⟩, fun _ => h.symm⟩
              intro q hq; have := all q hq; omega
      · rintro ⟨q, hq, h1, h2, h3⟩
        have hqb := h1 b hb1.1
        have hqa := h1 a ha1.1
        have hq' := all q hq
        simp only
        split
        · rcases h2 with h2 | h2
          · exact h2.2.symm
          · omega
        · split
          · rcases h2 with h2 | h2
            · omega
            · exact h2.2.symm
          · refine (h3 ?_).symm
            rcases h2 with h2 | h2
            · exact ⟨a, ha1.1, by omega, by omega⟩
            · exact ⟨b, hb1.1, by omega, by omega⟩

/-! ### The sweep (R139) -/

/-- What a gantry is handed by the one downstream (R149). -/
def carryFrom (down : Option (GantryRec × Target)) : Carry :=
  match down with
  | none => Carry.empty
  | some (r, t) => carryAll r.kinds t.signs

/-- A sweep settles its gantries in their order. -/
theorem sweep_keys (n : Snapshot) (l : List (Nat × GantryRec)) (prev : Option (Nat × GantryRec × Target)) :
    (n.sweep l prev).map (·.1) = l.map (·.1) := by
  induction l generalizing prev with
  | nil => rfl
  | cons x xs ih => obtain ⟨g, r⟩ := x; simp [Snapshot.sweep, ih]

/-- Each gantry of a sweep is settled with the finished target of the next one, if that one's number is one higher and the
two are continuous. -/
theorem sweep_spec (n : Snapshot) : ∀ (l : List (Nat × GantryRec)) (prev : Option (Nat × GantryRec × Target)),
    (l.map (·.1)).Pairwise (· > ·) → (∀ x, prev = some x → ∀ k ∈ l.map (·.1), k < x.1) → ∀ g t, (g, t) ∈ n.sweep l prev →
    ∃ r down, (g, r) ∈ l ∧ t = n.settle g r down (carryFrom down) ∧
      ∀ r' t', down = some (r', t') ↔ g ∈ n.contin ∧
        ((g + 1, r') ∈ l ∧ (g + 1, t') ∈ n.sweep l prev ∨ prev = some (g + 1, r', t')) := by
  intro l
  induction l with
  | nil => intro prev _ _ g t h; simp [Snapshot.sweep] at h
  | cons x xs ih =>
    obtain ⟨g0, r0⟩ := x
    intro prev hp hq g t h
    simp only [List.map_cons, List.pairwise_cons] at hp
    have hrest : ∀ k r, (k, r) ∈ xs → k < g0 := fun k r hk => hp.1 k (List.mem_map_of_mem (f := (·.1)) hk)
    have hsw : ∀ p k u, (k, u) ∈ n.sweep xs p → k < g0 := fun p k u hk => hp.1 k (by
      rw [← sweep_keys n xs p]; exact List.mem_map_of_mem (f := (·.1)) hk)
    simp only [Snapshot.sweep, List.mem_cons, Prod.mk.injEq] at h ⊢
    rcases h with ⟨rfl, rfl⟩ | h
    · refine ⟨r0, _, .inl ⟨rfl, rfl⟩, rfl, ?_⟩
      intro r' t'
      have no1 : ∀ r, ¬((g + 1 = g ∧ r = r0) ∨ (g + 1, r) ∈ xs) := by
        rintro r (⟨h, _⟩ | h)
        · omega
        · have := hrest _ _ h; omega
      simp only [no1, false_and, false_or]
      cases prev with
      | none => simp
      | some y =>
        obtain ⟨g', r1, t1⟩ := y
        simp only [Option.some.injEq, Prod.mk.injEq, List.contains_eq_mem, decide_eq_true_eq]
        split
        · rename_i e; simp [e.1, e.2]
        · rename_i e
          simp only [reduceCtorEq, false_iff]
          rintro ⟨h1, rfl, _⟩
          exact e ⟨rfl, h1⟩
    · obtain ⟨r, down, h1, h2, h3⟩ := ih _ hp.2 (by
        rintro x ⟨⟩ k hk; exact hp.1 k hk) g t h
      have hg : g < g0 := hrest _ _ h1
      refine ⟨r, down, .inr h1, h2, ?_⟩
      intro r' t'
      rw [h3]
      refine and_congr Iff.rfl ?_
      have nop : prev ≠ some (g + 1, r', t') := fun e => by
        have := hq _ e g0 (by simp)
        simp at this; omega
      simp only [nop, or_false, Option.some.injEq, Prod.mk.injEq]
      constructor
      · rintro (⟨h4, h5⟩ | ⟨h4, h5, h6⟩)
        · exact ⟨.inr h4, .inr h5⟩
        · exact ⟨.inl ⟨h4.symm, h5.symm⟩, .inl ⟨h4.symm, h6.symm⟩⟩
      · rintro ⟨h4 | h4, h5 | h5⟩
        · exact .inr ⟨h4.1.symm, h4.2.symm, h5.2.symm⟩
        · have := hsw _ _ _ h5; omega
        · have := hrest _ _ h4; omega
        · exact .inl ⟨h4, h5⟩

/-- The targets of a pass are listed by rising gantry. -/
theorem rising_targets {n : Snapshot} (hr : n.gantries.rising = true) : n.targets.rising = true := by
  rw [rising_iff] at hr ⊢
  unfold Snapshot.targets Table.keys at *
  rw [List.map_reverse, sweep_keys, List.map_reverse, List.reverse_reverse]
  exact hr

/-- R139: each target of a pass settles its gantry with the finished target of the gantry below. -/
theorem targets_spec {n : Snapshot} (hr : n.gantries.rising = true) {g : Nat} {t : Target} (h : (g, t) ∈ n.targets) :
    ∃ r down, n.gantries.look g = some r ∧ t = n.settle g r down (carryFrom down) ∧
      ∀ r' t', down = some (r', t') ↔ n.below g r' t' := by
  have hk := (rising_iff _).1 hr
  obtain ⟨r, down, h1, h2, h3⟩ := sweep_spec n n.gantries.reverse none
    (by rw [List.map_reverse, List.pairwise_reverse]; exact hk) (by simp) g t (by
      simpa [Snapshot.targets] using h)
  refine ⟨r, down, look_of_mem hr (by simpa using h1), h2, ?_⟩
  intro r' t'
  rw [h3, Snapshot.below]
  simp only [reduceCtorEq, or_false, List.mem_reverse, mem_iff_look hr]
  rw [← mem_iff_look (rising_targets hr)]
  simp [Snapshot.targets]

/-! ### What a gantry is asked for and wants (R140 to R145) -/

section Wants

variable {n : Snapshot} (hr : n.gantries.rising = true) {g : Nat} {q : GantryRec} {down : Option (GantryRec × Target)}
  (hd : ∀ r t, down = some (r, t) ↔ n.below g r t)

include hd

/-- R149: the cell demands handed on from downstream. -/
theorem carried_cell (p : Nat) (a : Cell) :
    (p, a) ∈ (carryFrom down).cells ↔ ∃ r t, n.below g r t ∧ t.handsOn r p a.toAspect := by
  simp only [← hd]
  cases down with
  | none => simp [carryFrom, Carry.empty]
  | some x =>
    simp only [carryFrom, mem_carryAll, Target.handsOn, Option.some.injEq]
    constructor
    · rintro ⟨i, y, h⟩; exact ⟨x.1, x.2, rfl, i, y, h⟩
    · rintro ⟨_, _, rfl, i, y, h⟩; exact ⟨i, y, h⟩

/-- R149: the speed demands handed on from downstream. -/
theorem carried_speed (v : Nat) :
    v ∈ (carryFrom down).speeds ↔ ∃ r t p, n.below g r t ∧ t.handsOn r p (.speed v) := by
  simp only [← hd]
  cases down with
  | none => simp [carryFrom, Carry.empty]
  | some x =>
    simp only [carryFrom, mem_carryAll, Target.handsOn, Option.some.injEq]
    constructor
    · rintro ⟨p, i, y, h⟩; exact ⟨x.1, x.2, p, rfl, i, y, h⟩
    · rintro ⟨_, _, p, rfl, i, y, h⟩; exact ⟨p, i, y, h⟩

include hr

/-- R140: the cell demands gathered on a position. -/
theorem mem_cellsAt (p : Nat) (a : Cell) : a ∈ n.cellsAt g q (carryFrom down) p ↔ n.asksCell g q p a := by
  unfold Snapshot.cellsAt Snapshot.asksCell
  simp only [List.mem_append, or_assoc]
  refine or_congr ?_ (or_congr ?_ (or_congr ?_ ?_))
  · simp only [List.mem_map, List.mem_filter, incidentCloses_iff hr, Prod.exists]
    constructor
    · rintro ⟨h, r, h1, rfl⟩; exact ⟨rfl, h, r, h1⟩
    · rintro ⟨rfl, h, r, h1⟩; exact ⟨h, r, h1, rfl⟩
  · split
    · rename_i h; simp [h]
    · rename_i h; simp only [List.not_mem_nil, false_iff]; rintro ⟨_, h1⟩; exact h h1
  · simp only [List.mem_filterMap, Prod.exists]
    constructor
    · rintro ⟨h, ⟨g', w⟩, h1, h2⟩
      cases w with
      | cell ls b =>
        simp only [Option.ite_none_right_eq_some, Option.some.injEq] at h2
        obtain ⟨⟨rfl, h3⟩, rfl⟩ := h2
        exact ⟨h, ls, h1, h3⟩
      | speed v => simp at h2
      | legend m => simp at h2
    · rintro ⟨h, ls, h1, h2⟩
      exact ⟨h, _, h1, by simpa [LaneSet.holds] using h2⟩
  · rw [← carried_cell hd]
    simp

/-- R141: the lead-in is called for at a position the gantry has. -/
theorem leadCalled_iff {p : Nat} (hp : q.lanes.getLsbD p = true) :
    leadCalled down (n.cellsAt g q (carryFrom down)) p = true ↔ n.leadsIn g q p := by
  unfold Snapshot.leadsIn
  rw [← mem_cellsAt hr hd]
  simp only [hp, true_and, ← shownAt_iff, ← hd]
  cases down with
  | none => simp [leadCalled]
  | some x =>
    obtain ⟨r, t⟩ := x
    simp only [leadCalled, Bool.and_eq_true, beq_iff_eq, Bool.not_eq_true', List.contains_eq_mem, decide_eq_false_iff_not]
    constructor
    · rintro ⟨h1, h2⟩; exact ⟨h2, r, t, rfl, h1⟩
    · rintro ⟨h2, r', t', e, h1⟩; cases e; exact ⟨h1, h2⟩

omit hr in
/-- R141: the open positions downstream. -/
theorem mem_open (p : Nat) : n.opensBelow g p ↔ ∃ r t, down = some (r, t) ∧ p ∈ openLanes r t := by
  simp only [Snapshot.opensBelow, mem_openLanes, hd]

omit hr in
/-- R141: the direction of the lead-in. -/
theorem leadsTo_iff {r : GantryRec} {t : Target} (e : down = some (r, t)) {p : Nat} (hp : p ∉ openLanes r t)
    (ho : openLanes r t ≠ []) (d : Side) :
    leadDirection n.plan.divertPref p (openLanes r t) = d ↔ n.leadsTo g p d := by
  have hs : (openLanes r t).Pairwise (· < ·) := ((List.pairwise_lt_range).filter _).filter _
  rw [leadDirection_iff _ _ hs hp ho]
  have ho : ∀ x, n.opensBelow g x ↔ x ∈ openLanes r t := fun x => by
    rw [mem_open hd]
    constructor
    · rintro ⟨_, _, h, h1⟩; rw [e] at h; cases h; exact h1
    · intro h; exact ⟨r, t, e, h⟩
  simp only [Snapshot.leadsTo, ho]

/-- R141: the lead-in demands a DIVERT toward the nearest open position, and nothing else. -/
theorem mem_leadCell {p : Nat} (hp : q.lanes.getLsbD p = true) (a : Cell) :
    a ∈ leadCell n.plan.divertPref down (n.cellsAt g q (carryFrom down)) p ↔
      ∃ d, a = .divert d ∧ n.leadsIn g q p ∧ n.leadsTo g p d := by
  have hc := leadCalled_iff hr hd hp
  cases e : down with
  | none => subst e; rw [← hc]; simp [leadCell, leadCalled]
  | some x =>
    obtain ⟨r, t⟩ := x
    rw [← e, ← hc, e]
    simp only [leadCell]
    by_cases h1 : leadCalled (some (r, t)) (n.cellsAt g q (carryFrom (some (r, t)))) p = true
    · have hpo : p ∉ openLanes r t := by
        rw [mem_openLanes, ← shownAt_iff]
        simp only [← shownAt_iff]
        simp only [leadCalled, Bool.and_eq_true, beq_iff_eq] at h1
        rw [h1.1]; simp
      by_cases h2 : openLanes r t = []
      · have : ∀ d, ¬n.leadsTo g p d := by
          rintro d ⟨x, h3, _⟩
          obtain ⟨_, _, h, h4⟩ := (mem_open hd x).1 h3
          rw [e] at h; cases h; simp [h2] at h4
        simp [h1, h2, this]
      · have := leadsTo_iff hd e hpo h2
        simp only [h1, Bool.true_and, true_and, ← this]
        rw [if_pos (by simp [h2])]
        simp
    · simp [h1]

/-- R141: the lead-in finds no open position below. -/
theorem leadBlocked_iff :
    leadBlocked q down (n.cellsAt g q (carryFrom down)) = true ↔ n.leadsNowhere g q := by
  have hany : (LaneSet.positions q.lanes).any (leadCalled down (n.cellsAt g q (carryFrom down))) = true ↔
      ∃ p, n.leadsIn g q p := by
    simp only [List.any_eq_true]
    constructor
    · rintro ⟨p, h1, h2⟩
      have hp : q.lanes.getLsbD p = true := by simpa [LaneSet.positions, LaneSet.holds] using (List.mem_filter.1 h1).2
      exact ⟨p, (leadCalled_iff hr hd hp).1 h2⟩
    · rintro ⟨p, h⟩
      refine ⟨p, ?_, (leadCalled_iff hr hd h.1).2 h⟩
      have : p < 6 := by
        apply Classical.byContradiction; intro h6
        have := h.1
        rw [BitVec.getLsbD_of_ge _ _ (by omega)] at this
        cases this
      simp [LaneSet.positions, LaneSet.holds, this, h.1]
  unfold Snapshot.leadsNowhere
  rw [← hany]
  have ho := fun p => mem_open hd p
  simp only [ho]
  cases e : down with
  | none => simp [leadBlocked, leadCalled]
  | some x =>
    obtain ⟨r, t⟩ := x
    simp only [leadBlocked, Bool.and_eq_true, List.isEmpty_iff, Option.some.injEq, Prod.mk.injEq, not_exists, not_and]
    rw [and_comm]
    refine and_congr Iff.rfl ?_
    constructor
    · intro h p _ _ h1; obtain ⟨rfl, rfl⟩ := h1; simp [h]
    · intro h; exact List.eq_nil_iff_forall_not_mem.2 fun p => h p r t ⟨rfl, rfl⟩

omit hr hd in
/-- R142: the most restrictive of the cell demands. -/
theorem joinCells_iff (pref : Side) (cs : List Cell) (a : Cell) :
    joinCells pref cs = some a ↔
      match a with
      | .closed => Cell.closed ∈ cs
      | .divert d => Cell.closed ∉ cs ∧ Cell.divert d ∈ cs ∧ ∀ e, e ≠ d → Cell.divert e ∈ cs → d = pref := by
  have sides : ∀ (P : Side → Prop), (∀ e, P e) ↔ P .near ∧ P .off :=
    fun P => ⟨fun h => ⟨h _, h _⟩, fun h e => by cases e; exact h.1; exact h.2⟩
  unfold joinCells
  simp only [List.contains_eq_mem, decide_eq_true_eq]
  by_cases h1 : Cell.closed ∈ cs <;> by_cases h2 : Cell.divert .near ∈ cs <;> by_cases h3 : Cell.divert .off ∈ cs
  all_goals
    cases a with
    | closed => simp [h1, h2, h3]
    | divert d => cases d <;> cases pref <;> simp [h1, h2, h3, sides]

/-- R142: the wanted cell aspect of a position the gantry has. -/
theorem wantedCell_iff {p : Nat} (hp : q.lanes.getLsbD p = true) (a : Cell) :
    n.wantedCell g q down (carryFrom down) p = some a ↔ n.wantsCell g q p a := by
  unfold Snapshot.wantedCell
  simp only
  rw [joinCells_iff]
  cases a <;> simp [mem_cellsAt hr hd, mem_leadCell hr hd hp, Snapshot.wantsCell]

end Wants

/-- A lane signal's negotiated aspect is none of the panel's, and the panel's none of a lane signal's. -/
theorem settleSign_fits (n : Snapshot) (g : Nat) (r : GantryRec) (down : Option (GantryRec × Target)) (c : Carry)
    (x : SignKind × List Aspect) : Aspect.fits x.1 (n.settleSign g r down c x).shown = true := by
  obtain ⟨k, l⟩ := x
  cases k with
  | lane p =>
    simp only [Snapshot.settleSign, signTarget]
    cases n.wanted g r down c (.lane p) <;> simp only [negotiateLane] <;> repeat' split
    all_goals simp [Aspect.fits]
  | panel =>
    simp only [Snapshot.settleSign, signTarget]
    cases n.wanted g r down c .panel <;> simp only [negotiatePanel] <;> repeat' split
    all_goals simp [Aspect.fits]

/-- The sign at an index of a settled gantry. -/
theorem settle_sign {n : Snapshot} {g : Nat} {r : GantryRec} {down : Option (GantryRec × Target)} {c : Carry} {i : Nat}
    {x : SignTarget} (h : (n.settle g r down c).signs[i]? = some x) :
    ∃ k, r.kinds[i]? = some k ∧ x = n.settleSign g r down c (k,
      match ((n.signs.look g).getD ([] : List SignView))[i]? with
      | some v => if v.serviceable then v.caps else []
      | none => []) := by
  simp only [Snapshot.settle, List.getElem?_map, Option.map_eq_some_iff] at h
  obtain ⟨⟨k, l⟩, h1, rfl⟩ := h
  have hi : i < r.kinds.length := by
    have := (List.getElem?_eq_some_iff.1 h1).1
    rwa [signLists_length] at this
  have h2 : r.kinds[i]? = some r.kinds[i] := List.getElem?_eq_getElem hi
  refine ⟨_, h2, ?_⟩
  rw [signLists_get _ _ _ _ h2] at h1
  cases Option.some.inj h1
  rfl

section Speeds

variable {n : Snapshot} (hr : n.gantries.rising = true) {g : Nat} {q : GantryRec} {down : Option (GantryRec × Target)}
  (hd : ∀ r t, down = some (r, t) ↔ n.below g r t)

include hr

omit hd in
/-- R143: the lowest SPEED the gantry below shows. -/
theorem lowestShown_iff {r : GantryRec} {t : Target} (e : n.below g r t) (w : Nat) :
    lowestShown t = some w ↔ (∃ p, t.shows r p (.speed w)) ∧ ∀ p u, t.shows r p (.speed u) → w ≤ u := by
  obtain ⟨_, e1, e2⟩ := e
  obtain ⟨r', down', e3, rfl, _⟩ := targets_spec hr (mem_of_look e2)
  rw [e1] at e3; cases e3
  refine (lowest_of (P := fun u => ∃ p, (n.settle (g + 1) r down' (carryFrom down')).shows r p (.speed u)) ?_ w).trans
    (and_congr Iff.rfl ⟨fun h p u hu => h u ⟨p, hu⟩, fun h u ⟨p, hu⟩ => h p u hu⟩)
  intro u
  simp only [List.mem_filterMap]
  constructor
  · rintro ⟨x, h1, h2⟩
    have h3 : x.shown = .speed u := by
      cases hs : x.shown <;> rw [hs] at h2 <;> simp at h2
      rw [h2]
    obtain ⟨i, h4⟩ := List.mem_iff_getElem?.1 h1
    obtain ⟨k, h5, h6⟩ := settle_sign h4
    cases k with
    | panel =>
      have h7 := settleSign_fits n (g + 1) r down' (carryFrom down') (.panel,
        match ((n.signs.look (g + 1)).getD ([] : List SignView))[i]? with
        | some v => if v.serviceable then v.caps else []
        | none => [])
      rw [h6] at h3
      rw [h3] at h7
      simp [Aspect.fits] at h7
    | lane p => exact ⟨p, i, x, h5, h4, h3⟩
  · rintro ⟨p, i, x, h1, h2, h3⟩
    exact ⟨x, List.mem_of_getElem? h2, by rw [h3]⟩

include hd

/-- R143: the gantry speed is the lowest speed of the table that is present, each taken as at most corridor_max. -/
theorem gantrySpeed_iff (v : Nat) :
    n.gantrySpeed g q down (carryFrom down) = some v ↔
      (∃ u, n.asksSpeed g q u ∧ v = min u n.plan.corridorMax) ∧
        ∀ u, n.asksSpeed g q u → v ≤ min u n.plan.corridorMax := by
  unfold Snapshot.gantrySpeed
  simp only
  refine lowest_map_of n.cap ?_ v
  intro u
  unfold Snapshot.speedsAt Snapshot.asksSpeed
  simp only [List.mem_append, or_assoc]
  refine or_congr ?_ (or_congr ?_ (or_congr ?_ (or_congr ?_ (or_congr ?_ (or_congr ?_ (or_congr ?_ ?_))))))
  · simp only [List.mem_filterMap, incidentSpeed_iff hr, Prod.exists]
  · split
    · rename_i h; simp [h]
    · rename_i h; simp only [List.not_mem_nil, false_iff]; rintro ⟨h1, h2, _⟩; exact h ⟨h1, h2⟩
  · simp only [List.mem_flatMap, List.mem_map, List.mem_filter, beq_iff_eq, ← stationSpeed_iff, Prod.exists, and_assoc]
  · simp only [List.mem_filterMap, Prod.exists]
    constructor
    · rintro ⟨h, ⟨g', w⟩, h1, h2⟩
      cases w with
      | speed v =>
        simp only [Option.ite_none_right_eq_some, Option.some.injEq] at h2
        obtain ⟨rfl, rfl⟩ := h2
        exact ⟨h, h1⟩
      | cell ls b => simp at h2
      | legend m => simp at h2
    · rintro ⟨h, h1⟩; exact ⟨h, _, h1, by simp⟩
  · exact carried_speed hd u
  · split
    · rename_i h; simp [(leadBlocked_iff hr hd).1 h]
    · rename_i h; simp [mt (leadBlocked_iff hr hd).2 h]
  · constructor
    · intro h
      cases e : down with
      | none => simp [e] at h
      | some x =>
        obtain ⟨r, t⟩ := x
        simp only [e] at h
        cases el : lowestShown t with
        | none => simp [el] at h
        | some w =>
          simp only [el, List.mem_singleton] at h
          have hb := (hd r t).1 e
          obtain ⟨h1, h2⟩ := (lowestShown_iff hr hb w).1 el
          exact ⟨r, t, w, hb, h1, h2, h⟩
    · rintro ⟨r, t, w, hb, h1, h2, rfl⟩
      have e := (hd r t).2 hb
      have el := (lowestShown_iff hr hb w).2 ⟨h1, h2⟩
      simp [e, el]
  · have hc : ((LaneSet.positions q.lanes).any fun p => (n.wantedCell g q down (carryFrom down) p).isSome) = true ↔
        ∃ p a, q.lanes.getLsbD p = true ∧ n.wantsCell g q p a := by
      simp only [List.any_eq_true, Option.isSome_iff_exists]
      constructor
      · rintro ⟨p, h1, a, h2⟩
        have hp : q.lanes.getLsbD p = true := by simpa [LaneSet.positions, LaneSet.holds] using (List.mem_filter.1 h1).2
        exact ⟨p, a, hp, (wantedCell_iff hr hd hp a).1 h2⟩
      · rintro ⟨p, a, hp, h⟩
        refine ⟨p, ?_, a, (wantedCell_iff hr hd hp a).2 h⟩
        have : p < 6 := by
          apply Classical.byContradiction; intro h6
          have := hp
          rw [BitVec.getLsbD_of_ge _ _ (by omega)] at this
          cases this
        simp [LaneSet.positions, LaneSet.holds, this, hp]
    split
    · rename_i h
      rw [List.mem_singleton]
      exact ⟨fun e => ⟨hc.1 h, e⟩, fun e => e.2⟩
    · rename_i h
      exact ⟨fun e => absurd e List.not_mem_nil, fun e => absurd e.1 (mt hc.2 h)⟩

/-- R145: the legend demands that reach a gantry. -/
theorem mem_legends (m : Nat) :
    m ∈ n.legendsAt g q ++ (if leadBlocked q down (n.cellsAt g q (carryFrom down)) then [2] else []) ↔
      n.asksLegend g q m := by
  unfold Snapshot.legendsAt Snapshot.asksLegend
  simp only [List.mem_append, or_assoc]
  refine or_congr ?_ (or_congr ?_ (or_congr ?_ (or_congr ?_ ?_)))
  · simp only [List.mem_filterMap, incidentLegend_iff hr, Prod.exists]
  · split
    · rename_i h; simp [h]
    · rename_i h; simp only [List.not_mem_nil, false_iff]; rintro ⟨h1, h2, _⟩; exact h ⟨h1, h2⟩
  · simp only [List.mem_flatMap, List.mem_filterMap, List.mem_filter, beq_iff_eq, ← stationLegend_iff, Prod.exists, and_assoc]
  · simp only [List.mem_filterMap, Prod.exists]
    constructor
    · rintro ⟨h, ⟨g', w⟩, h1, h2⟩
      cases w with
      | legend v =>
        simp only [Option.ite_none_right_eq_some, Option.some.injEq] at h2
        obtain ⟨rfl, rfl⟩ := h2
        exact ⟨h, h1⟩
      | cell ls b => simp at h2
      | speed m => simp at h2
    · rintro ⟨h, h1⟩; exact ⟨h, _, h1, by simp⟩
  · split
    · rename_i h; simp [(leadBlocked_iff hr hd).1 h]
    · rename_i h; simp [mt (leadBlocked_iff hr hd).2 h]

end Speeds

end Sys2Proof.Machine
end

