-- ==== Sys2Proof/Laws/State.lean ====
section
/-! SUPPORT. What each named update does to each field: no later proof unfolds a record update. -/

namespace Sys2Proof.Machine

/-! ### The line controllers -/

@[simp] theorem setLine_pending (s : State) (l : Line) (c : LineCtl) : (s.setLine l c).pending = s.pending := by cases l <;> rfl

@[simp] theorem setLine_freeCount (s : State) (l : Line) (c : LineCtl) : (s.setLine l c).freeCount = s.freeCount := by cases l <;> rfl

@[simp] theorem setLine_resetHigh (s : State) (l : Line) (c : LineCtl) : (s.setLine l c).resetHigh = s.resetHigh := by cases l <;> rfl

@[simp] theorem setLine_clock (s : State) (l : Line) (c : LineCtl) : (s.setLine l c).clock = s.clock := by cases l <;> rfl

@[simp] theorem setLine_link (s : State) (l : Line) (c : LineCtl) : (s.setLine l c).link = s.link := by cases l <;> rfl

@[simp] theorem setLine_geo (s : State) (l : Line) (c : LineCtl) : (s.setLine l c).geo = s.geo := by cases l <;> rfl

@[simp] theorem setLine_nodes (s : State) (l : Line) (c : LineCtl) : (s.setLine l c).nodes = s.nodes := by cases l <;> rfl

@[simp] theorem setLine_measure (s : State) (l : Line) (c : LineCtl) : (s.setLine l c).measure = s.measure := by cases l <;> rfl

@[simp] theorem setLine_traffic (s : State) (l : Line) (c : LineCtl) : (s.setLine l c).traffic = s.traffic := by cases l <;> rfl

@[simp] theorem setLine_incidents (s : State) (l : Line) (c : LineCtl) : (s.setLine l c).incidents = s.incidents := by cases l <;> rfl

@[simp] theorem setLine_sections (s : State) (l : Line) (c : LineCtl) : (s.setLine l c).sections = s.sections := by cases l <;> rfl

@[simp] theorem setLine_plan (s : State) (l : Line) (c : LineCtl) : (s.setLine l c).plan = s.plan := by cases l <;> rfl

@[simp] theorem setLine_rollout (s : State) (l : Line) (c : LineCtl) : (s.setLine l c).rollout = s.rollout := by cases l <;> rfl

@[simp] theorem setLine_banks (s : State) (l : Line) (c : LineCtl) : (s.setLine l c).banks = s.banks := by cases l <;> rfl

@[simp] theorem line_setLine_self (s : State) (l : Line) (c : LineCtl) : (s.setLine l c).line l = c := by cases l <;> rfl

theorem line_setLine_other (s : State) {l m : Line} (c : LineCtl) (h : m ≠ l) : (s.setLine l c).line m = s.line m := by
  cases l <;> cases m <;> first | rfl | exact absurd rfl h

@[simp] theorem setLine_line (s : State) (l : Line) : s.setLine l (s.line l) = s := by cases l <;> rfl

@[simp] theorem line_a (s : State) : s.line .a = s.lineA := rfl

@[simp] theorem line_b (s : State) : s.line .b = s.lineB := rfl

@[simp] theorem onLine_pending (s : State) (l : Line) (f : LineCtl → LineCtl) : (s.onLine l f).pending = s.pending := by cases l <;> rfl

@[simp] theorem onLine_freeCount (s : State) (l : Line) (f : LineCtl → LineCtl) : (s.onLine l f).freeCount = s.freeCount := by cases l <;> rfl

@[simp] theorem onLine_resetHigh (s : State) (l : Line) (f : LineCtl → LineCtl) : (s.onLine l f).resetHigh = s.resetHigh := by cases l <;> rfl

@[simp] theorem onLine_clock (s : State) (l : Line) (f : LineCtl → LineCtl) : (s.onLine l f).clock = s.clock := by cases l <;> rfl

@[simp] theorem onLine_link (s : State) (l : Line) (f : LineCtl → LineCtl) : (s.onLine l f).link = s.link := by cases l <;> rfl

@[simp] theorem onLine_geo (s : State) (l : Line) (f : LineCtl → LineCtl) : (s.onLine l f).geo = s.geo := by cases l <;> rfl

@[simp] theorem onLine_nodes (s : State) (l : Line) (f : LineCtl → LineCtl) : (s.onLine l f).nodes = s.nodes := by cases l <;> rfl

@[simp] theorem onLine_measure (s : State) (l : Line) (f : LineCtl → LineCtl) : (s.onLine l f).measure = s.measure := by cases l <;> rfl

@[simp] theorem onLine_traffic (s : State) (l : Line) (f : LineCtl → LineCtl) : (s.onLine l f).traffic = s.traffic := by cases l <;> rfl

@[simp] theorem onLine_incidents (s : State) (l : Line) (f : LineCtl → LineCtl) : (s.onLine l f).incidents = s.incidents := by cases l <;> rfl

@[simp] theorem onLine_sections (s : State) (l : Line) (f : LineCtl → LineCtl) : (s.onLine l f).sections = s.sections := by cases l <;> rfl

@[simp] theorem onLine_plan (s : State) (l : Line) (f : LineCtl → LineCtl) : (s.onLine l f).plan = s.plan := by cases l <;> rfl

@[simp] theorem onLine_rollout (s : State) (l : Line) (f : LineCtl → LineCtl) : (s.onLine l f).rollout = s.rollout := by cases l <;> rfl

@[simp] theorem onLine_banks (s : State) (l : Line) (f : LineCtl → LineCtl) : (s.onLine l f).banks = s.banks := by cases l <;> rfl

@[simp] theorem line_onLine_self (s : State) (l : Line) (f : LineCtl → LineCtl) : (s.onLine l f).line l = f (s.line l) := by cases l <;> rfl

theorem line_onLine_other (s : State) {l m : Line} (f : LineCtl → LineCtl) (h : m ≠ l) :
    (s.onLine l f).line m = s.line m := line_setLine_other s _ h

/-- The line controller that reaches a gantry is that of its line. -/
theorem onLineOf_eq {s : State} {g : Nat} {r : GantryRec} (f : LineCtl → LineCtl) (h : s.geo.gantries.look g = some r) :
    s.onLineOf g f = s.onLine r.line f := by simp [State.onLineOf, h]

theorem onLineOf_none {s : State} {g : Nat} (f : LineCtl → LineCtl) (h : s.geo.gantries.look g = none) :
    s.onLineOf g f = s := by simp [State.onLineOf, h]

@[simp] theorem onLineOf_pending (s : State) (g : Nat) (f : LineCtl → LineCtl) : (s.onLineOf g f).pending = s.pending := by
  unfold State.onLineOf; split <;> simp

@[simp] theorem onLineOf_freeCount (s : State) (g : Nat) (f : LineCtl → LineCtl) : (s.onLineOf g f).freeCount = s.freeCount := by
  unfold State.onLineOf; split <;> simp

@[simp] theorem onLineOf_resetHigh (s : State) (g : Nat) (f : LineCtl → LineCtl) : (s.onLineOf g f).resetHigh = s.resetHigh := by
  unfold State.onLineOf; split <;> simp

@[simp] theorem onLineOf_clock (s : State) (g : Nat) (f : LineCtl → LineCtl) : (s.onLineOf g f).clock = s.clock := by
  unfold State.onLineOf; split <;> simp

@[simp] theorem onLineOf_link (s : State) (g : Nat) (f : LineCtl → LineCtl) : (s.onLineOf g f).link = s.link := by
  unfold State.onLineOf; split <;> simp

@[simp] theorem onLineOf_geo (s : State) (g : Nat) (f : LineCtl → LineCtl) : (s.onLineOf g f).geo = s.geo := by
  unfold State.onLineOf; split <;> simp

@[simp] theorem onLineOf_nodes (s : State) (g : Nat) (f : LineCtl → LineCtl) : (s.onLineOf g f).nodes = s.nodes := by
  unfold State.onLineOf; split <;> simp

@[simp] theorem onLineOf_measure (s : State) (g : Nat) (f : LineCtl → LineCtl) : (s.onLineOf g f).measure = s.measure := by
  unfold State.onLineOf; split <;> simp

@[simp] theorem onLineOf_traffic (s : State) (g : Nat) (f : LineCtl → LineCtl) : (s.onLineOf g f).traffic = s.traffic := by
  unfold State.onLineOf; split <;> simp

@[simp] theorem onLineOf_incidents (s : State) (g : Nat) (f : LineCtl → LineCtl) : (s.onLineOf g f).incidents = s.incidents := by
  unfold State.onLineOf; split <;> simp

@[simp] theorem onLineOf_sections (s : State) (g : Nat) (f : LineCtl → LineCtl) : (s.onLineOf g f).sections = s.sections := by
  unfold State.onLineOf; split <;> simp

@[simp] theorem onLineOf_plan (s : State) (g : Nat) (f : LineCtl → LineCtl) : (s.onLineOf g f).plan = s.plan := by
  unfold State.onLineOf; split <;> simp

@[simp] theorem onLineOf_rollout (s : State) (g : Nat) (f : LineCtl → LineCtl) : (s.onLineOf g f).rollout = s.rollout := by
  unfold State.onLineOf; split <;> simp

@[simp] theorem onLineOf_banks (s : State) (g : Nat) (f : LineCtl → LineCtl) : (s.onLineOf g f).banks = s.banks := by
  unfold State.onLineOf; split <;> simp


/-! ### The link unit -/

@[simp] theorem setFramer_pending (s : State) (f : Framer) : (s.setFramer f).pending = s.pending := rfl

@[simp] theorem setFramer_freeCount (s : State) (f : Framer) : (s.setFramer f).freeCount = s.freeCount := rfl

@[simp] theorem setFramer_resetHigh (s : State) (f : Framer) : (s.setFramer f).resetHigh = s.resetHigh := rfl

@[simp] theorem setFramer_clock (s : State) (f : Framer) : (s.setFramer f).clock = s.clock := rfl

@[simp] theorem setFramer_geo (s : State) (f : Framer) : (s.setFramer f).geo = s.geo := rfl

@[simp] theorem setFramer_lineA (s : State) (f : Framer) : (s.setFramer f).lineA = s.lineA := rfl

@[simp] theorem setFramer_lineB (s : State) (f : Framer) : (s.setFramer f).lineB = s.lineB := rfl

@[simp] theorem setFramer_nodes (s : State) (f : Framer) : (s.setFramer f).nodes = s.nodes := rfl

@[simp] theorem setFramer_measure (s : State) (f : Framer) : (s.setFramer f).measure = s.measure := rfl

@[simp] theorem setFramer_traffic (s : State) (f : Framer) : (s.setFramer f).traffic = s.traffic := rfl

@[simp] theorem setFramer_incidents (s : State) (f : Framer) : (s.setFramer f).incidents = s.incidents := rfl

@[simp] theorem setFramer_sections (s : State) (f : Framer) : (s.setFramer f).sections = s.sections := rfl

@[simp] theorem setFramer_plan (s : State) (f : Framer) : (s.setFramer f).plan = s.plan := rfl

@[simp] theorem setFramer_rollout (s : State) (f : Framer) : (s.setFramer f).rollout = s.rollout := rfl

@[simp] theorem setFramer_banks (s : State) (f : Framer) : (s.setFramer f).banks = s.banks := rfl

@[simp] theorem setFramer_link_rate (s : State) (f : Framer) : (s.setFramer f).link.rate = s.link.rate := rfl

@[simp] theorem setFramer_link_framer (s : State) (f : Framer) : (s.setFramer f).link.framer = f := rfl

@[simp] theorem setFramer_link_rxQueue (s : State) (f : Framer) : (s.setFramer f).link.rxQueue = s.link.rxQueue := rfl

@[simp] theorem setFramer_link_replySlot (s : State) (f : Framer) : (s.setFramer f).link.replySlot = s.link.replySlot := rfl

@[simp] theorem setFramer_link_notices (s : State) (f : Framer) : (s.setFramer f).link.notices = s.link.notices := rfl

@[simp] theorem setFramer_link_lost (s : State) (f : Framer) : (s.setFramer f).link.lost = s.link.lost := rfl

@[simp] theorem setFramer_link_tx (s : State) (f : Framer) : (s.setFramer f).link.tx = s.link.tx := rfl

@[simp] theorem setFramer_link_resetting (s : State) (f : Framer) : (s.setFramer f).link.resetting = s.link.resetting := rfl

@[simp] theorem placeReply_pending (s : State) (f : Frame) (r : Result) (d : Detail) : (s.placeReply f r d).pending = s.pending := rfl

@[simp] theorem placeReply_freeCount (s : State) (f : Frame) (r : Result) (d : Detail) : (s.placeReply f r d).freeCount = s.freeCount := rfl

@[simp] theorem placeReply_resetHigh (s : State) (f : Frame) (r : Result) (d : Detail) : (s.placeReply f r d).resetHigh = s.resetHigh := rfl

@[simp] theorem placeReply_clock (s : State) (f : Frame) (r : Result) (d : Detail) : (s.placeReply f r d).clock = s.clock := rfl

@[simp] theorem placeReply_geo (s : State) (f : Frame) (r : Result) (d : Detail) : (s.placeReply f r d).geo = s.geo := rfl

@[simp] theorem placeReply_lineA (s : State) (f : Frame) (r : Result) (d : Detail) : (s.placeReply f r d).lineA = s.lineA := rfl

@[simp] theorem placeReply_lineB (s : State) (f : Frame) (r : Result) (d : Detail) : (s.placeReply f r d).lineB = s.lineB := rfl

@[simp] theorem placeReply_nodes (s : State) (f : Frame) (r : Result) (d : Detail) : (s.placeReply f r d).nodes = s.nodes := rfl

@[simp] theorem placeReply_measure (s : State) (f : Frame) (r : Result) (d : Detail) : (s.placeReply f r d).measure = s.measure := rfl

@[simp] theorem placeReply_traffic (s : State) (f : Frame) (r : Result) (d : Detail) : (s.placeReply f r d).traffic = s.traffic := rfl

@[simp] theorem placeReply_incidents (s : State) (f : Frame) (r : Result) (d : Detail) : (s.placeReply f r d).incidents = s.incidents := rfl

@[simp] theorem placeReply_sections (s : State) (f : Frame) (r : Result) (d : Detail) : (s.placeReply f r d).sections = s.sections := rfl

@[simp] theorem placeReply_plan (s : State) (f : Frame) (r : Result) (d : Detail) : (s.placeReply f r d).plan = s.plan := rfl

@[simp] theorem placeReply_rollout (s : State) (f : Frame) (r : Result) (d : Detail) : (s.placeReply f r d).rollout = s.rollout := rfl

@[simp] theorem placeReply_banks (s : State) (f : Frame) (r : Result) (d : Detail) : (s.placeReply f r d).banks = s.banks := rfl

@[simp] theorem placeReply_link_rate (s : State) (f : Frame) (r : Result) (d : Detail) : (s.placeReply f r d).link.rate = s.link.rate := rfl

@[simp] theorem placeReply_link_framer (s : State) (f : Frame) (r : Result) (d : Detail) : (s.placeReply f r d).link.framer = s.link.framer := rfl

@[simp] theorem placeReply_link_rxQueue (s : State) (f : Frame) (r : Result) (d : Detail) : (s.placeReply f r d).link.rxQueue = s.link.rxQueue := rfl

@[simp] theorem placeReply_link_replySlot (s : State) (f : Frame) (r : Result) (d : Detail) : (s.placeReply f r d).link.replySlot = some ⟨f.typ ||| 0x80#8, f.tag, r, d⟩ := rfl

@[simp] theorem placeReply_link_notices (s : State) (f : Frame) (r : Result) (d : Detail) : (s.placeReply f r d).link.notices = s.link.notices := rfl

@[simp] theorem placeReply_link_lost (s : State) (f : Frame) (r : Result) (d : Detail) : (s.placeReply f r d).link.lost = s.link.lost := rfl

@[simp] theorem placeReply_link_tx (s : State) (f : Frame) (r : Result) (d : Detail) : (s.placeReply f r d).link.tx = s.link.tx := rfl

@[simp] theorem placeReply_link_resetting (s : State) (f : Frame) (r : Result) (d : Detail) : (s.placeReply f r d).link.resetting = s.link.resetting := rfl

@[simp] theorem answered_pending (s : State) (f : Frame) (rest : List Frame) (r : Result) (d : Detail) : (s.answered f rest r d).pending = s.pending := rfl

@[simp] theorem answered_freeCount (s : State) (f : Frame) (rest : List Frame) (r : Result) (d : Detail) : (s.answered f rest r d).freeCount = s.freeCount := rfl

@[simp] theorem answered_resetHigh (s : State) (f : Frame) (rest : List Frame) (r : Result) (d : Detail) : (s.answered f rest r d).resetHigh = s.resetHigh := rfl

@[simp] theorem answered_clock (s : State) (f : Frame) (rest : List Frame) (r : Result) (d : Detail) : (s.answered f rest r d).clock = s.clock := rfl

@[simp] theorem answered_geo (s : State) (f : Frame) (rest : List Frame) (r : Result) (d : Detail) : (s.answered f rest r d).geo = s.geo := rfl

@[simp] theorem answered_lineA (s : State) (f : Frame) (rest : List Frame) (r : Result) (d : Detail) : (s.answered f rest r d).lineA = s.lineA := rfl

@[simp] theorem answered_lineB (s : State) (f : Frame) (rest : List Frame) (r : Result) (d : Detail) : (s.answered f rest r d).lineB = s.lineB := rfl

@[simp] theorem answered_nodes (s : State) (f : Frame) (rest : List Frame) (r : Result) (d : Detail) : (s.answered f rest r d).nodes = s.nodes := rfl

@[simp] theorem answered_measure (s : State) (f : Frame) (rest : List Frame) (r : Result) (d : Detail) : (s.answered f rest r d).measure = s.measure := rfl

@[simp] theorem answered_traffic (s : State) (f : Frame) (rest : List Frame) (r : Result) (d : Detail) : (s.answered f rest r d).traffic = s.traffic := rfl

@[simp] theorem answered_incidents (s : State) (f : Frame) (rest : List Frame) (r : Result) (d : Detail) : (s.answered f rest r d).incidents = s.incidents := rfl

@[simp] theorem answered_sections (s : State) (f : Frame) (rest : List Frame) (r : Result) (d : Detail) : (s.answered f rest r d).sections = s.sections := rfl

@[simp] theorem answered_plan (s : State) (f : Frame) (rest : List Frame) (r : Result) (d : Detail) : (s.answered f rest r d).plan = s.plan := rfl

@[simp] theorem answered_rollout (s : State) (f : Frame) (rest : List Frame) (r : Result) (d : Detail) : (s.answered f rest r d).rollout = s.rollout := rfl

@[simp] theorem answered_banks (s : State) (f : Frame) (rest : List Frame) (r : Result) (d : Detail) : (s.answered f rest r d).banks = s.banks := rfl

@[simp] theorem answered_link_rate (s : State) (f : Frame) (rest : List Frame) (r : Result) (d : Detail) : (s.answered f rest r d).link.rate = s.link.rate := rfl

@[simp] theorem answered_link_framer (s : State) (f : Frame) (rest : List Frame) (r : Result) (d : Detail) : (s.answered f rest r d).link.framer = s.link.framer := rfl

@[simp] theorem answered_link_rxQueue (s : State) (f : Frame) (rest : List Frame) (r : Result) (d : Detail) : (s.answered f rest r d).link.rxQueue = rest := rfl

@[simp] theorem answered_link_replySlot (s : State) (f : Frame) (rest : List Frame) (r : Result) (d : Detail) : (s.answered f rest r d).link.replySlot = some ⟨f.typ ||| 0x80#8, f.tag, r, d⟩ := rfl

@[simp] theorem answered_link_notices (s : State) (f : Frame) (rest : List Frame) (r : Result) (d : Detail) : (s.answered f rest r d).link.notices = s.link.notices := rfl

@[simp] theorem answered_link_lost (s : State) (f : Frame) (rest : List Frame) (r : Result) (d : Detail) : (s.answered f rest r d).link.lost = s.link.lost := rfl

@[simp] theorem answered_link_tx (s : State) (f : Frame) (rest : List Frame) (r : Result) (d : Detail) : (s.answered f rest r d).link.tx = s.link.tx := rfl

@[simp] theorem answered_link_resetting (s : State) (f : Frame) (rest : List Frame) (r : Result) (d : Detail) : (s.answered f rest r d).link.resetting = s.link.resetting := rfl


/-! ### The free values -/

@[simp] theorem draw_fst (s : State) : s.draw.1 = s.freeCount := rfl

@[simp] theorem draw_snd_pending (s : State) : (s.draw.2).pending = s.pending := rfl

@[simp] theorem draw_snd_freeCount (s : State) : (s.draw.2).freeCount = s.freeCount + 1 := rfl

@[simp] theorem draw_snd_resetHigh (s : State) : (s.draw.2).resetHigh = s.resetHigh := rfl

@[simp] theorem draw_snd_clock (s : State) : (s.draw.2).clock = s.clock := rfl

@[simp] theorem draw_snd_link (s : State) : (s.draw.2).link = s.link := rfl

@[simp] theorem draw_snd_geo (s : State) : (s.draw.2).geo = s.geo := rfl

@[simp] theorem draw_snd_lineA (s : State) : (s.draw.2).lineA = s.lineA := rfl

@[simp] theorem draw_snd_lineB (s : State) : (s.draw.2).lineB = s.lineB := rfl

@[simp] theorem draw_snd_nodes (s : State) : (s.draw.2).nodes = s.nodes := rfl

@[simp] theorem draw_snd_measure (s : State) : (s.draw.2).measure = s.measure := rfl

@[simp] theorem draw_snd_traffic (s : State) : (s.draw.2).traffic = s.traffic := rfl

@[simp] theorem draw_snd_incidents (s : State) : (s.draw.2).incidents = s.incidents := rfl

@[simp] theorem draw_snd_sections (s : State) : (s.draw.2).sections = s.sections := rfl

@[simp] theorem draw_snd_plan (s : State) : (s.draw.2).plan = s.plan := rfl

@[simp] theorem draw_snd_rollout (s : State) : (s.draw.2).rollout = s.rollout := rfl

@[simp] theorem draw_snd_banks (s : State) : (s.draw.2).banks = s.banks := rfl

theorem insertAt_perm {α : Type} (x : α) (ys : List α) (n : Nat) : (insertAt x ys n).Perm (x :: ys) := by
  induction ys generalizing n with
  | nil => exact .refl _
  | cons y ys ih =>
    unfold insertAt
    split
    · exact .refl _
    · exact ((ih _).cons y).trans (.swap x y ys)

/-- A free order holds the same elements. -/
theorem reorder_perm {α : Type} (place : Nat → Nat) (xs : List α) : (reorder place xs).Perm xs := by
  induction xs with
  | nil => exact .refl _
  | cons x xs ih => exact (insertAt_perm ..).trans (ih.cons x)

theorem anyOrder_perm {α : Type} (xs : List α) (s : State) : (s.anyOrder xs).1.Perm xs := by
  unfold State.anyOrder
  split
  · exact .refl _
  · exact reorder_perm ..

/-- A free order changes no field but the counter of free values. -/
theorem anyOrder_state {α : Type} (xs : List α) (s : State) :
    (s.anyOrder xs).2 = { s with freeCount := (s.anyOrder xs).2.freeCount } := by
  unfold State.anyOrder
  split <;> rfl


/-! ### One record of a table -/

@[simp] theorem onRollout_pending (s : State) (g : Nat) (f : RolloutRec → RolloutRec) : (s.onRollout g f).pending = s.pending := rfl

@[simp] theorem onRollout_freeCount (s : State) (g : Nat) (f : RolloutRec → RolloutRec) : (s.onRollout g f).freeCount = s.freeCount := rfl

@[simp] theorem onRollout_resetHigh (s : State) (g : Nat) (f : RolloutRec → RolloutRec) : (s.onRollout g f).resetHigh = s.resetHigh := rfl

@[simp] theorem onRollout_clock (s : State) (g : Nat) (f : RolloutRec → RolloutRec) : (s.onRollout g f).clock = s.clock := rfl

@[simp] theorem onRollout_link (s : State) (g : Nat) (f : RolloutRec → RolloutRec) : (s.onRollout g f).link = s.link := rfl

@[simp] theorem onRollout_geo (s : State) (g : Nat) (f : RolloutRec → RolloutRec) : (s.onRollout g f).geo = s.geo := rfl

@[simp] theorem onRollout_lineA (s : State) (g : Nat) (f : RolloutRec → RolloutRec) : (s.onRollout g f).lineA = s.lineA := rfl

@[simp] theorem onRollout_lineB (s : State) (g : Nat) (f : RolloutRec → RolloutRec) : (s.onRollout g f).lineB = s.lineB := rfl

@[simp] theorem onRollout_nodes (s : State) (g : Nat) (f : RolloutRec → RolloutRec) : (s.onRollout g f).nodes = s.nodes := rfl

@[simp] theorem onRollout_measure (s : State) (g : Nat) (f : RolloutRec → RolloutRec) : (s.onRollout g f).measure = s.measure := rfl

@[simp] theorem onRollout_traffic (s : State) (g : Nat) (f : RolloutRec → RolloutRec) : (s.onRollout g f).traffic = s.traffic := rfl

@[simp] theorem onRollout_incidents (s : State) (g : Nat) (f : RolloutRec → RolloutRec) : (s.onRollout g f).incidents = s.incidents := rfl

@[simp] theorem onRollout_sections (s : State) (g : Nat) (f : RolloutRec → RolloutRec) : (s.onRollout g f).sections = s.sections := rfl

@[simp] theorem onRollout_plan (s : State) (g : Nat) (f : RolloutRec → RolloutRec) : (s.onRollout g f).plan = s.plan := rfl

@[simp] theorem onRollout_rollout (s : State) (g : Nat) (f : RolloutRec → RolloutRec) : (s.onRollout g f).rollout = s.rollout.adjust g f := rfl

@[simp] theorem onRollout_banks (s : State) (g : Nat) (f : RolloutRec → RolloutRec) : (s.onRollout g f).banks = s.banks := rfl

@[simp] theorem onNode_pending (s : State) (g : Nat) (f : NodeRec → NodeRec) : (s.onNode g f).pending = s.pending := rfl

@[simp] theorem onNode_freeCount (s : State) (g : Nat) (f : NodeRec → NodeRec) : (s.onNode g f).freeCount = s.freeCount := rfl

@[simp] theorem onNode_resetHigh (s : State) (g : Nat) (f : NodeRec → NodeRec) : (s.onNode g f).resetHigh = s.resetHigh := rfl

@[simp] theorem onNode_clock (s : State) (g : Nat) (f : NodeRec → NodeRec) : (s.onNode g f).clock = s.clock := rfl

@[simp] theorem onNode_link (s : State) (g : Nat) (f : NodeRec → NodeRec) : (s.onNode g f).link = s.link := rfl

@[simp] theorem onNode_geo (s : State) (g : Nat) (f : NodeRec → NodeRec) : (s.onNode g f).geo = s.geo := rfl

@[simp] theorem onNode_lineA (s : State) (g : Nat) (f : NodeRec → NodeRec) : (s.onNode g f).lineA = s.lineA := rfl

@[simp] theorem onNode_lineB (s : State) (g : Nat) (f : NodeRec → NodeRec) : (s.onNode g f).lineB = s.lineB := rfl

@[simp] theorem onNode_nodes (s : State) (g : Nat) (f : NodeRec → NodeRec) : (s.onNode g f).nodes = s.nodes.adjust g f := rfl

@[simp] theorem onNode_measure (s : State) (g : Nat) (f : NodeRec → NodeRec) : (s.onNode g f).measure = s.measure := rfl

@[simp] theorem onNode_traffic (s : State) (g : Nat) (f : NodeRec → NodeRec) : (s.onNode g f).traffic = s.traffic := rfl

@[simp] theorem onNode_incidents (s : State) (g : Nat) (f : NodeRec → NodeRec) : (s.onNode g f).incidents = s.incidents := rfl

@[simp] theorem onNode_sections (s : State) (g : Nat) (f : NodeRec → NodeRec) : (s.onNode g f).sections = s.sections := rfl

@[simp] theorem onNode_plan (s : State) (g : Nat) (f : NodeRec → NodeRec) : (s.onNode g f).plan = s.plan := rfl

@[simp] theorem onNode_rollout (s : State) (g : Nat) (f : NodeRec → NodeRec) : (s.onNode g f).rollout = s.rollout := rfl

@[simp] theorem onNode_banks (s : State) (g : Nat) (f : NodeRec → NodeRec) : (s.onNode g f).banks = s.banks := rfl

@[simp] theorem onStation_pending (s : State) (st : Nat) (f : StationEntry → StationEntry) : (s.onStation st f).pending = s.pending := rfl

@[simp] theorem onStation_freeCount (s : State) (st : Nat) (f : StationEntry → StationEntry) : (s.onStation st f).freeCount = s.freeCount := rfl

@[simp] theorem onStation_resetHigh (s : State) (st : Nat) (f : StationEntry → StationEntry) : (s.onStation st f).resetHigh = s.resetHigh := rfl

@[simp] theorem onStation_clock (s : State) (st : Nat) (f : StationEntry → StationEntry) : (s.onStation st f).clock = s.clock := rfl

@[simp] theorem onStation_link (s : State) (st : Nat) (f : StationEntry → StationEntry) : (s.onStation st f).link = s.link := rfl

@[simp] theorem onStation_geo (s : State) (st : Nat) (f : StationEntry → StationEntry) : (s.onStation st f).geo = s.geo := rfl

@[simp] theorem onStation_lineA (s : State) (st : Nat) (f : StationEntry → StationEntry) : (s.onStation st f).lineA = s.lineA := rfl

@[simp] theorem onStation_lineB (s : State) (st : Nat) (f : StationEntry → StationEntry) : (s.onStation st f).lineB = s.lineB := rfl

@[simp] theorem onStation_nodes (s : State) (st : Nat) (f : StationEntry → StationEntry) : (s.onStation st f).nodes = s.nodes := rfl

@[simp] theorem onStation_traffic (s : State) (st : Nat) (f : StationEntry → StationEntry) : (s.onStation st f).traffic = s.traffic := rfl

@[simp] theorem onStation_incidents (s : State) (st : Nat) (f : StationEntry → StationEntry) : (s.onStation st f).incidents = s.incidents := rfl

@[simp] theorem onStation_sections (s : State) (st : Nat) (f : StationEntry → StationEntry) : (s.onStation st f).sections = s.sections := rfl

@[simp] theorem onStation_plan (s : State) (st : Nat) (f : StationEntry → StationEntry) : (s.onStation st f).plan = s.plan := rfl

@[simp] theorem onStation_rollout (s : State) (st : Nat) (f : StationEntry → StationEntry) : (s.onStation st f).rollout = s.rollout := rfl

@[simp] theorem onStation_banks (s : State) (st : Nat) (f : StationEntry → StationEntry) : (s.onStation st f).banks = s.banks := rfl

@[simp] theorem onStation_timer (s : State) (st : Nat) (f : StationEntry → StationEntry) : (s.onStation st f).measure.timer = s.measure.timer := rfl

@[simp] theorem onStation_stations (s : State) (st : Nat) (f : StationEntry → StationEntry) : (s.onStation st f).measure.stations = s.measure.stations.adjust st f := rfl

@[simp] theorem setService_pending (s : State) (g : Nat) (v : Service) : (s.setService g v).pending = s.pending := rfl

@[simp] theorem setService_freeCount (s : State) (g : Nat) (v : Service) : (s.setService g v).freeCount = s.freeCount := rfl

@[simp] theorem setService_resetHigh (s : State) (g : Nat) (v : Service) : (s.setService g v).resetHigh = s.resetHigh := rfl

@[simp] theorem setService_clock (s : State) (g : Nat) (v : Service) : (s.setService g v).clock = s.clock := rfl

@[simp] theorem setService_link (s : State) (g : Nat) (v : Service) : (s.setService g v).link = s.link := rfl

@[simp] theorem setService_lineA (s : State) (g : Nat) (v : Service) : (s.setService g v).lineA = s.lineA := rfl

@[simp] theorem setService_lineB (s : State) (g : Nat) (v : Service) : (s.setService g v).lineB = s.lineB := rfl

@[simp] theorem setService_nodes (s : State) (g : Nat) (v : Service) : (s.setService g v).nodes = s.nodes := rfl

@[simp] theorem setService_measure (s : State) (g : Nat) (v : Service) : (s.setService g v).measure = s.measure := rfl

@[simp] theorem setService_traffic (s : State) (g : Nat) (v : Service) : (s.setService g v).traffic = s.traffic := rfl

@[simp] theorem setService_incidents (s : State) (g : Nat) (v : Service) : (s.setService g v).incidents = s.incidents := rfl

@[simp] theorem setService_sections (s : State) (g : Nat) (v : Service) : (s.setService g v).sections = s.sections := rfl

@[simp] theorem setService_plan (s : State) (g : Nat) (v : Service) : (s.setService g v).plan = s.plan := rfl

@[simp] theorem setService_rollout (s : State) (g : Nat) (v : Service) : (s.setService g v).rollout = s.rollout := rfl

@[simp] theorem setService_banks (s : State) (g : Nat) (v : Service) : (s.setService g v).banks = s.banks := rfl

@[simp] theorem setService_geo_mode (s : State) (g : Nat) (v : Service) : (s.setService g v).geo.mode = s.geo.mode := rfl

@[simp] theorem setService_geo_stations (s : State) (g : Nat) (v : Service) : (s.setService g v).geo.stations = s.geo.stations := rfl

@[simp] theorem setService_geo_params (s : State) (g : Nat) (v : Service) : (s.setService g v).geo.params = s.geo.params := rfl

@[simp] theorem setService_geo_waiting (s : State) (g : Nat) (v : Service) : (s.setService g v).geo.waiting = s.geo.waiting := rfl

@[simp] theorem setService_geo_home (s : State) (g : Nat) (v : Service) : (s.setService g v).geo.home = s.geo.home := rfl

@[simp] theorem setService_geo_contin (s : State) (g : Nat) (v : Service) : (s.setService g v).geo.contin = s.geo.contin := rfl

@[simp] theorem setService_gantries (s : State) (g : Nat) (v : Service) : (s.setService g v).geo.gantries = s.geo.gantries.adjust g fun r => { r with service := v } := rfl


/-! ### Reset and waiting values -/

@[simp] theorem resetWith_pending (s : State) (rate : BitVec 2) (high : Bool) : (s.resetWith rate high).pending = s.pending := rfl

@[simp] theorem resetWith_freeCount (s : State) (rate : BitVec 2) (high : Bool) : (s.resetWith rate high).freeCount = s.freeCount := rfl

@[simp] theorem resetWith_resetHigh (s : State) (rate : BitVec 2) (high : Bool) : (s.resetWith rate high).resetHigh = high := rfl

@[simp] theorem resetWith_banks (s : State) (rate : BitVec 2) (high : Bool) : (s.resetWith rate high).banks = State.reset.banks := rfl

@[simp] theorem resetWith_geo (s : State) (rate : BitVec 2) (high : Bool) : (s.resetWith rate high).geo = State.reset.geo := rfl

@[simp] theorem resetWith_clock (s : State) (rate : BitVec 2) (high : Bool) : (s.resetWith rate high).clock = 0 := rfl

@[simp] theorem resetWith_plan (s : State) (rate : BitVec 2) (high : Bool) : (s.resetWith rate high).plan = State.reset.plan := rfl

@[simp] theorem resetWith_nodes (s : State) (rate : BitVec 2) (high : Bool) : (s.resetWith rate high).nodes = [] := rfl

@[simp] theorem resetWith_rollout (s : State) (rate : BitVec 2) (high : Bool) : (s.resetWith rate high).rollout = [] := rfl

@[simp] theorem resetWith_traffic (s : State) (rate : BitVec 2) (high : Bool) : (s.resetWith rate high).traffic = [] := rfl

@[simp] theorem resetWith_incidents (s : State) (rate : BitVec 2) (high : Bool) : (s.resetWith rate high).incidents = [] := rfl

@[simp] theorem resetWith_lineA (s : State) (rate : BitVec 2) (high : Bool) : (s.resetWith rate high).lineA = LineCtl.idle := rfl

@[simp] theorem resetWith_lineB (s : State) (rate : BitVec 2) (high : Bool) : (s.resetWith rate high).lineB = LineCtl.idle := rfl

@[simp] theorem resetWith_measure (s : State) (rate : BitVec 2) (high : Bool) : (s.resetWith rate high).measure = ⟨none, []⟩ := rfl

@[simp] theorem resetWith_sections (s : State) (rate : BitVec 2) (high : Bool) : (s.resetWith rate high).sections = Shoulder.allClosed := rfl

@[simp] theorem resetWith_link_rate (s : State) (rate : BitVec 2) (high : Bool) : (s.resetWith rate high).link.rate = rate := rfl

@[simp] theorem resetWith_link_framer (s : State) (rate : BitVec 2) (high : Bool) : (s.resetWith rate high).link.framer = State.reset.link.framer := rfl

@[simp] theorem resetWith_link_rxQueue (s : State) (rate : BitVec 2) (high : Bool) : (s.resetWith rate high).link.rxQueue = State.reset.link.rxQueue := rfl

@[simp] theorem resetWith_link_replySlot (s : State) (rate : BitVec 2) (high : Bool) : (s.resetWith rate high).link.replySlot = State.reset.link.replySlot := rfl

@[simp] theorem resetWith_link_notices (s : State) (rate : BitVec 2) (high : Bool) : (s.resetWith rate high).link.notices = State.reset.link.notices := rfl

@[simp] theorem resetWith_link_lost (s : State) (rate : BitVec 2) (high : Bool) : (s.resetWith rate high).link.lost = State.reset.link.lost := rfl

@[simp] theorem resetWith_link_tx (s : State) (rate : BitVec 2) (high : Bool) : (s.resetWith rate high).link.tx = State.reset.link.tx := rfl

@[simp] theorem resetWith_link_resetting (s : State) (rate : BitVec 2) (high : Bool) : (s.resetWith rate high).link.resetting = State.reset.link.resetting := rfl

@[simp] theorem applyWaiting_pending (s : State) : (s.applyWaiting).pending = s.pending := rfl

@[simp] theorem applyWaiting_freeCount (s : State) : (s.applyWaiting).freeCount = s.freeCount := rfl

@[simp] theorem applyWaiting_resetHigh (s : State) : (s.applyWaiting).resetHigh = s.resetHigh := rfl

@[simp] theorem applyWaiting_clock (s : State) : (s.applyWaiting).clock = s.clock := rfl

@[simp] theorem applyWaiting_link (s : State) : (s.applyWaiting).link = s.link := rfl

@[simp] theorem applyWaiting_lineA (s : State) : (s.applyWaiting).lineA = s.lineA := rfl

@[simp] theorem applyWaiting_lineB (s : State) : (s.applyWaiting).lineB = s.lineB := rfl

@[simp] theorem applyWaiting_nodes (s : State) : (s.applyWaiting).nodes = s.nodes := rfl

@[simp] theorem applyWaiting_measure (s : State) : (s.applyWaiting).measure = s.measure := rfl

@[simp] theorem applyWaiting_traffic (s : State) : (s.applyWaiting).traffic = s.traffic := rfl

@[simp] theorem applyWaiting_incidents (s : State) : (s.applyWaiting).incidents = s.incidents := rfl

@[simp] theorem applyWaiting_sections (s : State) : (s.applyWaiting).sections = s.sections := rfl

@[simp] theorem applyWaiting_plan (s : State) : (s.applyWaiting).plan = s.plan := rfl

@[simp] theorem applyWaiting_rollout (s : State) : (s.applyWaiting).rollout = s.rollout := rfl

@[simp] theorem applyWaiting_banks (s : State) : (s.applyWaiting).banks = s.banks := rfl

@[simp] theorem applyWaiting_geo_mode (s : State) : s.applyWaiting.geo.mode = s.geo.mode := rfl

@[simp] theorem applyWaiting_geo_gantries (s : State) : s.applyWaiting.geo.gantries = s.geo.gantries := rfl

@[simp] theorem applyWaiting_geo_stations (s : State) : s.applyWaiting.geo.stations = s.geo.stations := rfl

@[simp] theorem applyWaiting_geo_home (s : State) : s.applyWaiting.geo.home = s.geo.home := rfl

@[simp] theorem applyWaiting_geo_contin (s : State) : s.applyWaiting.geo.contin = s.geo.contin := rfl


/-! ### One line controller -/

@[simp] theorem ended_engine (c : LineCtl) (e : EngineState) : (c.ended e).engine = e := rfl

@[simp] theorem ended_flight (c : LineCtl) (e : EngineState) : (c.ended e).flight = none := rfl

@[simp] theorem ended_queues (c : LineCtl) (e : EngineState) : (c.ended e).queues = c.queues := rfl

@[simp] theorem ended_held (c : LineCtl) (e : EngineState) : (c.ended e).held = c.held := rfl

@[simp] theorem ended_polls (c : LineCtl) (e : EngineState) : (c.ended e).polls = c.polls := rfl

@[simp] theorem ended_level (c : LineCtl) (e : EngineState) : (c.ended e).level = c.level := rfl

@[simp] theorem ended_lumenTimer (c : LineCtl) (e : EngineState) : (c.ended e).lumenTimer = c.lumenTimer := rfl

@[simp] theorem deposit_engine (c : LineCtl) (k : Class) (e : Entry) : (c.deposit k e).engine = c.engine := rfl

@[simp] theorem deposit_flight (c : LineCtl) (k : Class) (e : Entry) : (c.deposit k e).flight = c.flight := rfl

@[simp] theorem deposit_held (c : LineCtl) (k : Class) (e : Entry) : (c.deposit k e).held = c.held := rfl

@[simp] theorem deposit_polls (c : LineCtl) (k : Class) (e : Entry) : (c.deposit k e).polls = c.polls := rfl

@[simp] theorem deposit_level (c : LineCtl) (k : Class) (e : Entry) : (c.deposit k e).level = c.level := rfl

@[simp] theorem deposit_lumenTimer (c : LineCtl) (k : Class) (e : Entry) : (c.deposit k e).lumenTimer = c.lumenTimer := rfl

@[simp] theorem deposit_look_self (c : LineCtl) (k : Class) (e : Entry) : (c.deposit k e).queues.look k = c.queues.look k ++ [e] := by cases k <;> rfl

@[simp] theorem depositHead_engine (c : LineCtl) (k : Class) (e : Entry) : (c.depositHead k e).engine = c.engine := rfl

@[simp] theorem depositHead_flight (c : LineCtl) (k : Class) (e : Entry) : (c.depositHead k e).flight = c.flight := rfl

@[simp] theorem depositHead_held (c : LineCtl) (k : Class) (e : Entry) : (c.depositHead k e).held = c.held := rfl

@[simp] theorem depositHead_polls (c : LineCtl) (k : Class) (e : Entry) : (c.depositHead k e).polls = c.polls := rfl

@[simp] theorem depositHead_level (c : LineCtl) (k : Class) (e : Entry) : (c.depositHead k e).level = c.level := rfl

@[simp] theorem depositHead_lumenTimer (c : LineCtl) (k : Class) (e : Entry) : (c.depositHead k e).lumenTimer = c.lumenTimer := rfl

@[simp] theorem depositHead_look_self (c : LineCtl) (k : Class) (e : Entry) : (c.depositHead k e).queues.look k = e :: c.queues.look k := by cases k <;> rfl

@[simp] theorem keepIn_engine (c : LineCtl) (k : Class) (p : Entry → Bool) : (c.keepIn k p).engine = c.engine := rfl

@[simp] theorem keepIn_flight (c : LineCtl) (k : Class) (p : Entry → Bool) : (c.keepIn k p).flight = c.flight := rfl

@[simp] theorem keepIn_held (c : LineCtl) (k : Class) (p : Entry → Bool) : (c.keepIn k p).held = c.held := rfl

@[simp] theorem keepIn_polls (c : LineCtl) (k : Class) (p : Entry → Bool) : (c.keepIn k p).polls = c.polls := rfl

@[simp] theorem keepIn_level (c : LineCtl) (k : Class) (p : Entry → Bool) : (c.keepIn k p).level = c.level := rfl

@[simp] theorem keepIn_lumenTimer (c : LineCtl) (k : Class) (p : Entry → Bool) : (c.keepIn k p).lumenTimer = c.lumenTimer := rfl

@[simp] theorem look_put_class_self (q : Queues) (k : Class) (l : List Entry) : (q.put k l).look k = l := by cases k <;> rfl

theorem look_put_class_other (q : Queues) {k m : Class} (l : List Entry) (h : m ≠ k) : (q.put k l).look m = q.look m := by
  cases k <;> cases m <;> first | rfl | exact absurd rfl h


/-! ### Banks -/

@[simp] theorem banks_look_put_self (b : Banks) (id : BankId) (v : Bank) : (b.put id v).look id = v := by cases id <;> rfl

@[simp] theorem banks_look_put_other (b : Banks) {id m : BankId} (v : Bank) (h : m ≠ id) : (b.put id v).look m = b.look m := by
  cases id <;> cases m <;> first | rfl | exact absurd rfl h

end Sys2Proof.Machine
end

