-- ==== Sys2Proof/Laws/Inner.lean ====
section
/-! SUPPORT. What the acts of the blocks inside one step keep, said once: the relation `Inner` and one lemma for
each act. A proof about a row cites the lemma of the act it calls and never unfolds it. -/

namespace Sys2Proof.Machine

/-- What an act keeps of a line controller: its level, its engine, and whether a telegram is in flight. -/
structure LineKept (c d : LineCtl) : Prop where
  level : d.level = c.level
  engine : d.engine = c.engine
  flight : d.flight = none ↔ c.flight = none

theorem LineKept.refl (c : LineCtl) : LineKept c c := ⟨rfl, rfl, Iff.rfl⟩

theorem LineKept.trans {c d e : LineCtl} (h : LineKept c d) (k : LineKept d e) : LineKept c e :=
  ⟨k.level.trans h.level, k.engine.trans h.engine, k.flight.trans h.flight⟩

/-- An act that leaves level, engine and flight alone keeps them. -/
theorem LineKept.of_eq {c d : LineCtl} (h1 : d.level = c.level) (h2 : d.engine = c.engine) (h3 : d.flight = c.flight) :
    LineKept c d := ⟨h1, h2, by rw [h3]⟩

/-- A kept line controller keeps its stored form. -/
theorem LineKept.wf {c d : LineCtl} (h : LineKept c d) (k : c.wf) : d.wf := by
  unfold LineCtl.wf at k ⊢
  rw [h.engine, Ne, h.flight]
  exact k

/-- What every act inside a step keeps: the queue of commands, the pin, the clock, the mode, the request side of the
link, the host demands, the sections; the notice queue stays within its bound, a FAULT record stays in its bank, the
stored forms stay. -/
structure Inner (s t : State) : Prop where
  pending : t.pending = s.pending
  resetHigh : t.resetHigh = s.resetHigh
  clock : t.clock = s.clock
  mode : t.geo.mode = s.geo.mode
  rate : t.link.rate = s.link.rate
  framer : t.link.framer = s.link.framer
  rxQueue : t.link.rxQueue = s.link.rxQueue
  replySlot : t.link.replySlot = s.link.replySlot
  tx : t.link.tx = s.link.tx
  resetting : t.link.resetting = s.link.resetting
  demands : t.plan.demands = s.plan.demands
  sections : t.sections = s.sections
  notices : s.link.notices.length ≤ 32 → t.link.notices.length ≤ 32
  held : ∀ id e, (s.banks.look id).held = some e → e.severity = .fault → (t.banks.look id).held = some e
  banks : (∀ id, (s.banks.look id).wf) → ∀ id, (t.banks.look id).wf
  line : ∀ l, LineKept (s.line l) (t.line l)
  incidents : Table.slotted 16 s.incidents → s.supervisorCount ≤ 12 →
    Table.slotted 16 t.incidents ∧ t.supervisorCount ≤ 12
  tables : s.tablesFit → t.tablesFit

theorem Inner.refl (s : State) : Inner s s :=
  ⟨rfl, rfl, rfl, rfl, rfl, rfl, rfl, rfl, rfl, rfl, rfl, rfl, id, fun _ _ h _ => h, id, fun _ => .refl _,
    fun h k => ⟨h, k⟩, id⟩

theorem Inner.trans {s t u : State} (h : Inner s t) (k : Inner t u) : Inner s u where
  pending := k.pending.trans h.pending
  resetHigh := k.resetHigh.trans h.resetHigh
  clock := k.clock.trans h.clock
  mode := k.mode.trans h.mode
  rate := k.rate.trans h.rate
  framer := k.framer.trans h.framer
  rxQueue := k.rxQueue.trans h.rxQueue
  replySlot := k.replySlot.trans h.replySlot
  tx := k.tx.trans h.tx
  resetting := k.resetting.trans h.resetting
  demands := k.demands.trans h.demands
  sections := k.sections.trans h.sections
  notices := fun x => k.notices (h.notices x)
  held := fun id e x y => k.held id e (h.held id e x y) y
  banks := fun x => k.banks (h.banks x)
  line := fun l => (h.line l).trans (k.line l)
  incidents := fun x y => k.incidents (h.incidents x y).1 (h.incidents x y).2
  tables := fun x => k.tables (h.tables x)

theorem Inner.ite {s t u : State} {p : Prop} [Decidable p] (h : Inner s t) (k : Inner s u) :
    Inner s (if p then t else u) := by
  split <;> assumption

/-- Closes the fields an act leaves alone by computation. -/
theorem Inner.of_same {s t : State} (h1 : t.pending = s.pending) (h2 : t.resetHigh = s.resetHigh)
    (h3 : t.clock = s.clock) (h4 : t.geo.mode = s.geo.mode) (h5 : t.link = s.link) (h6 : t.plan.demands = s.plan.demands)
    (h7 : t.sections = s.sections) (h8 : t.banks = s.banks) (h9 : ∀ l, LineKept (s.line l) (t.line l))
    (h10 : t.incidents = s.incidents) (h11 : s.tablesFit → t.tablesFit) : Inner s t where
  pending := h1
  resetHigh := h2
  clock := h3
  mode := h4
  rate := by rw [h5]
  framer := by rw [h5]
  rxQueue := by rw [h5]
  replySlot := by rw [h5]
  tx := by rw [h5]
  resetting := by rw [h5]
  demands := h6
  sections := h7
  notices := by rw [h5]; exact id
  held := by rw [h8]; exact fun _ _ h _ => h
  banks := by rw [h8]; exact id
  line := h9
  incidents := by
    intro a b
    rw [State.supervisorCount, h10]
    exact ⟨a, b⟩
  tables := h11

/-! ### Banks, notices, records -/

/-- An error that arrives leaves a held FAULT record where it is. -/
theorem take_held {b : Bank} {e x : ErrorRec} (h : b.held = some x) (hx : x.severity = .fault) :
    (b.take e).1.held = some x := by simp [Bank.take, h, hx]

/-- A bank that an error has reached holds one. -/
theorem take_ne_none (b : Bank) (e : ErrorRec) : (b.take e).1.held ≠ none := by
  unfold Bank.take
  split
  · simp
  · split <;> simp

theorem take_wf (b : Bank) (e : ErrorRec) : (b.take e).1.wf := by
  intro _; exact take_ne_none b e

theorem inner_raise (b : NoticeBody) (s : State) : Inner s (s.raise b) := by
  unfold State.raise
  split
  · rename_i h
    exact { Inner.refl s with
      notices := fun _ => by simpa [noticeCapacity] using h
      held := fun _ _ h _ => h
      line := fun l => by cases l <;> exact .refl _
      incidents := fun a b => ⟨a, b⟩ }
  · split
    · exact .refl s
    · exact { Inner.refl s with
        notices := fun h => h
        held := fun id e h hx => by
          cases id <;> first | exact h | exact take_held h hx
        banks := fun h id => by
          cases id <;> first | exact h .lineA | exact h .lineB | exact h .measure | exact h .plan | exact take_wf _ _
        line := fun l => by cases l <;> exact .refl _
        incidents := fun a b => ⟨a, b⟩ }

theorem inner_record (id : BankId) (c : ErrorCode) (v : Severity) (g st : Option Nat) (s : State) :
    Inner s (s.record id c v g st) := by
  refine Inner.trans ?_ (inner_raise _ _)
  exact { Inner.refl s with
    notices := fun h => h
    held := fun m e h hx => by
      by_cases hm : m = id
      · subst hm; simpa using take_held h hx
      · simpa [hm] using h
    banks := fun h m => by
      by_cases hm : m = id
      · subst hm; simpa using take_wf _ _
      · simpa [hm] using h m
    line := fun l => by cases l <;> exact .refl _
    incidents := fun a b => ⟨a, b⟩ }

/-- What a raised notice can change: the notice queue, the lost flag, the LINK bank. -/
theorem raise_frame (b : NoticeBody) (s : State) :
    s.raise b = { s with link := { s.link with notices := (s.raise b).link.notices, lost := (s.raise b).link.lost },
                         banks := { s.banks with link := (s.raise b).banks.link } } := by
  unfold State.raise
  split
  · rfl
  · split <;> rfl

/-- A held error stays held when a notice is raised. -/
theorem raise_held (b : NoticeBody) (s : State) (id : BankId) (h : (s.banks.look id).held ≠ none) :
    ((s.raise b).banks.look id).held ≠ none := by
  unfold State.raise
  split
  · exact h
  · split
    · exact h
    · cases id <;> first | exact h | exact take_ne_none _ _

/-- What a record can change: the notice queue, the lost flag and the banks. -/
theorem record_frame (id : BankId) (c : ErrorCode) (v : Severity) (g st : Option Nat) (s : State) :
    s.record id c v g st =
      { s with link := { s.link with notices := (s.record id c v g st).link.notices,
                                     lost := (s.record id c v g st).link.lost },
               banks := (s.record id c v g st).banks } := by
  unfold State.record
  simp only
  rw [raise_frame]

/-- The bank that an error was recorded in holds one. -/
theorem record_held (id : BankId) (c : ErrorCode) (v : Severity) (g st : Option Nat) (s : State) :
    ((s.record id c v g st).banks.look id).held ≠ none := by
  refine raise_held _ _ id ?_
  simp [take_ne_none]

/-- An error held before a record is held after it. -/
theorem record_keeps_held (id : BankId) (c : ErrorCode) (v : Severity) (g st : Option Nat) (s : State) (m : BankId)
    (h : (s.banks.look m).held ≠ none) : ((s.record id c v g st).banks.look m).held ≠ none := by
  refine raise_held _ _ m ?_
  by_cases hm : m = id
  · subst hm; simp [take_ne_none]
  · simpa [hm] using h

theorem inner_measureError (c : ErrorCode) (v : Severity) (st : Nat) (s : State) : Inner s (s.measureError c v st) :=
  inner_record ..

theorem inner_linkError (c : ErrorCode) (s : State) : Inner s (s.linkError c) := inner_record ..

theorem inner_trigger (s : State) : Inner s s.trigger := by
  unfold State.trigger
  split
  · exact .refl s
  · split
    · refine .of_same rfl rfl rfl rfl rfl rfl rfl rfl (fun l => by cases l <;> exact .refl _) rfl ?_
      rintro ⟨a, b, c, d, e, f, g, i, j, _⟩
      exact ⟨a, b, c, d, e, f, g, i, j, by rintro n ⟨⟩; exact a⟩
    · rename_i n h
      refine .of_same rfl rfl rfl rfl rfl rfl rfl rfl (fun l => by cases l <;> exact .refl _) rfl ?_
      rintro ⟨a, b, c, d, e, f, g, i, j, k⟩
      exact ⟨a, b, c, d, e, f, g, i, j, fun m q => k m q⟩

/-- What a trigger can change: whether a pass runs and the again-flag. -/
theorem trigger_frame (s : State) :
    s.trigger = { s with plan := { s.plan with running := s.trigger.plan.running, again := s.trigger.plan.again } } := by
  unfold State.trigger
  split
  · rfl
  · split
    · rename_i h; simp
    · rename_i h; simp

theorem inner_draw (s : State) : Inner s s.draw.2 :=
  .of_same rfl rfl rfl rfl rfl rfl rfl rfl (fun l => by cases l <;> exact .refl _) rfl id

theorem inner_anyOrder {α : Type} (xs : List α) (s : State) : Inner s (s.anyOrder xs).2 := by
  unfold State.anyOrder
  split
  · exact .refl s
  · exact inner_draw s

/-! ### One record -/

theorem inner_onRollout (g : Nat) (f : RolloutRec → RolloutRec) (s : State) : Inner s (s.onRollout g f) :=
  .of_same rfl rfl rfl rfl rfl rfl rfl rfl (fun l => by cases l <;> exact .refl _) rfl
    fun ⟨a, b, c, d, e, f, g⟩ => ⟨a, b, c, d, e, by simpa using f, g⟩

theorem inner_onNode (g : Nat) (f : NodeRec → NodeRec) (s : State) : Inner s (s.onNode g f) :=
  .of_same rfl rfl rfl rfl rfl rfl rfl rfl (fun l => by cases l <;> exact .refl _) rfl
    fun ⟨a, b, c, d, e, f, g⟩ => ⟨a, b, by simpa using c, d, e, f, g⟩

theorem inner_putNode (g : Nat) (n : NodeRec) (s : State) : Inner s { s with nodes := s.nodes.put g n } :=
  .of_same rfl rfl rfl rfl rfl rfl rfl rfl (fun l => by cases l <;> exact .refl _) rfl
    fun ⟨a, b, c, d, e, f, g⟩ => ⟨a, b, rising_put c _ _, d, e, f, g⟩

theorem inner_onStation (st : Nat) (f : StationEntry → StationEntry) (s : State) : Inner s (s.onStation st f) :=
  .of_same rfl rfl rfl rfl rfl rfl rfl rfl (fun l => by cases l <;> exact .refl _) rfl
    fun ⟨a, b, c, d, e, f, g⟩ => ⟨a, b, c, by simpa using d, e, f, g⟩

theorem inner_putTraffic (st : Nat) (x : StationState) (s : State) : Inner s { s with traffic := s.traffic.put st x } :=
  .of_same rfl rfl rfl rfl rfl rfl rfl rfl (fun l => by cases l <;> exact .refl _) rfl
    fun ⟨a, b, c, d, e, f, g⟩ => ⟨a, b, c, d, rising_put e _ _, f, g⟩

theorem inner_setService (g : Nat) (v : Service) (s : State) : Inner s (s.setService g v) :=
  .of_same rfl rfl rfl rfl rfl rfl rfl rfl (fun l => by cases l <;> exact .refl _) rfl
    fun ⟨a, b, c, d, e, f, g, i, j⟩ =>
      ⟨by simpa using a, b, c, d, e, f, g, by simpa only [State.setService, keys_adjust] using i, j⟩

theorem inner_onLine (l : Line) (f : LineCtl → LineCtl) (s : State) (h : ∀ c, LineKept c (f c)) :
    Inner s (s.onLine l f) := by
  refine .of_same (by simp) (by simp) (by simp) (by simp) (by simp) (by simp) (by simp) (by simp) ?_ (by simp) ?_
  · intro m
    by_cases e : m = l
    · subst e; simpa using h _
    · rw [line_onLine_other s f e]; exact .refl _
  · simp [State.tablesFit]

theorem inner_onLineOf (g : Nat) (f : LineCtl → LineCtl) (s : State) (h : ∀ c, LineKept c (f c)) :
    Inner s (s.onLineOf g f) := by
  unfold State.onLineOf
  split
  · exact .refl s
  · exact inner_onLine _ _ _ h

/-! ### Acts on a line controller -/

theorem kept_deposit (k : Class) (e : Entry) (c : LineCtl) : LineKept c (c.deposit k e) := .of_eq rfl rfl rfl
theorem kept_depositHead (k : Class) (e : Entry) (c : LineCtl) : LineKept c (c.depositHead k e) := .of_eq rfl rfl rfl
theorem kept_removeShow (g : Nat) (c : LineCtl) : LineKept c (c.removeShow g) := .of_eq rfl rfl rfl
theorem kept_withdrawConfirm (g : Nat) (c : LineCtl) : LineKept c (c.withdrawConfirm g) := .of_eq rfl rfl rfl
theorem kept_stopPolls (g : Nat) (c : LineCtl) : LineKept c (c.stopPolls g) := .of_eq rfl rfl rfl
theorem kept_startPolls (p g : Nat) (c : LineCtl) : LineKept c (c.startPolls p g) := .of_eq rfl rfl rfl
theorem kept_dropNode (g : Nat) (c : LineCtl) : LineKept c (c.dropNode g) := ⟨rfl, rfl, by simp [LineCtl.dropNode]⟩

theorem kept_depositConfirm (settle g : Nat) (c : LineCtl) : LineKept c (c.depositConfirm settle g) := by
  unfold LineCtl.depositConfirm
  split
  · exact .refl c
  · exact .of_eq rfl rfl rfl

theorem kept_queueLumen (n : Nat) (c : LineCtl) : LineKept c (c.queueLumen n) := by
  unfold LineCtl.queueLumen
  split <;> exact .of_eq rfl rfl rfl

theorem kept_confirmDue (g : Nat) (c : LineCtl) : LineKept c (c.confirmDue g) := by
  unfold LineCtl.confirmDue
  split
  · exact .of_eq rfl rfl rfl
  · exact .refl c

theorem kept_repeatLumen (c : LineCtl) : LineKept c c.repeatLumen := by
  unfold LineCtl.repeatLumen
  split
  · exact .refl c
  · split
    · exact (kept_queueLumen c.level c).trans (.of_eq rfl rfl rfl)
    · exact .refl c

/-! ### The rollout unit -/

theorem inner_evalGate (g : Nat) (s : State) : Inner s (s.evalGate g) := by
  unfold State.evalGate
  split
  · exact .refl s
  · split
    · exact .refl s
    · exact inner_onRollout ..

theorem inner_gatesBeside (g : Nat) (s : State) : Inner s (s.gatesBeside g) :=
  (inner_evalGate ..).trans (inner_evalGate ..)

theorem inner_evalGates (gs : List Nat) (s : State) : Inner s (evalGates gs s) := by
  induction gs generalizing s with
  | nil => exact .refl s
  | cons g gs ih => exact (inner_evalGate g s).trans (ih _)

theorem inner_expireGate (g : Nat) (s : State) : Inner s (s.expireGate g) := by
  unfold State.expireGate
  split
  · exact .refl s
  · simp only
    split
    · exact (inner_onRollout ..).trans (inner_record ..)
    · exact inner_onRollout ..

theorem inner_expireGates (gs : List Nat) (s : State) : Inner s (expireGates gs s) := by
  induction gs generalizing s with
  | nil => exact .refl s
  | cons g gs ih => exact (inner_expireGate g s).trans (ih _)

theorem inner_expireDue (s : State) : Inner s s.expireDue :=
  (inner_anyOrder ..).trans (inner_expireGates ..)

theorem inner_depositConfirm (g : Nat) (s : State) : Inner s (s.depositConfirm g) :=
  inner_onLineOf _ _ _ (kept_depositConfirm _ _)

theorem inner_withdrawConfirm (g : Nat) (s : State) : Inner s (s.withdrawConfirm g) :=
  inner_onLineOf _ _ _ (kept_withdrawConfirm _)

theorem inner_endConfirmation (g : Nat) (s : State) : Inner s (s.endConfirmation g) :=
  (inner_onRollout ..).trans (inner_withdrawConfirm ..)

theorem inner_removePending (g : Nat) (s : State) : Inner s (s.removePending g) :=
  (inner_onRollout ..).trans (inner_onLineOf _ _ _ (kept_removeShow _))

theorem inner_createPending (g : Nat) (k : ShowKind) (as : List Aspect) (s : State) : Inner s (s.createPending g k as) := by
  unfold State.createPending
  split
  · exact .refl s
  · exact (((inner_removePending ..).trans (inner_onRollout ..)).trans
      (inner_onLineOf _ _ _ (kept_deposit _ _))).trans (inner_evalGate ..)

theorem inner_replacePending (g : Nat) (as : List Aspect) (s : State) : Inner s (s.replacePending g as) := by
  unfold State.replacePending
  split
  · exact .refl s
  · split
    · exact .refl s
    · simp only
      refine Inner.trans ?_ (inner_evalGate ..)
      split
      · exact inner_onRollout ..
      · exact (inner_onRollout ..).trans (inner_onLineOf _ _ _ fun c => (kept_removeShow g c).trans (kept_deposit ..))

theorem inner_compare (g : Nat) (s : State) : Inner s (s.compare g) := by
  unfold State.compare
  split
  · exact .refl s
  · simp only
    split
    · split
      · split
        · exact inner_removePending ..
        · exact .refl s
      · exact .refl s
    · split
      · exact (inner_endConfirmation ..).trans (inner_createPending ..)
      · split
        · exact .refl s
        · exact (inner_endConfirmation ..).trans (inner_replacePending ..)

theorem inner_publish (g : Nat) (s : State) : Inner s (s.publish g) := by
  unfold State.publish
  split
  · exact .refl s
  · split
    · split
      · exact .refl s
      · exact inner_compare ..
    · split
      · split
        · exact (inner_endConfirmation ..).trans (inner_replacePending ..)
        · exact .refl s
      · exact .refl s
    · exact .refl s

theorem inner_publishAll (gs : List Nat) (s : State) : Inner s (publishAll gs s) := by
  induction gs generalizing s with
  | nil => exact .refl s
  | cons g gs ih => exact (inner_publish g s).trans (ih _)

theorem inner_showAccepted (g : Nat) (b : ShowBody) (s : State) : Inner s (s.showAccepted g b) :=
  ((inner_onRollout ..).trans (inner_depositConfirm ..)).trans (inner_compare ..)

theorem inner_showRetried (g : Nat) (b : ShowBody) (s : State) : Inner s (s.showRetried g b) :=
  (inner_onRollout ..).trans (inner_evalGate ..)

theorem inner_rolloutOnNode (g : Nat) (old new : NodeState) (s : State) : Inner s (s.rolloutOnNode g old new) := by
  have h1 : Inner s
      (if old = .online then
        let keepsRetry : Bool :=
          match s.rollout.look g with
          | some r => (match r.pending with | some p => p.retry | none => false)
          | none => false
        (if keepsRetry then s.onRollout g RolloutRec.clearGate else s.removePending g).endConfirmation g
      else s) := by
    split
    · simp only
      refine Inner.trans ?_ (inner_endConfirmation ..)
      repeat' split
      all_goals first
        | exact inner_onRollout ..
        | exact inner_removePending ..
    · exact .refl s
  unfold State.rolloutOnNode
  refine h1.trans ?_
  generalize (if old = .online then _ else s : State) = s1
  simp only
  split
  · exact inner_onRollout ..
  · exact ((inner_removePending ..).trans (inner_onRollout ..)).trans (inner_withdrawConfirm ..)
  · exact (inner_removePending ..).trans (inner_onRollout ..)
  · split
    · split
      · exact .refl _
      · split
        · exact (inner_onRollout ..).trans (inner_depositConfirm ..)
        · exact .refl _
    · exact .refl _
  · exact .refl _

theorem inner_applyMarks (g : Nat) (f : List SignRec → List SignRec) (s : State) : Inner s (s.applyMarks g f) := by
  unfold State.applyMarks
  split
  · exact .refl s
  · split
    · exact .refl s
    · exact ((inner_putNode ..).trans (inner_gatesBeside ..)).trans (inner_trigger _)

theorem inner_confirmFailed (g : Nat) (as : List Aspect) (s : State) : Inner s (s.confirmFailed g as) := by
  unfold State.confirmFailed
  split
  · exact .refl s
  · exact (((inner_onRollout ..).trans (inner_applyMarks ..)).trans (inner_record ..)).trans (inner_onRollout ..)

theorem inner_roundFailed (g : Nat) (as : List Aspect) (s : State) : Inner s (s.roundFailed g as) := by
  unfold State.roundFailed
  split
  · exact .refl s
  · split
    · exact (inner_onRollout ..).trans (inner_createPending ..)
    · exact inner_confirmFailed ..

theorem inner_judge (g : Nat) (poll : Bool) (as : List Aspect) (s : State) : Inner s (s.judge g poll as) := by
  unfold State.judge
  split
  · exact .refl s
  · simp only
    split
    · exact .refl s
    · split
      · exact inner_endConfirmation ..
      · split
        · split
          · exact (inner_onRollout ..).trans (inner_depositConfirm ..)
          · exact (inner_onRollout ..).trans (inner_roundFailed ..)
        · exact .refl s
    · split
      · split
        · split
          · exact (inner_onRollout ..).trans (inner_removePending ..)
          · exact inner_onRollout ..
        · exact inner_onRollout ..
      · exact .refl s

theorem inner_clearRecovered (g : Nat) (as : List Aspect) (s : State) : Inner s (s.clearRecovered g as) := by
  unfold State.clearRecovered
  split
  · exact .refl s
  · split
    · exact .refl s
    · exact (inner_onRollout ..).trans (inner_applyMarks ..)

theorem inner_rolloutState (g : Nat) (poll : Bool) (as : List Aspect) (s : State) : Inner s (s.rolloutState g poll as) := by
  unfold State.rolloutState
  split
  · exact .refl s
  · simp only
    refine Inner.trans (Inner.trans ?_ (inner_judge ..)) (inner_clearRecovered ..)
    split
    · exact .refl s
    · exact ((inner_onRollout ..).trans (inner_raise ..)).trans (inner_gatesBeside ..)

theorem inner_recordLost (xs : List (Nat × Severity)) (s : State) : Inner s (recordLost xs s) := by
  induction xs generalizing s with
  | nil => exact .refl s
  | cons x xs ih => exact (inner_record ..).trans (ih _)

theorem inner_recordAllLost (old new : Table Target) (s : State) : Inner s (recordAllLost old new s) :=
  (inner_anyOrder ..).trans (inner_recordLost ..)

theorem inner_completePass (n : Snapshot) (s : State) : Inner s (s.completePass n) := by
  have h0 : Inner s { s with plan := { s.plan with targets := n.targets } } :=
    .of_same rfl rfl rfl rfl rfl rfl rfl rfl (fun l => by cases l <;> exact .refl _) rfl id
  unfold State.completePass
  simp only
  refine ((h0.trans (inner_recordAllLost s.plan.targets n.targets _)).trans
    (inner_publishAll (Table.keys n.targets).reverse _)).trans ?_
  split
  all_goals
    refine .of_same rfl rfl rfl rfl rfl rfl rfl rfl (fun l => by cases l <;> exact .refl _) rfl ?_
    rintro ⟨a, b, c, d, e, f, g, i, j, _⟩
  · exact ⟨a, b, c, d, e, f, g, i, j, by rintro m ⟨⟩; exact a⟩
  · exact ⟨a, b, c, d, e, f, g, i, j, by rintro m ⟨⟩⟩

/-! ### The incident unit -/

/-- A record of DETECTION origin put into the incident table leaves the stored form and the SUPERVISOR count's
bound. -/
theorem inner_putDetection (h : Nat) (r : Incident) (c : IncidentChange) (prev : Option Nat) (s : State)
    (hh : h < 16 ∨ s.incidents.look h ≠ none) (hr : r.origin = .detection) :
    Inner s (s.incidentChanged (s.incidents.put h r) c h r prev) := by
  refine Inner.trans (t := { s with incidents := s.incidents.put h r }) ?_ ((inner_raise ..).trans (inner_trigger _))
  exact { Inner.refl s with
    notices := id
    held := fun _ _ h _ => h
    line := fun l => by cases l <;> exact .refl _
    incidents := by
      rintro ⟨a1, a2⟩ b
      have hlt : h < 16 := by
        rcases hh with hh | hh
        · exact hh
        · obtain ⟨v, hv⟩ := Option.ne_none_iff_exists'.1 hh
          exact a2 h (List.mem_map.2 ⟨_, mem_of_look hv, rfl⟩)
      refine ⟨⟨rising_put a1 _ _, ?_⟩, ?_⟩
      · intro n hn
        rcases keys_put_mem hn with rfl | hn
        · exact hlt
        · exact a2 n hn
      · have hp : ((h, r).2.origin == Origin.supervisor) = false := by simp [hr]
        cases hl : s.incidents.look h with
        | none =>
          have := filter_length_put_fresh (fun kv : Nat × Incident => kv.2.origin == .supervisor) r hl
          simp only [hp] at this
          simp only [State.supervisorCount] at b ⊢
          simp_all
        | some w =>
          have := filter_length_put_replace (fun kv : Nat × Incident => kv.2.origin == .supervisor) a1 r hl
          simp only [hp] at this
          simp only [State.supervisorCount] at b ⊢
          simp only [Bool.false_eq_true, if_false, Nat.add_zero] at this
          omega }

/-- The record chosen to be tracked stands in the table and is of DETECTION origin. -/
theorem nearest_mem (s : State) (st : Nat) (t : List (Nat × Incident)) (h : Nat) (r : Incident)
    (e : s.nearest st t = some (h, r)) : (h, r) ∈ t ∧ r.origin = .detection := by
  induction t generalizing h r with
  | nil => simp [State.nearest] at e
  | cons kv t ih =>
    obtain ⟨k, x⟩ := kv
    simp only [State.nearest] at e
    split at e
    · rename_i q
      have hx : x.origin = .detection := by
        simp only [State.qualifies, Bool.and_eq_true, beq_iff_eq] at q
        exact q.1
      split at e
      · cases e; exact ⟨List.mem_cons_self .., hx⟩
      · rename_i b hb
        split at e
        · cases e; exact ⟨List.mem_cons_self .., hx⟩
        · cases e
          have := ih _ _ hb
          exact ⟨List.mem_cons_of_mem _ this.1, this.2⟩
    · have := ih _ _ e
      exact ⟨List.mem_cons_of_mem _ this.1, this.2⟩

theorem look_ne_none_of_mem {α : Type} {t : Table α} {n : Nat} {v : α} (h : (n, v) ∈ t) : t.look n ≠ none := by
  induction t with
  | nil => simp at h
  | cons kv t ih =>
    obtain ⟨k, w⟩ := kv
    simp only [Table.look]
    split
    · simp
    · rename_i hk
      rcases List.mem_cons.1 h with h | h
      · cases h; exact absurd rfl hk
      · exact ih h

theorem inner_raiseOrTrack (st : Nat) (s : State) : Inner s (s.raiseOrTrack st) := by
  unfold State.raiseOrTrack
  simp only
  split
  · rename_i h r e
    have := nearest_mem s st s.incidents h r e
    exact inner_putDetection _ _ _ _ _ (.inr (look_ne_none_of_mem this.1)) this.2
  · split
    · rename_i h e
      exact inner_putDetection _ _ _ _ _ (.inl (lowestFree_eq_some.1 e).1) rfl
    · exact inner_record ..

theorem inner_expireIncident (h : Nat) (s : State) : Inner s (s.expireIncident h) := by
  unfold State.expireIncident
  split
  · exact .refl s
  · split
    · refine Inner.trans (t := { s with incidents := s.incidents.del h }) ?_ ((inner_raise ..).trans (inner_trigger _))
      exact { Inner.refl s with
        notices := id
        held := fun _ _ h _ => h
        line := fun l => by cases l <;> exact .refl _
        incidents := fun a b => ⟨⟨rising_del a.1 _, fun n hn => a.2 n (keys_del_mem hn)⟩,
          (filter_length_del_le _ _ _).trans b⟩ }
    · exact .refl s

/-! ### The measurement and traffic units -/

theorem inner_reversePassage (st lane : Nat) (s : State) : Inner s (s.reversePassage st lane) := by
  unfold State.reversePassage
  split
  · exact .refl s
  · simp only
    split
    · exact ((inner_putTraffic ..).trans (inner_raise ..)).trans (inner_raiseOrTrack ..)
    · exact inner_putTraffic ..

theorem inner_laneEvents (st lane : Nat) (es : List LaneEvent) (s : State) : Inner s (State.laneEvents st lane es s) := by
  induction es generalizing s with
  | nil => exact .refl s
  | cons e es ih =>
    refine Inner.trans ?_ (ih _)
    cases e
    · exact inner_measureError ..
    · exact inner_measureError ..
    · exact inner_measureError ..
    · exact inner_reversePassage ..

theorem inner_edgeRecord (st : Nat) (r : StationRec) (s : State) (e : EdgeRec) : Inner s (s.edgeRecord st r e) := by
  unfold State.edgeRecord
  split
  · exact .refl s
  · split
    · exact .refl s
    · exact (inner_onStation ..).trans (inner_laneEvents ..)

theorem inner_edgesLost (st : Nat) (s : State) : Inner s (s.edgesLost st) :=
  (inner_onStation ..).trans (inner_measureError ..)

theorem inner_edgeRecords (st : Nat) (r : StationRec) (es : List EdgeRec) (s : State) :
    Inner s (es.foldl (State.edgeRecord st r) s) := by
  induction es generalizing s with
  | nil => exact .refl s
  | cons e es ih => exact (inner_edgeRecord st r s e).trans (ih _)

theorem inner_traceStation (st : Nat) (r : StationRec) (t : TraceReply) (s : State) : Inner s (s.traceStation st r t) := by
  unfold State.traceStation
  refine Inner.trans ?_ (inner_edgeRecords ..)
  split
  · exact inner_edgesLost ..
  · exact .refl s

theorem inner_measureOnNode (g : Nat) (old new : NodeState) (s : State) : Inner s (s.measureOnNode g old new) := by
  unfold State.measureOnNode
  split
  · exact .refl s
  · split
    · exact inner_onStation ..
    · split
      · exact inner_onStation ..
      · exact .refl s

theorem inner_recordSilent (sts : List Nat) (s : State) : Inner s (recordSilent sts s) := by
  induction sts generalizing s with
  | nil => exact .refl s
  | cons st sts ih => exact (inner_measureError ..).trans (ih _)

theorem inner_silentTests (s : State) : Inner s s.silentTests := by
  refine Inner.trans ?_ ((inner_anyOrder ..).trans (inner_recordSilent ..))
  exact .of_same rfl rfl rfl rfl rfl rfl rfl rfl (fun l => by cases l <;> exact .refl _) rfl
    fun ⟨a, b, c, d, e, f, g⟩ => ⟨a, b, c, by simpa using d, e, f, g⟩

theorem inner_closeStation (adjust : Bool) (ie : Clock) (st : Nat) (ls : List LaneResult) (s : State) :
    Inner s (s.closeStation adjust ie st ls) := by
  unfold State.closeStation
  split
  · exact .refl s
  · simp only
    exact Inner.trans (Inner.ite ((inner_putTraffic ..).trans (inner_measureError ..)) (inner_putTraffic ..))
      (inner_raise ..)

theorem inner_closeStations (adjust : Bool) (ie : Clock) (xs : List (Nat × List LaneResult)) (s : State) :
    Inner s (closeStations adjust ie xs s) := by
  induction xs generalizing s with
  | nil => exact .refl s
  | cons x xs ih => exact (inner_closeStation ..).trans (ih _)

theorem inner_applyWaiting (s : State) : Inner s s.applyWaiting :=
  .of_same rfl rfl rfl rfl rfl rfl rfl rfl (fun l => by cases l <;> exact .refl _) rfl id

theorem inner_nextInterval (s : State) : Inner s s.nextInterval :=
  .of_same rfl rfl rfl rfl rfl rfl rfl rfl (fun l => by cases l <;> exact .refl _) rfl
    fun ⟨a, b, c, d, e, f, g⟩ =>
      ⟨a, b, c, rising_of_keys d (by simp [State.nextInterval, Table.keys, Function.comp_def]), e, f, g⟩

theorem inner_closeInterval (s : State) : Inner s s.closeInterval :=
  ((((inner_silentTests ..).trans (inner_applyWaiting _)).trans (inner_closeStations ..)).trans
    (inner_trigger _)).trans (inner_nextInterval _)

/-! ### The node registry -/

theorem inner_lineOnNode (g : Nat) (old new : NodeState) (s : State) : Inner s (s.lineOnNode g old new) := by
  unfold State.lineOnNode
  split
  · exact inner_onLineOf _ _ _ (kept_stopPolls _)
  · exact inner_onLineOf _ _ _ (kept_stopPolls _)
  · exact inner_onLineOf _ _ _ (kept_dropNode _)
  · split
    · exact inner_onLineOf _ _ _ (kept_startPolls _ _)
    · exact .refl s
  · exact .refl s

theorem inner_nodeEvent (g : Nat) (old new : NodeState) (r : Reason) (m : Option Mismatch) (s : State) :
    Inner s (s.nodeEvent g old new r m) := by
  unfold State.nodeEvent
  split
  · exact .refl s
  · exact inner_raise ..

theorem inner_nodeRecord (g : Nat) (new : NodeState) (r : Reason) (s : State) : Inner s (s.nodeRecord g new r) := by
  unfold State.nodeRecord
  split
  · exact .refl s
  · exact inner_record ..

theorem inner_nodeNotices (g : Nat) (old new : NodeState) (r : Reason) (m : Option Mismatch) (b : Option NoticeBody)
    (s : State) : Inner s (s.nodeNotices g old new r m b) := by
  unfold State.nodeNotices
  split
  · exact (inner_nodeEvent ..).trans (inner_nodeRecord ..)
  · simp only
    refine (inner_draw s).trans ?_
    split
    · exact ((inner_raise ..).trans (inner_nodeEvent ..)).trans (inner_nodeRecord ..)
    · split
      · exact ((inner_nodeEvent ..).trans (inner_raise ..)).trans (inner_nodeRecord ..)
      · exact ((inner_nodeEvent ..).trans (inner_nodeRecord ..)).trans (inner_raise ..)

theorem inner_depositService (g : Nat) (j : Job) (s : State) : Inner s (s.depositService g j) :=
  inner_onLineOf _ _ _ (kept_deposit _ _)

theorem inner_changeNode (g : Nat) (new : NodeState) (r : Reason) (m : Option Mismatch) (s : State) :
    Inner s (s.changeNode g new r m) := by
  unfold State.changeNode
  split
  · exact .refl s
  · rename_i n _
    simp only
    have h3 := ((((inner_putNode g (n.moved new r m s.clock) s).trans (inner_lineOnNode g n.state new _)).trans
      (inner_measureOnNode g n.state new _)).trans (inner_rolloutOnNode g n.state new _)).trans
      (inner_nodeNotices g n.state new r m (s.forgetNotice g new) _)
    refine h3.trans ?_
    generalize (State.nodeNotices g n.state new r m (s.forgetNotice g new) _ : State) = s3
    have h4 : Inner s3 (if new = .describing then
        s3.depositService g (if n.state = .offline then .caps 0 else .describe) else s3) := by
      split
      · exact inner_depositService ..
      · exact .refl _
    refine h4.trans ?_
    generalize (if new = .describing then _ else s3 : State) = s4
    have h5 : Inner s4 (if (n.state == .online) != (new == .online) || (s.forgetNotice g new).isSome then
        s4.gatesBeside g else s4) := by
      split
      · exact inner_gatesBeside ..
      · exact .refl _
    refine h5.trans ?_
    generalize (if (n.state == .online) != (new == .online) || (s.forgetNotice g new).isSome then _ else s4 : State) = s5
    have h6 : Inner s5 (if (n.state == .online) != (new == .online) then s5.trigger else s5) := by
      split
      · exact inner_trigger _
      · exact .refl _
    exact h6.trans (Inner.ite (inner_trigger _) (.refl _))

theorem inner_describeAll (gs : List Nat) (s : State) : Inner s (describeAll gs s) := by
  induction gs generalizing s with
  | nil => exact .refl s
  | cons g gs ih => exact (inner_changeNode ..).trans (ih _)

theorem inner_nodeSucceeded (g : Nat) (retry : Bool) (s : State) : Inner s (s.nodeSucceeded g retry) := by
  unfold State.nodeSucceeded
  split
  · exact inner_changeNode ..
  · exact .refl s

theorem inner_nextStep (g : Nat) (st : DescStep) (s : State) : Inner s (s.nextStep g st) :=
  (inner_onNode ..).trans (inner_depositService ..)

theorem inner_offlineMismatch (g : Nat) (m : Mismatch) (n : NodeRec) (s : State) : Inner s (s.offlineMismatch g m n) := by
  unfold State.offlineMismatch
  simp only
  split
  · exact inner_onNode ..
  · exact (((inner_onNode ..).trans (inner_onNode ..)).trans (inner_nodeEvent ..)).trans (inner_nodeRecord ..)

theorem inner_described (g : Nat) (r : DescribeReply) (s : State) : Inner s (s.described g r) := by
  unfold State.described
  split
  · exact .refl s
  · split
    · split
      · exact inner_nextStep ..
      · exact .refl s
    · split
      · exact inner_changeNode ..
      · exact .refl s
    · exact inner_changeNode ..
    · exact inner_offlineMismatch ..
    · exact .refl s

theorem inner_capsTaken (g i : Nat) (es : List Aspect) (s : State) : Inner s (s.capsTaken g i es) := by
  unfold State.capsTaken
  split
  · rename_i n k _ _
    split
    · exact .refl s
    · rename_i r _
      simp only
      refine (inner_onNode g (fun n => { n with signs := n.signs.set i { r with caps := keepCaps k [] es } }) s).trans ?_
      generalize State.onNode g _ s = s1
      have h2 : Inner s1 (if es.any (fun a => !Aspect.fits k a) then
          s1.record (s1.bankOf g) .badCapability .warn (some g) none else s1) := by
        split
        · exact inner_record ..
        · exact .refl _
      refine h2.trans ?_
      generalize (if es.any (fun a => !Aspect.fits k a) then _ else s1 : State) = s2
      have h3 : Inner s2 (if sameSet r.caps (keepCaps k [] es) then s2 else s2.trigger) := by
        split
        · exact .refl _
        · exact inner_trigger _
      exact h3.trans (Inner.ite (inner_nextStep ..) (.refl _))
  · exact .refl s

theorem inner_takeSigns (g : Nat) (xs : List (Health × Aspect)) (s : State) : Inner s (s.takeSigns g xs) := by
  unfold State.takeSigns
  split
  · exact .refl s
  · simp only
    split
    · exact ((inner_onNode ..).trans (inner_gatesBeside ..)).trans (inner_trigger _)
    · exact inner_onNode ..

theorem inner_stateTaken (g : Nat) (retry : Bool) (r : StateReply) (s : State) : Inner s (s.stateTaken g retry r) := by
  unfold State.stateTaken
  simp only
  have h1 : Inner s (if r.restarted && (s.nodeState g == some .online || s.nodeState g == some .suspect) then s
      else s.nodeSucceeded g retry) := by
    split
    · exact .refl s
    · exact inner_nodeSucceeded ..
  refine (h1.trans (inner_takeSigns g r.signs _)).trans ?_
  split
  · exact inner_changeNode ..
  · split
    · exact .refl _
    · split
      · exact inner_changeNode ..
      · exact .refl _

theorem inner_offlineRetry (g : Nat) (s : State) : Inner s (s.offlineRetry g) :=
  (inner_onNode ..).trans (inner_depositService ..)

/-! ### Outcomes handed on -/

theorem inner_nodeFailed (l : Line) (f : Flight) (w : Failure) (s : State) : Inner s (s.nodeFailed l f w) := by
  unfold State.nodeFailed
  simp only
  split
  · exact (inner_changeNode ..).trans (inner_onLine _ _ _ (kept_depositHead _ _))
  · split
    · exact inner_changeNode ..
    · exact .refl s
  · exact inner_changeNode ..
  · exact inner_onNode ..
  · exact .refl s

theorem inner_loseEdges (g : Nat) (s : State) : Inner s (s.loseEdges g) := by
  unfold State.loseEdges
  split
  · exact .refl s
  · exact inner_edgesLost ..

theorem inner_adjustPolls (l : Line) (g : Nat) (f : Poll → Poll) (s : State) :
    Inner s (s.onLine l fun c => { c with polls := c.polls.adjust g f }) :=
  inner_onLine _ _ _ fun _ => .of_eq rfl rfl rfl

theorem inner_handFailure (l : Line) (f : Flight) (w : Failure) (done : Bool) (s : State) :
    Inner s (s.handFailure l f w done) := by
  unfold State.handFailure
  simp only
  refine ((inner_adjustPolls l f.gantry f.job.restartPolls s).trans
    (inner_record (lineBank l) w.error .warn (some f.gantry) none _)).trans ?_
  generalize State.record (lineBank l) w.error .warn (some f.gantry) none _ = s1
  split
  · exact inner_changeNode ..
  · have h3 : Inner s1 (if done = true ∧ f.job = .trace then (s1.nodeFailed l f w).loseEdges f.gantry
        else s1.nodeFailed l f w) := by
      split
      · exact (inner_nodeFailed ..).trans (inner_loseEdges ..)
      · exact inner_nodeFailed ..
    refine h3.trans ?_
    generalize (if done = true ∧ f.job = .trace then _ else _ : State) = s3
    split
    · exact Inner.ite (inner_showRetried ..) (.refl _)
    · exact .refl _

theorem inner_handAccepted (f : Flight) (s : State) : Inner s (s.handAccepted f) := by
  unfold State.handAccepted
  simp only
  split
  · exact inner_nodeSucceeded ..
  · exact (inner_nodeSucceeded ..).trans (inner_showAccepted ..)

theorem inner_handState (l : Line) (f : Flight) (r : StateReply) (s : State) : Inner s (s.handState l f r) :=
  ((inner_stateTaken ..).trans (inner_adjustPolls ..)).trans (inner_rolloutState ..)

theorem inner_handTrace (l : Line) (f : Flight) (r : TraceReply) (s : State) : Inner s (s.handTrace l f r) := by
  unfold State.handTrace
  simp only
  refine ((inner_nodeSucceeded f.gantry f.retry s).trans
    (inner_adjustPolls l f.gantry (Poll.afterTrace s.geo.params.line.pollPeriod r.more) _)).trans ?_
  generalize State.onLine _ l _ = s2
  split
  · exact .refl _
  · exact inner_traceStation ..

theorem inner_pollTrace (g : Nat) (s : State) : Inner s (s.pollTrace g) := by
  refine inner_onLineOf _ _ _ fun c => ?_
  split
  · exact kept_deposit ..
  · exact .refl c

theorem inner_pollState (g : Nat) (s : State) : Inner s (s.pollState g) := by
  refine inner_onLineOf _ _ _ fun c => ?_
  split
  · exact kept_deposit ..
  · exact .refl c

end Sys2Proof.Machine
end

