-- ==== Sys2Proof/Laws/Requests.lean ====
section
/-! SUPPORT. What the taking of a request does, said once (R25 to R27), and what the blocks' answers keep. -/

namespace Sys2Proof.Machine

/-- A request that can be taken: its block answers on the state without the frame, and the reply is placed. -/
theorem takeRequest_taken {s : State} {ty : Byte} {f : Frame} {rest : List Frame} {fits : Byte → Bool}
    (h : State → List Byte → Answer) (ht : s.takes ty f rest) (hf : fits ty = true) :
    takeRequest fits h s = .next
      ((h { s with link := { s.link with rxQueue := rest } } f.payload).state.placeReply f
        (h { s with link := { s.link with rxQueue := rest } } f.payload).result
        (h { s with link := { s.link with rxQueue := rest } } f.payload).detail) := by
  obtain ⟨h1, h2, h3, h4, h5⟩ := ht
  subst h5
  simp [takeRequest, State.takeable, h1, h2, h3, h4, hf]

/-- A refused request changes nothing but the link unit (R26). -/
theorem takeRequest_refused {s : State} {ty : Byte} {f : Frame} {rest : List Frame} {fits : Byte → Bool}
    (h : State → List Byte → Answer) (ht : s.takes ty f rest) (hf : fits ty = true) {r : Result} {d : Detail}
    (ha : h { s with link := { s.link with rxQueue := rest } } f.payload =
      ⟨{ s with link := { s.link with rxQueue := rest } }, r, d⟩) :
    takeRequest fits h s = .next (s.answered f rest r d) := by
  rw [takeRequest_taken h ht hf, ha]
  rfl

/-- A request row either has no effect or takes the frame at the head of the receive queue. -/
theorem takeRequest_cases {s t : State} {fits : Byte → Bool} {h : State → List Byte → Answer}
    (e : takeRequest fits h s = .next t) :
    t = s ∨ ∃ f rest, s.takes f.typ f rest ∧ fits f.typ = true ∧
      t = (h { s with link := { s.link with rxQueue := rest } } f.payload).state.placeReply f
        (h { s with link := { s.link with rxQueue := rest } } f.payload).result
        (h { s with link := { s.link with rxQueue := rest } } f.payload).detail := by
  unfold takeRequest at e
  split at e
  · cases e; exact .inl rfl
  · rename_i f rest ht
    refine .inr ⟨f, rest, ?_⟩
    unfold State.takeable at ht
    split at ht
    · rename_i hc
      simp only [Bool.and_eq_true, Bool.not_eq_true', Option.isNone_iff_eq_none] at hc
      split at ht
      · cases ht
      · rename_i f' rest' hq
        split at ht
        · rename_i hf
          cases ht
          cases e
          exact ⟨⟨hc.1.1, hc.1.2, hc.2, hq, rfl⟩, hf, rfl⟩
        · cases ht
    · cases ht

/-- Without a request to take the row has no effect. -/
theorem takeRequest_idle {s : State} {fits : Byte → Bool} (h : State → List Byte → Answer)
    (hs : s.resetHigh = false ∨ s.link.resetting = true ∨ s.link.replySlot ≠ none ∨ s.link.rxQueue = []) :
    takeRequest fits h s = .next s := by
  have : s.takeable fits = none := by
    unfold State.takeable
    rcases hs with h | h | h | h
    · simp [h]
    · simp [h]
    · simp [Option.isNone_iff_eq_none, h]
    · simp [h]
  simp [takeRequest, this]

theorem whenRunning_eq {s : State} (h : s.resetHigh = true) (f : State → State) : whenRunning s f = .next (f s) := by
  simp [whenRunning, h]

theorem whenRunning_cases {s t : State} {f : State → State} (e : whenRunning s f = .next t) :
    t = s ∨ s.resetHigh = true ∧ t = f s := by
  unfold whenRunning at e
  split at e <;> cases e
  · rename_i h; exact .inr ⟨h, rfl⟩
  · exact .inl rfl

/-! ### Replies and notices touch different parts of the link unit -/

/-- Placing the reply and raising a notice commute. -/
theorem raise_placeReply (s : State) (b : NoticeBody) (f : Frame) (r : Result) (d : Detail) :
    (s.raise b).placeReply f r d = (s.placeReply f r d).raise b := by
  by_cases h1 : s.link.notices.length < noticeCapacity
  · simp [State.raise, h1, State.placeReply]
  · by_cases h2 : s.link.lost = true <;> simp [State.raise, h1, h2, State.placeReply]

/-- Placing the reply and triggering a pass commute. -/
theorem trigger_placeReply (s : State) (f : Frame) (r : Result) (d : Detail) :
    s.trigger.placeReply f r d = (s.placeReply f r d).trigger := by
  by_cases h1 : s.geo.mode = .setup
  · simp [State.trigger, h1]
  · cases h2 : s.plan.running <;> simp [State.trigger, h1, h2, State.placeReply, State.snapshot]

/-- A change of the incident table and the reply to its request. -/
theorem incidentChanged_placeReply (s : State) (t : Table Incident) (c : IncidentChange) (h : Nat) (x : Incident)
    (p : Option Nat) (f : Frame) (r : Result) (d : Detail) :
    (s.incidentChanged t c h x p).placeReply f r d =
      State.trigger (State.raise (.incidentEvent c h x p) { s.placeReply f r d with incidents := t }) := by
  unfold State.incidentChanged
  rw [trigger_placeReply, raise_placeReply]
  rfl

/-! ### What the answers keep -/

theorem inner_putSupervisor {s : State} {h : Nat} {r : Incident} {c : IncidentChange} {prev : Option Nat}
    (hh : h < 16 ∨ s.incidents.look h ≠ none)
    (hr : s.supervisorCount < 12 ∨ ∃ w, s.incidents.look h = some w ∧ w.origin = r.origin) :
    Inner s (s.incidentChanged (s.incidents.put h r) c h r prev) := by
  refine Inner.trans (t := { s with incidents := s.incidents.put h r }) ?_ ((inner_raise ..).trans (inner_trigger _))
  exact { Inner.refl s with
    notices := id
    held := fun _ _ h _ => h
    line := fun l => by cases l <;> exact .refl _
    incidents := by
      rintro ⟨a1, a2⟩ b
      have hlt : h < 16 := by
        rcases hh with hh | hh
        · exact hh
        · obtain ⟨v, hv⟩ := Option.ne_none_iff_exists'.1 hh
          exact a2 h (List.mem_map.2 ⟨_, mem_of_look hv, rfl⟩)
      refine ⟨⟨rising_put a1 _ _, ?_⟩, ?_⟩
      · intro n hn
        rcases keys_put_mem hn with rfl | hn
        · exact hlt
        · exact a2 n hn
      · simp only [State.supervisorCount] at b hr ⊢
        cases hl : s.incidents.look h with
        | none =>
          have := filter_length_put_fresh (fun kv : Nat × Incident => kv.2.origin == .supervisor) r hl
          rw [this]
          rcases hr with hr | ⟨w, hw, _⟩
          · split <;> omega
          · rw [hl] at hw; cases hw
        | some w =>
          have := filter_length_put_replace (fun kv : Nat × Incident => kv.2.origin == .supervisor) a1 r hl
          simp only at this
          rcases hr with hr | ⟨w', hw, ho⟩
          · split at this <;> split at this <;> omega
          · rw [hl] at hw; cases hw
            rw [ho] at this
            omega }

theorem inner_raiseIncident (s : State) (p : List Byte) : Inner s (handleRaiseIncident s p).state := by
  unfold handleRaiseIncident
  repeat' split
  all_goals first
    | exact .refl s
    | skip
  all_goals
    rename_i hlt _ h e _
    exact inner_putSupervisor (.inl (lowestFree_eq_some.1 e).1) (.inl (by simpa [supervisorLimit] using hlt))

theorem inner_amendIncident (s : State) (p : List Byte) : Inner s (handleAmendIncident s p).state := by
  unfold handleAmendIncident
  split
  · exact .refl s
  · split
    · exact .refl s
    · exact .refl s
    · split
      · exact .refl s
      · rename_i q r e
        simp only
        split
        · exact .refl s
        · split
          · exact .refl s
          · split
            · exact .refl s
            · split <;> exact inner_putSupervisor (.inr (by rw [e]; simp)) (.inr ⟨r, e, rfl⟩)

theorem inner_clearIncident (s : State) (p : List Byte) : Inner s (handleClearIncident s p).state := by
  unfold handleClearIncident
  repeat' split
  all_goals first
    | exact .refl s
    | skip
  rename_i h _ _ r _
  refine Inner.trans (t := { s with incidents := s.incidents.del h.toNat }) ?_
    ((inner_raise ..).trans (inner_trigger _))
  exact { Inner.refl s with
    notices := id
    held := fun _ _ h _ => h
    line := fun l => by cases l <;> exact .refl _
    incidents := fun a b => ⟨⟨rising_del a.1 _, fun n hn => a.2 n (keys_del_mem hn)⟩,
      (filter_length_del_le _ _ _).trans b⟩ }

theorem inner_confirmIncident (s : State) (p : List Byte) : Inner s (handleConfirmIncident s p).state := by
  unfold handleConfirmIncident
  split
  · exact .refl s
  · split
    · split
      · exact .refl s
      · split
        · exact .refl s
        · rename_i r e
          split
          · exact .refl s
          · split
            · exact .refl s
            · rename_i hlt
              exact inner_putSupervisor (.inr (by rw [e]; simp)) (.inl (by simpa [supervisorLimit] using hlt))
    · exact .refl s

theorem inner_gantryService (s : State) (p : List Byte) : Inner s (handleGantryService s p).state := by
  unfold handleGantryService
  repeat' split
  all_goals first
    | exact .refl s
    | exact (inner_setService ..).trans (inner_changeNode ..)

theorem inner_stationReset (s : State) (p : List Byte) : Inner s (handleStationReset s p).state := by
  unfold handleStationReset
  repeat' split
  all_goals first
    | exact .refl s
    | exact .of_same rfl rfl rfl rfl rfl rfl rfl rfl (fun l => by cases l <;> exact .refl _) rfl
        fun ⟨a, b, c, d, e, f, g⟩ => ⟨a, b, c, d, (rising_adjust ..).trans e, f, g⟩

theorem inner_readNode (s : State) (p : List Byte) : Inner s (handleReadNode s p).state := by
  unfold handleReadNode
  repeat' split
  all_goals first
    | exact .refl s
    | exact inner_onNode ..

/-- Reads that change nothing at all. -/
theorem readGantry_state (s : State) (p : List Byte) : (handleReadGantry s p).state = s := by
  unfold handleReadGantry
  repeat' split
  all_goals rfl

theorem readStation_state (s : State) (p : List Byte) : (handleReadStation s p).state = s := by
  unfold handleReadStation
  repeat' split
  all_goals rfl

theorem readIncidents_state (s : State) (p : List Byte) : (handleReadIncidents s p).state = s := by
  unfold handleReadIncidents
  repeat' split
  all_goals rfl

theorem identify_state (s : State) (p : List Byte) : (handleIdentify s p).state = s := by
  unfold handleIdentify
  repeat' split
  all_goals rfl

theorem unknown_state (s : State) (p : List Byte) : (handleUnknown s p).state = s := rfl

/-! ### Clamped fields (R9) -/

/-- The places at which two lists of one length differ, rising; none exactly when the lists are equal (R9). -/
theorem changedAt_spec (n : Nat) (xs ys : List Nat) (h : xs.length = ys.length) :
    (changedAt n xs ys = [] ↔ xs = ys) ∧ (changedAt n xs ys).Pairwise (· < ·) ∧
      ∀ i, i ∈ changedAt n xs ys ↔ n ≤ i ∧ xs[i - n]? ≠ ys[i - n]? := by
  induction xs generalizing n ys with
  | nil =>
    cases ys with
    | nil => simp [changedAt]
    | cons y ys => simp at h
  | cons x xs ih =>
    cases ys with
    | nil => simp at h
    | cons y ys =>
      obtain ⟨h1, h2, h3⟩ := ih (n + 1) ys (by simpa using h)
      have key : ∀ i, i ≠ n → ((n ≤ i ∧ (x :: xs)[i - n]? ≠ (y :: ys)[i - n]?) ↔ i ∈ changedAt (n + 1) xs ys) := by
        intro i hi
        rw [h3]
        by_cases q : n + 1 ≤ i
        · rw [show i - n = (i - (n + 1)) + 1 by omega]
          simp [q, show n ≤ i by omega]
        · have : ¬ n ≤ i := by omega
          simp [q, this]
      by_cases e : x = y
      · subst e
        simp only [changedAt, if_true, List.cons.injEq, true_and]
        refine ⟨h1, h2, fun i => ?_⟩
        by_cases q : i = n
        · subst q; rw [h3]; simp
        · exact (key i q).symm
      · simp only [changedAt, e, if_false, List.cons.injEq, false_and, reduceCtorEq]
        refine ⟨trivial, List.pairwise_cons.2 ⟨fun m hm => ((h3 m).1 hm).1, h2⟩, fun i => ?_⟩
        by_cases q : i = n
        · subst q; simp [e]
        · rw [List.mem_cons, key i q]; simp [q]

end Sys2Proof.Machine
end

