-- ==== Sys2Proof/Laws/Node.lean ====
section
/-! SUPPORT. What the acts on one gantry leave alone: the relation `Touch g`, one lemma for each act, and the node
record and line queues after a change of node state. -/

namespace Sys2Proof.Machine

/-- What an act on gantry g leaves alone: geometry, clock, incidents, sections, traffic state, targets, demands, the
node records of the other gantries, the line that does not reach g, and the engine and level of the line that does;
an error held in a bank stays one. -/
structure Touch (g : Nat) (s t : State) : Prop where
  geo : t.geo = s.geo
  clock : t.clock = s.clock
  resetHigh : t.resetHigh = s.resetHigh
  pending : t.pending = s.pending
  incidents : t.incidents = s.incidents
  sections : t.sections = s.sections
  traffic : t.traffic = s.traffic
  targets : t.plan.targets = s.plan.targets
  demands : t.plan.demands = s.plan.demands
  nodes : ∀ k, k ≠ g → t.nodes.look k = s.nodes.look k
  lines : ∀ r, s.geo.gantries.look g = some r → ∀ l, l ≠ r.line → t.line l = s.line l
  engine : ∀ l, (t.line l).engine = (s.line l).engine
  level : ∀ l, (t.line l).level = (s.line l).level
  lumen : ∀ l, (t.line l).lumenTimer = (s.line l).lumenTimer
  banks : ∀ id, (s.banks.look id).held ≠ none → (t.banks.look id).held ≠ none
  replySlot : t.link.replySlot = s.link.replySlot

theorem Touch.refl (g : Nat) (s : State) : Touch g s s :=
  ⟨rfl, rfl, rfl, rfl, rfl, rfl, rfl, rfl, rfl, fun _ _ => rfl, fun _ _ _ _ => rfl, fun _ => rfl, fun _ => rfl, fun _ => rfl,
    fun _ h => h, rfl⟩

theorem Touch.trans {g : Nat} {s t u : State} (h : Touch g s t) (k : Touch g t u) : Touch g s u where
  geo := k.geo.trans h.geo
  clock := k.clock.trans h.clock
  resetHigh := k.resetHigh.trans h.resetHigh
  pending := k.pending.trans h.pending
  incidents := k.incidents.trans h.incidents
  sections := k.sections.trans h.sections
  traffic := k.traffic.trans h.traffic
  targets := k.targets.trans h.targets
  demands := k.demands.trans h.demands
  nodes := fun n hn => (k.nodes n hn).trans (h.nodes n hn)
  lines := fun r hr l hl => (k.lines r (by rw [h.geo]; exact hr) l hl).trans (h.lines r hr l hl)
  engine := fun l => (k.engine l).trans (h.engine l)
  level := fun l => (k.level l).trans (h.level l)
  lumen := fun l => (k.lumen l).trans (h.lumen l)
  banks := fun id x => k.banks id (h.banks id x)
  replySlot := k.replySlot.trans h.replySlot

theorem Touch.ite {g : Nat} {s t u : State} {p : Prop} [Decidable p] (h : Touch g s t) (k : Touch g s u) :
    Touch g s (if p then t else u) := by
  split <;> assumption

/-- An act whose effect lies in fields that `Touch` does not name. -/
theorem Touch.of_same {g : Nat} {s t : State} (h1 : t.geo = s.geo) (h2 : t.clock = s.clock)
    (h3 : t.resetHigh = s.resetHigh) (h4 : t.pending = s.pending) (h5 : t.incidents = s.incidents)
    (h6 : t.sections = s.sections) (h7 : t.traffic = s.traffic) (h8 : t.plan.targets = s.plan.targets)
    (h9 : t.plan.demands = s.plan.demands) (h10 : ∀ k, k ≠ g → t.nodes.look k = s.nodes.look k)
    (h11 : t.lineA = s.lineA) (h12 : t.lineB = s.lineB)
    (h13 : ∀ id, (s.banks.look id).held ≠ none → (t.banks.look id).held ≠ none)
    (h14 : t.link.replySlot = s.link.replySlot) : Touch g s t := by
  have hl : ∀ l, t.line l = s.line l := fun l => by cases l <;> simpa [State.line]
  exact ⟨h1, h2, h3, h4, h5, h6, h7, h8, h9, h10, fun _ _ l _ => hl l, fun l => by rw [hl l], fun l => by rw [hl l],
    fun l => by rw [hl l], h13, h14⟩

theorem touch_raise (g : Nat) (b : NoticeBody) (s : State) : Touch g s (s.raise b) := by
  refine .of_same ?_ ?_ ?_ ?_ ?_ ?_ ?_ ?_ ?_ (fun k _ => ?_) ?_ ?_ (fun id h => raise_held b s id h) ?_ <;> rw [raise_frame]

theorem touch_record (g : Nat) (id : BankId) (c : ErrorCode) (v : Severity) (x st : Option Nat) (s : State) :
    Touch g s (s.record id c v x st) := by
  refine .of_same ?_ ?_ ?_ ?_ ?_ ?_ ?_ ?_ ?_ (fun k _ => ?_) ?_ ?_ (fun m h => record_keeps_held _ _ _ _ _ _ m h) ?_ <;>
    rw [record_frame]

theorem touch_trigger (g : Nat) (s : State) : Touch g s s.trigger := by
  refine .of_same ?_ ?_ ?_ ?_ ?_ ?_ ?_ ?_ ?_ (fun k _ => ?_) ?_ ?_ (fun m h => ?_) ?_ <;>
    first | (rw [trigger_frame]; done) | (rw [trigger_frame]; exact h)

theorem touch_draw (g : Nat) (s : State) : Touch g s s.draw.2 :=
  .of_same rfl rfl rfl rfl rfl rfl rfl rfl rfl (fun _ _ => rfl) rfl rfl (fun _ h => h) rfl

theorem touch_onRollout (g n : Nat) (f : RolloutRec → RolloutRec) (s : State) : Touch g s (s.onRollout n f) :=
  .of_same rfl rfl rfl rfl rfl rfl rfl rfl rfl (fun _ _ => rfl) rfl rfl (fun _ h => h) rfl

theorem touch_onStation (g st : Nat) (f : StationEntry → StationEntry) (s : State) : Touch g s (s.onStation st f) :=
  .of_same rfl rfl rfl rfl rfl rfl rfl rfl rfl (fun _ _ => rfl) rfl rfl (fun _ h => h) rfl

theorem touch_onNode (g : Nat) (f : NodeRec → NodeRec) (s : State) : Touch g s (s.onNode g f) :=
  .of_same rfl rfl rfl rfl rfl rfl rfl rfl rfl (fun k h => by simp [h]) rfl rfl (fun _ h => h) rfl

theorem touch_putNode (g : Nat) (n : NodeRec) (s : State) : Touch g s { s with nodes := s.nodes.put g n } :=
  .of_same rfl rfl rfl rfl rfl rfl rfl rfl rfl (fun k h => by simp [h]) rfl rfl (fun _ h => h) rfl

/-- An act on the line of g that keeps engine, level and LUMEN timer. -/
theorem touch_onLineOf (g : Nat) (f : LineCtl → LineCtl) (s : State) (h1 : ∀ c, (f c).engine = c.engine)
    (h2 : ∀ c, (f c).level = c.level) (h3 : ∀ c, (f c).lumenTimer = c.lumenTimer) : Touch g s (s.onLineOf g f) := by
  cases hg : s.geo.gantries.look g with
  | none => rw [onLineOf_none f hg]; exact .refl g s
  | some r =>
    rw [onLineOf_eq f hg]
    refine ⟨by simp, by simp, by simp, by simp, by simp, by simp, by simp, by simp, by simp, fun k _ => by simp, ?_, ?_, ?_,
      ?_, fun id h => by simpa using h, by simp⟩
    · intro r' hr' l hl
      rw [hg] at hr'
      cases hr'
      exact line_onLine_other s f hl
    all_goals
      intro l
      by_cases e : l = r.line
      · subst e; simp [h1, h2, h3]
      · rw [line_onLine_other s f e]

theorem touch_evalGate (g n : Nat) (s : State) : Touch g s (s.evalGate n) := by
  unfold State.evalGate
  split
  · exact .refl g s
  · split
    · exact .refl g s
    · exact touch_onRollout ..

theorem touch_gatesBeside (g n : Nat) (s : State) : Touch g s (s.gatesBeside n) :=
  (touch_evalGate ..).trans (touch_evalGate ..)

theorem touch_depositConfirm (g : Nat) (s : State) : Touch g s (s.depositConfirm g) := by
  refine touch_onLineOf _ _ _ (fun c => ?_) (fun c => ?_) (fun c => ?_) <;>
    (unfold LineCtl.depositConfirm; split <;> rfl)

theorem touch_withdrawConfirm (g : Nat) (s : State) : Touch g s (s.withdrawConfirm g) :=
  touch_onLineOf _ _ _ (fun _ => rfl) (fun _ => rfl) (fun _ => rfl)

theorem touch_endConfirmation (g : Nat) (s : State) : Touch g s (s.endConfirmation g) :=
  (touch_onRollout ..).trans (touch_withdrawConfirm ..)

theorem touch_removePending (g : Nat) (s : State) : Touch g s (s.removePending g) :=
  (touch_onRollout ..).trans (touch_onLineOf _ _ _ (fun _ => rfl) (fun _ => rfl) (fun _ => rfl))

theorem touch_depositService (g : Nat) (j : Job) (s : State) : Touch g s (s.depositService g j) :=
  touch_onLineOf _ _ _ (fun _ => rfl) (fun _ => rfl) (fun _ => rfl)

theorem touch_createPending (g : Nat) (k : ShowKind) (as : List Aspect) (s : State) : Touch g s (s.createPending g k as) := by
  unfold State.createPending
  split
  · exact .refl g s
  · exact (((touch_removePending ..).trans (touch_onRollout ..)).trans
      (touch_onLineOf g (LineCtl.deposit _ _) _ (fun _ => rfl) (fun _ => rfl) (fun _ => rfl))).trans (touch_evalGate ..)

theorem touch_rolloutOnNode (g : Nat) (old new : NodeState) (s : State) : Touch g s (s.rolloutOnNode g old new) := by
  have h1 : Touch g s
      (if old = .online then
        let keepsRetry : Bool :=
          match s.rollout.look g with
          | some r => (match r.pending with | some p => p.retry | none => false)
          | none => false
        (if keepsRetry then s.onRollout g RolloutRec.clearGate else s.removePending g).endConfirmation g
      else s) := by
    split
    · simp only
      refine Touch.trans ?_ (touch_endConfirmation ..)
      repeat' split
      all_goals first
        | exact touch_onRollout ..
        | exact touch_removePending ..
    · exact .refl g s
  unfold State.rolloutOnNode
  refine h1.trans ?_
  generalize (if old = .online then _ else s : State) = s1
  simp only
  split
  · exact touch_onRollout ..
  · exact ((touch_removePending ..).trans (touch_onRollout ..)).trans (touch_withdrawConfirm ..)
  · exact (touch_removePending ..).trans (touch_onRollout ..)
  · split
    · split
      · exact .refl _ _
      · exact Touch.ite ((touch_onRollout ..).trans (touch_depositConfirm ..)) (.refl _ _)
    · exact .refl _ _
  · exact .refl _ _

theorem touch_measureOnNode (g n : Nat) (old new : NodeState) (s : State) : Touch g s (s.measureOnNode n old new) := by
  unfold State.measureOnNode
  split
  · exact .refl g s
  · exact Touch.ite (touch_onStation ..) (Touch.ite (touch_onStation ..) (.refl g s))

theorem touch_lineOnNode (g : Nat) (old new : NodeState) (s : State) : Touch g s (s.lineOnNode g old new) := by
  unfold State.lineOnNode
  split
  · exact touch_onLineOf _ _ _ (fun _ => rfl) (fun _ => rfl) (fun _ => rfl)
  · exact touch_onLineOf _ _ _ (fun _ => rfl) (fun _ => rfl) (fun _ => rfl)
  · exact touch_onLineOf _ _ _ (fun _ => rfl) (fun _ => rfl) (fun _ => rfl)
  · exact Touch.ite (touch_onLineOf _ _ _ (fun _ => rfl) (fun _ => rfl) (fun _ => rfl)) (.refl g s)
  · exact .refl g s

theorem touch_nodeEvent (g n : Nat) (old new : NodeState) (r : Reason) (m : Option Mismatch) (s : State) :
    Touch g s (s.nodeEvent n old new r m) := by
  unfold State.nodeEvent
  split
  · exact .refl g s
  · exact touch_raise ..

theorem touch_nodeRecord (g n : Nat) (new : NodeState) (r : Reason) (s : State) : Touch g s (s.nodeRecord n new r) := by
  unfold State.nodeRecord
  split
  · exact .refl g s
  · exact touch_record ..

theorem touch_nodeNotices (g n : Nat) (old new : NodeState) (r : Reason) (m : Option Mismatch) (b : Option NoticeBody)
    (s : State) : Touch g s (s.nodeNotices n old new r m b) := by
  unfold State.nodeNotices
  split
  · exact (touch_nodeEvent ..).trans (touch_nodeRecord ..)
  · simp only
    refine (touch_draw g s).trans ?_
    refine Touch.ite ?_ (Touch.ite ?_ ?_)
    · exact ((touch_raise ..).trans (touch_nodeEvent ..)).trans (touch_nodeRecord ..)
    · exact ((touch_nodeEvent ..).trans (touch_raise ..)).trans (touch_nodeRecord ..)
    · exact ((touch_nodeEvent ..).trans (touch_nodeRecord ..)).trans (touch_raise ..)

/-- The parts of a change of node state in their order, for a proof that follows them one by one. -/
theorem changeNode_eq {g : Nat} {new : NodeState} {r : Reason} {m : Option Mismatch} {s : State} {n : NodeRec}
    (hn : s.nodes.look g = some n) :
    ∃ s3 s4 s5 s6 : State,
      s3 = State.nodeNotices g n.state new r m (s.forgetNotice g new)
        (State.rolloutOnNode g n.state new (State.measureOnNode g n.state new (State.lineOnNode g n.state new
          { s with nodes := s.nodes.put g (n.moved new r m s.clock) }))) ∧
      s4 = (if new = .describing then s3.depositService g (if n.state = .offline then .caps 0 else .describe) else s3) ∧
      s5 = (if ((n.state == .online) != (new == .online)) || (s.forgetNotice g new).isSome then s4.gatesBeside g else s4) ∧
      s6 = (if (n.state == .online) != (new == .online) then s5.trigger else s5) ∧
      s.changeNode g new r m =
        (if new = .describing ∧ n.signs.any (·.confirmFailed) = true then s6.trigger else s6) := by
  refine ⟨_, _, _, _, rfl, rfl, rfl, rfl, ?_⟩
  simp only [State.changeNode, hn]

theorem touch_changeNode (g : Nat) (new : NodeState) (r : Reason) (m : Option Mismatch) (s : State) :
    Touch g s (s.changeNode g new r m) := by
  cases hn : s.nodes.look g with
  | none => simp only [State.changeNode, hn]; exact .refl g s
  | some n =>
    obtain ⟨s3, s4, s5, s6, h3, h4, h5, h6, h7⟩ := changeNode_eq (g := g) (new := new) (r := r) (m := m) hn
    rw [h7]
    have k3 : Touch g s s3 := by
      rw [h3]
      exact ((((touch_putNode ..).trans (touch_lineOnNode ..)).trans (touch_measureOnNode ..)).trans
        (touch_rolloutOnNode ..)).trans (touch_nodeNotices ..)
    have k4 : Touch g s3 s4 := by rw [h4]; exact Touch.ite (touch_depositService ..) (.refl _ _)
    have k5 : Touch g s4 s5 := by rw [h5]; exact Touch.ite (touch_gatesBeside ..) (.refl _ _)
    have k6 : Touch g s5 s6 := by rw [h6]; exact Touch.ite (touch_trigger ..) (.refl _ _)
    exact (((k3.trans k4).trans k5).trans k6).trans (Touch.ite (touch_trigger ..) (.refl _ _))

/-! ### The node records -/

@[simp] theorem raise_nodes (s : State) (b : NoticeBody) : (s.raise b).nodes = s.nodes := by
  rw [raise_frame]

@[simp] theorem record_nodes (s : State) (id : BankId) (c : ErrorCode) (v : Severity) (g st : Option Nat) : (s.record id c v g st).nodes = s.nodes := by
  rw [record_frame]

@[simp] theorem trigger_nodes (s : State)  : (s.trigger).nodes = s.nodes := by
  rw [trigger_frame]

@[simp] theorem evalGate_nodes (s : State) (g : Nat) : (s.evalGate g).nodes = s.nodes := by
  unfold State.evalGate; repeat' split
  all_goals rfl

@[simp] theorem gatesBeside_nodes (s : State) (g : Nat) : (s.gatesBeside g).nodes = s.nodes := by
  simp [State.gatesBeside]

@[simp] theorem withdrawConfirm_nodes (s : State) (g : Nat) : (s.withdrawConfirm g).nodes = s.nodes := by
  simp [State.withdrawConfirm]

@[simp] theorem depositConfirm_nodes (s : State) (g : Nat) : (s.depositConfirm g).nodes = s.nodes := by
  simp [State.depositConfirm]

@[simp] theorem endConfirmation_nodes (s : State) (g : Nat) : (s.endConfirmation g).nodes = s.nodes := by
  simp [State.endConfirmation]

@[simp] theorem removePending_nodes (s : State) (g : Nat) : (s.removePending g).nodes = s.nodes := by
  simp [State.removePending]

@[simp] theorem depositService_nodes (s : State) (g : Nat) (j : Job) : (s.depositService g j).nodes = s.nodes := by
  simp [State.depositService]

@[simp] theorem measureOnNode_nodes (s : State) (g : Nat) (old new : NodeState) : (s.measureOnNode g old new).nodes = s.nodes := by
  unfold State.measureOnNode; repeat' split
  all_goals rfl

@[simp] theorem lineOnNode_nodes (s : State) (g : Nat) (old new : NodeState) : (s.lineOnNode g old new).nodes = s.nodes := by
  unfold State.lineOnNode; repeat' split
  all_goals simp

@[simp] theorem rolloutOnNode_nodes (s : State) (g : Nat) (old new : NodeState) : (s.rolloutOnNode g old new).nodes = s.nodes := by
  unfold State.rolloutOnNode; dsimp only; repeat' split
  all_goals simp

@[simp] theorem nodeEvent_nodes (s : State) (g : Nat) (old new : NodeState) (r : Reason) (m : Option Mismatch) : (s.nodeEvent g old new r m).nodes = s.nodes := by
  unfold State.nodeEvent; split <;> simp

@[simp] theorem nodeRecord_nodes (s : State) (g : Nat) (new : NodeState) (r : Reason) : (s.nodeRecord g new r).nodes = s.nodes := by
  unfold State.nodeRecord; split <;> simp

@[simp] theorem nodeNotices_nodes (s : State) (g : Nat) (old new : NodeState) (r : Reason) (m : Option Mismatch) (b : Option NoticeBody) : (s.nodeNotices g old new r m b).nodes = s.nodes := by
  unfold State.nodeNotices; dsimp only; repeat' split
  all_goals simp

/-- The node record after a change of its state (R55). -/
theorem changeNode_nodes {g : Nat} {new : NodeState} {r : Reason} {m : Option Mismatch} {s : State} {n : NodeRec}
    (hn : s.nodes.look g = some n) :
    (s.changeNode g new r m).nodes = s.nodes.put g (n.moved new r m s.clock) := by
  obtain ⟨s3, s4, s5, s6, h3, h4, h5, h6, h7⟩ := changeNode_eq (g := g) (new := new) (r := r) (m := m) hn
  have k3 : s3.nodes = s.nodes.put g (n.moved new r m s.clock) := by rw [h3]; simp
  have k4 : s4.nodes = s3.nodes := by rw [h4]; split <;> simp
  have k5 : s5.nodes = s4.nodes := by rw [h5]; split <;> simp
  have k6 : s6.nodes = s5.nodes := by rw [h6]; split <;> simp
  rw [h7]
  split <;> simp [k6, k5, k4, k3]

/-! ### The lines -/

@[simp] theorem raise_line (s : State) (b : NoticeBody) (l : Line) : (s.raise b).line l = s.line l := by
  rw [raise_frame]; cases l <;> rfl

@[simp] theorem record_line (s : State) (id : BankId) (c : ErrorCode) (v : Severity) (g st : Option Nat) (l : Line) : (s.record id c v g st).line l = s.line l := by
  rw [record_frame]; cases l <;> rfl

@[simp] theorem trigger_line (s : State)  (l : Line) : (s.trigger).line l = s.line l := by
  rw [trigger_frame]; cases l <;> rfl

@[simp] theorem onRollout_line (s : State) (g : Nat) (f : RolloutRec → RolloutRec) (l : Line) : (s.onRollout g f).line l = s.line l := by
  cases l <;> rfl

@[simp] theorem onNode_line (s : State) (g : Nat) (f : NodeRec → NodeRec) (l : Line) : (s.onNode g f).line l = s.line l := by
  cases l <;> rfl

@[simp] theorem onStation_line (s : State) (g : Nat) (f : StationEntry → StationEntry) (l : Line) : (s.onStation g f).line l = s.line l := by
  cases l <;> rfl

@[simp] theorem draw_line (s : State)  (l : Line) : (s.draw.2).line l = s.line l := by
  cases l <;> rfl

@[simp] theorem evalGate_line (s : State) (g : Nat) (l : Line) : (s.evalGate g).line l = s.line l := by
  unfold State.evalGate; repeat' split
  all_goals simp

@[simp] theorem gatesBeside_line (s : State) (g : Nat) (l : Line) : (s.gatesBeside g).line l = s.line l := by
  simp [State.gatesBeside]

@[simp] theorem measureOnNode_line (s : State) (g : Nat) (old new : NodeState) (l : Line) : (s.measureOnNode g old new).line l = s.line l := by
  unfold State.measureOnNode; repeat' split
  all_goals simp

@[simp] theorem nodeEvent_line (s : State) (g : Nat) (old new : NodeState) (r : Reason) (m : Option Mismatch) (l : Line) : (s.nodeEvent g old new r m).line l = s.line l := by
  unfold State.nodeEvent; split <;> simp

@[simp] theorem nodeRecord_line (s : State) (g : Nat) (new : NodeState) (r : Reason) (l : Line) : (s.nodeRecord g new r).line l = s.line l := by
  unfold State.nodeRecord; split <;> simp

@[simp] theorem nodeNotices_line (s : State) (g : Nat) (old new : NodeState) (r : Reason) (m : Option Mismatch) (b : Option NoticeBody) (l : Line) : (s.nodeNotices g old new r m b).line l = s.line l := by
  unfold State.nodeNotices; dsimp only; repeat' split
  all_goals simp

/-- The lines after a change of node state: what the line controller and the rollout unit did, then the telegram a
description begins with. -/
theorem changeNode_line {g : Nat} {new : NodeState} {r : Reason} {m : Option Mismatch} {s : State} {n : NodeRec}
    (hn : s.nodes.look g = some n) (l : Line) :
    ∃ s2 : State, s2 = State.rolloutOnNode g n.state new (State.measureOnNode g n.state new
        (State.lineOnNode g n.state new { s with nodes := s.nodes.put g (n.moved new r m s.clock) })) ∧
      s2.geo = s.geo ∧
      (s.changeNode g new r m).line l =
        (if new = .describing then s2.depositService g (if n.state = .offline then .caps 0 else .describe) else s2).line
          l := by
  obtain ⟨s3, s4, s5, s6, h3, h4, h5, h6, h7⟩ := changeNode_eq (g := g) (new := new) (r := r) (m := m) hn
  refine ⟨_, rfl, ?_, ?_⟩
  · exact (((touch_putNode g _ s).trans (touch_lineOnNode ..)).trans (touch_measureOnNode ..)).trans
      (touch_rolloutOnNode ..) |>.geo
  · have k : ∀ u : State, ∀ w : State, w.geo = u.geo → (∀ l, w.line l = u.line l) → ∀ j,
        (w.depositService g j).line l = (u.depositService g j).line l := by
      intro u w hg hl j
      unfold State.depositService State.onLineOf
      rw [hg]
      split
      · exact hl l
      · rename_i r _
        by_cases e : l = r.line
        · subst e; simp [hl]
        · rw [line_onLine_other _ _ e, line_onLine_other _ _ e, hl]
    have k5 : s5.line l = s4.line l := by rw [h5]; split <;> simp
    have k6 : s6.line l = s5.line l := by rw [h6]; split <;> simp
    rw [h7]
    have k7 : (if new = .describing ∧ n.signs.any (·.confirmFailed) = true then s6.trigger else s6).line l = s4.line l := by
      split <;> simp [k6, k5]
    rw [k7, h4]
    split
    · rw [h3]
      exact k _ _ (touch_nodeNotices g ..).geo (fun l => by simp) _
    · rw [h3]; simp

end Sys2Proof.Machine
end

