-- ==== Sys2Proof/Laws/Gates.lean ====
section
/-! SUPPORT. The gates of the rollout unit (R161 to R163): what an evaluation does, said once in the words of the rule,
and what keeps a gate standing or evaluates it anew. -/

namespace Sys2Proof.Machine

/-! ### The conditions -/

theorem isCell_iff (a : Aspect) : a.isCell = true ↔ a.closes := by
  cases a <;> simp [Aspect.isCell, Aspect.closes]

theorem serviceable_iff (st : NodeState) (x : SignRec) : x.serviceable st = true ↔
    st = .online ∧ (x.health = some .ok ∨ x.health = some .degraded) ∧ x.confirmFailed = false := by
  simp [SignRec.serviceable, and_assoc]

theorem laneServiceable_iff (s : State) (m p : Nat) : s.laneServiceable m p = true ↔ s.laneTested m p := by
  unfold State.laneServiceable State.laneTested
  cases s.nodes.look m with
  | none => simp
  | some n =>
    simp only [Option.some.injEq]
    cases h : entryAt (s.kinds m) n.signs p with
    | none => simp [h]
    | some x => simp [h, serviceable_iff]

theorem confirmedLane_iff (s : State) (m p : Nat) (a : Aspect) : s.confirmedLane m p = some a ↔ s.laneConfirms m p a := by
  unfold State.confirmedLane State.laneConfirms
  cases s.rollout.look m with
  | none => simp
  | some r => simp [Option.join_eq_some_iff]

theorem entryIsCell_confirmed (s : State) (m p : Nat) :
    entryIsCell (s.confirmedLane m p) = true ↔ ∃ b, s.laneConfirms m p b ∧ b.closes := by
  simp only [← confirmedLane_iff, ← isCell_iff]
  cases s.confirmedLane m p <;> simp [entryIsCell]

theorem entryIsCell_join (x : Option (Option Aspect)) :
    entryIsCell x.join = true ↔ ∃ b, x = some (some b) ∧ b.closes := by
  simp only [← isCell_iff]
  rcases x with _ | _ | a <;> simp [entryIsCell]

theorem gateAdding_iff (s : State) (g p : Nat) (a : Aspect) (c : Option (Option Aspect)) :
    s.gateAdding g (some a) c.join p = true ↔ a = .closed ∧ c ≠ some (some .closed) ∧ g - 1 ∈ s.geo.contin ∧
      s.laneTested (g - 1) p ∧ ¬∃ b, s.laneConfirms (g - 1) p b ∧ b.closes := by
  have h : c.join = some .closed ↔ c = some (some .closed) := by rcases c with _ | _ | c <;> simp
  simp only [State.gateAdding, Bool.and_eq_true, beq_iff_eq, bne_iff_ne, ne_eq, Bool.not_eq_true',
    State.continuous, List.contains_iff_mem, laneServiceable_iff, Option.some.injEq, h, and_assoc,
    ← entryIsCell_confirmed, Bool.not_eq_true]

theorem gateRemoving_iff (s : State) (g p : Nat) (a : Aspect) (c : Option (Option Aspect)) :
    s.gateRemoving g (some a) c.join p = true ↔ ¬a.closes ∧ (∃ b, c = some (some b) ∧ b.closes) ∧ g ∈ s.geo.contin ∧
      s.laneTested (g + 1) p ∧ s.laneConfirms (g + 1) p .closed := by
  have h : entryIsCell (some a) = a.isCell := rfl
  simp only [State.gateRemoving, h, Bool.and_eq_true, beq_iff_eq, Bool.not_eq_true', State.continuous,
    List.contains_iff_mem, laneServiceable_iff, entryIsCell_join, confirmedLane_iff, ← isCell_iff, Bool.not_eq_true,
    and_assoc]

/-- R161: the model's condition is the rule's. -/
theorem gateHolds_iff (s : State) (g : Nat) (as : List Aspect) (cs : List (Option Aspect)) :
    s.gateHolds g as cs = true ↔ s.gateAsks g as cs := by
  unfold State.gateHolds State.gateAsks
  simp only [List.any_eq_true, List.mem_range]
  constructor
  · rintro ⟨p, hp, h⟩
    split at h
    · cases h
    · rename_i a ha
      rw [Bool.or_eq_true, gateAdding_iff, gateRemoving_iff] at h
      exact ⟨p, a, hp, ha, h⟩
  · rintro ⟨p, a, hp, ha, h⟩
    refine ⟨p, hp, ?_⟩
    rw [ha]
    simp only
    rw [Bool.or_eq_true, gateAdding_iff, gateRemoving_iff]
    exact h

/-! ### An evaluation -/

/-- What an evaluation of the gate of g does: the gate as R161 says, a timer from its first hold (R163), nothing else. -/
theorem evalGate_spec {s : State} {g : Nat} {r : RolloutRec} {q : Pending} (hr : s.rollout.look g = some r)
    (hq : r.pending = some q) :
    ∃ r', (s.evalGate g).rollout.look g = some r' ∧
      (r'.gateHeld = true ↔ r.gateExpired = false ∧ s.gateAsks g q.body.contents r.commanded) ∧
      r'.gateTimer = (if r'.gateHeld = true ∧ r.gateTimer = none then some 0 else r.gateTimer) ∧
      { r' with gateHeld := r.gateHeld, gateTimer := r.gateTimer } = r ∧
      (∀ k, k ≠ g → (s.evalGate g).rollout.look k = s.rollout.look k) ∧
      { s.evalGate g with rollout := s.rollout } = s := by
  simp only [State.evalGate, hr, hq]
  generalize hh : (!r.gateExpired && s.gateHolds g q.body.contents r.commanded) = h
  refine ⟨{ r with gateHeld := h, gateTimer := if h && r.gateTimer.isNone then some 0 else r.gateTimer },
    by simp [hr], ?_, ?_, rfl, fun k hk => by simp [hk], rfl⟩
  · simp [← hh, gateHolds_iff]
  · simp only [Bool.and_eq_true, Option.isNone_iff_eq_none]

/-- R50: an entry is eligible unless it is a SHOW whose gate is HELD, or its node is SUSPECT and it has no retry mark. -/
theorem eligible_iff (s : State) (e : Entry) : s.eligible e = true ↔
    ¬(e.job = .display ∧ ∃ r, s.rollout.look e.gantry = some r ∧ r.gateHeld = true) ∧
      ¬(e.retry = false ∧ ∃ n, s.nodes.look e.gantry = some n ∧ n.state = .suspect) := by
  have h : s.nodeState e.gantry = some .suspect ↔ ∃ n, s.nodes.look e.gantry = some n ∧ n.state = .suspect := by
    simp [State.nodeState]
  simp only [State.eligible, Bool.and_eq_true, Bool.or_eq_true, bne_iff_ne, ne_eq, h, Bool.not_eq_true']
  refine and_congr ?_ ?_
  · cases e.job <;> simp only [reduceCtorEq, false_and, not_false_eq_true, true_and]
    cases s.rollout.look e.gantry <;> simp
  · cases e.retry <;> simp

/-! ### What a gate reads -/

/-- The confirmed record of a gantry's rollout record, if it has one. -/
def State.seen (s : State) (m : Nat) : Option (List (Option Aspect)) := (s.rollout.look m).map (·.confirmed)

/-- What R161 reads of the rollout record whose gate is evaluated, and the gate itself. -/
def RolloutRec.gateKey (r : RolloutRec) : Option Pending × Bool × Option Nat × Bool × List (Option Aspect) :=
  (r.pending, r.gateHeld, r.gateTimer, r.gateExpired, r.commanded)

/-- The same of a gantry. -/
def State.gateKey (s : State) (k : Nat) : Option (Option Pending × Bool × Option Nat × Bool × List (Option Aspect)) :=
  (s.rollout.look k).map RolloutRec.gateKey

theorem kinds_congr {s t : State} (h : t.geo = s.geo) (m : Nat) : t.kinds m = s.kinds m := by
  simp [State.kinds, h]

theorem tested_congr {s t : State} {m : Nat} (hk : t.kinds m = s.kinds m) (hn : t.nodes.look m = s.nodes.look m) (p : Nat) :
    t.laneTested m p ↔ s.laneTested m p := by
  simp only [State.laneTested, hk, hn]

theorem confirms_congr {s t : State} {m : Nat} (hk : t.kinds m = s.kinds m) (hs : t.seen m = s.seen m) (p : Nat)
    (a : Aspect) : t.laneConfirms m p a ↔ s.laneConfirms m p a := by
  have e : ∀ u : State, u.laneConfirms m p a ↔ ∃ c, u.seen m = some c ∧ entryAt (u.kinds m) c p = some (some a) := by
    intro u
    unfold State.laneConfirms State.seen
    cases u.rollout.look m <;> simp
  rw [e, e, hk, hs]

/-- The gate of k stands where it and what it reads is as before. -/
theorem gateStands_congr {s t : State} {k : Nat} (hv : t.geo.contin = s.geo.contin) (hk : ∀ m, t.kinds m = s.kinds m)
    (hr : t.gateKey k = s.gateKey k)
    (ht : ∀ m, (m = k - 1 ∨ m = k + 1) → ∀ p, (t.laneTested m p ↔ s.laneTested m p))
    (hc : ∀ m, (m = k - 1 ∨ m = k + 1) → t.seen m = s.seen m) : t.gateStands k ↔ s.gateStands k := by
  have e : ∀ u : State, u.gateStands k ↔ ∀ q h w x c, u.gateKey k = some (some q, h, w, x, c) →
      (h = true ↔ x = false ∧ u.gateAsks k q.body.contents c) ∧ (h = true → w ≠ none) := by
    intro u
    unfold State.gateStands State.gateKey
    cases hu : u.rollout.look k with
    | none => simp
    | some r =>
      simp only [Option.some.injEq, Option.map_some, RolloutRec.gateKey, Prod.mk.injEq]
      constructor
      · rintro h q _ _ _ _ ⟨h1, rfl, rfl, rfl, rfl⟩
        exact h r q rfl h1
      · rintro h r' q rfl h1
        exact h q _ _ _ _ ⟨h1, rfl, rfl, rfl, rfl⟩
  have a : ∀ as cs, t.gateAsks k as cs ↔ s.gateAsks k as cs := by
    intro as cs
    unfold State.gateAsks
    simp only [hv, hk, ht (k - 1) (.inl rfl), ht (k + 1) (.inr rfl),
      confirms_congr (hk (k - 1)) (hc (k - 1) (.inl rfl)), confirms_congr (hk (k + 1)) (hc (k + 1) (.inr rfl))]
  rw [e, e, hr]
  simp only [a]

/-- An act that leaves all that gates read alone. -/
structure Calm (s t : State) : Prop where
  contin : t.geo.contin = s.geo.contin
  kinds : ∀ m, t.kinds m = s.kinds m
  nodes : ∀ m, t.nodes.look m = s.nodes.look m
  seen : ∀ m, t.seen m = s.seen m

theorem Calm.refl (s : State) : Calm s s := ⟨rfl, fun _ => rfl, fun _ => rfl, fun _ => rfl⟩

theorem Calm.trans {s t u : State} (h : Calm s t) (k : Calm t u) : Calm s u :=
  ⟨k.contin.trans h.contin, fun m => (k.kinds m).trans (h.kinds m), fun m => (k.nodes m).trans (h.nodes m),
    fun m => (k.seen m).trans (h.seen m)⟩

theorem Calm.ite {s t u : State} {p : Prop} [Decidable p] (h : Calm s t) (k : Calm s u) : Calm s (if p then t else u) := by
  split <;> assumption

theorem Calm.of_eq {s t : State} (h1 : t.geo = s.geo) (h2 : t.nodes = s.nodes) (h3 : t.rollout = s.rollout) : Calm s t :=
  ⟨by rw [h1], kinds_congr h1, fun m => by rw [h2], fun m => by rw [State.seen, h3]; rfl⟩

/-- A gate whose record is as before stands after such an act exactly if it stood. -/
theorem Calm.stands {s t : State} (h : Calm s t) {k : Nat} (hk : t.gateKey k = s.gateKey k) :
    t.gateStands k ↔ s.gateStands k :=
  gateStands_congr h.contin h.kinds hk (fun m _ => tested_congr (h.kinds m) (h.nodes m)) fun m _ => h.seen m

theorem calm_onRollout (g : Nat) (f : RolloutRec → RolloutRec) (s : State) (hf : ∀ r, (f r).confirmed = r.confirmed) :
    Calm s (s.onRollout g f) := by
  refine ⟨rfl, fun _ => rfl, fun _ => rfl, fun m => ?_⟩
  by_cases e : m = g
  · subst e; simp [State.seen, Function.comp_def, hf]
  · simp [State.seen, e]

theorem key_onRollout (g k : Nat) (f : RolloutRec → RolloutRec) (s : State) (h : k ≠ g ∨ ∀ r, (f r).gateKey = r.gateKey) :
    (s.onRollout g f).gateKey k = s.gateKey k := by
  by_cases e : k = g
  · subst e
    rcases h with h | h
    · exact absurd rfl h
    · simp [State.gateKey, Function.comp_def, h]
  · simp [State.gateKey, e]

theorem key_of_eq {s t : State} (h : t.rollout = s.rollout) (k : Nat) : t.gateKey k = s.gateKey k := by
  simp [State.gateKey, h]

/-- An act on the record of g that leaves what gates read. -/
theorem stands_onRollout (g : Nat) {k : Nat} (f : RolloutRec → RolloutRec) (s : State)
    (h1 : ∀ r, (f r).confirmed = r.confirmed) (h2 : ∀ r, (f r).gateKey = r.gateKey) (h : s.gateStands k) :
    (s.onRollout g f).gateStands k :=
  ((calm_onRollout g f s h1).stands (key_onRollout g k f s (.inr h2))).2 h

/-! ### Evaluations -/

theorem calm_evalGate (g : Nat) (s : State) : Calm s (s.evalGate g) := by
  unfold State.evalGate
  split
  · exact .refl s
  · split
    · exact .refl s
    · exact calm_onRollout _ _ _ fun _ => rfl

theorem key_evalGate {g k : Nat} (s : State) (h : k ≠ g) : (s.evalGate g).gateKey k = s.gateKey k := by
  unfold State.evalGate
  split
  · rfl
  · split
    · rfl
    · exact key_onRollout _ _ _ _ (.inl h)

/-- R161: right after its evaluation a gate stands. -/
theorem evalGate_stands (s : State) (g : Nat) : (s.evalGate g).gateStands g := by
  intro r' q hr' hq
  have hc := calm_evalGate g s
  cases hr : s.rollout.look g with
  | none => rw [show s.evalGate g = s by simp [State.evalGate, hr], hr] at hr'; cases hr'
  | some r =>
    cases hp : r.pending with
    | none =>
      rw [show s.evalGate g = s by simp [State.evalGate, hr, hp], hr] at hr'
      cases hr'
      rw [hp] at hq; cases hq
    | some q' =>
      obtain ⟨x, h1, h2, h3, h4, -, -⟩ := evalGate_spec hr hp
      rw [h1] at hr'
      cases hr'
      have hr0 : r = { r' with gateHeld := r.gateHeld, gateTimer := r.gateTimer } := h4.symm
      have e1 : r.pending = r'.pending := by rw [hr0]
      have e2 : r.gateExpired = r'.gateExpired := by rw [hr0]
      have e3 : r.commanded = r'.commanded := by rw [hr0]
      rw [e1, hq] at hp
      cases hp
      have a : (s.evalGate g).gateAsks g q.body.contents r'.commanded ↔ s.gateAsks g q.body.contents r'.commanded := by
        unfold State.gateAsks
        simp only [hc.contin, hc.kinds, tested_congr (hc.kinds _) (hc.nodes _), confirms_congr (hc.kinds _) (hc.seen _)]
      refine ⟨by rw [a, ← e2, ← e3]; exact h2, fun hh => ?_⟩
      rw [h3]
      split
      · simp
      · rename_i hn
        exact fun e => hn ⟨hh, e⟩

/-- An evaluation of any gate leaves one that stands standing. -/
theorem evalGate_keeps (s : State) (g k : Nat) (h : s.gateStands k) : (s.evalGate g).gateStands k := by
  by_cases e : k = g
  · subst e; exact evalGate_stands s k
  · exact ((calm_evalGate g s).stands (key_evalGate s e)).2 h

theorem calm_gatesBeside (g : Nat) (s : State) : Calm s (s.gatesBeside g) := (calm_evalGate ..).trans (calm_evalGate ..)

/-- R162: the gates of both neighbours stand after they are evaluated. -/
theorem gatesBeside_stands (s : State) {g k : Nat} (h : k = g - 1 ∨ k = g + 1) : (s.gatesBeside g).gateStands k := by
  rcases h with rfl | rfl
  · exact evalGate_keeps _ _ _ (evalGate_stands _ _)
  · exact evalGate_stands _ _

theorem gatesBeside_keeps (s : State) (g k : Nat) (h : s.gateStands k) : (s.gatesBeside g).gateStands k :=
  evalGate_keeps _ _ _ (evalGate_keeps _ _ _ h)

/-! ### Acts that leave all that gates read alone -/

theorem calm_raise (b : NoticeBody) (s : State) : Calm s (s.raise b) := by
  refine .of_eq ?_ ?_ ?_ <;> rw [raise_frame]

theorem calm_record (id : BankId) (c : ErrorCode) (v : Severity) (x st : Option Nat) (s : State) :
    Calm s (s.record id c v x st) := by
  refine .of_eq ?_ ?_ ?_ <;> rw [record_frame]

theorem calm_trigger (s : State) : Calm s s.trigger := by
  refine .of_eq ?_ ?_ ?_ <;> rw [trigger_frame]

@[simp] theorem raise_rollout (b : NoticeBody) (s : State) : (s.raise b).rollout = s.rollout := by rw [raise_frame]

@[simp] theorem record_rollout (id : BankId) (c : ErrorCode) (v : Severity) (x st : Option Nat) (s : State) :
    (s.record id c v x st).rollout = s.rollout := by rw [record_frame]

@[simp] theorem trigger_rollout (s : State) : s.trigger.rollout = s.rollout := by rw [trigger_frame]

@[simp] theorem lineOnNode_rollout (g : Nat) (old new : NodeState) (s : State) :
    (s.lineOnNode g old new).rollout = s.rollout := by
  unfold State.lineOnNode; repeat' split
  all_goals simp

@[simp] theorem measureOnNode_rollout (g : Nat) (old new : NodeState) (s : State) :
    (s.measureOnNode g old new).rollout = s.rollout := by
  unfold State.measureOnNode; repeat' split
  all_goals simp

@[simp] theorem nodeEvent_rollout (g : Nat) (old new : NodeState) (r : Reason) (m : Option Mismatch) (s : State) :
    (s.nodeEvent g old new r m).rollout = s.rollout := by
  unfold State.nodeEvent; split <;> simp

@[simp] theorem nodeRecord_rollout (g : Nat) (new : NodeState) (r : Reason) (s : State) :
    (s.nodeRecord g new r).rollout = s.rollout := by
  unfold State.nodeRecord; split <;> simp

@[simp] theorem nodeNotices_rollout (g : Nat) (old new : NodeState) (r : Reason) (m : Option Mismatch)
    (b : Option NoticeBody) (s : State) : (s.nodeNotices g old new r m b).rollout = s.rollout := by
  unfold State.nodeNotices; dsimp only; repeat' split
  all_goals simp

@[simp] theorem depositService_rollout (g : Nat) (j : Job) (s : State) : (s.depositService g j).rollout = s.rollout := by
  simp [State.depositService]

@[simp] theorem depositConfirm_rollout (g : Nat) (s : State) : (s.depositConfirm g).rollout = s.rollout := by
  simp [State.depositConfirm]

@[simp] theorem withdrawConfirm_rollout (g : Nat) (s : State) : (s.withdrawConfirm g).rollout = s.rollout := by
  simp [State.withdrawConfirm]

theorem calm_depositConfirm (g : Nat) (s : State) : Calm s (s.depositConfirm g) :=
  .of_eq (by simp [State.depositConfirm]) (by simp) (by simp)

theorem calm_withdrawConfirm (g : Nat) (s : State) : Calm s (s.withdrawConfirm g) :=
  .of_eq (by simp [State.withdrawConfirm]) (by simp) (by simp)

theorem calm_onLineOf (g : Nat) (f : LineCtl → LineCtl) (s : State) : Calm s (s.onLineOf g f) :=
  .of_eq (by simp) (by simp) (by simp)

theorem calm_onLine (l : Line) (f : LineCtl → LineCtl) (s : State) : Calm s (s.onLine l f) :=
  .of_eq (by simp) (by simp) (by simp)

theorem calm_endConfirmation (g : Nat) (s : State) : Calm s (s.endConfirmation g) :=
  Calm.trans (t := s.onRollout g RolloutRec.settle) (calm_onRollout _ _ _ fun _ => rfl) (calm_withdrawConfirm ..)

theorem key_endConfirmation (g k : Nat) (s : State) : (s.endConfirmation g).gateKey k = s.gateKey k :=
  (key_of_eq (s := s.onRollout g RolloutRec.settle) (withdrawConfirm_rollout ..) k).trans
    (key_onRollout g k RolloutRec.settle s (.inr fun _ => rfl))

theorem calm_removePending (g : Nat) (s : State) : Calm s (s.removePending g) :=
  Calm.trans (t := s.onRollout g RolloutRec.noPending) (calm_onRollout _ _ _ fun _ => rfl) (calm_onLineOf ..)

theorem key_removePending {g k : Nat} (s : State) (h : k ≠ g) : (s.removePending g).gateKey k = s.gateKey k :=
  (key_of_eq (s := s.onRollout g RolloutRec.noPending) (onLineOf_rollout ..) k).trans
    (key_onRollout g k RolloutRec.noPending s (.inl h))

/-- The pending SHOW of a gantry, if it has one. -/
def State.shows (s : State) (k : Nat) : Option Pending := (s.rollout.look k).bind (·.pending)

/-- Without a pending SHOW there is no gate. -/
theorem stands_of_none {s : State} {k : Nat} (h : s.shows k = none) : s.gateStands k := by
  intro r q hr hq
  rw [State.shows, hr] at h
  rw [Option.bind_some, hq] at h
  cases h

theorem shows_of_key {s t : State} {k : Nat} (h : t.gateKey k = s.gateKey k) : t.shows k = s.shows k := by
  have e : ∀ u : State, u.shows k = (u.gateKey k).bind (·.1) := by
    intro u
    unfold State.shows State.gateKey
    cases u.rollout.look k <;> rfl
  rw [e, e, h]

theorem removePending_shows (g : Nat) (s : State) : (s.removePending g).shows g = none := by
  simp only [State.removePending, State.shows, onLineOf_rollout, onRollout_rollout, look_adjust_self]
  cases s.rollout.look g <;> rfl

/-! ### Pending SHOWs created and replaced (R157) -/

/-- An act on the pending SHOW of g leaves what gates read, and the gates of the other gantries; the gate of g is as it
was or stands. -/
structure Shown (g : Nat) (s t : State) : Prop where
  calm : Calm s t
  others : ∀ k, k ≠ g → t.gateKey k = s.gateKey k
  own : t.gateKey g = s.gateKey g ∨ t.gateStands g

theorem Shown.refl (g : Nat) (s : State) : Shown g s s := ⟨.refl s, fun _ _ => rfl, .inl rfl⟩

theorem Shown.trans {g : Nat} {s t u : State} (h : Shown g s t) (k : Shown g t u) : Shown g s u := by
  refine ⟨h.calm.trans k.calm, fun m e => (k.others m e).trans (h.others m e), ?_⟩
  rcases k.own with e | e
  · rcases h.own with d | d
    · exact .inl (e.trans d)
    · exact .inr ((k.calm.stands e).2 d)
  · exact .inr e

theorem shown_endConfirmation (g : Nat) (s : State) : Shown g s (s.endConfirmation g) :=
  ⟨calm_endConfirmation .., fun _ _ => key_endConfirmation .., .inl (key_endConfirmation ..)⟩

theorem shown_removePending (g : Nat) (s : State) : Shown g s (s.removePending g) :=
  ⟨calm_removePending .., fun _ h => key_removePending s h, .inr (stands_of_none (removePending_shows g s))⟩

theorem shown_createPending (g : Nat) (k : ShowKind) (as : List Aspect) (s : State) : Shown g s (s.createPending g k as) := by
  unfold State.createPending
  split
  · exact .refl g s
  · dsimp only
    refine ⟨Calm.trans (Calm.trans ((calm_removePending g s).trans ?_) (calm_onLineOf ..)) (calm_evalGate ..),
      fun m hm => ?_, .inr (evalGate_stands _ _)⟩
    · exact calm_onRollout _ _ _ fun _ => rfl
    rw [key_evalGate _ hm]
    refine (key_of_eq (onLineOf_rollout ..) m).trans ?_
    refine (key_onRollout _ _ _ _ (.inl hm)).trans ?_
    exact key_removePending s hm

theorem shown_replacePending (g : Nat) (as : List Aspect) (s : State) : Shown g s (s.replacePending g as) := by
  unfold State.replacePending
  split
  · exact .refl g s
  · split
    · exact .refl g s
    · rename_i r _ p _
      dsimp only
      refine ⟨Calm.trans ?_ (calm_evalGate ..), fun m hm => ?_, .inr (evalGate_stands _ _)⟩
      · split
        · exact calm_onRollout _ _ _ fun _ => rfl
        · refine Calm.trans ?_ (calm_onLineOf ..)
          exact calm_onRollout _ _ _ fun _ => rfl
      · rw [key_evalGate _ hm]
        split
        · exact key_onRollout _ _ _ _ (.inl hm)
        · refine (key_of_eq (onLineOf_rollout ..) m).trans ?_
          exact key_onRollout _ _ _ _ (.inl hm)

theorem shown_compare (g : Nat) (s : State) : Shown g s (s.compare g) := by
  unfold State.compare
  split
  · exact .refl g s
  · simp only
    split
    · split
      · split
        · exact shown_removePending ..
        · exact .refl g s
      · exact .refl g s
    · split
      · exact (shown_endConfirmation ..).trans (shown_createPending ..)
      · split
        · exact .refl g s
        · exact (shown_endConfirmation ..).trans (shown_replacePending ..)

theorem shown_publish (g : Nat) (s : State) : Shown g s (s.publish g) := by
  unfold State.publish
  split
  · exact .refl g s
  · split
    · split
      · exact .refl g s
      · exact shown_compare ..
    · split
      · split
        · exact (shown_endConfirmation ..).trans (shown_replacePending ..)
        · exact .refl g s
      · exact .refl g s
    · exact .refl g s

theorem Shown.all {g : Nat} {s t : State} (h : Shown g s t) (k : Nat) : t.gateKey k = s.gateKey k ∨ t.gateStands k := by
  by_cases e : k = g
  · subst e; exact h.own
  · exact .inl (h.others k e)

/-- R157, R162: after a publication every gate is as it was or stands. -/
theorem publishAll_gates (gs : List Nat) (s : State) :
    Calm s (publishAll gs s) ∧ ∀ k, (publishAll gs s).gateKey k = s.gateKey k ∨ (publishAll gs s).gateStands k := by
  induction gs generalizing s with
  | nil => exact ⟨.refl s, fun _ => .inl rfl⟩
  | cons g gs ih =>
    have h := shown_publish g s
    obtain ⟨a, b⟩ := ih (s.publish g)
    refine ⟨h.calm.trans a, fun k => ?_⟩
    rcases b k with e | e
    · rcases h.all k with d | d
      · exact .inl (e.trans d)
      · exact .inr ((a.stands e).2 d)
    · exact .inr e

/-! ### A PLAN group taken in RUN (R11, R162, R163) -/

theorem evalGates_keeps (gs : List Nat) (s : State) (k : Nat) (h : s.gateStands k) : (evalGates gs s).gateStands k := by
  induction gs generalizing s with
  | nil => exact h
  | cons g gs ih => exact ih _ (evalGate_keeps s g k h)

/-- Every gate evaluated in turn stands at the end. -/
theorem evalGates_stands (gs : List Nat) (s : State) (k : Nat) (h : k ∈ gs) : (evalGates gs s).gateStands k := by
  induction gs generalizing s with
  | nil => cases h
  | cons g gs ih =>
    rcases List.mem_cons.1 h with rfl | h
    · rw [evalGates]
      exact evalGates_keeps _ _ _ (evalGate_stands _ _)
    · exact ih _ h

@[simp] theorem keys_evalGate (g : Nat) (s : State) : (s.evalGate g).rollout.keys = s.rollout.keys := by
  unfold State.evalGate
  repeat' split
  all_goals simp

theorem keys_evalGates (gs : List Nat) (s : State) : (evalGates gs s).rollout.keys = s.rollout.keys := by
  induction gs generalizing s with
  | nil => rfl
  | cons g gs ih => rw [evalGates, ih, keys_evalGate]

/-- An expiry leaves a gate that stands standing (R163). -/
theorem expireGate_keeps (s : State) (g k : Nat) (h : s.gateStands k) : (s.expireGate g).gateStands k := by
  have e : ∀ t : State, Calm (s.onRollout g fun r => { r with gateExpired := true, gateHeld := false }) t →
      t.rollout = (s.onRollout g fun r => { r with gateExpired := true, gateHeld := false }).rollout → t.gateStands k := by
    intro t ht hr
    refine (ht.stands (key_of_eq hr k)).2 ?_
    by_cases hk : k = g
    · subst hk
      intro r q h1 _
      simp only [onRollout_rollout, look_adjust_self, Option.map_eq_some_iff] at h1
      obtain ⟨r0, -, rfl⟩ := h1
      simp
    · refine (Calm.stands ?_ (key_onRollout _ _ _ _ (.inl hk))).2 h
      exact calm_onRollout _ _ _ fun _ => rfl
  unfold State.expireGate
  split
  · exact h
  · dsimp only
    split
    · exact e _ (calm_record ..) (record_rollout ..)
    · exact e _ (.refl _) rfl

theorem expireGates_keeps (gs : List Nat) (s : State) (k : Nat) (h : s.gateStands k) : (expireGates gs s).gateStands k := by
  induction gs generalizing s with
  | nil => exact h
  | cons g gs ih => exact ih _ (expireGate_keeps s g k h)

theorem calm_draw (s : State) : Calm s s.draw.2 := .of_eq rfl rfl rfl

theorem expireDue_keeps (s : State) (k : Nat) (h : s.gateStands k) : s.expireDue.gateStands k := by
  refine expireGates_keeps _ _ _ ?_
  unfold State.anyOrder
  split
  · exact h
  · exact ((calm_draw s).stands rfl).2 h

theorem expireGate_keys (g : Nat) (s : State) : (s.expireGate g).rollout.keys = s.rollout.keys := by
  unfold State.expireGate
  split
  · rfl
  · dsimp only
    split <;> simp

theorem expireDue_keys (s : State) : s.expireDue.rollout.keys = s.rollout.keys := by
  have e : ∀ (gs : List Nat) (t : State), (expireGates gs t).rollout.keys = t.rollout.keys := by
    intro gs
    induction gs with
    | nil => intro t; rfl
    | cons g gs ih => intro t; rw [expireGates, ih, expireGate_keys]
  unfold State.expireDue
  rw [e]
  unfold State.anyOrder
  split <;> rfl

theorem look_none_of_keys {α : Type} {t : Table α} {k : Nat} (h : k ∉ t.keys) : t.look k = none := by
  cases e : t.look k with
  | none => rfl
  | some v => exact absurd (List.mem_map.2 ⟨_, mem_of_look e, rfl⟩) h

/-- R11, R162: a PLAN group taken in RUN leaves every gate standing. -/
theorem planInRun_stands (v : PlanParams) (s : State) (k : Nat) : (s.planInRun v).gateStands k := by
  have key : ∀ s1 : State,
      (if s1.rollout.keys.any s1.gateDue then
        if Config.gateTimeFirst s1.draw.1 then evalGates s1.rollout.keys s1.draw.2.expireDue
        else (evalGates s1.rollout.keys s1.draw.2).expireDue
      else evalGates s1.rollout.keys s1).gateStands k := by
    intro s1
    by_cases hk : k ∈ s1.rollout.keys
    · split
      · split
        · exact evalGates_stands _ _ _ hk
        · exact expireDue_keeps _ _ (evalGates_stands _ _ _ hk)
      · exact evalGates_stands _ _ _ hk
    · refine stands_of_none ?_
      unfold State.shows
      rw [look_none_of_keys (t := State.rollout _)]
      · rfl
      · split
        · split
          · rwa [keys_evalGates, expireDue_keys]
          · rwa [expireDue_keys, keys_evalGates]
        · rwa [keys_evalGates]
  unfold State.planInRun
  exact ((calm_trigger _).stands (key_of_eq (trigger_rollout _) k)).2 (key _)

/-! ### What gantry g shows, or its serviceability, changes (R162) -/

/-- R162: the confirmed record of g, or the serviceability of one of its lane signals, is no longer what it was. -/
def State.changedAt (g : Nat) (s t : State) : Prop :=
  (∃ p, ¬(t.laneTested g p ↔ s.laneTested g p)) ∨ t.seen g ≠ s.seen g

/-- An act on gantry g leaves what gates read of the other gantries; where what they read of g changes, the gates of its
neighbours stand afterwards, and a gate of a neighbour that stood stands. -/
structure Settles (g : Nat) (s t : State) : Prop where
  contin : t.geo.contin = s.geo.contin
  kinds : ∀ m, t.kinds m = s.kinds m
  nodes : ∀ m, m ≠ g → t.nodes.look m = s.nodes.look m
  seen : ∀ m, m ≠ g → t.seen m = s.seen m
  fresh : State.changedAt g s t → ∀ k, (k + 1 = g ∨ k = g + 1) → t.gateStands k
  kept : ∀ k, (k + 1 = g ∨ k = g + 1) → s.gateStands k → t.gateStands k

theorem Settles.trans {g : Nat} {s t u : State} (h : Settles g s t) (k : Settles g t u) : Settles g s u where
  contin := k.contin.trans h.contin
  kinds := fun m => (k.kinds m).trans (h.kinds m)
  nodes := fun m e => (k.nodes m e).trans (h.nodes m e)
  seen := fun m e => (k.seen m e).trans (h.seen m e)
  kept := fun m e x => k.kept m e (h.kept m e x)
  fresh := by
    intro c m hm
    by_cases d : State.changedAt g t u
    · exact k.fresh d m hm
    · refine k.kept m hm (h.fresh ?_ m hm)
      simp only [State.changedAt, not_or, not_exists, not_not] at d
      rcases c with ⟨p, hp⟩ | hp
      · exact .inl ⟨p, by rw [← d.1 p]; exact hp⟩
      · exact .inr (by rw [← d.2]; exact hp)

/-- What gates read of g is as before, and so are the gates of the neighbours. -/
theorem Settles.of_same {g : Nat} {s t : State} (h1 : t.geo.contin = s.geo.contin) (h2 : ∀ m, t.kinds m = s.kinds m)
    (h3 : ∀ m, m ≠ g → t.nodes.look m = s.nodes.look m) (h4 : ∀ m, t.seen m = s.seen m)
    (h5 : ∀ p, t.laneTested g p ↔ s.laneTested g p)
    (h6 : ∀ k, (k + 1 = g ∨ k = g + 1) → t.gateKey k = s.gateKey k) : Settles g s t where
  contin := h1
  kinds := h2
  nodes := h3
  seen := fun m _ => h4 m
  fresh := by
    rintro (⟨p, hp⟩ | hp)
    · exact absurd (h5 p) hp
    · exact absurd (h4 g) hp
  kept := by
    intro k hk
    refine (gateStands_congr h1 h2 (h6 k hk) (fun m _ p => ?_) fun m _ => h4 m).2
    by_cases e : m = g
    · subst e; exact h5 p
    · exact tested_congr (h2 m) (h3 m e) p

theorem Settles.refl (g : Nat) (s : State) : Settles g s s :=
  .of_same rfl (fun _ => rfl) (fun _ _ => rfl) (fun _ => rfl) (fun _ => .rfl) fun _ _ => rfl

theorem Settles.ite {g : Nat} {s t u : State} {p : Prop} [Decidable p] (h : Settles g s t) (k : Settles g s u) :
    Settles g s (if p then t else u) := by
  split <;> assumption

theorem Calm.settles {g : Nat} {s t : State} (h : Calm s t)
    (hk : ∀ k, (k + 1 = g ∨ k = g + 1) → t.gateKey k = s.gateKey k) : Settles g s t :=
  .of_same h.contin h.kinds (fun m _ => h.nodes m) h.seen (tested_congr (h.kinds g) (h.nodes g)) hk

theorem Shown.settles {g : Nat} {s t : State} (h : Shown g s t) : Settles g s t :=
  h.calm.settles fun k hk => h.others k (by omega)

/-- R162: a change at g after which the gates beside g are evaluated. -/
theorem Settles.beside {g : Nat} {s t : State} (h1 : t.geo.contin = s.geo.contin) (h2 : ∀ m, t.kinds m = s.kinds m)
    (h3 : ∀ m, m ≠ g → t.nodes.look m = s.nodes.look m) (h4 : ∀ m, m ≠ g → t.seen m = s.seen m) :
    Settles g s (t.gatesBeside g) :=
  have c := calm_gatesBeside g t
  have e : ∀ k, (k + 1 = g ∨ k = g + 1) → (t.gatesBeside g).gateStands k := fun _ hk =>
    gatesBeside_stands t (by omega)
  ⟨c.contin.trans h1, fun m => (c.kinds m).trans (h2 m), fun m x => (c.nodes m).trans (h3 m x),
    fun m x => (c.seen m).trans (h4 m x), fun _ => e, fun k hk _ => e k hk⟩

/-- An act that leaves geometry, nodes and rollout records alone. -/
theorem Settles.of_eq {g : Nat} {s t : State} (h1 : t.geo = s.geo) (h2 : t.nodes = s.nodes) (h3 : t.rollout = s.rollout) :
    Settles g s t :=
  (Calm.of_eq h1 h2 h3).settles fun k _ => key_of_eq h3 k

theorem settles_record (g : Nat) (id : BankId) (c : ErrorCode) (v : Severity) (x st : Option Nat) (s : State) :
    Settles g s (s.record id c v x st) := (calm_record ..).settles fun k _ => key_of_eq (record_rollout ..) k

theorem settles_trigger (g : Nat) (s : State) : Settles g s s.trigger :=
  (calm_trigger _).settles fun k _ => key_of_eq (trigger_rollout _) k

theorem settles_onLine (g : Nat) (l : Line) (f : LineCtl → LineCtl) (s : State) : Settles g s (s.onLine l f) :=
  .of_eq (by simp) (by simp) (by simp)

theorem settles_onLineOf (g m : Nat) (f : LineCtl → LineCtl) (s : State) : Settles g s (s.onLineOf m f) :=
  .of_eq (by simp) (by simp) (by simp)

theorem settles_onRollout (g : Nat) (f : RolloutRec → RolloutRec) (s : State) (hf : ∀ r, (f r).confirmed = r.confirmed) :
    Settles g s (s.onRollout g f) :=
  (calm_onRollout _ _ _ hf).settles fun _ hk => key_onRollout _ _ _ _ (.inl (by omega))

theorem Settles.record {g : Nat} {s t : State} (h : Settles g s t) (id : BankId) (c : ErrorCode) (v : Severity)
    (x st : Option Nat) : Settles g s (t.record id c v x st) := h.trans (settles_record ..)

theorem Settles.trigger {g : Nat} {s t : State} (h : Settles g s t) : Settles g s t.trigger := h.trans (settles_trigger ..)

theorem Settles.onLine {g : Nat} {s t : State} (h : Settles g s t) (l : Line) (f : LineCtl → LineCtl) :
    Settles g s (t.onLine l f) := h.trans (settles_onLine ..)

theorem Settles.onRollout {g : Nat} {s t : State} (h : Settles g s t) (f : RolloutRec → RolloutRec)
    (hf : ∀ r, (f r).confirmed = r.confirmed) : Settles g s (t.onRollout g f) := h.trans (settles_onRollout _ _ _ hf)

/-! ### A change of node state -/

theorem rolloutOnNode_other (g : Nat) (old new : NodeState) (s : State) {m : Nat} (h : m ≠ g) :
    (s.rolloutOnNode g old new).rollout.look m = s.rollout.look m := by
  unfold State.rolloutOnNode State.endConfirmation State.removePending
  dsimp only
  repeat' split
  all_goals simp [h]

theorem rolloutOnNode_seen (g : Nat) (old new : NodeState) (s : State) :
    (s.rolloutOnNode g old new).seen g =
      if new = .offline ∨ new = .disabled then (s.seen g).map unknown else s.seen g := by
  unfold State.rolloutOnNode State.endConfirmation State.removePending State.seen
  dsimp only
  repeat' split
  all_goals simp_all [Function.comp_def, RolloutRec.settle, RolloutRec.clearGate, RolloutRec.noPending]

theorem unknown_of_not_known {es : List (Option Aspect)} (h : anyKnown es = false) : unknown es = es := by
  induction es with
  | nil => rfl
  | cons e es ih =>
    simp only [anyKnown, List.any_cons, Bool.or_eq_false_iff] at h
    have := ih h.2
    simp only [unknown, List.map_cons] at this ⊢
    rw [this]
    cases e with
    | none => rfl
    | some a => simp at h

/-- R162: a change of node state settles the gates beside. -/
theorem settles_changeNode (g : Nat) (new : NodeState) (r : Reason) (m : Option Mismatch) (s : State) :
    Settles g s (s.changeNode g new r m) := by
  cases hn : s.nodes.look g with
  | none => simp only [State.changeNode, hn]; exact .refl g s
  | some n =>
    obtain ⟨s3, s4, s5, s6, h3, h4, h5, h6, h7⟩ := changeNode_eq (g := g) (new := new) (r := r) (m := m) hn
    have n3 : s3.nodes = s.nodes.put g (n.moved new r m s.clock) := by rw [h3]; simp
    have g3 : s3.geo = s.geo := by
      rw [h3]
      exact (((((touch_putNode g ..).trans (touch_lineOnNode ..)).trans (touch_measureOnNode ..)).trans
        (touch_rolloutOnNode ..)).trans (touch_nodeNotices ..)).geo
    have o3 : ∀ k, k ≠ g → s3.rollout.look k = s.rollout.look k := by
      intro k hk
      rw [h3, nodeNotices_rollout, rolloutOnNode_other _ _ _ _ hk]
      simp
    have v3 : s3.seen g = if new = .offline ∨ new = .disabled then (s.seen g).map unknown else s.seen g := by
      have : s3.seen g = (State.rolloutOnNode g n.state new (State.measureOnNode g n.state new (State.lineOnNode g n.state
          new { s with nodes := s.nodes.put g (n.moved new r m s.clock) }))).seen g := by
        rw [h3, State.seen, nodeNotices_rollout]; rfl
      rw [this, rolloutOnNode_seen]
      simp [State.seen]
    have c4 : Calm s3 s4 ∧ s4.rollout = s3.rollout := by
      rw [h4]; split
      · exact ⟨calm_onLineOf .., depositService_rollout ..⟩
      · exact ⟨.refl _, rfl⟩
    have k4 : ∀ m, s4.kinds m = s.kinds m := fun m => (c4.1.kinds m).trans (kinds_congr g3 m)
    have e4 : s4.geo.contin = s.geo.contin := c4.1.contin.trans (by rw [g3])
    have d4 : ∀ k, k ≠ g → s4.nodes.look k = s.nodes.look k := by
      intro k hk; rw [c4.1.nodes, n3]; simp [hk]
    have w4 : ∀ k, k ≠ g → s4.seen k = s.seen k := by
      intro k hk; rw [c4.1.seen, State.seen, o3 k hk]; rfl
    have t5 : Settles g s s5 := by
      rw [h5]
      split
      · exact .beside e4 k4 d4 w4
      · rename_i hc
        simp only [Bool.or_eq_true, bne_iff_ne, ne_eq, not_or, Decidable.not_not, Bool.not_eq_true,
          Option.isSome_eq_false_iff, Option.isNone_iff_eq_none] at hc
        refine .of_same e4 k4 d4 (fun k => ?_) (fun p => ?_) fun k hk => ?_
        · by_cases hk : k = g
          · subst hk
            rw [c4.1.seen, v3]
            split
            · rename_i ho
              have hs := hc.2
              simp only [State.forgetNotice, ho, true_and, State.confirmed] at hs
              unfold State.seen
              cases hr : s.rollout.look k with
              | none => rfl
              | some x =>
                simp only [hr] at hs
                have : anyKnown x.confirmed = false := by
                  by_contra hh
                  simp only [Bool.not_eq_false] at hh
                  simp [hh] at hs
                simp [unknown_of_not_known this]
            · rfl
          · exact w4 k hk
        · have hl : s4.nodes.look g = some (n.moved new r m s.clock) := by rw [c4.1.nodes, n3]; simp
          unfold State.laneTested
          rw [k4, hl, hn]
          simp only [Option.some.injEq, exists_and_left, exists_eq_left']
          have ho : (n.state == NodeState.online) = (new == NodeState.online) := hc.1
          by_cases hnew : new = .online
          · subst hnew
            have : n.state = .online := by simpa using ho
            simp [NodeRec.moved, this]
          · have : n.state ≠ .online := by
              intro e; rw [e] at ho; exact hnew (by simpa using ho.symm)
            simp [NodeRec.moved, this, hnew]
        · rw [key_of_eq c4.2 k]
          unfold State.gateKey
          rw [o3 k (by omega)]
    have t6 : Settles g s s6 := by rw [h6]; exact .ite (t5.trans (settles_trigger ..)) t5
    rw [h7]
    exact .ite (t6.trans (settles_trigger ..)) t6

/-! ### The node registry -/

/-- What serviceability reads of a sign record (R71). -/
def SignRec.core (r : SignRec) : Option Health × Bool := (r.health, r.confirmFailed)

theorem entryAt_map {α β : Type} (f : α → β) (ks : List SignKind) (xs : List α) (p : Nat) :
    entryAt ks (xs.map f) p = (entryAt ks xs p).map f := by
  induction ks generalizing xs with
  | nil => cases xs <;> rfl
  | cons k ks ih =>
    cases xs with
    | nil => rfl
    | cons x xs =>
      simp only [List.map_cons, entryAt]
      split
      · rfl
      · exact ih xs

/-- Serviceability reads the node's state and the core of its sign records alone. -/
theorem tested_of_core {s t : State} {g : Nat} (hk : t.kinds g = s.kinds g)
    (h : (t.nodes.look g).map (fun n => (n.state, n.signs.map SignRec.core)) =
      (s.nodes.look g).map (fun n => (n.state, n.signs.map SignRec.core))) (p : Nat) :
    t.laneTested g p ↔ s.laneTested g p := by
  have e : ∀ u : State, u.laneTested g p ↔ ∃ ss c,
      (u.nodes.look g).map (fun n => (n.state, n.signs.map SignRec.core)) = some (NodeState.online, ss) ∧
        entryAt (u.kinds g) ss p = some c ∧ (c.1 = some .ok ∨ c.1 = some .degraded) ∧ c.2 = false := by
    intro u
    unfold State.laneTested
    cases u.nodes.look g with
    | none => simp
    | some n =>
      simp only [Option.some.injEq, Option.map_some, Prod.mk.injEq]
      constructor
      · rintro ⟨_, x, rfl, h1, h2, h3, h4⟩
        exact ⟨_, x.core, ⟨h2, rfl⟩, by rw [entryAt_map, h1]; rfl, h3, h4⟩
      · rintro ⟨_, c, ⟨h2, rfl⟩, h1, h3, h4⟩
        rw [entryAt_map, Option.map_eq_some_iff] at h1
        obtain ⟨x, hx, rfl⟩ := h1
        exact ⟨_, x, rfl, hx, h2, h3, h4⟩
  rw [e, e, h, hk]

theorem settles_onNode (g : Nat) (f : NodeRec → NodeRec) (s : State)
    (hf : ∀ n, s.nodes.look g = some n → (f n).state = n.state ∧ (f n).signs.map SignRec.core = n.signs.map SignRec.core) :
    Settles g s (s.onNode g f) := by
  refine .of_same rfl (fun _ => rfl) (fun m hm => by simp [hm]) (fun _ => rfl) (tested_of_core rfl ?_) fun _ _ => rfl
  simp only [onNode_nodes, look_adjust_self, Option.map_map]
  cases hn : s.nodes.look g with
  | none => rfl
  | some n => simp [hf n hn]

theorem settles_nodeSucceeded (g : Nat) (retry : Bool) (s : State) : Settles g s (s.nodeSucceeded g retry) :=
  .ite (settles_changeNode ..) (.refl g s)

theorem settles_depositService (g : Nat) (j : Job) (s : State) : Settles g s (s.depositService g j) :=
  settles_onLineOf ..

theorem settles_nextStep (g : Nat) (st : DescStep) (s : State) : Settles g s (s.nextStep g st) :=
  Settles.trans (t := s.onNode g fun n => { n with step := some st }) (settles_onNode _ _ _ fun _ _ => ⟨rfl, rfl⟩)
    (settles_depositService ..)

theorem settles_offlineMismatch (g : Nat) (m : Mismatch) (n : NodeRec) (s : State) :
    Settles g s (s.offlineMismatch g m n) := by
  unfold State.offlineMismatch
  dsimp only
  have h1 := settles_onNode g (fun n => { n with retry := some 0 }) s fun _ _ => ⟨rfl, rfl⟩
  refine .ite h1 (h1.trans ?_)
  refine (settles_onNode g (fun n => { n with reason := .describeMismatch, mismatch := some m }) _
    fun _ _ => ⟨rfl, rfl⟩).trans ?_
  exact .of_eq ((touch_nodeEvent g ..).trans (touch_nodeRecord g ..)).geo (by simp) (by simp)

theorem settles_described (g : Nat) (r : DescribeReply) (s : State) : Settles g s (s.described g r) := by
  unfold State.described
  split
  · exact .refl g s
  · split
    · exact .ite (settles_nextStep ..) (.refl g s)
    · exact .ite (settles_changeNode ..) (.refl g s)
    · exact settles_changeNode ..
    · exact settles_offlineMismatch ..
    · exact .refl g s

theorem map_core_set (xs : List SignRec) (i : Nat) (r r' : SignRec) (h : xs[i]? = some r) (hr : r'.core = r.core) :
    (xs.set i r').map SignRec.core = xs.map SignRec.core := by
  rw [List.map_set, hr]
  obtain ⟨hi, rfl⟩ := List.getElem?_eq_some_iff.1 h
  rw [← List.getElem_map SignRec.core (h := by simpa using hi)]
  exact List.set_getElem_self _

theorem settles_capsTaken (g i : Nat) (es : List Aspect) (s : State) : Settles g s (s.capsTaken g i es) := by
  unfold State.capsTaken
  split
  · rename_i n k hn _
    split
    · exact .refl g s
    · rename_i r hr
      dsimp only
      have h1 := settles_onNode g (fun n => { n with signs := n.signs.set i { r with caps := keepCaps k [] es } }) s
        fun m hm => ⟨rfl, by rw [hn] at hm; cases hm; exact map_core_set _ _ r _ hr rfl⟩
      refine h1.trans ?_
      generalize State.onNode g _ s = s1
      have h2 := Settles.ite (p := es.any (fun a => !Aspect.fits k a) = true)
        (settles_record g (s1.bankOf g) .badCapability .warn (some g) none s1) (.refl g s1)
      refine h2.trans ?_
      generalize (if es.any (fun a => !Aspect.fits k a) = true then _ else s1 : State) = s2
      have h3 := Settles.ite (p := sameSet r.caps (keepCaps k [] es) = true) (.refl g s2) (settles_trigger g s2)
      exact h3.trans (.ite (settles_nextStep ..) (.refl _ _))
  · exact .refl g s

theorem map_core_takeReports (rs : List SignRec) (xs : List (Health × Aspect)) (h : healthChanges rs xs = false) :
    (takeReports rs xs).map SignRec.core = rs.map SignRec.core := by
  induction rs generalizing xs with
  | nil => cases xs <;> rfl
  | cons r rs ih =>
    cases xs with
    | nil => rfl
    | cons x xs =>
      simp only [healthChanges, Bool.or_eq_false_iff, bne_eq_false_iff_eq] at h
      simp only [takeReports, List.map_cons, ih xs h.2, SignRec.core, SignRec.report, h.1]

theorem settles_takeSigns (g : Nat) (xs : List (Health × Aspect)) (s : State) : Settles g s (s.takeSigns g xs) := by
  unfold State.takeSigns
  split
  · exact .refl g s
  · rename_i n hn
    dsimp only
    split
    · refine Settles.trigger (.beside rfl (fun _ => rfl) (fun m hm => ?_) fun _ _ => rfl)
      simp [hm]
    · rename_i hc
      refine settles_onNode g _ s fun m hm => ⟨rfl, ?_⟩
      rw [hn] at hm
      cases hm
      exact map_core_takeReports _ _ (by simpa using hc)

theorem settles_stateTaken (g : Nat) (retry : Bool) (r : StateReply) (s : State) : Settles g s (s.stateTaken g retry r) := by
  unfold State.stateTaken
  dsimp only
  have h1 : Settles g s (if r.restarted && (s.nodeState g == some .online || s.nodeState g == some .suspect) then s
      else s.nodeSucceeded g retry) := .ite (.refl g s) (settles_nodeSucceeded ..)
  refine (h1.trans (settles_takeSigns g r.signs _)).trans ?_
  split
  · exact settles_changeNode ..
  · split
    · exact .refl _ _
    · exact .ite (settles_changeNode ..) (.refl _ _)

/-! ### The rollout unit -/

theorem settles_applyMarks (g : Nat) (f : List SignRec → List SignRec) (s : State) : Settles g s (s.applyMarks g f) := by
  unfold State.applyMarks
  split
  · exact .refl g s
  · split
    · exact .refl g s
    · refine Settles.trigger (.beside rfl (fun _ => rfl) (fun m hm => ?_) fun _ _ => rfl)
      simp [hm]

theorem settles_confirmFailed (g : Nat) (as : List Aspect) (s : State) : Settles g s (s.confirmFailed g as) := by
  unfold State.confirmFailed
  split
  · exact .refl g s
  · dsimp only
    refine .onRollout (.record (.trans ?_ (settles_applyMarks ..)) ..) _ fun _ => rfl
    exact settles_onRollout _ _ _ fun _ => rfl

theorem settles_judge (g : Nat) (poll : Bool) (as : List Aspect) (s : State) : Settles g s (s.judge g poll as) := by
  unfold State.judge
  split
  · exact .refl g s
  · rename_i r _
    dsimp only
    split
    · exact .refl g s
    · split
      · exact (shown_endConfirmation ..).settles
      · split
        · have h1 := settles_onRollout g (fun r => { r with polls := r.polls + 1 }) s fun _ => rfl
          generalize State.onRollout g _ s = s1 at h1 ⊢
          split
          · exact h1.trans (settles_onLineOf ..)
          · refine h1.trans ?_
            unfold State.roundFailed
            split
            · exact .refl _ _
            · split
              · refine Settles.trans ?_ (shown_createPending ..).settles
                exact settles_onRollout _ _ _ fun _ => rfl
              · exact settles_confirmFailed ..
        · exact .refl g s
    · split
      · have h1 := settles_onRollout g RolloutRec.settle s fun _ => rfl
        split
        · exact .ite (h1.trans (shown_removePending ..).settles) h1
        · exact h1
      · exact .refl g s

theorem settles_clearRecovered (g : Nat) (as : List Aspect) (s : State) : Settles g s (s.clearRecovered g as) := by
  unfold State.clearRecovered
  split
  · exact .refl g s
  · split
    · exact .refl g s
    · refine Settles.trans ?_ (settles_applyMarks ..)
      exact settles_onRollout _ _ _ fun _ => rfl

theorem settles_rolloutState (g : Nat) (poll : Bool) (as : List Aspect) (s : State) :
    Settles g s (s.rolloutState g poll as) := by
  unfold State.rolloutState
  split
  · exact .refl g s
  · dsimp only
    refine Settles.trans (t := State.judge g poll as _) (Settles.trans ?_ (settles_judge ..)) (settles_clearRecovered ..)
    split
    · exact .refl g s
    · refine .beside (by rw [raise_frame]; rfl) (fun m => (calm_raise ..).kinds m) (fun m _ => (calm_raise ..).nodes m)
        fun m hm => ?_
      simp [State.seen, hm]

/-! ### The rows of the gantry lines -/

theorem settles_showAccepted (g : Nat) (b : ShowBody) (s : State) : Settles g s (s.showAccepted g b) := by
  unfold State.showAccepted
  dsimp only
  refine Settles.trans (t := State.depositConfirm g _) (Settles.trans ?_ (settles_onLineOf ..)) (shown_compare ..).settles
  exact settles_onRollout _ _ _ fun _ => rfl

theorem settles_handAccepted (f : Flight) (s : State) : Settles f.gantry s (s.handAccepted f) := by
  unfold State.handAccepted
  dsimp only
  split
  · exact settles_nodeSucceeded ..
  · exact (settles_nodeSucceeded ..).trans (settles_showAccepted ..)

theorem settles_handState (l : Line) (f : Flight) (r : StateReply) (s : State) : Settles f.gantry s (s.handState l f r) :=
  ((settles_stateTaken ..).trans (settles_onLine ..)).trans (settles_rolloutState ..)

/-- The passages of a station change neither geometry, nodes nor rollout records. -/
structure Outside (s t : State) : Prop where
  geo : t.geo = s.geo
  nodes : t.nodes = s.nodes
  rollout : t.rollout = s.rollout

theorem Outside.refl (s : State) : Outside s s := ⟨rfl, rfl, rfl⟩

theorem Outside.trans {s t u : State} (h : Outside s t) (k : Outside t u) : Outside s u :=
  ⟨k.geo.trans h.geo, k.nodes.trans h.nodes, k.rollout.trans h.rollout⟩

theorem outside_raise (b : NoticeBody) (s : State) : Outside s (s.raise b) := by
  constructor <;> rw [raise_frame]

theorem outside_record (id : BankId) (c : ErrorCode) (v : Severity) (x st : Option Nat) (s : State) :
    Outside s (s.record id c v x st) := by
  constructor <;> rw [record_frame]

theorem outside_trigger (s : State) : Outside s s.trigger := by
  constructor <;> rw [trigger_frame]

theorem outside_incidentChanged (is : Table Incident) (c : IncidentChange) (h : Nat) (r : Incident) (p : Option Nat)
    (s : State) : Outside s (s.incidentChanged is c h r p) :=
  Outside.trans (t := { s with incidents := is }) ⟨rfl, rfl, rfl⟩ ((outside_raise ..).trans (outside_trigger _))

theorem outside_raiseOrTrack (st : Nat) (s : State) : Outside s (s.raiseOrTrack st) := by
  unfold State.raiseOrTrack
  dsimp only
  split
  · exact outside_incidentChanged ..
  · split
    · exact outside_incidentChanged ..
    · exact outside_record ..

theorem outside_edgesLost (st : Nat) (s : State) : Outside s (s.edgesLost st) :=
  .trans (t := s.onStation st _) ⟨rfl, rfl, rfl⟩ (outside_record ..)

theorem outside_laneEvents (st lane : Nat) (es : List LaneEvent) (s : State) : Outside s (State.laneEvents st lane es s) := by
  induction es generalizing s with
  | nil => exact .refl s
  | cons e es ih =>
    refine Outside.trans ?_ (ih _)
    cases e with
    | implausible => exact outside_record ..
    | edgeSequence => exact outside_record ..
    | stuckOn => exact outside_record ..
    | reverse =>
      dsimp only
      unfold State.reversePassage
      split
      · exact .refl s
      · dsimp only
        split
        · refine Outside.trans (.trans ?_ (outside_raise ..)) (outside_raiseOrTrack ..)
          exact ⟨rfl, rfl, rfl⟩
        · exact ⟨rfl, rfl, rfl⟩

theorem outside_traceStation (st : Nat) (r : StationRec) (t : TraceReply) (s : State) :
    Outside s (s.traceStation st r t) := by
  have h : ∀ (es : List EdgeRec) (s : State), Outside s (es.foldl (State.edgeRecord st r) s) := by
    intro es
    induction es with
    | nil => exact fun s => .refl s
    | cons e es ih =>
      intro s
      refine Outside.trans ?_ (ih _)
      unfold State.edgeRecord
      split
      · exact .refl s
      · split
        · exact .refl s
        · exact Outside.trans (t := State.onStation ..) ⟨rfl, rfl, rfl⟩ (outside_laneEvents ..)
  refine Outside.trans ?_ (h _ _)
  split
  · exact outside_edgesLost ..
  · exact .refl s

theorem Outside.settles {g : Nat} {s t : State} (h : Outside s t) : Settles g s t := .of_eq h.geo h.nodes h.rollout

theorem settles_handTrace (l : Line) (f : Flight) (r : TraceReply) (s : State) : Settles f.gantry s (s.handTrace l f r) := by
  unfold State.handTrace
  dsimp only
  refine ((settles_nodeSucceeded f.gantry f.retry s).onLine l fun c =>
    { c with polls := c.polls.adjust f.gantry (Poll.afterTrace s.geo.params.line.pollPeriod r.more) }).trans ?_
  split
  · exact .refl _ _
  · exact (outside_traceStation ..).settles

theorem settles_nodeFailed (l : Line) (f : Flight) (w : Failure) (s : State) :
    Settles f.gantry s (s.nodeFailed l f w) := by
  unfold State.nodeFailed
  dsimp only
  split
  · exact (settles_changeNode ..).trans (settles_onLine ..)
  · exact .ite (settles_changeNode ..) (.refl _ s)
  · exact settles_changeNode ..
  · exact settles_onNode _ _ _ fun _ _ => ⟨rfl, rfl⟩
  · exact .refl _ s

theorem settles_showRetried (g : Nat) (b : ShowBody) (s : State) : Settles g s (s.showRetried g b) := by
  unfold State.showRetried
  refine Settles.trans (t := State.onRollout g _ s) ?_ ((calm_evalGate ..).settles fun k hk => key_evalGate _ (by omega))
  exact settles_onRollout _ _ _ fun _ => rfl

theorem settles_handFailure (l : Line) (f : Flight) (w : Failure) (done : Bool) (s : State) :
    Settles f.gantry s (s.handFailure l f w done) := by
  unfold State.handFailure
  dsimp only
  refine ((settles_onLine f.gantry l (fun c => { c with polls := c.polls.adjust f.gantry f.job.restartPolls }) s).record
    (lineBank l) w.error .warn (some f.gantry) none).trans ?_
  generalize State.record (lineBank l) w.error .warn (some f.gantry) none _ = s1
  split
  · exact settles_changeNode ..
  · have h3 : Settles f.gantry s1 (if done = true ∧ f.job = .trace then (s1.nodeFailed l f w).loseEdges f.gantry
        else s1.nodeFailed l f w) := by
      refine .ite ((settles_nodeFailed l f w s1).trans ?_) (settles_nodeFailed ..)
      unfold State.loseEdges
      split
      · exact .refl _ _
      · exact (outside_edgesLost ..).settles
    refine h3.trans ?_
    generalize (if done = true ∧ f.job = .trace then _ else _ : State) = s3
    split
    · exact .ite (settles_showRetried ..) (.refl _ _)
    · exact .refl _ _

/-- An outcome handed on (R36, R43) settles the gates beside the telegram's gantry. -/
theorem settles_outcome (l : Line) (f : Flight) (e : EngineState) (hand : State → State) (s : State)
    (h : ∀ t, Settles f.gantry t (hand t)) : Settles f.gantry s (s.outcome l f e hand) := by
  unfold State.outcome
  dsimp only
  exact .ite (settles_onLine ..) ((settles_onLine ..).trans (h _))

/-- R162: whatever outcome row a transcript takes, the gates beside the gantry of the telegram in flight are settled. -/
theorem settles_outcomeRow {l : Line} {x : Transcript} {f : Flight} {en : Ending} {s t : State} {c : Instr}
    (he : s.ending l x = some (f, en))
    (hc : c ∈ [.showAccepted l x, .stateReply l x, .traceReply l x, .describeReply l x, .capsReply l x] ∨
      ∃ w : Failure, c = w.row l x) (ht : exec c s = .next t) : Settles f.gantry s t := by
  have key : ∀ a : State → State, whenRunning s a = .next t → Settles f.gantry s (a s) → Settles f.gantry s t := by
    intro a ha hs
    unfold whenRunning at ha
    split at ha
    · cases ha; exact hs
    · cases ha; exact .refl _ s
  have fail : ∀ w, Settles f.gantry s (failureRow w l x s) := by
    intro w
    unfold failureRow
    rw [he]
    split
    · rename_i h
      cases h
      exact .ite (settles_outcome _ _ _ _ _ fun t => settles_handFailure ..) (.refl _ s)
    · exact .refl _ s
  rcases hc with hc | ⟨w, rfl⟩
  · simp only [List.mem_cons, List.not_mem_nil, or_false] at hc
    rcases hc with rfl | rfl | rfl | rfl | rfl
    all_goals
      simp only [exec, execShowAccepted, execStateReply, execTraceReply, execDescribeReply, execCapsReply] at ht
      refine key _ ht ?_
      rw [he]
      split
      · rename_i h
        cases h
        refine settles_outcome _ _ _ _ _ fun t => ?_
        first
          | exact settles_handAccepted ..
          | exact settles_handState ..
          | exact settles_handTrace ..
          | exact (settles_nodeSucceeded ..).trans (settles_described ..)
          | exact (settles_nodeSucceeded ..).trans (settles_capsTaken ..)
      · exact .refl _ s
  · cases w <;> exact key _ ht (fail _)

theorem settles_setService (g : Nat) (v : Service) (s : State) : Settles g s (s.setService g v) := by
  have hk : ∀ m, (s.setService g v).kinds m = s.kinds m := by
    intro m
    unfold State.kinds
    by_cases e : m = g
    · subst e
      rw [setService_gantries, look_adjust_self]
      cases s.geo.gantries.look m <;> rfl
    · rw [setService_gantries, look_adjust_other _ _ e]
  exact .of_same rfl hk (fun _ _ => rfl) (fun _ => rfl) (tested_congr (hk g) rfl) fun _ _ => rfl

/-- R64, R162: GANTRY_SERVICE settles the gates beside its gantry. -/
theorem settles_gantryService {s t : State} {f : Frame} {rest : List Frame} {g b : Byte} (h : s.takes 0x0F#8 f rest)
    (hp : f.payload = [g, b]) (ht : exec .gantryService s = .next t) : Settles g.toNat s t := by
  have e := takeRequest_taken (fits := (· == 0x0F#8)) handleGantryService h (by simp)
  have ht' : takeRequest (· == 0x0F#8) handleGantryService s = .next t := ht
  rw [e] at ht'
  cases ht'
  have o : ∀ (a : State) (r : Result) (d : Detail), Settles g.toNat a (a.placeReply f r d) := fun _ _ _ =>
    .of_eq rfl rfl rfl
  have o' : Settles g.toNat s { s with link := { s.link with rxQueue := rest } } := .of_eq rfl rfl rfl
  refine (o'.trans ?_).trans (o _ _ _)
  rw [hp]
  generalize ({ s with link := _ } : State) = s1
  unfold handleGantryService
  split
  · exact .refl _ _
  · dsimp only
    repeat' split
    all_goals first
      | exact .refl _ _
      | exact (settles_setService ..).trans (settles_changeNode ..)

/-! ### A pending SHOW that is created, replaced or taken as a retry (R162) -/

/-- The pending SHOW of g stays what it was, or ends. -/
def KeepsShow (g : Nat) (s t : State) : Prop := t.shows g = s.shows g ∨ t.shows g = none

/-- The pending SHOW of g stays what it was, or its gate stands. -/
def RenewsShow (g : Nat) (s t : State) : Prop := t.shows g = s.shows g ∨ t.gateStands g

theorem KeepsShow.refl (g : Nat) (s : State) : KeepsShow g s s := .inl rfl

theorem KeepsShow.trans {g : Nat} {s t u : State} (h : KeepsShow g s t) (k : KeepsShow g t u) : KeepsShow g s u := by
  rcases k with k | k
  · rcases h with h | h
    · exact .inl (k.trans h)
    · exact .inr (k.trans h)
  · exact .inr k

theorem KeepsShow.ite {g : Nat} {s t u : State} {p : Prop} [Decidable p] (h : KeepsShow g s t) (k : KeepsShow g s u) :
    KeepsShow g s (if p then t else u) := by
  split <;> assumption

theorem KeepsShow.renews {g : Nat} {s t u : State} (h : KeepsShow g s t) (k : RenewsShow g t u) : RenewsShow g s u := by
  rcases k with k | k
  · rcases h with h | h
    · exact .inl (k.trans h)
    · exact .inr (stands_of_none (k.trans h))
  · exact .inr k

theorem RenewsShow.refl (g : Nat) (s : State) : RenewsShow g s s := .inl rfl

theorem RenewsShow.ite {g : Nat} {s t u : State} {p : Prop} [Decidable p] (h : RenewsShow g s t) (k : RenewsShow g s u) :
    RenewsShow g s (if p then t else u) := by
  split <;> assumption

theorem keeps_of_eq {g : Nat} {s t : State} (h : t.rollout = s.rollout) : KeepsShow g s t :=
  .inl (by simp [State.shows, h])

theorem keeps_onRollout (g m : Nat) (f : RolloutRec → RolloutRec) (s : State)
    (hf : ∀ r, (f r).pending = r.pending ∨ (f r).pending = none) : KeepsShow g s (s.onRollout m f) := by
  unfold KeepsShow State.shows
  by_cases e : g = m
  · subst e
    simp only [onRollout_rollout, look_adjust_self]
    cases s.rollout.look g with
    | none => exact .inl rfl
    | some r => simpa using hf r
  · exact .inl (by simp [e])

theorem KeepsShow.line {g : Nat} {s t : State} (h : KeepsShow g s t) (l : Line) (f : LineCtl → LineCtl) :
    KeepsShow g s (t.onLine l f) := h.trans (keeps_of_eq (onLine_rollout ..))

theorem KeepsShow.roll {g m : Nat} {s t : State} (h : KeepsShow g s t) (f : RolloutRec → RolloutRec)
    (hf : ∀ r, (f r).pending = r.pending) : KeepsShow g s (t.onRollout m f) :=
  h.trans (keeps_onRollout _ _ _ _ fun r => .inl (hf r))

theorem keeps_evalGate (g m : Nat) (s : State) : KeepsShow g s (s.evalGate m) := by
  unfold State.evalGate
  split
  · exact .refl g s
  · split
    · exact .refl g s
    · exact keeps_onRollout _ _ _ _ fun _ => .inl rfl

theorem keeps_gatesBeside (g m : Nat) (s : State) : KeepsShow g s (s.gatesBeside m) :=
  (keeps_evalGate ..).trans (keeps_evalGate ..)

theorem keeps_removePending (g : Nat) (s : State) : KeepsShow g s (s.removePending g) := .inr (removePending_shows g s)

theorem keeps_endConfirmation (g : Nat) (s : State) : KeepsShow g s (s.endConfirmation g) :=
  .inl (shows_of_key (key_endConfirmation ..))

theorem Shown.renews {g : Nat} {s t : State} (h : Shown g s t) : RenewsShow g s t := by
  rcases h.own with h | h
  · exact .inl (shows_of_key h)
  · exact .inr h

theorem keeps_rolloutOnNode (g : Nat) (old new : NodeState) (s : State) : KeepsShow g s (s.rolloutOnNode g old new) := by
  have h1 : KeepsShow g s
      (if old = .online then
        let keepsRetry : Bool :=
          match s.rollout.look g with
          | some r => (match r.pending with | some p => p.retry | none => false)
          | none => false
        (if keepsRetry then s.onRollout g RolloutRec.clearGate else s.removePending g).endConfirmation g
      else s) := by
    refine .ite ?_ (.refl g s)
    dsimp only
    refine KeepsShow.trans (.ite ?_ (keeps_removePending ..)) (keeps_endConfirmation ..)
    exact keeps_onRollout _ _ _ _ fun _ => .inl rfl
  unfold State.rolloutOnNode
  refine h1.trans ?_
  generalize (if old = .online then _ else s : State) = s1
  dsimp only
  split
  · exact keeps_onRollout _ _ _ _ fun _ => .inl rfl
  · refine KeepsShow.trans ((keeps_removePending ..).trans ?_) (keeps_of_eq (withdrawConfirm_rollout ..))
    exact keeps_onRollout _ _ _ _ fun _ => .inl rfl
  · refine (keeps_removePending ..).trans ?_
    exact keeps_onRollout _ _ _ _ fun _ => .inl rfl
  · refine .ite ?_ (.refl _ _)
    split
    · exact .refl _ _
    · refine .ite (KeepsShow.trans ?_ (keeps_of_eq (depositConfirm_rollout ..))) (.refl _ _)
      exact keeps_onRollout _ _ _ _ fun _ => .inl rfl
  · exact .refl _ _

theorem keeps_changeNode (g : Nat) (new : NodeState) (r : Reason) (m : Option Mismatch) (s : State) :
    KeepsShow g s (s.changeNode g new r m) := by
  cases hn : s.nodes.look g with
  | none => simp only [State.changeNode, hn]; exact .refl g s
  | some n =>
    obtain ⟨s3, s4, s5, s6, h3, h4, h5, h6, h7⟩ := changeNode_eq (g := g) (new := new) (r := r) (m := m) hn
    have k3 : KeepsShow g s s3 := by
      rw [h3]
      refine KeepsShow.trans (KeepsShow.trans ?_ (keeps_rolloutOnNode ..)) (keeps_of_eq (nodeNotices_rollout ..))
      exact keeps_of_eq (by simp)
    have k4 : KeepsShow g s3 s4 := by rw [h4]; exact .ite (keeps_of_eq (by simp)) (.refl _ _)
    have k5 : KeepsShow g s4 s5 := by rw [h5]; exact .ite (keeps_gatesBeside ..) (.refl _ _)
    have k6 : KeepsShow g s5 s6 := by rw [h6]; exact .ite (keeps_of_eq (by simp)) (.refl _ _)
    rw [h7]
    exact (((k3.trans k4).trans k5).trans k6).trans (.ite (keeps_of_eq (by simp)) (.refl _ _))

theorem keeps_nodeSucceeded (g : Nat) (retry : Bool) (s : State) : KeepsShow g s (s.nodeSucceeded g retry) :=
  .ite (keeps_changeNode ..) (.refl g s)

theorem keeps_nextStep (g : Nat) (st : DescStep) (s : State) : KeepsShow g s (s.nextStep g st) :=
  keeps_of_eq (by simp [State.nextStep])

theorem keeps_described (g : Nat) (r : DescribeReply) (s : State) : KeepsShow g s (s.described g r) := by
  unfold State.described
  split
  · exact .refl g s
  · split
    · exact .ite (keeps_nextStep ..) (.refl g s)
    · exact .ite (keeps_changeNode ..) (.refl g s)
    · exact keeps_changeNode ..
    · unfold State.offlineMismatch
      dsimp only
      exact .ite (keeps_of_eq (by simp)) (keeps_of_eq (by simp))
    · exact .refl g s

theorem keeps_capsTaken (g i : Nat) (es : List Aspect) (s : State) : KeepsShow g s (s.capsTaken g i es) := by
  refine keeps_of_eq ?_
  unfold State.capsTaken
  split
  · split
    · rfl
    · dsimp only
      repeat' split
      all_goals simp [State.nextStep]
  · rfl

theorem keeps_takeSigns (g : Nat) (xs : List (Health × Aspect)) (s : State) : KeepsShow g s (s.takeSigns g xs) := by
  unfold State.takeSigns
  split
  · exact .refl g s
  · dsimp only
    split
    · refine KeepsShow.trans (KeepsShow.trans ?_ (keeps_gatesBeside ..)) (keeps_of_eq (trigger_rollout _))
      exact keeps_of_eq rfl
    · exact keeps_of_eq rfl

theorem keeps_stateTaken (g : Nat) (retry : Bool) (r : StateReply) (s : State) : KeepsShow g s (s.stateTaken g retry r) := by
  unfold State.stateTaken
  dsimp only
  have h1 : KeepsShow g s (if r.restarted && (s.nodeState g == some .online || s.nodeState g == some .suspect) then s
      else s.nodeSucceeded g retry) := .ite (.refl g s) (keeps_nodeSucceeded ..)
  refine (h1.trans (keeps_takeSigns g r.signs _)).trans ?_
  split
  · exact keeps_changeNode ..
  · split
    · exact .refl _ _
    · exact .ite (keeps_changeNode ..) (.refl _ _)

theorem keeps_applyMarks (g m : Nat) (f : List SignRec → List SignRec) (s : State) : KeepsShow g s (s.applyMarks m f) := by
  unfold State.applyMarks
  split
  · exact .refl g s
  · split
    · exact .refl g s
    · refine KeepsShow.trans (KeepsShow.trans ?_ (keeps_gatesBeside ..)) (keeps_of_eq (trigger_rollout _))
      exact keeps_of_eq rfl

theorem keeps_confirmFailed (g : Nat) (as : List Aspect) (s : State) : KeepsShow g s (s.confirmFailed g as) := by
  unfold State.confirmFailed
  split
  · exact .refl g s
  · dsimp only
    refine .roll (.trans (.trans ?_ (keeps_applyMarks ..)) (keeps_of_eq (record_rollout ..))) _ fun _ => rfl
    exact keeps_onRollout _ _ _ _ fun _ => .inl rfl

theorem renews_judge (g : Nat) (poll : Bool) (as : List Aspect) (s : State) : RenewsShow g s (s.judge g poll as) := by
  have one : ∀ f : RolloutRec → RolloutRec, (∀ r, (f r).pending = r.pending) → KeepsShow g s (s.onRollout g f) :=
    fun f hf => keeps_onRollout _ _ _ _ fun r => .inl (hf r)
  unfold State.judge
  split
  · exact .refl g s
  · dsimp only
    split
    · exact .refl g s
    · split
      · exact (keeps_endConfirmation ..).renews (.refl _ _)
      · split
        · have h1 := one (fun r => { r with polls := r.polls + 1 }) fun _ => rfl
          generalize State.onRollout g _ s = s1 at h1 ⊢
          split
          · exact h1.renews (.inl (by simp [State.shows]))
          · refine h1.renews ?_
            unfold State.roundFailed
            split
            · exact .refl _ _
            · refine .ite ?_ ((keeps_confirmFailed ..).renews (.refl _ _))
              refine KeepsShow.renews ?_ (shown_createPending ..).renews
              exact keeps_onRollout _ _ _ _ fun _ => .inl rfl
        · exact .refl g s
    · split
      · have h1 := one RolloutRec.settle fun _ => rfl
        split
        · exact .ite (h1.renews ((keeps_removePending ..).renews (.refl _ _))) (h1.renews (.refl _ _))
        · exact h1.renews (.refl _ _)
      · exact .refl g s

/-- A request about the marks of g leaves a standing gate of g standing. -/
theorem applyMarks_stands (g : Nat) (f : List SignRec → List SignRec) (s : State) (h : s.gateStands g) :
    (s.applyMarks g f).gateStands g := by
  unfold State.applyMarks
  split
  · exact h
  · split
    · exact h
    · refine ((calm_trigger _).stands (key_of_eq (trigger_rollout _) g)).2 ?_
      by_cases e : g = 0
      · subst e; exact gatesBeside_stands _ (.inl rfl)
      · refine gatesBeside_keeps _ _ _ ?_
        generalize ht : ({ s with nodes := _ } : State) = t
        have hn : ∀ m, m ≠ g → t.nodes.look m = s.nodes.look m := by subst ht; exact fun m hm => by simp [hm]
        have hg : t.geo = s.geo ∧ t.rollout = s.rollout := by subst ht; exact ⟨rfl, rfl⟩
        refine (gateStands_congr (by rw [hg.1]) (kinds_congr hg.1) (key_of_eq hg.2 g)
          (fun m hm p => tested_congr (kinds_congr hg.1 m) (hn m (by omega)) p) fun m _ => ?_).2 h
        rw [State.seen, hg.2, State.seen]

theorem clearRecovered_renews (g : Nat) (as : List Aspect) {s t : State} (h : RenewsShow g s t) :
    RenewsShow g s (t.clearRecovered g as) := by
  unfold State.clearRecovered
  split
  · exact h
  · rename_i r _
    split
    · exact h
    · dsimp only
      generalize hf : (fun r : RolloutRec => ({ r with failed := discardFailed _ r.failed } : RolloutRec)) = f
      have k : KeepsShow g t (t.onRollout g f) := by
        subst hf; exact keeps_onRollout _ _ _ _ fun _ => .inl rfl
      have c : t.gateStands g → (t.onRollout g f).gateStands g := by
        subst hf
        intro ht
        exact stands_onRollout g _ t (fun _ => rfl) (fun _ => rfl) ht
      rcases h with h | h
      · rcases k.trans (keeps_applyMarks g g (clearSigns (recovered r.commanded r.failed as)) _) with hm | hm
        · exact .inl (hm.trans h)
        · exact .inr (stands_of_none hm)
      · exact .inr (applyMarks_stands _ _ _ (c h))

theorem renews_rolloutState (g : Nat) (poll : Bool) (as : List Aspect) (s : State) :
    RenewsShow g s (s.rolloutState g poll as) := by
  unfold State.rolloutState
  split
  · exact .refl g s
  · dsimp only
    refine clearRecovered_renews _ _ (KeepsShow.renews ?_ (renews_judge ..))
    refine .ite (.refl g s) ?_
    refine KeepsShow.trans (KeepsShow.trans ?_ (keeps_of_eq (raise_rollout ..))) (keeps_gatesBeside ..)
    exact keeps_onRollout _ _ _ _ fun _ => .inl rfl

theorem renews_handState (l : Line) (f : Flight) (r : StateReply) (s : State) :
    RenewsShow f.gantry s (s.handState l f r) :=
  ((keeps_stateTaken ..).trans (keeps_of_eq (onLine_rollout ..))).renews (renews_rolloutState ..)

theorem renews_handAccepted (f : Flight) (s : State) : RenewsShow f.gantry s (s.handAccepted f) := by
  unfold State.handAccepted
  dsimp only
  split
  · exact (keeps_nodeSucceeded ..).renews (.refl _ _)
  · refine (keeps_nodeSucceeded f.gantry f.retry s).renews ?_
    unfold State.showAccepted
    dsimp only
    refine KeepsShow.renews (KeepsShow.trans ?_ (keeps_of_eq (depositConfirm_rollout ..))) (shown_compare ..).renews
    exact keeps_onRollout _ _ _ _ fun _ => .inl rfl

theorem keeps_handTrace (l : Line) (f : Flight) (r : TraceReply) (s : State) :
    KeepsShow f.gantry s (s.handTrace l f r) := by
  unfold State.handTrace
  dsimp only
  refine ((keeps_nodeSucceeded f.gantry f.retry s).line l fun c =>
    { c with polls := c.polls.adjust f.gantry (Poll.afterTrace s.geo.params.line.pollPeriod r.more) }).trans ?_
  split
  · exact .refl _ _
  · exact keeps_of_eq (outside_traceStation ..).rollout

theorem renews_handFailure (l : Line) (f : Flight) (w : Failure) (done : Bool) (s : State) :
    RenewsShow f.gantry s (s.handFailure l f w done) := by
  unfold State.handFailure
  dsimp only
  refine KeepsShow.renews (((KeepsShow.refl f.gantry s).line l fun c =>
    { c with polls := c.polls.adjust f.gantry f.job.restartPolls }).trans
    (keeps_of_eq (record_rollout (lineBank l) w.error .warn (some f.gantry) none _))) ?_
  generalize State.record (lineBank l) w.error .warn (some f.gantry) none _ = s1
  split
  · exact (keeps_changeNode ..).renews (.refl _ _)
  · have h2 : KeepsShow f.gantry s1 (s1.nodeFailed l f w) := by
      unfold State.nodeFailed
      dsimp only
      split
      · exact (keeps_changeNode ..).trans (keeps_of_eq (onLine_rollout ..))
      · exact .ite (keeps_changeNode ..) (.refl _ _)
      · exact keeps_changeNode ..
      · exact keeps_of_eq rfl
      · exact .refl _ _
    have h3 : KeepsShow f.gantry s1 (if done = true ∧ f.job = .trace then (s1.nodeFailed l f w).loseEdges f.gantry
        else s1.nodeFailed l f w) := by
      refine .ite (h2.trans ?_) h2
      unfold State.loseEdges
      split
      · exact .refl _ _
      · exact keeps_of_eq (outside_edgesLost ..).rollout
    refine h3.renews ?_
    generalize (if done = true ∧ f.job = .trace then _ else _ : State) = s3
    split
    · exact .ite (.inr (evalGate_stands _ _)) (.refl _ _)
    · exact .refl _ _

/-- R162: whatever outcome row a transcript takes, a pending SHOW that it creates, replaces or takes as a retry has its
gate evaluated. -/
theorem renews_outcomeRow {l : Line} {x : Transcript} {f : Flight} {en : Ending} {s t : State} {c : Instr}
    (he : s.ending l x = some (f, en))
    (hc : c ∈ [.showAccepted l x, .stateReply l x, .traceReply l x, .describeReply l x, .capsReply l x] ∨
      ∃ w : Failure, c = w.row l x) (ht : exec c s = .next t) : RenewsShow f.gantry s t := by
  have key : ∀ a : State → State, whenRunning s a = .next t → RenewsShow f.gantry s (a s) → RenewsShow f.gantry s t := by
    intro a ha hs
    unfold whenRunning at ha
    split at ha
    · cases ha; exact hs
    · cases ha; exact .refl _ s
  have out : ∀ (e : EngineState) (hand : State → State), (∀ u, RenewsShow f.gantry u (hand u)) →
      RenewsShow f.gantry s (s.outcome l f e hand) := by
    intro e hand h
    unfold State.outcome
    dsimp only
    have h1 : KeepsShow f.gantry s (s.onLine l (LineCtl.ended e)) := keeps_of_eq (onLine_rollout ..)
    exact .ite (h1.renews (.refl _ _)) (h1.renews (h _))
  have fail : ∀ w, RenewsShow f.gantry s (failureRow w l x s) := by
    intro w
    unfold failureRow
    rw [he]
    split
    · rename_i h
      cases h
      exact .ite (out _ _ fun t => renews_handFailure ..) (.refl _ s)
    · exact .refl _ s
  rcases hc with hc | ⟨w, rfl⟩
  · simp only [List.mem_cons, List.not_mem_nil, or_false] at hc
    rcases hc with rfl | rfl | rfl | rfl | rfl
    all_goals
      simp only [exec, execShowAccepted, execStateReply, execTraceReply, execDescribeReply, execCapsReply] at ht
      refine key _ ht ?_
      rw [he]
      split
      · rename_i h
        cases h
        refine out _ _ fun t => ?_
        first
          | exact renews_handAccepted ..
          | exact renews_handState ..
          | exact (keeps_handTrace ..).renews (.refl _ _)
          | exact ((keeps_nodeSucceeded ..).trans (keeps_described ..)).renews (.refl _ _)
          | exact ((keeps_nodeSucceeded ..).trans (keeps_capsTaken ..)).renews (.refl _ _)
      · exact .refl _ s
  · cases w <;> exact key _ ht (fail _)

theorem outside_recordAllLost (old new : Table Target) (s : State) : Outside s (recordAllLost old new s) := by
  have h : ∀ (xs : List (Nat × Severity)) (u : State), Outside u (recordLost xs u) := by
    intro xs
    induction xs with
    | nil => exact fun u => .refl u
    | cons x xs ih => exact fun u => (outside_record ..).trans (ih _)
  refine Outside.trans ?_ (h _ _)
  unfold State.anyOrder
  split
  · exact .refl s
  · exact ⟨rfl, rfl, rfl⟩

/-- R157, R162: a pass that completes leaves every pending SHOW it creates or replaces with its gate evaluated. -/
theorem renews_completePass (n : Snapshot) (s : State) (g : Nat) : RenewsShow g s (s.completePass n) := by
  unfold State.completePass
  dsimp only
  have h1 : Outside s (recordAllLost s.plan.targets n.targets { s with plan := { s.plan with targets := n.targets } }) :=
    Outside.trans (t := { s with plan := { s.plan with targets := n.targets } }) ⟨rfl, rfl, rfl⟩ (outside_recordAllLost ..)
  generalize recordAllLost s.plan.targets n.targets _ = s2 at h1 ⊢
  obtain ⟨-, b⟩ := publishAll_gates (Table.keys n.targets).reverse s2
  have e : RenewsShow g s (publishAll (Table.keys n.targets).reverse s2) := by
    refine (keeps_of_eq h1.rollout).renews ?_
    rcases b g with b | b
    · exact .inl (shows_of_key b)
    · exact .inr b
  generalize publishAll (Table.keys n.targets).reverse s2 = s3 at e ⊢
  have fin : ∀ u : State, u.geo = s3.geo → u.nodes = s3.nodes → u.rollout = s3.rollout → RenewsShow g s u := by
    intro u h1 h2 h3
    rcases e with e | e
    · exact .inl (by rw [← e, State.shows, h3]; rfl)
    · exact .inr (((Calm.of_eq h1 h2 h3).stands (key_of_eq h3 g)).2 e)
  split
  · exact fin _ rfl rfl rfl
  · exact fin _ rfl rfl rfl

/-! ### SET_PARAMETERS with a PLAN group, and a replacement -/

/-- A group of code 4 that fits is a PLAN group (R8). -/
theorem fitGroup_plan {raw : List Nat} {v : GroupValue} {c : List Nat} (h : fitGroup .plan raw = .ok (v, c)) :
    ∃ p, v = .plan p := by
  unfold fitGroup at h
  split at h
  all_goals first
    | (rename_i he; cases he)
    | skip
  all_goals try (cases h)
  · split at h
    · cases h
    · cases h; exact ⟨_, rfl⟩

/-- R11, R162: a PLAN group that SET_PARAMETERS takes in RUN leaves every gate standing. -/
theorem setParameters_stands {s t : State} {f : Frame} {rest : List Frame} {fields : List Byte} {rep : Reply}
    (h : s.takes 0x04#8 f rest) (hm : s.geo.mode = .run) (hp : f.payload = 4#8 :: fields)
    (ht : exec .setParameters s = .next t) (hr : t.link.replySlot = some rep)
    (ho : rep.result = .ok ∨ rep.result = .okClamped) (k : Nat) : t.gateStands k := by
  have e := takeRequest_taken (fits := (· == 0x04#8)) handleSetParameters h (by simp)
  have ht' : takeRequest (· == 0x04#8) handleSetParameters s = .next t := ht
  rw [e] at ht'
  cases ht'
  rw [placeReply_link_replySlot, Option.some.injEq] at hr
  subst hr
  dsimp only at ho
  rw [hp] at ho ⊢
  have hm' : ({ s with link := { s.link with rxQueue := rest } } : State).geo.mode = .run := hm
  revert ho
  generalize ({ s with link := { s.link with rxQueue := rest } } : State) = s1 at hm' ⊢
  unfold handleSetParameters
  have hg : groupOfCode 4#8 = some .plan := rfl
  simp only [hg, hm']
  have ok : ∀ (v : GroupValue) (c : List Nat) (raw : List Nat), fitGroup .plan raw = .ok (v, c) →
      ∀ (r : Result) (d : Detail), ((s1.storeGroup v).placeReply f r d).gateStands k := by
    intro v c raw hv r d
    obtain ⟨p, rfl⟩ := fitGroup_plan hv
    have : s1.storeGroup (.plan p) = s1.planInRun p := by simp only [State.storeGroup, hm']
    rw [this]
    exact (Calm.stands (Calm.of_eq rfl rfl rfl) (key_of_eq rfl k)).2 (planInRun_stands p s1 k)
  repeat' split
  all_goals first
    | (intro ho; rcases ho with ho | ho <;> cases ho; done)
    | (intro _; exact ok _ _ _ ‹_› _ _)

theorem cellState_eq_some {a : Aspect} {c : Cell} : cellState (some a) = some c ↔ a = c.toAspect := by
  cases a <;> cases c <;> simp [cellState, Cell.toAspect]

theorem cellState_eq_none {a : Aspect} : cellState (some a) = none ↔ ¬a.closes := by
  cases a <;> simp [cellState, Aspect.closes]

theorem toAspect_closes (c : Cell) : c.toAspect.closes := by
  cases c <;> simp [Cell.toAspect, Aspect.closes]

theorem entryAt_none {α : Type} {ks : List SignKind} {p : Nat} (h : SignKind.lane p ∉ ks) (xs : List α) :
    entryAt ks xs p = none := by
  induction ks generalizing xs with
  | nil => cases xs <;> rfl
  | cons k ks ih =>
    cases xs with
    | nil => rfl
    | cons x xs =>
      simp only [List.mem_cons, not_or] at h
      simp only [entryAt, if_neg (fun e => h.1 (e.symm) : ¬k = SignKind.lane p)]
      exact ih h.2 xs

/-- A position stands in the closures shown exactly if its entry is that CLOSED or DIVERT (R163). -/
theorem mem_closureSet {ks : List SignKind} (hk : ks.Nodup) (as : List Aspect) (p : Nat) (c : Cell) :
    (p, c) ∈ closureSet ks as ↔ entryAt ks as p = some c.toAspect := by
  induction ks generalizing as with
  | nil => cases as <;> simp [closureSet, entryAt]
  | cons k ks ih =>
    have hn := List.nodup_cons.1 hk
    cases as with
    | nil => cases k <;> simp [closureSet, entryAt]
    | cons a as =>
      cases k with
      | panel => simp [closureSet, entryAt, ih hn.2]
      | lane q =>
        by_cases e : q = p
        · subst e
          have h0 : (q, c) ∉ closureSet ks as := by rw [ih hn.2, entryAt_none hn.1]; simp
          simp only [closureSet, entryAt, if_true]
          cases hc : cellState (some a) with
          | none =>
            refine ⟨fun h => absurd h h0, fun h => ?_⟩
            cases h
            exact absurd (toAspect_closes c) (cellState_eq_none.1 hc)
          | some d =>
            have ha := cellState_eq_some.1 hc
            have inj : d.toAspect = c.toAspect ↔ d = c := by cases d <;> cases c <;> simp [Cell.toAspect]
            simp only [List.mem_cons, h0, or_false, Prod.mk.injEq, true_and, ha, Option.some.injEq, inj]
            exact eq_comm
        · have e' : ¬p = q := fun h => e h.symm
          simp only [closureSet, entryAt, SignKind.lane.injEq, if_neg e]
          cases cellState (some a) with
          | none => exact ih hn.2 as
          | some d => simp [e', ih hn.2]

/-- R163: the closures shown are the same list exactly where every position shows the same CLOSED or DIVERT, if any. -/
theorem closureSet_eq_iff {ks : List SignKind} (hk : ks.Nodup) (as bs : List Aspect) :
    closureSet ks as = closureSet ks bs ↔
      ∀ p a, Aspect.closes a → (entryAt ks as p = some a ↔ entryAt ks bs p = some a) := by
  constructor
  · intro h p a ha
    obtain ⟨c, rfl⟩ : ∃ c : Cell, a = c.toAspect := by
      rcases ha with rfl | ⟨d, rfl⟩
      · exact ⟨.closed, rfl⟩
      · exact ⟨.divert d, rfl⟩
    rw [← mem_closureSet hk, ← mem_closureSet hk, h]
  · intro h
    have m : ∀ p c, (p, c) ∈ closureSet ks as ↔ (p, c) ∈ closureSet ks bs := fun p c => by
      rw [mem_closureSet hk, mem_closureSet hk]; exact h p _ (toAspect_closes c)
    clear h
    induction ks generalizing as bs with
    | nil => rfl
    | cons k ks ih =>
      have hn := List.nodup_cons.1 hk
      cases as with
      | nil =>
        have : closureSet (k :: ks) ([] : List Aspect) = [] := by cases k <;> rfl
        rw [this] at m ⊢
        refine (List.eq_nil_iff_forall_not_mem.2 ?_).symm
        rintro ⟨p, c⟩ hx
        exact absurd ((m p c).2 hx) (List.not_mem_nil)
      | cons a as =>
        cases bs with
        | nil =>
          have : closureSet (k :: ks) ([] : List Aspect) = [] := by cases k <;> rfl
          rw [this] at m ⊢
          refine List.eq_nil_iff_forall_not_mem.2 ?_
          rintro ⟨p, c⟩ hx
          exact absurd ((m p c).1 hx) (List.not_mem_nil)
        | cons b bs =>
          cases k with
          | panel => exact ih hn.2 as bs m
          | lane q =>
            have out : ∀ (xs : List Aspect) (c : Cell), (q, c) ∉ closureSet ks xs := fun xs c => by
              rw [mem_closureSet hn.2, entryAt_none hn.1]; simp
            have hd : cellState (some a) = cellState (some b) := by
              have hq : ∀ (x : Aspect) (xs : List Aspect) (c : Cell),
                  (q, c) ∈ closureSet (.lane q :: ks) (x :: xs) ↔ cellState (some x) = some c := fun x xs c => by
                rw [mem_closureSet hk, cellState_eq_some]
                simp [entryAt]
              apply Option.ext
              intro c
              rw [← hq a as c, ← hq b bs c]
              exact m q c
            simp only [closureSet, ← hd] at m ⊢
            cases hc : cellState (some a) with
            | none => simp only [hc] at m; exact ih hn.2 as bs m
            | some d =>
              simp only [hc] at m
              rw [ih hn.2 as bs]
              intro p c
              have := m p c
              simp only [List.mem_cons, Prod.mk.injEq] at this
              by_cases e : p = q
              · subst e; simp [out]
              · simpa [e] using this

/-- R157, R163: what a replacement of the contents does to the gate: a change of the closures shown clears the expiry and
starts the timer afresh, no change leaves both. -/
theorem replacePending_gate {s : State} {g : Nat} {r : RolloutRec} {q : Pending} (as : List Aspect)
    (hr : s.rollout.look g = some r) (hq : r.pending = some q) :
    ∃ r', (s.replacePending g as).rollout.look g = some r' ∧
      (closureSet (s.kinds g) q.body.contents = closureSet (s.kinds g) as →
        r'.gateExpired = r.gateExpired ∧ (r.gateTimer ≠ none → r'.gateTimer = r.gateTimer)) ∧
      (closureSet (s.kinds g) q.body.contents ≠ closureSet (s.kinds g) as →
        r'.gateExpired = false ∧ r'.gateTimer = if r'.gateHeld = true then some 0 else none) := by
  simp only [State.replacePending, hr, hq]
  generalize hb : (closureSet (s.kinds g) q.body.contents == closureSet (s.kinds g) as) = same
  generalize hc : showClass (s.kinds g) .ordinary as r.commanded = cls
  generalize hx : ({ r with
      pending := some ⟨⟨as, .ordinary, cls⟩, q.retry⟩
      gateTimer := if same then r.gateTimer else none
      gateExpired := same && r.gateExpired } : RolloutRec) = x
  have key : ∀ u : State, u.rollout.look g = some x → ∃ r', (u.evalGate g).rollout.look g = some r' ∧
      (same = true → r'.gateExpired = r.gateExpired ∧ (r.gateTimer ≠ none → r'.gateTimer = r.gateTimer)) ∧
      (same = false → r'.gateExpired = false ∧ r'.gateTimer = if r'.gateHeld = true then some 0 else none) := by
    intro u hu
    have hp : x.pending = some ⟨⟨as, .ordinary, cls⟩, q.retry⟩ := by rw [← hx]
    obtain ⟨r', h1, -, h3, h4, -, -⟩ := evalGate_spec hu hp
    have he : r'.gateExpired = x.gateExpired := by rw [← h4]
    refine ⟨r', h1, fun h => ?_, fun h => ?_⟩
    · subst h
      refine ⟨by rw [he, ← hx]; rfl, fun ht => ?_⟩
      have hw : x.gateTimer = r.gateTimer := by rw [← hx]; rfl
      rw [h3, hw, if_neg (fun e => ht e.2)]
    · subst h
      refine ⟨by rw [he, ← hx]; rfl, ?_⟩
      have hw : x.gateTimer = none := by rw [← hx]; rfl
      rw [h3, hw]
      simp
  have e1 : (s.onRollout g fun r =>
      { r with
        pending := some ⟨⟨as, .ordinary, cls⟩, q.retry⟩
        gateTimer := if same then r.gateTimer else none
        gateExpired := same && r.gateExpired }).rollout.look g = some x := by
    rw [← hx]; simp [hr]
  have h2 := key (if cls = q.body.cls then (s.onRollout g fun r =>
      { r with
        pending := some ⟨⟨as, .ordinary, cls⟩, q.retry⟩
        gateTimer := if same then r.gateTimer else none
        gateExpired := same && r.gateExpired })
    else State.onLineOf (s.onRollout g fun r =>
      { r with
        pending := some ⟨⟨as, .ordinary, cls⟩, q.retry⟩
        gateTimer := if same then r.gateTimer else none
        gateExpired := same && r.gateExpired }) g fun l =>
          (l.removeShow g).deposit cls.cls ⟨g, .display, if q.retry then .line else .rollout, q.retry⟩)
    (by split
        · exact e1
        · rw [onLineOf_rollout]; exact e1)
  obtain ⟨r', a, b, c⟩ := h2
  refine ⟨r', a, fun h => b (by rw [← hb]; simpa using h), fun h => c (by rw [← hb]; simpa using h)⟩

end Sys2Proof.Machine
end

