-- ==== Sys2Proof/Laws/Incidents.lean ====
section
/-! SUPPORT. The incident unit in the words of the rules: what AMEND_INCIDENT reads (R117), which record a confirmation
tracks (R120), when SHOULDER OPEN is a conflict (R129). -/

namespace Sys2Proof.Machine

/-! ### AMEND_INCIDENT (R117) -/

/-- A mark of one byte is read back as it was sent (R117, log 13). -/
theorem mark1_sent (m : Mark) (h : ∀ v, m = .set v → v < 256) (rest : List Byte) :
    mark1 (m.sent false ++ rest) = .ok (m, rest) := by
  cases m with
  | keep => rfl
  | remove => rfl
  | set v =>
    have := h v rfl
    simp [Mark.sent, mark1, Nat.mod_eq_of_lt this]

/-- A mark of two bytes is read back as it was sent (R117, log 13). -/
theorem mark2_sent (m : Mark) (h : ∀ v, m = .set v → v < 65536) (rest : List Byte) :
    mark2 (m.sent true ++ rest) = .ok (m, rest) := by
  cases m with
  | keep => rfl
  | remove => rfl
  | set v =>
    have := h v rfl
    simp only [Mark.sent, mark2, if_true, List.cons_append, List.nil_append, num2, BitVec.toNat_ofNat]
    have : v / 256 % 2 ^ 8 * 256 + v % 2 ^ 8 = v := by omega
    rw [this]
    rfl

/-- The length check reads on behind a mark that was sent. -/
theorem fieldsFit_sent (wide : Bool) (m : Mark) (ws : List Nat) (rest : List Byte) :
    fieldsFit markCarries ((if wide then 2 else 1) :: ws) (m.sent wide ++ rest) = fieldsFit markCarries ws rest := by
  have e0 : markCarries 0#8 = some false := rfl
  have e1 : markCarries 1#8 = some true := rfl
  have e2 : markCarries 2#8 = some false := rfl
  cases m with
  | keep => simp [Mark.sent, fieldsFit, e0]
  | remove => simp [Mark.sent, fieldsFit, e2]
  | set v => cases wide <;> simp [Mark.sent, fieldsFit, e1]

/-- R117 steps 1 and 2: what AMEND_INCIDENT reads of five marks that were sent. -/
theorem parseAmend_sent (h : Byte) (start stop lanes cap legend : Mark)
    (h2 : ∀ v, start = .set v ∨ stop = .set v → v < 65536)
    (h1 : ∀ v, lanes = .set v ∨ cap = .set v ∨ legend = .set v → v < 256) (more : List Byte) :
    parseAmend (h :: (start.sent true ++ (stop.sent true ++ (lanes.sent false ++ (cap.sent false ++
        (legend.sent false ++ more)))))) =
      if more ≠ [] then .badLength
      else if (⟨h.toNat, start, stop, lanes, cap, legend⟩ : AmendReq).valuesOk then
        .ok ⟨h.toNat, start, stop, lanes, cap, legend⟩ else .badValue := by
  have f := fun (x : Mark) (ws : List Nat) (r : List Byte) => fieldsFit_sent true x ws r
  have g := fun (x : Mark) (ws : List Nat) (r : List Byte) => fieldsFit_sent false x ws r
  simp only [if_true, Bool.false_eq_true, if_false] at f g
  simp only [parseAmend, f, g]
  rw [mark2_sent start (fun v e => h2 v (.inl e)), Parsed.andThen, mark2_sent stop (fun v e => h2 v (.inr e)), Parsed.andThen,
    mark1_sent lanes (fun v e => h1 v (.inl e)), Parsed.andThen, mark1_sent cap (fun v e => h1 v (.inr (.inl e))),
    Parsed.andThen, mark1_sent legend (fun v e => h1 v (.inr (.inr e))), Parsed.andThen]
  cases more with
  | nil => simp [fieldsFit]
  | cons x xs => simp [fieldsFit]

/-- R117 step 2, in the words of the rule. -/
theorem valuesOk_iff (h : Byte) (start stop lanes cap legend : Mark) :
    (⟨h.toNat, start, stop, lanes, cap, legend⟩ : AmendReq).valuesOk = true ↔
    ¬(16 ≤ h.toNat ∨ start = .remove ∨ stop = .remove ∨ lanes = .remove ∨
      (∃ v, (start = .set v ∨ stop = .set v) ∧ 65000 < v) ∨ (∃ v, lanes = .set v ∧ (v = 0 ∨ 63 ≤ v)) ∨
      ∃ v, legend = .set v ∧ (v = 0 ∨ 63 < v)) := by
  unfold AmendReq.valuesOk
  cases start <;> cases stop <;> cases lanes <;> cases legend <;> simp <;> omega

/-! ### SHOULDER (R129) -/

/-- R129 step 4, in the words of the rule. -/
theorem shoulderConflict_iff {s : State} (hr : s.geo.gantries.rising = true) (n : Nat) : s.shoulderConflict n = true ↔
    ∃ g h r, (∃ q, s.geo.gantries.look g = some q ∧ q.sec = n) ∧ (h, r) ∈ s.incidents ∧ r.covers s.geo.gantries g ∧
      (r.kind = .carriagewayClosure ∨ r.kind = .laneClosure ∧ ∃ ls, r.lanes = some ls ∧ ls.getLsbD 0 = true) := by
  simp only [State.shoulderConflict, List.any_eq_true, Bool.and_eq_true, beq_iff_eq, incidentCloses_iff hr, Prod.exists,
    Incident.closes]
  constructor
  · rintro ⟨g, q, h1, h2, h, r, h3, h4, h5⟩
    exact ⟨g, h, r, ⟨q, look_of_mem hr h1, h2⟩, h3, h4, h5⟩
  · rintro ⟨g, h, r, ⟨q, h1, h2⟩, h3, h4, h5⟩
    exact ⟨g, q, mem_of_look h1, h2, h, r, h3, h4, h5⟩

/-- R4: a section exists where a defined gantry names it. -/
theorem sectionExists_iff {s : State} (hr : s.geo.gantries.rising = true) (n : Nat) : s.sectionExists n = true ↔
    ∃ g q, s.geo.gantries.look g = some q ∧ q.sec = n := by
  simp only [State.sectionExists, List.any_eq_true, beq_iff_eq, Prod.exists]
  exact ⟨fun ⟨g, q, h1, h2⟩ => ⟨g, q, look_of_mem hr h1, h2⟩, fun ⟨g, q, h1, h2⟩ => ⟨g, q, mem_of_look h1, h2⟩⟩

/-! ### The nearest record (R120) -/

/-- R120: the record that is tracked is the qualifying one whose anchor lies nearest, the lower handle of two at one
chainage; there is none exactly where none qualifies. -/
theorem nearest_spec (s : State) (st : Nat) (l : List (Nat × Incident)) (hl : (l.map (·.1)).Pairwise (· < ·)) :
    (∀ h r, s.nearest st l = some (h, r) ↔ (h, r) ∈ l ∧ s.qualifies st r = true ∧
      ∀ h' r', (h', r') ∈ l → s.qualifies st r' = true → s.anchorChainage r < s.anchorChainage r' ∨ s.anchorChainage r = s.anchorChainage r' ∧ h ≤ h') ∧
    (s.nearest st l = none ↔ ∀ h r, (h, r) ∈ l → s.qualifies st r = false) := by
  induction l with
  | nil => simp [State.nearest]
  | cons a as ih =>
    obtain ⟨k, q⟩ := a
    simp only [List.map_cons, List.pairwise_cons] at hl
    have hk : ∀ h r, (h, r) ∈ as → k < h := fun h r hm => hl.1 h (List.mem_map_of_mem (f := (·.1)) hm)
    obtain ⟨i1, i2⟩ := ih hl.2
    unfold State.nearest
    simp only
    by_cases hq : s.qualifies st q = true
    · simp only [hq, if_true]
      cases hb : s.nearest st as with
      | none =>
        have n2 := i2.1 hb
        constructor
        · intro h r
          simp only [Option.some.injEq, Prod.mk.injEq, List.mem_cons]
          constructor
          · rintro ⟨rfl, rfl⟩
            refine ⟨.inl ⟨rfl, rfl⟩, hq, ?_⟩
            rintro h' r' (⟨rfl, rfl⟩ | hm) hq'
            · exact .inr ⟨rfl, Nat.le_refl _⟩
            · rw [n2 _ _ hm] at hq'; cases hq'
          · rintro ⟨⟨rfl, rfl⟩ | hm, hq', _⟩
            · exact ⟨rfl, rfl⟩
            · rw [n2 _ _ hm] at hq'; cases hq'
        · simp only [reduceCtorEq, false_iff, not_forall]
          exact ⟨k, q, by simp, by simp [hq]⟩
      | some b =>
        obtain ⟨bh, br⟩ := b
        obtain ⟨b1, b2, b3⟩ := (i1 bh br).1 hb
        have hkb := hk _ _ b1
        constructor
        · intro h r
          simp only [List.mem_cons, Prod.mk.injEq]
          split
          · rename_i hle
            simp only [Option.some.injEq, Prod.mk.injEq]
            constructor
            · rintro ⟨rfl, rfl⟩
              refine ⟨.inl ⟨rfl, rfl⟩, hq, ?_⟩
              rintro h' r' (⟨rfl, rfl⟩ | hm) hq'
              · exact .inr ⟨rfl, Nat.le_refl _⟩
              · have := b3 _ _ hm hq'; have := hk _ _ hm; omega
            · rintro ⟨⟨rfl, rfl⟩ | hm, hq', h3⟩
              · exact ⟨rfl, rfl⟩
              · have := h3 k q (.inl ⟨rfl, rfl⟩) hq; have := hk _ _ hm; have := b3 _ _ hm hq'
                omega
          · rename_i hle
            simp only [Option.some.injEq, Prod.mk.injEq]
            constructor
            · rintro ⟨rfl, rfl⟩
              refine ⟨.inr b1, b2, ?_⟩
              rintro h' r' (⟨rfl, rfl⟩ | hm) hq'
              · omega
              · exact b3 _ _ hm hq'
            · rintro ⟨⟨rfl, rfl⟩ | hm, hq', h3⟩
              · have := h3 bh br (.inr b1) b2; omega
              · have h4 := (i1 h r).2 ⟨hm, hq', fun h' r' hm' => h3 h' r' (.inr hm')⟩
                rw [hb] at h4; cases h4; exact ⟨rfl, rfl⟩
        · have : (if s.anchorChainage q ≤ s.anchorChainage br then some (k, q) else some (bh, br)) ≠ none := by
            split <;> simp
          simp only [this, false_iff, not_forall]
          exact ⟨k, q, by simp, by simp [hq]⟩
    · simp only [hq, List.mem_cons, Prod.mk.injEq]
      constructor
      · intro h r
        simp only [Bool.false_eq_true, if_false]
        rw [i1]
        constructor
        · rintro ⟨h1, h2, h3⟩
          refine ⟨.inr h1, h2, ?_⟩
          rintro h' r' (⟨rfl, rfl⟩ | hm) hq'
          · exact absurd hq' hq
          · exact h3 _ _ hm hq'
        · rintro ⟨⟨rfl, rfl⟩ | hm, h2, h3⟩
          · exact absurd h2 hq
          · exact ⟨hm, h2, fun h' r' hm' => h3 h' r' (.inr hm')⟩
      · simp only [Bool.false_eq_true, if_false]
        rw [i2]
        constructor
        · rintro h h' r' (⟨rfl, rfl⟩ | hm)
          · simpa using hq
          · exact h _ _ hm
        · intro h h' r' hm; exact h _ _ (.inr hm)

end Sys2Proof.Machine
end

