-- ==== Sys2Proof/Laws/Payloads.lean ====
section
/-! SUPPORT. What reading the payloads of DEFINE_GANTRY, DEFINE_STATION, RAISE_INCIDENT, AMEND_INCIDENT and PLACE_DEMAND
gives, said once in the words of R1 to R3, R116, R117, R132 and R175. -/

namespace Sys2Proof.Machine

/-! ### Bytes that choose -/

theorem yesNo_no : yesNo 0#8 = some false := rfl

theorem yesNo_yes : yesNo 1#8 = some true := rfl

theorem yesNo_none {b : Byte} (h : 2 ≤ b.toNat) : yesNo b = none := by
  unfold yesNo
  rw [if_neg, if_neg] <;> (rintro rfl; simp at h)

theorem yesNo_small {b : Byte} (h : b.toNat ≤ 1) : yesNo b = some (decide (b = 1#8)) := by
  have : b.toNat = 0 ∨ b.toNat = 1 := by omega
  rcases this with h | h
  · obtain rfl : b = 0#8 := BitVec.eq_of_toNat_eq h
    rfl
  · obtain rfl : b = 1#8 := BitVec.eq_of_toNat_eq h
    rfl

/-- A set of positions is one a gantry may have exactly when it is a contiguous run with one of 1 to 5 (R1). -/
theorem gantryLanes_iff : ∀ l : LaneSet, LaneSet.gantryLanes l = true ↔ ∃ lo, lo < 6 ∧ ∃ hi, hi < 6 ∧ lo ≤ hi ∧ 1 ≤ hi ∧
    ∀ q, q < 6 → (l.getLsbD q = true ↔ lo ≤ q ∧ q ≤ hi) := by decide +kernel

/-- The same of the byte that is sent. -/
theorem gantryLanes_byte (b : Byte) : LaneSet.gantryLanes (b.setWidth 6) = true ↔ ∃ lo hi, lo ≤ hi ∧ 1 ≤ hi ∧ hi ≤ 5 ∧
    ∀ q, q < 6 → (b.getLsbD q = true ↔ lo ≤ q ∧ q ≤ hi) := by
  rw [gantryLanes_iff]
  constructor
  · rintro ⟨lo, _, hi, _, a, b, c⟩
    refine ⟨lo, hi, a, b, by omega, fun q hq => ?_⟩
    rw [← c q hq, BitVec.getLsbD_setWidth]
    simp [hq]
  · rintro ⟨lo, hi, a, b, d, c⟩
    refine ⟨lo, by omega, hi, by omega, a, b, fun q hq => ?_⟩
    rw [← c q hq, BitVec.getLsbD_setWidth]
    simp [hq]

/-! ### DEFINE_GANTRY (R1, R2) -/

/-- Every field of R1 in its range. -/
theorem parseDefineGantry_good {g c1 c0 l a ls p sc : Byte} (h1 : 1 ≤ g.toNat) (h2 : g.toNat ≤ 32)
    (h3 : c1.toNat * 256 + c0.toNat ≤ 65000) (h4 : l.toNat ≤ 1) (h5 : 1 ≤ a.toNat) (h6 : a.toNat ≤ 16)
    (h7 : ls.toNat < 64) (h8 : LaneSet.gantryLanes (ls.setWidth 6) = true) (h9 : p.toNat ≤ 1) (h10 : sc.toNat ≤ 4) :
    parseDefineGantry [0#8, g, c1, c0, l, a, ls, p, sc] = .ok (.define g.toNat
      { chainage := c1.toNat * 256 + c0.toNat, line := if l = 0#8 then .a else .b, address := a.toNat,
        lanes := ls.setWidth 6, panel := decide (p = 1#8), sec := sc.toNat, service := .inService }) := by
  simp only [parseDefineGantry, yesNo_no, laneSetOf, if_pos h7, yesNo_small h9, num2]
  exact if_pos ⟨h1, h2, h3, h4, h5, h6, h8, h10⟩

/-- A field out of its range. -/
theorem parseDefineGantry_bad {g c1 c0 l a ls p sc : Byte}
    (h : ¬(1 ≤ g.toNat ∧ g.toNat ≤ 32 ∧ c1.toNat * 256 + c0.toNat ≤ 65000 ∧ l.toNat ≤ 1 ∧ 1 ≤ a.toNat ∧ a.toNat ≤ 16 ∧
      (ls.toNat < 64 ∧ LaneSet.gantryLanes (ls.setWidth 6) = true) ∧ p.toNat ≤ 1 ∧ sc.toNat ≤ 4)) :
    parseDefineGantry [0#8, g, c1, c0, l, a, ls, p, sc] = .badValue := by
  simp only [parseDefineGantry, yesNo_no, laneSetOf]
  by_cases h7 : ls.toNat < 64
  · by_cases h9 : p.toNat ≤ 1
    · simp only [if_pos h7, yesNo_small h9, num2]
      refine if_neg ?_
      rintro ⟨a1, a2, a3, a4, a5, a6, a7, a8⟩
      exact h ⟨a1, a2, a3, a4, a5, a6, ⟨h7, a7⟩, h9, a8⟩
    · simp [if_pos h7, yesNo_none (b := p) (by omega)]
  · simp [if_neg h7]

/-- With remove yes, the number alone. -/
theorem parseDefineGantry_remove (g : Byte) :
    parseDefineGantry [1#8, g] = if 1 ≤ g.toNat ∧ g.toNat ≤ 32 then .ok (.remove g.toNat) else .badValue := rfl

/-- A payload that is not as long as its remove byte calls for (R2; another remove byte: log 14). -/
theorem parseDefineGantry_length {rm : Byte} {fields : List Byte}
    (h : rm = 0#8 ∧ fields.length ≠ 8 ∨ rm = 1#8 ∧ fields.length ≠ 1 ∨
      2 ≤ rm.toNat ∧ fields.length ≠ 1 ∧ fields.length ≠ 8) : parseDefineGantry (rm :: fields) = .badLength := by
  rcases h with ⟨rfl, h⟩ | ⟨rfl, h⟩ | ⟨h, h1, h2⟩
  · simp only [parseDefineGantry, yesNo_no]
    split
    · simp at h
    · rfl
  · simp only [parseDefineGantry, yesNo_yes]
    split
    · simp at h
    · rfl
  · simp [parseDefineGantry, yesNo_none h, badOf, h1, h2]

/-- A remove byte that is neither (log 14). -/
theorem parseDefineGantry_choice {rm : Byte} {fields : List Byte} (h : 2 ≤ rm.toNat)
    (hl : fields.length = 1 ∨ fields.length = 8) : parseDefineGantry (rm :: fields) = .badValue := by
  simp [parseDefineGantry, yesNo_none h, badOf, hl]

/-! ### DEFINE_STATION (R3) -/

/-- The fields of R3: stored when each is in its range and the loops do not overlap, a bad value else. -/
theorem parseDefineStation_fields (n c1 c0 h ls d1 d0 w1 w0 : Byte) :
    parseDefineStation [0#8, n, c1, c0, h, ls, d1, d0, w1, w0] =
      if 1 ≤ n.toNat ∧ n.toNat ≤ 24 ∧ c1.toNat * 256 + c0.toNat ≤ 65000 ∧ 1 ≤ h.toNat ∧ h.toNat ≤ 32 ∧ ls.toNat < 64 ∧
          300 ≤ d1.toNat * 256 + d0.toNat ∧ d1.toNat * 256 + d0.toNat ≤ 600 ∧ 100 ≤ w1.toNat * 256 + w0.toNat ∧
          w1.toNat * 256 + w0.toNat ≤ 300 ∧ w1.toNat * 256 + w0.toNat < d1.toNat * 256 + d0.toNat then
        .ok (.define n.toNat
          { chainage := c1.toNat * 256 + c0.toNat, host := h.toNat, lanes := ls.setWidth 6,
            spacing := d1.toNat * 256 + d0.toNat, loopLength := w1.toNat * 256 + w0.toNat })
      else .badValue := by
  simp only [parseDefineStation, yesNo_no, laneSetOf, num2]
  by_cases h7 : ls.toNat < 64
  · simp only [if_pos h7]
    exact if_congr (by simp [h7]) rfl rfl
  · simp [h7]

/-- With remove yes, the number alone. -/
theorem parseDefineStation_remove (n : Byte) :
    parseDefineStation [1#8, n] = if 1 ≤ n.toNat ∧ n.toNat ≤ 24 then .ok (.remove n.toNat) else .badValue := rfl

/-- A payload that is not as long as its remove byte calls for (R2; another remove byte: log 14). -/
theorem parseDefineStation_length {rm : Byte} {fields : List Byte}
    (h : rm = 0#8 ∧ fields.length ≠ 9 ∨ rm = 1#8 ∧ fields.length ≠ 1 ∨
      2 ≤ rm.toNat ∧ fields.length ≠ 1 ∧ fields.length ≠ 9) : parseDefineStation (rm :: fields) = .badLength := by
  rcases h with ⟨rfl, h⟩ | ⟨rfl, h⟩ | ⟨h, h1, h2⟩
  · simp only [parseDefineStation, yesNo_no]
    split
    · simp at h
    · rfl
  · simp only [parseDefineStation, yesNo_yes]
    split
    · simp at h
    · rfl
  · simp [parseDefineStation, yesNo_none h, badOf, h1, h2]

/-- A remove byte that is neither (log 14). -/
theorem parseDefineStation_choice {rm : Byte} {fields : List Byte} (h : 2 ≤ rm.toNat)
    (hl : fields.length = 1 ∨ fields.length = 9) : parseDefineStation (rm :: fields) = .badValue := by
  simp [parseDefineStation, yesNo_none h, badOf, hl]

/-! ### RAISE_INCIDENT (R116) -/

/-- A one-byte field that may be absent, as it is sent (R174). -/
def optSent (o : Option Byte) : List Byte :=
  match o with
  | none => [0#8]
  | some v => [1#8, v]

theorem optByte_sent (o : Option Byte) (more : List Byte) : optByte (optSent o ++ more) = .ok (o, more) := by
  cases o <;> rfl

/-- Behind a field that is sent, the length is that of the rest. -/
theorem fieldsFit_optSent (ws : List Nat) (o : Option Byte) (more : List Byte) :
    fieldsFit presence (1 :: ws) (optSent o ++ more) = fieldsFit presence ws more := by
  cases o <;> simp [optSent, fieldsFit, presence, yesNo]

/-- A field that is cut short fits no length. -/
theorem fieldsFit_short (ws : List Nat) (o : Option Byte) {n : Nat} (h : n < (optSent o).length) :
    fieldsFit presence (1 :: ws) ((optSent o).take n) = false := by
  cases o with
  | none =>
    obtain rfl : n = 0 := by simp [optSent] at h; omega
    rfl
  | some v =>
    have : n = 0 ∨ n = 1 := by simp [optSent] at h; omega
    rcases this with rfl | rfl <;> simp [optSent, fieldsFit, presence, yesNo]

/-- Fields that are cut short somewhere fit no length. -/
theorem fieldsFit_cut (os : List (Option Byte)) {n : Nat} (h : n < (os.flatMap optSent).length) :
    fieldsFit presence (os.map fun _ => 1) ((os.flatMap optSent).take n) = false := by
  induction os generalizing n with
  | nil => simp at h
  | cons o os ih =>
    rw [List.flatMap_cons] at h ⊢
    rw [List.map_cons, List.take_append]
    by_cases hn : n < (optSent o).length
    · rw [show n - (optSent o).length = 0 by omega, List.take_zero, List.append_nil]
      exact fieldsFit_short _ _ hn
    · rw [List.take_of_length_le (by omega), fieldsFit_optSent]
      exact ih (by rw [List.length_append] at h; omega)

/-- Whether the payload behind kind, start and end is as long as it should be: nothing behind the three fields, and lanes
for a LANE_CLOSURE (log 13). -/
theorem raiseFits_sent (k : Byte) (lanes cap legend : Option Byte) (more : List Byte) :
    raiseFits k (optSent lanes ++ (optSent cap ++ (optSent legend ++ more))) = true ↔
      more = [] ∧ ¬(k = 0#8 ∧ lanes = none) := by
  have e : ∀ xs : List Byte, fieldsFit presence [1, 1] (optSent cap ++ (optSent legend ++ xs)) = xs.isEmpty := fun xs => by
    rw [fieldsFit_optSent, fieldsFit_optSent]
    rfl
  unfold raiseFits
  by_cases hk : k = 0#8
  · subst hk
    cases lanes with
    | none =>
      cases cap <;> simp [optSent]
    | some v => simp [optSent.eq_2, e]
  · rw [if_neg hk, fieldsFit_optSent, e]
    simp [hk]

/-- A whole payload is judged by its values, one with more bytes or without the lanes of a LANE_CLOSURE by its length. -/
theorem parseRaise_sent (k s1 s0 e1 e0 : Byte) (lanes cap legend : Option Byte) (more : List Byte) :
    parseRaise (k :: s1 :: s0 :: e1 :: e0 :: (optSent lanes ++ (optSent cap ++ (optSent legend ++ more)))) =
      if more = [] ∧ ¬(k = 0#8 ∧ lanes = none) then checkRaise k s1 s0 e1 e0 lanes cap legend else .badLength := by
  simp only [parseRaise, optByte_sent, Parsed.andThen]
  by_cases h : more = [] ∧ ¬(k = 0#8 ∧ lanes = none)
  · rw [if_pos ((raiseFits_sent ..).2 h), if_pos h, h.1]
  · rw [if_neg (fun x => h ((raiseFits_sent ..).1 x)), if_neg h]

/-- A payload that is cut short. -/
theorem parseRaise_cut {k s1 s0 e1 e0 : Byte} {lanes cap legend : Option Byte} {n : Nat}
    (h : n < (k :: s1 :: s0 :: e1 :: e0 :: (optSent lanes ++ optSent cap ++ optSent legend)).length) :
    parseRaise ((k :: s1 :: s0 :: e1 :: e0 :: (optSent lanes ++ optSent cap ++ optSent legend)).take n) = .badLength := by
  rcases n with _ | _ | _ | _ | _ | n
  · rfl
  · rfl
  · rfl
  · rfl
  · rfl
  simp only [List.take_succ_cons, parseRaise]
  have hl : n < ([lanes, cap, legend].flatMap optSent).length := by
    simp only [List.length_cons, List.length_append] at h
    simp only [List.flatMap_cons, List.flatMap_nil, List.length_append, List.length_nil]
    omega
  rw [if_neg]
  rw [Bool.not_eq_true]
  unfold raiseFits
  split
  · cases lanes with
    | none =>
      cases n with
      | zero => rfl
      | succ n =>
        cases cap <;> cases n <;> simp [optSent]
    | some v =>
      rcases n with _ | _ | n
      · rfl
      · rfl
      · have := fieldsFit_cut [cap, legend] (n := n) (by simp [List.flatMap_cons, optSent] at hl ⊢; omega)
        simpa [optSent.eq_2, List.flatMap_cons] using this
  · have := fieldsFit_cut [lanes, cap, legend] hl
    simpa [List.flatMap_cons] using this

/-- The lanes of a LANE_CLOSURE. -/
theorem closureLanes_eq (b : Byte) :
    closureLanes b = if 0 < b.toNat ∧ b.toNat < 63 then some (b.setWidth 6) else none := rfl

/-- Only code 0 names a LANE_CLOSURE. -/
theorem kindOfCode_laneClosure {k : Byte} {kind : IncidentKind} (hk : kindOfCode k = some kind) :
    kind = .laneClosure ↔ k = 0#8 := by
  unfold kindOfCode at hk
  split at hk
  · cases hk; simp_all
  · rename_i h0
    split at hk
    · cases hk; simp [h0]
    · split at hk
      · cases hk; simp [h0]
      · split at hk
        · cases hk; simp [h0]
        · cases hk

/-- A value out of range (R116, step 2). -/
theorem checkRaise_bad {k s1 s0 e1 e0 : Byte} {lanes cap legend : Option Byte} (hl : ¬(k = 0#8 ∧ lanes = none))
    (h : 3 < k.toNat ∨ 65000 < s1.toNat * 256 + s0.toNat ∨ 65000 < e1.toNat * 256 + e0.toNat ∨
      e1.toNat * 256 + e0.toNat < s1.toNat * 256 + s0.toNat ∨
      (∃ v, k = 0#8 ∧ lanes = some v ∧ (v.toNat = 0 ∨ 63 ≤ v.toNat)) ∨ k ≠ 0#8 ∧ lanes ≠ none ∨
      ∃ v, legend = some v ∧ (v.toNat = 0 ∨ 63 < v.toNat)) :
    checkRaise k s1 s0 e1 e0 lanes cap legend = .badValue := by
  unfold checkRaise
  cases hk : kindOfCode k with
  | none => rfl
  | some kind =>
    have hz := kindOfCode_laneClosure hk
    have hs : k.toNat ≤ 3 := by
      unfold kindOfCode at hk
      repeat' split at hk
      all_goals first | (subst_vars; decide) | cases hk
    simp only [hz, if_neg hl, num2]
    by_cases hr : 65000 < s1.toNat * 256 + s0.toNat ∨ 65000 < e1.toNat * 256 + e0.toNat ∨
        e1.toNat * 256 + e0.toNat < s1.toNat * 256 + s0.toNat
    · exact if_pos hr
    rw [if_neg hr]
    by_cases hg : legendOptOk legend = false
    · exact if_pos hg
    rw [if_neg hg]
    have hg' : ¬∃ v, legend = some v ∧ (v.toNat = 0 ∨ 63 < v.toNat) := by
      rintro ⟨v, rfl, h⟩
      simp only [legendOptOk, legendOk, Bool.not_eq_false, Bool.and_eq_true, decide_eq_true_eq] at hg
      omega
    have h' : (∃ v, k = 0#8 ∧ lanes = some v ∧ (v.toNat = 0 ∨ 63 ≤ v.toNat)) ∨ k ≠ 0#8 ∧ lanes ≠ none := by
      rcases h with h | h | h | h | h | h | h
      · omega
      · exact absurd (.inl h) hr
      · exact absurd (.inr (.inl h)) hr
      · exact absurd (.inr (.inr h)) hr
      · exact .inl h
      · exact .inr h
      · exact absurd h hg'
    rcases h' with ⟨v, rfl, rfl, hv⟩ | ⟨h1, h2⟩
    · simp only [if_true, closureLanes_eq]
      rw [if_neg (by omega)]
    · cases lanes with
      | none => exact absurd rfl h2
      | some v => simp [h1]

/-- Every value in range: the fields that are carried. -/
theorem checkRaise_good {k s1 s0 e1 e0 : Byte} {lanes cap legend : Option Byte} {kind : IncidentKind}
    (hk : kindOfCode k = some kind) (hl : ¬(k = 0#8 ∧ lanes = none))
    (h : ¬(3 < k.toNat ∨ 65000 < s1.toNat * 256 + s0.toNat ∨ 65000 < e1.toNat * 256 + e0.toNat ∨
      e1.toNat * 256 + e0.toNat < s1.toNat * 256 + s0.toNat ∨
      (∃ v, k = 0#8 ∧ lanes = some v ∧ (v.toNat = 0 ∨ 63 ≤ v.toNat)) ∨ k ≠ 0#8 ∧ lanes ≠ none ∨
      ∃ v, legend = some v ∧ (v.toNat = 0 ∨ 63 < v.toNat))) :
    checkRaise k s1 s0 e1 e0 lanes cap legend = .ok ⟨kind, s1.toNat * 256 + s0.toNat, e1.toNat * 256 + e0.toNat,
      lanes.map fun v => v.setWidth 6, cap.map fun v => v.toNat, legend.map fun v => v.toNat⟩ := by
  simp only [not_or] at h
  obtain ⟨-, h1, h2, h3, h4, h5, h6⟩ := h
  have hz := kindOfCode_laneClosure hk
  simp only [checkRaise, hk, hz, if_neg hl, num2]
  have hr : ¬(65000 < s1.toNat * 256 + s0.toNat ∨ 65000 < e1.toNat * 256 + e0.toNat ∨
      e1.toNat * 256 + e0.toNat < s1.toNat * 256 + s0.toNat) := by simp only [not_or]; exact ⟨h1, h2, h3⟩
  rw [if_neg hr, if_neg]
  · cases lanes with
    | none => rfl
    | some v =>
      by_cases h0 : k = 0#8
      · simp only [h0, if_true, closureLanes_eq]
        rw [if_pos]
        · rfl
        · have : ¬(v.toNat = 0 ∨ 63 ≤ v.toNat) := fun x => h4 ⟨v, h0, rfl, x⟩
          omega
      · exact absurd ⟨h0, by simp⟩ h5
  · cases legend with
    | none => simp [legendOptOk]
    | some v =>
      have : ¬(v.toNat = 0 ∨ 63 < v.toNat) := fun x => h6 ⟨v, rfl, x⟩
      simp only [legendOptOk, legendOk, Bool.not_eq_false, Bool.and_eq_true, decide_eq_true_eq]
      omega

/-! ### Bytes outside their list (R175, log 14) -/

/-- One field of a payload behind its presence or mark byte, of a length that some reading of that byte calls for. -/
def FieldPiece (carries : Byte → Option Bool) (w : Nat) (x : List Byte) : Prop :=
  (∃ m, x = [m] ∧ carries m ≠ some true) ∨ ∃ m v, x = m :: v ∧ v.length = w ∧ carries m ≠ some false

/-- A field of such a length leaves the judgement to the rest. -/
theorem fieldsFit_piece {carries : Byte → Option Bool} {w : Nat} {x : List Byte} (h : FieldPiece carries w x)
    {ws : List Nat} {rest : List Byte} (hr : fieldsFit carries ws rest = true) :
    fieldsFit carries (w :: ws) (x ++ rest) = true := by
  rcases h with ⟨m, rfl, h⟩ | ⟨m, v, rfl, rfl, h⟩ <;> simp [fieldsFit, hr, h]

/-- A presence byte is read with its field, or is outside its list. -/
theorem optByte_piece {x : List Byte} (h : FieldPiece presence 1 x) (rest : List Byte) :
    (∃ o, optByte (x ++ rest) = .ok (o, rest)) ∧ (∀ p v, x = p :: v → p.toNat < 2) ∨
      optByte (x ++ rest) = .badValue := by
  have small : ∀ p : Byte, p = 0#8 ∨ p = 1#8 ∨ (p ≠ 0#8 ∧ p ≠ 1#8) := fun p => by
    by_cases a : p = 0#8 <;> by_cases b : p = 1#8 <;> simp [a, b]
  rcases h with ⟨m, rfl, h⟩ | ⟨m, v, rfl, hv, h⟩
  · rcases small m with rfl | rfl | ⟨a, b⟩
    · exact .inl ⟨⟨_, rfl⟩, fun p v e => by cases e; decide⟩
    · exact absurd rfl h
    · exact .inr (by simp [optByte, a, b])
  · rcases small m with rfl | rfl | ⟨a, b⟩
    · exact absurd rfl h
    · obtain ⟨y, rfl⟩ := List.length_eq_one_iff.1 hv
      exact .inl ⟨⟨_, rfl⟩, fun p v e => by cases e; decide⟩
    · exact .inr (by simp [optByte, a, b])

/-- A presence byte outside its list in a payload whose length fits. -/
theorem parseRaise_choice {k s1 s0 e1 e0 : Byte} {a b c : List Byte} (ha : FieldPiece presence 1 a)
    (hb : FieldPiece presence 1 b) (hc : FieldPiece presence 1 c) (hk : k = 0#8 → a.length = 2)
    (h : ∃ x ∈ [a, b, c], ∃ p v, x = p :: v ∧ 2 ≤ p.toNat) :
    parseRaise (k :: s1 :: s0 :: e1 :: e0 :: (a ++ (b ++ c))) = .badValue := by
  have fb : fieldsFit presence [1, 1] (b ++ c) = true :=
    fieldsFit_piece hb (by simpa using fieldsFit_piece hc (ws := []) (rest := []) rfl)
  have fits : raiseFits k (a ++ (b ++ c)) = true := by
    unfold raiseFits
    split
    · rename_i hz
      rcases ha with ⟨m, rfl, _⟩ | ⟨m, v, rfl, hv, hm⟩
      · simp at hk; exact absurd hz hk
      · obtain ⟨y, rfl⟩ := List.length_eq_one_iff.1 hv
        have : m ≠ 0#8 := fun e => hm (by rw [e]; rfl)
        simp [fb, this]
    · exact fieldsFit_piece ha fb
  simp only [parseRaise, fits, if_true]
  rcases optByte_piece ha (b ++ c) with ⟨⟨o, e⟩, oa⟩ | e
  · rw [e, Parsed.andThen]
    rcases optByte_piece hb c with ⟨⟨o', e'⟩, ob⟩ | e'
    · simp only [e', Parsed.andThen]
      rcases optByte_piece hc [] with ⟨⟨o'', e''⟩, oc⟩ | e''
      · obtain ⟨x, hx, p, v, rfl, hp⟩ := h
        simp only [List.mem_cons, List.not_mem_nil, or_false] at hx
        rcases hx with hx | hx | hx
        · have := oa p v hx.symm; omega
        · have := ob p v hx.symm; omega
        · have := oc p v hx.symm; omega
      · rw [List.append_nil] at e''
        rw [e'']
    · simp only [e', Parsed.andThen]
  · rw [e]; rfl

/-- A mark byte is read with its field of one byte, or is none of the three. -/
theorem mark1_piece {x : List Byte} (h : FieldPiece markCarries 1 x) (rest : List Byte) :
    (∃ o, mark1 (x ++ rest) = .ok (o, rest)) ∧ (∀ p v, x = p :: v → p.toNat < 3) ∨ mark1 (x ++ rest) = .badValue := by
  have small : ∀ p : Byte, p = 0#8 ∨ p = 1#8 ∨ p = 2#8 ∨ (p ≠ 0#8 ∧ p ≠ 1#8 ∧ p ≠ 2#8) := fun p => by
    by_cases a : p = 0#8 <;> by_cases b : p = 1#8 <;> by_cases c : p = 2#8 <;> simp [a, b, c]
  rcases h with ⟨m, rfl, h⟩ | ⟨m, v, rfl, hv, h⟩
  · rcases small m with rfl | rfl | rfl | ⟨a, b, c⟩
    · exact .inl ⟨⟨_, rfl⟩, fun p v e => by cases e; decide⟩
    · exact absurd rfl h
    · exact .inl ⟨⟨_, rfl⟩, fun p v e => by cases e; decide⟩
    · exact .inr (by simp [mark1, a, b, c])
  · rcases small m with rfl | rfl | rfl | ⟨a, b, c⟩
    · exact absurd rfl h
    · obtain ⟨y, rfl⟩ := List.length_eq_one_iff.1 hv
      exact .inl ⟨⟨_, rfl⟩, fun p v e => by cases e; decide⟩
    · exact absurd rfl h
    · exact .inr (by simp [mark1, a, b, c])

/-- The same of a field of two bytes. -/
theorem mark2_piece {x : List Byte} (h : FieldPiece markCarries 2 x) (rest : List Byte) :
    (∃ o, mark2 (x ++ rest) = .ok (o, rest)) ∧ (∀ p v, x = p :: v → p.toNat < 3) ∨ mark2 (x ++ rest) = .badValue := by
  have small : ∀ p : Byte, p = 0#8 ∨ p = 1#8 ∨ p = 2#8 ∨ (p ≠ 0#8 ∧ p ≠ 1#8 ∧ p ≠ 2#8) := fun p => by
    by_cases a : p = 0#8 <;> by_cases b : p = 1#8 <;> by_cases c : p = 2#8 <;> simp [a, b, c]
  rcases h with ⟨m, rfl, h⟩ | ⟨m, v, rfl, hv, h⟩
  · rcases small m with rfl | rfl | rfl | ⟨a, b, c⟩
    · exact .inl ⟨⟨_, rfl⟩, fun p v e => by cases e; decide⟩
    · exact absurd rfl h
    · exact .inl ⟨⟨_, rfl⟩, fun p v e => by cases e; decide⟩
    · exact .inr (by simp [mark2, a, b, c])
  · rcases small m with rfl | rfl | rfl | ⟨a, b, c⟩
    · exact absurd rfl h
    · obtain ⟨y, z, rfl⟩ := List.length_eq_two.1 hv
      exact .inl ⟨⟨_, rfl⟩, fun p v e => by cases e; decide⟩
    · exact absurd rfl h
    · exact .inr (by simp [mark2, a, b, c])

/-- A mark byte that is none of the three in a payload whose length fits. -/
theorem parseAmend_choice {h : Byte} {a b c d e : List Byte} (ha : FieldPiece markCarries 2 a)
    (hb : FieldPiece markCarries 2 b) (hc : FieldPiece markCarries 1 c) (hd : FieldPiece markCarries 1 d)
    (he : FieldPiece markCarries 1 e) (hx : ∃ x ∈ [a, b, c, d, e], ∃ p v, x = p :: v ∧ 3 ≤ p.toNat) :
    parseAmend (h :: (a ++ (b ++ (c ++ (d ++ e))))) = .badValue := by
  have fe : fieldsFit markCarries [1] e = true := by simpa using fieldsFit_piece he (ws := []) (rest := []) rfl
  simp only [parseAmend, fieldsFit_piece ha (fieldsFit_piece hb (fieldsFit_piece hc (fieldsFit_piece hd fe))), if_true]
  rcases mark2_piece ha (b ++ (c ++ (d ++ e))) with ⟨⟨_, q⟩, oa⟩ | q <;> simp only [q, Parsed.andThen]
  rcases mark2_piece hb (c ++ (d ++ e)) with ⟨⟨_, q⟩, ob⟩ | q <;> simp only [q]
  rcases mark1_piece hc (d ++ e) with ⟨⟨_, q⟩, oc⟩ | q <;> simp only [q]
  rcases mark1_piece hd e with ⟨⟨_, q⟩, od⟩ | q <;> simp only [q]
  rcases mark1_piece he [] with ⟨⟨_, q⟩, oe⟩ | q <;> rw [List.append_nil] at q <;> simp only [q]
  obtain ⟨x, hx, p, v, rfl, hp⟩ := hx
  simp only [List.mem_cons, List.not_mem_nil, or_false] at hx
  rcases hx with hx | hx | hx | hx | hx
  · have := oa p v hx.symm; omega
  · have := ob p v hx.symm; omega
  · have := oc p v hx.symm; omega
  · have := od p v hx.symm; omega
  · have := oe p v hx.symm; omega

/-- A mark that is cut short fits no length. -/
theorem fieldsFit_markCut (ms : List (Bool × Mark)) {n : Nat} (h : n < (ms.flatMap fun x => x.2.sent x.1).length) :
    fieldsFit markCarries (ms.map fun x => if x.1 then 2 else 1) ((ms.flatMap fun x => x.2.sent x.1).take n) = false := by
  induction ms generalizing n with
  | nil => simp at h
  | cons o os ih =>
    obtain ⟨wide, m⟩ := o
    rw [List.flatMap_cons] at h ⊢
    rw [List.map_cons, List.take_append]
    dsimp only at h ⊢
    by_cases hn : n < (m.sent wide).length
    · rw [show n - (m.sent wide).length = 0 by omega, List.take_zero, List.append_nil]
      have e1 : markCarries 1#8 = some true := rfl
      cases m with
      | keep => obtain rfl : n = 0 := by simp [Mark.sent] at hn; omega
                rfl
      | remove => obtain rfl : n = 0 := by simp [Mark.sent] at hn; omega
                  rfl
      | set v =>
        rcases n with _ | n
        · rfl
        · cases wide
          · obtain rfl : n = 0 := by simp [Mark.sent] at hn; omega
            simp [Mark.sent, fieldsFit, e1]
          · have : n = 0 ∨ n = 1 := by simp [Mark.sent] at hn; omega
            rcases this with rfl | rfl <;> simp [Mark.sent, fieldsFit, e1]
    · rw [List.take_of_length_le (by omega), fieldsFit_sent]
      exact ih (by rw [List.length_append] at h; omega)

/-- A payload of AMEND_INCIDENT that is cut short. -/
theorem parseAmend_cut {h : Byte} {start stop lanes cap legend : Mark} {n : Nat}
    (hn : n < (h :: (start.sent true ++ stop.sent true ++ lanes.sent false ++ cap.sent false ++ legend.sent false)).length) :
    parseAmend ((h :: (start.sent true ++ stop.sent true ++ lanes.sent false ++ cap.sent false ++ legend.sent false)).take n)
      = .badLength := by
  rcases n with _ | n
  · rfl
  have := fieldsFit_markCut [(true, start), (true, stop), (false, lanes), (false, cap), (false, legend)] (n := n) (by
    simp [List.flatMap_cons] at hn ⊢; omega)
  simp only [List.take_succ_cons, parseAmend]
  rw [if_neg]
  simpa [List.flatMap_cons] using this

/-! ### PLACE_DEMAND (R132) -/

/-- Without a gantry and a kind there is no request. -/
theorem parsePlace_short {p : List Byte} (h : p.length < 2) : parsePlace p = .badLength := by
  rcases p with _ | ⟨a, _ | ⟨b, p⟩⟩
  · rfl
  · rfl
  · simp at h

/-- A kind byte names one of the three kinds, or is above them. -/
theorem kind_cases (k : Byte) : k = 0#8 ∨ k = 1#8 ∨ k = 2#8 ∨ (k ≠ 0#8 ∧ k ≠ 1#8 ∧ k ≠ 2#8 ∧ 3 ≤ k.toNat) := by
  have e : ∀ n : Nat, n < 256 → (k = BitVec.ofNat 8 n ↔ k.toNat = n) := fun n hn => by
    rw [← BitVec.toNat_inj, BitVec.toNat_ofNat, Nat.mod_eq_of_lt hn]
  have h0 := e 0 (by omega)
  have h1 := e 1 (by omega)
  have h2 := e 2 (by omega)
  simp only [h0, h1, h2, ne_eq]
  omega

/-- The aspect of a CELL demand is CLOSED or a DIVERT (R132). -/
theorem aspectOfCode_cell (a : Byte) :
    (a.toNat = 0 ∨ 3 < a.toNat) ∧ (∀ c, aspectOfCode a ≠ some .closed ∧ aspectOfCode a ≠ some (.divert c)) ∨
      ∃ c, (a, c) ∈ [(1#8, Cell.closed), (2#8, .divert .near), (3#8, .divert .off)] ∧ ¬(a.toNat = 0 ∨ 3 < a.toNat) ∧
        aspectOfCode a = some (match c with | .closed => .closed | .divert d => .divert d) := by
  by_cases h : a.toNat = 0 ∨ 3 < a.toNat
  · refine .inl ⟨h, fun c => ?_⟩
    unfold aspectOfCode
    dsimp only
    rw [if_neg (show ¬a.toNat = 1 by omega), if_neg (show ¬a.toNat = 2 by omega), if_neg (show ¬a.toNat = 3 by omega)]
    repeat' split
    all_goals simp
  · have : a.toNat = 1 ∨ a.toNat = 2 ∨ a.toNat = 3 := by omega
    rcases this with e | e | e
    · obtain rfl : a = 1#8 := BitVec.eq_of_toNat_eq e
      exact .inr ⟨.closed, by simp, h, rfl⟩
    · obtain rfl : a = 2#8 := BitVec.eq_of_toNat_eq e
      exact .inr ⟨.divert .near, by simp, h, rfl⟩
    · obtain rfl : a = 3#8 := BitVec.eq_of_toNat_eq e
      exact .inr ⟨.divert .off, by simp, h, rfl⟩

/-- A payload that does not fit the kind (R132, step 1); under a kind that is none, one that fits none (log 14). -/
theorem parsePlace_length {g k : Byte} {more : List Byte}
    (h : ¬(k = 0#8 ∧ more.length = 2 ∨ (k = 1#8 ∨ k = 2#8) ∧ more.length = 1 ∨
      3 ≤ k.toNat ∧ (more.length = 1 ∨ more.length = 2))) : parsePlace (g :: k :: more) = .badLength := by
  rcases kind_cases k with rfl | rfl | rfl | ⟨h0, h1, h2, h3⟩
  · rcases more with _ | ⟨x, _ | ⟨y, _ | ⟨z, more⟩⟩⟩
    · rfl
    · rfl
    · simp at h
    · rfl
  · rcases more with _ | ⟨x, _ | ⟨y, more⟩⟩
    · rfl
    · simp at h
    · rfl
  · rcases more with _ | ⟨x, _ | ⟨y, more⟩⟩
    · rfl
    · simp at h
    · rfl
  · simp only [parsePlace, if_neg h0, if_neg h1, if_neg h2, badOf]
    rw [if_neg]
    simp only [List.contains_eq_mem, List.mem_cons, List.not_mem_nil, or_false, decide_eq_true_eq]
    exact fun x => h (.inr (.inr ⟨h3, x⟩))

/-- R132, step 2, for a payload that fits its kind: a value out of range, or the demand as it is sent. -/
theorem parsePlace_fits {g k : Byte} {more : List Byte}
    (h : k = 0#8 ∧ more.length = 2 ∨ (k = 1#8 ∨ k = 2#8) ∧ more.length = 1 ∨
      3 ≤ k.toNat ∧ (more.length = 1 ∨ more.length = 2)) :
    let bad : Prop := g.toNat = 0 ∨ 32 < g.toNat ∨ 3 ≤ k.toNat ∨
      (∃ ls a, k = 0#8 ∧ more = [ls, a] ∧ (ls.toNat = 0 ∨ 64 ≤ ls.toNat ∨ a.toNat = 0 ∨ 3 < a.toNat)) ∨
      ∃ n, k = 2#8 ∧ more = [n] ∧ (n.toNat = 0 ∨ 63 < n.toNat)
    (bad → parsePlace (g :: k :: more) = .badValue) ∧
    (¬bad → ∃ what, parsePlace (g :: k :: more) = .ok ⟨g.toNat, what⟩ ∧
      ((∃ ls a c, k = 0#8 ∧ more = [ls, a] ∧ what = .cell (ls.setWidth 6) c ∧
          (a, c) ∈ [(1#8, Cell.closed), (2#8, .divert .near), (3#8, .divert .off)]) ∨
        (∃ v, k = 1#8 ∧ more = [v] ∧ what = .speed v.toNat) ∨
        ∃ n, k = 2#8 ∧ more = [n] ∧ what = .legend n.toNat)) := by
  intro bad
  rcases kind_cases k with rfl | rfl | rfl | ⟨h0, h1, h2, h3⟩
  · obtain ⟨ls, a, rfl⟩ : ∃ ls a, more = [ls, a] := by
      rcases h with h | h | h
      · exact List.length_eq_two.1 h.2
      · simp at h
      · simp at h
    have e : bad ↔ ¬(1 ≤ g.toNat ∧ g.toNat ≤ 32 ∧ 0 < ls.toNat ∧ ls.toNat < 64) ∨ (a.toNat = 0 ∨ 3 < a.toNat) := by
      simp only [bad]
      constructor
      · rintro (x | x | x | ⟨_, _, _, x, y⟩ | ⟨_, x, _⟩)
        · left; omega
        · left; omega
        · simp at x
        · simp only [List.cons.injEq, and_true] at x
          obtain ⟨rfl, rfl⟩ := x
          omega
        · simp at x
      · intro x
        by_cases hg : g.toNat = 0 ∨ 32 < g.toNat
        · omega
        · exact .inr (.inr (.inr (.inl ⟨ls, a, by simp, by simp, by omega⟩)))
    simp only [parsePlace, if_true]
    rcases aspectOfCode_cell a with ⟨ha, hc⟩ | ⟨c, hc, ha, hv⟩
    · refine ⟨fun _ => ?_, fun x => absurd (e.2 (.inr ha)) x⟩
      split
      · split
        · rename_i q; exact absurd q (hc .near).1
        · rename_i d q; exact absurd q (hc d).2
        · rfl
      · rfl
    · refine ⟨fun x => ?_, fun x => ?_⟩
      · rw [if_neg ((e.1 x).resolve_right ha)]
      · have hg : 1 ≤ g.toNat ∧ g.toNat ≤ 32 ∧ 0 < ls.toNat ∧ ls.toNat < 64 := by
          by_contra y; exact x (e.2 (.inl y))
        rw [if_pos hg, hv]
        refine ⟨.cell (ls.setWidth 6) c, ?_, .inl ⟨ls, a, c, by simp, by simp, by simp, hc⟩⟩
        cases c <;> rfl
  · obtain ⟨v, rfl⟩ : ∃ v, more = [v] := by
      rcases h with h | h | h
      · simp at h
      · exact List.length_eq_one_iff.1 h.2
      · simp at h
    have e : bad ↔ ¬(1 ≤ g.toNat ∧ g.toNat ≤ 32) := by simp [bad]; omega
    rw [e]
    have q : parsePlace [g, 1#8, v] = if 1 ≤ g.toNat ∧ g.toNat ≤ 32 then .ok ⟨g.toNat, .speed v.toNat⟩ else .badValue := rfl
    rw [q]
    exact ⟨fun x => if_neg x, fun x => ⟨_, if_pos (not_not.1 x), .inr (.inl ⟨v, by simp⟩)⟩⟩
  · obtain ⟨n, rfl⟩ : ∃ v, more = [v] := by
      rcases h with h | h | h
      · simp at h
      · exact List.length_eq_one_iff.1 h.2
      · simp at h
    have e : bad ↔ ¬(1 ≤ g.toNat ∧ g.toNat ≤ 32 ∧ legendOk n = true) := by simp [bad, legendOk]; omega
    rw [e]
    have q : parsePlace [g, 2#8, n] =
      if 1 ≤ g.toNat ∧ g.toNat ≤ 32 ∧ legendOk n = true then .ok ⟨g.toNat, .legend n.toNat⟩ else .badValue := rfl
    rw [q]
    exact ⟨fun x => if_neg x, fun x => ⟨_, if_pos (not_not.1 x), .inr (.inr ⟨n, by simp⟩)⟩⟩
  · refine ⟨fun _ => ?_, fun x => absurd (.inr (.inr (.inl h3))) x⟩
    have hl : more.length = 1 ∨ more.length = 2 := by
      rcases h with h | h | h
      · exact absurd h.1 h0
      · exact absurd h.1 (by simp [h1, h2])
      · exact h.2
    simp [parsePlace, h0, h1, h2, badOf, hl]

/-- A position that is named and not held, in the words of R132. -/
theorem within_false {l m : LaneSet} :
    LaneSet.within l m = false ↔ ∃ q, q < 6 ∧ l.getLsbD q = true ∧ m.getLsbD q = false := by
  have : ∀ l m : LaneSet, LaneSet.within l m = false ↔ ∃ q, q < 6 ∧ l.getLsbD q = true ∧ m.getLsbD q = false := by
    decide +kernel
  exact this l m

/-- R132, steps 4 to 6, for a gantry that is defined: a position it lacks, a full table, or the lowest free slot. -/
theorem placeChecked_defined {s : State} {d : Demand} {r : GantryRec} (changed : Option Nat)
    (hg : s.geo.gantries.look d.gantry = some r) :
    let lacks : Prop := ∃ ls c q, d.what = .cell ls c ∧ q < 6 ∧ ls.getLsbD q = true ∧ r.lanes.getLsbD q = false
    (lacks → placeChecked s d changed = refuse s .badValue) ∧
    (¬lacks → s.plan.demands.lowestFree demandSlots = none → placeChecked s d changed = refuse s .tableFull) ∧
    (∀ h, ¬lacks → s.plan.demands.lowestFree demandSlots = some h →
      (placeChecked s d changed).state =
        State.trigger { s with plan := { s.plan with demands := s.plan.demands.put h d } } ∧
      (changed = none → (placeChecked s d changed).result = .ok ∧ (placeChecked s d changed).detail = .handle h) ∧
      (∀ v, changed = some v →
        (placeChecked s d changed).result = .okClamped ∧ (placeChecked s d changed).detail = .handleSpeed h v)) := by
  intro lacks
  obtain ⟨g, what⟩ := d
  have pass : ¬lacks → ∀ ls c, what = .cell ls c → LaneSet.within ls r.lanes = true := fun hl ls c e => by
    by_contra x
    obtain ⟨q, hq⟩ := within_false.1 (Bool.not_eq_true _ ▸ x)
    exact hl ⟨ls, c, q, e, hq⟩
  refine ⟨?_, fun hl hf => ?_, fun h hl hf => ?_⟩
  · rintro ⟨ls, c, q, rfl, hq⟩
    simp [placeChecked, hg, within_false.2 ⟨q, hq⟩]
  · cases what with
    | cell ls c => simp [placeChecked, hg, pass hl ls c rfl, hf]
    | speed v => simp [placeChecked, hg, hf]
    | legend v => simp [placeChecked, hg, hf]
  · cases changed <;> cases what with
    | cell ls c => simp [placeChecked, hg, pass hl ls c rfl, hf]
    | speed v => simp [placeChecked, hg, hf]
    | legend v => simp [placeChecked, hg, hf]

end Sys2Proof.Machine
end

