-- ==== Sys2Proof/Laws/Receive.lean ====
section
/-! SUPPORT. What the sending of a request and the receiving of a reply come to (R37 to R41). -/

namespace Sys2Proof.Machine

/-! ### Sending -/

/-- A byte that is ACKed within its sendings. -/
theorem sendByte_acked {n : Nat} {bad : List Slot} {x : Slot} (rest : List Slot) (h : bad.length < n)
    (hb : ∀ y ∈ bad, slotAnswer y ≠ .ack) (hx : slotAnswer x = .ack) :
    sendByte n (bad ++ x :: rest) = some (true, rest) := by
  induction bad generalizing n with
  | nil => cases n with
    | zero => simp at h
    | succ n => simp [sendByte, hx]
  | cons y bad ih => cases n with
    | zero => simp at h
    | succ n =>
      simp only [List.cons_append, sendByte, hb y (by simp), if_false]
      exact ih (by simpa using h) fun z hz => hb z (by simp [hz])

/-- A byte that is ACKed at none of its sendings. -/
theorem sendByte_failed {xs : List Slot} (rest : List Slot) (h : ∀ x ∈ xs, slotAnswer x ≠ .ack) :
    sendByte xs.length (xs ++ rest) = some (false, rest) := by
  induction xs with
  | nil => rfl
  | cons y xs ih =>
    simp only [List.length_cons, List.cons_append, sendByte, h y (by simp), if_false]
    exact ih fun z hz => h z (by simp [hz])

/-- Bytes behind ADDRESS that are ACKed within their sendings leave the rest of the request to send. -/
theorem sendRest_taken {k : Nat} {sl : List Slot} (m : Nat) (rest : List Slot)
    (h : ackedWithin (List.replicate k 4) sl) : sendRest (k + m) (sl ++ rest) = sendRest m rest := by
  induction k generalizing sl with
  | zero => simp [ackedWithin] at h; simp [h]
  | succ k ih =>
    obtain ⟨bad, x, more, rfl, h1, h2, h3, h4⟩ := h
    rw [Nat.add_right_comm, List.append_assoc, List.cons_append]
    simp only [sendRest, sendByte_acked (more ++ rest) h1 h2 h3]
    exact ih h4

/-- A request whose first bytes are ACKed within their sendings leaves the rest of it to send. -/
theorem sendRequest_taken {k n : Nat} {sl : List Slot} (rest : List Slot) (h1 : 1 ≤ k) (hn : k ≤ n - 1)
    (h : ackedWithin (2 :: List.replicate (k - 1) 4) sl) : sendRequest n (sl ++ rest) = sendRest (n - 1 - k) rest := by
  obtain ⟨bad, x, more, rfl, h1, h2, h3, h4⟩ := h
  rw [List.append_assoc, List.cons_append]
  simp only [sendRequest, sendByte_acked (more ++ rest) h1 h2 h3]
  have e : n - 2 = (k - 1) + (n - 1 - k) := by omega
  rw [e, sendRest_taken _ _ h4]

/-! ### Receiving -/

variable {address function : Byte} {j : Job} {idle : Nat}

theorem receive_faulty {got : List Byte} {first : Bool} {c : LineChar} (cs : List LineChar)
    (hi : LineChar.intact c = false) (hg : c.gap ≤ if first then 20000 else 3000) :
    receive address function j idle got first (c :: cs) = receive address function j idle got false cs := by
  cases first <;> simp [receive, replyLimit, gapLimit, hi] at hg ⊢ <;> omega

theorem receive_intact {got : List Byte} {first : Bool} {c : LineChar} (cs : List LineChar)
    (hi : LineChar.intact c = true) (hg : c.gap ≤ if first then 20000 else 3000) :
    receive address function j idle got first (c :: cs) =
      if headerFails address function j (got ++ [c.data]) then .failed .corrupt false
      else
        match wholePayload (got ++ [c.data]) with
        | none => receive address function j idle (got ++ [c.data]) false cs
        | some p => if checkMatches (got ++ [c.data]) then .reply p else .failed .corrupt true := by
  cases first
  · have h : ¬ gapLimit < c.gap := by simp [gapLimit] at *; omega
    simp only [receive, h, hi, Bool.false_eq_true, false_and, and_false, if_true, if_false] <;> rfl
  · have h : ¬ replyLimit < c.gap := by simp [replyLimit] at *; omega
    simp only [receive, h, hi, Bool.true_eq_false, and_false, if_true, if_false, false_and] <;> rfl

/-- Faulty bytes in time are not counted (R40). -/
theorem receive_bad {got : List Byte} {first : Bool} (bad cs : List LineChar)
    (hi : ∀ y ∈ bad, LineChar.intact y = false) (ht : inTime first bad) :
    receive address function j idle got first (bad ++ cs) =
      receive address function j idle got (first && bad.isEmpty) cs := by
  induction bad generalizing first with
  | nil => simp
  | cons y bad ih =>
    rw [List.cons_append, receive_faulty _ (hi y (by simp)) ht.1, ih (fun z hz => hi z (by simp [hz])) ht.2]
    simp

theorem inTime_append {first : Bool} {xs ys : List LineChar} :
    inTime first (xs ++ ys) ↔ inTime first xs ∧ inTime (first && xs.isEmpty) ys := by
  induction xs generalizing first with
  | nil => simp [inTime]
  | cons x xs ih => simp [inTime, ih, and_assoc]

theorem brings_append {bs ds : List Byte} {cs : List LineChar} (h : brings (bs ++ ds) cs) :
    ∃ xs ys, cs = xs ++ ys ∧ brings bs xs ∧ brings ds ys := by
  induction bs generalizing cs with
  | nil => exact ⟨[], cs, rfl, rfl, h⟩
  | cons b bs ih =>
    obtain ⟨bad, c, rest, rfl, h1, h2, h3, h4, h5⟩ := h
    obtain ⟨xs, ys, rfl, hx, hy⟩ := ih h5
    exact ⟨bad ++ c :: xs, ys, by simp, ⟨bad, c, xs, rfl, h1, h2, h3, h4, hx⟩, hy⟩

/-- Bytes of which none ends the reply are taken one after the other, however often each was faulty before. -/
theorem receive_brings {bs : List Byte} {cs : List LineChar} {got : List Byte} {first : Bool} (rest : List LineChar)
    (h : brings bs cs) (ht : inTime first cs)
    (ok : ∀ k, k < bs.length → headerFails address function j (got ++ bs.take (k + 1)) = false ∧
      wholePayload (got ++ bs.take (k + 1)) = none) :
    receive address function j idle got first (cs ++ rest) =
      receive address function j idle (got ++ bs) (first && cs.isEmpty) rest := by
  induction bs generalizing cs got first with
  | nil => obtain rfl : cs = [] := h; simp
  | cons b bs ih =>
    obtain ⟨bad, c, more, rfl, h1, h2, h3, rfl, h5⟩ := h
    obtain ⟨t1, t2, t3⟩ := inTime_append.1 ht
    have o := ok 0 (by simp)
    simp only [Nat.zero_add, List.take_succ_cons, List.take_zero] at o
    rw [List.append_assoc, receive_bad _ _ h2 t1, List.cons_append, receive_intact _ h3 t2]
    simp only [o.1, o.2, Bool.false_eq_true, if_false]
    refine (ih h5 t3 fun k hk => by simpa using ok (k + 1) (by simpa using hk)).trans ?_
    have hne : (bad ++ c :: more).isEmpty = false := by cases bad <;> rfl
    simp [hne]

/-- The byte that ends a reply, behind bytes of which none does. -/
theorem receive_last {bs : List Byte} {b : Byte} {cs : List LineChar} (rest : List LineChar)
    (h : brings (bs ++ [b]) cs) (ht : inTime true cs)
    (ok : ∀ k, k < bs.length → headerFails address function j (bs.take (k + 1)) = false ∧
      wholePayload (bs.take (k + 1)) = none)
    (e : headerFails address function j (bs ++ [b]) = true ∨ wholePayload (bs ++ [b]) ≠ none) :
    receive address function j idle [] true (cs ++ rest) =
      if headerFails address function j (bs ++ [b]) then .failed .corrupt false
      else
        match wholePayload (bs ++ [b]) with
        | none => .unfinished
        | some p => if checkMatches (bs ++ [b]) then .reply p else .failed .corrupt true := by
  obtain ⟨xs, ys, rfl, hx, bad, c, more, rfl, h1, h2, h3, rfl, h5⟩ := brings_append h
  obtain rfl : more = [] := h5
  obtain ⟨t0, t⟩ := inTime_append.1 ht
  obtain ⟨t1, t2, t3⟩ := inTime_append.1 t
  rw [List.append_assoc, receive_brings (got := []) _ hx t0 (by simpa using ok), List.append_assoc,
    receive_bad _ _ h2 t1, List.cons_append, receive_intact _ h3 t2]
  simp only [List.nil_append]
  split
  · rfl
  · next hf =>
    cases hw : wholePayload (bs ++ [c.data]) with
    | none => simp [hw] at e; exact absurd e hf
    | some p => rfl

/-- The bytes of a telegram before its CHECK end nothing (R41). -/
theorem telegram_open (p : List Byte) (hp : p.length ≤ 48) (hl : j.lengthOk p.length = true) (k : Nat)
    (hk : k < p.length + 3) :
    let head := [address, function ||| 0x80#8, BitVec.ofNat 8 p.length] ++ p
    headerFails address function j (head.take (k + 1)) = false ∧ wholePayload (head.take (k + 1)) = none := by
  have hn : (BitVec.ofNat 8 p.length).toNat = p.length := by simp; omega
  intro head
  match k with
  | 0 => simp [head, headerFails, wholePayload]
  | 1 => simp [head, headerFails, wholePayload]
  | 2 =>
    constructor
    · simp only [head, headerFails, List.cons_append, List.nil_append, List.take_succ_cons, List.take_zero, hn]
      simp [hl, hp]
    · simp only [head, wholePayload, List.cons_append, List.nil_append, List.take_succ_cons, List.take_zero, hn]
      simp
  | k + 3 =>
    obtain ⟨x, xs, rfl⟩ : ∃ x xs, p = x :: xs := by
      cases p with
      | nil => simp at hk
      | cons x xs => exact ⟨x, xs, rfl⟩
    constructor
    · simp [head, headerFails]
    · simp only [head, wholePayload, List.cons_append, List.nil_append, List.take_succ_cons, hn]
      rw [if_neg]
      simp at hk ⊢
      omega

end Sys2Proof.Machine
end

