-- ==== Sys2Proof/Laws/Trace.lean ====
section
/-! SUPPORT. What the edge records of one TRACE reply do (R75, R78): to the lanes of the station, and beyond them, one
record after the other in reply order. -/

namespace Sys2Proof.Machine

/-! ### What a lane makes known neither reads nor changes the measurement records and the lines -/

/-- A state with other lines and other measurement records. -/
def State.apart (a b : LineCtl) (m : Measure) (s : State) : State := { s with lineA := a, lineB := b, measure := m }

@[simp] theorem apart_clock (s : State) (a b : LineCtl) (m : Measure) : (s.apart a b m).clock = s.clock := rfl

@[simp] theorem apart_link (s : State) (a b : LineCtl) (m : Measure) : (s.apart a b m).link = s.link := rfl

@[simp] theorem apart_geo (s : State) (a b : LineCtl) (m : Measure) : (s.apart a b m).geo = s.geo := rfl

@[simp] theorem apart_nodes (s : State) (a b : LineCtl) (m : Measure) : (s.apart a b m).nodes = s.nodes := rfl

@[simp] theorem apart_traffic (s : State) (a b : LineCtl) (m : Measure) : (s.apart a b m).traffic = s.traffic := rfl

@[simp] theorem apart_incidents (s : State) (a b : LineCtl) (m : Measure) : (s.apart a b m).incidents = s.incidents :=
  rfl

@[simp] theorem apart_sections (s : State) (a b : LineCtl) (m : Measure) : (s.apart a b m).sections = s.sections := rfl

@[simp] theorem apart_plan (s : State) (a b : LineCtl) (m : Measure) : (s.apart a b m).plan = s.plan := rfl

@[simp] theorem apart_rollout (s : State) (a b : LineCtl) (m : Measure) : (s.apart a b m).rollout = s.rollout := rfl

@[simp] theorem apart_banks (s : State) (a b : LineCtl) (m : Measure) : (s.apart a b m).banks = s.banks := rfl

@[simp] theorem apart_apart (s : State) (a b a' b' : LineCtl) (m m' : Measure) :
    (s.apart a b m).apart a' b' m' = s.apart a' b' m' := rfl

@[simp] theorem onStation_apart (st : Nat) (f : StationEntry → StationEntry) (s : State) (a b : LineCtl)
    (m : Measure) : (s.onStation st f).apart a b m = s.apart a b m := rfl

theorem raise_apart (n : NoticeBody) (s : State) (a b : LineCtl) (m : Measure) :
    State.raise n (s.apart a b m) = (s.raise n).apart a b m := by
  unfold State.raise
  by_cases h : s.link.notices.length < noticeCapacity
  · simp [h, State.apart]
  · by_cases k : s.link.lost = true <;> simp [h, k, State.apart]

theorem record_apart (id : BankId) (c : ErrorCode) (v : Severity) (g st : Option Nat) (s : State) (a b : LineCtl)
    (m : Measure) :
    State.record id c v g st (s.apart a b m) = (s.record id c v g st).apart a b m := by
  unfold State.record
  exact raise_apart _ { s with banks := s.banks.put id ((s.banks.look id).take ⟨v, c, g, st, s.clock⟩).1 } a b m

theorem trigger_apart (s : State) (a b : LineCtl) (m : Measure) :
    State.trigger (s.apart a b m) = (s.trigger).apart a b m := by
  unfold State.trigger
  by_cases h : s.geo.mode = .setup
  · simp [h]
  · cases k : s.plan.running <;> simp [h, k, State.apart, State.snapshot]

theorem incidentChanged_apart (t : Table Incident) (c : IncidentChange) (h : Nat) (r : Incident) (q : Option Nat)
    (s : State) (a b : LineCtl) (m : Measure) :
    State.incidentChanged t c h r q (s.apart a b m) = (s.incidentChanged t c h r q).apart a b m :=
  (congrArg State.trigger (raise_apart (.incidentEvent c h r q) { s with incidents := t } a b m)).trans
    (trigger_apart (State.raise (.incidentEvent c h r q) { s with incidents := t }) a b m)

theorem nearest_apart (s : State) (a b : LineCtl) (m : Measure) (st : Nat) (l : List (Nat × Incident)) :
    State.nearest (s.apart a b m) st l = s.nearest st l := by
  induction l with
  | nil => rfl
  | cons x l ih => unfold State.nearest; rw [ih]; rfl

theorem raiseOrTrack_apart (st : Nat) (s : State) (a b : LineCtl) (m : Measure) :
    State.raiseOrTrack st (s.apart a b m) = (s.raiseOrTrack st).apart a b m := by
  unfold State.raiseOrTrack
  simp only [nearest_apart, apart_incidents]
  cases s.nearest st s.incidents with
  | some x =>
    exact incidentChanged_apart ..
  | none =>
    cases s.incidents.lowestFree incidentSlots with
    | some h => exact incidentChanged_apart ..
    | none => exact record_apart ..

theorem reversePassage_apart (st lane : Nat) (s : State) (a b : LineCtl) (m : Measure) :
    State.reversePassage st lane (s.apart a b m) = (s.reversePassage st lane).apart a b m := by
  unfold State.reversePassage
  simp only [apart_traffic, apart_geo, apart_clock]
  cases s.traffic.look st with
  | none => rfl
  | some t =>
    by_cases h : s.geo.params.wrongway.threshold ≤
        (windowAfter s.geo.params.wrongway.window s.clock lane t.window).length
    · refine (if_pos h).trans (.trans ?_ (congrArg (State.apart a b m) (if_pos h).symm))
      exact (congrArg (State.raiseOrTrack st)
        (raise_apart _ { s with traffic := s.traffic.put st { t with window := [] } } a b m)).trans
        (raiseOrTrack_apart ..)
    · refine (if_neg h).trans (.trans ?_ (congrArg (State.apart a b m) (if_neg h).symm))
      rfl

/-- What one event of a lane does beyond it (section 5.8, R86). -/
def State.laneDoes (st host : Nat) (s : State) (x : Nat × LaneEvent) : State :=
  match x.2 with
  | .edgeSequence => s.record .measure .edgeSequence .warn (some host) (some st)
  | .implausible => s.record .measure .implausible .warn (some host) (some st)
  | .stuckOn => s.record .measure .stuckOn .fault (some host) (some st)
  | .reverse => s.reversePassage st x.1

theorem laneDoes_apart (st host : Nat) (x : Nat × LaneEvent) (s : State) (a b : LineCtl) (m : Measure) :
    State.laneDoes st host (s.apart a b m) x = (s.laneDoes st host x).apart a b m := by
  unfold State.laneDoes
  split
  · exact record_apart ..
  · exact record_apart ..
  · exact record_apart ..
  · exact reversePassage_apart ..

theorem laneDoes_foldl_apart (st host : Nat) (xs : List (Nat × LaneEvent)) (s : State) (a b : LineCtl) (m : Measure) :
    xs.foldl (State.laneDoes st host) (s.apart a b m) =
      (xs.foldl (State.laneDoes st host) s).apart a b m := by
  induction xs generalizing s with
  | nil => rfl
  | cons x xs ih => simp only [List.foldl_cons, laneDoes_apart, ih]

theorem laneDoes_foldl_measure (st host : Nat) (xs : List (Nat × LaneEvent)) (s : State) :
    (xs.foldl (State.laneDoes st host) s).measure = s.measure := by
  have h := congrArg State.measure (laneDoes_foldl_apart st host xs s s.lineA s.lineB s.measure)
  exact h

/-- The events of a lane, done one after the other. -/
theorem laneEvents_eq_foldl {st : Nat} {r : StationRec} (lane : Nat) (es : List LaneEvent) (s : State)
    (h : s.geo.stations.look st = some r) :
    State.laneEvents st lane es s = (es.map fun ev => (lane, ev)).foldl (State.laneDoes st r.host) s := by
  induction es generalizing s with
  | nil => rfl
  | cons e es ih =>
    have k : State.laneEvents st lane (e :: es) s = State.laneEvents st lane es (s.laneDoes st r.host (lane, e)) := by
      cases e <;> simp [State.laneEvents, State.laneDoes, State.measureError, h]
    rw [k, ih _ ?_]
    · rfl
    · have o := (outside_laneEvents st lane [e] s).geo
      have k1 : State.laneEvents st lane [e] s = s.laneDoes st r.host (lane, e) := by
        cases e <;> simp [State.laneEvents, State.laneDoes, State.measureError, h]
      rw [← k1, o, h]

/-! ### The records of one reply -/

theorem takeRecords_append (p : MeasureParams) (r : StationRec) (nc : Bool) (l : LaneRec) (es fs : List EdgeRec) :
    takeRecords p r nc l (es ++ fs) =
      ((takeRecords p r nc (takeRecords p r nc l es).1 fs).1,
        (takeRecords p r nc l es).2 ++ (takeRecords p r nc (takeRecords p r nc l es).1 fs).2) := by
  induction es generalizing l with
  | nil => rfl
  | cons e es ih => simp only [List.cons_append, takeRecords, ih, List.append_assoc]

/-- What the records make known, in reply order, each of its lane as the earlier records of the reply left it. -/
def knownOf (p : MeasureParams) (r : StationRec) (en : StationEntry) (es : List EdgeRec) : List (Nat × LaneEvent) :=
  es.zipIdx.flatMap fun x =>
    ((en.lanes.look x.1.lane).map fun y =>
      (takeRecord p r en.nodeCond
        (takeRecords p r en.nodeCond y ((es.take x.2).filter fun e => e.lane == x.1.lane)).1 x.1).2.map
          fun ev => (x.1.lane, ev)).getD []

theorem knownOf_append (p : MeasureParams) (r : StationRec) (en : StationEntry) (es : List EdgeRec) (e : EdgeRec) :
    knownOf p r en (es ++ [e]) = knownOf p r en es ++
      ((en.lanes.look e.lane).map fun y =>
        (takeRecord p r en.nodeCond
          (takeRecords p r en.nodeCond y (es.filter fun d => d.lane == e.lane)).1 e).2.map
            fun ev => (e.lane, ev)).getD [] := by
  unfold knownOf
  rw [List.zipIdx_append, List.flatMap_append]
  congr 1
  · apply List.flatMap_congr
    intro x hx
    have hlt : x.2 < es.length := by
      have := List.snd_lt_add_of_mem_zipIdx hx
      omega
    rw [List.take_append_of_le_length (Nat.le_of_lt hlt)]
  · simp

/-- The records of a reply, taken one after the other: every lane takes its own in reply order, and beyond the lanes
stands what the records make known, done in that order. -/
theorem edgeRecords_spec {st : Nat} {r : StationRec} {en : StationEntry} {s : State} (es : List EdgeRec)
    (hr : s.geo.stations.look st = some r) (he : s.measure.stations.look st = some en) :
    let p := s.geo.params.measure
    let t := es.foldl (State.edgeRecord st r) s
    (∃ en', t.measure.stations.look st = some en' ∧ en'.nodeCond = en.nodeCond ∧
      ∀ k, en'.lanes.look k = (en.lanes.look k).map fun y =>
        (takeRecords p r en.nodeCond y (es.filter fun e => e.lane == k)).1) ∧
    t.geo = s.geo ∧
    t.apart s.lineA s.lineB s.measure = (knownOf p r en es).foldl (State.laneDoes st r.host) s := by
  induction es using List.reverseRecOn with
  | nil => exact ⟨⟨en, he, rfl, fun k => by simp [takeRecords]⟩, rfl, rfl⟩
  | append_singleton es e ih =>
    obtain ⟨⟨en', h1, h2, h3⟩, h4, h5⟩ := ih
    simp only [List.foldl_append, List.foldl_cons, List.foldl_nil, knownOf_append]
    generalize hT : es.foldl (State.edgeRecord st r) s = T at h1 h4 h5 ⊢
    rw [← h5]
    cases hl : en.lanes.look e.lane with
    | none =>
      have hT' : State.edgeRecord st r T e = T := by
        unfold State.edgeRecord
        rw [h1]; simp [h3, hl]
      rw [hT']
      refine ⟨⟨en', h1, h2, fun k => ?_⟩, h4, by simp⟩
      rw [h3]
      cases hk : en.lanes.look k with
      | none => rfl
      | some y =>
        have : e.lane ≠ k := by rintro rfl; simp [hl] at hk
        simp [List.filter_append, this]
    | some y =>
      have hy : en'.lanes.look e.lane =
          some (takeRecords s.geo.params.measure r en.nodeCond y (es.filter fun d => d.lane == e.lane)).1 := by
        rw [h3, hl]; rfl
      generalize hz : (takeRecords s.geo.params.measure r en.nodeCond y (es.filter fun d => d.lane == e.lane)).1 = z
        at hy
      generalize hx : takeRecord s.geo.params.measure r en.nodeCond z e = x
      have hT' : State.edgeRecord st r T e =
          (x.2.map fun ev => (e.lane, ev)).foldl (State.laneDoes st r.host)
            (T.onStation st fun d => { d with lanes := d.lanes.put e.lane x.1 }) := by
        unfold State.edgeRecord
        simp only [h1, hy, h2, h4, hx]
        exact laneEvents_eq_foldl (r := r) _ _ _ (by simp [State.onStation, h4, hr])
      have hm : (State.edgeRecord st r T e).measure =
          (T.onStation st fun d => { d with lanes := d.lanes.put e.lane x.1 }).measure := by
        rw [hT']
        exact laneDoes_foldl_measure ..
      refine ⟨⟨{ en' with lanes := en'.lanes.put e.lane x.1 }, ?_, h2, fun k => ?_⟩, ?_, ?_⟩
      · rw [hm]; simp [State.onStation, h1]
      · by_cases hk : k = e.lane
        · subst hk
          simp [List.filter_append, takeRecords_append, hl, hz, takeRecords, hx]
        · have hk' : e.lane ≠ k := fun h => hk h.symm
          simp [hk, hk', h3, List.filter_append]
      · rw [hT', ← h4]
        rw [← laneEvents_eq_foldl (r := r) _ _ _ (by simp [State.onStation, h4, hr])]
        exact (outside_laneEvents ..).geo
      · rw [hT', ← laneDoes_foldl_apart]
        simp [hz, hx]

/-- A TRACE reply at its station (R75, R78): the overflow first, then the records. -/
theorem traceStation_spec {st : Nat} {r : StationRec} {en : StationEntry} {s : State} (t : TraceReply)
    (hr : s.geo.stations.look st = some r) (he : s.measure.stations.look st = some en) :
    let en1 : StationEntry := if t.overflow then
      { en with lanes := en.lanes.mapValues fun l => { l with suspect := true, machine := .idle } } else en
    let u := s.traceStation st r t
    u.apart s.lineA s.lineB s.measure = (knownOf s.geo.params.measure r en1 t.records).foldl (State.laneDoes st r.host)
      (if t.overflow then s.record .measure .bufferOverflow .warn (some r.host) (some st) else s) := by
  intro en1 u
  cases ho : t.overflow with
  | false =>
    have h := (edgeRecords_spec t.records hr he).2.2
    simpa [u, en1, State.traceStation, ho] using h
  | true =>
    have k : s.edgesLost st = State.record .measure .bufferOverflow .warn (some r.host) (some st)
        (s.onStation st fun en =>
          { en with lanes := en.lanes.mapValues fun l => { l with suspect := true, machine := .idle } }) := by
      simp [State.edgesLost, State.measureError, State.onStation, hr]
    have kg : (s.edgesLost st).geo = s.geo := (outside_edgesLost st s).geo
    have km : (s.edgesLost st).measure.stations.look st = some en1 := by
      rw [k, record_frame]; simp [State.onStation, he, en1, ho]
    have h := (edgeRecords_spec t.records (s := s.edgesLost st) (by rw [kg, hr]) km).2.2
    rw [kg] at h
    have h2 := congrArg (State.apart s.lineA s.lineB s.measure) h
    rw [← laneDoes_foldl_apart] at h2
    have e : (s.edgesLost st).apart s.lineA s.lineB s.measure =
        s.record .measure .bufferOverflow .warn (some r.host) (some st) := by
      rw [k, ← record_apart]; rfl
    rw [e] at h2
    simpa [u, State.traceStation, ho] using h2

end Sys2Proof.Machine
end

