-- ==== Sys2Proof/WellFormed.lean ====
section
/-! DEFINITION. Which commands are well formed: the numbers an event names lie in the ranges the spec
gives gantries (1 to 32, R1) and incident handles (0 to 15, R115). -/

namespace Sys2Proof

/-- A gantry number of R1. -/
def wfGantry (g : Nat) : Bool := 1 ≤ g && g ≤ 32

/-- An incident handle of R115. -/
def wfHandle (h : Nat) : Bool := h < 16

/-- The check of a command's operands. -/
def Instr.wf : Instr → Bool
  | .tracePollDue g | .routineStateDue g | .confirmDue g | .offlineRetry g | .gateExpired g => wfGantry g
  | .incidentExpiry h => wfHandle h
  | _ => true

end Sys2Proof
end

