-- ==== Sys2Proof/Tests/Slice0.lean ====
section
/-! SUPPORT. Tests: the smoke test of `Instr.wf`, the spec's worked examples, small steps of the rows, and one
witness theorem for each statement with hypotheses (its name is `witness_` and the statement's name). Expected values
are worked out by hand from the rules the comments name. -/

namespace Sys2Proof.Tests

open Sys2Proof Sys2Proof.Machine

/- One theorem at a time: each `decide +kernel` waits for every theorem before it, and a waiting theorem holds a thread. -/
set_option Elab.async false

/-! ### Small states -/

/-- Gantry 1: chainage 1,000 m, line A, address 1, lanes 1 and 2, no panel. -/
def g1 : GantryRec := ⟨1000, .a, 1, 0b000110#6, false, 0, .inService⟩

/-- Gantry 2: chainage 2,000 m, line A, address 2, the same lanes and the shoulder, section 1. -/
def g2 : GantryRec := ⟨2000, .a, 2, 0b000111#6, false, 1, .inService⟩

/-- A station at 1,500 m hosted by gantry 1, lane 1, D 400 cm, w 200 cm. -/
def st1 : StationRec := ⟨1500, 1, 0b000010#6, 400, 200⟩

/-- SETUP with two gantries and a station. -/
def setup0 : State :=
  { State.reset with geo := { State.reset.geo with gantries := [(1, g1), (2, g2)], stations := [(1, st1)] } }

/-- RUN, both nodes DESCRIBING. -/
def run0 : State := setup0.startRun

/-- RUN with the engines' work done: no pass runs, nothing is queued, both nodes ONLINE. -/
def run1 : State :=
  { run0 with
    lineA := { run0.lineA with queues := ⟨[], [], [], [], [], []⟩, polls := [(1, ⟨0, 0⟩), (2, ⟨0, 0⟩)] }
    nodes := run0.nodes.mapValues fun n => { n with state := .online, step := none }
    plan := { run0.plan with running := none }
    link := { run0.link with notices := [] } }

/-- The frame of a request. -/
def ask (ty : Byte) (p : List Byte) : Frame := ⟨ty, 7#8, p⟩

/-- The state with one request waiting. -/
def asked (s : State) (ty : Byte) (p : List Byte) : State :=
  { s with link := { s.link with rxQueue := [ask ty p], replySlot := none } }

/-- The state that an outcome goes on with; the state after power-on for any other outcome. -/
def after (o : Host.Outcome State Fault Refusal) : State :=
  match o with
  | .next t => t
  | _ => State.reset

/-- The result code and the detail of the reply in the slot after a row. -/
def replyOf (o : Host.Outcome State Fault Refusal) : Option (Result × Detail) :=
  (after o).link.replySlot.map fun r => (r.result, r.detail)

/-- A telegram to gantry 1 in flight on line A. -/
def flying (s : State) (j : Job) (retry : Bool) : State :=
  { s with lineA := { s.lineA with
      engine := .sending
      flight := some ⟨1, j, retry, if j = .display then some ⟨[.blank, .blank], .ordinary, .normal⟩ else none,
        telegram 1#8 j.code (j.payload [.blank, .blank]), false⟩ } }

/-- The record of gantry 1's node, changed. -/
def withNode (s : State) (f : NodeRec → NodeRec) : State := { s with nodes := s.nodes.adjust 1 f }

/-- So many ACKs. -/
def acks (n : Nat) : List Slot := List.replicate n ⟨false, true⟩

/-- A NACK, and silence. -/
def nack : Slot := ⟨true, false⟩

/-- The characters of a reply, error-free, 100 microseconds apart (odd parity, R40). -/
def chars (bs : List Byte) : List LineChar := bs.map fun b => ⟨b, !oddOnes b, true, 100⟩

/-- A transcript: the request of n bytes ACKed, then the reply with this function and payload. -/
def answering (n : Nat) (f : Byte) (p : List Byte) : Transcript :=
  ⟨acks n, chars (telegram 1#8 (f ||| 0x80#8) p), 0⟩

/-- The flight of `flying`. -/
def flight (j : Job) (retry : Bool) : Flight :=
  ⟨1, j, retry, if j = .display then some ⟨[.blank, .blank], .ordinary, .normal⟩ else none,
    telegram 1#8 j.code (j.payload [.blank, .blank]), false⟩

/-! ### Well-formed commands -/

theorem test_wf_refuses_gantry_0 : Instr.wf (.tracePollDue 0) = false := by decide
theorem test_wf_refuses_gantry_33 : Instr.wf (.gateExpired 33) = false := by decide
theorem test_wf_refuses_handle_16 : Instr.wf (.incidentExpiry 16) = false := by decide
theorem test_wf_takes_bounds : Instr.wf (.confirmDue 32) = true ∧ Instr.wf (.incidentExpiry 15) = true := by decide
theorem test_no_word_spells_a_command : decodeTableWord 16 0xFFFF = none := by decide

/-! ### Check codes (R175: "123456789" gives 0x29B1; R176: it gives 0xF4) -/

/-- The nine characters. -/
def digits : List Byte := [0x31#8, 0x32#8, 0x33#8, 0x34#8, 0x35#8, 0x36#8, 0x37#8, 0x38#8, 0x39#8]

theorem test_crc16_digits : crc16 digits = 0x29B1#16 := by decide +kernel
theorem test_crc8_digits : crc8 digits = 0xF4#8 := by decide +kernel

/-! ### The worked passage of section 5.9 -/

/-- Lane 2 of S4: D 450 cm, loop length 200 cm. -/
def s4 : StationRec := ⟨0, 1, 0b001110#6, 450, 200⟩

/-- The lane record before the first reply, its accumulators empty. -/
def lane2 : LaneRec := { freshLane 2 with excluded := false }

/-- An EDGE record of lane 2. -/
def edge (b high : Bool) (t : Tick) : EdgeRec := ⟨2, b, false, high, t⟩

/-- The lane record after these records. -/
def crossing (es : List EdgeRec) : LaneRec :=
  es.foldl (fun l e => (takeRecord Params.defaults.measure s4 false l e).1) lane2

theorem test_worked_passage :
    (crossing [edge false true 65480#16, edge true true 79#16, edge false false 139#16, edge true false 274#16]).acc =
      { Acc.zero with count := 1, sumV := 120, occupied := 195, class1 := 1 } := by decide +kernel

theorem test_worked_passage_waits :
    (crossing [edge false true 65480#16, edge true true 79#16]).machine = .fwdWait 65480#16 79#16 := by decide +kernel

theorem test_worked_variant_plausible :
    (crossing [edge false true 65480#16, edge true true 20#16, edge false false 139#16]).acc.sumV = 213 := by
  decide +kernel

theorem test_worked_variant_rejected :
    (crossing [edge false true 65480#16, edge true true 4#16, edge false false 139#16]).acc =
      { Acc.zero with rejected := 1 } := by decide +kernel

/-! ### The worked interval case of section 6.10 -/

/-- S7 before the first close. -/
def s7 : StationState := ⟨1520, 22400, .l1, 0, false, 0, true, 0, none, none, []⟩

/-- S7 after the first close: L 3, N 84, SV 6,624. -/
def s7a : StationState := validClose Params.defaults ⟨3, 84, 6624, 15180⟩ s7

theorem test_worked_first_close :
    (s7a.v, s7a.f, s7a.s, s7a.q, s7a.level, s7a.levelCount) = (some 79, some 1680, 1456, 23520, .l1, 0) := by
  decide +kernel

/-- S7 after the second close: N 95, SV 6,460. -/
def s7b : StationState := validClose Params.defaults ⟨3, 95, 6460, 15180⟩ s7a

theorem test_worked_second_close :
    (s7b.v, s7b.f, s7b.s, s7b.q, s7b.level, s7b.queueOn) = (some 68, some 1900, 1364, 25240, .l2, false) := by
  decide +kernel

theorem test_worked_invalid_closes :
    ((invalidClose (invalidClose (invalidClose s7b))).level, (invalidClose (invalidClose s7b)).level,
      (invalidClose s7b).s) = (.clear, .l2, 1364) := by decide +kernel

/-! ### Aspect codes (section 11.3) -/

theorem test_aspect_codes :
    aspectOfCode 0x48#8 = some (.speed 80) ∧ aspectOfCode 0x03#8 = some (.divert .off) ∧
      aspectOfCode 0x81#8 = some (.legend 1) ∧ aspectOfCode 0x41#8 = none ∧ aspectOfCode 0x80#8 = none := by decide

/-! ### Small steps -/

/-- R12, R13: two gantries and a station pass the checks; both nodes go to DESCRIBING. -/
theorem test_start_describes :
    replyOf (exec .start (asked setup0 0x05#8 [])) = some (.ok, .none) ∧
      (after (exec .start (asked setup0 0x05#8 []))).nodes.map (fun x => (x.1, x.2.state)) =
        [(1, .describing), (2, .describing)] := by decide +kernel

/-- R12: with no gantry defined check 1 fails for the corridor. -/
theorem test_start_without_gantry :
    replyOf (exec .start (asked State.reset 0x05#8 [])) = some (.badConfig, .badConfig .corridor 0 .noGantry) := by
  decide +kernel

/-- R46, R80: a TRACE reply with an A rise of lane 1 at tick 0x1234 reaches the lane's machine. -/
theorem test_trace_reaches_lane :
    ((after (exec (.traceReply .a (answering 4 3#8 [0#8, 0x21#8, 0x12#8, 0x34#8])) (flying run1 .trace false))).measure.stations.look 1
      |>.bind (fun e => (e.lanes.look 1).map (·.machine))) = some (.aLead 0x1234#16 none) := by decide +kernel

/-- R110, R111: with threshold 2 the second reverse passage within the window raises an incident. -/
theorem test_second_reverse_passage_confirms :
    ((run1.reversePassage 1 1).reversePassage 1 1).incidents.map (fun x => (x.1, x.2.kind, x.2.anchor)) =
      [(0, .wrongWay, some 1)] := by decide +kernel

/-! ### Witnesses: a concrete case for the hypotheses of each statement -/

theorem witness_StepRunsFrontCommand :
    ({ State.reset with pending := [.frameSent] } : State).pending = .frameSent :: [] := by decide +kernel

theorem witness_EmptyQueuePassesOneMillisecond :
    run1.pending = [] ∧ run1.resetHigh = true ∧ run1.measure.timer = some 0 ∧
      (after (step run1)).measure.timer = some 1 ∧ (after (step run1)).clock = 1#32 := by decide +kernel

theorem witness_EveryCommandKeepsTheQueue :
    after (exec .frameSent { State.reset with pending := [.stop] }) = { State.reset with pending := [.stop] } := by decide +kernel

theorem witness_StepKeepsStoredForm :
    run1.Wf ∧ after (step run1) = run1.tick := by
  refine ⟨⟨by decide +kernel, by decide +kernel, ⟨by decide +kernel, by decide +kernel⟩, by decide +kernel,
    ⟨by decide +kernel, by decide +kernel⟩, ?_, .inr ⟨.inl (by decide +kernel), by decide +kernel⟩,
    .inr ⟨.inl (by decide +kernel), by decide +kernel⟩, by unfold State.tablesFit; decide +kernel⟩, by decide +kernel⟩
  intro id h
  cases id <;> exact absurd h (by decide +kernel)

theorem witness_StepKeepsSetupEmpty :
    setup0.SetupStill ∧ setup0.geo.mode = .setup ∧ after (step setup0) = setup0.tick := by
  refine ⟨fun _ => ⟨rfl, rfl, rfl, rfl, rfl, rfl, rfl, rfl, ⟨rfl, rfl, rfl, rfl, ?_⟩, ⟨rfl, rfl, rfl, rfl, ?_⟩⟩, by decide +kernel,
    by decide +kernel⟩ <;>
  · intro f h
    exact absurd h (by simp [setup0, State.reset, LineCtl.idle])

/-- RUN with a FAULT record in the PLAN bank. -/
def faulty : State := { run1 with banks := { run1.banks with plan := ⟨some ⟨.fault, .unserved, some 1, none, 0⟩, false⟩ } }

theorem witness_FaultRecordStaysUntilRead :
    isReset .stop = false ∧ Instr.stop ≠ .readFaults ∧ (faulty.banks.look .plan).held ≠ none ∧
      ((faulty.banks.look .plan).held.map (·.severity)) = some .fault ∧
      replyOf (exec .stop (asked faulty 0x06#8 [])) = some (.ok, .none) ∧
      ((after (exec .stop (asked faulty 0x06#8 []))).banks.look .plan).held ≠ none := by decide +kernel

theorem witness_FaultOutputFollowsBanks :
    faulty.faultOutput = true ∧ (after (exec (.powerOn true false) faulty)).faultOutput = false ∧
      (asked faulty 0x16#8 [4#8]).takes 0x16#8 (ask 0x16#8 [4#8]) [] ∧ bankOfCode 4#8 = some .plan ∧
      (faulty.banks.look .link).held = none ∧ (faulty.banks.look .lineA).held = none ∧
      (faulty.banks.look .lineB).held = none ∧ (faulty.banks.look .measure).held = none ∧
      (after (exec .readFaults (asked faulty 0x16#8 [4#8]))).faultOutput = false ∧
      (after (exec (.resetN true false false) { faulty with resetHigh := false })).faultOutput = false ∧
      (after (exec .stop (asked faulty 0x06#8 []))).faultOutput = true := by decide +kernel

theorem witness_ClockAndLuminanceAreKept :
    isReset .start = false ∧ Instr.start ≠ .luminance ∧
      (after (exec .start (asked setup0 0x05#8 []))).clock = setup0.clock := by decide +kernel

theorem witness_RefusedRequestChangesNothing :
    (Instr.stop, 0x06#8) ∈ requestRows ∧ (asked setup0 0x06#8 []).takes 0x06#8 (ask 0x06#8 []) [] ∧
      replyOf (exec .stop (asked setup0 0x06#8 [])) = some (.wrongMode, .none) := by decide +kernel

theorem witness_WrongModeIsRefused :
    (Instr.stop, 0x06#8) ∈ runOnlyRows ∧ (asked setup0 0x06#8 []).takes 0x06#8 (ask 0x06#8 []) [] ∧
      (asked setup0 0x06#8 []).geo.mode = .setup ∧ (Instr.start, 0x05#8) ∈ setupOnlyRows ∧
      (asked run0 0x05#8 []).takes 0x05#8 (ask 0x05#8 []) [] ∧ (asked run0 0x05#8 []).geo.mode = .run := by decide +kernel

theorem witness_NoticeQueueTakesOrDrops :
    run1.link.notices.length < 32 ∧
      (let n : Notice := ⟨0, .nodeEvent 1 .a 1 .absent .describing .start none⟩
       let s : State := { run1 with link := { run1.link with notices := List.replicate 32 n } }
       32 ≤ s.link.notices.length ∧ s.link.lost = false ∧ s.banks.link.held = none ∧ (s.raise n.body).link.lost = true ∧
         32 ≤ (s.raise n.body).link.notices.length ∧ (s.raise n.body).banks.link.held ≠ none) := by decide +kernel

theorem witness_TriggerStartsOrDefersPass :
    setup0.geo.mode = .setup ∧ run1.geo.mode = .run ∧ run1.plan.running = none ∧ run0.geo.mode = .run ∧
      run0.plan.running ≠ none := by decide +kernel

theorem witness_PowerOnAndResetPinReset :
    ({ run1 with resetHigh := false } : State).resetHigh = false ∧ run1.resetHigh = true ∧
      isReset .frameSent = false ∧ (after (exec (.powerOn true false) run1)).link.rate = 2#2 := by decide +kernel

theorem witness_ResetRequestRepliesThenResets :
    (asked run1 0x07#8 []).takes 0x07#8 (ask 0x07#8 []) [] ∧
      (let s := after (exec .reset (asked run1 0x07#8 []))
       s.link.resetting = true ∧ s.resetHigh = true ∧ s.link.tx = none ∧ s.link.replySlot ≠ none ∧
         (after (exec .sendReply s)).link.sendsReset = true ∧
         (after (exec (.resetReplySent false true) (after (exec .sendReply s)))).link.rate = 1#2) := by decide +kernel

theorem witness_FramerTakesCharacters :
    State.reset.resetHigh = true ∧ State.reset.link.tx = none ∧ State.reset.link.framer.state = .idle ∧
      (after (exec (.supRxCharacter (cleanChar 0xA5#8)) State.reset)).link.framer.state = .length ∧
      SupChar.parityError (cleanChar 0x41#8) = false ∧ SupChar.framingError (cleanChar 0x41#8) = false ∧
      (after (exec (.supRxCharacter (cleanChar 0x41#8)) State.reset)).link.framer.strayRun = true ∧
      SupChar.parityError (cleanChar 1#8) = false ∧ SupChar.parityError ⟨1#8, false, true⟩ = true ∧
      SupChar.framingError ⟨1#8, false, true⟩ = false := by decide +kernel

/-- A framer in a state with a mark, after these bytes. -/
def framing (f : FramerState) (bs : List Byte) (m : Option CharError) : State :=
  State.setFramer ⟨f, bs, m, false⟩ State.reset

theorem witness_FramerTakesCharacters_faults :
    let noise : SupChar := ⟨2#8, false, true⟩
    let body : List Byte := [2#8, 0x02#8, 7#8]
    State.reset.link.sendsReset = false ∧ SupChar.parityError noise = true ∧ SupChar.framingError noise = false ∧
      SupChar.framingError ⟨2#8, true, false⟩ = true ∧ SupChar.parityError ⟨2#8, true, false⟩ = false ∧
      (after (exec (.supRxCharacter ⟨0xA5#8, true, true⟩) State.reset)).link.framer.strayRun = true ∧
      (after (exec (.supRxCharacter noise) (framing .length [] none))).link.framer = ⟨.body 2, [2#8], some .parity, false⟩ ∧
      (after (exec (.supRxCharacter ⟨2#8, true, false⟩) (framing (.body 1) [1#8] none))).link.framer =
        ⟨.check 2, [1#8, 2#8], some .framing, false⟩ ∧
      (after (exec (.supRxCharacter ⟨2#8, true, false⟩) (framing (.check 2) body (some .parity)))).link.framer.mark =
        some .parity ∧
      ((after (exec (.supRxCharacter (cleanChar 0#8)) (framing (.check 1) (body ++ [0#8]) (some .framing)))).banks.link.held.map
        (·.code)) = some .framing ∧
      highByte (crc16 body) ≠ 0#8 ∧
      ((after (exec (.supRxCharacter (cleanChar 0#8)) (framing (.check 1) (body ++ [0#8]) none))).banks.link.held.map
        (·.code)) = some .crc := by decide +kernel

theorem witness_WholeFrameIsQueued :
    ([1#8] : List Byte).length ≤ 248 ∧ State.reset.link.rxQueue.length < 4 ∧
      4 ≤ ({ State.reset.link with rxQueue := List.replicate 4 (ask 1#8 []) } : Link).rxQueue.length ∧
      (after (execAll ((frameBytes 1#8 7#8 [3#8]).map fun b => .supRxCharacter (cleanChar b)) State.reset)).link.rxQueue =
        [ask 1#8 [3#8]] := by decide +kernel

/-- The frame of the reply to a RESET is being sent while the framer holds part of a request. -/
def resetting : State :=
  State.setFramer ⟨.length, [], none, false⟩ (after (exec .sendReply (after (exec .reset (asked run1 0x07#8 [])))))

theorem witness_GapDiscardsPartialFrame :
    (State.setFramer ⟨.length, [], none, false⟩ State.reset).link.framer.state ≠ .idle ∧ 44 < 45 ∧
      (after (exec (.frameTimeout 45) (State.setFramer ⟨.length, [], none, false⟩ State.reset))).link.framer.state = .idle ∧
      (after (exec (.frameTimeout 44) (State.setFramer ⟨.length, [], none, false⟩ State.reset))).link.framer.state = .length ∧
      resetting.resetHigh = true ∧ resetting.link.sendsReset = true ∧ resetting.link.framer.state ≠ .idle ∧
      (after (exec (.frameTimeout 45) resetting)).link.framer.state = .length ∧
      (after (exec (.supRxCharacter (cleanChar 9#8)) resetting)).link.framer.state = .length := by decide +kernel

theorem witness_TransmitterTakesReplyThenNotice :
    (let s := after (exec .stop (asked run0 0x06#8 []))
     s.resetHigh = true ∧ s.link.resetting = false ∧ s.link.tx = none ∧ s.link.replySlot ≠ none) ∧
      run0.link.tx = none ∧ run0.link.replySlot = none ∧ run0.link.notices ≠ [] ∧
      run0.link.rxQueue = [] ∧ (asked run0 6#8 []).link.rxQueue ≠ [] ∧ (asked run0 6#8 []).link.notices ≠ [] ∧
      (after (exec .sendNotice (asked run0 6#8 []))).link.tx = none ∧
      (after (exec .sendNotice run0)).link.tx ≠ none ∧ (after (exec .sendNotice run0)).link.sendsReset = false := by decide +kernel

theorem witness_UnknownTypeAndIdentify :
    (asked run1 0x17#8 []).takes 0x17#8 (ask 0x17#8 []) [] ∧ (∀ p ∈ requestRows, p.2 ≠ 0x17#8) ∧
      (asked run1 1#8 [0#8]).takes 1#8 (ask 1#8 [0#8]) [] ∧ (asked run1 1#8 [4#8]).takes 1#8 (ask 1#8 [4#8]) [] ∧
      (asked run1 1#8 []).takes 1#8 (ask 1#8 []) [] ∧ 3 < (4#8 : Byte).toNat ∧
      replyOf (exec .identify (asked run1 1#8 [3#8])) = some (.ok, .status .run 0 0) ∧
      replyOf (exec .identify (asked run1 1#8 [2#8])) = some (.ok, .counts 2 1 1 2 0) ∧
      replyOf (exec .identify (asked run1 1#8 [1#8])) = some (.ok, .capacities) ∧
      replyOf (exec .identify (asked run1 1#8 [0#8])) = some (.ok, .identity) ∧
      replyOf (exec .identify (asked run1 1#8 [4#8])) = some (.ok, .unknownLeaf) := by decide +kernel

theorem witness_DefineGantryStoresRecord :
    let p : List Byte := [0#8, 32#8, 0xFD#8, 0xE8#8, 1#8, 16#8, 0b110#8, 1#8, 4#8]
    (asked setup0 2#8 p).takes 2#8 (ask 2#8 p) [] ∧ (asked setup0 2#8 p).geo.mode = .setup ∧
      0xFD * 256 + 0xE8 = 65000 ∧ LaneSet.gantryLanes ((0b110#8 : Byte).setWidth 6) = true ∧
      (after (exec .defineGantry (asked setup0 2#8 p))).geo.gantries.look 32 =
        some ⟨65000, .b, 16, 0b110#6, true, 4, .inService⟩ ∧
      (asked setup0 2#8 [1#8, 2#8]).takes 2#8 (ask 2#8 [1#8, 2#8]) [] ∧ setup0.geo.gantries.look 2 ≠ none ∧
      (asked setup0 2#8 [1#8, 3#8]).takes 2#8 (ask 2#8 [1#8, 3#8]) [] ∧ setup0.geo.gantries.look 3 = none := by decide +kernel

theorem witness_DefineStationStoresRecord :
    let p : List Byte := [0#8, 24#8, 0#8, 9#8, 32#8, 0b10#8, 1#8, 0x2D#8, 1#8, 0x2C#8]
    let q : List Byte := [0#8, 24#8, 0#8, 9#8, 32#8, 0b10#8, 1#8, 0x2C#8, 1#8, 0x2C#8]
    (asked setup0 3#8 p).takes 3#8 (ask 3#8 p) [] ∧ (asked setup0 3#8 q).takes 3#8 (ask 3#8 q) [] ∧
      replyOf (exec .defineStation (asked setup0 3#8 p)) = some (.ok, .none) ∧
      replyOf (exec .defineStation (asked setup0 3#8 q)) = some (.badValue, .none) ∧
      setup0.geo.stations.look 1 ≠ none ∧ setup0.geo.stations.look 24 = none ∧
      (after (exec .defineStation (asked setup0 3#8 [1#8, 1#8]))).geo.stations.look 1 = none ∧
      replyOf (exec .defineStation (asked setup0 3#8 [1#8, 24#8])) = some (.notFound, .none) := by decide +kernel

theorem witness_ParametersAreClampedAndStored :
    let p : List Byte := [5#8, 0#8, 249#8, 30#8, 0x07#8, 0xD0#8]
    let q : List Byte := [3#8, 1#8, 0#8, 20#8, 0#8, 60#8, 2#8, 0#8, 2#8, 0#8, 55#8]
    (asked setup0 4#8 p).takes 4#8 (ask 4#8 p) [] ∧ (asked run1 4#8 q).takes 4#8 (ask 4#8 q) [] ∧
      (asked run1 4#8 [5#8]).takes 4#8 (ask 4#8 [5#8]) [] ∧ run1.geo.mode = .run ∧ setup0.geo.mode = .setup ∧
      replyOf (exec .setParameters (asked setup0 4#8 p)) = some (.okClamped, .clamped [0]) ∧
      replyOf (exec .setParameters (asked run1 4#8 q)) = some (.okClamped, .clamped [5]) := by decide +kernel

theorem witness_ParametersAreClampedAndStored_groups :
    let m : List Byte := [0#8, 45#8, 1#8, 0x2C#8, 100#8, 2#8, 8#8, 4#8, 0#8, 4#8, 3#8, 37#8, 1#8, 0x2C#8, 10#8]
    let c : List Byte := [1#8, 5#8, 0xDC#8, 5#8, 0x14#8, 85#8, 0#8, 0#8, 9#8, 9#8, 9#8, 0#8, 0#8, 0#8, 0#8, 0#8, 3#8]
    let bad : List Byte := [1#8, 0#8, 0#8, 0#8, 0#8, 0#8, 5#8, 0xDC#8, 5#8, 0x14#8, 80#8, 0#8, 0#8, 0#8, 0#8, 0#8, 3#8]
    let q : List Byte := [2#8, 35#8, 39#8, 3#8, 40#8, 0#8, 0#8]
    let p : Byte → List Byte := fun d => [4#8, 20#8, 5#8, 0xDC#8, 60#8, 100#8, 100#8, d, 15#8]
    replyOf (exec .setParameters (asked setup0 4#8 m)) = some (.okClamped, .clamped [0, 5]) ∧
      (after (exec .setParameters (asked setup0 4#8 m))).geo.params.measure.interval = 60 ∧
      replyOf (exec .setParameters (asked run1 4#8 m)) = some (.wrongMode, .none) ∧
      replyOf (exec .setParameters (asked run1 4#8 c)) = some (.okClamped, .clamped [2]) ∧
      (after (exec .setParameters (asked run1 4#8 c))).geo.waiting.congestion.map (·.l1) = some ⟨1500, 1300, 80⟩ ∧
      replyOf (exec .setParameters (asked setup0 4#8 bad)) = some (.badValue, .none) ∧
      replyOf (exec .setParameters (asked run1 4#8 q)) = some (.badValue, .none) ∧
      replyOf (exec .setParameters (asked setup0 4#8 (p 1#8))) = some (.ok, .none) ∧
      replyOf (exec .setParameters (asked setup0 4#8 (p 2#8))) = some (.badValue, .none) ∧
      replyOf (exec .setParameters (asked setup0 4#8 [6#8])) = some (.badValue, .none) ∧
      replyOf (exec .setParameters (asked setup0 4#8 [5#8, 0#8])) = some (.badLength, .none) := by decide +kernel

theorem witness_StartEntersRun :
    (asked setup0 5#8 []).takes 5#8 (ask 5#8 []) [] ∧ setup0.geo.mode = .setup ∧
      setup0.geo.gantries.rising = true ∧ firstFailure setup0.geo.startChecks = none ∧
      firstFailure State.reset.geo.startChecks = some (.noGantry, .corridor, 0) := by decide +kernel

theorem witness_StartEntersRun_checks :
    setup0.Wf ∧ setup0.geo.stations.rising = true ∧ run0.geo.home.look 1 = some 1 ∧ run0.geo.contin = [1] ∧
      (let s : State := { setup0 with geo := { setup0.geo with gantries := [(1, g1), (2, { g2 with chainage := 1000 })] } }
       firstFailure s.geo.startChecks = some (.gantryOrder, .gantry, 2)) := by
  refine ⟨⟨by decide +kernel, by decide +kernel, ⟨by decide +kernel, by decide +kernel⟩, by decide +kernel,
    ⟨by decide +kernel, by decide +kernel⟩, ?_, .inr ⟨.inl (by decide +kernel), by decide +kernel⟩,
    .inr ⟨.inl (by decide +kernel), by decide +kernel⟩, by unfold State.tablesFit; decide +kernel⟩, by decide +kernel⟩
  intro id h
  cases id <;> exact absurd h (by decide +kernel)

theorem witness_StopEmptiesTheRun :
    (asked run1 6#8 []).takes 6#8 (ask 6#8 []) [] ∧ run1.geo.mode = .run := by decide +kernel

/-- A record of SUPERVISOR origin, and one of DETECTION origin. -/
def closure : Incident := ⟨.carriagewayClosure, .supervisor, 10, 20, none, some 50, none, none, none, 0⟩
def detected : Incident := ⟨.wrongWay, .detection, 1500, 1500, none, none, none, some 1, some 0, 0⟩

/-- RUN with a SUPERVISOR record in slot 0 and a DETECTION record in slot 15. -/
def run2 : State := { run1 with incidents := [(0, closure), (15, detected)] }

/-- RUN with twelve SUPERVISOR records and a DETECTION record in slot 15. -/
def run3 : State :=
  { run1 with incidents := (List.range 12).map (fun n => (n, closure)) ++ [(15, detected)] }

/-- RUN with a demand in slot 47 and the shoulder section open. -/
def run4 : State :=
  { run1 with plan := { run1.plan with demands := [(47, ⟨1, .speed 50⟩)] }, sections := run1.sections.put 1 .opened }

theorem witness_RaiseIncidentTakesLowestSlot :
    let p : List Byte := [0#8, 0xFD#8, 0xE8#8, 0xFD#8, 0xE8#8, 1#8, 62#8, 1#8, 45#8, 1#8, 63#8]
    (asked run2 8#8 p).takes 8#8 (ask 8#8 p) [] ∧ run2.geo.mode = .run ∧ run2.supervisorCount < 12 ∧
      run2.incidents.look 1 = none ∧ (∀ k, k < 1 → run2.incidents.look k ≠ none) ∧
      replyOf (exec .raiseIncident (asked run2 8#8 p)) = some (.okClamped, .handleClamped 1 [4]) ∧
      12 ≤ run3.supervisorCount ∧ replyOf (exec .raiseIncident (asked run3 8#8 p)) = some (.tableFull, .none) ∧
      ((after (exec .raiseIncident (asked run2 8#8 [2#8, 0#8, 1#8, 0#8, 1#8, 0#8, 0#8, 0#8]))).incidents.look 1).map
        (fun r => (r.kind, r.start, r.lanes)) = some (.hazard, 1, none) := by decide +kernel

theorem witness_AmendIncidentReplacesFields :
    let p : Byte → List Byte := fun h => [h, 1#8, 0#8, 1#8, 1#8, 0#8, 1#8, 0#8, 2#8, 1#8, 1#8]
    (asked run2 9#8 (p 0#8)).takes 9#8 (ask 9#8 (p 0#8)) [] ∧ (run2.incidents.look 0).map (·.anchor) = some none ∧
      (run2.incidents.look 15).map (·.anchor) = some (some 1) ∧
      replyOf (exec .amendIncident (asked run2 9#8 (p 0#8))) = some (.ok, .none) ∧
      replyOf (exec .amendIncident (asked run2 9#8 (p 15#8))) = some (.conflict, .none) ∧
      run2.incidents.look 1 = none ∧ replyOf (exec .amendIncident (asked run2 9#8 (p 1#8))) = some (.notFound, .none) := by decide +kernel

/-- The payload of an AMEND_INCIDENT with these marks. -/
def amendment (h : Byte) (a b c d e : Mark) : List Byte :=
  h :: (a.sent true ++ b.sent true ++ c.sent false ++ d.sent false ++ e.sent false)

/-- `run2` with a LANE_CLOSURE in slot 3. -/
def run5 : State := { run2 with incidents := run2.incidents.put 3 { closure with kind := .laneClosure, lanes := some 1#6 } }

theorem witness_AmendIncidentReplacesFields_marks :
    let far := amendment 0#8 (.set 65000) (.set 65000) .keep (.set 45) .remove
    let moved := amendment 3#8 (.set 5) (.set 5) (.set 62) .keep .keep
    (asked run5 9#8 far).takes 9#8 (ask 9#8 far) [] ∧
      ([far, amendment 0#8 .keep .keep .keep .remove (.set 63), moved, amendment 15#8 .keep .keep .keep (.set 20) .keep].map
          fun p => replyOf (exec .amendIncident (asked run5 9#8 p))) =
        [some (.okClamped, .clamped [4]), some (.ok, .none), some (.ok, .none), some (.ok, .none)] ∧
      ((after (exec .amendIncident (asked run5 9#8 moved))).incidents.look 3).map
        (fun x => (x.start, x.stop, x.lanes, x.cap)) = some (5, 5, some 62#6, some 50) := by decide +kernel

theorem witness_AmendIncidentReplacesFields_refused :
    let r (p : List Byte) : Option Result := (replyOf (exec .amendIncident (asked run5 9#8 p))).map (·.1)
    ([amendment 16#8 .keep .keep .keep .keep .keep, amendment 0#8 (.set 65001) .keep .keep .keep .keep,
        amendment 0#8 .remove .keep .keep .keep .keep, amendment 3#8 .keep .keep (.set 63) .keep .keep,
        amendment 0#8 .keep .keep .keep .keep (.set 64), amendment 0#8 (.set 9) (.set 8) .keep .keep .keep,
        amendment 0#8 .keep .keep (.set 2) .keep .keep].map r) = List.replicate 7 (some .badValue) ∧
      r (amendment 0#8 .keep .keep .keep .keep .keep ++ [0#8]) = some .badLength ∧
      r (amendment 1#8 .keep .keep .keep .keep .keep) = some .notFound ∧
      r (amendment 15#8 (.set 9) (.set 9) .keep .keep .keep) = some .conflict := by decide +kernel

theorem witness_ClearIncidentFreesSlot :
    (asked run2 10#8 [15#8]).takes 10#8 (ask 10#8 [15#8]) [] ∧ run2.incidents.look 15 ≠ none ∧
      replyOf (exec .clearIncident (asked run2 10#8 [15#8])) = some (.ok, .none) ∧
      run2.incidents.look 14 = none ∧ replyOf (exec .clearIncident (asked run2 10#8 [14#8])) = some (.notFound, .none) ∧
      replyOf (exec .clearIncident (asked run2 10#8 [16#8])) = some (.badValue, .none) := by decide +kernel

theorem witness_ConfirmIncidentTakesOver :
    (asked run2 11#8 [15#8]).takes 11#8 (ask 11#8 [15#8]) [] ∧
      replyOf (exec .confirmIncident (asked run2 11#8 [15#8])) = some (.ok, .none) ∧
      replyOf (exec .confirmIncident (asked run2 11#8 [0#8])) = some (.conflict, .none) ∧
      replyOf (exec .confirmIncident (asked run3 11#8 [15#8])) = some (.tableFull, .none) := by decide +kernel

theorem witness_DetectionRecordExpires :
    run2.resetHigh = true ∧ run2.geo.mode = .run ∧ (run2.incidents.look 15).map (·.expiry) = some (some 0) ∧
      (after (exec (.incidentExpiry 15) run2)).incidents.look 15 = none ∧
      (after (exec (.incidentExpiry 0) run2)).incidents.look 0 ≠ none := by decide +kernel

theorem witness_PlaceDemandTakesLowestSlot :
    let p : List Byte := [2#8, 1#8, 45#8]
    (asked run1 12#8 p).takes 12#8 (ask 12#8 p) [] ∧ run1.geo.gantries.look 2 ≠ none ∧ run1.plan.demands.look 0 = none ∧
      replyOf (exec .placeDemand (asked run1 12#8 p)) = some (.okClamped, .handleSpeed 0 40) ∧
      replyOf (exec .placeDemand (asked run1 12#8 [32#8, 1#8, 45#8])) = some (.notFound, .none) ∧
      LaneSet.within ((0b111#8 : Byte).setWidth 6) g2.lanes = true ∧
      replyOf (exec .placeDemand (asked run1 12#8 [2#8, 0#8, 0b111#8, 1#8])) = some (.ok, .handle 0) ∧
      replyOf (exec .placeDemand (asked run1 12#8 [2#8, 0#8, 0b100#8, 3#8])) = some (.ok, .handle 0) ∧
      replyOf (exec .placeDemand (asked run1 12#8 [2#8, 2#8, 63#8])) = some (.ok, .handle 0) ∧
      LaneSet.within ((0b1000#8 : Byte).setWidth 6) g2.lanes = false ∧
      replyOf (exec .placeDemand (asked run1 12#8 [2#8, 0#8, 0b1000#8, 1#8])) = some (.badValue, .none) ∧
      (let full : State := { run1 with plan := { run1.plan with
         demands := (List.range 48).map fun n => (n, ⟨1, .speed 50⟩) } }
       replyOf (exec .placeDemand (asked full 12#8 p)) = some (.tableFull, .none)) := by decide +kernel

theorem witness_WithdrawDemandFreesSlot :
    (asked run4 13#8 [47#8]).takes 13#8 (ask 13#8 [47#8]) [] ∧ run4.geo.mode = .run ∧ run4.plan.demands.look 47 ≠ none ∧
      (asked setup0 13#8 []).takes 13#8 (ask 13#8 []) [] ∧ setup0.geo.mode = .setup ∧
      replyOf (exec .withdrawDemand (asked run4 13#8 [47#8])) = some (.ok, .none) ∧
      replyOf (exec .withdrawDemand (asked run4 13#8 [46#8])) = some (.notFound, .none) ∧
      replyOf (exec .withdrawDemand (asked run4 13#8 [48#8])) = some (.badValue, .none) ∧
      replyOf (exec .withdrawDemand (asked run4 13#8 [])) = some (.badLength, .none) := by decide +kernel

theorem witness_ShoulderChangesSection :
    (asked run1 14#8 [1#8, 0#8]).takes 14#8 (ask 14#8 [1#8, 0#8]) [] ∧ run1.sectionExists 1 = true ∧
      run1.shoulderConflict 1 = false ∧ run1.sections.look 1 ≠ some .opened ∧ run4.sections.look 1 = some .opened ∧
      run1.sectionExists 4 = false ∧
      ({ run1 with incidents := [(0, { closure with start := 2000, stop := 3000 })] } : State).shoulderConflict 1 = true ∧
      (after (exec .shoulder (asked run1 14#8 [1#8, 0#8]))).sections.look 1 = some .opened := by decide +kernel

theorem witness_ShoulderChangesSection_replies :
    let blocked : State := { run1 with incidents := [(0, { closure with start := 2000, stop := 3000 })] }
    let r (s : State) (p : List Byte) : Option (Result × Detail) := replyOf (exec .shoulder (asked s 14#8 p))
    run1.geo.gantries.rising = true ∧ run1.geo.gantries.look 2 = some g2 ∧ g2.sec = 1 ∧
      r run1 [1#8, 0#8] = some (.ok, .none) ∧ r run4 [1#8, 0#8] = some (.ok, .none) ∧
      r run4 [1#8, 1#8] = some (.ok, .none) ∧ r run1 [1#8, 1#8] = some (.ok, .none) ∧
      (after (exec .shoulder (asked run4 14#8 [1#8, 1#8]))).sections.look 1 = some .closed ∧
      (after (exec .shoulder (asked run4 14#8 [1#8, 0#8]))).plan.running = none ∧
      r blocked [1#8, 0#8] = some (.conflict, .none) ∧ r blocked [1#8, 1#8] = some (.ok, .none) ∧
      r run1 [1#8] = some (.badLength, .none) ∧ r run1 [0#8, 0#8] = some (.badValue, .none) ∧
      r run1 [5#8, 0#8] = some (.badValue, .none) ∧ r run1 [1#8, 2#8] = some (.badValue, .none) ∧
      r run1 [4#8, 0#8] = some (.notFound, .none) := by decide +kernel

theorem witness_ShoulderChangesSection_covers :
    ({ closure with start := 2000, stop := 3000 } : Incident).covers run1.geo.gantries 2 :=
  ⟨g2, by decide +kernel, .inl ⟨by decide +kernel, fun g' q' h _ => by
    simp only [show run1.geo.gantries = [(1, g1), (2, g2)] by decide +kernel, Table.look] at h
    split at h
    · cases h; exact .inl (by decide +kernel)
    · split at h
      · cases h; exact .inr ⟨rfl, by omega⟩
      · cases h⟩⟩

theorem witness_GantryServiceMovesNode :
    let out := after (exec .gantryService (asked run1 15#8 [1#8, 1#8]))
    (asked run1 15#8 [1#8, 1#8]).takes 15#8 (ask 15#8 [1#8, 1#8]) [] ∧ run1.geo.gantries.look 1 ≠ none ∧
      run1.nodeState 1 = some .online ∧ out.nodeState 1 = some .disabled ∧
      (asked out 15#8 [1#8, 0#8]).takes 15#8 (ask 15#8 [1#8, 0#8]) [] ∧
      (after (exec .gantryService (asked out 15#8 [1#8, 0#8]))).nodeState 1 = some .describing ∧
      run1.hosted 1 = some (1, st1) ∧ run1.link.notices.length ≤ 30 ∧ run1.rollout.look 1 ≠ none ∧
      out.link.notices.contains ⟨0, .nodeEvent 1 .a 1 .online .disabled .serviceOut none⟩ = true ∧
      (out.measure.stations.look 1).map (·.nodeCond) = some true ∧ out.link.notices.length ≤ 31 := by decide +kernel

theorem witness_StationResetRestartsFilters :
    (asked run1 16#8 [1#8]).takes 16#8 (ask 16#8 [1#8]) [] ∧ run1.geo.stations.look 1 ≠ none ∧ run1.traffic.look 1 ≠ none ∧
      run1.geo.stations.look 24 = none ∧
      replyOf (exec .stationReset (asked run1 16#8 [24#8])) = some (.notFound, .none) ∧
      replyOf (exec .stationReset (asked run1 16#8 [25#8])) = some (.badValue, .none) := by decide +kernel

theorem witness_LuminanceReachesBothLines :
    (asked run1 17#8 [8#8]).takes 17#8 (ask 17#8 [8#8]) [] ∧ run1.geo.mode = .run ∧
      (after (exec .luminance (asked run1 17#8 [1#8]))).lineB.level = 1 ∧
      replyOf (exec .luminance (asked run1 17#8 [9#8])) = some (.badValue, .none) := by decide +kernel

theorem witness_ReadsChangeNothing :
    (asked run2 18#8 [1#8]).takes 18#8 (ask 18#8 [1#8]) [] ∧ (asked run2 19#8 [1#8]).takes 19#8 (ask 19#8 [1#8]) [] ∧
      (asked run2 20#8 []).takes 20#8 (ask 20#8 []) [] ∧ run2.geo.gantries.look 1 ≠ none ∧
      run2.geo.stations.look 1 ≠ none ∧ run2.traffic.look 1 ≠ none ∧
      replyOf (exec .readIncidents (asked run2 20#8 [])) =
        some (.ok, .incidents 1 run2.incidents [some .closed, none, none, none]) := by decide +kernel

theorem witness_ReadNodeClearsDegradedMarks :
    (asked run1 21#8 [1#8]).takes 21#8 (ask 21#8 [1#8]) [] ∧ run1.geo.gantries.look 1 ≠ none ∧ run1.nodes.look 1 ≠ none := by decide +kernel

theorem witness_ReadFaultsClearsOneBank :
    (asked faulty 22#8 [4#8]).takes 22#8 (ask 22#8 [4#8]) [] ∧ faulty.link.notices.length < 32 ∧
      replyOf (exec .readFaults (asked faulty 22#8 [5#8])) = some (.badValue, .none) ∧
      replyOf (exec .readFaults (asked faulty 22#8 [])) = some (.badLength, .none) := by decide +kernel

theorem witness_ArbiterTakesFirstEligible :
    let e : Entry := ⟨1, .describe, .registry, false⟩
    run0.resetHigh = true ∧ run0.geo.mode = .run ∧ (run0.line .a).engine = .free ∧
      (run0.line .a).queues.look .service = [] ++ e :: [⟨2, .describe, .registry, false⟩] ∧
      (∀ c ∈ ([.urgentShow, .confirm, .trace, .normalShow] : List Machine.Class), (run0.line .a).queues.look c = []) ∧
      run0.eligible e = true ∧ (after (exec (.telegramStart .a) run0)).lineA.engine = .sending := by decide +kernel

/-- RUN with a TRACE of gantry 1, a TRACE of gantry 2 and a SHOW of gantry 2 waiting on line A. -/
def waiting : State :=
  { run1 with lineA := { run1.lineA with
      queues := ⟨[⟨2, .display, .rollout, false⟩], [], [⟨1, .trace, .line, false⟩, ⟨2, .trace, .line, false⟩], [], [], []⟩ } }

theorem witness_ArbiterTakesFirstEligible_passed :
    let p : Pending := ⟨⟨[.blank, .blank, .blank], .ordinary, .urgent⟩, false⟩
    let s : State := State.onRollout 2 (fun r => { r with gateHeld := true, pending := some p })
      (withNode waiting fun n => { n with state := .suspect })
    let only (e : Entry) : State :=
      { s with lineA := { s.lineA with queues := { s.lineA.queues with trace := [e] } } }
    let t := after (exec (.telegramStart .a) s)
    (s.rollout.look 2).map (·.gateHeld) = some true ∧ s.nodeState 1 = some .suspect ∧
      t.lineA.flight.map (fun f => (f.gantry, f.job)) = some (2, .trace) ∧
      t.lineA.queues.trace = [⟨1, .trace, .line, false⟩] ∧
      t.lineA.queues.urgentShow = [⟨2, .display, .rollout, false⟩] ∧
      (after (exec (.telegramStart .a) (only ⟨1, .trace, .line, true⟩))).lineA.flight.map (·.gantry) = some 1 ∧
      (let v := only ⟨1, .trace, .line, false⟩
       after (exec (.telegramStart .a) v) = v) := by decide +kernel

theorem witness_TranscriptGivesOutcome :
    let s := flying run1 (.state .routine) false
    let f := flight (.state .routine) false
    (s.line .a).flight = some f ∧ f.request.length = 4 ∧ slotAnswer nack ≠ .ack ∧ slotAnswer ⟨false, true⟩ = .ack ∧
      s.ending .a ⟨[nack, nack], [], 0⟩ = some (f, .failed .noNode false) ∧
      s.ending .a ⟨acks 1 ++ List.replicate 4 nack, [], 0⟩ = some (f, .failed .nackLimit false) ∧
      s.ending .a ⟨acks 3 ++ [nack], [], 0⟩ = some (f, .failed .corrupt false) ∧
      s.ending .a ⟨acks 4, [], 20000⟩ = some (f, .failed .replyTimeout false) ∧
      s.ending .a ⟨acks 4, chars [1#8], 3001⟩ = some (f, .failed .replyBroken false) ∧
      s.ending .a (answering 4 2#8 [0#8, 0#8, 0#8, 1#8, 0x44#8]) =
        some (f, .replied (.state ⟨false, false, [(.ok, .blank), (.degraded, .speed 40)]⟩)) ∧
      (flying run1 .display false).ending .a ⟨acks 8, [], 0⟩ = some (flight .display false, .accepted) := by decide +kernel

theorem witness_FailureQueuesRetry :
    let s := flying run1 .trace false
    let x : Transcript := ⟨[nack, nack], [], 0⟩
    s.resetHigh = true ∧ s.ending .a x = some (flight .trace false, .failed .noNode false) ∧
      s.geo.gantries.look 1 = some g1 ∧ s.nodeState 1 = some .online ∧
      (after (exec (Failure.noNode.row .a x) s)).nodeState 1 = some .suspect ∧
      (after (exec (.noNode .a x) s)).lineA.queues.trace = [⟨1, .trace, .line, true⟩] := by decide +kernel

/-- A whole reply whose CHECK is wrong. -/
def spoilt (f : Byte) (p : List Byte) : Transcript :=
  ⟨acks 4, chars ((telegram 1#8 (f ||| 0x80#8) p).dropLast ++ [0xFF#8]), 0⟩

theorem witness_FailureQueuesRetry_losses :
    let tr := flying run1 .trace false
    let sh := flying run1 .display false
    let q := flying run1 (.state .routine) false
    let noAck : Transcript := ⟨acks 7 ++ [nack], [], 0⟩
    tr.ending .a (spoilt 3#8 [0#8]) = some (flight .trace false, .failed .corrupt true) ∧ tr.hosted 1 = some (1, st1) ∧
      ((after (exec (.corrupt .a (spoilt 3#8 [0#8])) tr)).measure.stations.look 1).map
        (fun e => e.lanes.map fun y => (y.1, y.2.suspect)) = some [(1, true)] ∧
      sh.ending .a noAck = some (flight .display false, .failed .corrupt false) ∧
      ((after (exec (.corrupt .a noAck) sh)).rollout.look 1).map (fun r => r.pending.map (·.retry)) = some (some true) ∧
      (after (exec (.corrupt .a noAck) sh)).lineA.queues.normalShow = [⟨1, .display, .line, true⟩] ∧
      q.ending .a (spoilt 2#8 [0#8, 0#8, 0#8, 0#8, 0#8]) = some (flight (.state .routine) false, .failed .corrupt true) ∧
      ((after (exec (.corrupt .a (spoilt 2#8 [0#8, 0#8, 0#8, 0#8, 0#8])) q)).nodes.look 1).map
        (fun n => (n.state, n.reason)) = some (.describing, .nodeRestart) := by decide +kernel

theorem witness_FailureQueuesRetry_records :
    let x : Transcript := ⟨[nack, nack], [], 0⟩
    let t := after (exec (.noNode .a x) (flying run1 .trace false))
    let v := after (exec (.corrupt .a (spoilt 3#8 [0#8])) (flying run1 .trace false))
    let r := after (exec (.corrupt .a (spoilt 2#8 [0#8, 0#8, 0#8, 0#8, 0#8])) (flying run1 (.state .routine) false))
    t.banks.lineA = ⟨some ⟨.warn, .noNode, some 1, none, 0⟩, true⟩ ∧ t.banks.measure = ⟨none, false⟩ ∧
      t.link.notices.map (·.body) = [.fault .lineA .noNode .warn (some 1) none .held false,
        .nodeEvent 1 .a 1 .online .suspect (.failure .noNode) none,
        .fault .lineA .nodeSuspect .warn (some 1) none .notHeld false] ∧
      v.banks.measure = ⟨some ⟨.warn, .bufferOverflow, some 1, some 1, 0⟩, false⟩ ∧
      r.banks.lineA = ⟨some ⟨.fault, .nodeRestart, some 1, none, 0⟩, true⟩ ∧
      (flying run1 .describe false).ending .a (spoilt 4#8 [2#8, 0#8, 0b10#8, 1#8, 2#8]) =
        some (flight .describe false, .failed .corrupt true) ∧
      ((after (exec (.corrupt .a (spoilt 4#8 [2#8, 0#8, 0b10#8, 1#8, 2#8])) (flying run1 .describe false))).lineA.queues.service =
        [⟨1, .describe, .line, true⟩]) := by decide +kernel

theorem witness_FailureMovesNodeOffline :
    let x : Transcript := ⟨[nack, nack], [], 0⟩
    let s := withNode (flying run1 .trace true) fun n => { n with state := .suspect }
    let d := withNode (flying run1 .describe false) fun n => { n with state := .describing }
    let o := withNode (flying run1 .describe false) fun n => { n with state := .offline }
    s.ending .a x = some (flight .trace true, .failed .noNode false) ∧ s.nodeState 1 = some .suspect ∧
      (after (exec (.noNode .a x) s)).nodeState 1 = some .offline ∧
      d.ending .a x = some (flight .describe false, .failed .noNode false) ∧
      (after (exec (.noNode .a x) d)).nodeState 1 = some .offline ∧
      o.ending .a x = some (flight .describe false, .failed .noNode false) ∧
      ((after (exec (.noNode .a x) o)).nodes.look 1).map (·.retry) = some (some 0) ∧ s.rollout.look 1 ≠ none := by decide +kernel

theorem witness_FailureMovesNodeOffline_completed :
    let y := spoilt 4#8 [2#8, 0#8, 0b10#8, 1#8, 2#8]
    let d := withNode (flying run1 .describe false) fun n => { n with state := .describing }
    let s := withNode (flying run1 .trace true) fun n => { n with state := .suspect }
    let o := withNode (flying run1 .describe false) fun n => { n with state := .offline }
    let t := after (exec (.corrupt .a (spoilt 3#8 [0#8])) s)
    d.ending .a y = some (flight .describe false, .failed .corrupt true) ∧
      (after (exec (.corrupt .a y) d)).nodeState 1 = some .offline ∧
      s.ending .a (spoilt 3#8 [0#8]) = some (flight .trace true, .failed .corrupt true) ∧ t.nodeState 1 = some .offline ∧
      t.banks.measure = ⟨some ⟨.warn, .bufferOverflow, some 1, some 1, 0⟩, false⟩ ∧
      t.banks.lineA = ⟨some ⟨.fault, .nodeOffline, some 1, none, 0⟩, true⟩ ∧
      (t.measure.stations.look 1).map (fun e => e.lanes.map fun z => z.2.suspect) = some [true] ∧
      o.ending .a y = some (flight .describe false, .failed .corrupt true) ∧
      (after (exec (.corrupt .a y) o)).banks.lineA = ⟨some ⟨.warn, .corrupt, some 1, none, 0⟩, false⟩ := by decide +kernel

theorem witness_DiscardedOutcomeChangesNothing :
    let gone : Flight := { flight .display false with discarded := true }
    let s : State := { run1 with lineA := { run1.lineA with engine := .sending, flight := some gone } }
    s.ending .a ⟨[nack, nack], [], 0⟩ = some (gone, .failed .noNode false) ∧
      s.ending .a ⟨acks 8, [], 0⟩ = some (gone, .accepted) ∧ gone.discarded = true ∧
      (after (exec (.showAccepted .a ⟨acks 8, [], 0⟩) s)).rollout = s.rollout ∧
      ((flying run1 .trace false).ending .a (answering 4 3#8 [0#8])) = some (flight .trace false, .replied (.trace ⟨false, false, []⟩)) := by decide +kernel

theorem witness_DiscardedOutcomeChangesNothing_replies :
    let lost : Job → State := fun j =>
      { run0 with lineA := { run0.lineA with engine := .sending, flight := some { flight j false with discarded := true } } }
    let x := answering 4 4#8 [2#8, 0#8, 0b10#8, 1#8, 2#8]
    let y := answering 5 5#8 [0#8, 1#8, 1#8]
    (lost .describe).ending .a x =
        some ({ flight .describe false with discarded := true }, .replied (.describe ⟨[1, 2], false, 0b10#6⟩)) ∧
      (after (exec (.describeReply .a x) (lost .describe))).nodes = run0.nodes ∧
      (lost (.caps 0)).ending .a y =
        some ({ flight (.caps 0) false with discarded := true }, .replied (.caps [.closed])) ∧
      (after (exec (.capsReply .a y) (lost (.caps 0)))).nodes = run0.nodes := by decide +kernel

theorem witness_AcceptedShowIsCommanded :
    let s := flying run1 .display false
    s.ending .a ⟨acks 8, [], 0⟩ = some (flight .display false, .accepted) ∧ s.nodeState 1 = some .online ∧
      s.geo.gantries.look 1 = some g1 ∧ (s.rollout.look 1).map (·.pending) = some none ∧
      s.shown 1 = [.blank, .blank] ∧ (s.line .a).queues.confirm = [] ∧
      ((after (exec (.showAccepted .a ⟨acks 8, [], 0⟩) s)).rollout.look 1).map (·.commanded) =
        some [some .blank, some .blank] := by decide +kernel

/-- RUN with gantry 1 in this confirmation, CLOSED and BLANK commanded. -/
def confirming (c : Confirmation) (polls resends : Nat) : State :=
  State.onRollout 1 (fun r =>
    { r with commanded := [some .closed, some .blank], confirmation := c, polls := polls, resends := resends }) run1

/-- Confirmation, polls and resends of gantry 1. -/
def confirmation (s : State) : Option (Confirmation × Nat × Nat) :=
  (s.rollout.look 1).map fun r => (r.confirmation, r.polls, r.resends)

theorem witness_AcceptedShowIsCommanded_judged :
    let blank : List Aspect := [.blank, .blank]
    confirmation ((confirming .awaiting 2 1).judge 1 true [.closed, .blank]) = some (.settled, 0, 0) ∧
      confirmation ((confirming .awaiting 1 1).judge 1 true blank) = some (.awaiting, 2, 1) ∧
      confirmation ((confirming .awaiting 2 1).judge 1 true blank) = some (.resending, 0, 1) ∧
      (((confirming .awaiting 2 1).judge 1 true blank).rollout.look 1).map (fun r => r.pending.map (·.body.kind)) =
        some (some .resend) ∧
      confirmation ((confirming .awaiting 2 2).judge 1 true blank) = some (.settled, 0, 0) ∧
      (((confirming .awaiting 2 2).judge 1 true blank).rollout.look 1).map (·.failed) = some [some .closed, none] ∧
      confirmation ((confirming .resending 0 1).judge 1 false [.closed, .blank]) = some (.settled, 0, 0) := by
  decide +kernel

/-- The confirm-failed marks of gantry 1. -/
def failedMarks (s : State) : Option (List Bool) := (s.nodes.look 1).map fun n => n.signs.map (·.confirmFailed)

theorem witness_AcceptedShowIsCommanded_failed :
    let s := (confirming .awaiting 2 2).judge 1 true [.blank, .blank]
    s.banks.lineA.held.map (·.code) = some .confirmFail ∧ failedMarks s = some [true, false] ∧
      failedMarks (s.clearRecovered 1 [.closed, .blank]) = some [false, false] := by decide +kernel

theorem witness_StateReplyIsTaken :
    let x := answering 4 2#8 [0#8, 0#8, 0#8, 0#8, 0#8]
    let y := answering 4 2#8 [1#8, 0#8, 0#8, 0#8, 0#8]
    let s0 := withNode (flying run1 (.state .routine) false) fun n =>
      { n with signs := n.signs.map fun r => { r with health := some .ok } }
    let s : State := State.onRollout 1 (fun r => { r with confirmed := [some .blank, some .blank] }) s0
    s.ending .a x = some (flight (.state .routine) false, .replied (.state ⟨false, false, [(.ok, .blank), (.ok, .blank)]⟩)) ∧
      s.ending .a y = some (flight (.state .routine) false, .replied (.state ⟨true, false, [(.ok, .blank), (.ok, .blank)]⟩)) ∧
      s.nodeState 1 = some .online ∧ s.geo.gantries.look 1 = some g1 ∧
      (s.rollout.look 1).map (fun r => (r.confirmed, r.failed, r.confirmation)) =
        some ([some .blank, some .blank], [none, none], .settled) ∧
      (s.nodes.look 1).map (fun n => n.signs.map (·.health)) = some [some .ok, some .ok] ∧
      ((after (exec (.stateReply .a x) s)).nodes.look 1).map (fun n => n.signs.map (·.displayed)) =
        some [some .blank, some .blank] ∧
      (after (exec (.stateReply .a y) s)).nodeState 1 = some .describing := by decide +kernel

/-- A STATE in flight to gantry 1, AWAITING with one poll, CLOSED and BLANK commanded, both signs known to be OK. -/
def polled (o : StateOrigin) : State :=
  State.onRollout 1 (fun r => { r with commanded := [some .closed, some .blank], confirmed := [some .blank, some .blank],
                                       confirmation := .awaiting, polls := 1 })
    (withNode (flying run1 (.state o) false) fun n =>
      { n with signs := n.signs.map fun r => { r with health := some .ok } })

/-- A STATE reply with overflow_pending: a FAILED sign that shows BLANK, a DEGRADED one that shows 80. -/
def changed : Transcript := answering 4 2#8 [2#8, 2#8, 0#8, 1#8, 0x48#8]

theorem witness_StateReplyIsTaken_changes :
    let s := polled .confirm
    let t := after (exec (.stateReply .a changed) s)
    s.ending .a changed = some (flight (.state .confirm) false,
        .replied (.state ⟨false, true, [(.failed, .blank), (.degraded, .speed 80)]⟩)) ∧ s.nodeState 1 = some .online ∧
      (t.nodes.look 1).map (fun n => n.signs.map fun y => (y.health, y.displayed, y.degradedMark)) =
        some [(some .failed, some .blank, false), (some .degraded, some (.speed 80), true)] ∧
      t.lineA.polls.look 1 = some ⟨1000, 0⟩ ∧ t.plan.running ≠ none ∧
      (t.rollout.look 1).map (·.confirmed) = some [some .blank, some (.speed 80)] ∧
      t.link.notices.map (·.body) = [.displayChange 1 .state
        [⟨some .blank, some .closed, false⟩, ⟨some (.speed 80), some .blank, true⟩]] ∧
      confirmation t = some (.awaiting, 2, 0) ∧ t.lineA.held.look 1 = some run1.geo.params.line.settle ∧
      confirmation (after (exec (.stateReply .a changed) (polled .routine))) = some (.awaiting, 1, 0) := by decide +kernel

theorem witness_StateReplyIsTaken_described :
    let s := withNode (flying run1 (.state .enrol) false) fun n => { n with state := .describing, step := some .state }
    let x := answering 4 2#8 [0#8, 0#8, 0#8, 0#8, 0#8]
    let t := after (exec (.stateReply .a x) s)
    let u := withNode (flying run1 (.state .routine) true) fun n => { n with state := .suspect }
    s.ending .a x = some (flight (.state .enrol) false, .replied (.state ⟨false, false, [(.ok, .blank), (.ok, .blank)]⟩)) ∧
      (s.nodes.look 1).map (fun n => n.signs.length) = some 2 ∧ s.rollout.look 1 ≠ none ∧
      (t.nodes.look 1).map (fun n => (n.state, n.reason, n.step)) = some (.online, .described, none) ∧
      t.lineA.polls.look 1 = some ⟨1000, 0⟩ ∧ (t.measure.stations.look 1).map (·.nodeCond) = some false ∧
      t.link.notices.head? = some ⟨0, .nodeEvent 1 .a 1 .describing .online .described none⟩ ∧
      (after (exec (.stateReply .a (answering 4 2#8 [1#8, 0#8, 0#8, 0#8, 0#8])) u)).nodeState 1 = some .describing := by
  decide +kernel

/-- A retried telegram of the SUSPECT node of gantry 1, whose commanded record is not the confirmed one. -/
def retried (j : Job) : State :=
  State.onRollout 1 (fun r => { r with commanded := [some .closed, some .blank], confirmed := [some .blank, some .blank] })
    (withNode (flying run1 j true) fun n => { n with state := .suspect })

theorem witness_StateReplyIsTaken_recovered :
    let t := after (exec (.traceReply .a (answering 4 3#8 [0#8])) (retried .trace))
    (retried .trace).ending .a (answering 4 3#8 [0#8]) = some (flight .trace true, .replied (.trace ⟨false, false, []⟩)) ∧
      (retried .display).ending .a ⟨acks 8, [], 0⟩ = some (flight .display true, .accepted) ∧
      (t.nodes.look 1).map (fun n => (n.state, n.reason)) = some (.online, .recovered) ∧
      confirmation t = some (.awaiting, 0, 0) ∧ t.lineA.held.look 1 = some run1.geo.params.line.settle ∧
      t.link.notices.map (·.body) = [.nodeEvent 1 .a 1 .suspect .online .recovered none] ∧
      [after (exec (.showAccepted .a ⟨acks 8, [], 0⟩) (retried .display)),
        after (exec (.describeReply .a (answering 4 4#8 [2#8, 0#8, 0b10#8, 1#8, 2#8])) (retried .describe)),
        after (exec (.capsReply .a (answering 5 5#8 [0#8, 1#8, 1#8])) (retried (.caps 0))),
        after (exec (.stateReply .a (answering 4 2#8 [0#8, 0#8, 0#8, 0#8, 0#8])) (retried (.state .routine)))].map
          (fun u => u.nodeState 1) = List.replicate 4 (some .online) := by decide +kernel

theorem witness_TraceReplyReachesStation :
    let s := flying run1 .trace false
    s.ending .a (answering 4 3#8 [1#8]) = some (flight .trace false, .replied (.trace ⟨true, false, []⟩)) ∧
      s.ending .a (answering 4 3#8 [2#8]) = some (flight .trace false, .replied (.trace ⟨false, true, []⟩)) ∧
      s.nodeState 1 = some .online ∧ s.hosted 1 = some (1, st1) ∧ s.measure.stations.look 1 ≠ none ∧
      (after (exec (.traceReply .a (answering 4 3#8 [1#8])) s)).banks.measure.held ≠ none ∧
      (after (exec (.traceReply .a (answering 4 3#8 [2#8])) s)).banks.measure.held = none := by decide +kernel

theorem witness_TraceReplyReachesStation_records :
    let s : State := State.onStation 1 (fun e => { e with nodeCond := false }) (flying run1 .trace false)
    let up : List Byte := [0#8, 0x29#8, 0#8, 9#8, 0x21#8, 0#8, 99#8]
    let once : List Byte := [0#8, 0x01#8, 0#8, 9#8]
    let es : List EdgeRec := [⟨1, true, false, true, 9#16⟩, ⟨1, false, false, true, 99#16⟩]
    s.ending .a (answering 4 3#8 up) = some (flight .trace false, .replied (.trace ⟨false, false, es⟩)) ∧
      (takeRecords s.geo.params.measure st1 false { freshLane 1 with excluded := true } es).2 = [.reverse] ∧
      ((after (exec (.traceReply .a (answering 4 3#8 up)) s)).traffic.look 1).map (·.window.length) = some 1 ∧
      s.ending .a (answering 4 3#8 once) = some (flight .trace false, .replied (.trace ⟨false, false, [⟨1, false, false, false, 9#16⟩]⟩)) ∧
      s.geo.stations.look 1 = some st1 ∧
      ((after (exec (.traceReply .a (answering 4 3#8 once)) s)).measure.stations.look 1).map
        (fun e => e.lanes.map fun y => (y.1, y.2.acc.edgeErrors)) = some [(1, 1)] := by decide +kernel

theorem witness_TraceReplyReachesStation_overflow :
    let s := flying run1 .trace false
    let bare : State := { s with geo := { s.geo with stations := [] } }
    let t := after (exec (.traceReply .a (answering 4 3#8 [1#8])) s)
    let u := after (exec (.traceReply .a (answering 4 3#8 [2#8])) bare)
    s.ending .a (answering 4 3#8 [1#8]) = some (flight .trace false, .replied (.trace ⟨true, false, []⟩)) ∧
      s.geo.stations.look 1 = some st1 ∧ t.banks.measure = ⟨some ⟨.warn, .bufferOverflow, some 1, some 1, 0⟩, false⟩ ∧
      ({ t with lineA := s.lineA, lineB := s.lineB, measure := s.measure } : State) =
        s.record .measure .bufferOverflow .warn (some 1) (some 1) ∧
      (t.measure.stations.look 1).map (fun e => e.lanes.map fun z => (z.2.suspect, z.2.machine)) = some [(true, .idle)] ∧
      bare.hosted 1 = none ∧ u.lineA.polls.look 1 = some ⟨1000, 0⟩ ∧
      ({ u with lineA := bare.lineA } : State) = bare := by decide +kernel

/-- R76, R77, R88, R91 (hand calculation): edge_error_limit 5 and stuck_marks 4 are the defaults. -/
theorem test_records_that_make_events :
    let p := Params.defaults.measure
    let l : LaneRec := { lane2 with acc := { Acc.zero with edgeErrors := p.edgeErrorLimit } }
    let h : LaneRec := { lane2 with loopA := ⟨true, p.stuckMarks - 1, false⟩ }
    (takeRecord p s4 false l (edge false false 1#16)).2 = [.edgeSequence] ∧
      (takeRecord p s4 false lane2 (edge false false 1#16)).2 = [] ∧
      (takeRecord p s4 false h ⟨2, false, true, true, 1#16⟩).2 = [.stuckOn] ∧
      ((takeRecord p s4 false h ⟨2, false, true, true, 1#16⟩).1.loopA) = ⟨true, p.stuckMarks, true⟩ := by decide +kernel

theorem witness_DescribeReplyIsCompared :
    let s := flying run0 .describe false
    let x := answering 4 4#8 [2#8, 0#8, 0b10#8, 1#8, 2#8]
    let y := answering 4 4#8 [1#8, 0#8, 0b10#8, 1#8]
    s.ending .a x = some (flight .describe false, .replied (.describe ⟨[1, 2], false, 0b10#6⟩)) ∧
      s.ending .a y = some (flight .describe false, .replied (.describe ⟨[1], false, 0b10#6⟩)) ∧
      LaneSet.positions g1.lanes = [1, 2] ∧ s.hostedLanes 1 = 0b10#6 ∧
      (s.nodes.look 1).map (fun n => (n.state, n.step)) = some (.describing, some .describe) ∧
      ((after (exec (.describeReply .a x) s)).nodes.look 1).map (·.step) = some (some (.caps 0)) ∧
      (after (exec (.describeReply .a y) s)).nodeState 1 = some .offline := by decide +kernel

/-- A DESCRIBE reply of these two bytes, panel and loops, and the lanes 1 and 2. -/
def described (panel loops : Byte) : Transcript := answering 4 4#8 [2#8 + panel, panel, loops, 1#8, 2#8]

/-- State, reason and mismatch of the node of gantry 1. -/
def found (s : State) : Option (NodeState × Reason × Option Mismatch) :=
  (s.nodes.look 1).map fun n => (n.state, n.reason, n.mismatch)

theorem witness_DescribeReplyIsCompared_mismatches :
    let d := flying run0 .describe false
    let panel := described 1#8 0b10#8
    let loops := described 0#8 0b110#8
    d.ending .a panel = some (flight .describe false, .replied (.describe ⟨[1, 2], true, 0b10#6⟩)) ∧
      d.ending .a loops = some (flight .describe false, .replied (.describe ⟨[1, 2], false, 0b110#6⟩)) ∧
      found (after (exec (.describeReply .a panel) d)) = some (.offline, .describeMismatch, some .panel) ∧
      found (after (exec (.describeReply .a loops) d)) = some (.offline, .describeMismatch, some .loops) := by
  decide +kernel

/-- The retry DESCRIBE of gantry 1 in flight, its node OFFLINE for LOOPS. -/
def away : State :=
  withNode (flying run1 .describe false) fun n =>
    { n with state := .offline, reason := .describeMismatch, mismatch := some .loops }

theorem witness_DescribeReplyIsCompared_offline :
    let t := after (exec (.describeReply .a (described 0#8 0b10#8)) away)
    let u := after (exec (.describeReply .a (described 1#8 0b10#8)) away)
    let v := after (exec (.describeReply .a (described 0#8 0b110#8)) away)
    found t = some (.describing, .retryReplied, none) ∧ t.lineA.queues.service = [⟨1, .caps 0, .registry, false⟩] ∧
      found u = some (.offline, .describeMismatch, some .panel) ∧
      u.banks.lineA.held = some ⟨.fault, .describeMismatch, some 1, none, 0⟩ ∧
      u.link.notices.head? = some ⟨0, .nodeEvent 1 .a 1 .offline .offline .describeMismatch (some .panel)⟩ ∧
      found v = some (.offline, .describeMismatch, some .loops) ∧ v.banks = away.banks ∧ v.link = away.link ∧
      (v.nodes.look 1).map (·.retry) = some (some 0) := by decide +kernel

theorem witness_CapsReplyReplacesList :
    let caps : List Aspect := [.closed, .speed 80]
    let s := withNode (flying run0 (.caps 1) false) fun n =>
      { n with step := some (.caps 1), signs := n.signs.map fun r => { r with caps := [.speed 80, .closed] } }
    s.ending .a (answering 5 5#8 [1#8, 2#8, 1#8, 0x48#8]) = some (flight (.caps 1) false, .replied (.caps caps)) ∧
      caps.Nodup ∧ .blank ∉ caps ∧ (∀ a ∈ caps, Aspect.fits (.lane 2) a = true) ∧ g1.kinds[1]? = some (.lane 2) ∧
      (s.nodes.look 1).map (·.state) = some .describing ∧
      ((after (exec (.capsReply .a (answering 5 5#8 [1#8, 2#8, 1#8, 0x48#8])) s)).nodes.look 1).map (·.step) =
        some (some .state) ∧
      (let y := answering 5 5#8 [1#8, 5#8, 0x48#8, 0#8, 0x81#8, 0x48#8, 2#8]
       let t := after (exec (.capsReply .a y) { s with plan := { s.plan with running := none } })
       s.ending .a y = some (flight (.caps 1) false,
           .replied (.caps [.speed 80, .blank, .legend 1, .speed 80, .divert .near])) ∧
         (t.nodes.look 1).map (fun n => n.signs.map (·.caps)) =
           some [[.speed 80, .closed], [.speed 80, .divert .near]] ∧
         t.banks.lineA.held.map (·.code) = some .badCapability ∧ t.plan.running ≠ none) := by decide +kernel

theorem witness_LineBecomesFree :
    (after (exec (.sent .a) (flying run1 (.lumen 8) false))).lineA.engine = .free ∧
      (flying run1 (.lumen 8) false).lineA.flight ≠ none ∧
      (after (exec (.lineQuietEnd .b 3000) { run1 with lineB := { run1.lineB with engine := .quiet } })).lineB.engine = .free ∧
      (after (exec (.lineQuietEnd .b 2999) { run1 with lineB := { run1.lineB with engine := .quiet } })).lineB.engine = .quiet := by decide +kernel

theorem witness_DueTimersQueueTelegrams :
    let s : State := { run1 with lineA := { run1.lineA with
      polls := [(1, ⟨1000, 10000⟩), (2, ⟨999, 9999⟩)], held := [(1, 0)], lumenTimer := some 30000 } }
    let o := withNode run1 fun n => { n with state := .offline, retry := some 30000 }
    s.nodeState 1 = some .online ∧ s.geo.params.line.pollPeriod = 1000 ∧ s.geo.params.line.statePeriod = 10 ∧
      (after (exec (.tracePollDue 1) s)).lineA.queues.trace = [⟨1, .trace, .line, false⟩] ∧
      (after (exec (.tracePollDue 2) s)).lineA.queues.trace = [] ∧
      (after (exec (.routineStateDue 1) s)).lineA.queues.service = [⟨1, .state .routine, .line, false⟩] ∧
      (after (exec (.routineStateDue 2) s)).lineA.queues.service = [] ∧
      (after (exec (.confirmDue 1) s)).lineA.queues.confirm = [⟨1, .state .confirm, .rollout, false⟩] ∧
      (after (exec (.lumenRepeat .a) s)).lineA.queues.lumen = [⟨0, .lumen 8, .line, false⟩] ∧
      (after (exec (.lumenRepeat .b) s)).lineB.queues.lumen = [] ∧
      (after (exec (.offlineRetry 1) o)).lineA.queues.service = [⟨1, .describe, .registry, false⟩] ∧
      (after (exec (.offlineRetry 2) o)).lineA.queues.service = [] := by decide +kernel

theorem witness_DueTimersQueueTelegrams_busy :
    let due (s : State) : State := { s with lineA := { s.lineA with polls := [(1, ⟨1000, 10000⟩), (2, ⟨1000, 10000⟩)] } }
    let tr := due (flying run1 .trace false)
    let st := due (flying run1 (.state .routine) false)
    (after (exec (.tracePollDue 2) tr)).lineA.queues.trace = [⟨2, .trace, .line, false⟩] ∧
      (after (exec (.routineStateDue 1) tr)).lineA.queues.service = [⟨1, .state .routine, .line, false⟩] ∧
      (after (exec (.tracePollDue 1) st)).lineA.queues.trace = [⟨1, .trace, .line, false⟩] ∧
      after (exec (.tracePollDue 1) tr) = tr ∧ after (exec (.routineStateDue 1) st) = st ∧
      (let o := withNode tr fun n => { n with state := .offline }
       o.nodeState 1 ≠ some .online ∧ after (exec (.routineStateDue 1) o) = o) := by decide +kernel

theorem witness_ForwardPassageIsMeasured :
    lane2.faulty false = false ∧ lane2.acc.count < 65535 ∧
      (forwardPassage Params.defaults.measure s4 false lane2 0#16 1#16 1#16).1.acc.rejected = 1 ∧
      (forwardPassage Params.defaults.measure s4 false lane2 0#16 0#16 1#16).1.acc.rejected = 1 ∧
      (forwardPassage Params.defaults.measure s4 false lane2 65480#16 79#16 139#16).1.acc.sumV = 120 := by decide +kernel

theorem witness_ForwardPassageIsMeasured_machine :
    let p := Params.defaults.measure
    p.class1Limit < p.class2Limit ∧ lane2.machine = .idle ∧ lane2.loopA = ⟨false, 0, false⟩ ∧ p.maxGap = 1000 ∧
      (crossing [edge false true 0#16, edge true true 1001#16]).acc.unpaired = 1 ∧
      (crossing [edge false true 0#16, edge false false 5#16, edge true true 1001#16]).machine = .bLead 1001#16 ∧
      (crossing [edge true true 0#16, edge false true 1000#16, edge true false 1100#16, edge false false 1200#16]).acc =
        { Acc.zero with reverse := 1 } ∧
      (crossing [edge true true 7#16, edge false true 7#16, edge true false 8#16, edge false false 9#16]).acc =
        { Acc.zero with rejected := 1 } ∧
      (forwardPassage p s4 true { lane2 with silent := true } 0#16 135#16 195#16).1.silent = false ∧
      run1.hosted 1 = some (1, st1) ∧
      ((run1.measureOnNode 1 .describing .online).measure.stations.look 1).map (·.nodeCond) = some false := by decide +kernel

theorem witness_ForwardPassageIsMeasured_edges :
    let p := Params.defaults.measure
    let held : LaneRec := { lane2 with loopA := ⟨true, 9, true⟩, machine := .fwdWait 1#16 2#16 }
    (crossing [edge true true 0#16, edge true false 100#16, edge false true 1000#16, edge false false 1200#16]).acc =
        { Acc.zero with reverse := 1 } ∧
      (takeRecord p s4 false held (edge false false 9#16)).1.loopA = ⟨false, 0, false⟩ ∧
      (takeRecord p s4 false held (edge true true 9#16)).1.loopA = ⟨true, 9, true⟩ ∧
      (takeRecord p s4 false { held with loopA := ⟨false, 9, false⟩ } (edge false true 9#16)).1.loopA = ⟨true, 0, false⟩ := by
  decide +kernel

theorem witness_IntervalCloseStartsNext :
    run1.Wf ∧ (let s : State := { run1 with measure := { run1.measure with timer := some 60000 } }
      s.resetHigh = true ∧ s.geo.mode = .run ∧ s.geo.params.measure.interval * 1000 ≤ 60000 ∧
        (after (exec .intervalClose s)).measure.timer = some 0 ∧ (after (exec .intervalClose s)).plan.running ≠ none) := ⟨witness_StepKeepsStoredForm.1, by decide +kernel⟩

/-- RUN, the interval over, lane 1 of the station quiet for 37 marks and lane 2 beside it counting 10 vehicles. -/
def quiet : State :=
  { run1 with measure := ⟨some 60000, [(1, ⟨false,
      [(1, { freshLane 1 with excluded := false, loopA := ⟨false, 37, false⟩ }),
       (2, { freshLane 2 with excluded := false, acc := { Acc.zero with count := 10 } })]⟩)]⟩ }

theorem witness_IntervalCloseStartsNext_silent :
    quiet.geo.params.measure.silentFlow ≤ 10 * 3600000 / 60000 ∧
      (let t := after (exec .intervalClose quiet)
       (t.measure.stations.look 1).map (fun e => e.lanes.map fun y => (y.1, y.2.silent, y.2.excluded)) =
           some [(1, true, true), (2, false, false)] ∧
         t.banks.measure.held.map (·.code) = some .silent) := by decide +kernel

/-- `quiet` with a CONGESTION group waiting that has no level 2. -/
def regrouped : State :=
  { quiet with
    geo := { quiet.geo with waiting := ⟨some { Params.defaults.congestion with l2 := ⟨0, 0, 0⟩ }, none, none⟩ }
    traffic := quiet.traffic.map fun kv => (kv.1, { kv.2 with level := .l2 }) }

theorem witness_IntervalCloseStartsNext_traffic :
    let closes (s : State) (l : List Nat) : Prop :=
      let t := after (exec .intervalClose s)
      let v := l.foldl (fun (w : State) st =>
        w.record .measure .silent .fault ((s.geo.stations.look st).map fun r => r.host) (some st)) s
      let u := s.measure.stations.foldl (fun (w : State) kv =>
        w.closeStation s.geo.waiting.congestion.isSome s.clock kv.1 (kv.2.results s.geo.params.measure))
        { v with geo := t.geo }
      t.traffic = u.traffic ∧ t.link = u.link ∧ t.banks = u.banks
    (quiet.measure.stations.flatMap fun kv =>
        (kv.2.lanes.filter fun x => kv.2.silentNow quiet.geo.params.measure x.1 x.2).map fun _ => kv.1) = [1] ∧
      closes quiet [1] ∧ closes regrouped [1] ∧
      ((after (exec .intervalClose quiet)).traffic.look 1).map (fun x => (x.valid, x.f)) = some (true, some 600) ∧
      ((after (exec .intervalClose regrouped)).traffic.look 1).map (·.level) = some .l1 := by decide +kernel

theorem witness_TrafficMachinesFollowTheirRules :
    smooth 2 1520 79 = 1456 ∧ smooth 2 22400 1680 = 23520 ∧
      (levelMachine Params.defaults.congestion 1800 s7).level = .l3 ∧
      (queueMachine Params.defaults.queue 34 s7).queueOn = true ∧ (queueMachine Params.defaults.queue 35 s7).queueOn = false := by decide +kernel

/-- The results of one lane with ten vehicles at 50 km/h, included or not. -/
def result (used : Bool) : LaneResult :=
  { laneResult 60000 (1, { freshLane 1 with excluded := !used, acc := { Acc.zero with count := 10, sumV := 500 } }) with
    occupied := 3000 }

theorem witness_TrafficMachinesFollowTheirRules_closes :
    let c := Params.defaults.congestion
    let t : StationState := { s7 with level := .l2, levelCount := c.releaseCount - 1 }
    (levelMachine c 0 t).level = .l1 ∧ (levelMachine c 0 { t with levelCount := 0 }).levelCount = 1 ∧
      (levelMachine c c.l2.flowOff t).levelCount = 0 ∧ (adjustLevel { c with l2 := ⟨0, 0, 0⟩ } t).level = .l1 ∧
      (queueMachine Params.defaults.queue 100 { s7 with queueOn := true, queueCount := 9 }).queueOn = false ∧
      (result true).report.included = true ∧ (result false).report.included = false ∧
      ((run1.closeStation false 0 1 [result true]).traffic.look 1).map (fun x => (x.v, x.f)) = some (some 50, some 600) ∧
      (let s : State := { run1 with traffic := [(1, { s7 with invalidCloses := 2 })] }
       ((s.closeStation false 0 1 [result false]).traffic.look 1).map (fun x => (x.level, x.v, x.invalidCloses)) =
           some (.clear, none, 3) ∧
         (s.closeStation false 0 1 [result false]).banks.measure.held.map (·.code) = some .stationInvalid) := by
  decide +kernel

theorem witness_TrafficMachinesFollowTheirRules_adjusted :
    let s : State := { regrouped with geo := { regrouped.geo with params := { regrouped.geo.params with
      congestion := { regrouped.geo.params.congestion with l2 := ⟨0, 0, 0⟩ } } } }
    (s.traffic.look 1).map (·.level) = some .l2 ∧
      ((s.closeStation true 0 1 [result false]).traffic.look 1).map (fun x => (x.level, x.invalidCloses)) = some (.l1, 1) ∧
      ((s.closeStation false 0 1 [result false]).traffic.look 1).map (·.level) = some .l2 := by decide +kernel

theorem witness_WrongWayDriverIsConfirmed :
    run1.traffic.look 1 ≠ none ∧ run1.geo.stations.look 1 = some st1 ∧ run1.geo.params.wrongway.threshold = 2 ∧
      (run1.traffic.look 1).map (·.window) = some [] ∧
      ((run1.reversePassage 1 1).traffic.look 1).map (·.window) = some [⟨0, 1⟩] ∧
      ((run1.reversePassage 1 1).reversePassage 1 1).incidents.look 0 =
        some ⟨.wrongWay, .detection, 1500, 1500, none, none, none, some 1, some 300000, 0⟩ := by decide +kernel

/-- RUN with this incident table, one reverse passage at station 1 in its window. -/
def twice (t : Table Incident) : State := State.reversePassage 1 1 { run1 with incidents := t }

theorem witness_WrongWayDriverIsConfirmed_tracked :
    run1.Wf ∧ run1.geo.params.wrongway.threshold = 2 ∧
      (let a := { detected with start := 900, stop := 900, expiry := some 5 }
       let t := (twice [(0, closure), (4, a), (15, a)]).reversePassage 1 1
       t.incidents.look 4 = some { a with start := 1500, stop := 1500, expiry := some 300000 } ∧
         t.incidents.look 15 = some a ∧
         t.link.notices.map (·.body) = [.wrongWayAlert 1 1500 1 [0, 0],
           .incidentEvent .tracked 4 { a with start := 1500, stop := 1500, expiry := some 300000 } (some 1)] ∧
         t.plan.running ≠ none) ∧
      (let t := (twice ((List.range 16).map fun n => (n, closure))).reversePassage 1 1
       t.incidents = (List.range 16).map (fun n => (n, closure)) ∧
         t.banks.plan.held = some ⟨.fault, .detectionTableFull, none, some 1, 0⟩) :=
  ⟨witness_StepKeepsStoredForm.1, by decide +kernel⟩

theorem witness_PassCompletesWithTargets :
    run0.resetHigh = true ∧ run0.plan.running ≠ none ∧ run0.plan.again = false ∧ run0.trigger.plan.running ≠ none ∧
      run0.trigger.plan.again = true := by decide +kernel

/-- RUN with the target CLOSED, CLOSED at gantry 1, and this SHOW pending there. -/
def published (p : Option Pending) (st : NodeState) : State :=
  let s : State := State.onRollout 1 (fun r => { r with pending := p, commanded := [some .blank, some .blank] })
    (withNode run1 fun n => { n with state := st })
  { s with plan := { s.plan with targets := s.plan.targets.put 1 ⟨none,
      [⟨.closed, .closed, false, false, false⟩, ⟨.closed, .closed, false, false, false⟩]⟩ } }

/-- The pending SHOW of gantry 1. -/
def pendingOf (s : State) : Option Pending := (s.rollout.look 1).bind (·.pending)

theorem witness_PassCompletesWithTargets_published :
    let want : ShowBody := ⟨[.closed, .closed], .ordinary, .urgent⟩
    let old (k : ShowKind) (r : Bool) : Pending := ⟨⟨[.blank, .blank], k, .normal⟩, r⟩
    pendingOf ((published none .online).publish 1) = some ⟨want, false⟩ ∧
      ((published none .online).publish 1).lineA.queues.urgentShow = [⟨1, .display, .rollout, false⟩] ∧
      pendingOf ((published (some (old .resend true)) .online).publish 1) = some ⟨want, true⟩ ∧
      pendingOf ((published (some (old .ordinary true)) .suspect).publish 1) = some ⟨want, true⟩ ∧
      pendingOf ((published (some (old .ordinary true)) .describing).publish 1) = some (old .ordinary true) ∧
      (let s : State := { published (some (old .ordinary false)) .online with plan := run1.plan }
       s.shown 1 = [.blank, .blank] ∧ pendingOf (s.publish 1) = none) ∧
      (let s : State := { published (some (old .resend false)) .online with plan := run1.plan }
       pendingOf (s.publish 1) = some (old .resend false)) ∧
      showClass [.panel] .ordinary [.legend 5] [some (.legend 4)] = .urgent ∧
      showClass [.panel] .ordinary [.legend 5] [none] = .normal ∧
      showClass [.lane 1] .resend [.speed 80] [none] = .normal := by decide +kernel

/-- `run4` with one lane at each gantry and a pass running. -/
def narrow : State :=
  let s : State := { run4 with geo := { run4.geo with gantries :=
    [(1, { g1 with lanes := 0b10#6 }), (2, { g2 with lanes := 0b10#6 })] } }
  { s with plan := { s.plan with running := some s.snapshot } }

theorem witness_PassCompletesWithTargets_unserved :
    let t := after (exec .passComplete narrow)
    let u := after (exec .passComplete { t with plan := { t.plan with running := narrow.plan.running }, banks := run4.banks })
    (t.plan.targets.look 1).map (fun x => x.signs.map fun y => (y.wanted, y.shown, y.unserved, y.lost)) =
        some [(.speed 50, .blank, true, true)] ∧
      t.banks.plan = ⟨some ⟨.warn, .unserved, some 1, none, 0⟩, false⟩ ∧ u.banks = run4.banks := by decide +kernel

theorem witness_PlanShowsOnlyWhatSignsOffer :
    run4.snapshot.targets.map (fun x => (x.1, x.2.speed)) = [(1, some 50), (2, some 100)] := by decide +kernel

/-- The snapshot of `run4` with a carriageway closure at gantry 2, which has a panel. -/
def shot : Snapshot :=
  { run4.snapshot with
    gantries := [(1, g1), (2, { g2 with panel := true })]
    incidents := [(0, { closure with start := 2000, stop := 3000 })] }

theorem witness_PlanShowsOnlyWhatSignsOffer_wants :
    shot.gantries.rising = true ∧ shot.wantsCell 2 { g2 with panel := true } 0 .closed ∧
      shot.asksSpeed 1 g1 50 ∧ shot.asksLegend 2 { g2 with panel := true } 7 ∧
      shot.targets.map (fun x => (x.1, x.2.speed, x.2.signs.map fun y => y.wanted)) =
        [(1, some 50, [.closed, .closed]), (2, some 60, [.closed, .closed, .closed, .legend 2])] := by
  refine ⟨by decide +kernel, .inl ⟨rfl, 0, _, .head _, ⟨{ g2 with panel := true }, by decide +kernel, .inl ⟨by decide +kernel, ?_⟩⟩,
    .inl (by decide +kernel)⟩, .inr (.inr (.inr (.inl ⟨47, by decide +kernel⟩))), .inr (.inl (by decide +kernel)), by decide +kernel⟩
  intro g' q' h _
  simp only [shot, Table.look] at h
  split at h
  · cases h; exact .inl (by decide +kernel)
  · split at h
    · cases h; exact .inr ⟨rfl, by omega⟩
    · cases h

theorem witness_GateHoldsUntilItExpires :
    let on : State → State := fun s => { s with nodes := s.nodes.mapValues fun n =>
      { n with signs := n.signs.map fun r => { r with health := some .ok } } }
    let closed : Pending := ⟨⟨[.closed, .closed, .blank], .ordinary, .urgent⟩, false⟩
    let s := on (State.onRollout 2 (fun r => { r with pending := some closed }) run1)
    let h := s.evalGate 2
    let t : State := State.onRollout 2 (fun r => { r with gateTimer := some 15000 }) h
    (s.rollout.look 2).map (fun r => (r.pending, r.gateExpired)) = some (some closed, false) ∧ 1 ∈ s.geo.contin ∧
      entryAt (s.kinds 2) closed.body.contents 1 = some .closed ∧ s.laneServiceable 1 1 = true ∧
      entryIsCell (s.confirmedLane 1 1) = false ∧ (h.rollout.look 2).map (·.gateHeld) = some true ∧
      h.geo.params.plan.gateTime * 1000 = 15000 ∧
      ((after (exec (.gateExpired 2) t)).rollout.look 2).map (fun r => (r.gateExpired, r.gateHeld)) = some (true, false) ∧
      ((after (exec (.gateExpired 2) h)).rollout.look 2).map (·.gateHeld) = some true := by decide +kernel

/-- Every sign of every gantry OK and able to show CLOSED and 60. -/
def lit (s : State) : State :=
  { s with nodes := s.nodes.mapValues fun n =>
      { n with signs := n.signs.map fun r => { r with health := some .ok, caps := [.closed, .speed 60] } } }

/-- A SHOW of these contents pending at gantry g. -/
def wanting (g : Nat) (as : List Aspect) (s : State) : State :=
  State.onRollout g (fun r => { r with pending := some ⟨⟨as, .ordinary, .urgent⟩, false⟩ }) s

/-- Gate mark, timer and expiry mark of gantry g. -/
def gate (g : Nat) (s : State) : Option (Bool × Option Nat × Bool) :=
  (s.rollout.look g).map fun r => (r.gateHeld, r.gateTimer, r.gateExpired)

theorem witness_GateHoldsUntilItExpires_conditions :
    let below (s : State) : State := State.onRollout 2 (fun r => { r with confirmed := List.replicate 3 (some .closed) }) s
    let open1 (s : State) : State := wanting 1 [.blank, .blank]
      (State.onRollout 1 (fun r => { r with commanded := [some .closed, some .closed] }) (below s))
    gate 1 ((open1 (lit run1)).evalGate 1) = some (true, some 0, false) ∧
      gate 1 ((open1 run1).evalGate 1) = some (false, none, false) ∧
      gate 1 ((open1 { lit run1 with geo := { run1.geo with contin := [] } }).evalGate 1) = some (false, none, false) ∧
      gate 1 ((wanting 1 [.blank, .blank] (below (lit run1))).evalGate 1) = some (false, none, false) ∧
      gate 2 ((wanting 2 [.closed, .closed, .blank] run1).evalGate 2) = some (false, none, false) ∧
      gate 2 ((wanting 2 [.blank, .blank, .closed] (lit run1)).evalGate 2) = some (true, some 0, false) := by decide +kernel

/-- Gantry 2 held back by gantry 1, to which this telegram is in flight. -/
def holding (j : Job) : State := (wanting 2 [.blank, .closed, .closed] (lit (flying run1 j false))).evalGate 2

theorem witness_GateHoldsUntilItExpires_events :
    let x := answering 4 2#8 [0#8, 0#8, 1#8, 0#8, 1#8]
    let t := after (exec (.stateReply .a x) (holding (.state .routine)))
    let u := after (exec (Failure.noNode.row .a ⟨[nack, nack], [], 0⟩) (holding (.state .routine)))
    let v := after (exec .gantryService (asked (holding .trace) 15#8 [1#8, 1#8]))
    gate 2 (holding .trace) = some (true, some 0, false) ∧
      (holding (.state .routine)).ending .a x =
        some (flight (.state .routine) false, .replied (.state ⟨false, false, [(.ok, .closed), (.ok, .closed)]⟩)) ∧
      (t.rollout.look 1).map (·.confirmed) = some [some .closed, some .closed] ∧ gate 2 t = some (false, some 0, false) ∧
      u.nodeState 1 = some .suspect ∧ gate 2 u = some (false, some 0, false) ∧
      v.nodeState 1 = some .disabled ∧ gate 2 v = some (false, some 0, false) := by decide +kernel

theorem witness_GateHoldsUntilItExpires_parameters :
    let s := asked (wanting 2 [.blank, .closed, .closed] (lit run1)) 4#8
      [4#8, 20#8, 5#8, 0xDC#8, 60#8, 100#8, 100#8, 1#8, 15#8]
    s.geo.mode = .run ∧ gate 2 s = some (false, none, false) ∧ replyOf (exec .setParameters s) = some (.ok, .none) ∧
      gate 2 (after (exec .setParameters s)) = some (true, some 0, false) := by decide +kernel

theorem witness_GateHoldsUntilItExpires_published :
    let s0 : State := { lit run4 with plan := { run1.plan with demands := [(0, ⟨2, .cell 0b110#6 .closed⟩)] } }
    let s : State := { s0 with plan := { s0.plan with running := some s0.snapshot } }
    let t := after (exec .passComplete s)
    let old (as : List Aspect) : State := State.onRollout 2
      (fun r => { r with gateTimer := some 15000, gateExpired := true, commanded := List.replicate 3 (some .blank) })
      (wanting 2 as { t with plan := { t.plan with running := none } })
    pendingOf t = some ⟨⟨[.closed, .closed], .ordinary, .urgent⟩, false⟩ ∧ t.shown 2 = [.speed 60, .closed, .closed] ∧
      gate 2 t = some (true, some 0, false) ∧
      gate 2 ((old [.blank, .closed, .blank]).publish 2) = some (true, some 0, false) ∧
      gate 2 ((old [.blank, .closed, .closed]).publish 2) = some (false, some 15000, true) := by decide +kernel

theorem witness_WireCodesRoundTrip :
    aspectOfCode (Aspect.speed 130).code = some (.speed 130) ∧ aspectOfCode (Aspect.legend 63).code = some (.legend 63) ∧
      decodeState [.lane 1, .panel] [3#8, 2#8, 0x4D#8, 1#8, 0xBF#8] =
        some ⟨true, true, [(.failed, .speed 130), (.degraded, .legend 63)]⟩ ∧ decodeState [.lane 1] [0#8] = none := by decide +kernel

theorem witness_WireCodesRoundTrip_drive :
    let x := answering 4 3#8 [0#8]
    let f := flight .trace false
    f.request.length = 4 ∧ x.slots.length = 4 ∧ Job.lengthOk 1 .trace = true ∧
      lineBits 0x01#8 = [false, true, false, false, false, false, false, false, false, false, true] ∧
      supBits 0x01#8 = [false, true, false, false, false, false, false, false, false, true, true] ∧
      telegramDrive f x = f.request.flatMap ownByteDrive ++
        x.reply.flatMap (fun _ => List.replicate 22 none ++ [some false, some true]) ∧
      telegramDrive f ⟨[nack, nack], [], 0⟩ = ownByteDrive 1#8 ++ ownByteDrive 1#8 ∧
      LineChar.intact ⟨1#8, true, true, 0⟩ = false ∧
      slotDrives 1#8 3#8 .trace [] true [⟨1#8, true, true, 0⟩] = [.nack] := by decide +kernel

/-! ### Witnesses: the clauses of statements above, at the boundaries of their ranges -/

/-- Every timer this many milliseconds below its limit, or above 0 where it counts down. -/
def timed (short : Nat) (expired : Bool) : State :=
  { run1 with
    lineA := { run1.lineA with
      polls := [(1, ⟨1000 - short, 10000 - short⟩)], held := [(1, short)], lumenTimer := some (30000 - short) }
    lineB := { run1.lineB with lumenTimer := none }
    nodes := run1.nodes.adjust 1 fun n => { n with retry := some (30000 - short) }
    measure := { run1.measure with timer := some (60000 - short) }
    rollout := run1.rollout.adjust 1 fun r => { r with gateTimer := some (15000 - short), gateExpired := expired }
    incidents := [(15, { detected with expiry := some short })] }

theorem witness_EmptyQueuePassesOneMillisecond_timers :
    run1.geo.params.line.pollPeriod = 1000 ∧ run1.geo.params.line.statePeriod = 10 ∧
      run1.geo.params.measure.interval = 60 ∧ run1.geo.params.plan.gateTime = 15 ∧
      after (step (timed 1 false)) = { timed 0 false with clock := 1 } ∧
      after (step (timed 0 false)) = { timed 0 false with clock := 1 } ∧
      (after (step (timed 1 true))).rollout = (timed 1 true).rollout ∧
      (let low : State := { timed 1 false with resetHigh := false }
       low.pending = [] ∧ after (step low) = low) := by decide +kernel

theorem witness_TriggerStartsOrDefersPass_snapshot :
    let sign (h : Option Health) (f : Bool) : SignRec := ⟨[.closed], h, none, f, false⟩
    let s : State :=
      { run2 with
        geo := { run2.geo with waiting := { run2.geo.waiting with queue := some ⟨40, 60, 3, 40, 0, 0⟩ } }
        nodes := run2.nodes.adjust 1 fun n =>
          { n with signs := [sign (some .ok) false, sign (some .degraded) false, sign (some .failed) false,
                             sign none false, sign (some .ok) true] } }
    let off : State := withNode s fun n => { n with state := .suspect }
    s.snapshot.queue = run2.geo.params.queue ∧ s.geo.waiting.queue ≠ none ∧ s.snapshot.incidents = run2.incidents ∧
      s.snapshot.stations.look 1 = some ⟨.clear, false⟩ ∧ s.nodes.look 3 = none ∧ s.snapshot.signs.look 3 = none ∧
      (s.snapshot.signs.look 1).map (fun vs => vs.map (·.serviceable)) = some [true, true, false, false, false] ∧
      (off.snapshot.signs.look 1).map (fun vs => vs.map (·.serviceable)) = some (List.replicate 5 false) ∧
      (s.snapshot.signs.look 1).map (fun vs => vs.map (·.caps)) = some (List.replicate 5 [.closed]) := by decide +kernel

theorem witness_ResetRequestRepliesThenResets_last :
    let full (s : State) : State := { s with link := { s.link with notices := run0.link.notices } }
    let s := full (after (exec .reset (asked run1 0x07#8 [])))
    let u := asked s 0x17#8 []
    let t := full resetting
    s.link.resetting = true ∧ s.link.replySlot ≠ none ∧ s.link.tx = none ∧ s.link.notices ≠ [] ∧
      after (exec .sendNotice s) = s ∧
      u.link.resetting = true ∧ u.link.rxQueue ≠ [] ∧ after (exec .unknownType u) = u ∧
      t.link.sendsReset = true ∧ t.link.notices ≠ [] ∧ after (exec .frameSent t) = t ∧
      after (exec .sendNotice t) = t ∧ after (exec .sendReply t) = t := by decide +kernel

/-- The result code of the reply to a request with this payload. -/
def resultOf (c : Instr) (s : State) (ty : Byte) (p : List Byte) : Option Result :=
  (replyOf (exec c (asked s ty p))).map (·.1)

theorem witness_DefineGantryStoresRecord_refused :
    let r (p : List Byte) : Option Result := resultOf .defineGantry setup0 2#8 p
    let d (g c1 c0 l a ls p sc : Byte) : Option Result := r [0#8, g, c1, c0, l, a, ls, p, sc]
    d 1#8 0#8 0#8 0#8 1#8 0b11#8 0#8 0#8 = some .ok ∧ d 32#8 0xFD#8 0xE8#8 1#8 16#8 0b100000#8 1#8 4#8 = some .ok ∧
      d 0#8 0#8 0#8 0#8 1#8 0b11#8 0#8 0#8 = some .badValue ∧ d 33#8 0#8 0#8 0#8 1#8 0b11#8 0#8 0#8 = some .badValue ∧
      d 1#8 0xFD#8 0xE9#8 0#8 1#8 0b11#8 0#8 0#8 = some .badValue ∧ d 1#8 0#8 0#8 2#8 1#8 0b11#8 0#8 0#8 = some .badValue ∧
      d 1#8 0#8 0#8 0#8 0#8 0b11#8 0#8 0#8 = some .badValue ∧ d 1#8 0#8 0#8 0#8 17#8 0b11#8 0#8 0#8 = some .badValue ∧
      d 1#8 0#8 0#8 0#8 1#8 0#8 0#8 0#8 = some .badValue ∧ d 1#8 0#8 0#8 0#8 1#8 0b1#8 0#8 0#8 = some .badValue ∧
      d 1#8 0#8 0#8 0#8 1#8 0b1010#8 0#8 0#8 = some .badValue ∧ d 1#8 0#8 0#8 0#8 1#8 0b1000010#8 0#8 0#8 = some .badValue ∧
      d 1#8 0#8 0#8 0#8 1#8 0b11#8 2#8 0#8 = some .badValue ∧ d 1#8 0#8 0#8 0#8 1#8 0b11#8 0#8 5#8 = some .badValue := by
  decide +kernel

theorem witness_DefineGantryStoresRecord_lengths :
    let r (p : List Byte) : Option Result := resultOf .defineGantry setup0 2#8 p
    let n (k : Nat) : List Byte := List.replicate k 1#8
    r [] = some .badLength ∧ r (0#8 :: n 7) = some .badLength ∧ r (0#8 :: n 9) = some .badLength ∧
      r (1#8 :: n 0) = some .badLength ∧ r (1#8 :: n 2) = some .badLength ∧ r (2#8 :: n 7) = some .badLength ∧
      r (2#8 :: n 1) = some .badValue ∧ r (2#8 :: n 8) = some .badValue ∧ r [1#8, 0#8] = some .badValue ∧
      r [1#8, 33#8] = some .badValue ∧ r [1#8, 32#8] = some .notFound ∧ r [1#8, 1#8] = some .ok := by decide +kernel

theorem witness_DefineStationStoresRecord_refused :
    let r (p : List Byte) : Option Result := resultOf .defineStation setup0 3#8 p
    let d (n c1 c0 h ls d1 d0 w1 w0 : Byte) : Option Result := r [0#8, n, c1, c0, h, ls, d1, d0, w1, w0]
    d 1#8 0#8 0#8 1#8 0#8 1#8 44#8 0#8 100#8 = some .ok ∧
      d 24#8 0xFD#8 0xE8#8 32#8 63#8 2#8 0x58#8 1#8 44#8 = some .ok ∧
      d 0#8 0#8 0#8 1#8 2#8 1#8 44#8 0#8 100#8 = some .badValue ∧ d 25#8 0#8 0#8 1#8 2#8 1#8 44#8 0#8 100#8 = some .badValue ∧
      d 1#8 0xFD#8 0xE9#8 1#8 2#8 1#8 44#8 0#8 100#8 = some .badValue ∧
      d 1#8 0#8 0#8 0#8 2#8 1#8 44#8 0#8 100#8 = some .badValue ∧ d 1#8 0#8 0#8 33#8 2#8 1#8 44#8 0#8 100#8 = some .badValue ∧
      d 1#8 0#8 0#8 1#8 64#8 1#8 44#8 0#8 100#8 = some .badValue ∧ d 1#8 0#8 0#8 1#8 2#8 1#8 43#8 0#8 100#8 = some .badValue ∧
      d 1#8 0#8 0#8 1#8 2#8 2#8 0x59#8 0#8 100#8 = some .badValue ∧ d 1#8 0#8 0#8 1#8 2#8 1#8 44#8 0#8 99#8 = some .badValue ∧
      d 1#8 0#8 0#8 1#8 2#8 2#8 0x58#8 1#8 45#8 = some .badValue ∧
      d 1#8 0#8 0#8 1#8 2#8 1#8 44#8 1#8 44#8 = some .badValue := by decide +kernel

theorem witness_DefineStationStoresRecord_lengths :
    let r (p : List Byte) : Option Result := resultOf .defineStation setup0 3#8 p
    let n (k : Nat) : List Byte := List.replicate k 1#8
    r [] = some .badLength ∧ r (0#8 :: n 8) = some .badLength ∧ r (0#8 :: n 10) = some .badLength ∧
      r (1#8 :: n 0) = some .badLength ∧ r (1#8 :: n 2) = some .badLength ∧ r (2#8 :: n 8) = some .badLength ∧
      r (2#8 :: n 1) = some .badValue ∧ r (2#8 :: n 9) = some .badValue ∧ r [1#8, 0#8] = some .badValue ∧
      r [1#8, 25#8] = some .badValue ∧ r [1#8, 24#8] = some .notFound ∧ r [1#8, 1#8] = some .ok := by decide +kernel

theorem witness_RaiseIncidentTakesLowestSlot_refused :
    let r (p : List Byte) : Option Result := resultOf .raiseIncident run2 8#8 p
    let d (k : Byte) (s e : List Byte) (fields : List Byte) : Option Result := r (k :: s ++ e ++ fields)
    d 0#8 [0#8, 1#8] [0#8, 1#8] [1#8, 1#8, 0#8, 0#8] = some .ok ∧
      d 0#8 [0#8, 1#8] [0#8, 1#8] [0#8, 0#8, 0#8] = some .badLength ∧
      d 0#8 [0#8, 1#8] [0#8, 1#8] [1#8, 0#8, 0#8, 0#8] = some .badValue ∧
      d 0#8 [0#8, 1#8] [0#8, 1#8] [1#8, 63#8, 0#8, 0#8] = some .badValue ∧
      d 0#8 [0#8, 1#8] [0#8, 1#8] [1#8, 64#8, 0#8, 0#8] = some .badValue ∧
      d 1#8 [0#8, 1#8] [0#8, 1#8] [1#8, 1#8, 0#8, 0#8] = some .badValue ∧
      d 4#8 [0#8, 1#8] [0#8, 1#8] [0#8, 0#8, 0#8] = some .badValue ∧
      d 3#8 [0#8, 2#8] [0#8, 1#8] [0#8, 0#8, 0#8] = some .badValue ∧
      d 3#8 [0#8, 2#8] [0xFD#8, 0xE9#8] [0#8, 0#8, 0#8] = some .badValue ∧
      d 3#8 [0#8, 2#8] [0#8, 2#8] [0#8, 0#8, 1#8, 0#8] = some .badValue ∧
      d 3#8 [0#8, 2#8] [0#8, 2#8] [0#8, 0#8, 1#8, 64#8] = some .badValue ∧
      d 3#8 [0#8, 2#8] [0#8, 2#8] [0#8, 0#8, 1#8, 63#8] = some .ok ∧
      d 3#8 [0#8, 2#8] [0#8, 2#8] [0#8, 0#8, 0#8, 0#8] = some .badLength ∧
      d 3#8 [0#8, 2#8] [0#8, 2#8] [0#8, 1#8] = some .badLength ∧ r [] = some .badLength := by decide +kernel

theorem witness_RaiseIncidentTakesLowestSlot_full :
    let p : List Byte := [3#8, 0#8, 1#8, 0#8, 1#8, 0#8, 1#8, 130#8, 1#8, 1#8]
    let five : Table Incident := (List.range 5).map fun n => (n + 11, detected)
    let s : State := { run1 with incidents := (List.range 11).map (fun n => (n, closure)) ++ five }
    s.supervisorCount = 11 ∧ (∀ h, h < 16 → s.incidents.look h ≠ none) ∧
      resultOf .raiseIncident s 8#8 p = some .tableFull ∧
      replyOf (exec .raiseIncident (asked run2 8#8 p)) = some (.ok, .handle 1) := by decide +kernel

theorem witness_GantryServiceMovesNode_follows :
    let known : State := State.onRollout 1 (fun r => { r with
      confirmed := [some .closed, none], commanded := [some .closed, some .blank] }) run1
    let failed : State := withNode run1 fun n =>
      { n with state := .disabled, signs := n.signs.map fun y => { y with confirmFailed := true } }
    let off (s : State) : State := after (exec .gantryService (asked s 15#8 [1#8, 1#8]))
    let on (s : State) : State := after (exec .gantryService (asked s 15#8 [1#8, 0#8]))
    let e : Notice := ⟨0, .nodeEvent 1 .a 1 .online .disabled .serviceOut none⟩
    run1.plan.running = none ∧ (off run1).link.notices = [e] ∧
      (off run1).plan.running = some (off run1).snapshot ∧
      (off (withNode run1 fun n => { n with state := .suspect })).plan = run1.plan ∧
      failed.nodeState 1 = some .disabled ∧ (on failed).plan.running = some (on failed).snapshot ∧
      ((on failed).nodes.look 1).map (fun n => n.signs.map (·.confirmFailed)) = some [false, false] ∧
      (on (off { run1 with plan := { run1.plan with running := some run1.snapshot } })).plan.again = true ∧
      (on (withNode run1 fun n => { n with state := .disabled })).plan = run1.plan ∧
      known.forgetNotice 1 .disabled =
        some (.displayChange 1 .node [⟨none, some .closed, true⟩, ⟨none, some .blank, false⟩]) := by decide +kernel

theorem witness_ReadsChangeNothing_listed :
    let read (c : Instr) (s : State) (ty : Byte) : Option (Result × Detail) := replyOf (exec c (asked s ty [1#8]))
    let due (s : State) : Option ConfirmDue := (read .readGantry s 18#8).bind fun r =>
      match r.2 with | .gantry x => some x.due | _ => none
    let station (s : State) : Option StationReadout := (read .readStation s 19#8).bind fun r =>
      match r.2 with | .station x => some x | _ => none
    let queued : State := { run1 with lineA := { run1.lineA with
      queues := { run1.lineA.queues with confirm := [⟨1, .state .confirm, .rollout, false⟩] } } }
    let jam : State := { run1 with
      geo := { run1.geo with home := [(1, 2)] }
      traffic := run1.traffic.adjust 1 fun x => { x with level := .l2, queueOn := true }
      measure := { run1.measure with stations := run1.measure.stations.adjust 1 fun en =>
        { nodeCond := false, lanes := en.lanes.mapValues fun y => { y with suspect := true, lastIncluded := true } } } }
    due run1 = some .absent ∧ due queued = some .queued ∧
      due { run1 with lineA := { run1.lineA with held := [(1, 7)] } } = some (.remaining 7) ∧
      (station jam).map (·.demands) = some [⟨2, 80, some 6⟩, ⟨2, 40, some 5⟩, ⟨1, 60, some 5⟩] ∧
      (station jam).map (·.lanes) = some [⟨1, .suspect, ⟨false, false, false⟩, true⟩] ∧
      (station run1).map (·.demands) = some [] ∧
      (run1.measure.stations.look 1).map (·.nodeCond) = some true ∧
      (station run1).map (fun x => x.lanes.map fun y => (y.status, y.reasons.node)) = some [(.faulty, true)] := by decide +kernel

/-- The BAD_LENGTH clauses of ResetRequestRepliesThenResets, StartEntersRun, StopEmptiesTheRun, ClearIncidentFreesSlot,
ConfirmIncidentTakesOver, GantryServiceMovesNode, StationResetRestartsFilters, LuminanceReachesBothLines,
ReadsChangeNothing and ReadNodeClearsDegradedMarks. -/
theorem witness_WrongLengthsAreRefused :
    let r (c : Instr) (ty : Byte) (p : List Byte) : Option Result := resultOf c run2 ty p
    resultOf .reset run2 7#8 [0#8] = some .badLength ∧ resultOf .start setup0 5#8 [0#8] = some .badLength ∧
      r .stop 6#8 [0#8] = some .badLength ∧ r .clearIncident 10#8 [] = some .badLength ∧
      r .clearIncident 10#8 [0#8, 0#8] = some .badLength ∧ r .confirmIncident 11#8 [] = some .badLength ∧
      r .gantryService 15#8 [1#8] = some .badLength ∧ r .gantryService 15#8 [1#8, 1#8, 0#8] = some .badLength ∧
      r .stationReset 16#8 [] = some .badLength ∧ r .luminance 17#8 [1#8, 1#8] = some .badLength ∧
      r .readGantry 18#8 [] = some .badLength ∧ r .readStation 19#8 [1#8, 1#8] = some .badLength ∧
      r .readIncidents 20#8 [0#8] = some .badLength ∧ r .readNode 21#8 [] = some .badLength := by decide +kernel

/-- The BAD_VALUE, NOT_FOUND and CONFLICT clauses of ConfirmIncidentTakesOver, GantryServiceMovesNode,
ReadNodeClearsDegradedMarks and ReadsChangeNothing. -/
theorem witness_WrongItemsAreRefused :
    let r (c : Instr) (ty : Byte) (p : List Byte) : Option Result := resultOf c run2 ty p
    r .confirmIncident 11#8 [16#8] = some .badValue ∧ r .confirmIncident 11#8 [14#8] = some .notFound ∧
      r .confirmIncident 11#8 [0#8] = some .conflict ∧ r .confirmIncident 11#8 [15#8] = some .ok ∧
      r .gantryService 15#8 [0#8, 1#8] = some .badValue ∧ r .gantryService 15#8 [33#8, 1#8] = some .badValue ∧
      r .gantryService 15#8 [1#8, 2#8] = some .badValue ∧ r .gantryService 15#8 [32#8, 1#8] = some .notFound ∧
      r .readNode 21#8 [0#8] = some .badValue ∧ r .readNode 21#8 [33#8] = some .badValue ∧
      r .readNode 21#8 [32#8] = some .notFound ∧ r .readNode 21#8 [1#8] = some .ok ∧
      r .readGantry 18#8 [33#8] = some .badValue ∧ r .readGantry 18#8 [32#8] = some .notFound ∧
      r .readStation 19#8 [25#8] = some .badValue ∧ r .readStation 19#8 [24#8] = some .notFound := by decide +kernel

theorem witness_PlaceDemandTakesLowestSlot_refused :
    let r (p : List Byte) : Option Result := resultOf .placeDemand run1 12#8 p
    r [1#8] = some .badLength ∧ r [1#8, 0#8, 2#8] = some .badLength ∧ r [1#8, 0#8, 2#8, 1#8, 0#8] = some .badLength ∧
      r [1#8, 1#8] = some .badLength ∧ r [1#8, 2#8, 1#8, 1#8] = some .badLength ∧ r [1#8, 3#8] = some .badLength ∧
      r [1#8, 3#8, 0#8] = some .badValue ∧ r [1#8, 3#8, 0#8, 0#8] = some .badValue ∧
      r [0#8, 1#8, 50#8] = some .badValue ∧ r [33#8, 2#8, 1#8] = some .badValue ∧
      r [1#8, 0#8, 0#8, 1#8] = some .badValue ∧ r [1#8, 0#8, 64#8, 1#8] = some .badValue ∧
      r [1#8, 0#8, 2#8, 0#8] = some .badValue ∧ r [1#8, 0#8, 2#8, 4#8] = some .badValue ∧
      r [1#8, 2#8, 0#8] = some .badValue ∧ r [1#8, 2#8, 64#8] = some .badValue ∧
      r [1#8, 0#8, 1#8, 3#8] = some .badValue ∧ r [1#8, 0#8, 6#8, 3#8] = some .ok := by decide +kernel

theorem witness_PlaceDemandTakesLowestSlot_kinds :
    let held : Table Demand := (List.range 48).map fun n => (n, ⟨1, .speed 50⟩)
    let s : State := { run1 with plan := { run1.plan with demands := held } }
    let full (p : List Byte) : Option Result := resultOf .placeDemand s 12#8 p
    let r (p : List Byte) : Option Result := resultOf .placeDemand run1 12#8 p
    (∀ h, h < 48 → s.plan.demands.look h ≠ none) ∧ full [1#8, 0#8, 6#8, 1#8] = some .tableFull ∧
      full [1#8, 1#8, 50#8] = some .tableFull ∧ full [1#8, 2#8, 63#8] = some .tableFull ∧
      full [1#8, 0#8, 1#8, 1#8] = some .badValue ∧ full [32#8, 2#8, 1#8] = some .notFound ∧
      r [32#8, 0#8, 6#8, 1#8] = some .notFound ∧ r [32#8, 1#8, 5#8] = some .notFound ∧
      r [1#8, 1#8, 19#8] = some .okClamped ∧ r [1#8, 1#8, 130#8] = some .ok ∧ r [1#8, 2#8, 63#8] = some .ok := by
  decide +kernel

theorem witness_RaiseIncidentTakesLowestSlot_choice :
    let r (k : Byte) (p : List Byte) : Option Result := resultOf .raiseIncident run2 8#8 ([k, 0#8, 1#8, 0#8, 1#8] ++ p)
    r 1#8 [2#8, 0#8, 0#8] = some .badValue ∧ r 1#8 [2#8, 1#8, 0#8, 0#8] = some .badValue ∧
      r 0#8 [2#8, 1#8, 0#8, 0#8] = some .badValue ∧ r 1#8 [0#8, 0#8, 0xFF#8] = some .badValue ∧
      r 1#8 [2#8, 0#8] = some .badLength := by decide +kernel

theorem witness_AmendIncidentReplacesFields_choice :
    let r (p : List Byte) : Option Result := resultOf .amendIncident run2 9#8 p
    r [] = some .badLength ∧ r [0#8] = some .badLength ∧ r [0#8, 1#8, 0#8] = some .badLength ∧
      r [0#8, 0#8, 0#8, 0#8, 0#8] = some .badLength ∧ r [0#8, 3#8, 0#8, 0#8, 0#8, 0#8] = some .badValue ∧
      r [0#8, 3#8, 0#8, 0#8, 0#8, 0#8, 0#8, 0#8] = some .badValue ∧
      r [0#8, 0#8, 0#8, 0#8, 0#8, 0xFF#8] = some .badValue ∧ r [0#8, 0#8, 0#8, 0#8, 0#8, 0#8] = some .ok := by decide +kernel

/-- A SHOW in flight to gantry 1 while a STATE of gantry 2 waits in CONFIRM and another is held; these are the targets of
gantry 1. -/
def compared (as : List Aspect) : State :=
  let s := flying run1 .display false
  { s with
    lineA := { s.lineA with
      queues := { s.lineA.queues with confirm := [⟨2, .state .confirm, .rollout, false⟩] }, held := [(2, 9)] }
    plan := { s.plan with targets := s.plan.targets.adjust 1 fun t =>
      { t with signs := as.map fun a => ⟨a, a, false, false, false⟩ } } }

theorem witness_AcceptedShowIsCommanded_compared :
    let x : Transcript := ⟨acks 8, [], 0⟩
    let s := compared [.closed, .blank]
    let t := after (exec (.showAccepted .a x) s)
    let q := after (exec (.showAccepted .a x) (compared [.blank, .blank]))
    s.ending .a x = some (flight .display false, .accepted) ∧ s.nodeState 1 = some .online ∧
      (s.rollout.look 1).map (·.pending) = some none ∧ (∀ e ∈ (s.line .a).queues.confirm, e.gantry ≠ 1) ∧
      s.shown 1 = [.closed, .blank] ∧ pendingOf t = some ⟨⟨[.closed, .blank], .ordinary, .urgent⟩, false⟩ ∧
      (t.rollout.look 1).map (·.confirmation) = some .settled ∧
      t.lineA.queues.urgentShow = [⟨1, .display, .rollout, false⟩] ∧ t.lineA.held = [(2, 9)] ∧
      t.lineA.queues.confirm = s.lineA.queues.confirm ∧
      pendingOf q = none ∧ (q.rollout.look 1).map (·.confirmation) = some .awaiting ∧
      q.lineA.held = [(1, 500), (2, 9)] := by decide +kernel

/-- The record of a READ_FAULTS reply in the order of the field table of R169 (R174): NODE_OFFLINE of gantry 7 at clock
0x01020304 with overflow; SILENT of station 24; an empty bank. -/
theorem witness_ReadFaultsClearsOneBank_bytes :
    (Detail.bank .lineB ⟨some ⟨.fault, .nodeOffline, some 7, none, 0x01020304#32⟩, true⟩).bytes =
        [2#8, 1#8, 1#8, 1#8, 1#8, 1#8, 0x0F#8, 1#8, 7#8, 0#8, 1#8, 1#8, 2#8, 3#8, 4#8] ∧
      (Detail.bank .measure ⟨some ⟨.warn, .silent, some 32, some 24, 0xFF#32⟩, false⟩).bytes =
        [3#8, 1#8, 0#8, 1#8, 0#8, 1#8, 0x17#8, 1#8, 32#8, 1#8, 24#8, 1#8, 0#8, 0#8, 0#8, 0xFF#8] ∧
      (Detail.bank .plan ⟨none, false⟩).bytes = [4#8, 0#8, 0#8, 0#8, 0#8, 0#8, 0#8, 0#8] := by decide +kernel

/-- R36 and section 11.2: the bytes of a SHOW, a DESCRIBE, a CAPS and a LUMEN, written out but for their CRC-8. -/
theorem witness_ArbiterTakesFirstEligible_bytes :
    let p : Pending := ⟨⟨[.speed 80, .closed, .blank], .ordinary, .urgent⟩, false⟩
    let s : State := State.onRollout 2 (fun r => { r with pending := some p }) waiting
    let only (e : Entry) : State :=
      { s with lineA := { s.lineA with queues := { s.lineA.queues with urgentShow := [e] } } }
    let sent (e : Entry) : Option (List Byte) :=
      (after (exec (.telegramStart .a) (only e))).lineA.flight.map fun f => f.request.dropLast
    (s.geo.gantries.look 2).map (·.address) = some 2 ∧ s.geo.gantries.look 0 = none ∧
      sent ⟨2, .display, .rollout, false⟩ = some [2#8, 1#8, 6#8, 0#8, 0x48#8, 1#8, 0x01#8, 2#8, 0#8] ∧
      sent ⟨2, .describe, .registry, false⟩ = some [2#8, 4#8, 0#8] ∧
      sent ⟨2, .caps 1, .registry, false⟩ = some [2#8, 5#8, 1#8, 1#8] ∧
      sent ⟨0, .lumen 5, .line, false⟩ = some [0#8, 6#8, 1#8, 5#8] := by decide +kernel

/-- A reply with the overflow flag and two records that make events, and one with two reverse passages. -/
theorem witness_TraceReplyReachesStation_fold :
    let base (l : LaneRec) : State :=
      State.onStation 1 (fun e => { e with nodeCond := false, lanes := e.lanes.put 1 l }) (flying run1 .trace false)
    let s : State := base { freshLane 1 with loopA := ⟨true, 3, false⟩, acc := { Acc.zero with edgeErrors := 5 } }
    let x := answering 4 3#8 [1#8, 0x31#8, 0#8, 9#8, 0x21#8, 0#8, 10#8]
    let t := after (exec (.traceReply .a x) s)
    let two : List Byte := [0#8, 0x29#8, 0#8, 1#8, 0x21#8, 0#8, 2#8, 0x09#8, 0#8, 3#8, 0x01#8, 0#8, 4#8,
      0x29#8, 0#8, 5#8, 0x21#8, 0#8, 6#8]
    let u := base (freshLane 1)
    let v := after (exec (.traceReply .a (answering 4 3#8 two)) u)
    s.ending .a x = some (flight .trace false, .replied (.trace ⟨true, false,
        [⟨1, false, true, true, 9#16⟩, ⟨1, false, false, true, 10#16⟩]⟩)) ∧
      ({ t with lineA := s.lineA, lineB := s.lineB, measure := s.measure } : State) =
        ((s.record .measure .bufferOverflow .warn (some 1) (some 1)).record .measure .stuckOn .fault (some 1)
          (some 1)).record .measure .edgeSequence .warn (some 1) (some 1) ∧
      (t.banks.measure.held.map fun e => (e.severity, e.code)) = some (.fault, .stuckOn) ∧
      ({ v with lineA := u.lineA, lineB := u.lineB, measure := u.measure } : State) =
        (u.reversePassage 1 1).reversePassage 1 1 := by decide +kernel

theorem witness_DueTimersQueueTelegrams_lumen :
    let e : Entry := ⟨0, .lumen 3, .line, false⟩
    let s : State := { run1 with lineA := { run1.lineA with
      queues := { run1.lineA.queues with lumen := [e] }, lumenTimer := some 30000 } }
    (after (exec (.lumenRepeat .a) s)).lineA.queues.lumen = [⟨0, .lumen 8, .line, false⟩] ∧
      (after (exec (.lumenRepeat .a) s)).lineA.lumenTimer = some 0 := by decide +kernel

/-- R80 (hand calculation): rises that are ignored, and starts that find no partner; max_gap is 1,000. -/
theorem witness_ForwardPassageIsMeasured_rows :
    let p := Params.defaults.measure
    let takes (m : Passage) (a b : Bool) (e : EdgeRec) : Passage × Nat :=
      let y := (takeRecord p s4 false { lane2 with machine := m, loopA := ⟨a, 0, false⟩, loopB := ⟨b, 0, false⟩ } e).1
      (y.machine, y.acc.unpaired)
    takes .idle true false (edge true true 9#16) = (.idle, 0) ∧
      takes .idle false true (edge true false 9#16) = (.idle, 0) ∧
      takes (.bLead 5#16) false false (edge true true 9#16) = (.bLead 9#16, 1) ∧
      takes (.bLead 5#16) false true (edge false true 1006#16) = (.aLead 1006#16 none, 1) ∧
      takes (.bLead 5#16) false true (edge false true 1005#16) = (.revWait, 0) ∧
      takes (.fwdWait 1#16 2#16) true false (edge true true 9#16) = (.fwdWait 1#16 2#16, 0) ∧
      takes (.aLead 1#16 none) true true (edge true false 9#16) = (.aLead 1#16 none, 0) ∧
      takes .revWait true true (edge true false 9#16) = (.revWait, 0) ∧
      takes .revWait false true (edge true false 9#16) = (.idle, 0) := by decide +kernel

theorem witness_PassCompletesWithTargets_confirm :
    let waits : List Entry :=
      [⟨1, .state .confirm, .rollout, false⟩, ⟨2, .state .confirm, .rollout, false⟩, ⟨1, .state .confirm, .line, true⟩]
    let old : Pending := ⟨⟨[.blank, .blank], .ordinary, .normal⟩, false⟩
    let kept (p : Option Pending) : List (Nat × Bool) :=
      let s := published p .online
      let t : State := { s with lineA := { s.lineA with queues := { s.lineA.queues with confirm := waits } } }
      (t.publish 1).lineA.queues.confirm.map fun e => (e.gantry, e.retry)
    kept none = [(2, false), (1, true)] ∧ kept (some old) = [(2, false), (1, true)] := by decide +kernel

/-- R38 to R41: the errors of a reply, each at its place, and resends that count as the byte. -/
theorem witness_TranscriptGivesOutcome_reply :
    let s := flying run1 (.state .routine) false
    let f := flight (.state .routine) false
    let send (cs : List LineChar) (idle : Nat) : Option (Flight × Ending) := s.ending .a ⟨acks 4, cs, idle⟩
    let good : List Byte := telegram 1#8 0x82#8 [0#8, 0#8, 0#8, 1#8, 0x44#8]
    let read : Ending := .replied (.state ⟨false, false, [(.ok, .blank), (.degraded, .speed 40)]⟩)
    LineChar.intact ⟨0x54#8, true, true, 3000⟩ = false ∧
      send (chars [2#8]) 0 = some (f, .failed .corrupt false) ∧
      send (chars [1#8, 2#8, 9#8]) 0 = some (f, .failed .corrupt false) ∧
      send (chars [1#8, 0x82#8, 4#8]) 0 = some (f, .failed .corrupt false) ∧
      send (chars [1#8, 0x82#8, 49#8]) 0 = some (f, .failed .corrupt false) ∧
      s.ending .a (spoilt 2#8 [0#8, 0#8, 0#8, 1#8, 0x44#8]) = some (f, .failed .corrupt true) ∧
      s.ending .a (answering 4 2#8 [4#8, 0#8, 0#8, 1#8, 0x44#8]) = some (f, .failed .corrupt true) ∧
      (let noise : List LineChar := List.replicate 3 ⟨0x54#8, true, true, 3000⟩
       send (noise ++ chars (good.take 4) ++ noise ++ chars (good.drop 4)) 0 = some (f, read) ∧
         send (chars (good.take 8) ++ noise ++ noise.take 1) 3001 = some (f, .failed .replyBroken false) ∧
         send (chars (good.take 3) ++ noise ++ [⟨0#8, true, true, 3001⟩]) 0 = some (f, .failed .replyBroken false) ∧
         send [⟨1#8, false, true, 20001⟩] 0 = some (f, .failed .replyTimeout false)) := by decide +kernel

/-- One sending of ADDRESS and three of FUNCTION that are not ACKed, and a reply byte that is faulty first. -/
theorem witness_TranscriptGivesOutcome_resent :
    ackedWithin (2 :: List.replicate (3 - 1) 4) ([nack, ⟨false, true⟩, nack, nack, nack, ⟨false, true⟩] ++ acks 1) ∧
      (flying run1 (.state .routine) false).ending .a
        ⟨[nack, ⟨false, true⟩, nack, nack, nack, ⟨false, true⟩] ++ acks 1 ++ [nack], [], 0⟩ =
          some (flight (.state .routine) false, .failed .corrupt false) ∧
      (flying run1 (.caps 1) false).ending .a ⟨acks 1 ++ [nack, nack, nack] ++ acks 2 ++ List.replicate 4 nack, [], 0⟩ =
        some (flight (.caps 1) false, .failed .nackLimit false) ∧
      brings [1#8, 0x82#8] (⟨0x54#8, true, true, 3000⟩ :: chars [1#8, 0x82#8]) ∧
      inTime true (⟨0x54#8, true, true, 20000⟩ :: chars [1#8, 0x82#8]) :=
  ⟨⟨[nack], ⟨false, true⟩, _, rfl, by decide, by decide, rfl, [nack, nack, nack], ⟨false, true⟩, _, rfl, by decide,
      by decide, rfl, [], ⟨false, true⟩, _, rfl, by decide, by decide, rfl, rfl⟩,
    by decide +kernel, by decide +kernel,
    ⟨[⟨0x54#8, true, true, 3000⟩], _, _, rfl, by decide, by decide, by decide, rfl, [], _, _, rfl, by decide, by decide,
      by decide, rfl, rfl⟩,
    by decide, by decide, by decide, trivial⟩

theorem witness_IntervalCloseStartsNext_lanes :
    let s : State := { run1 with measure := { run1.measure with timer := some 60000 } }
    s.measure.stations.map (fun x => (x.1, x.2.lanes.keys)) = [(1, [1])] ∧
      (after (exec .intervalClose s)).measure.stations.map (fun x => (x.1, x.2.lanes.keys)) = [(1, [1])] := by
  decide +kernel

/-- R51: a confirmation STATE that already waits in CONFIRM stays where it is, unless a new command ends the sequence. -/
theorem witness_AcceptedShowIsCommanded_waiting :
    let x : Transcript := ⟨acks 8, [], 0⟩
    let e (g : Nat) : Entry := ⟨g, .state .confirm, .rollout, false⟩
    let put (s : State) : State := { s with lineA := { s.lineA with queues := { s.lineA.queues with confirm := [e 1, e 2] } } }
    let s := put (compared [.blank, .blank])
    let c := put (compared [.closed, .blank])
    let t := after (exec (.showAccepted .a x) s)
    let d := after (exec (.showAccepted .a x) c)
    let j := put (confirming .awaiting 0 0)
    let r := put (retried .trace)
    let v := after (exec (.traceReply .a (answering 4 3#8 [0#8])) r)
    s.ending .a x = some (flight .display false, .accepted) ∧ s.nodeState 1 = some .online ∧
      confirmation t = some (.awaiting, 0, 0) ∧ t.lineA.queues.confirm = [e 1, e 2] ∧ t.lineA.held = s.lineA.held ∧
      d.lineA.queues.confirm = [e 2] ∧ d.lineA.held.look 1 = none ∧
      confirmation (j.judge 1 true [.blank, .blank]) = some (.awaiting, 1, 0) ∧
      (j.judge 1 true [.blank, .blank]).lineA = j.lineA ∧
      confirmation v = some (.awaiting, 0, 0) ∧ v.lineA.queues = r.lineA.queues ∧ v.lineA.held = r.lineA.held := by
  decide +kernel

end Sys2Proof.Tests
end

section
/-! What the commands keep, said once for each kind of row: the stored form (O5), the empty blocks of SETUP (O6), the
clock and the luminance (O10). -/

namespace Sys2Proof.Machine

/-! ### The stored form through the acts inside a step -/

/-- The acts inside a step keep the stored form. -/
theorem Inner.wf {s t : State} (h : Inner s t) (k : s.Wf) : t.Wf where
  rxQueue := by rw [h.rxQueue]; exact k.rxQueue
  notices := h.notices k.notices
  incidents := (h.incidents k.incidents k.supervisor).1
  supervisor := (h.incidents k.incidents k.supervisor).2
  demands := by rw [h.demands]; exact k.demands
  banks := h.banks k.banks
  lineA := (h.line .a).wf k.lineA
  lineB := (h.line .b).wf k.lineB
  tables := h.tables k.tables

/-- Both lines of a state in the stored form have it. -/
theorem State.Wf.line {s : State} (h : s.Wf) (l : Line) : (s.line l).wf := by
  cases l
  · exact h.lineA
  · exact h.lineB

/-- A state in the stored form stays so when only its link unit changes, within the bounds of the queues. -/
theorem State.Wf.withLink {s : State} (h : s.Wf) {x : Link} (h1 : x.rxQueue.length ≤ 4) (h2 : x.notices.length ≤ 32) :
    State.Wf { s with link := x } :=
  ⟨h1, h2, h.incidents, h.supervisor, h.demands, h.banks, h.lineA, h.lineB, h.tables⟩

/-- A state in the stored form stays so when the controller of one line takes another form of its own. -/
theorem State.Wf.onLine {s : State} (h : s.Wf) {l : Line} {f : LineCtl → LineCtl} (hf : (f (s.line l)).wf) :
    (s.onLine l f).Wf := by
  cases l
  · exact ⟨h.rxQueue, h.notices, h.incidents, h.supervisor, h.demands, h.banks, hf, h.lineB, h.tables⟩
  · exact ⟨h.rxQueue, h.notices, h.incidents, h.supervisor, h.demands, h.banks, h.lineA, hf, h.tables⟩

/-! ### The empty blocks of SETUP -/

/-- A state whose link unit, banks and free values alone differ is as empty as before. -/
theorem State.SetupStill.congr {s t : State} (h : s.SetupStill)
    (e : { t with pending := s.pending, freeCount := s.freeCount, resetHigh := s.resetHigh, clock := s.clock,
                  link := s.link, banks := s.banks } = s) : t.SetupStill := by
  rw [← e] at h
  exact h

/-- A line on which nothing is queued, held or timed, when its telegram has ended. -/
theorem LineCtl.still.ended {c : LineCtl} (h : c.still) (e : EngineState) : (c.ended e).still := by
  obtain ⟨hq, hh, hp, ht, _⟩ := h
  exact ⟨hq, hh, hp, ht, by simp⟩

/-- SETUP stays empty when one line takes another still form. -/
theorem State.SetupStill.onLine {s : State} (h : s.SetupStill) {l : Line} {f : LineCtl → LineCtl}
    (hf : (s.line l).still → (f (s.line l)).still) : (s.onLine l f).SetupStill := by
  intro hm
  obtain ⟨h1, h2, h3, h4, h5, h6, h7, h8, ha, hb⟩ := h (by simpa using hm)
  cases l
  · exact ⟨h1, h2, h3, h4, h5, h6, h7, h8, hf ha, hb⟩
  · exact ⟨h1, h2, h3, h4, h5, h6, h7, h8, ha, hf hb⟩

/-- In an empty SETUP a line is still. -/
theorem State.SetupStill.line {s : State} (h : s.SetupStill) (hm : s.geo.mode = .setup) (l : Line) :
    (s.line l).still := by
  obtain ⟨_, _, _, _, _, _, _, _, ha, hb⟩ := h hm
  cases l
  · exact ha
  · exact hb

/-! ### What a row keeps -/

/-- What every command but a reset keeps. -/
structure Kept (s t : State) : Prop where
  clock : t.clock = s.clock
  wf : s.Wf → t.Wf
  still : s.SetupStill → t.SetupStill

/-- What every command but a reset and LUMINANCE keeps. -/
structure Row (s t : State) : Prop extends Kept s t where
  level : ∀ l, (t.line l).level = (s.line l).level

theorem Row.refl (s : State) : Row s s := ⟨⟨rfl, id, id⟩, fun _ => rfl⟩

theorem Kept.trans {s t u : State} (h : Kept s t) (k : Kept t u) : Kept s u :=
  ⟨k.clock.trans h.clock, fun x => k.wf (h.wf x), fun x => k.still (h.still x)⟩

theorem Row.trans {s t u : State} (h : Row s t) (k : Row t u) : Row s u :=
  ⟨h.toKept.trans k.toKept, fun l => (k.level l).trans (h.level l)⟩

/-- An act inside a step that does nothing in an empty SETUP. -/
theorem Row.of_inner {s t : State} (h : Inner s t) (k : s.geo.mode = .setup → s.SetupStill → t = s) : Row s t where
  clock := h.clock
  wf := h.wf
  still := fun x hm => by
    have hs : s.geo.mode = .setup := h.mode ▸ hm
    rw [k hs x]
    exact x hs
  level := fun l => (h.line l).level

/-- An act inside a step in RUN. -/
theorem Row.of_run {s t : State} (h : Inner s t) (hm : s.geo.mode = .run) : Row s t :=
  .of_inner h fun k => by rw [hm] at k; cases k

/-- A change of the link unit within the bounds of its queues. -/
theorem Row.of_link (s : State) (x : Link) (h1 : s.link.rxQueue.length ≤ 4 → x.rxQueue.length ≤ 4)
    (h2 : s.link.notices.length ≤ 32 → x.notices.length ≤ 32) : Row s { s with link := x } where
  clock := rfl
  wf := fun h => h.withLink (h1 h.rxQueue) (h2 h.notices)
  still := fun h => h.congr rfl
  level := fun l => by cases l <;> rfl

theorem row_record (id : BankId) (c : ErrorCode) (v : Severity) (g st : Option Nat) (s : State) :
    Row s (s.record id c v g st) where
  clock := (inner_record id c v g st s).clock
  wf := (inner_record id c v g st s).wf
  still := fun h => h.congr (by rw [record_frame])
  level := fun l => ((inner_record id c v g st s).line l).level

theorem row_draw (s : State) : Row s s.draw.2 where
  clock := rfl
  wf := (inner_draw s).wf
  still := fun h => h.congr rfl
  level := fun l => by cases l <;> rfl

/-- A change of one line that keeps its stored form, its stillness and its level. -/
theorem Row.of_line {s : State} {l : Line} {f : LineCtl → LineCtl} (hw : (s.line l).wf → (f (s.line l)).wf)
    (hs : (s.line l).still → (f (s.line l)).still) (hl : (f (s.line l)).level = (s.line l).level) :
    Row s (s.onLine l f) where
  clock := by simp
  wf := fun h => h.onLine (hw (h.line l))
  still := fun h => h.onLine hs
  level := fun m => by
    by_cases e : m = l
    · subst e; simpa using hl
    · rw [line_onLine_other s f e]

/-! ### Rows of the supervisor link (chapter 2) -/

theorem row_setFramer (f : Framer) (s : State) : Row s (s.setFramer f) := .of_link s _ id id

theorem row_linkError (c : ErrorCode) (s : State) : Row s (s.linkError c) := row_record ..

theorem row_queueFrame (f : Frame) (s : State) : Row s (s.queueFrame f) := by
  unfold State.queueFrame
  split
  · rename_i h
    exact .of_link s _ (fun _ => by simpa [rxCapacity] using h) id
  · exact row_linkError ..

theorem row_completeFrame (bytes : List Byte) (m : Option CharError) (s : State) : Row s (s.completeFrame bytes m) := by
  unfold State.completeFrame
  split
  · exact row_linkError ..
  · exact row_linkError ..
  · simp only
    split
    · split
      · exact row_queueFrame ..
      · exact .refl s
    · exact row_linkError ..

theorem row_character (c : SupChar) (both : Bool) (s : State) : Row s (s.character c both) := by
  unfold State.character
  simp only
  split
  · split
    · exact row_setFramer ..
    · split
      · exact .refl s
      · exact (row_setFramer ..).trans (row_linkError ..)
  · split
    · exact (row_setFramer ..).trans (row_linkError ..)
    · exact row_setFramer ..
  · exact row_setFramer ..
  · split
    · exact row_setFramer ..
    · exact (row_setFramer ..).trans (row_completeFrame ..)

theorem row_receiveCharacter (c : SupChar) (s : State) : Row s (s.receiveCharacter c) := by
  unfold State.receiveCharacter
  split
  · exact .refl s
  · split
    · exact (row_draw s).trans (row_character ..)
    · exact row_character ..

theorem row_frameTimeout (gap : Nat) (s : State) : Row s (s.frameTimeout gap) := by
  unfold State.frameTimeout
  split
  · exact .refl s
  · split
    · exact (row_setFramer ..).trans (row_linkError ..)
    · exact .refl s

theorem row_sendReply (s : State) : Row s s.sendReply := by
  unfold State.sendReply
  split
  · exact .of_link s _ id id
  · exact .refl s

theorem row_sendNotice (s : State) : Row s s.sendNotice := by
  unfold State.sendNotice
  split
  · rename_i h
    exact .of_link s _ id fun k => by rw [h, List.length_cons] at k; exact Nat.le_of_succ_le k
  · exact .refl s

theorem row_frameSent (s : State) : Row s s.frameSent := by
  unfold State.frameSent
  split
  · exact .refl s
  · exact .of_link s _ id id

/-! ### Rows of the gantry lines (chapter 3) -/

/-- The telegram whose outcome a transcript gives is the one in flight. -/
theorem ending_flight {s : State} {l : Line} {t : Transcript} {f : Flight} {e : Ending}
    (h : s.ending l t = some (f, e)) : (s.line l).flight = some f := by
  unfold State.ending at h
  split at h
  · cases h
  · rename_i hf
    cases h
    exact hf

/-- An outcome ends the telegram and hands it on, unless R54 discards it: in an empty SETUP it does. -/
theorem row_outcome {s : State} {l : Line} {f : Flight} {e : EngineState} {hand : State → State}
    (hf : (s.line l).flight = some f) (he : e = .free ∨ e = .quiet) (hh : ∀ u, Inner u (hand u)) :
    Row s (s.outcome l f e hand) := by
  have h1 : Row s (s.onLine l (LineCtl.ended e)) :=
    .of_line (fun _ => .inr ⟨he, rfl⟩) (fun h => h.ended e) rfl
  unfold State.outcome
  simp only
  split
  · exact h1
  · rename_i hd
    have h2 := hh (s.onLine l (LineCtl.ended e))
    refine ⟨⟨h2.clock.trans h1.clock, fun h => h2.wf (h1.wf h), fun h hm => absurd ?_ hd⟩,
      fun m => (h2.line m).level.trans (h1.level m)⟩
    obtain ⟨_, _, _, _, hx⟩ := h.line (by simpa [h2.mode] using hm) l
    exact hx f hf

theorem row_failureRow (want : Failure) (l : Line) (x : Transcript) (s : State) : Row s (failureRow want l x s) := by
  unfold failureRow
  split
  · rename_i f w c h
    split
    · exact row_outcome (ending_flight h) (.inr rfl) (inner_handFailure l f w c)
    · exact .refl s
  · exact .refl s

theorem inner_takeShow (e : Entry) (s : State) : Inner s (State.takeShow e s) := by
  unfold State.takeShow
  split
  · exact inner_onRollout ..
  · exact .refl s

theorem row_startTelegram (l : Line) (s : State) : Row s (s.startTelegram l) := by
  unfold State.startTelegram
  split
  · rename_i h
    split
    · exact .refl s
    · rename_i e q _
      generalize hc : (fun c : LineCtl => { c with engine := .sending, flight := some (s.flightOf e), queues := q }) = f
      have h2 := inner_takeShow e (s.onLine l f)
      have hl : ∀ m, ((s.onLine l f).line m).level = (s.line m).level := fun m => by
        by_cases em : m = l
        · subst em; rw [line_onLine_self, ← hc]
        · rw [line_onLine_other s f em]
      exact ⟨⟨h2.clock.trans (by simp), fun k => h2.wf (k.onLine (by rw [← hc]; exact .inl ⟨rfl, by simp⟩)),
        fun _ hm => by rw [h2.mode, onLine_geo, h.1] at hm; cases hm⟩, fun m => (h2.line m).level.trans (hl m)⟩
  · exact .refl s

theorem row_broadcastSent (l : Line) (s : State) : Row s (s.onLine l LineCtl.broadcastSent) := by
  have hc : ∀ c : LineCtl, c.broadcastSent = c ∨ c.broadcastSent = c.ended .free := fun c => by
    unfold LineCtl.broadcastSent
    split
    · split
      · exact .inr rfl
      · exact .inl rfl
    · exact .inl rfl
  rcases hc (s.line l) with h | h
  · exact .of_line (by rw [h]; exact id) (by rw [h]; exact id) (by rw [h])
  · exact .of_line (by rw [h]; exact fun _ => .inr ⟨.inl rfl, rfl⟩) (by rw [h]; exact fun k => k.ended _) (by rw [h]; rfl)

theorem row_quietEnd (n : Nat) (l : Line) (s : State) : Row s (s.onLine l (LineCtl.quietEnd n)) := by
  by_cases h : (s.line l).engine = .quiet ∧ gapLimit ≤ n
  · have e : (s.line l).quietEnd n = { s.line l with engine := .free } := if_pos h
    refine .of_line ?_ (by rw [e]; exact id) (by rw [e])
    rw [e]
    rintro (⟨hs, _⟩ | ⟨_, hf⟩)
    · rw [h.1] at hs; cases hs
    · exact .inr ⟨.inl rfl, hf⟩
  · have e : (s.line l).quietEnd n = s.line l := if_neg h
    exact .of_line (by rw [e]; exact id) (by rw [e]; exact id) (by rw [e])

/-- A change of the controller that reaches a gantry which does nothing to a still one without nodes. -/
theorem onLineOf_still {s : State} (h : s.SetupStill) (hm : s.geo.mode = .setup) (g : Nat) (f : LineCtl → LineCtl)
    (hf : ∀ c : LineCtl, c.still → f c = c) : s.onLineOf g f = s := by
  unfold State.onLineOf
  split
  · rfl
  · rw [State.onLine, hf _ (h.line hm _), setLine_line]

theorem nodeState_still {s : State} (h : s.SetupStill) (hm : s.geo.mode = .setup) (g : Nat) : s.nodeState g = none := by
  obtain ⟨hn, _⟩ := h hm
  simp [State.nodeState, hn]

theorem row_pollTrace (g : Nat) (s : State) : Row s (s.pollTrace g) :=
  .of_inner (inner_pollTrace g s) fun hm h => onLineOf_still h hm g _ fun c _ =>
    if_neg (by simp [State.tracePollDue, nodeState_still h hm])

theorem row_pollState (g : Nat) (s : State) : Row s (s.pollState g) :=
  .of_inner (inner_pollState g s) fun hm h => onLineOf_still h hm g _ fun c _ =>
    if_neg (by simp [State.routineStateDue, nodeState_still h hm])

theorem row_confirmDue (g : Nat) (s : State) : Row s (s.onLineOf g (LineCtl.confirmDue g)) :=
  .of_inner (inner_onLineOf _ _ _ (kept_confirmDue g)) fun hm h => onLineOf_still h hm g _ fun c hc => by
    obtain ⟨_, hh, _⟩ := hc
    exact if_neg (by simp [hh])

theorem row_repeatLumen (l : Line) (s : State) : Row s (s.onLine l LineCtl.repeatLumen) :=
  .of_inner (inner_onLine _ _ _ kept_repeatLumen) fun hm h => by
    obtain ⟨_, _, _, ht, _⟩ := h.line hm l
    rw [State.onLine, LineCtl.repeatLumen, ht, setLine_line]

/-! ### Rows of the nodes, the stations, the incidents and the plan (chapters 4 to 9) -/

theorem row_offlineRetry (g : Nat) (s : State) : Row s (if s.retryDue g then s.offlineRetry g else s) :=
  .of_inner (.ite (inner_offlineRetry g s) (.refl s)) fun hm h => by
    obtain ⟨hn, _⟩ := h hm
    simp [State.retryDue, hn]

theorem row_intervalClose (s : State) : Row s (if s.intervalDue then s.closeInterval else s) :=
  .of_inner (.ite (inner_closeInterval s) (.refl s)) fun hm h => by
    obtain ⟨_, _, _, hx, _⟩ := h hm
    simp [State.intervalDue, hx]

theorem row_expireIncident (n : Nat) (s : State) : Row s (s.expireIncident n) :=
  .of_inner (inner_expireIncident n s) fun hm h => by
    obtain ⟨_, _, _, _, hi, _⟩ := h hm
    simp [State.expireIncident, hi]

theorem row_passComplete (s : State) :
    Row s (match s.plan.running with | none => s | some n => s.completePass n) := by
  split
  · exact .refl s
  · rename_i n hn
    refine .of_inner (inner_completePass n s) fun hm h => ?_
    obtain ⟨_, _, _, _, _, _, hp, _⟩ := h hm
    rw [hp] at hn
    cases hn

theorem row_gateExpired (g : Nat) (s : State) : Row s (if s.gateDue g then s.expireGate g else s) :=
  .of_inner (.ite (inner_expireGate g s) (.refl s)) fun hm h => by
    obtain ⟨_, hr, _⟩ := h hm
    simp [State.gateDue, hr]

end Sys2Proof.Machine
end

section
/-! What the requests keep (chapters 1, 4 to 10): the row of a request keeps what its block's answer keeps. -/

namespace Sys2Proof.Machine

/-! ### The taking of a request -/

theorem row_placeReply (s : State) (f : Frame) (r : Result) (d : Detail) : Row s (s.placeReply f r d) :=
  .of_link s _ id id

/-- The frame that is taken leaves the queue, and its reply goes to the reply slot: nothing else of a row is the link
unit's. -/
theorem takeRequest_steps {s t : State} {fits : Byte → Bool} {h : State → List Byte → Answer}
    (e : takeRequest fits h s = .next t) :
    t = s ∨ ∃ u p, Row s u ∧ Row (h u p).state t := by
  obtain rfl | ⟨f, rest, ⟨_, _, _, hq, _⟩, _, rfl⟩ := takeRequest_cases e
  · exact .inl rfl
  · exact .inr ⟨{ s with link := { s.link with rxQueue := rest } }, f.payload,
      .of_link s _ (fun k => by rw [hq] at k; exact Nat.le_of_succ_le k) id, row_placeReply ..⟩

theorem row_takeRequest {s t : State} {fits : Byte → Bool} {h : State → List Byte → Answer}
    (hh : ∀ u p, Row u (h u p).state) (e : takeRequest fits h s = .next t) : Row s t := by
  obtain rfl | ⟨u, p, h1, h2⟩ := takeRequest_steps e
  · exact .refl t
  · exact (h1.trans (hh u p)).trans h2

theorem kept_takeRequest {s t : State} {fits : Byte → Bool} {h : State → List Byte → Answer}
    (hh : ∀ u p, Kept u (h u p).state) (e : takeRequest fits h s = .next t) : Kept s t := by
  obtain rfl | ⟨u, p, h1, h2⟩ := takeRequest_steps e
  · exact (Row.refl t).toKept
  · exact (h1.toKept.trans (hh u p)).trans h2.toKept

/-- The mode that is not SETUP is RUN (R7). -/
theorem run_of_not_setup {m : Mode} (h : m ≠ .setup) : m = .run := by
  cases m with
  | setup => exact absurd rfl h
  | run => rfl

/-- In RUN nothing is asked of the empty blocks of SETUP. -/
theorem Kept.of_run {s t : State} (hm : t.geo.mode = .run) (hc : t.clock = s.clock) (hw : s.Wf → t.Wf) : Kept s t :=
  ⟨hc, hw, fun _ k => by rw [hm] at k; cases k⟩

/-! ### Requests of RUN -/

theorem row_raiseIncident (s : State) (p : List Byte) : Row s (handleRaiseIncident s p).state :=
  .of_inner (inner_raiseIncident s p) fun hm _ => by simp [handleRaiseIncident, hm, refuse]

theorem row_amendIncident (s : State) (p : List Byte) : Row s (handleAmendIncident s p).state :=
  .of_inner (inner_amendIncident s p) fun hm _ => by simp [handleAmendIncident, hm, refuse]

theorem row_clearIncident (s : State) (p : List Byte) : Row s (handleClearIncident s p).state :=
  .of_inner (inner_clearIncident s p) fun hm _ => by simp [handleClearIncident, hm, refuse]

theorem row_confirmIncident (s : State) (p : List Byte) : Row s (handleConfirmIncident s p).state :=
  .of_inner (inner_confirmIncident s p) fun hm _ => by simp [handleConfirmIncident, hm, refuse]

theorem row_gantryService (s : State) (p : List Byte) : Row s (handleGantryService s p).state :=
  .of_inner (inner_gantryService s p) fun hm _ => by simp [handleGantryService, hm, refuse]

theorem row_stationReset (s : State) (p : List Byte) : Row s (handleStationReset s p).state :=
  .of_inner (inner_stationReset s p) fun hm _ => by simp [handleStationReset, hm, refuse]

theorem row_readNode (s : State) (p : List Byte) : Row s (handleReadNode s p).state :=
  .of_inner (inner_readNode s p) fun hm _ => by simp [handleReadNode, hm, refuse]

/-- A change of the host demand table in RUN, with its trigger (R131 to R133). -/
theorem row_putDemands {s : State} {d : Table Demand} (hm : s.geo.mode ≠ .setup)
    (hd : Table.slotted 48 s.plan.demands → Table.slotted 48 d) :
    Row s (State.trigger { s with plan := { s.plan with demands := d } }) := by
  have h2 := inner_trigger { s with plan := { s.plan with demands := d } }
  exact ⟨.of_run (h2.mode.trans (run_of_not_setup hm)) h2.clock fun h => h2.wf
    ⟨h.rxQueue, h.notices, h.incidents, h.supervisor, hd h.demands, h.banks, h.lineA, h.lineB, h.tables⟩,
    fun l => (h2.line l).level.trans (by cases l <;> rfl)⟩

/-- A slot below the limit may take a record. -/
theorem slotted_put {α : Type} {cap n : Nat} {t : Table α} (h : t.slotted cap) (hn : n < cap) (v : α) :
    Table.slotted cap (t.put n v) :=
  ⟨rising_put h.1 n v, fun m hm => by
    rcases keys_put_mem hm with rfl | hm
    · exact hn
    · exact h.2 m hm⟩

theorem slotted_del {α : Type} {cap : Nat} {t : Table α} (h : t.slotted cap) (n : Nat) : Table.slotted cap (t.del n) :=
  ⟨rising_del h.1 n, fun m hm => h.2 m (keys_del_mem hm)⟩

/-- A demand whose values have passed is refused or takes a free slot (R132). -/
theorem placeChecked_state (s : State) (d : Demand) (v : Option Nat) : (placeChecked s d v).state = s ∨
    ∃ n, n < 48 ∧ (placeChecked s d v).state =
      State.trigger { s with plan := { s.plan with demands := s.plan.demands.put n d } } := by
  cases hg : s.geo.gantries.look d.gantry with
  | none => exact .inl (by simp [placeChecked, hg, refuse])
  | some r =>
    cases hl : s.plan.demands.lowestFree demandSlots with
    | none =>
      simp only [placeChecked, hg, hl]
      split_ifs <;> exact .inl rfl
    | some n =>
      simp only [placeChecked, hg, hl]
      split_ifs
      · exact .inr ⟨n, (lowestFree_eq_some.1 hl).1, by cases v <;> rfl⟩
      · exact .inl rfl

theorem row_placeChecked {s : State} (hm : s.geo.mode ≠ .setup) (d : Demand) (v : Option Nat) :
    Row s (placeChecked s d v).state := by
  obtain e | ⟨n, hn, e⟩ := placeChecked_state s d v <;> rw [e]
  · exact .refl s
  · exact row_putDemands hm fun h => slotted_put h hn d

theorem row_placeDemand (s : State) (p : List Byte) : Row s (handlePlaceDemand s p).state := by
  unfold handlePlaceDemand
  split
  · exact .refl s
  · rename_i hm
    split
    · exact .refl s
    · exact .refl s
    · split <;> exact row_placeChecked hm _ _

theorem row_withdrawDemand (s : State) (p : List Byte) : Row s (handleWithdrawDemand s p).state := by
  unfold handleWithdrawDemand
  split
  · exact .refl s
  · rename_i hm
    split
    · split
      · exact .refl s
      · split
        · exact .refl s
        · exact row_putDemands hm fun h => slotted_del h _
    · exact .refl s

/-- SHOULDER changes the state of one section in RUN, or nothing (R129). -/
theorem handleShoulder_state (s : State) (p : List Byte) : (handleShoulder s p).state = s ∨
    s.geo.mode ≠ .setup ∧ ∃ n w, (handleShoulder s p).state = State.trigger { s with sections := s.sections.put n w } := by
  unfold handleShoulder
  split
  · exact .inl rfl
  · rename_i hm
    simp only
    repeat' split
    all_goals first
      | exact .inl rfl
      | exact .inr ⟨hm, _, _, rfl⟩

theorem row_shoulder (s : State) (p : List Byte) : Row s (handleShoulder s p).state := by
  obtain e | ⟨hm, n, w, e⟩ := handleShoulder_state s p <;> rw [e]
  · exact .refl s
  · have h2 := inner_trigger { s with sections := s.sections.put n w }
    exact ⟨.of_run (h2.mode.trans (run_of_not_setup hm)) h2.clock fun h => h2.wf
      ⟨h.rxQueue, h.notices, h.incidents, h.supervisor, h.demands, h.banks, h.lineA, h.lineB, by
        obtain ⟨a, b, c, d, e, f, g, i⟩ := h.tables
        exact ⟨a, b, c, d, e, f, rising_put g _ _, i⟩⟩,
      fun l => (h2.line l).level.trans (by cases l <;> rfl)⟩

/-- A new luminance level keeps engine and telegram in flight (R48). -/
theorem setLevel_wf {c : LineCtl} (n : Nat) (h : c.wf) : (c.setLevel n).wf :=
  (kept_queueLumen n { c with level := n }).wf h

theorem kept_luminance (s : State) (p : List Byte) : Kept s (handleLuminance s p).state := by
  unfold handleLuminance
  split
  · exact (Row.refl s).toKept
  · rename_i hm
    split
    · split
      · exact (Row.refl s).toKept
      · exact .of_run (by simpa [accept] using run_of_not_setup hm) (by simp [accept]) fun h =>
          State.Wf.onLine (l := .b) (h.onLine (l := .a) (setLevel_wf _ h.lineA)) (setLevel_wf _ h.lineB)
    · exact (Row.refl s).toKept

/-! ### Requests of both modes -/

theorem row_readFaults (s : State) (p : List Byte) : Row s (handleReadFaults s p).state := by
  unfold handleReadFaults
  split
  · split
    · exact .refl s
    · rename_i id _
      refine ⟨⟨rfl, fun h => ⟨h.rxQueue, h.notices, h.incidents, h.supervisor, h.demands, fun m => ?_, h.lineA, h.lineB,
        h.tables⟩, fun h => h.congr rfl⟩, fun l => by cases l <;> rfl⟩
      by_cases e : m = id
      · subst e; simp [Bank.wf, Bank.empty]
      · simpa [e] using h.banks m
  · exact .refl s

theorem row_reset (s : State) (p : List Byte) : Row s (handleReset s p).state := by
  unfold handleReset
  split
  · exact .refl s
  · exact .of_link s _ id id

/-! ### Geometry (R2, R3) -/

/-- What DEFINE_GANTRY reads defines a gantry from 1 to 32 (R1). -/
theorem parseDefineGantry_range {p : List Byte} {g : Nat} {r : GantryRec} (h : parseDefineGantry p = .ok (.define g r)) :
    1 ≤ g ∧ g ≤ 32 := by
  unfold parseDefineGantry badOf at h
  repeat' split at h
  all_goals cases h
  all_goals
    obtain ⟨h1, h2, _⟩ := ‹_ ∧ _ ∧ num2 _ _ ≤ 65000 ∧ _›
    exact ⟨h1, h2⟩

/-- What DEFINE_STATION reads defines a station from 1 to 24 (R3). -/
theorem parseDefineStation_range {p : List Byte} {n : Nat} {r : StationRec}
    (h : parseDefineStation p = .ok (.define n r)) : 1 ≤ n ∧ n ≤ 24 := by
  unfold parseDefineStation badOf at h
  repeat' split at h
  all_goals cases h
  rename_i hr
  exact ⟨hr.1, hr.2.1⟩

/-- A change of the geometry tables that keeps their stored form and the mode. -/
theorem Row.of_geo (s : State) (x : Geometry) (hm : x.mode = s.geo.mode) (hx : x.waiting = s.geo.waiting)
    (ht : s.tablesFit → State.tablesFit { s with geo := x }) : Row s { s with geo := x } where
  clock := rfl
  wf := fun h => ⟨h.rxQueue, h.notices, h.incidents, h.supervisor, h.demands, h.banks, h.lineA, h.lineB, ht h.tables⟩
  still := fun h k => by
    obtain ⟨h1, h2, h3, h4, h5, h6, h7, h8, h9⟩ := h (hm ▸ k)
    exact ⟨h1, h2, h3, h4, h5, h6, h7, hx.trans h8, h9⟩
  level := fun l => by cases l <;> rfl

theorem row_defineGantry (s : State) (p : List Byte) : Row s (handleDefineGantry s p).state := by
  unfold handleDefineGantry
  split
  · exact .refl s
  · split
    · exact .refl s
    · exact .refl s
    · split
      · exact .refl s
      · refine .of_geo s _ rfl rfl ?_
        rintro ⟨a, b, c, d, e, f, g, i, j, k⟩
        exact ⟨rising_del a _, b, c, d, e, f, g, fun n hn => i n (keys_del_mem hn), j, k⟩
    · rename_i n r hp
      refine .of_geo s _ rfl rfl ?_
      rintro ⟨a, b, c, d, e, f, g, i, j, k⟩
      refine ⟨rising_put a _ _, b, c, d, e, f, g, fun m hm => ?_, j, k⟩
      rcases keys_put_mem hm with rfl | hm
      · exact parseDefineGantry_range hp
      · exact i m hm

theorem row_defineStation (s : State) (p : List Byte) : Row s (handleDefineStation s p).state := by
  unfold handleDefineStation
  split
  · exact .refl s
  · split
    · exact .refl s
    · exact .refl s
    · split
      · exact .refl s
      · refine .of_geo s _ rfl rfl ?_
        rintro ⟨a, b, c, d, e, f, g, i, j, k⟩
        exact ⟨a, rising_del b _, c, d, e, f, g, i, fun n hn => j n (keys_del_mem hn), k⟩
    · rename_i n r hp
      refine .of_geo s _ rfl rfl ?_
      rintro ⟨a, b, c, d, e, f, g, i, j, k⟩
      refine ⟨a, rising_put b _ _, c, d, e, f, g, i, fun m hm => ?_, k⟩
      rcases keys_put_mem hm with rfl | hm
      · exact parseDefineStation_range hp
      · exact j m hm

/-! ### Parameters (R8 to R11) -/

theorem inner_planInRun (v : PlanParams) (s : State) : Inner s (s.planInRun v) := by
  unfold State.planInRun
  simp only
  refine Inner.trans (.of_same (t := { s with geo := { s.geo with
      params := { s.geo.params with plan := v }, contin := deriveContin s.geo.gantries v.continuity } })
    rfl rfl rfl rfl rfl rfl rfl rfl (fun l => by cases l <;> exact .refl _) rfl id) ?_
  generalize ({ s with geo := _ } : State) = u
  refine Inner.trans ?_ (inner_trigger _)
  split
  · split
    · exact ((inner_draw u).trans (inner_expireDue _)).trans (inner_evalGates ..)
    · exact ((inner_draw u).trans (inner_evalGates ..)).trans (inner_expireDue _)
  · exact inner_evalGates ..

theorem row_storeGroup (v : GroupValue) (s : State) : Row s (s.storeGroup v) := by
  have hw (hm : s.geo.mode = .run) (w : Waiting) : Row s { s with geo := { s.geo with waiting := w } } :=
    ⟨.of_run hm rfl fun h => ⟨h.rxQueue, h.notices, h.incidents, h.supervisor, h.demands, h.banks, h.lineA, h.lineB,
      h.tables⟩, fun l => by cases l <;> rfl⟩
  cases hm : s.geo.mode with
  | setup =>
    have e : s.storeGroup v = { s with geo := { s.geo with params := s.geo.params.store v } } := by
      unfold State.storeGroup; rw [hm]
    rw [e]
    exact .of_geo s _ rfl rfl id
  | run =>
    cases v <;> unfold State.storeGroup <;> rw [hm]
    case congestion => exact hw hm _
    case queue => exact hw hm _
    case wrongway => exact hw hm _
    case plan v => exact .of_run (inner_planInRun v s) hm
    all_goals exact .refl s

theorem row_setParameters (s : State) (p : List Byte) : Row s (handleSetParameters s p).state := by
  unfold handleSetParameters
  repeat' split
  all_goals first
    | exact .refl s
    | exact row_storeGroup ..

/-! ### START and STOP (R12 to R14) -/

/-- START's runtime blocks have the stored form (R13). -/
theorem begun_wf {s : State} (h : s.Wf) : s.begun.Wf where
  rxQueue := h.rxQueue
  notices := h.notices
  incidents := ⟨rfl, by simp [State.begun, Table.keys]⟩
  supervisor := by simp [State.supervisorCount, State.begun]
  demands := ⟨rfl, by simp [State.begun, Table.keys]⟩
  banks := h.banks
  lineA := (LineKept.of_eq rfl rfl rfl).wf h.lineA
  lineB := (LineKept.of_eq rfl rfl rfl).wf h.lineB
  tables := by
    obtain ⟨a, b, _, _, _, _, _, i, j, _⟩ := h.tables
    exact ⟨a, b, by simpa [State.begun] using a, by simpa [State.begun] using b, by simpa [State.begun] using b,
      by simpa [State.begun] using a, rfl, i, j, by simp [State.begun]⟩

theorem inner_startRun (s : State) : Inner s.begun s.startRun := (inner_describeAll ..).trans (inner_trigger _)

theorem row_startRun (s : State) : Row s s.startRun :=
  have h := inner_startRun s
  ⟨.of_run h.mode h.clock fun k => h.wf (begun_wf k), fun l => (h.line l).level.trans (by cases l <;> rfl)⟩

theorem row_start (s : State) (p : List Byte) : Row s (handleStart s p).state := by
  unfold handleStart
  repeat' split
  all_goals first
    | exact .refl s
    | exact row_startRun s

/-- STOP leaves a line still, its telegram to be discarded (R14, R54). -/
theorem stopped_still (c : LineCtl) : c.stopped.still :=
  ⟨rfl, rfl, rfl, rfl, fun f h => by
    simp only [LineCtl.stopped, Option.map_eq_some_iff] at h
    obtain ⟨x, _, rfl⟩ := h
    rfl⟩

theorem kept_stopped (c : LineCtl) : LineKept c c.stopped := ⟨rfl, rfl, by simp [LineCtl.stopped]⟩

theorem row_stopRun (s : State) : Row s s.stopRun where
  clock := rfl
  wf := fun h =>
    { rxQueue := h.rxQueue
      notices := h.notices
      incidents := ⟨rfl, by simp [State.stopRun, Table.keys]⟩
      supervisor := by simp [State.supervisorCount, State.stopRun]
      demands := ⟨rfl, by simp [State.stopRun, Table.keys]⟩
      banks := h.banks
      lineA := (kept_stopped _).wf h.lineA
      lineB := (kept_stopped _).wf h.lineB
      tables := by
        obtain ⟨a, b, _, _, _, _, _, i, j, _⟩ := h.tables
        exact ⟨by simpa [State.stopRun] using a, b, rfl, rfl, rfl, rfl, rfl, by simpa [State.stopRun] using i, j,
          by simp [State.stopRun]⟩ }
  still := fun _ _ => ⟨rfl, rfl, rfl, rfl, rfl, rfl, rfl, rfl, stopped_still _, stopped_still _⟩
  level := fun l => by cases l <;> rfl

theorem row_stop (s : State) (p : List Byte) : Row s (handleStop s p).state := by
  unfold handleStop
  repeat' split
  all_goals first
    | exact .refl s
    | exact row_stopRun s

end Sys2Proof.Machine
end

section
/-! The rules of the whole machine: the stored form, the empty SETUP, the clock and the luminance (O5, O6, O7, O10). -/

namespace Sys2Proof.Machine

/-! ### One command -/

/-- An event's row keeps what its act keeps. -/
theorem row_whenRunning {s t : State} {f : State → State} (e : whenRunning s f = .next t) (hf : Row s (f s)) : Row s t := by
  obtain rfl | ⟨_, rfl⟩ := whenRunning_cases e
  · exact .refl t
  · exact hf

theorem row_showAccepted (l : Line) (x : Transcript) {s t : State} (e : execShowAccepted l x s = .next t) : Row s t := by
  refine row_whenRunning e ?_
  split
  · exact row_outcome (ending_flight ‹_›) (.inl rfl) (inner_handAccepted _)
  · exact .refl s

theorem row_stateReply (l : Line) (x : Transcript) {s t : State} (e : execStateReply l x s = .next t) : Row s t := by
  refine row_whenRunning e ?_
  split
  · exact row_outcome (ending_flight ‹_›) (.inl rfl) (inner_handState l _ _)
  · exact .refl s

theorem row_traceReply (l : Line) (x : Transcript) {s t : State} (e : execTraceReply l x s = .next t) : Row s t := by
  refine row_whenRunning e ?_
  split
  · exact row_outcome (ending_flight ‹_›) (.inl rfl) (inner_handTrace l _ _)
  · exact .refl s

theorem row_describeReply (l : Line) (x : Transcript) {s t : State} (e : execDescribeReply l x s = .next t) : Row s t := by
  refine row_whenRunning e ?_
  split
  · exact row_outcome (ending_flight ‹_›) (.inl rfl) fun u => (inner_nodeSucceeded ..).trans (inner_described ..)
  · exact .refl s

theorem row_capsReply (l : Line) (x : Transcript) {s t : State} (e : execCapsReply l x s = .next t) : Row s t := by
  refine row_whenRunning e ?_
  split
  · exact row_outcome (ending_flight ‹_›) (.inl rfl) fun u => (inner_nodeSucceeded ..).trans (inner_capsTaken ..)
  · exact .refl s

theorem row_execPassComplete {s t : State} (e : execPassComplete s = .next t) : Row s t :=
  row_whenRunning e (row_passComplete s)

/-- What every command but a reset and LUMINANCE keeps. -/
theorem row_exec {c : Instr} {s t : State} (hc : isReset c = false) (hl : c ≠ .luminance) (e : exec c s = .next t) :
    Row s t := by
  cases c with
  | powerOn _ _ => cases hc
  | resetN _ _ _ => cases hc
  | resetReplySent _ _ => cases hc
  | luminance => exact absurd rfl hl
  | supRxCharacter c => exact row_whenRunning e (row_receiveCharacter c s)
  | frameTimeout n => exact row_whenRunning e (row_frameTimeout n s)
  | sendReply => exact row_whenRunning e (row_sendReply s)
  | sendNotice => exact row_whenRunning e (row_sendNotice s)
  | frameSent => exact row_whenRunning e (row_frameSent s)
  | unknownType => exact row_takeRequest (fun u _ => .refl u) e
  | identify => exact row_takeRequest (fun u p => by rw [identify_state]; exact .refl u) e
  | readGantry => exact row_takeRequest (fun u p => by rw [readGantry_state]; exact .refl u) e
  | readStation => exact row_takeRequest (fun u p => by rw [readStation_state]; exact .refl u) e
  | readIncidents => exact row_takeRequest (fun u p => by rw [readIncidents_state]; exact .refl u) e
  | defineGantry => exact row_takeRequest row_defineGantry e
  | defineStation => exact row_takeRequest row_defineStation e
  | setParameters => exact row_takeRequest row_setParameters e
  | start => exact row_takeRequest row_start e
  | stop => exact row_takeRequest row_stop e
  | reset => exact row_takeRequest row_reset e
  | raiseIncident => exact row_takeRequest row_raiseIncident e
  | amendIncident => exact row_takeRequest row_amendIncident e
  | clearIncident => exact row_takeRequest row_clearIncident e
  | confirmIncident => exact row_takeRequest row_confirmIncident e
  | placeDemand => exact row_takeRequest row_placeDemand e
  | withdrawDemand => exact row_takeRequest row_withdrawDemand e
  | shoulder => exact row_takeRequest row_shoulder e
  | gantryService => exact row_takeRequest row_gantryService e
  | stationReset => exact row_takeRequest row_stationReset e
  | readNode => exact row_takeRequest row_readNode e
  | readFaults => exact row_takeRequest row_readFaults e
  | telegramStart l => exact row_whenRunning e (row_startTelegram l s)
  | showAccepted l x => exact row_showAccepted l x e
  | stateReply l x => exact row_stateReply l x e
  | traceReply l x => exact row_traceReply l x e
  | describeReply l x => exact row_describeReply l x e
  | capsReply l x => exact row_capsReply l x e
  | sent l => exact row_whenRunning (f := fun s => s.onLine l LineCtl.broadcastSent) e (row_broadcastSent l s)
  | noNode l x => exact row_whenRunning e (row_failureRow _ l x s)
  | nackLimit l x => exact row_whenRunning e (row_failureRow _ l x s)
  | corrupt l x => exact row_whenRunning e (row_failureRow _ l x s)
  | replyTimeout l x => exact row_whenRunning e (row_failureRow _ l x s)
  | replyBroken l x => exact row_whenRunning e (row_failureRow _ l x s)
  | lineQuietEnd l n => exact row_whenRunning (f := fun s => s.onLine l (LineCtl.quietEnd n)) e (row_quietEnd n l s)
  | tracePollDue g => exact row_whenRunning e (row_pollTrace g s)
  | routineStateDue g => exact row_whenRunning e (row_pollState g s)
  | confirmDue g => exact row_whenRunning (f := fun s => s.onLineOf g (LineCtl.confirmDue g)) e (row_confirmDue g s)
  | lumenRepeat l => exact row_whenRunning (f := fun s => s.onLine l LineCtl.repeatLumen) e (row_repeatLumen l s)
  | offlineRetry g => exact row_whenRunning e (row_offlineRetry g s)
  | intervalClose => exact row_whenRunning e (row_intervalClose s)
  | incidentExpiry n => exact row_whenRunning e (row_expireIncident n s)
  | passComplete => exact row_execPassComplete e
  | gateExpired g => exact row_whenRunning e (row_gateExpired g s)

theorem kept_exec {c : Instr} {s t : State} (hc : isReset c = false) (e : exec c s = .next t) : Kept s t := by
  by_cases hl : c = .luminance
  · subst hl; exact kept_takeRequest kept_luminance e
  · exact (row_exec hc hl e).toKept

/-- A reset gives the state of R15, or has no effect. -/
theorem exec_reset {c : Instr} {s t : State} (hc : isReset c = true) (e : exec c s = .next t) :
    t = s ∨ ∃ rate high, t = s.resetWith rate high := by
  cases c with
  | powerOn r1 r0 => cases e; exact .inr ⟨_, _, rfl⟩
  | resetN high r1 r0 =>
    cases e
    unfold State.resetPin
    split
    · split
      · exact .inl rfl
      · exact .inr ⟨_, _, rfl⟩
    · exact .inr ⟨_, _, rfl⟩
  | resetReplySent r1 r0 =>
    obtain rfl | ⟨_, rfl⟩ := whenRunning_cases e
    · exact .inl rfl
    · split
      · exact .inr ⟨_, _, rfl⟩
      · exact .inl rfl
  | _ => cases hc

/-! ### The state of R15 -/

theorem reset_wf : State.reset.Wf where
  rxQueue := by decide
  notices := by decide
  incidents := ⟨rfl, by decide⟩
  supervisor := by decide
  demands := ⟨rfl, by decide⟩
  banks := fun id => by cases id <;> simp [State.reset, Banks.look, Bank.wf, Bank.empty]
  lineA := .inr ⟨.inl rfl, rfl⟩
  lineB := .inr ⟨.inl rfl, rfl⟩
  tables := ⟨rfl, rfl, rfl, rfl, rfl, rfl, rfl, by decide, by decide, by simp [State.reset]⟩

theorem idle_still : LineCtl.idle.still := ⟨rfl, rfl, rfl, rfl, by simp [LineCtl.idle]⟩

theorem reset_still : State.reset.SetupStill :=
  fun _ => ⟨rfl, rfl, rfl, rfl, rfl, rfl, rfl, rfl, idle_still, idle_still⟩

theorem resetWith_wf (s : State) (rate : BitVec 2) (high : Bool) : (s.resetWith rate high).Wf :=
  ⟨reset_wf.rxQueue, reset_wf.notices, reset_wf.incidents, reset_wf.supervisor, reset_wf.demands, reset_wf.banks,
    reset_wf.lineA, reset_wf.lineB, reset_wf.tables⟩

theorem resetWith_still (s : State) (rate : BitVec 2) (high : Bool) : (s.resetWith rate high).SetupStill :=
  reset_still

/-! ### One millisecond -/

/-- Counting the records that pass a test of what their timers leave alone. -/
theorem supervisorCount_tick (t : Table Incident) :
    ((t.mapValues Incident.tick).filter fun kv => kv.2.origin == .supervisor).length =
      (t.filter fun kv => kv.2.origin == .supervisor).length := by
  rw [Table.mapValues, List.filter_map, List.length_map]
  rfl

theorem tick_kept (p : LineParams) (c : LineCtl) : LineKept c (c.tick p) := .of_eq rfl rfl rfl

/-- The timers of an empty line stand still. -/
theorem LineCtl.still.tick {c : LineCtl} (h : c.still) (p : LineParams) : (c.tick p).still := by
  obtain ⟨hq, hh, hp, ht, hf⟩ := h
  exact ⟨hq, by simp [LineCtl.tick, hh, Table.mapValues], by simp [LineCtl.tick, hp, Table.mapValues],
    by simp [LineCtl.tick, ht], hf⟩

theorem tick_wf {s : State} (h : s.Wf) : s.tick.Wf := by
  unfold State.tick
  split
  · obtain ⟨a, b, c, d, e, f, g, i⟩ := h.tables
    exact ⟨h.rxQueue, h.notices, ⟨by simpa using h.incidents.1, by simpa using h.incidents.2⟩,
      (supervisorCount_tick _).trans_le h.supervisor, h.demands, h.banks, (tick_kept ..).wf h.lineA,
      (tick_kept ..).wf h.lineB, ⟨a, b, by simpa using c, d, e, by simpa using f, g, i⟩⟩
  · exact h

theorem tick_still {s : State} (h : s.SetupStill) : s.tick.SetupStill := by
  unfold State.tick
  split
  · intro hm
    obtain ⟨h1, h2, h3, h4, h5, h6, h7, h8, ha, hb⟩ := h hm
    exact ⟨by simp [h1, Table.mapValues], by simp [h2, Table.mapValues], h3, by simp [h4, Measure.tick],
      by simp [h5, Table.mapValues], h6, h7, h8, ha.tick _, hb.tick _⟩
  · exact h

/-- What a step can do: one millisecond, a reset, or a command on the state with the queue's rest. -/
theorem step_cases {s t : State} (e : step s = .next t) :
    t = s.tick ∨ ∃ rest, (t = { s with pending := rest } ∨ ∃ rate high, t = State.resetWith rate high { s with pending := rest }) ∨
      Kept { s with pending := rest } t := by
  unfold step at e
  split at e
  · cases e; exact .inl rfl
  · rename_i c rest _
    refine .inr ⟨rest, ?_⟩
    cases hc : isReset c with
    | true => exact .inl (exec_reset hc e)
    | false => exact .inr (kept_exec hc e)

/-! ### The obligations -/

/-- Settles O5, from what a step can do and what each kind of row keeps. -/
theorem stepKeepsStoredForm : Obligations.StepKeepsStoredForm := by
  intro s t h e
  have hp (rest : List Instr) : State.Wf { s with pending := rest } :=
    ⟨h.rxQueue, h.notices, h.incidents, h.supervisor, h.demands, h.banks, h.lineA, h.lineB, h.tables⟩
  obtain rfl | ⟨rest, (rfl | ⟨rate, high, rfl⟩) | k⟩ := step_cases e
  · exact tick_wf h
  · exact hp rest
  · exact resetWith_wf ..
  · exact k.wf (hp rest)

/-- Settles O6, from what a step can do: a row in an empty SETUP leaves the blocks empty, and STOP and the resets, which
enter SETUP, empty them. -/
theorem stepKeepsSetupEmpty : Obligations.StepKeepsSetupEmpty := by
  intro s t h e
  obtain rfl | ⟨rest, (rfl | ⟨rate, high, rfl⟩) | k⟩ := step_cases e
  · exact tick_still h
  · exact h.congr rfl
  · exact resetWith_still _ _ _
  · exact k.still (h.congr rfl)

/-- Settles O10: the rows other than the resets keep the clock, and those other than LUMINANCE the levels. -/
theorem clockAndLuminanceAreKept : Obligations.ClockAndLuminanceAreKept := fun _ _ _ hc e =>
  ⟨(kept_exec hc e).clock, fun hl => (row_exec hc hl e).level⟩

/-- Settles O7. -/
theorem resetStateIsEmpty : Obligations.ResetStateIsEmpty := by
  refine ⟨reset_wf, reset_still, rfl, rfl, rfl, rfl, rfl, rfl, rfl, rfl, rfl, rfl, rfl, ?_, ?_, rfl⟩
  · intro l; cases l <;> exact ⟨rfl, rfl, rfl⟩
  · intro id; cases id <;> rfl

end Sys2Proof.Machine
end

section
/-! Modes, power and reset (O12, O15, O16) and the passing of time (O2). -/

namespace Sys2Proof.Machine

/-! ### Modes (R7) -/

/-- Settles O12: each of these blocks refuses before it looks at the payload. -/
theorem wrongModeIsRefused : Obligations.WrongModeIsRefused := by
  constructor
  · intro c ty s f rest hc ht hm
    simp only [runOnlyRows, List.mem_cons, Prod.mk.injEq, List.not_mem_nil, or_false] at hc
    obtain ⟨rfl, rfl⟩ | ⟨rfl, rfl⟩ | ⟨rfl, rfl⟩ | ⟨rfl, rfl⟩ | ⟨rfl, rfl⟩ | ⟨rfl, rfl⟩ | ⟨rfl, rfl⟩ | ⟨rfl, rfl⟩ |
      ⟨rfl, rfl⟩ | ⟨rfl, rfl⟩ | ⟨rfl, rfl⟩ | ⟨rfl, rfl⟩ | ⟨rfl, rfl⟩ | ⟨rfl, rfl⟩ | ⟨rfl, rfl⟩ := hc
    · exact takeRequest_refused handleStop ht rfl (if_pos hm)
    · exact takeRequest_refused handleRaiseIncident ht rfl (if_pos hm)
    · exact takeRequest_refused handleAmendIncident ht rfl (if_pos hm)
    · exact takeRequest_refused handleClearIncident ht rfl (if_pos hm)
    · exact takeRequest_refused handleConfirmIncident ht rfl (if_pos hm)
    · exact takeRequest_refused handlePlaceDemand ht rfl (if_pos hm)
    · exact takeRequest_refused handleWithdrawDemand ht rfl (if_pos hm)
    · exact takeRequest_refused handleShoulder ht rfl (if_pos hm)
    · exact takeRequest_refused handleGantryService ht rfl (if_pos hm)
    · exact takeRequest_refused handleStationReset ht rfl (if_pos hm)
    · exact takeRequest_refused handleLuminance ht rfl (if_pos hm)
    · exact takeRequest_refused handleReadGantry ht rfl (if_pos hm)
    · exact takeRequest_refused handleReadStation ht rfl (if_pos hm)
    · exact takeRequest_refused handleReadIncidents ht rfl (if_pos hm)
    · exact takeRequest_refused handleReadNode ht rfl (if_pos hm)
  · intro c ty s f rest hc ht hm
    simp only [setupOnlyRows, List.mem_cons, Prod.mk.injEq, List.not_mem_nil, or_false] at hc
    obtain ⟨rfl, rfl⟩ | ⟨rfl, rfl⟩ | ⟨rfl, rfl⟩ := hc
    · exact takeRequest_refused handleDefineGantry ht rfl (if_pos hm)
    · exact takeRequest_refused handleDefineStation ht rfl (if_pos hm)
    · exact takeRequest_refused handleStart ht rfl (if_pos hm)

/-! ### Power and reset (R15, R16) -/

/-- The rate code of the straps as a number (R18). -/
theorem strapRate_eq : ∀ r1 r0 : Bool, strapRate r1 r0 = BitVec.ofNat 2 (2 * r1.toNat + r0.toNat) := by decide

theorem whenRunning_low {s : State} (h : s.resetHigh = false) (f : State → State) : whenRunning s f = .next s := by
  simp [whenRunning, h]

/-- While RESET_N is low no event's row acts, and no request is taken (R15, log 8). -/
theorem exec_low {c : Instr} {s : State} (h : s.resetHigh = false) (hc : isReset c = false) : exec c s = .next s := by
  cases c <;> first
    | cases hc; done
    | exact whenRunning_low h _
    | exact takeRequest_idle _ (.inl h)
    | simp only [exec, execShowAccepted, execStateReply, execTraceReply, execDescribeReply, execCapsReply, execSent,
        execLineQuietEnd, execConfirmDue, execLumenRepeat, execPassComplete, whenRunning_low h]

/-- Settles O15. -/
theorem powerOnAndResetPinReset : Obligations.PowerOnAndResetPinReset := by
  intro r1 r0 s
  rw [← strapRate_eq]
  refine ⟨rfl, rfl, fun h => ?_, fun h => ?_, fun c h hc => exec_low h hc⟩
  · change Host.Outcome.next (s.resetPin true r1 r0) = _
    simp only [State.resetPin, h, if_true, Bool.false_eq_true, if_false]
    rfl
  · change Host.Outcome.next (s.resetPin true r1 r0) = _
    simp only [State.resetPin, h, if_true]

/-- Once a RESET has been taken no request row has an effect (R25). -/
theorem exec_resetting {c : Instr} {ty : Byte} {s : State} (h : s.link.resetting = true)
    (hc : (c, ty) ∈ requestRows ∨ c = .unknownType) : exec c s = .next s := by
  simp only [requestRows, List.mem_cons, Prod.mk.injEq, List.not_mem_nil, or_false] at hc
  cases c <;> first
    | exact takeRequest_idle _ (.inr (.inl h))
    | simp at hc

/-- While a frame is being sent the transmitter takes no other (R28). -/
theorem sendReply_busy {s : State} {x : Sending} (h : s.link.tx = some x) : s.sendReply = s := by
  simp [State.sendReply, h]

theorem sendNotice_busy {s : State} {x : Sending} (h : s.link.tx = some x) : s.sendNotice = s := by
  simp [State.sendNotice, h]

theorem sendNotice_waiting {s : State} {r : Reply} (h : s.link.replySlot = some r) : s.sendNotice = s := by
  unfold State.sendNotice
  split
  · rename_i h' _ _
    rw [h] at h'
    cases h'
  · rfl

/-- An act that changes nothing leaves its row without effect. -/
theorem whenRunning_self {s : State} {f : State → State} (h : f s = s) : whenRunning s f = .next s := by
  unfold whenRunning
  rw [h, ite_self]

theorem sendsReset_of_tx {l : Link} {r : Reply} {bs : List Byte} (h : l.tx = some ⟨.resetReply r, bs⟩) :
    l.sendsReset = true := by
  simp [Link.sendsReset, h]

/-- Settles O16. -/
theorem resetRequestRepliesThenResets : Obligations.ResetRequestRepliesThenResets := by
  refine ⟨?_, ?_, fun s c ty h hc => exec_resetting h hc, fun s r _ h => whenRunning_self (sendNotice_waiting h), ?_, ?_, ?_⟩
  · intro s f rest ht hp
    refine (takeRequest_taken handleReset ht rfl).trans ?_
    rw [hp]
    rfl
  · intro s f rest ht hp
    refine takeRequest_refused handleReset ht rfl ?_
    obtain ⟨b, bs, hb⟩ := List.exists_cons_of_ne_nil hp
    rw [hb]
    rfl
  · intro s r bs c h hc
    simp only [List.mem_cons, List.not_mem_nil, or_false] at hc
    obtain rfl | rfl | rfl := hc
    · exact whenRunning_self (if_pos (sendsReset_of_tx h))
    · exact whenRunning_self (sendNotice_busy h)
    · exact whenRunning_self (sendReply_busy h)
  · intro s r hs hr ht hx
    refine (whenRunning_eq hs _).trans ?_
    simp [State.sendReply, ht, hx, hr]
  · intro r1 r0 s r bs hs ht
    rw [← strapRate_eq]
    refine (whenRunning_eq hs _).trans ?_
    rw [if_pos (sendsReset_of_tx ht)]
    rfl

/-! ### The passing of time (R17) -/

theorem tick_low {s : State} (h : s.resetHigh = false) : s.tick = s := by simp [State.tick, h]

theorem tick_high {s : State} (h : s.resetHigh = true) : s.tick =
    { s with clock := s.clock + 1
             lineA := s.lineA.tick s.geo.params.line
             lineB := s.lineB.tick s.geo.params.line
             nodes := s.nodes.mapValues NodeRec.tick
             measure := s.measure.tick (s.geo.params.measure.interval * 1000)
             incidents := s.incidents.mapValues Incident.tick
             rollout := s.rollout.mapValues (RolloutRec.tick (s.geo.params.plan.gateTime * 1000)) } := by
  simp [State.tick, h]

theorem step_empty {s : State} (h : s.pending = []) : step s = .next s.tick := by simp [step, h]

/-- Settles O2: each table's timers advance record by record. -/
theorem emptyQueuePassesOneMillisecond : Obligations.EmptyQueuePassesOneMillisecond := by
  refine ⟨fun s hp h => by rw [step_empty hp, tick_low h], fun s hp h => ⟨s.tick, step_empty hp, ?_⟩⟩
  rw [tick_high h]
  refine ⟨rfl, rfl, fun l => ?_, fun g => look_mapValues .., fun g => look_mapValues .., fun n => look_mapValues .., rfl⟩
  have hl (c : LineCtl) (p : LineParams) :
      { c.tick p with polls := c.polls, held := c.held, lumenTimer := c.lumenTimer } = c ∧
        (∀ g, (c.tick p).polls.look g = (c.polls.look g).map (Poll.tick p)) ∧
        (∀ g, (c.tick p).held.look g = (c.held.look g).map fun ms => ms - 1) ∧
        (c.tick p).lumenTimer = c.lumenTimer.map (countTo lumenPeriod) :=
    ⟨rfl, fun g => look_mapValues .., fun g => look_mapValues c.held (fun ms => ms - 1) g, rfl⟩
  cases l
  · exact hl s.lineA s.geo.params.line
  · exact hl s.lineB s.geo.params.line

end Sys2Proof.Machine
end

section
/-! The receive framer over a whole frame and over a gap (O18, O19). -/

namespace Sys2Proof.Machine

/-! ### Characters without error (R18, R23) -/

theorem cleanChar_mark (b : Byte) (both : Bool) : charMark (cleanChar b) both = none := by
  simp [charMark, cleanChar, SupChar.parityError, SupChar.framingError]

theorem markAfter_clean (b : Byte) (both : Bool) : markAfter none (cleanChar b) both = none := cleanChar_mark b both

theorem sendsReset_setFramer (s : State) (f : Framer) : (s.setFramer f).link.sendsReset = s.link.sendsReset := rfl

@[simp] theorem setFramer_setFramer (s : State) (f g : Framer) : (s.setFramer f).setFramer g = s.setFramer g := rfl

/-- A character without error goes to the framer, unless the reply to a RESET is being sent (R16). -/
theorem exec_cleanChar {s : State} (h : s.resetHigh = true) (hr : s.link.sendsReset = false) (b : Byte) :
    exec (.supRxCharacter (cleanChar b)) s = .next (s.character (cleanChar b) true) := by
  refine (whenRunning_eq h _).trans ?_
  simp [State.receiveCharacter, hr, cleanChar, SupChar.parityError]

theorem execAll_next {c : Instr} {cs : List Instr} {s t : State} (h : exec c s = .next t) :
    execAll (c :: cs) s = execAll cs t := by
  rw [execAll, h]

/-- The commands that bring these bytes without error. -/
def arrivals (bs : List Byte) : List Instr := bs.map fun b => .supRxCharacter (cleanChar b)

theorem execAll_arrivals {s : State} (h : s.resetHigh = true) (hr : s.link.sendsReset = false) (b : Byte)
    (bs : List Byte) : execAll (arrivals (b :: bs)) s = execAll (arrivals bs) (s.character (cleanChar b) true) :=
  execAll_next (exec_cleanChar h hr b)

/-! ### One character in each framer state (R19, R22, R23) -/

theorem character_sof {s : State} (h : s.link.framer.state = .idle) :
    s.character (cleanChar 0xA5#8) true = s.setFramer ⟨.length, [], none, false⟩ := by
  simp only [State.character, h]
  exact if_pos ⟨rfl, cleanChar_mark ..⟩

theorem character_length (s : State) {b : Byte} (h1 : 2 ≤ b.toNat) (h2 : b.toNat ≤ 250) :
    (s.setFramer ⟨.length, [], none, false⟩).character (cleanChar b) true =
      s.setFramer ⟨.body b.toNat, [b], none, false⟩ := by
  simp only [State.character, setFramer_link_framer, markAfter_clean]
  exact if_neg (by simp only [cleanChar]; omega)

theorem character_body (s : State) (n : Nat) (got : List Byte) (b : Byte) :
    (s.setFramer ⟨.body n, got, none, false⟩).character (cleanChar b) true =
      s.setFramer ⟨if n ≤ 1 then .check 2 else .body (n - 1), got ++ [b], none, false⟩ := by
  simp only [State.character, setFramer_link_framer, markAfter_clean, setFramer_setFramer]
  rfl

theorem character_check2 (s : State) (got : List Byte) (b : Byte) :
    (s.setFramer ⟨.check 2, got, none, false⟩).character (cleanChar b) true =
      s.setFramer ⟨.check 1, got ++ [b], none, false⟩ := by
  simp only [State.character, setFramer_link_framer, markAfter_clean, setFramer_setFramer]
  rfl

theorem character_check1 (s : State) (got : List Byte) (b : Byte) :
    (s.setFramer ⟨.check 1, got, none, false⟩).character (cleanChar b) true =
      (s.setFramer Framer.fresh).completeFrame (got ++ [b]) none := by
  simp only [State.character, setFramer_link_framer, markAfter_clean, setFramer_setFramer]
  rfl

/-- The bytes of a body, as many as LEN has counted, bring the framer to the check. -/
theorem execAll_body {s : State} (h : s.resetHigh = true) (hr : s.link.sendsReset = false) (bs more : List Byte) :
    ∀ (b : Byte) (got : List Byte),
      execAll (arrivals (b :: bs ++ more)) (s.setFramer ⟨.body (b :: bs).length, got, none, false⟩) =
        execAll (arrivals more) (s.setFramer ⟨.check 2, got ++ b :: bs, none, false⟩) := by
  induction bs with
  | nil =>
    intro b got
    rw [List.cons_append, execAll_arrivals (by simpa using h) (by simpa [sendsReset_setFramer] using hr), character_body]
    rfl
  | cons x xs ih =>
    intro b got
    rw [List.cons_append, execAll_arrivals (by simpa using h) (by simpa [sendsReset_setFramer] using hr), character_body,
      if_neg (by simp)]
    have := ih x (got ++ [b])
    rw [List.append_assoc] at this
    exact this

/-! ### A whole frame (R19, R24, R175) -/

/-- A frame whose check agrees joins the receive queue. -/
theorem completeFrame_whole (s : State) (len ty tag : Byte) (payload : List Byte) :
    let body := len :: ty :: tag :: payload
    s.completeFrame (body ++ [highByte (crc16 body)] ++ [lowByte (crc16 body)]) none = s.queueFrame ⟨ty, tag, payload⟩ := by
  intro body
  have hl : (body ++ [highByte (crc16 body)] ++ [lowByte (crc16 body)]).length - 2 = body.length := by simp
  have hb : frameBody (body ++ [highByte (crc16 body)] ++ [lowByte (crc16 body)]) = body := by
    rw [frameBody, hl, List.append_assoc, List.take_left]
  have hc : frameCheck (body ++ [highByte (crc16 body)] ++ [lowByte (crc16 body)]) =
      [highByte (crc16 body), lowByte (crc16 body)] := by
    rw [frameCheck, hl, List.append_assoc, List.drop_left]
    rfl
  simp only [State.completeFrame, hb, hc, if_true]
  rfl

/-- The characters of a whole frame bring exactly that frame to the receive queue. -/
theorem execAll_frame {s : State} (ty tag : Byte) {payload : List Byte} (hp : payload.length ≤ 248)
    (h : s.resetHigh = true) (hr : s.link.sendsReset = false) (hi : s.link.framer.state = .idle) :
    execAll (arrivals (frameBytes ty tag payload)) s =
      .next ((s.setFramer Framer.fresh).queueFrame ⟨ty, tag, payload⟩) := by
  have hn : (BitVec.ofNat 8 (payload.length + 2)).toNat = payload.length + 2 := by
    rw [BitVec.toNat_ofNat]
    omega
  have hset (f : Framer) : (s.setFramer f).resetHigh = true ∧ (s.setFramer f).link.sendsReset = false := ⟨h, hr⟩
  simp only [frameBytes, List.cons_append]
  rw [execAll_arrivals h hr, character_sof hi, execAll_arrivals (hset _).1 (hset _).2,
    character_length s (by omega) (by omega), hn]
  have hb := execAll_body h hr (tag :: payload)
    [highByte (crc16 (BitVec.ofNat 8 (payload.length + 2) :: ty :: tag :: payload)),
      lowByte (crc16 (BitVec.ofNat 8 (payload.length + 2) :: ty :: tag :: payload))] ty
    [BitVec.ofNat 8 (payload.length + 2)]
  rw [List.length_cons, List.length_cons] at hb
  refine hb.trans ?_
  rw [execAll_arrivals (hset _).1 (hset _).2, character_check2, execAll_arrivals (hset _).1 (hset _).2, character_check1]
  exact congrArg Host.Outcome.next (completeFrame_whole _ _ ty tag payload)

/-- Settles O18, by induction over the bytes of the body. -/
theorem wholeFrameIsQueued : Obligations.WholeFrameIsQueued := by
  intro ty tag payload s hp h hr hi
  have e := execAll_frame ty tag hp h hr hi
  refine ⟨fun hq => e.trans ?_, fun hq => e.trans ?_⟩
  · rw [State.queueFrame, if_pos (by simpa [rxCapacity] using hq)]
    rfl
  · rw [State.queueFrame, if_neg (by simpa [rxCapacity] using hq)]
    rfl

/-! ### A gap (R21) -/

/-- Settles O19, by the three conditions of the gap timer. -/
theorem gapDiscardsPartialFrame : Obligations.GapDiscardsPartialFrame := by
  intro gap s h
  refine ⟨fun hr hf hg => ?_, fun _ hg => ?_, fun hf => ?_, fun hr => ⟨?_, fun c => ?_⟩⟩
  · refine (whenRunning_eq h _).trans (congrArg Host.Outcome.next ?_)
    rw [State.frameTimeout, if_neg (by simp [hr]), if_pos ⟨hf, hg⟩]
    rfl
  · refine whenRunning_self ?_
    rw [State.frameTimeout, if_neg (show ¬(s.link.framer.state ≠ .idle ∧ gapBitLimit < gap) from
      fun k => absurd k.2 (Nat.not_lt.2 hg)), ite_self]
  · refine whenRunning_self ?_
    rw [State.frameTimeout, if_neg (show ¬(s.link.framer.state ≠ .idle ∧ gapBitLimit < gap) from fun k => k.1 hf), ite_self]
  · exact whenRunning_self (if_pos hr)
  · exact whenRunning_self (if_pos hr)

end Sys2Proof.Machine
end

section
/-! The geometry requests, STOP and the trigger of a pass (O14, O22, O23, O26). -/

namespace Sys2Proof.Machine

/-- A request whose block answers `a`: the reply is placed on its state. -/
theorem takeRequest_answer {s : State} {ty : Byte} {f : Frame} {rest : List Frame} {fits : Byte → Bool}
    {h : State → List Byte → Answer} {a : Answer} (ht : s.takes ty f rest) (hf : fits ty = true)
    (ha : h { s with link := { s.link with rxQueue := rest } } f.payload = a) :
    takeRequest fits h s = .next (a.state.placeReply f a.result a.detail) := by
  rw [takeRequest_taken h ht hf, ha]

/-! ### What the geometry requests answer (R2, R3) -/

/-- DEFINE_GANTRY with a payload of the wrong length. -/
theorem defineGantry_badLength {s : State} {f : Frame} {rest : List Frame} (ht : s.takes 0x02#8 f rest)
    (hm : s.geo.mode = .setup) (hp : parseDefineGantry f.payload = .badLength) :
    exec .defineGantry s = .next (s.answered f rest .badLength .none) :=
  takeRequest_refused handleDefineGantry ht rfl (by simp [handleDefineGantry, hm, hp, refuse])

theorem defineGantry_badValue {s : State} {f : Frame} {rest : List Frame} (ht : s.takes 0x02#8 f rest)
    (hm : s.geo.mode = .setup) (hp : parseDefineGantry f.payload = .badValue) :
    exec .defineGantry s = .next (s.answered f rest .badValue .none) :=
  takeRequest_refused handleDefineGantry ht rfl (by simp [handleDefineGantry, hm, hp, refuse])

/-- The gantry table after an accepted DEFINE_GANTRY; nothing else changes but the link unit. -/
def State.gantriesSet (s : State) (f : Frame) (rest : List Frame) (t : Table GantryRec) : State :=
  { s.answered f rest .ok .none with geo := { s.geo with gantries := t } }

theorem defineGantry_define {s : State} {f : Frame} {rest : List Frame} {g : Nat} {r : GantryRec}
    (ht : s.takes 0x02#8 f rest) (hm : s.geo.mode = .setup) (hp : parseDefineGantry f.payload = .ok (.define g r)) :
    exec .defineGantry s = .next (s.gantriesSet f rest (s.geo.gantries.put g r)) := by
  have ha : handleDefineGantry { s with link := { s.link with rxQueue := rest } } f.payload =
      accept { s with link := { s.link with rxQueue := rest }, geo := { s.geo with gantries := s.geo.gantries.put g r } } := by
    simp [handleDefineGantry, hm, hp]
  exact takeRequest_answer ht rfl ha

theorem defineGantry_remove {s : State} {f : Frame} {rest : List Frame} {g : Nat} (ht : s.takes 0x02#8 f rest)
    (hm : s.geo.mode = .setup) (hp : parseDefineGantry f.payload = .ok (.remove g))
    (hg : s.geo.gantries.look g ≠ none) :
    exec .defineGantry s = .next (s.gantriesSet f rest (s.geo.gantries.del g)) := by
  have ha : handleDefineGantry { s with link := { s.link with rxQueue := rest } } f.payload =
      accept { s with link := { s.link with rxQueue := rest }, geo := { s.geo with gantries := s.geo.gantries.del g } } := by
    simp [handleDefineGantry, hm, hp, (has_iff ..).2 hg]
  exact takeRequest_answer ht rfl ha

theorem defineGantry_notFound {s : State} {f : Frame} {rest : List Frame} {g : Nat} (ht : s.takes 0x02#8 f rest)
    (hm : s.geo.mode = .setup) (hp : parseDefineGantry f.payload = .ok (.remove g)) (hg : s.geo.gantries.look g = none) :
    exec .defineGantry s = .next (s.answered f rest .notFound .none) :=
  takeRequest_refused handleDefineGantry ht rfl (by
    simp [handleDefineGantry, hm, hp, (has_eq_false ..).2 hg, refuse])

/-- Settles O22: what the payload reads as decides the answer. -/
theorem defineGantryStoresRecord : Obligations.DefineGantryStoresRecord := by
  intro s f rest ht hm
  refine ⟨?_, ?_, ?_, ?_⟩
  · intro g c1 c0 l a ls p sc hp lanesOk good
    have hl : lanesOk ↔ ls.toNat < 64 ∧ LaneSet.gantryLanes (ls.setWidth 6) = true := by rw [gantryLanes_byte]
    constructor
    · rintro ⟨h1, h2, h3, h4, h5, h6, h7, h9, h10⟩
      obtain ⟨h7, h8⟩ := hl.1 h7
      exact ⟨_, defineGantry_define ht hm (hp ▸ parseDefineGantry_good h1 h2 h3 h4 h5 h6 h7 h8 h9 h10),
        look_put_self .., fun k hk => look_put_other _ _ hk, rfl⟩
    · intro hg
      refine defineGantry_badValue ht hm (hp ▸ parseDefineGantry_bad ?_)
      rw [← hl]
      exact hg
  · intro g hp
    constructor
    · intro hg
      exact defineGantry_badValue ht hm (by rw [hp, parseDefineGantry_remove, if_neg (by omega)])
    · intro h1 h2
      have hr : parseDefineGantry f.payload = .ok (.remove g.toNat) := by
        rw [hp, parseDefineGantry_remove, if_pos ⟨h1, h2⟩]
      exact ⟨defineGantry_notFound ht hm hr, fun hg => ⟨_, defineGantry_remove ht hm hr hg, look_del_self ..,
        fun k hk => look_del_other _ hk, rfl⟩⟩
  · intro hp
    exact defineGantry_badLength ht hm (by rw [hp]; rfl)
  · intro rm fields hp
    exact ⟨fun h => defineGantry_badLength ht hm (hp ▸ parseDefineGantry_length h),
      fun h hl => defineGantry_badValue ht hm (hp ▸ parseDefineGantry_choice h hl)⟩

/-- DEFINE_STATION with a payload of the wrong length. -/
theorem defineStation_badLength {s : State} {f : Frame} {rest : List Frame} (ht : s.takes 0x03#8 f rest)
    (hm : s.geo.mode = .setup) (hp : parseDefineStation f.payload = .badLength) :
    exec .defineStation s = .next (s.answered f rest .badLength .none) :=
  takeRequest_refused handleDefineStation ht rfl (by simp [handleDefineStation, hm, hp, refuse])

theorem defineStation_badValue {s : State} {f : Frame} {rest : List Frame} (ht : s.takes 0x03#8 f rest)
    (hm : s.geo.mode = .setup) (hp : parseDefineStation f.payload = .badValue) :
    exec .defineStation s = .next (s.answered f rest .badValue .none) :=
  takeRequest_refused handleDefineStation ht rfl (by simp [handleDefineStation, hm, hp, refuse])

/-- The station table after an accepted DEFINE_STATION; nothing else changes but the link unit. -/
def State.stationsSet (s : State) (f : Frame) (rest : List Frame) (t : Table StationRec) : State :=
  { s.answered f rest .ok .none with geo := { s.geo with stations := t } }

theorem defineStation_define {s : State} {f : Frame} {rest : List Frame} {n : Nat} {r : StationRec}
    (ht : s.takes 0x03#8 f rest) (hm : s.geo.mode = .setup) (hp : parseDefineStation f.payload = .ok (.define n r)) :
    exec .defineStation s = .next (s.stationsSet f rest (s.geo.stations.put n r)) := by
  have ha : handleDefineStation { s with link := { s.link with rxQueue := rest } } f.payload =
      accept { s with link := { s.link with rxQueue := rest }, geo := { s.geo with stations := s.geo.stations.put n r } } := by
    simp [handleDefineStation, hm, hp]
  exact takeRequest_answer ht rfl ha

theorem defineStation_remove {s : State} {f : Frame} {rest : List Frame} {n : Nat} (ht : s.takes 0x03#8 f rest)
    (hm : s.geo.mode = .setup) (hp : parseDefineStation f.payload = .ok (.remove n))
    (hn : s.geo.stations.look n ≠ none) :
    exec .defineStation s = .next (s.stationsSet f rest (s.geo.stations.del n)) := by
  have ha : handleDefineStation { s with link := { s.link with rxQueue := rest } } f.payload =
      accept { s with link := { s.link with rxQueue := rest }, geo := { s.geo with stations := s.geo.stations.del n } } := by
    simp [handleDefineStation, hm, hp, (has_iff ..).2 hn]
  exact takeRequest_answer ht rfl ha

theorem defineStation_notFound {s : State} {f : Frame} {rest : List Frame} {n : Nat} (ht : s.takes 0x03#8 f rest)
    (hm : s.geo.mode = .setup) (hp : parseDefineStation f.payload = .ok (.remove n)) (hn : s.geo.stations.look n = none) :
    exec .defineStation s = .next (s.answered f rest .notFound .none) :=
  takeRequest_refused handleDefineStation ht rfl (by
    simp [handleDefineStation, hm, hp, (has_eq_false ..).2 hn, refuse])

/-- Settles O23: what the payload reads as decides the answer. -/
theorem defineStationStoresRecord : Obligations.DefineStationStoresRecord := by
  refine ⟨?_, ?_, ?_⟩
  · intro s f rest n ht hm hp
    constructor
    · intro hn
      exact defineStation_badValue ht hm (by rw [hp, parseDefineStation_remove, if_neg (by omega)])
    · intro h1 h2
      have hr : parseDefineStation f.payload = .ok (.remove n.toNat) := by
        rw [hp, parseDefineStation_remove, if_pos ⟨h1, h2⟩]
      exact ⟨defineStation_notFound ht hm hr, fun hn => ⟨_, defineStation_remove ht hm hr hn, look_del_self ..,
        fun k hk => look_del_other _ hk, rfl⟩⟩
  · intro s f rest n c1 c0 h ls d1 d0 w1 w0 ht hm hp spacing loop good
    constructor
    · intro hg
      exact ⟨_, defineStation_define ht hm (hp ▸ (parseDefineStation_fields ..).trans (if_pos hg)), look_put_self ..,
        fun k hk => look_put_other _ _ hk, rfl⟩
    · intro hg
      exact defineStation_badValue ht hm (hp ▸ (parseDefineStation_fields ..).trans (if_neg hg))
  · intro s f rest ht hm
    refine ⟨fun hp => defineStation_badLength ht hm (by rw [hp]; rfl), fun rm fields hp => ⟨fun h => ?_, fun h hl => ?_⟩⟩
    · exact defineStation_badLength ht hm (hp ▸ parseDefineStation_length h)
    · exact defineStation_badValue ht hm (hp ▸ parseDefineStation_choice h hl)

/-! ### STOP (R14) -/

/-- Settles O26: STOP refuses a payload, and else its state is `stopRun`. -/
theorem stopEmptiesTheRun : Obligations.StopEmptiesTheRun := by
  intro s f rest ht hm
  constructor
  · intro hp
    obtain ⟨b, bs, hb⟩ := List.exists_cons_of_ne_nil hp
    exact takeRequest_refused handleStop ht rfl (by simp [handleStop, hm, hb, refuse])
  · intro hp
    have ha : handleStop { s with link := { s.link with rxQueue := rest } } f.payload =
        accept (State.stopRun { s with link := { s.link with rxQueue := rest } }) := by
      simp [handleStop, hm, hp]
    exact takeRequest_answer ht rfl ha

/-! ### The trigger of a pass (R134, R135) -/

theorem trigger_setup {s : State} (h : s.geo.mode = .setup) : s.trigger = s := by simp [State.trigger, h]

theorem trigger_idle {s : State} (h : s.geo.mode = .run) (hp : s.plan.running = none) :
    s.trigger = { s with plan := { s.plan with running := some s.snapshot } } := by simp [State.trigger, h, hp]

theorem trigger_running {s : State} {n : Snapshot} (h : s.geo.mode = .run) (hp : s.plan.running = some n) :
    s.trigger = { s with plan := { s.plan with again := true } } := by simp [State.trigger, h, hp]

/-- Settles O14; a sign is serviceable as `serviceable_iff` says (R71). -/
theorem triggerStartsOrDefersPass : Obligations.TriggerStartsOrDefersPass := by
  intro s
  refine ⟨trigger_setup, trigger_idle, fun h n hn => trigger_running h hn, rfl, rfl, rfl, rfl, rfl, rfl, rfl, rfl, rfl,
    rfl, fun st => look_mapValues s.traffic (fun x => StationView.mk x.level x.queueOn) st, ?_, ?_⟩
  · intro g hg
    exact (look_mapValues ..).trans (by rw [hg]; rfl)
  · intro g x hx
    refine ⟨x.views, (look_mapValues ..).trans (by rw [hx]; rfl), by simp [NodeRec.views], fun i y hy => ?_⟩
    exact ⟨⟨y.caps, y.serviceable x.state⟩, by simp [NodeRec.views, hy], rfl, serviceable_iff x.state y⟩

end Sys2Proof.Machine
end

section
/-! SET_PARAMETERS: what a group's fields become, and what storing them does (O24). -/

namespace Sys2Proof.Machine

/-! ### The reply (R9, R27) -/

/-- The places at which the stored values differ decide the reply. -/
theorem clampAnswer_changedAt {sent stored : List Nat} (h : sent.length = stored.length) :
    clampAnswer sent stored (if changedAt 0 sent stored = [] then .ok else .okClamped)
      (if changedAt 0 sent stored = [] then .none else .clamped (changedAt 0 sent stored)) := by
  obtain ⟨h1, h2, h3⟩ := changedAt_spec 0 sent stored h
  by_cases e : changedAt 0 sent stored = []
  · exact .inl ⟨h1.1 e, if_pos e, if_pos e⟩
  · exact .inr ⟨fun k => e (h1.2 k), if_neg e, _, if_neg e, h2, fun i => by simpa using h3 i⟩

/-! ### The taking of a group (R8 to R11) -/

/-- A payload that reads as the values v of group g, which the mode takes, R9 applied: `sent` and `stored` are the values
it compares. -/
structure GroupReads (m : Mode) (p : List Byte) (sent stored : List Nat) (v : GroupValue) : Prop where
  read : ∃ b fields g raw, p = b :: fields ∧ groupOfCode b = some g ∧ g.takenIn m = true ∧
    splitFields g.widths fields = some raw ∧ fitGroup g raw = .ok (v, changedAt 0 sent stored)
  length : sent.length = stored.length

/-- A group that passes the checks of R10 is stored, and the reply names what was clamped. -/
theorem setParameters_stored {s : State} {f : Frame} {rest : List Frame} {sent stored : List Nat} {v : GroupValue}
    (ht : s.takes 0x04#8 f rest) (h : GroupReads s.geo.mode f.payload sent stored v) (hok : v.crossOk = true) :
    ∃ r d, clampAnswer sent stored r d ∧ exec .setParameters s =
      .next ((State.storeGroup v { s with link := { s.link with rxQueue := rest } }).placeReply f r d) := by
  obtain ⟨⟨b, fields, g, raw, hp, hg, hm, hs, hf⟩, hl⟩ := h
  refine ⟨_, _, clampAnswer_changedAt hl, ?_⟩
  have ha : handleSetParameters { s with link := { s.link with rxQueue := rest } } f.payload =
      ⟨State.storeGroup v { s with link := { s.link with rxQueue := rest } },
        if changedAt 0 sent stored = [] then .ok else .okClamped,
        if changedAt 0 sent stored = [] then .none else .clamped (changedAt 0 sent stored)⟩ := by
    simp only [handleSetParameters, hp, hg, hm, hs, hf, hok, Bool.true_eq_false, if_false]
    split <;> rfl
  exact takeRequest_answer ht rfl ha

/-- A group that fails a check of R10 changes nothing. -/
theorem setParameters_crossed {s : State} {f : Frame} {rest : List Frame} {sent stored : List Nat} {v : GroupValue}
    (ht : s.takes 0x04#8 f rest) (h : GroupReads s.geo.mode f.payload sent stored v) (hok : v.crossOk = false) :
    exec .setParameters s = .next (s.answered f rest .badValue .none) := by
  obtain ⟨⟨b, fields, g, raw, hp, hg, hm, hs, hf⟩, hl⟩ := h
  refine takeRequest_refused handleSetParameters ht rfl ?_
  simp only [handleSetParameters, hp, hg, hm, hs, hf, hok, Bool.true_eq_false, if_false, if_true]
  rfl

/-- A group whose storing changes the geometry tables alone, as the statements say it. -/
theorem groupTaken_of {s : State} {f : Frame} {rest : List Frame} {sent stored : List Nat} {v : GroupValue} {ok : Prop}
    {put : Geometry → Geometry} (ht : s.takes 0x04#8 f rest) (h : GroupReads s.geo.mode f.payload sent stored v)
    (hok : v.crossOk = true ↔ ok)
    (hput : ∀ u : State, u.geo.mode = s.geo.mode → u.storeGroup v = { u with geo := put u.geo }) :
    s.groupTaken f rest sent stored ok put := by
  constructor
  · intro k
    obtain ⟨r, d, hc, e⟩ := setParameters_stored ht h (hok.2 k)
    rw [hput { s with link := { s.link with rxQueue := rest } } rfl] at e
    exact ⟨r, d, hc, e⟩
  · intro k
    exact setParameters_crossed ht h (Bool.eq_false_iff.2 fun e => k (hok.1 e))

/-! ### Where a group goes (R11) -/

theorem storeGroup_setup {s : State} (h : s.geo.mode = .setup) (v : GroupValue) :
    s.storeGroup v = { s with geo := { s.geo with params := s.geo.params.store v } } := by
  unfold State.storeGroup
  rw [h]

theorem storeGroup_congestion {s : State} (h : s.geo.mode = .run) (c : CongestionParams) :
    s.storeGroup (.congestion c) =
      { s with geo := { s.geo with waiting := { s.geo.waiting with congestion := some c } } } := by
  unfold State.storeGroup
  rw [h]

theorem storeGroup_queue {s : State} (h : s.geo.mode = .run) (q : QueueParams) :
    s.storeGroup (.queue q) = { s with geo := { s.geo with waiting := { s.geo.waiting with queue := some q } } } := by
  unfold State.storeGroup
  rw [h]

theorem storeGroup_wrongway {s : State} (h : s.geo.mode = .run) (w : WrongwayParams) :
    s.storeGroup (.wrongway w) =
      { s with geo := { s.geo with waiting := { s.geo.waiting with wrongway := some w } } } := by
  unfold State.storeGroup
  rw [h]

theorem storeGroup_plan {s : State} (h : s.geo.mode = .run) (p : PlanParams) :
    s.storeGroup (.plan p) = s.planInRun p := by
  unfold State.storeGroup
  rw [h]

/-! ### The checks of R10 -/

theorem releases_iff (l : LevelParams) : l.releases = true ↔ (l.flowOn ≠ 0 → l.flowOff < l.flowOn) := by
  by_cases h : l.flowOn = 0 <;> simp [LevelParams.releases, LevelParams.present, h]

theorem levelsRise_iff (lo hi : LevelParams) : levelsRise lo hi = true ↔
    (hi.flowOn ≠ 0 → lo.flowOn ≠ 0 ∧ lo.flowOn < hi.flowOn ∧ hi.speed ≤ lo.speed) := by
  by_cases h : hi.flowOn = 0 <;> simp [levelsRise, LevelParams.present, h, and_assoc]

/-- The levels of a CONGESTION group (R10). -/
theorem crossOk_congestion (p : CongestionParams) : (GroupValue.congestion p).crossOk = true ↔
    (∀ l ∈ [p.l1, p.l2, p.l3], l.flowOn ≠ 0 → l.flowOff < l.flowOn) ∧
      ∀ x ∈ [(p.l1, p.l2), (p.l2, p.l3)], x.2.flowOn ≠ 0 →
        x.1.flowOn ≠ 0 ∧ x.1.flowOn < x.2.flowOn ∧ x.2.speed ≤ x.1.speed := by
  simp only [GroupValue.crossOk, Bool.and_eq_true, releases_iff, levelsRise_iff, List.forall_mem_cons,
    List.not_mem_nil, false_implies, implies_true, and_true]
  tauto

/-- Speed gap and reach entries of a QUEUE group (R10). -/
theorem crossOk_queue (q : QueueParams) : (GroupValue.queue q).crossOk = true ↔
    q.queueOn + 5 ≤ q.queueOff ∧ (q.reach1 ≠ 0 → q.reach0 ≠ 0) ∧ (q.reach2 ≠ 0 → q.reach1 ≠ 0) := by
  simp only [GroupValue.crossOk, Bool.and_eq_true, decide_eq_true_eq, Bool.or_eq_true, beq_iff_eq, bne_iff_ne, and_assoc]
  tauto

/-! ### A PLAN group in RUN (R11, R162, R163) -/

/-- What the evaluation and the expiry of gates can change: rollout records, free values, notices and banks. -/
def GatesOnly (s t : State) : Prop :=
  t = { s with freeCount := t.freeCount
               link := { s.link with notices := t.link.notices, lost := t.link.lost }
               rollout := t.rollout
               banks := t.banks }

theorem GatesOnly.trans {s t u : State} (h : GatesOnly s t) (k : GatesOnly t u) : GatesOnly s u := by
  unfold GatesOnly at h k ⊢
  refine k.trans ?_
  rw [h]

theorem gatesOnly_onRollout (g : Nat) (f : RolloutRec → RolloutRec) (s : State) : GatesOnly s (s.onRollout g f) := rfl

theorem gatesOnly_draw (s : State) : GatesOnly s s.draw.2 := rfl

theorem gatesOnly_evalGate (g : Nat) (s : State) : GatesOnly s (s.evalGate g) := by
  unfold State.evalGate
  repeat' split
  all_goals rfl

theorem gatesOnly_evalGates (gs : List Nat) (s : State) : GatesOnly s (evalGates gs s) := by
  induction gs generalizing s with
  | nil => rfl
  | cons g gs ih => exact (gatesOnly_evalGate g s).trans (ih _)

theorem gatesOnly_record (id : BankId) (c : ErrorCode) (v : Severity) (g st : Option Nat) (s : State) :
    GatesOnly s (s.record id c v g st) := by
  have h := record_frame id c v g st s
  unfold GatesOnly
  rw [h]

theorem gatesOnly_expireGate (g : Nat) (s : State) : GatesOnly s (s.expireGate g) := by
  unfold State.expireGate
  split
  · rfl
  · simp only
    split
    · exact (gatesOnly_onRollout ..).trans (gatesOnly_record ..)
    · rfl

theorem gatesOnly_expireGates (gs : List Nat) (s : State) : GatesOnly s (expireGates gs s) := by
  induction gs generalizing s with
  | nil => rfl
  | cons g gs ih => exact (gatesOnly_expireGate g s).trans (ih _)

theorem gatesOnly_expireDue (s : State) : GatesOnly s s.expireDue := by
  refine GatesOnly.trans ?_ (gatesOnly_expireGates ..)
  unfold GatesOnly
  rw [anyOrder_state]

/-- A PLAN group taken in RUN: geometry, gates, and a trigger. -/
theorem planInRun_frame (v : PlanParams) (s : State) : ∃ t, s.planInRun v = t.trigger ∧
    GatesOnly { s with geo := { s.geo with params := { s.geo.params with plan := v }
                                           contin := deriveContin s.geo.gantries v.continuity } } t := by
  refine ⟨_, rfl, ?_⟩
  split
  · split
    · exact ((gatesOnly_draw _).trans (gatesOnly_expireDue _)).trans (gatesOnly_evalGates ..)
    · exact ((gatesOnly_draw _).trans (gatesOnly_evalGates ..)).trans (gatesOnly_expireDue _)
  · exact gatesOnly_evalGates ..

/-- The continuity relation (R6). -/
theorem deriveContin_iff {gs : Table GantryRec} (hr : gs.rising = true) (c g : Nat) :
    g ∈ deriveContin gs c ↔ ∃ a b, gs.look g = some a ∧ gs.look (g + 1) = some b ∧ b.chainage ≤ a.chainage + c := by
  unfold deriveContin
  rw [List.mem_map]
  constructor
  · rintro ⟨⟨k, a⟩, hk, rfl⟩
    obtain ⟨hm, hc⟩ := List.mem_filter.1 hk
    simp only at hc ⊢
    split at hc
    · cases hc
    · rename_i b hb
      exact ⟨a, b, look_of_mem hr hm, hb, of_decide_eq_true hc⟩
  · rintro ⟨a, b, ha, hb, hc⟩
    exact ⟨(g, a), List.mem_filter.2 ⟨mem_of_look ha, by simp [hb, hc]⟩, rfl⟩

/-- A trigger in RUN starts a pass or defers one (R134). -/
theorem trigger_run {s : State} (h : s.geo.mode = .run) : s.trigger.plan.running ≠ none ∧
    (s.plan.running = none → s.trigger.plan.again = s.plan.again) ∧
    (∀ n, s.plan.running = some n → s.trigger.plan.running = some n ∧ s.trigger.plan.again = true) ∧
    s.trigger.plan.demands = s.plan.demands ∧ s.trigger.plan.targets = s.plan.targets := by
  cases hp : s.plan.running with
  | none => rw [trigger_idle h hp]; simp
  | some n => rw [trigger_running h hp]; simp [hp]

end Sys2Proof.Machine
end

section
/-! The six groups of SET_PARAMETERS as their payloads read, and what the row does with each (O24). -/

namespace Sys2Proof.Machine

/-! ### What the payloads read as (R9, R174) -/

theorem reads_measure (iv g1 g0 fs a1 a0 b1 b0 k st si q1 q0 ee : Byte) (v : MeasureParams)
    (hv : v = { interval := fitInterval iv.toNat, maxGap := clampTo 300 2000 (num2 g1 g0),
                freeSpeed := fitSpeed 60 130 fs.toNat, class1Limit := clampTo 300 800 (num2 a1 a0),
                class2Limit := clampTo 800 2000 (num2 b1 b0), smoothingShift := clampTo 1 3 k.toNat,
                stuckMarks := clampTo 2 15 st.toNat, silentMarks := clampTo 8 110 si.toNat,
                silentFlow := clampTo 100 2000 (num2 q1 q0), edgeErrorLimit := clampTo 1 50 ee.toNat }) :
    GroupReads .setup [0#8, iv, g1, g0, fs, a1, a0, b1, b0, k, st, si, q1, q0, ee]
      [iv.toNat, num2 g1 g0, fs.toNat, num2 a1 a0, num2 b1 b0, k.toNat, st.toNat, si.toNat, num2 q1 q0, ee.toNat]
      [v.interval, v.maxGap, v.freeSpeed, v.class1Limit, v.class2Limit, v.smoothingShift, v.stuckMarks, v.silentMarks,
        v.silentFlow, v.edgeErrorLimit] (.measure v) := by
  subst hv
  exact ⟨⟨0#8, _, .measure, _, rfl, rfl, rfl, rfl, rfl⟩, rfl⟩

theorem reads_congestion (m : Mode) (a b c : Byte × Byte × Byte × Byte × Byte) (n : Byte) (v : CongestionParams)
    (hv : v = { l1 := fitLevel (num2 a.1 a.2.1) (num2 a.2.2.1 a.2.2.2.1) a.2.2.2.2.toNat,
                l2 := fitLevel (num2 b.1 b.2.1) (num2 b.2.2.1 b.2.2.2.1) b.2.2.2.2.toNat,
                l3 := fitLevel (num2 c.1 c.2.1) (num2 c.2.2.1 c.2.2.2.1) c.2.2.2.2.toNat,
                releaseCount := clampTo 1 10 n.toNat }) :
    GroupReads m
      [1#8, a.1, a.2.1, a.2.2.1, a.2.2.2.1, a.2.2.2.2, b.1, b.2.1, b.2.2.1, b.2.2.2.1, b.2.2.2.2, c.1, c.2.1, c.2.2.1,
        c.2.2.2.1, c.2.2.2.2, n]
      (levelSent (num2 a.1 a.2.1) (num2 a.2.2.1 a.2.2.2.1) a.2.2.2.2.toNat ++
        levelSent (num2 b.1 b.2.1) (num2 b.2.2.1 b.2.2.2.1) b.2.2.2.2.toNat ++
        levelSent (num2 c.1 c.2.1) (num2 c.2.2.1 c.2.2.2.1) c.2.2.2.2.toNat ++ [n.toNat])
      (v.l1.values ++ v.l2.values ++ v.l3.values ++ [v.releaseCount]) (.congestion v) := by
  subst hv
  refine ⟨⟨1#8, _, .congestion, _, rfl, rfl, by cases m <;> rfl, rfl, rfl⟩, ?_⟩
  have hl (x y z : Nat) : (levelSent x y z).length = 3 := by unfold levelSent; split <;> rfl
  simp [hl, LevelParams.values]

theorem fitReach_byte (b : Byte) : fitReach b.toNat = if b = 0#8 then 0 else fitSpeed 20 80 b.toNat := by
  unfold fitReach
  by_cases h : b = 0#8
  · subst h; rfl
  · rw [if_neg h, if_neg]
    exact fun k => h (BitVec.eq_of_toNat_eq k)

theorem reads_queue (m : Mode) (on off rl r0 r1 r2 : Byte) (v : QueueParams)
    (hv : v = { queueOn := clampTo 20 60 on.toNat, queueOff := clampTo 25 80 off.toNat,
                queueRelease := clampTo 1 10 rl.toNat,
                reach0 := if r0 = 0#8 then 0 else fitSpeed 20 80 r0.toNat,
                reach1 := if r1 = 0#8 then 0 else fitSpeed 20 80 r1.toNat,
                reach2 := if r2 = 0#8 then 0 else fitSpeed 20 80 r2.toNat }) :
    GroupReads m [2#8, on, off, rl, r0, r1, r2] [on.toNat, off.toNat, rl.toNat, r0.toNat, r1.toNat, r2.toNat]
      [v.queueOn, v.queueOff, v.queueRelease, v.reach0, v.reach1, v.reach2] (.queue v) := by
  rw [← fitReach_byte, ← fitReach_byte, ← fitReach_byte] at hv
  subst hv
  exact ⟨⟨2#8, _, .queue, _, rfl, rfl, by cases m <;> rfl, rfl, rfl⟩, rfl⟩

theorem reads_wrongway (m : Mode) (th w1 w0 x1 x0 r1 r0 k1 k0 sd : Byte) (v : WrongwayParams)
    (hv : v = { threshold := clampTo 1 3 th.toNat, window := clampTo 20 300 (num2 w1 w0),
                expiry := clampTo 60 1800 (num2 x1 x0), reach := clampTo 500 6000 (num2 r1 r0),
                track := clampTo 500 6000 (num2 k1 k0), speed := fitSpeed 20 80 sd.toNat }) :
    GroupReads m [3#8, th, w1, w0, x1, x0, r1, r0, k1, k0, sd]
      [th.toNat, num2 w1 w0, num2 x1 x0, num2 r1 r0, num2 k1 k0, sd.toNat]
      [v.threshold, v.window, v.expiry, v.reach, v.track, v.speed] (.wrongway v) := by
  subst hv
  exact ⟨⟨3#8, _, .wrongway, _, rfl, rfl, by cases m <;> rfl, rfl, rfl⟩, rfl⟩

/-- The values of a PLAN group whose divert_pref is `d`. -/
def planOf (sb c1 c0 cs sh cm gt : Byte) (d : Side) : PlanParams :=
  { step := fitSpeed 10 30 sb.toNat, continuity := clampTo 500 5000 (num2 c1 c0),
    closureSpeed := fitSpeed 40 80 cs.toNat, shoulderSpeed := fitSpeed 60 120 sh.toNat,
    corridorMax := fitSpeed 80 130 cm.toNat, divertPref := d, gateTime := clampTo 5 60 gt.toNat }

theorem reads_plan (m : Mode) (sb c1 c0 cs sh cm dp gt : Byte) (hd : dp.toNat ≤ 1) (v : PlanParams)
    (hv : v = planOf sb c1 c0 cs sh cm gt (if dp = 0#8 then .near else .off)) :
    GroupReads m [4#8, sb, c1, c0, cs, sh, cm, dp, gt]
      [sb.toNat, num2 c1 c0, cs.toNat, sh.toNat, cm.toNat, dp.toNat, gt.toNat]
      [v.step, v.continuity, v.closureSpeed, v.shoulderSpeed, v.corridorMax, dp.toNat, v.gateTime] (.plan v) := by
  subst hv
  have hz : dp.toNat = 0 ↔ dp = 0#8 := ⟨fun h => BitVec.eq_of_toNat_eq h, fun h => by rw [h]; rfl⟩
  refine ⟨⟨4#8, _, .plan, _, rfl, rfl, by cases m <;> rfl, rfl, ?_⟩, rfl⟩
  simp only [fitGroup, if_neg (show ¬dp.toNat > 1 by omega), hz]
  rfl

theorem reads_line (p1 p0 sd e1 e0 : Byte) (v : LineParams)
    (hv : v = { pollPeriod := clampTo 250 2000 (num2 p1 p0), statePeriod := clampTo 2 30 sd.toNat,
                settle := clampTo 200 2000 (num2 e1 e0) }) :
    GroupReads .setup [5#8, p1, p0, sd, e1, e0] [num2 p1 p0, sd.toNat, num2 e1 e0]
      [v.pollPeriod, v.statePeriod, v.settle] (.line v) := by
  subst hv
  exact ⟨⟨5#8, _, .line, _, rfl, rfl, rfl, rfl, rfl⟩, rfl⟩

/-! ### Refusals (R7, R26) -/

/-- How many bytes the fields of a group take. -/
def Group.size (g : Group) : Nat := g.widths.sum

theorem splitFields_length {ws : List Nat} {bs : List Byte} {raw : List Nat} (h : splitFields ws bs = some raw) :
    bs.length = ws.sum := by
  induction ws, bs using splitFields.induct generalizing raw with
  | case1 => rfl
  | case2 ws b bs ih =>
    simp only [splitFields, Option.map_eq_some_iff] at h
    obtain ⟨r, hr, _⟩ := h
    have := ih hr
    simp only [List.length_cons, List.sum_cons]
    omega
  | case3 ws x y bs ih =>
    simp only [splitFields, Option.map_eq_some_iff] at h
    obtain ⟨r, hr, _⟩ := h
    have := ih hr
    simp only [List.length_cons, List.sum_cons]
    omega
  | case4 ws bs h1 h2 h3 => simp [splitFields] at h

/-- A group whose fields are not as long as its widths call for. -/
theorem setParameters_badLength {s : State} {f : Frame} {rest : List Frame} {b : Byte} {fields : List Byte} {g : Group}
    (ht : s.takes 0x04#8 f rest) (hp : f.payload = b :: fields) (hg : groupOfCode b = some g)
    (hm : g.takenIn s.geo.mode = true) (hl : fields.length ≠ g.size) :
    exec .setParameters s = .next (s.answered f rest .badLength .none) := by
  refine takeRequest_refused handleSetParameters ht rfl ?_
  have hs : splitFields g.widths fields = none := by
    cases h : splitFields g.widths fields with
    | none => rfl
    | some raw => exact absurd (splitFields_length h) hl
  simp only [handleSetParameters, hp, hg, hm, hs, Bool.true_eq_false, if_false]
  rfl

theorem setParameters_wrongMode {s : State} {f : Frame} {rest : List Frame} {b : Byte} {fields : List Byte} {g : Group}
    (ht : s.takes 0x04#8 f rest) (hp : f.payload = b :: fields) (hg : groupOfCode b = some g)
    (hm : g.takenIn s.geo.mode = false) : exec .setParameters s = .next (s.answered f rest .wrongMode .none) := by
  refine takeRequest_refused handleSetParameters ht rfl ?_
  simp only [handleSetParameters, hp, hg, hm, if_true]
  rfl

theorem groupOfCode_none {b : Byte} (h : 5 < b.toNat) : groupOfCode b = none := by
  unfold groupOfCode
  repeat' rw [if_neg (by rintro rfl; simp at h)]

theorem setParameters_noGroup {s : State} {f : Frame} {rest : List Frame} {b : Byte} {fields : List Byte}
    (ht : s.takes 0x04#8 f rest) (hp : f.payload = b :: fields) (hb : 5 < b.toNat) :
    exec .setParameters s = .next (s.answered f rest .badValue .none) := by
  refine takeRequest_refused handleSetParameters ht rfl ?_
  simp only [handleSetParameters, hp, groupOfCode_none hb]
  rfl

/-- A divert_pref above 1 names no side (R175). -/
theorem setParameters_badSide {s : State} {f : Frame} {rest : List Frame} {sb c1 c0 cs sh cm dp gt : Byte}
    (ht : s.takes 0x04#8 f rest) (hp : f.payload = [4#8, sb, c1, c0, cs, sh, cm, dp, gt]) (hd : 1 < dp.toNat) :
    exec .setParameters s = .next (s.answered f rest .badValue .none) := by
  refine takeRequest_refused handleSetParameters ht rfl ?_
  have hm : Group.plan.takenIn s.geo.mode = true := by cases s.geo.mode <;> rfl
  have hf : fitGroup .plan [sb.toNat, num2 c1 c0, cs.toNat, sh.toNat, cm.toNat, dp.toNat, gt.toNat] = .badValue :=
    if_pos hd
  have hg : groupOfCode 4#8 = some .plan := rfl
  have hs : splitFields Group.plan.widths [sb, c1, c0, cs, sh, cm, dp, gt] =
      some [sb.toNat, num2 c1 c0, cs.toNat, sh.toNat, cm.toNat, dp.toNat, gt.toNat] := rfl
  simp only [handleSetParameters, hp, hg, hm, hs, hf, Bool.true_eq_false, if_false]
  rfl

/-- A wrong length of one of the six groups, in a mode that takes it. -/
theorem setParameters_sizes {s : State} {f : Frame} {rest : List Frame} {b : Byte} {fields : List Byte} {n : Nat}
    (ht : s.takes 0x04#8 f rest) (hp : f.payload = b :: fields)
    (hn : (b, n) ∈ [(0#8, 14), (1#8, 16), (2#8, 6), (3#8, 10), (4#8, 8), (5#8, 5)]) (hl : fields.length ≠ n)
    (hm : s.geo.mode = .setup ∨ b ∉ [0#8, 5#8]) : exec .setParameters s = .next (s.answered f rest .badLength .none) := by
  have key (g : Group) (hg : groupOfCode b = some g) (hs : g.size = n)
      (hr : b ∉ [0#8, 5#8] → g.takenIn .run = true) : exec .setParameters s = .next (s.answered f rest .badLength .none) := by
    refine setParameters_badLength ht hp hg ?_ (hs ▸ hl)
    cases h : s.geo.mode with
    | setup => rfl
    | run => exact hr (hm.resolve_left (by rw [h]; decide))
  simp only [List.mem_cons, Prod.mk.injEq, List.not_mem_nil, or_false] at hn
  obtain ⟨rfl, rfl⟩ | ⟨rfl, rfl⟩ | ⟨rfl, rfl⟩ | ⟨rfl, rfl⟩ | ⟨rfl, rfl⟩ | ⟨rfl, rfl⟩ := hn
  · exact key .measure rfl rfl fun h => absurd (by decide) h
  · exact key .congestion rfl rfl fun _ => rfl
  · exact key .queue rfl rfl fun _ => rfl
  · exact key .wrongway rfl rfl fun _ => rfl
  · exact key .plan rfl rfl fun _ => rfl
  · exact key .line rfl rfl fun h => absurd (by decide) h

/-! ### A PLAN group in RUN -/

/-- A PLAN group taken in RUN: stored at once, the continuity relation anew, and a trigger (R11). -/
theorem setParameters_planInRun {s : State} {f : Frame} {rest : List Frame} {sent stored : List Nat} {v : PlanParams}
    (ht : s.takes 0x04#8 f rest) (h : GroupReads s.geo.mode f.payload sent stored (.plan v)) (hm : s.geo.mode = .run) :
    ∃ t r d, clampAnswer sent stored r d ∧ exec .setParameters s = .next t ∧
      t.geo = { s.geo with params := { s.geo.params with plan := v }, contin := t.geo.contin } ∧
      (s.geo.gantries.rising = true → ∀ g, g ∈ t.geo.contin ↔ ∃ a b, s.geo.gantries.look g = some a ∧
        s.geo.gantries.look (g + 1) = some b ∧ b.chainage ≤ a.chainage + v.continuity) ∧
      t.plan.running ≠ none ∧ (s.plan.running = none → t.plan.again = s.plan.again) ∧
      (∀ m, s.plan.running = some m → t.plan.running = some m ∧ t.plan.again = true) ∧
      t.plan.demands = s.plan.demands ∧ t.plan.targets = s.plan.targets ∧
      t.link.replySlot = some ⟨f.typ ||| 0x80#8, f.tag, r, d⟩ ∧ t.link.rxQueue = rest ∧ t.nodes = s.nodes ∧
      t.incidents = s.incidents ∧ t.sections = s.sections ∧ t.traffic = s.traffic ∧ t.measure = s.measure ∧
      t.lineA = s.lineA ∧ t.lineB = s.lineB ∧ t.clock = s.clock := by
  obtain ⟨r, d, hc, e⟩ := setParameters_stored ht h rfl
  rw [storeGroup_plan (s := { s with link := { s.link with rxQueue := rest } }) hm] at e
  obtain ⟨u, hu, hg⟩ := planInRun_frame v { s with link := { s.link with rxQueue := rest } }
  rw [hu] at e
  have hr := trigger_run (s := u) (by rw [hg]; exact hm)
  have hp : u.plan = s.plan := by rw [hg]
  have hc' : u.geo.contin = deriveContin s.geo.gantries v.continuity := by rw [hg]
  rw [hp] at hr
  obtain ⟨hne, hidle, hrun, hdem, htar⟩ := hr
  refine ⟨_, r, d, hc, e, ?_, fun hs g => ?_, hne, hidle, hrun, hdem, htar, rfl, ?_⟩
  · rw [trigger_frame, hg]
    rfl
  · rw [trigger_frame]
    exact hc' ▸ deriveContin_iff hs ..
  · rw [trigger_frame, hg]
    exact ⟨rfl, rfl, rfl, rfl, rfl, rfl, rfl, rfl, rfl⟩

/-- Settles O24, group by group. -/
theorem parametersAreClampedAndStored : Obligations.ParametersAreClampedAndStored := by
  intro s f rest ht
  refine ⟨?_, ?_, ?_, ?_, ?_, ?_, ?_, ?_⟩
  · intro iv g1 g0 fs a1 a0 b1 b0 k st si q1 q0 ee hm hp
    have h := reads_measure iv g1 g0 fs a1 a0 b1 b0 k st si q1 q0 ee _ rfl
    rw [← hp, ← hm] at h
    exact groupTaken_of ht h decide_eq_true_iff fun u hu => storeGroup_setup (hu.trans hm) _
  · intro a b c n bytes hp
    have h (m : Mode) := reads_congestion m a b c n _ rfl
    refine ⟨fun hm => ?_, fun hm => ?_⟩
    · exact groupTaken_of ht (hp ▸ h s.geo.mode) (crossOk_congestion _) fun u hu => storeGroup_setup (hu.trans hm) _
    · exact groupTaken_of ht (hp ▸ h s.geo.mode) (crossOk_congestion _) fun u hu => storeGroup_congestion (hu.trans hm) _
  · intro on off rl r0 r1 r2 hp
    have h (m : Mode) := reads_queue m on off rl r0 r1 r2 _ rfl
    refine ⟨fun hm => ?_, fun hm => ?_⟩
    · exact groupTaken_of ht (hp ▸ h s.geo.mode) (crossOk_queue _) fun u hu => storeGroup_setup (hu.trans hm) _
    · exact groupTaken_of ht (hp ▸ h s.geo.mode) (crossOk_queue _) fun u hu => storeGroup_queue (hu.trans hm) _
  · intro th w1 w0 x1 x0 r1 r0 k1 k0 sd hp
    have h (m : Mode) := reads_wrongway m th w1 w0 x1 x0 r1 r0 k1 k0 sd _ rfl
    refine ⟨fun hm => ?_, fun hm => ?_⟩
    · exact groupTaken_of ht (hp ▸ h s.geo.mode) ⟨fun _ => trivial, fun _ => rfl⟩
        fun u hu => storeGroup_setup (hu.trans hm) _
    · exact groupTaken_of ht (hp ▸ h s.geo.mode) ⟨fun _ => trivial, fun _ => rfl⟩
        fun u hu => storeGroup_wrongway (hu.trans hm) _
  · intro sb c1 c0 cs sh cm dp gt hp
    refine ⟨fun hd => setParameters_badSide ht hp hd, fun hd => ?_⟩
    have h (m : Mode) := reads_plan m sb c1 c0 cs sh cm dp gt hd _ rfl
    refine ⟨fun hm => ?_, fun hm => ?_⟩
    · exact groupTaken_of ht (hp ▸ h s.geo.mode) ⟨fun _ => trivial, fun _ => rfl⟩
        fun u hu => storeGroup_setup (hu.trans hm) _
    · exact setParameters_planInRun ht (hp ▸ h s.geo.mode) hm
  · intro p1 p0 sd e1 e0 hm hp
    have h := reads_line p1 p0 sd e1 e0 _ rfl
    rw [← hp, ← hm] at h
    exact groupTaken_of ht h ⟨fun _ => trivial, fun _ => rfl⟩ fun u hu => storeGroup_setup (hu.trans hm) _
  · intro fields hm hp
    obtain hp | hp := hp
    · exact setParameters_wrongMode ht hp (g := .measure) rfl (by rw [hm]; rfl)
    · exact setParameters_wrongMode ht hp (g := .line) rfl (by rw [hm]; rfl)
  · intro b fields hp
    exact ⟨fun hb => setParameters_noGroup ht hp hb, fun n hn hl hm => setParameters_sizes ht hp hn hl hm⟩

end Sys2Proof.Machine
end

section
/-! The twelve checks of START as the table of R12 says them (O25). -/

namespace Sys2Proof.Machine

/-! ### The lowest number of which something holds -/

/-- `o` is the lowest number of which p holds, or none where there is no such number. -/
def LeastOf (p : Nat → Prop) (o : Option Nat) : Prop :=
  (∀ n, o = some n → p n ∧ ∀ m, m < n → ¬p m) ∧ (o = none → ∀ n, ¬p n)

theorem LeastOf.congr {p q : Nat → Prop} {o : Option Nat} (h : LeastOf p o) (e : ∀ n, p n ↔ q n) : LeastOf q o := by
  rwa [show q = p from funext fun n => propext (e n).symm]

theorem LeastOf.some {p : Nat → Prop} {n : Nat} (h : p n) (k : ∀ m, m < n → ¬p m) : LeastOf p (some n) :=
  ⟨fun _ e => Option.some.inj e ▸ ⟨h, k⟩, nofun⟩

theorem LeastOf.eq_some_iff {p : Nat → Prop} {o : Option Nat} (h : LeastOf p o) (n : Nat) :
    o = Option.some n ↔ p n ∧ ∀ m, m < n → ¬p m := by
  refine ⟨h.1 n, fun ⟨hn, hm⟩ => ?_⟩
  cases o with
  | none => exact absurd hn (h.2 rfl n)
  | some k =>
    obtain ⟨hk, hl⟩ := h.1 k rfl
    obtain hlt | rfl | hgt := Nat.lt_trichotomy k n
    · exact absurd hk (hm k hlt)
    · rfl
    · exact absurd hn (hl n hgt)

theorem leastOf_find?_range' (q : Nat → Bool) (a len : Nat) :
    LeastOf (fun n => a ≤ n ∧ n < a + len ∧ q n = true) ((List.range' a len).find? q) := by
  constructor
  · intro n h
    obtain ⟨hq, hn, hl⟩ := List.find?_range'_eq_some.1 h
    rw [List.mem_range'_1] at hn
    refine ⟨⟨hn.1, hn.2, hq⟩, fun m hm ⟨h1, _, h3⟩ => ?_⟩
    have := hl m h1 hm
    simp [h3] at this
  · intro h n ⟨h1, h2, h3⟩
    exact List.find?_eq_none.1 h n (List.mem_range'_1.2 ⟨h1, h2⟩) h3

/-! ### Searches over a rising table -/

theorem rising_cons {α : Type} (k : Nat) (v : α) (t : Table α) :
    Table.rising ((k, v) :: t) = true ↔ (∀ x ∈ t, k < x.1) ∧ t.rising = true := by
  simp [rising_iff, Table.keys]

theorem mem_keys_iff {α : Type} {t : Table α} (hr : t.rising = true) (n : Nat) : n ∈ t.keys ↔ t.look n ≠ none := by
  simp [Table.keys, mem_iff_look hr, Option.ne_none_iff_exists']

theorem leastOf_find? {α : Type} (q : Nat × α → Bool) {t : Table α} (hr : t.rising = true) :
    LeastOf (fun n => ∃ r, (n, r) ∈ t ∧ q (n, r) = true) ((t.find? q).map (·.1)) := by
  induction t with
  | nil => exact ⟨nofun, fun _ n ⟨r, h, _⟩ => nomatch h⟩
  | cons kv t ih =>
    obtain ⟨k, v⟩ := kv
    obtain ⟨hk, ht⟩ := (rising_cons k v t).1 hr
    rw [List.find?_cons]
    cases hq : q (k, v) with
    | true =>
      refine .some ⟨v, List.mem_cons_self .., hq⟩ fun m hm ⟨r, h, _⟩ => ?_
      obtain h | h := List.mem_cons.1 h
      · cases h; exact absurd hm (Nat.lt_irrefl _)
      · exact absurd (hk _ h) (Nat.not_lt.2 hm.le)
    | false =>
      refine (ih ht).congr fun n => exists_congr fun r => ⟨fun h => ⟨List.mem_cons_of_mem _ h.1, h.2⟩, fun ⟨h, h'⟩ => ?_⟩
      obtain h | h := List.mem_cons.1 h
      · cases h; rw [hq] at h'; cases h'
      · exact ⟨h, h'⟩

/-- Checks 5, 9, 11 and 12: the first record that fails a test. -/
theorem leastOf_firstFailing {α : Type} (ok : α → Bool) {t : Table α} (hr : t.rising = true) :
    LeastOf (fun n => ∃ r, t.look n = some r ∧ ok r = false) (firstFailing ok t) :=
  (leastOf_find? (fun kv => !ok kv.2) hr).congr fun n => by simp [mem_iff_look hr]

/-- Checks 2 and 7: the lowest undefined number below a defined one. -/
theorem leastOf_numberingGap {α : Type} {t : Table α} (hr : t.rising = true) (hk : ∀ n ∈ t.keys, 1 ≤ n ∧ n ≤ 32) :
    LeastOf (fun n => 1 ≤ n ∧ t.look n = none ∧ ∃ m, n < m ∧ t.look m ≠ none) (numberingGap t) := by
  refine (leastOf_find?_range' _ 1 32).congr fun n => ?_
  simp only [Bool.and_eq_true, Bool.not_eq_true', has_eq_false, List.any_eq_true, decide_eq_true_eq]
  constructor
  · rintro ⟨h1, _, hn, ⟨m, r⟩, hm, hl⟩
    exact ⟨h1, hn, m, hl, by rw [look_of_mem hr hm]; simp⟩
  · rintro ⟨h1, hn, m, hl, hm⟩
    obtain ⟨r, hr'⟩ := Option.ne_none_iff_exists'.1 hm
    have hmem := mem_of_look hr'
    have := (hk m (List.mem_map_of_mem hmem)).2
    exact ⟨h1, by omega, hn, (m, r), hmem, hl⟩

/-- Checks 4 and 10: the lowest record that repeats something of a lower one, or of the ones already seen. -/
theorem leastOf_repeated {α β : Type} [DecidableEq β] (f : α → β) {t : Table α} (seen : List β) (hr : t.rising = true) :
    LeastOf (fun n => ∃ r, (n, r) ∈ t ∧ (f r ∈ seen ∨ ∃ m q, (m, q) ∈ t ∧ m < n ∧ f r = f q)) (repeated f seen t) := by
  induction t generalizing seen with
  | nil => exact ⟨nofun, fun _ n ⟨r, h, _⟩ => nomatch h⟩
  | cons kv t ih =>
    obtain ⟨k, v⟩ := kv
    obtain ⟨hk, ht⟩ := (rising_cons k v t).1 hr
    have hmin {m : Nat} {r : α} (h : (m, r) ∈ (k, v) :: t) : k ≤ m := by
      obtain h | h := List.mem_cons.1 h
      · cases h; exact Nat.le_refl _
      · exact (hk _ h).le
    rw [repeated]
    split
    · rename_i hs
      exact .some ⟨v, List.mem_cons_self .., .inl (by simpa using hs)⟩
        fun m hm ⟨r, h, _⟩ => absurd (hmin h) (Nat.not_le.2 hm)
    · rename_i hs
      have hs : f v ∉ seen := by simpa using hs
      refine (ih (f v :: seen) ht).congr fun n => ⟨?_, ?_⟩
      · rintro ⟨r, h, h'⟩
        refine ⟨r, List.mem_cons_of_mem _ h, ?_⟩
        obtain h' | ⟨m, q, hq, hm⟩ := h'
        · obtain h' | h' := List.mem_cons.1 h'
          · exact .inr ⟨k, v, List.mem_cons_self .., hk _ h, h'⟩
          · exact .inl h'
        · exact .inr ⟨m, q, List.mem_cons_of_mem _ hq, hm⟩
      · rintro ⟨r, h, h'⟩
        obtain h | h := List.mem_cons.1 h
        · cases h
          obtain h' | ⟨m, q, hq, hm, _⟩ := h'
          · exact absurd h' hs
          · exact absurd (hmin hq) (Nat.not_le.2 hm)
        · refine ⟨r, h, ?_⟩
          obtain h' | ⟨m, q, hq, hm, e⟩ := h'
          · exact .inl (List.mem_cons_of_mem _ h')
          · obtain hq | hq := List.mem_cons.1 hq
            · cases hq; exact .inl (e ▸ List.mem_cons_self ..)
            · exact .inr ⟨m, q, hq, hm, e⟩

theorem leastOf_repeats {α β : Type} [DecidableEq β] (f : α → β) {t : Table α} (hr : t.rising = true) :
    LeastOf (fun n => ∃ m r q, m < n ∧ t.look n = some r ∧ t.look m = some q ∧ f r = f q) (repeated f [] t) := by
  refine (leastOf_repeated f [] hr).congr fun n => ?_
  simp only [mem_iff_look hr, List.not_mem_nil, false_or]
  exact ⟨fun ⟨r, hr, m, q, hq, hm, e⟩ => ⟨m, r, q, hm, hr, hq, e⟩, fun ⟨m, r, q, hm, hr, hq, e⟩ => ⟨r, hr, m, q, hq, hm, e⟩⟩

/-! ### Chainage order (checks 3 and 8) -/

/-- Without a numbering gap the records of a table follow each other by number. -/
theorem consecutive_of_noGap {α : Type} {t : Table α} (hr : t.rising = true)
    (h : ∀ n m, (∃ k ∈ t.keys, k < n) → n < m → m ∈ t.keys → n ∈ t.keys) :
    t.IsChain fun a b => b.1 = a.1 + 1 := by
  induction t with
  | nil => exact .nil
  | cons a t ih =>
    obtain ⟨k, v⟩ := a
    obtain ⟨hk, ht⟩ := (rising_cons k v t).1 hr
    have hk' {x : Nat} (hx : x ∈ Table.keys t) : k < x := by
      obtain ⟨y, hy, rfl⟩ := List.mem_map.1 hx
      exact hk y hy
    refine List.isChain_cons.2 ⟨fun b hb => ?_, ih ht fun n m ⟨x, hx, hl⟩ hm hmem => ?_⟩
    · obtain ⟨k', v'⟩ := b
      cases t with
      | nil => cases hb
      | cons c t =>
        cases hb
        have h1 := hk _ (List.mem_cons_self ..)
        by_contra hne
        have := h (k + 1) k' ⟨k, List.mem_cons_self .., Nat.lt_succ_self k⟩ (by simp at h1 hne; omega)
          (List.mem_cons_of_mem _ (List.mem_cons_self ..))
        obtain ⟨hc, _⟩ := (rising_cons k' v' t).1 ht
        simp only [Table.keys, List.map_cons, List.mem_cons, List.mem_map] at this
        obtain h2 | h2 | ⟨y, hy, h2⟩ := this
        · omega
        · exact hne h2.symm
        · have := hc y hy
          simp at h1
          omega
    · obtain h' | h' := List.mem_cons.1 (h n m ⟨x, List.mem_cons_of_mem _ hx, hl⟩ hm (List.mem_cons_of_mem _ hmem))
      · have := hk' hx
        simp only at h'
        omega
      · exact h'

theorem leastOf_orderBreach {t : Table Nat} (hr : t.rising = true) (hc : t.IsChain fun a b => b.1 = a.1 + 1) :
    LeastOf (fun n => ∃ r q, (n, r) ∈ t ∧ (n - 1, q) ∈ t ∧ n ≠ 0 ∧ r ≤ q) (orderBreach t) := by
  induction t with
  | nil => exact ⟨nofun, fun _ n ⟨r, q, h, _⟩ => nomatch h⟩
  | cons a t ih =>
    cases t with
    | nil =>
      refine ⟨nofun, fun _ n ⟨r, q, h, h', hn, _⟩ => ?_⟩
      rw [List.mem_singleton] at h h'
      cases h
      have : n - 1 = n := congrArg Prod.fst h'
      omega
    | cons b t =>
      obtain ⟨k, v⟩ := a
      obtain ⟨k', w⟩ := b
      obtain ⟨hk, ht⟩ := (rising_cons k v _).1 hr
      obtain ⟨he, hc⟩ := List.isChain_cons_cons.1 hc
      obtain ⟨hk', _⟩ := (rising_cons k' w _).1 ht
      simp only at he
      have hmem {m r : Nat} (h : (m, r) ∈ (k, v) :: (k', w) :: t) : m = k ∧ r = v ∨ m = k' ∧ r = w ∨ k' < m ∧ (m, r) ∈ t := by
        simp only [List.mem_cons, Prod.mk.injEq] at h
        exact h.imp id (.imp id fun h => ⟨hk' _ h, h⟩)
      rw [orderBreach]
      split
      · rename_i hl
        refine .some ⟨w, v, by simp, by simp [he], by omega, hl⟩ fun m hm ⟨r, q, h, h', hn, _⟩ => ?_
        have := hmem h
        have := hmem h'
        simp only at hm
        omega
      · rename_i hl
        refine (ih ht hc).congr fun n => ⟨fun ⟨r, q, h, h', e⟩ =>
          ⟨r, q, List.mem_cons_of_mem _ h, List.mem_cons_of_mem _ h', e⟩, fun ⟨r, q, h, h', hn, e⟩ => ?_⟩
        obtain ⟨rfl, _⟩ | ⟨rfl, rfl⟩ | ⟨hn', h⟩ := hmem h
        · have := hmem h'
          omega
        · obtain ⟨_, rfl⟩ | h' | h' := hmem h'
          · exact absurd e hl
          · omega
          · omega
        · have h'' : (n - 1, q) ∈ (k', w) :: t := (List.mem_cons.1 h').resolve_left fun e => by cases e; omega
          exact ⟨r, q, List.mem_cons_of_mem _ h, h'', hn, e⟩

/-! ### A run of numbers (check 6) -/

/-- Nothing is missing between two numbers of a list. -/
def Gapless (l : List Nat) : Prop := ∀ a ∈ l, ∀ c ∈ l, ∀ b, a < b → b < c → b ∈ l

theorem getLast_run {g : Nat} {l : List Nat} (h : (g :: l).Pairwise (· < ·)) :
    g + l.length ≤ l.getLast?.getD g ∧ (l.getLast?.getD g = g + l.length ↔ Gapless (g :: l)) := by
  induction l generalizing g with
  | nil => simp [Gapless]; omega
  | cons k l ih =>
    obtain ⟨hg, hl⟩ := List.pairwise_cons.1 h
    obtain ⟨i1, i2⟩ := ih hl
    have hk := hg k (List.mem_cons_self ..)
    rw [List.getLast?_cons, Option.getD_some, List.length_cons]
    refine ⟨by omega, ?_⟩
    constructor
    · intro e
      have gap : Gapless (k :: l) := i2.1 (by omega)
      intro a ha c hc b hab hbc
      have hc' : c ∈ k :: l := (List.mem_cons.1 hc).resolve_left fun e => by
        obtain rfl | ha := List.mem_cons.1 ha
        · omega
        · have := hg a ha
          omega
      refine List.mem_cons_of_mem _ ?_
      obtain rfl | ha := List.mem_cons.1 ha
      · obtain rfl | hlt := Nat.eq_or_lt_of_le (show k ≤ b by omega)
        · exact List.mem_cons_self ..
        · exact gap k (List.mem_cons_self ..) c hc' b hlt hbc
      · exact gap a ha c hc' b hab hbc
    · intro gap
      have above {b : Nat} (hb : b ∈ g :: k :: l) (hlt : g < b) : b ∈ k :: l :=
        (List.mem_cons.1 hb).resolve_left (by omega)
      have hmin {b : Nat} (hb : b ∈ k :: l) : k ≤ b := by
        obtain rfl | hb := List.mem_cons.1 hb
        · exact Nat.le_refl _
        · exact ((List.pairwise_cons.1 hl).1 b hb).le
      have he : k = g + 1 := by
        by_contra hne
        have hb := gap g (List.mem_cons_self ..) k (by simp) (g + 1) (by omega) (by omega)
        have := hmin (above hb (by omega))
        omega
      have : Gapless (k :: l) := fun a ha c hc b hab hbc =>
        above (gap a (List.mem_cons_of_mem _ ha) c (List.mem_cons_of_mem _ hc) b hab hbc)
          (by have := hmin ha; omega)
      have := i2.2 this
      omega

/-- The gantries that name section n, ascending. -/
def sectionNumbers (gs : Table GantryRec) (n : Nat) : List Nat := (gs.filter fun kv => kv.2.sec == n).map (·.1)

theorem mem_sectionNumbers {gs : Table GantryRec} (hr : gs.rising = true) (n g : Nat) :
    g ∈ sectionNumbers gs n ↔ ∃ r, gs.look g = some r ∧ r.sec = n := by
  simp [sectionNumbers, mem_iff_look hr]

theorem sectionNumbers_pairwise {gs : Table GantryRec} (hr : gs.rising = true) (n : Nat) :
    (sectionNumbers gs n).Pairwise (· < ·) :=
  ((rising_iff gs).1 hr).sublist (List.filter_sublist.map _)

theorem sectionRunOk_iff {gs : Table GantryRec} (hr : gs.rising = true) (n : Nat) :
    sectionRunOk gs n = true ↔ Gapless (sectionNumbers gs n) := by
  have hp := sectionNumbers_pairwise hr n
  change (match sectionNumbers gs n with
    | [] => true
    | g :: rest => (g :: rest).getLast?.getD g == g + rest.length) = true ↔ _
  cases h : sectionNumbers gs n with
  | nil => simp [Gapless]
  | cons g l =>
    rw [h] at hp
    simpa [List.getLast?_cons] using (getLast_run hp).2

theorem leastOf_sectionRun {gs : Table GantryRec} (hr : gs.rising = true) :
    LeastOf (fun n => 1 ≤ n ∧ n ≤ 4 ∧ ∃ a b c r q, a < b ∧ b < c ∧ gs.look a = some r ∧ r.sec = n ∧
      gs.look c = some q ∧ q.sec = n ∧ ∀ y, gs.look b = some y → y.sec ≠ n)
      ([1, 2, 3, 4].find? fun n => !sectionRunOk gs n) := by
  refine (leastOf_find?_range' _ 1 4).congr fun n => ?_
  rw [Bool.not_eq_true', Bool.eq_false_iff, Ne, sectionRunOk_iff hr]
  simp only [Gapless, mem_sectionNumbers hr, not_forall]
  refine and_congr_right fun _ => and_congr Nat.lt_succ_iff ⟨?_, ?_⟩
  · rintro ⟨a, ⟨r, ha, hr'⟩, c, ⟨q, hc, hq⟩, b, hab, hbc, hb⟩
    exact ⟨a, b, c, r, q, hab, hbc, ha, hr', hc, hq, fun y hy e => hb ⟨y, hy, e⟩⟩
  · rintro ⟨a, b, c, r, q, hab, hbc, ha, hr', hc, hq, hb⟩
    exact ⟨a, ⟨r, ha, hr'⟩, c, ⟨q, hc, hq⟩, b, hab, hbc, fun ⟨y, hy, e⟩ => hb y hy e⟩

/-! ### The list of checks -/

/-- Every entry of a list of checks names its kind of item and, where no entry before it reports one, the lowest item
that fails. -/
def Reports (x : Geometry) : List (StartCheck × ItemKind × Option Nat) → Prop
  | [] => True
  | (c, k, o) :: l => k = c.item ∧ LeastOf (fun n => x.checkFails n c) o ∧ (o = none → Reports x l)

theorem firstFailure_none_iff {x : Geometry} {l : List (StartCheck × ItemKind × Option Nat)} (h : Reports x l) :
    firstFailure l = none ↔ ∀ n, ∀ c ∈ l.map (·.1), ¬x.checkFails n c := by
  induction l with
  | nil => simp [firstFailure]
  | cons e l ih =>
    obtain ⟨c, k, o⟩ := e
    obtain ⟨-, ho, hl⟩ := h
    cases o with
    | none =>
      have hn := ho.2 rfl
      simpa [firstFailure, hn] using ih (hl rfl)
    | some n => exact ⟨nofun, fun hn => absurd (ho.1 n rfl).1 (hn n c (by simp))⟩

theorem firstFailure_some_iff {x : Geometry} {l : List (StartCheck × ItemKind × Option Nat)} (h : Reports x l)
    (hl : (l.map (·.1)).Pairwise fun a b => a.code < b.code) (c : StartCheck) (k : ItemKind) (n : Nat) :
    firstFailure l = some (c, k, n) ↔ c ∈ l.map (·.1) ∧ k = c.item ∧ x.checkFails n c ∧
      (∀ m, m < n → ¬x.checkFails m c) ∧ ∀ c' ∈ l.map (·.1), ∀ m, c'.code < c.code → ¬x.checkFails m c' := by
  induction l with
  | nil => simp [firstFailure]
  | cons e l ih =>
    obtain ⟨d, j, o⟩ := e
    obtain ⟨rfl, ho, hr⟩ := h
    rw [List.map_cons, List.pairwise_cons] at hl
    obtain ⟨hd, hp⟩ := hl
    rw [List.map_cons]
    cases o with
    | none =>
      have hn := ho.2 rfl
      rw [firstFailure, ih (hr rfl) hp]
      constructor
      · rintro ⟨hc, hk, hf, hm, hb⟩
        refine ⟨List.mem_cons_of_mem _ hc, hk, hf, hm, fun c' hc' m hl => ?_⟩
        obtain rfl | hc' := List.mem_cons.1 hc'
        · exact hn m
        · exact hb c' hc' m hl
      · rintro ⟨hc, hk, hf, hm, hb⟩
        refine ⟨(List.mem_cons.1 hc).resolve_left ?_, hk, hf, hm, fun c' hc' => hb c' (List.mem_cons_of_mem _ hc')⟩
        rintro rfl
        exact hn n hf
    | some i =>
      obtain ⟨hi, hlow⟩ := ho.1 i rfl
      simp only [firstFailure, Option.some.injEq, Prod.mk.injEq]
      constructor
      · rintro ⟨rfl, rfl, rfl⟩
        refine ⟨List.mem_cons_self .., rfl, hi, hlow, fun c' hc' m hl => ?_⟩
        obtain rfl | hc' := List.mem_cons.1 hc'
        · exact absurd hl (Nat.lt_irrefl _)
        · exact absurd (hd c' hc') (Nat.lt_asymm hl)
      · rintro ⟨hc, hk, hf, hm, hb⟩
        have hcd : c = d := by
          refine (List.mem_cons.1 hc).resolve_right fun hc => ?_
          exact hb d (List.mem_cons_self ..) i (hd c hc) hi
        subst hcd
        exact ⟨rfl, hk.symm, Option.some.inj ((ho.eq_some_iff n).2 ⟨hf, hm⟩)⟩

/-- The order of chainages once there is no numbering gap. -/
theorem leastOf_order {α : Type} (f : α → Nat) {t : Table α} (hr : t.rising = true)
    (hg : ∀ n, ¬(1 ≤ n ∧ t.look n = none ∧ ∃ m, n < m ∧ t.look m ≠ none)) :
    LeastOf (fun n => ∃ r q, t.look n = some r ∧ t.look (n - 1) = some q ∧ n ≠ 0 ∧ f r ≤ f q)
      (orderBreach (t.mapValues f)) := by
  have hr' : (t.mapValues f).rising = true := by rwa [rising_mapValues]
  refine (leastOf_orderBreach hr' (consecutive_of_noGap hr' fun n m ⟨k, _, hkn⟩ hnm hm => ?_)).congr fun n => ?_
  · rw [mem_keys_iff hr', look_mapValues] at hm ⊢
    by_contra hn
    exact hg n ⟨by omega, by simpa using hn, m, hnm, by simpa using hm⟩
  · simp [mem_iff_look hr']

theorem within_eq_false (l m : LaneSet) :
    LaneSet.within l m = false ↔ ∃ p, p < 6 ∧ l.getLsbD p = true ∧ m.getLsbD p = false := by
  simp [LaneSet.within, LaneSet.positions, LaneSet.holds]

theorem shoulderOk_eq_false (r : GantryRec) : shoulderOk r = false ↔ (r.lanes.getLsbD 0 = true ↔ r.sec = 0) := by
  unfold shoulderOk LaneSet.holds
  by_cases h : r.sec = 0 <;> cases r.lanes.getLsbD 0 <;> simp [h]

theorem lanesOk_eq_false {gs : Table GantryRec} {r : StationRec} (h : gs.look r.host ≠ none) :
    lanesOk gs r = false ↔
      ∃ q p, gs.look r.host = some q ∧ p < 6 ∧ r.lanes.getLsbD p = true ∧ q.lanes.getLsbD p = false := by
  obtain ⟨g, hg⟩ := Option.ne_none_iff_exists'.1 h
  simp [lanesOk, hg, within_eq_false]

/-- The twelve checks, each with the earlier ones passed (R12). -/
theorem reports_startChecks {s : State} (h : s.Wf) : Reports s.geo s.geo.startChecks := by
  obtain ⟨hg, hs, _, _, _, _, _, hgk, hsk, _⟩ := h.tables
  have noGantry : LeastOf (fun n => s.geo.gantries = [] ∧ n = 0) (if s.geo.gantries = [] then some 0 else none) := by
    split
    · rename_i e
      exact .some ⟨e, rfl⟩ fun m hm => absurd hm (Nat.not_lt_zero m)
    · rename_i e
      exact ⟨nofun, fun _ n hn => e hn.1⟩
  have gantryGap := leastOf_numberingGap hg hgk
  have stationGap := leastOf_numberingGap hs fun n hn => ⟨(hsk n hn).1, (hsk n hn).2.trans (by decide)⟩
  have addresses := (leastOf_repeats (fun r : GantryRec => (r.line, r.address)) hg).congr
    (q := fun n => s.geo.checkFails n .addressShared) fun n => by simp only [Geometry.checkFails, Prod.mk.injEq]
  have shoulders := (leastOf_firstFailing shoulderOk hg).congr
    (q := fun n => s.geo.checkFails n .shoulderPosition) fun n => by simp only [Geometry.checkFails, shoulderOk_eq_false]
  have hosts := (leastOf_firstFailing (hostOk s.geo.gantries) hs).congr
    (q := fun n => s.geo.checkFails n .hostMissing) fun n => by simp only [Geometry.checkFails, hostOk, has_eq_false]
  have lanesNamed := (leastOf_firstFailing (fun r : StationRec => r.lanes != 0) hs).congr
    (q := fun n => s.geo.checkFails n .stationEmpty) fun n => by simp [Geometry.checkFails]
  have lanesPresent (host : ∀ n, ¬s.geo.checkFails n .hostMissing) :=
    (leastOf_firstFailing (lanesOk s.geo.gantries) hs).congr (q := fun n => s.geo.checkFails n .laneNotPresent) fun n => by
      refine exists_congr fun r => ?_
      simp only [exists_and_left]
      refine and_congr_right fun hr => ?_
      simpa using lanesOk_eq_false fun e => host n ⟨r, hr, e⟩
  exact ⟨rfl, noGantry, fun _ => ⟨rfl, gantryGap, fun gap => ⟨rfl, leastOf_order _ hg (gantryGap.2 gap), fun _ =>
    ⟨rfl, addresses, fun _ => ⟨rfl, shoulders, fun _ => ⟨rfl, leastOf_sectionRun hg, fun _ => ⟨rfl, stationGap, fun gap' =>
    ⟨rfl, leastOf_order _ hs (stationGap.2 gap'), fun _ => ⟨rfl, hosts, fun host => ⟨rfl, leastOf_repeats _ hs, fun _ =>
    ⟨rfl, lanesNamed, fun _ => ⟨rfl, lanesPresent (hosts.2 host), fun _ => trivial⟩⟩⟩⟩⟩⟩⟩⟩⟩⟩⟩⟩

theorem mem_startChecks (x : Geometry) (c : StartCheck) : c ∈ x.startChecks.map (·.1) := by
  cases c <;> simp [Geometry.startChecks]

theorem startChecks_pairwise (x : Geometry) : (x.startChecks.map (·.1)).Pairwise fun a b => a.code < b.code := by
  simp only [Geometry.startChecks, List.map_cons, List.map_nil]
  decide

/-- START reports the first check of the table that fails, for the lowest item (R12). -/
theorem firstFailure_startChecks {s : State} (h : s.Wf) :
    (firstFailure s.geo.startChecks = none ↔ ∀ n c, ¬s.geo.checkFails n c) ∧
      ∀ c k n, firstFailure s.geo.startChecks = some (c, k, n) ↔
        k = c.item ∧ s.geo.checkFails n c ∧ (∀ m, m < n → ¬s.geo.checkFails m c) ∧
          ∀ c' m, c'.code < c.code → ¬s.geo.checkFails m c' := by
  have hr := reports_startChecks h
  refine ⟨?_, fun c k n => ?_⟩
  · simp only [firstFailure_none_iff hr, mem_startChecks, true_implies]
  · simp only [firstFailure_some_iff hr (startChecks_pairwise _), mem_startChecks, true_implies, true_and]

end Sys2Proof.Machine
end

section
/-! START: what a passing START leaves behind, and its refusals (O25). -/

namespace Sys2Proof.Machine

/-! ### A node of a START moves on to DESCRIBING (R13, R56) -/

/-- The DESCRIBE entries of the gantries of a line, ascending. -/
def describesOn (gs : Table GantryRec) (l : Line) : List Entry :=
  (gs.filter fun kv => decide (kv.2.line = l)).map fun kv => ⟨kv.1, .describe, .registry, false⟩

/-- A node that a START has moved on to DESCRIBING. -/
def describingNode (now : Clock) (r : GantryRec) : NodeRec :=
  { freshNode now r with state := .describing, step := some .describe }

/-- A line controller of a START that has these DESCRIBEs queued. -/
def LineCtl.describes (c : LineCtl) (es : List Entry) : LineCtl :=
  { c.started with queues := ⟨[], [], [], [], es, []⟩ }

theorem stopPolls_describes (c : LineCtl) (gs : Table GantryRec) (l : Line) (g : Nat) :
    (c.describes (describesOn gs l)).stopPolls g = c.describes (describesOn gs l) := by
  have hk : (describesOn gs l).filter (fun e => e.gantry != g || e.job != .state .routine) = describesOn gs l := by
    refine List.filter_eq_self.2 fun e he => ?_
    obtain ⟨kv, _, rfl⟩ := List.mem_map.1 he
    simp
  simp only [LineCtl.describes, LineCtl.stopPolls, LineCtl.keepIn, Queues.look, Queues.put, hk, List.filter_nil]
  rfl

theorem describes_facts {c d : LineCtl} {es : List Entry} (h : d = c.describes es) :
    { d with queues := c.queues, held := c.held, polls := c.polls, lumenTimer := c.lumenTimer } = c ∧ d.held = [] ∧
      d.polls = [] ∧ d.lumenTimer = some 0 ∧ d.queues = ⟨[], [], [], [], es, []⟩ := by
  subst h
  exact ⟨rfl, rfl, rfl, rfl, rfl⟩

theorem moved_freshNode (now : Clock) (r : GantryRec) :
    (freshNode now r).moved .describing .start none now = describingNode now r := by
  simp [NodeRec.moved, freshNode, describingNode, clearAllFailed]

/-- A fresh rollout record has nothing to forget. -/
theorem forget_freshRollout (n : Nat) : { freshRollout n with commanded := unknown (freshRollout n).commanded
                                                              failed := unknown (freshRollout n).failed } = freshRollout n := by
  simp [freshRollout, unknown]

theorem onLine_fixed {s : State} {l : Line} {f : LineCtl → LineCtl} (h : f (s.line l) = s.line l) : s.onLine l f = s := by
  rw [State.onLine, h, setLine_line]

theorem onLine_frame (s : State) (l : Line) (f : LineCtl → LineCtl) :
    s.onLine l f = { s with lineA := (s.onLine l f).lineA, lineB := (s.onLine l f).lineB } := by cases l <;> rfl

theorem lineOnNode_describing {s : State} {g : Nat} {r : GantryRec} (hr : s.geo.gantries.look g = some r)
    (hl : (s.line r.line).stopPolls g = s.line r.line) (old : NodeState) : s.lineOnNode g old .describing = s :=
  (onLineOf_eq _ hr).trans (onLine_fixed hl)

theorem measureOnNode_describing (s : State) (g : Nat) : s.measureOnNode g .absent .describing = s := by
  unfold State.measureOnNode
  split <;> simp

theorem rolloutOnNode_describing {s : State} {g : Nat} (h : ∀ v, (g, v) ∈ s.rollout → ∃ n, v = freshRollout n) :
    s.rolloutOnNode g .absent .describing = s := by
  have hf : s.rollout.adjust g (fun r => { r with commanded := unknown r.commanded, failed := unknown r.failed }) =
      s.rollout := adjust_eq_self _ _ _ fun v hv => by
    obtain ⟨n, rfl⟩ := h v hv
    exact forget_freshRollout n
  change { s with rollout := s.rollout.adjust g _ } = s
  rw [hf]

/-- A fresh node moves on to DESCRIBING: its NODE_EVENT and its DESCRIBE, and nothing else. -/
theorem changeNode_fresh {s : State} {g : Nat} {r : GantryRec} (hr : s.geo.gantries.look g = some r)
    (hn : s.nodes.look g = some (freshNode s.clock r)) (hl : (s.line r.line).stopPolls g = s.line r.line)
    (ho : ∀ v, (g, v) ∈ s.rollout → ∃ n, v = freshRollout n) :
    s.changeNode g .describing .start none =
      (({ s with nodes := s.nodes.put g (describingNode s.clock r) } : State).raise
        (.nodeEvent g r.line r.address .absent .describing .start none)).onLine r.line
          (LineCtl.deposit .service ⟨g, .describe, .registry, false⟩) := by
  obtain ⟨s3, s4, s5, s6, h3, h4, h5, h6, h7⟩ := changeNode_eq (g := g) (new := .describing) (r := .start) (m := none) hn
  let put : State := { s with nodes := s.nodes.put g (describingNode s.clock r) }
  have h3 : s3 = put.raise (.nodeEvent g r.line r.address .absent .describing .start none) := by
    rw [h3, moved_freshNode]
    change State.nodeNotices g .absent .describing .start none (s.forgetNotice g .describing)
      (State.rolloutOnNode g .absent .describing (State.measureOnNode g .absent .describing
        (State.lineOnNode g .absent .describing put))) = _
    rw [lineOnNode_describing (s := put) hr (by cases h : r.line <;> rw [h] at hl <;> exact hl), measureOnNode_describing,
      rolloutOnNode_describing (s := put) ho]
    simp [State.forgetNotice, State.nodeNotices, State.nodeRecord, Reason.recorded, State.nodeEvent, put, hr]
  have h4 : s4 = s3.onLine r.line (LineCtl.deposit .service ⟨g, .describe, .registry, false⟩) := by
    rw [h4, if_pos rfl, if_neg (by simp [freshNode])]
    refine onLineOf_eq _ ?_
    rw [h3, raise_frame]
    exact hr
  have h5 : s5 = s4 := by rw [h5]; simp [freshNode, State.forgetNotice]
  have h6 : s6 = s5 := by rw [h6]; simp [freshNode]
  rw [h7, if_neg (by simp [freshNode]), h6, h5, h4, h3]

/-! ### All of them, in ascending gantry -/

/-- The state of a START once the nodes of `done` are DESCRIBING. -/
structure Describing (s : State) (done : Table GantryRec) (t : State) : Prop where
  frame : t = { s.begun with
    link := { s.link with notices := t.link.notices, lost := t.link.lost }
    banks := { s.banks with link := t.banks.link }
    nodes := t.nodes
    lineA := t.lineA
    lineB := t.lineB }
  line : ∀ l, t.line l = (s.line l).describes (describesOn done l)
  nodes : ∀ g r, s.geo.gantries.look g = some r →
    t.nodes.look g = some (if g ∈ done.keys then describingNode s.clock r else freshNode s.clock r)

theorem describing_begun (s : State) : Describing s [] s.begun where
  frame := rfl
  line l := by cases l <;> rfl
  nodes g r h := by simp [State.begun, h, Table.keys]

/-- What the nodes' moves leave as `begun` makes it. -/
theorem Describing.kept {s t : State} {done : Table GantryRec} (h : Describing s done t) :
    t.geo = s.begun.geo ∧ t.clock = s.clock ∧ t.measure = s.begun.measure ∧ t.traffic = s.begun.traffic ∧
      t.incidents = [] ∧ t.sections = Shoulder.allClosed ∧ t.plan = s.begun.plan ∧ t.rollout = s.begun.rollout := by
  rw [h.frame]
  exact ⟨rfl, rfl, rfl, rfl, rfl, rfl, rfl, rfl⟩

theorem Describing.step {s t : State} {done : Table GantryRec} {g : Nat} {r : GantryRec} (h : Describing s done t)
    (hr : s.geo.gantries.look g = some r) (hg : g ∉ done.keys) :
    Describing s (done ++ [(g, r)]) (t.changeNode g .describing .start none) := by
  obtain ⟨geo, clock, _, _, _, _, _, rollout⟩ := h.kept
  have hnode := h.nodes g r hr
  rw [if_neg hg, ← clock] at hnode
  rw [changeNode_fresh (r := r) (by rw [geo]; exact hr) hnode (by rw [h.line, stopPolls_describes]) fun v hv => by
    rw [rollout] at hv
    obtain ⟨kv, _, e⟩ := List.mem_map.1 hv
    exact ⟨_, (congrArg Prod.snd e).symm⟩]
  let put : State := { t with nodes := t.nodes.put g (describingNode t.clock r) }
  let u := put.raise (.nodeEvent g r.line r.address .absent .describing .start none)
  have hu : u = { t with link := { t.link with notices := u.link.notices, lost := u.link.lost }
                         banks := { t.banks with link := u.banks.link }, nodes := u.nodes } := by
    have := raise_frame (.nodeEvent g r.line r.address .absent .describing .start none) put
    rwa [raise_nodes]
  have nodes : u.nodes = t.nodes.put g (describingNode s.clock r) := by rw [← clock]; exact raise_nodes ..
  have line (l : Line) : u.line l = (s.line l).describes (describesOn done l) := by
    rw [← h.line l]
    exact (raise_line put _ l).trans (by cases l <;> rfl)
  change Describing s _ (u.onLine r.line (LineCtl.deposit .service ⟨g, .describe, .registry, false⟩))
  constructor
  case frame =>
    rw [onLine_frame, hu, h.frame]
  case line =>
    intro l
    by_cases e : l = r.line
    · subst e
      rw [line_onLine_self, line]
      simp [describesOn, LineCtl.deposit, LineCtl.describes, Queues.look, Queues.put]
    · rw [line_onLine_other _ _ e, line]
      simp [describesOn, Ne.symm e]
  case nodes =>
    intro k q hk
    rw [onLine_nodes, nodes]
    by_cases e : k = g
    · subst e
      obtain rfl : r = q := Option.some.inj (hr.symm.trans hk)
      simp [Table.keys]
    · rw [look_put_other _ _ e, h.nodes k q hk]
      have hmem : k ∈ Table.keys (done ++ [(g, r)]) ↔ k ∈ done.keys := by simp [Table.keys, e]
      simp only [hmem]

theorem describing_all {s : State} (hg : s.geo.gantries.rising = true) (rest : Table GantryRec) :
    ∀ {done : Table GantryRec} {t : State}, s.geo.gantries = done ++ rest → Describing s done t →
      Describing s s.geo.gantries (describeAll rest.keys t) := by
  induction rest with
  | nil =>
    intro done t e h
    rw [e, List.append_nil]
    exact h
  | cons kv rest ih =>
    intro done t e h
    obtain ⟨g, r⟩ := kv
    refine ih (done := done ++ [(g, r)]) (by rw [e]; simp) (h.step (look_of_mem hg (by rw [e]; simp)) ?_)
    rw [rising_iff, e, Table.keys, List.map_append, List.pairwise_append] at hg
    exact fun hm => absurd (hg.2.2 g hm g (by simp)) (Nat.lt_irrefl g)

/-- The state of a passing START: every node DESCRIBING, then a pass triggered. -/
theorem startRun_describing {s : State} (hg : s.geo.gantries.rising = true) :
    ∃ u, Describing s s.geo.gantries u ∧ s.startRun = u.trigger :=
  ⟨_, describing_all hg s.geo.gantries rfl (describing_begun s), rfl⟩

/-! ### Home gantries (R5) -/

theorem firstFailure_eq_none {l : List (StartCheck × ItemKind × Option Nat)} (h : firstFailure l = none)
    {e : StartCheck × ItemKind × Option Nat} (he : e ∈ l) : e.2.2 = none := by
  induction l with
  | nil => cases he
  | cons d l ih =>
    obtain ⟨c, k, o⟩ := d
    cases o with
    | some n => cases h
    | none =>
      obtain rfl | he := List.mem_cons.1 he
      · rfl
      · exact ih h he

theorem pairwise_of_orderBreach {l : List (Nat × Nat)} (h : orderBreach l = none) : l.Pairwise fun a b => a.2 < b.2 := by
  have chain : l.IsChain fun a b => a.2 < b.2 := by
    induction l with
    | nil => exact .nil
    | cons a l ih =>
      cases l with
      | nil => exact .singleton a
      | cons b l =>
        rw [orderBreach] at h
        split at h
        · cases h
        · rename_i hl
          exact .cons_cons (Nat.not_le.1 hl) (ih h)
  exact (List.isChain_iff_pairwise (R := fun a b : Nat × Nat => a.2 < b.2)).1 chain

/-- After START's check 3 no two gantries stand at one chainage. -/
theorem gantry_of_chainage {x : Geometry} (hf : firstFailure x.startChecks = none) {g g' : Nat} {q q' : GantryRec}
    (hg : x.gantries.look g = some q) (hg' : x.gantries.look g' = some q') (e : q.chainage = q'.chainage) : g = g' := by
  have hb : orderBreach (x.gantries.mapValues (·.chainage)) = none :=
    firstFailure_eq_none hf (e := (.gantryOrder, .gantry, _)) (by simp [Geometry.startChecks])
  have nodup : ((x.gantries.mapValues (·.chainage)).map (·.2)).Nodup :=
    List.pairwise_map.2 ((pairwise_of_orderBreach hb).imp fun h => Nat.ne_of_lt h)
  have hm := List.mem_map_of_mem (f := fun kv : Nat × GantryRec => (kv.1, kv.2.chainage)) (mem_of_look hg)
  have hm' := List.mem_map_of_mem (f := fun kv : Nat × GantryRec => (kv.1, kv.2.chainage)) (mem_of_look hg')
  exact congrArg Prod.fst (List.inj_on_of_nodup_map nodup hm hm' e)

theorem look_filterMap {α β : Type} (f : α → Option β) {t : Table α} (hr : t.rising = true) {n : Nat} {v : α}
    (h : t.look n = some v) :
    Table.look (t.filterMap fun kv => (f kv.2).map fun w => (kv.1, w)) n = f v := by
  induction t with
  | nil => cases h
  | cons kv t ih =>
    obtain ⟨k, w⟩ := kv
    obtain ⟨hk, ht⟩ := (rising_cons k w t).1 hr
    rw [look_cons] at h
    rw [List.filterMap_cons]
    split at h
    · rename_i e
      subst e
      obtain rfl := Option.some.inj h
      cases hf : f w with
      | some y => exact (look_cons ..).trans (if_pos rfl)
      | none =>
        refine look_none_of_keys fun hm => ?_
        obtain ⟨y, hy, e⟩ := List.mem_map.1 hm
        obtain ⟨x, hx, e'⟩ := List.mem_filterMap.1 hy
        obtain ⟨z, _, rfl⟩ := Option.map_eq_some_iff.1 e'
        exact absurd (hk x hx) (Nat.not_lt.2 e.le)
    · rename_i e
      cases hf : f w with
      | some y => exact (look_cons ..).trans ((if_neg e).trans (ih ht h))
      | none => exact ih ht h

/-- The home gantry of a station is the one whose chainage is the greatest no greater than its own (R5). -/
theorem deriveHome_iff {x : Geometry} (hg : x.gantries.rising = true) (hs : x.stations.rising = true)
    (hf : firstFailure x.startChecks = none) {st : Nat} {r : StationRec} (hr : x.stations.look st = some r) (g : Nat) :
    x.deriveHome.look st = some g ↔ ∃ q, x.gantries.look g = some q ∧ q.chainage ≤ r.chainage ∧
      ∀ g' q', x.gantries.look g' = some q' → q'.chainage ≤ r.chainage → q'.chainage ≤ q.chainage := by
  have hl : x.deriveHome.look st = atOrUpstream x.gantries r.chainage :=
    look_filterMap (fun r : StationRec => atOrUpstream x.gantries r.chainage) hs hr
  rw [hl, atOrUpstream_eq_some hg]
  refine exists_congr fun q => and_congr_right fun hq => and_congr_right fun _ => forall₂_congr fun g' q' =>
    forall₂_congr fun hq' _ => ⟨fun h => h.elim Nat.le_of_lt fun h => h.1.le, fun h => ?_⟩
  obtain h | h := Nat.lt_or_eq_of_le h
  · exact .inl h
  · exact .inr ⟨h, (gantry_of_chainage hf hq' hq h).le⟩

/-! ### The lanes of a START (R74, R90) -/

theorem look_freshEntry {r : StationRec} {p : Nat} {y : LaneRec} (h : (freshEntry r).lanes.look p = some y) :
    y = freshLane p := by
  obtain ⟨p', _, e⟩ := List.mem_map.1 (mem_of_look h)
  cases e
  rfl

theorem keys_freshEntry (r : StationRec) : (freshEntry r).lanes.keys = LaneSet.positions r.lanes := by
  simp [freshEntry, Table.keys, Function.comp_def]

/-! ### The row START -/

theorem start_run {s : State} {f : Frame} {rest : List Frame} (ht : s.takes 0x05#8 f rest) (hm : s.geo.mode = .setup)
    (hp : f.payload = []) (hf : firstFailure s.geo.startChecks = none) :
    exec .start s =
      .next ((State.startRun { s with link := { s.link with rxQueue := rest } }).placeReply f .ok .none) := by
  have ha : handleStart { s with link := { s.link with rxQueue := rest } } f.payload =
      accept (State.startRun { s with link := { s.link with rxQueue := rest } }) := by
    simp only [handleStart, hm, hp, hf]
    rfl
  exact takeRequest_answer ht rfl ha

theorem start_badConfig {s : State} {f : Frame} {rest : List Frame} {c : StartCheck} {k : ItemKind} {n : Nat}
    (ht : s.takes 0x05#8 f rest) (hm : s.geo.mode = .setup) (hp : f.payload = [])
    (hf : firstFailure s.geo.startChecks = some (c, k, n)) :
    exec .start s = .next (s.answered f rest .badConfig (.badConfig k n c)) := by
  refine takeRequest_refused handleStart ht rfl ?_
  simp only [handleStart, hm, hp, hf]
  rfl

theorem start_badLength {s : State} {f : Frame} {rest : List Frame} (ht : s.takes 0x05#8 f rest)
    (hm : s.geo.mode = .setup) (hp : f.payload ≠ []) : exec .start s = .next (s.answered f rest .badLength .none) := by
  refine takeRequest_refused handleStart ht rfl ?_
  obtain ⟨b, bs, hb⟩ := List.exists_cons_of_ne_nil hp
  simp only [handleStart, hm, hb]
  rfl

/-- Settles O25: the blocks of a passing START from `startRun_describing`, the checks from `firstFailure_startChecks`. -/
theorem startEntersRun : Obligations.StartEntersRun := by
  refine ⟨?_, fun s f rest c k n ht hm hp hf => start_badConfig ht hm hp hf,
    fun s f rest ht hm hp => start_badLength ht hm hp, fun s h => firstFailure_startChecks h⟩
  intro s f rest ht hm hp hg hs hf
  have e := start_run ht hm hp hf
  obtain ⟨u, hu, hr⟩ := startRun_describing (s := { s with link := { s.link with rxQueue := rest } }) hg
  obtain ⟨geo, clock, measure, traffic, incidents, sections, plan, rollout⟩ := hu.kept
  obtain ⟨hrun, hagain, -, hdem, htar⟩ := trigger_run (s := u) (by rw [geo]; rfl)
  have idle : u.plan.running = none := by rw [plan]; rfl
  rw [hr] at e
  refine ⟨_, e, ?_⟩
  rw [trigger_frame]
  refine ⟨by rw [geo]; rfl, by rw [geo]; rfl, by rw [geo]; rfl, by rw [geo]; rfl, by rw [geo]; rfl, fun st r g hst => ?_,
    fun g => ?_, clock, rfl, incidents, sections, by rw [plan]; rfl, by rw [plan]; rfl, hrun, ?_, by rw [measure]; rfl, ?_,
    fun st r hst => ?_, traffic, fun g r hgr => ⟨?_, ?_⟩, fun l => ?_⟩
  · rw [geo]
    exact deriveHome_iff hg hs hf hst g
  · rw [geo]
    exact deriveContin_iff hg ..
  · exact (hagain idle).trans (by rw [plan]; rfl)
  · rw [measure]
    exact keys_mapValues ..
  · refine ⟨freshEntry r, by rw [measure]; simp [State.begun, hst], rfl, keys_freshEntry r, fun p y hy => ?_⟩
    exact look_freshEntry hy
  · rw [rollout]
    simp [State.begun, hgr]
  · have hm : g ∈ s.geo.gantries.keys := List.mem_map_of_mem (mem_of_look hgr)
    refine (hu.nodes g r hgr).trans ?_
    rw [if_pos hm]
    rfl
  · cases l
    · exact describes_facts (hu.line .a)
    · exact describes_facts (hu.line .b)

end Sys2Proof.Machine
end

section
/-! The interval close: silent tests, results, the closes of the stations, and the next interval (O54). -/

namespace Sys2Proof.Machine

/-! ### The lanes of a station at a close (R87, R89, R94, R95) -/

/-- The silent test of a lane, with its inclusion spelt out (R89). -/
theorem becomesSilent_eq (m : MeasureParams) (en : StationEntry) (kv : Nat × LaneRec) :
    becomesSilent m en.nodeCond en.lanes kv = en.silentNow m kv.1 kv.2 := by
  simp only [becomesSilent, otherFlow, StationEntry.silentNow, LaneRec.faulty, LaneRec.included, Bool.and_assoc]
  rfl

/-- A lane after the silent test. -/
def StationEntry.tested (m : MeasureParams) (en : StationEntry) (p : Nat) (l : LaneRec) : LaneRec :=
  if en.silentNow m p l then l.silence else l

theorem silenceLanes_eq (m : MeasureParams) (en : StationEntry) :
    silenceLanes m en = en.lanes.map fun kv => (kv.1, en.tested m kv.1 kv.2) := by
  refine List.map_congr_left fun kv _ => ?_
  rw [becomesSilent_eq, StationEntry.tested]
  split <;> rfl

/-- The results handed over are those of the lanes after the silent test (R94). -/
theorem results_eq (m : MeasureParams) (en : StationEntry) :
    en.results m = (silenceLanes m en).map (laneResult (m.interval * 1000)) := by
  rw [silenceLanes_eq, List.map_map]
  refine List.map_congr_left fun kv _ => ?_
  simp only [Function.comp, StationEntry.tested]
  cases h : en.silentNow m kv.1 kv.2 <;>
    simp [laneResult, LaneRec.silence, LaneRec.closeStatus, LaneRec.included]

/-- A lane is FAULTY exactly while a reason is present (R87). -/
theorem faulty_iff (l : LaneRec) (nodeCond : Bool) :
    l.faulty nodeCond = true ↔ l.reasons nodeCond ≠ ⟨false, false, false⟩ := by
  unfold LaneRec.faulty LaneRec.reasons
  grind

/-- What the next interval of a lane starts with (R87, R95). -/
theorem nextInterval_tested (m : MeasureParams) (en : StationEntry) (p : Nat) (l : LaneRec) (sh : Bool) :
    ∃ y, y = (en.tested m p l).nextInterval en.nodeCond sh ∧
      y.acc = ⟨0, 0, 0, 0, 0, 0, 0, 0, 0, 0⟩ ∧ y.suspect = false ∧ y.implausible = false ∧ y.machine = l.machine ∧
      y.loopA = l.loopA ∧ y.loopB = l.loopB ∧ y.shoulderExcluded = sh ∧
      (y.silent = true ↔ l.silent = true ∨ en.silentNow m p l = true) ∧
      (y.lastIncluded = true ↔ l.excluded = false ∧ l.shoulderExcluded = false ∧ ¬en.silentNow m p l = true) ∧
      y.seen = ⟨l.loopA.stuck || l.loopB.stuck, y.silent, en.nodeCond⟩ ∧
      (y.excluded = true ↔ y.seen ≠ ⟨false, false, false⟩) := by
  refine ⟨_, rfl, ?_⟩
  have hx := faulty_iff (en.tested m p l) en.nodeCond
  unfold StationEntry.tested at hx ⊢
  cases h : en.silentNow m p l <;> rw [h] at hx
  · exact ⟨rfl, rfl, rfl, rfl, rfl, rfl, rfl, by simp [LaneRec.nextInterval],
      by simp [LaneRec.nextInterval, LaneRec.included], rfl, hx⟩
  · exact ⟨rfl, rfl, rfl, rfl, rfl, rfl, rfl, by simp [LaneRec.nextInterval, LaneRec.silence],
      by simp [LaneRec.nextInterval, LaneRec.silence, LaneRec.included], rfl, hx⟩

/-- The silent test in the words of R89. -/
theorem silentNow_iff (m : MeasureParams) (en : StationEntry) (p : Nat) (l : LaneRec) :
    en.silentNow m p l = true ↔ l.faulty en.nodeCond = false ∧ l.shoulderExcluded = false ∧ l.loopA.high = false ∧
      m.silentMarks ≤ l.loopA.held ∧
      m.silentFlow ≤ ((en.lanes.filter fun kv => kv.1 != p && !kv.2.excluded && !kv.2.shoulderExcluded).map
        fun kv => kv.2.acc.count).sum * 3600000 / (m.interval * 1000) := by
  simp only [StationEntry.silentNow, LaneRec.faulty, Bool.and_eq_true, Bool.not_eq_true', decide_eq_true_eq, and_assoc]

/-- Position 0 alone can be the shoulder, and is out of use unless its section is OPENED (R92). -/
theorem shoulderOut_iff {s : State} {st p : Nat} :
    (s.shoulderOut st p = true → p = 0) ∧
      (p = 0 → ∀ r h, s.geo.stations.look st = some r → s.geo.gantries.look r.host = some h →
        (s.shoulderOut st p = true ↔ s.sections.look h.sec ≠ some .opened)) := by
  constructor
  · intro h
    simp only [State.shoulderOut, Bool.and_eq_true, beq_iff_eq] at h
    exact h.1
  · intro hp r h hr hh
    simp [State.shoulderOut, hp, hr, hh]

/-! ### What the closes do not read -/

/-- The state with other free values and another measurement unit. -/
def State.aside (n : Nat) (m : Measure) (s : State) : State := { s with freeCount := n, measure := m }

theorem raise_aside (n : Nat) (m : Measure) (b : NoticeBody) (s : State) :
    (s.aside n m).raise b = (s.raise b).aside n m := by
  unfold State.raise State.aside
  dsimp only
  split
  · rfl
  · split <;> rfl

theorem record_aside (n : Nat) (m : Measure) (id : BankId) (c : ErrorCode) (v : Severity) (g st : Option Nat) (s : State) :
    (s.aside n m).record id c v g st = (s.record id c v g st).aside n m :=
  raise_aside n m _ { s with banks := s.banks.put id ((s.banks.look id).take ⟨v, c, g, st, s.clock⟩).1 }

/-- The record of a station after its close (R97). -/
def closedStation (p : Params) (adjust : Bool) (ls : List LaneResult) (t0 : StationState) : StationState :=
  let t := if adjust then adjustLevel p.congestion t0 else t0
  if (stationSums ls).lanes != 0 then validClose p (stationSums ls) t else invalidClose t

/-- What a close leaves and makes known once the station's record is `x` (R97, R108). -/
def State.stationClosed (ie : Clock) (st : Nat) (ls : List LaneResult) (x : StationState) (s : State) : State :=
  let s1 := { s with traffic := s.traffic.put st x }
  (if ((stationSums ls).lanes != 0) = false ∧ x.invalidCloses = 3 then s1.measureError .stationInvalid .fault st else s1).raise
    (.stationReport st ie (ls.map (·.report)) x)

theorem closeStation_none {s : State} {st : Nat} (h : s.traffic.look st = none) (adjust : Bool) (ie : Clock)
    (ls : List LaneResult) : s.closeStation adjust ie st ls = s := by
  simp [State.closeStation, h]

theorem closeStation_some {s : State} {st : Nat} {t0 : StationState} (h : s.traffic.look st = some t0) (adjust : Bool)
    (ie : Clock) (ls : List LaneResult) :
    s.closeStation adjust ie st ls = s.stationClosed ie st ls (closedStation s.geo.params adjust ls t0) := by
  simp only [State.closeStation, h]
  rfl

theorem stationClosed_aside (n : Nat) (m : Measure) (ie : Clock) (st : Nat) (ls : List LaneResult) (x : StationState)
    (s : State) : (s.aside n m).stationClosed ie st ls x = (s.stationClosed ie st ls x).aside n m := by
  let s1 := { s with traffic := s.traffic.put st x }
  have h1 : State.measureError .stationInvalid .fault st (s1.aside n m) =
      (s1.measureError .stationInvalid .fault st).aside n m := record_aside ..
  unfold State.stationClosed
  by_cases h : ((stationSums ls).lanes != 0) = false ∧ x.invalidCloses = 3
  · simp only [if_pos h]
    exact (congrArg _ h1).trans (raise_aside ..)
  · simp only [if_neg h]
    exact raise_aside n m _ s1

theorem closeStation_aside (n : Nat) (m : Measure) (adjust : Bool) (ie : Clock) (st : Nat) (ls : List LaneResult) (s : State) :
    (s.aside n m).closeStation adjust ie st ls = (s.closeStation adjust ie st ls).aside n m := by
  cases h : s.traffic.look st with
  | none => rw [closeStation_none h, closeStation_none (s := s.aside n m) h]
  | some t0 =>
    rw [closeStation_some h, closeStation_some (s := s.aside n m) h]
    exact stationClosed_aside ..

/-! ### What the closes leave unchanged -/

/-- Only the link, the traffic state and the banks can differ. -/
def ReportsOnly (s t : State) : Prop := t = { s with link := t.link, traffic := t.traffic, banks := t.banks }

theorem ReportsOnly.trans {s t u : State} (h : ReportsOnly s t) (k : ReportsOnly t u) : ReportsOnly s u := by
  unfold ReportsOnly at h k ⊢
  refine k.trans ?_
  rw [h]

theorem reportsOnly_record (id : BankId) (c : ErrorCode) (v : Severity) (g st : Option Nat) (s : State) :
    ReportsOnly s (s.record id c v g st) := by
  have h := record_frame id c v g st s
  unfold ReportsOnly
  rw [h]

theorem reportsOnly_raise (b : NoticeBody) (s : State) : ReportsOnly s (s.raise b) := by
  have h := raise_frame b s
  unfold ReportsOnly
  rw [h]

theorem reportsOnly_closeStation (adjust : Bool) (ie : Clock) (st : Nat) (ls : List LaneResult) (s : State) :
    ReportsOnly s (s.closeStation adjust ie st ls) := by
  cases h : s.traffic.look st with
  | none => rw [closeStation_none h]; rfl
  | some t0 =>
    rw [closeStation_some h]
    refine ReportsOnly.trans ?_ (reportsOnly_raise _ _)
    split
    · exact ReportsOnly.trans (t := { s with traffic := _ }) rfl (reportsOnly_record ..)
    · rfl

theorem reportsOnly_foldl {α : Type} {f : State → α → State} (h : ∀ s x, ReportsOnly s (f s x)) (xs : List α) (s : State) :
    ReportsOnly s (xs.foldl f s) := by
  induction xs generalizing s with
  | nil => rfl
  | cons x xs ih => exact (h s x).trans (ih _)

/-! ### A SILENT record stays in MEASURE -/

theorem held_closeStation {id : BankId} (adjust : Bool) (ie : Clock) (st : Nat) (ls : List LaneResult) {s : State}
    (h : (s.banks.look id).held ≠ none) : ((s.closeStation adjust ie st ls).banks.look id).held ≠ none := by
  cases ht : s.traffic.look st with
  | none => rwa [closeStation_none ht]
  | some t0 =>
    rw [closeStation_some ht]
    refine raise_held _ _ id ?_
    split
    · exact record_keeps_held _ _ _ _ _ _ id h
    · exact h

theorem held_foldl {α : Type} {id : BankId} {f : State → α → State}
    (hf : ∀ s x, (s.banks.look id).held ≠ none → ((f s x).banks.look id).held ≠ none) (xs : List α) {s : State}
    (h : (s.banks.look id).held ≠ none) : ((xs.foldl f s).banks.look id).held ≠ none := by
  induction xs generalizing s with
  | nil => exact h
  | cons x xs ih => exact ih (hf s x h)

/-! ### The close as the statement says it -/

/-- A SILENT record of a station (R89). -/
def State.silentRecord (gs : Table StationRec) (s : State) (st : Nat) : State :=
  s.record .measure .silent .fault ((gs.look st).map fun r => r.host) (some st)

theorem recordSilent_aside (n : Nat) (m : Measure) (sts : List Nat) (gs : Table StationRec) (s : State)
    (h : s.geo.stations = gs) : recordSilent sts (s.aside n m) = (sts.foldl (State.silentRecord gs) s).aside n m := by
  induction sts generalizing s with
  | nil => rfl
  | cons st sts ih =>
    have hr : State.measureError .silent .fault st (s.aside n m) = (s.silentRecord gs st).aside n m := by
      subst h
      exact record_aside ..
    rw [recordSilent, hr, List.foldl_cons]
    refine ih _ ?_
    rw [State.silentRecord, record_frame]
    exact h

theorem closeStations_aside (n : Nat) (m : Measure) (adjust : Bool) (ie : Clock) (xs : List (Nat × List LaneResult))
    (s : State) : closeStations adjust ie xs (s.aside n m) =
      (xs.foldl (fun w x => w.closeStation adjust ie x.1 x.2) s).aside n m := by
  induction xs generalizing s with
  | nil => rfl
  | cons x xs ih =>
    rw [List.foldl_cons, ← ih]
    exact congrArg (closeStations adjust ie xs) (closeStation_aside ..)

/-- The measurement unit after the silent tests. -/
def State.testedMeasure (s : State) : Measure :=
  { s.measure with stations := s.measure.stations.mapValues fun en =>
      { en with lanes := silenceLanes s.geo.params.measure en } }

/-- The silent tests make their records, in some order, and mark the lanes. -/
theorem silentTests_eq (s : State) : ∃ (quiet : List Nat) (n : Nat),
    quiet.Perm (s.measure.stations.flatMap fun kv =>
      (kv.2.lanes.filter fun x => kv.2.silentNow s.geo.params.measure x.1 x.2).map fun _ => kv.1) ∧
    s.silentTests = (quiet.foldl (State.silentRecord s.geo.stations) s).aside n s.testedMeasure := by
  let d := (s.aside s.freeCount s.testedMeasure).anyOrder (silentErrors s.geo.params.measure s.measure.stations)
  refine ⟨d.1, d.2.freeCount, ?_, ?_⟩
  · refine (anyOrder_perm ..).trans (.of_eq ?_)
    simp only [silentErrors, becomesSilent_eq]
  · have hd : d.2 = s.aside d.2.freeCount s.testedMeasure := anyOrder_state ..
    change recordSilent d.1 d.2 = _
    rw [hd]
    exact recordSilent_aside _ _ _ _ _ rfl

/-! ### Tables changed record by record -/

theorem look_mapKeyed {α β : Type} (t : Table α) (f : Nat → α → β) (n : Nat) :
    Table.look (t.map fun kv => (kv.1, f kv.1 kv.2)) n = (t.look n).map (f n) := by
  induction t with
  | nil => rfl
  | cons kv t ih =>
    obtain ⟨k, v⟩ := kv
    simp only [List.map_cons, look_cons, ih]
    split
    · rename_i e
      rw [e]
      rfl
    · rfl

theorem keys_mapKeyed {α β : Type} (t : Table α) (f : Nat → α → β) :
    Table.keys (t.map fun kv => (kv.1, f kv.1 kv.2)) = t.keys := by
  simp [Table.keys, Function.comp_def]

/-- The entry of a station in the next interval (R89, R95). -/
def State.nextEntry (s : State) (st : Nat) (en : StationEntry) : StationEntry :=
  { en with lanes := en.lanes.map fun lv =>
      (lv.1, (en.tested s.geo.params.measure lv.1 lv.2).nextInterval en.nodeCond (s.shoulderOut st lv.1)) }

theorem shoulderOut_congr {s w : State} (hs : w.geo.stations = s.geo.stations) (hg : w.geo.gantries = s.geo.gantries)
    (hc : w.sections = s.sections) (st p : Nat) : w.shoulderOut st p = s.shoulderOut st p := by
  unfold State.shoulderOut
  rw [hs, hg, hc]

theorem nextInterval_measure {s w : State} (hm : w.measure = s.testedMeasure) (hs : w.geo.stations = s.geo.stations)
    (hg : w.geo.gantries = s.geo.gantries) (hc : w.sections = s.sections) :
    w.nextInterval.measure = ⟨some 0, s.measure.stations.map fun kv => (kv.1, s.nextEntry kv.1 kv.2)⟩ := by
  simp only [State.nextInterval, hm, State.testedMeasure, Table.mapValues, List.map_map, Function.comp_def, State.nextEntry,
    silenceLanes_eq, shoulderOut_congr hs hg hc]

/-- An interval close: records of the silent tests, closes of the stations, a trigger, and the next interval. -/
theorem closeInterval_eq (s : State) : ∃ (quiet : List Nat) (n : Nat) (u : State),
    quiet.Perm (s.measure.stations.flatMap fun kv =>
      (kv.2.lanes.filter fun x => kv.2.silentNow s.geo.params.measure x.1 x.2).map fun _ => kv.1) ∧
    u = s.measure.stations.foldl (fun (w : State) kv =>
        w.closeStation s.geo.waiting.congestion.isSome s.clock kv.1 (kv.2.results s.geo.params.measure))
      { quiet.foldl (State.silentRecord s.geo.stations) s with geo := s.applyWaiting.geo } ∧
    ReportsOnly s.applyWaiting u ∧ s.closeInterval = (u.aside n s.testedMeasure).trigger.nextInterval := by
  obtain ⟨quiet, n, hq, e⟩ := silentTests_eq s
  have hv := reportsOnly_foldl (f := State.silentRecord s.geo.stations) (fun s x => reportsOnly_record ..) quiet s
  let v := quiet.foldl (State.silentRecord s.geo.stations) s
  have hg : v.applyWaiting = { v with geo := s.applyWaiting.geo } := by
    have : v.geo = s.geo := by rw [show v = _ from hv]
    simp only [State.applyWaiting, this]
  refine ⟨quiet, n, _, hq, rfl, ?_, ?_⟩
  · refine ReportsOnly.trans ?_ (reportsOnly_foldl (fun s x => reportsOnly_closeStation ..) _ _)
    change ReportsOnly s.applyWaiting { v with geo := s.applyWaiting.geo }
    rw [show v = _ from hv]
    rfl
  · have hr : (s.testedMeasure.stations.map fun kv => (kv.1, kv.2.lanes.map (laneResult (s.geo.params.measure.interval * 1000)))) =
        s.measure.stations.map fun kv => (kv.1, kv.2.results s.geo.params.measure) := by
      simp only [State.testedMeasure, Table.mapValues, List.map_map, Function.comp_def, results_eq]
    have hc := closeStations_aside n s.testedMeasure s.geo.waiting.congestion.isSome s.clock
      (s.measure.stations.map fun kv => (kv.1, kv.2.results s.geo.params.measure)) v.applyWaiting
    rw [List.foldl_map, ← hr, hg] at hc
    rw [← hc, ← hg]
    simp only [State.closeInterval, e]
    rfl

/-- A lane of the next interval, with what the silent test said of it. -/
theorem look_nextEntry {s : State} {st : Nat} {en : StationEntry} {p : Nat} {y : LaneRec}
    (h : (s.nextEntry st en).lanes.look p = some y) : ∃ y0, en.lanes.look p = some y0 ∧
      y = (en.tested s.geo.params.measure p y0).nextInterval en.nodeCond (s.shoulderOut st p) := by
  rw [State.nextEntry, look_mapKeyed en.lanes fun p l =>
    (en.tested s.geo.params.measure p l).nextInterval en.nodeCond (s.shoulderOut st p)] at h
  obtain ⟨y0, h0, e⟩ := Option.map_eq_some_iff.1 h
  exact ⟨y0, h0, e.symm⟩

theorem keys_nextEntry (s : State) (st : Nat) (en : StationEntry) : (s.nextEntry st en).lanes.keys = en.lanes.keys :=
  keys_mapKeyed en.lanes fun p l => (en.tested s.geo.params.measure p l).nextInterval en.nodeCond (s.shoulderOut st p)

/-- The fields an interval close can change: those of the closes, the measurement unit, and the pass. -/
theorem closeInterval_fields {s u : State} {n : Nat} (hm : s.geo.mode = .run) (hr : ReportsOnly s.applyWaiting u)
    (e : s.closeInterval = (u.aside n s.testedMeasure).trigger.nextInterval) :
    s.closeInterval = { u with freeCount := n, plan := s.closeInterval.plan, measure := s.closeInterval.measure } ∧
      s.closeInterval.measure = ⟨some 0, s.measure.stations.map fun kv => (kv.1, s.nextEntry kv.1 kv.2)⟩ ∧
      s.closeInterval.plan.running ≠ none ∧ s.closeInterval.plan.demands = s.plan.demands ∧
      s.closeInterval.plan.targets = s.plan.targets := by
  have geo : u.geo = s.applyWaiting.geo := by rw [hr]
  have sections : u.sections = s.sections := by rw [hr]; rfl
  have plan : u.plan = s.plan := by rw [hr]; rfl
  refine ⟨by rw [e, trigger_frame]; rfl, ?_, ?_⟩
  · rw [e]
    refine nextInterval_measure ?_ ?_ ?_ ?_ <;> rw [trigger_frame]
    · rfl
    · change u.geo.stations = _
      rw [geo]
      rfl
    · change u.geo.gantries = _
      rw [geo]
      rfl
    · exact sections
  · have run : (u.aside n s.testedMeasure).geo.mode = .run := by
      change u.geo.mode = _
      rw [geo]
      exact hm
    obtain ⟨hrun, -, -, hdem, htar⟩ := trigger_run run
    rw [e]
    exact ⟨hrun, hdem.trans (congrArg Plan.demands plan), htar.trans (congrArg Plan.targets plan)⟩

/-- A lane that becomes silent is among the records of its close. -/
theorem quiet_ne_nil {m : MeasureParams} {es : Table StationEntry} {quiet : List Nat}
    (h : quiet.Perm (es.flatMap fun kv => (kv.2.lanes.filter fun x => kv.2.silentNow m x.1 x.2).map fun _ => kv.1))
    {st p : Nat} {en : StationEntry} {y : LaneRec} (hen : es.look st = some en) (hy : en.lanes.look p = some y)
    (ht : en.silentNow m p y = true) : quiet ≠ [] := by
  refine List.ne_nil_of_mem (h.mem_iff.2 (List.mem_flatMap.2 ⟨(st, en), mem_of_look hen, ?_⟩) : st ∈ quiet)
  exact List.mem_map.2 ⟨(p, y), List.mem_filter.2 ⟨mem_of_look hy, ht⟩, rfl⟩

/-- MEASURE holds an error once a SILENT record was made. -/
theorem held_silentRecords {quiet : List Nat} (h : quiet ≠ []) (gs : Table StationRec) (s : State) :
    ((quiet.foldl (State.silentRecord gs) s).banks.look .measure).held ≠ none := by
  obtain ⟨st, sts, rfl⟩ := List.exists_cons_of_ne_nil h
  have first : ((s.silentRecord gs st).banks.look .measure).held ≠ none :=
    record_held _ _ _ _ _ _
  exact held_foldl (fun w x hw => record_keeps_held _ _ _ _ _ w .measure hw) sts first

/-- Settles O54: the blocks from `closeInterval_fields`, the lanes from `nextInterval_tested`. -/
theorem intervalCloseStartsNext : Obligations.IntervalCloseStartsNext := by
  intro s ms _ hh hm ht hd
  obtain ⟨quiet, n, u, hq, hu, hr, e⟩ := closeInterval_eq s
  obtain ⟨hfields, hmeasure, hrun, hdem, htar⟩ := closeInterval_fields hm hr e
  have hdue : s.intervalDue = true := by simp [State.intervalDue, ht, hd]
  have hexec : exec .intervalClose s = .next s.closeInterval :=
    (whenRunning_eq hh _).trans (by rw [if_pos hdue])
  have geo : s.closeInterval.geo = s.applyWaiting.geo := by rw [hfields, hr]
  have traffic : s.closeInterval.traffic = u.traffic := by rw [hfields]
  have link : s.closeInterval.link = u.link := by rw [hfields]
  have banks : s.closeInterval.banks = u.banks := by rw [hfields]
  have station (st : Nat) : s.closeInterval.measure.stations.look st = (s.measure.stations.look st).map (s.nextEntry st) := by
    rw [hmeasure]
    exact look_mapKeyed ..
  refine ⟨_, hexec, by rw [hmeasure], hrun, geo, ⟨quiet, hq, ?_⟩, ?_, ?_, ?_, ?_⟩
  · rw [traffic, link, banks, geo, hu]
    exact ⟨rfl, rfl, rfl⟩
  · rw [hmeasure]
    exact keys_mapKeyed ..
  · intro st en0 h0
    exact ⟨s.nextEntry st en0, by rw [station, h0]; rfl, rfl, keys_nextEntry ..⟩
  · intro st en p y hen hy
    rw [station] at hen
    obtain ⟨en0, h0, rfl⟩ := Option.map_eq_some_iff.1 hen
    obtain ⟨y0, hy0, rfl⟩ := look_nextEntry hy
    obtain ⟨_, rfl, hacc, hsus, himp, hmach, ha, hb, hsh, hsil, hinc, hseen, hexc⟩ :=
      nextInterval_tested s.geo.params.measure en0 p y0 (s.shoulderOut st p)
    rw [silentNow_iff] at hsil hinc
    refine ⟨hacc, hsus, himp, en0, y0, h0, hy0, hmach, ha, hb, rfl, hsil, fun test => ?_, hinc, hseen, hexc, ?_⟩
    · rw [banks, hu]
      have := quiet_ne_nil hq h0 hy0 ((silentNow_iff ..).2 test)
      exact held_foldl (fun w x hk => held_closeStation _ _ _ _ hk) _ (held_silentRecords this _ s)
    · rw [hsh]
      exact shoulderOut_iff
  · refine ⟨?_, ?_, ?_, ?_, hdem, htar, ?_, ?_, ?_⟩ <;> rw [hfields, hr] <;> rfl

end Sys2Proof.Machine
end

section
/-! Every step gives a next state (O4), and what the taking of a request changes (O11). -/

namespace Sys2Proof.Machine

/-! ### Every row gives a next state -/

theorem takeRequest_next (fits : Byte → Bool) (h : State → List Byte → Answer) (s : State) :
    ∃ t, takeRequest fits h s = .next t := by
  unfold takeRequest
  split <;> exact ⟨_, rfl⟩

theorem whenRunning_next (s : State) (f : State → State) : ∃ t, whenRunning s f = .next t := by
  unfold whenRunning
  split <;> exact ⟨_, rfl⟩

/-- No row stops: a request is taken or left, an event acts or has no effect. -/
theorem exec_next (c : Instr) (s : State) : ∃ t, exec c s = .next t := by
  cases c with
  | powerOn | resetN => exact ⟨_, rfl⟩
  | unknownType | identify | defineGantry | defineStation | setParameters | start | stop | reset | raiseIncident
  | amendIncident | clearIncident | confirmIncident | placeDemand | withdrawDemand | shoulder | gantryService
  | stationReset | luminance | readGantry | readStation | readIncidents | readNode | readFaults =>
    exact takeRequest_next ..
  | showAccepted | stateReply | traceReply | describeReply | capsReply | sent | lineQuietEnd | confirmDue | lumenRepeat
  | passComplete =>
    simp only [exec, execShowAccepted, execStateReply, execTraceReply, execDescribeReply, execCapsReply, execSent,
      execLineQuietEnd, execConfirmDue, execLumenRepeat, execPassComplete, whenRunning_next]
  | _ => exact whenRunning_next ..

/-- Settles O4: on an empty queue a millisecond passes, and every command gives a next state. -/
theorem noStepStops : Obligations.NoStepStops := by
  intro s
  unfold State.Safe step
  split
  · exact ⟨_, rfl⟩
  · exact exec_next ..

/-! ### Honest answers (R25, R26) -/

/-- An answer that leaves the receive queue to the taking of the request, and changes nothing where it refuses. -/
structure Answer.Honest (s : State) (a : Answer) : Prop where
  rxQueue : a.state.link.rxQueue = s.link.rxQueue
  refused : a.result ≠ .ok → a.result ≠ .okClamped → a.state = s

/-- An answer that changes nothing. -/
theorem Answer.Honest.of_same {s : State} {a : Answer} (h : a.state = s) : a.Honest s :=
  ⟨by rw [h], fun _ _ => h⟩

theorem honest_refuse (s : State) (r : Result) : (refuse s r).Honest s := .of_same rfl

/-- An answer of OK that leaves the receive queue alone. -/
theorem honest_ok {s : State} {a : Answer} (k : a.result = .ok) (h : a.state.link.rxQueue = s.link.rxQueue) :
    a.Honest s :=
  ⟨h, fun x _ => absurd k x⟩

/-- The same of OK_CLAMPED. -/
theorem honest_clamped {s : State} {a : Answer} (k : a.result = .okClamped)
    (h : a.state.link.rxQueue = s.link.rxQueue) : a.Honest s :=
  ⟨h, fun _ x => absurd k x⟩

/-- A block whose answers keep the receive queue refuses without a change where its result is no OK. -/
theorem honest_of_cases {s : State} {a : Answer} (h : a.state.link.rxQueue = s.link.rxQueue)
    (k : a.state = s ∨ a.result = .ok ∨ a.result = .okClamped) : a.Honest s :=
  ⟨h, fun h1 h2 => (k.resolve_right fun x => x.elim h1 h2)⟩

/-- A request whose block answers honestly leaves the queue, and its reply stands in the reply slot. -/
theorem takeRequest_honest {s : State} {ty : Byte} {f : Frame} {rest : List Frame} {fits : Byte → Bool}
    {h : State → List Byte → Answer} (ht : s.takes ty f rest) (hf : fits ty = true) (hh : ∀ u p, (h u p).Honest u) :
    ∃ t r d, takeRequest fits h s = .next t ∧ t.link.rxQueue = rest ∧
      t.link.replySlot = some ⟨ty ||| 0x80#8, f.tag, r, d⟩ ∧
      (r ≠ .ok → r ≠ .okClamped → t = s.answered f rest r d) := by
  obtain ⟨hq, hr⟩ := hh { s with link := { s.link with rxQueue := rest } } f.payload
  obtain ⟨_, _, _, _, rfl⟩ := id ht
  exact ⟨_, _, _, takeRequest_taken h ht hf, hq, rfl, fun h1 h2 => by rw [hr h1 h2]; rfl⟩

/-! ### The blocks answer honestly -/

theorem honest_defineGantry (s : State) (p : List Byte) : (handleDefineGantry s p).Honest s := by
  unfold handleDefineGantry
  repeat' split
  all_goals first
    | exact honest_refuse ..
    | exact honest_ok rfl rfl

theorem honest_defineStation (s : State) (p : List Byte) : (handleDefineStation s p).Honest s := by
  unfold handleDefineStation
  repeat' split
  all_goals first
    | exact honest_refuse ..
    | exact honest_ok rfl rfl

/-- Storing a group leaves the receive queue alone. -/
theorem storeGroup_rxQueue (v : GroupValue) (s : State) : (s.storeGroup v).link.rxQueue = s.link.rxQueue := by
  unfold State.storeGroup
  split
  case h_5 => exact (inner_planInRun ..).rxQueue
  all_goals rfl

theorem honest_setParameters (s : State) (p : List Byte) : (handleSetParameters s p).Honest s := by
  unfold handleSetParameters
  repeat' split
  all_goals first
    | exact honest_refuse ..
    | exact honest_ok rfl (storeGroup_rxQueue ..)
    | exact honest_clamped rfl (storeGroup_rxQueue ..)

theorem honest_start (s : State) (p : List Byte) : (handleStart s p).Honest s := by
  unfold handleStart
  repeat' split
  · exact honest_refuse ..
  · exact honest_refuse ..
  · exact .of_same rfl
  · exact honest_ok rfl (inner_startRun s).rxQueue

theorem honest_stop (s : State) (p : List Byte) : (handleStop s p).Honest s := by
  unfold handleStop
  repeat' split
  · exact honest_refuse ..
  · exact honest_refuse ..
  · exact honest_ok rfl rfl

theorem honest_reset (s : State) (p : List Byte) : (handleReset s p).Honest s := by
  unfold handleReset
  split
  · exact honest_refuse ..
  · exact honest_ok rfl rfl

theorem honest_raiseIncident (s : State) (p : List Byte) : (handleRaiseIncident s p).Honest s := by
  refine honest_of_cases (inner_raiseIncident s p).rxQueue ?_
  unfold handleRaiseIncident
  repeat' split
  all_goals simp [refuse]

theorem honest_amendIncident (s : State) (p : List Byte) : (handleAmendIncident s p).Honest s := by
  refine honest_of_cases (inner_amendIncident s p).rxQueue ?_
  unfold handleAmendIncident
  repeat' (first | split | dsimp only)
  all_goals simp [refuse]

theorem honest_clearIncident (s : State) (p : List Byte) : (handleClearIncident s p).Honest s := by
  refine honest_of_cases (inner_clearIncident s p).rxQueue ?_
  unfold handleClearIncident
  repeat' split
  all_goals simp [refuse, accept]

theorem honest_confirmIncident (s : State) (p : List Byte) : (handleConfirmIncident s p).Honest s := by
  refine honest_of_cases (inner_confirmIncident s p).rxQueue ?_
  unfold handleConfirmIncident
  repeat' split
  all_goals simp [refuse, accept]

theorem honest_placeChecked (s : State) (d : Demand) (v : Option Nat) : (placeChecked s d v).Honest s := by
  unfold placeChecked
  repeat' (first | split | dsimp only)
  all_goals first
    | exact honest_refuse ..
    | exact honest_ok rfl (inner_trigger _).rxQueue
    | exact honest_clamped rfl (inner_trigger _).rxQueue

theorem honest_placeDemand (s : State) (p : List Byte) : (handlePlaceDemand s p).Honest s := by
  unfold handlePlaceDemand
  repeat' split
  all_goals first
    | exact honest_refuse ..
    | exact honest_placeChecked ..

theorem honest_withdrawDemand (s : State) (p : List Byte) : (handleWithdrawDemand s p).Honest s := by
  unfold handleWithdrawDemand
  repeat' split
  all_goals first
    | exact honest_refuse ..
    | exact honest_ok rfl (inner_trigger _).rxQueue

theorem honest_shoulder (s : State) (p : List Byte) : (handleShoulder s p).Honest s := by
  unfold handleShoulder
  repeat' (first | split | dsimp only)
  all_goals first
    | exact honest_refuse ..
    | exact .of_same rfl
    | exact honest_ok rfl (inner_trigger _).rxQueue

theorem honest_gantryService (s : State) (p : List Byte) : (handleGantryService s p).Honest s := by
  refine honest_of_cases (inner_gantryService s p).rxQueue ?_
  unfold handleGantryService
  repeat' split
  all_goals simp [refuse, accept]

theorem honest_stationReset (s : State) (p : List Byte) : (handleStationReset s p).Honest s := by
  unfold handleStationReset
  repeat' split
  all_goals first
    | exact honest_refuse ..
    | exact honest_ok rfl rfl

theorem honest_luminance (s : State) (p : List Byte) : (handleLuminance s p).Honest s := by
  unfold handleLuminance
  repeat' split
  all_goals first
    | exact honest_refuse ..
    | exact honest_ok rfl rfl

theorem honest_readNode (s : State) (p : List Byte) : (handleReadNode s p).Honest s := by
  unfold handleReadNode
  repeat' split
  all_goals first
    | exact honest_refuse ..
    | exact honest_ok rfl (inner_onNode ..).rxQueue

theorem honest_readFaults (s : State) (p : List Byte) : (handleReadFaults s p).Honest s := by
  unfold handleReadFaults
  repeat' split
  all_goals first
    | exact honest_refuse ..
    | exact honest_ok rfl rfl

/-- Settles O11: every request row asks a block that answers honestly. -/
theorem refusedRequestChangesNothing : Obligations.RefusedRequestChangesNothing := by
  intro c ty s f rest hc ht
  simp only [requestRows, List.mem_cons, Prod.mk.injEq, List.not_mem_nil, or_false] at hc
  obtain ⟨rfl, rfl⟩ | ⟨rfl, rfl⟩ | ⟨rfl, rfl⟩ | ⟨rfl, rfl⟩ | ⟨rfl, rfl⟩ | ⟨rfl, rfl⟩ | ⟨rfl, rfl⟩ | ⟨rfl, rfl⟩ |
    ⟨rfl, rfl⟩ | ⟨rfl, rfl⟩ | ⟨rfl, rfl⟩ | ⟨rfl, rfl⟩ | ⟨rfl, rfl⟩ | ⟨rfl, rfl⟩ | ⟨rfl, rfl⟩ | ⟨rfl, rfl⟩ |
    ⟨rfl, rfl⟩ | ⟨rfl, rfl⟩ | ⟨rfl, rfl⟩ | ⟨rfl, rfl⟩ | ⟨rfl, rfl⟩ | ⟨rfl, rfl⟩ := hc
  · exact takeRequest_honest ht rfl fun u p => .of_same (identify_state u p)
  · exact takeRequest_honest ht rfl honest_defineGantry
  · exact takeRequest_honest ht rfl honest_defineStation
  · exact takeRequest_honest ht rfl honest_setParameters
  · exact takeRequest_honest ht rfl honest_start
  · exact takeRequest_honest ht rfl honest_stop
  · exact takeRequest_honest ht rfl honest_reset
  · exact takeRequest_honest ht rfl honest_raiseIncident
  · exact takeRequest_honest ht rfl honest_amendIncident
  · exact takeRequest_honest ht rfl honest_clearIncident
  · exact takeRequest_honest ht rfl honest_confirmIncident
  · exact takeRequest_honest ht rfl honest_placeDemand
  · exact takeRequest_honest ht rfl honest_withdrawDemand
  · exact takeRequest_honest ht rfl honest_shoulder
  · exact takeRequest_honest ht rfl honest_gantryService
  · exact takeRequest_honest ht rfl honest_stationReset
  · exact takeRequest_honest ht rfl honest_luminance
  · exact takeRequest_honest ht rfl fun u p => .of_same (readGantry_state u p)
  · exact takeRequest_honest ht rfl fun u p => .of_same (readStation_state u p)
  · exact takeRequest_honest ht rfl fun u p => .of_same (readIncidents_state u p)
  · exact takeRequest_honest ht rfl honest_readNode
  · exact takeRequest_honest ht rfl honest_readFaults

end Sys2Proof.Machine
end

section
/-! The supervisor link: the notice queue (O13), the receive framer character by character (O17), the transmitter (O20),
UNKNOWN_TYPE and IDENTIFY (O21). -/

namespace Sys2Proof.Machine

/-! ### The notice queue (R29, R30) -/

theorem raise_room {s : State} (h : s.link.notices.length < 32) (b : NoticeBody) :
    s.raise b = { s with link := { s.link with notices := s.link.notices ++ [⟨s.clock, b⟩] } } :=
  if_pos h

theorem raise_lost {s : State} (h : 32 ≤ s.link.notices.length) (hl : s.link.lost = true) (b : NoticeBody) :
    s.raise b = s :=
  (if_neg (Nat.not_lt.2 h)).trans (if_pos hl)

theorem raise_firstDrop {s : State} (h : 32 ≤ s.link.notices.length) (hl : s.link.lost = false) (b : NoticeBody) :
    s.raise b = { s with
      link := { s.link with lost := true }
      banks := { s.banks with link := (s.banks.link.take ⟨.warn, .noticeLost, none, none, s.clock⟩).1 } } :=
  (if_neg (Nat.not_lt.2 h)).trans (if_neg (by simp [hl]))

theorem take_empty {b : Bank} (h : b.held = none) (e : ErrorRec) : (b.take e).1 = ⟨some e, false⟩ := by
  simp [Bank.take, h]

/-- A WARN finds the bank taken and sets its overflow mark (R170). -/
theorem take_warn {b : Bank} {e x : ErrorRec} (h : b.held = some x) (he : e.severity = .warn) :
    (b.take e).1 = ⟨some x, true⟩ := by
  simp [Bank.take, h, he]

/-- Settles O13, by the three cases of a notice: room, a queue full anew, a queue that has dropped one already. -/
theorem noticeQueueTakesOrDrops : Obligations.NoticeQueueTakesOrDrops := by
  intro s b
  refine ⟨fun h => raise_room h b, fun h hl => raise_lost h hl b, fun h hl => ?_⟩
  rw [raise_firstDrop h hl b]
  refine ⟨rfl, fun hn => take_empty hn _, fun e he => take_warn he rfl, rfl, fun id hid => ?_⟩
  cases id with
  | link => exact absurd rfl hid
  | lineA | lineB | measure | plan => rfl

/-! ### The error mark (R23) -/

theorem charMark_none_iff (c : SupChar) (both : Bool) :
    charMark c both = none ↔ SupChar.parityError c = false ∧ SupChar.framingError c = false := by
  unfold charMark
  cases SupChar.parityError c <;> cases SupChar.framingError c <;> cases both <;> simp

/-- The first faulty character sets the mark; of one with both errors either mark may be set (log 9). -/
theorem marksFirst_markAfter (old : Option CharError) (c : SupChar) (both : Bool) :
    marksFirst old c (markAfter old c both) := by
  cases old with
  | some m => exact ⟨fun _ h => h, nofun, nofun, nofun, nofun⟩
  | none =>
    refine ⟨nofun, fun _ hp hf => (charMark_none_iff ..).2 ⟨hp, hf⟩, fun _ hp hf => ?_, fun _ hp hf => ?_,
      fun _ hp hf h => ?_⟩
    · simp [markAfter, charMark, hp, hf]
    · simp [markAfter, charMark, hp, hf]
    · rw [((charMark_none_iff ..).1 h).1] at hp
      cases hp

/-! ### A character reaches the framer (R16, log 9) -/

theorem link_drawn (s : State) (c : SupChar) : (s.drawn c).link = s.link := by
  unfold State.drawn
  split <;> rfl

theorem setFramer_drawn (s : State) (c : SupChar) (f : Framer) :
    { s.drawn c with link := { s.link with framer := f } } = (s.drawn c).setFramer f := by
  rw [State.setFramer, link_drawn]

/-- A character goes to the framer, behind the free value that one with both errors draws. -/
theorem exec_character {s : State} (h : s.resetHigh = true) (hr : s.link.sendsReset = false) (c : SupChar) :
    ∃ both, exec (.supRxCharacter c) s = .next ((s.drawn c).character c both) := by
  by_cases hb : SupChar.parityError c = true ∧ SupChar.framingError c = true
  · refine ⟨Config.doubleErrorIsParity s.draw.1, (whenRunning_eq h _).trans ?_⟩
    simp [State.receiveCharacter, hr, hb, State.drawn, State.draw]
  · refine ⟨true, (whenRunning_eq h _).trans ?_⟩
    rw [State.drawn, if_neg hb, State.receiveCharacter, if_neg (by simp [hr]), if_neg (by simpa using hb)]

/-! ### The framer in each of its states (R19 to R24) -/

section
variable {s : State} {c : SupChar} (both : Bool)

theorem character_idle (h : s.link.framer.state = .idle)
    (hc : c.data ≠ 0xA5#8 ∨ SupChar.parityError c = true ∨ SupChar.framingError c = true) :
    s.character c both =
      if s.link.framer.strayRun then s else (s.setFramer ⟨.idle, [], none, true⟩).linkError .stray := by
  simp only [State.character, h]
  refine if_neg fun ⟨hd, hm⟩ => ?_
  obtain ⟨hp, hf⟩ := (charMark_none_iff ..).1 hm
  rcases hc with hc | hc | hc
  · exact hc hd
  · rw [hp] at hc; cases hc
  · rw [hf] at hc; cases hc

theorem character_badLen (h : s.link.framer.state = .length) (hc : c.data.toNat < 2 ∨ 250 < c.data.toNat) :
    s.character c both = (s.setFramer Framer.fresh).linkError .badLen := by
  simp only [State.character, h]
  exact if_pos hc

theorem character_len (h : s.link.framer.state = .length) (h1 : 2 ≤ c.data.toNat) (h2 : c.data.toNat ≤ 250) :
    s.character c both =
      s.setFramer ⟨.body c.data.toNat, [c.data], markAfter s.link.framer.mark c both, false⟩ := by
  simp only [State.character, h]
  exact if_neg (by omega)

theorem character_inBody {n : Nat} (h : s.link.framer.state = .body n) :
    s.character c both = s.setFramer ⟨if 2 ≤ n then .body (n - 1) else .check 2, s.link.framer.bytes ++ [c.data],
      markAfter s.link.framer.mark c both, false⟩ := by
  simp only [State.character, h]
  by_cases hn : 2 ≤ n
  · rw [if_pos hn, if_neg (by omega)]
  · rw [if_neg hn, if_pos (by omega)]

theorem character_firstCheck (h : s.link.framer.state = .check 2) :
    s.character c both =
      s.setFramer ⟨.check 1, s.link.framer.bytes ++ [c.data], markAfter s.link.framer.mark c both, false⟩ := by
  simp only [State.character, h]
  rfl

theorem character_lastCheck (h : s.link.framer.state = .check 1) :
    s.character c both = (s.setFramer Framer.fresh).completeFrame (s.link.framer.bytes ++ [c.data])
      (markAfter s.link.framer.mark c both) := by
  simp only [State.character, h]
  rfl

end

/-- The body and the two check bytes of a whole frame (section 2.2). -/
theorem frameBody_append (body : List Byte) (hi lo : Byte) : frameBody (body ++ [hi] ++ [lo]) = body := by
  rw [frameBody, List.append_assoc, List.length_append, List.length_append]
  exact List.take_left' rfl

theorem frameCheck_append (body : List Byte) (hi lo : Byte) : frameCheck (body ++ [hi] ++ [lo]) = [hi, lo] := by
  rw [frameCheck, List.append_assoc, List.length_append, List.length_append]
  exact List.drop_left' rfl

/-- A frame without a mark whose check disagrees (R24). -/
theorem completeFrame_crc {s : State} {body : List Byte} {hi lo : Byte}
    (h : hi ≠ highByte (crc16 body) ∨ lo ≠ lowByte (crc16 body)) :
    s.completeFrame (body ++ [hi] ++ [lo]) none = s.linkError .crc := by
  have hne : [hi, lo] ≠ [highByte (crc16 body), lowByte (crc16 body)] := fun e => by
    simp only [List.cons.injEq, and_true] at e
    exact h.elim (fun x => x e.1) (fun x => x e.2)
  simp only [State.completeFrame, frameBody_append, frameCheck_append, if_neg hne]

/-- Settles O17: the character goes to the framer, which does what its state says. -/
theorem framerTakesCharacters : Obligations.FramerTakesCharacters := by
  intro c s h hr d
  obtain ⟨both, e⟩ := exec_character h hr c
  have hl : d.link = s.link := link_drawn s c
  have hd (f : Framer) : { d with link := { s.link with framer := f } } = d.setFramer f := setFramer_drawn s c f
  have mark := marksFirst_markAfter s.link.framer.mark c both
  simp only [hd, e, Host.Outcome.next.injEq]
  refine ⟨?_, fun hs hc => ⟨fun hrun => ?_, fun hrun => ?_⟩, fun hs hc => ?_, fun hs h1 h2 => ⟨_, mark, ?_⟩,
    fun n hs => ⟨_, mark, ?_⟩, fun hs => ⟨_, mark, ?_⟩, fun hs => ⟨_, mark, ?_⟩⟩
  · rintro hs rfl
    have := (exec_cleanChar h hr 0xA5#8).symm.trans e
    rw [Host.Outcome.next.injEq, character_sof hs] at this
    exact this.symm
  · exact (character_idle both (hl ▸ hs) hc).trans (if_pos (hl ▸ hrun))
  · exact (character_idle both (hl ▸ hs) hc).trans (if_neg (by simp [link_drawn, hrun]))
  · exact character_badLen both (hl ▸ hs) hc
  · exact (character_len both (hl ▸ hs) h1 h2).trans (by rw [hl])
  · exact (character_inBody both (hl ▸ hs)).trans (by rw [hl])
  · exact (character_firstCheck both (hl ▸ hs)).trans (by rw [hl])
  · have last := character_lastCheck (s := d) (c := c) both (hl ▸ hs)
    rw [hl] at last
    refine ⟨fun hm => ?_, fun hm => ?_, fun body hi hm hb hc => ?_⟩
    · exact last.trans (by rw [hm]; rfl)
    · exact last.trans (by rw [hm]; rfl)
    · exact last.trans (by rw [hm, hb]; exact completeFrame_crc hc)

/-! ### The transmitter (R28 to R30) -/

theorem sendsReset_other {l : Link} {x : Sending} (h : l.tx = some x) (hx : ∀ r, x.what ≠ .resetReply r) :
    l.sendsReset = false := by
  unfold Link.sendsReset
  rw [h]
  dsimp only
  split
  · next r e => exact absurd e (hx r)
  · rfl

/-- While a request waits to be taken no notice is sent (R28). -/
theorem sendNotice_requested {s : State} (h : s.link.rxQueue ≠ []) : s.sendNotice = s := by
  unfold State.sendNotice
  split
  · next hq _ => exact absurd hq h
  · rfl

/-- Settles O20, case by case of what waits and what is being sent. -/
theorem transmitterTakesReplyThenNotice : Obligations.TransmitterTakesReplyThenNotice := by
  refine ⟨fun s r h hr ht hs => ⟨(whenRunning_eq h _).trans ?_, whenRunning_self (sendNotice_waiting hs)⟩,
    fun s n rest h ht hs hq hn => (whenRunning_eq h _).trans ?_,
    fun s hq => whenRunning_self (sendNotice_requested hq),
    fun s x h ht hx => ⟨(whenRunning_eq h _).trans ?_, whenRunning_self (sendReply_busy ht),
      whenRunning_self (sendNotice_busy ht)⟩⟩
  · simp only [State.sendReply, ht, hs, hr, Bool.false_eq_true, if_false]
  · simp only [State.sendNotice, ht, hs, hq, hn]
  · rw [State.frameSent, if_neg (by simp [sendsReset_other ht hx])]

/-! ### UNKNOWN_TYPE and IDENTIFY (R26, R31) -/

theorem requestTypes_eq : requestTypes = requestRows.map (·.2) := rfl

/-- What IDENTIFY answers to one index (R31). -/
theorem identify_leaf {s : State} {f : Frame} {rest : List Frame} {d : Detail} (ht : s.takes 0x01#8 f rest)
    (h : handleIdentify { s with link := { s.link with rxQueue := rest } } f.payload =
      ⟨{ s with link := { s.link with rxQueue := rest } }, .ok, d⟩) :
    exec .identify s = .next (s.answered f rest .ok d) :=
  takeRequest_refused handleIdentify ht rfl h

/-- Settles O21. -/
theorem unknownTypeAndIdentify : Obligations.UnknownTypeAndIdentify := by
  refine ⟨fun s f rest ty ht hty => ?_, fun s f rest ht => ?_, rfl, rfl, fun g st se a b => rfl, _, rfl⟩
  · refine takeRequest_refused handleUnknown ht ?_ rfl
    have hn : ty ∉ requestTypes := by
      rw [requestTypes_eq, List.mem_map]
      rintro ⟨p, hp, e⟩
      exact hty p hp e
    simp [hn]
  · refine ⟨fun hp => ?_, fun hp => ?_, fun hp => ?_, fun hp => ?_, fun b hp hb => ?_, fun hp => ?_⟩
    · exact identify_leaf ht (by rw [hp]; rfl)
    · exact identify_leaf ht (by rw [hp]; rfl)
    · exact identify_leaf ht (by rw [hp]; rfl)
    · exact identify_leaf ht (by rw [hp]; rfl)
    · have hne (n : Nat) (hn : n ≤ 3) : b ≠ BitVec.ofNat 8 n := by
        rintro rfl
        rw [BitVec.toNat_ofNat] at hb
        omega
      refine identify_leaf ht ?_
      rw [hp, handleIdentify, if_neg (hne 0 (by omega)), if_neg (hne 1 (by omega)), if_neg (hne 2 (by omega)),
        if_neg (hne 3 (by omega))]
    · refine takeRequest_refused handleIdentify ht rfl ?_
      unfold handleIdentify
      split
      · next b hb => rw [hb] at hp; exact absurd rfl hp
      · rfl

end Sys2Proof.Machine
end

section
/-! AMEND_INCIDENT, CLEAR_INCIDENT and CONFIRM_INCIDENT (O28, O29, O30). -/

namespace Sys2Proof.Machine

/-- A payload that is not one byte long is empty or has a second byte. -/
theorem length_ne_one {p : List Byte} (h : p.length ≠ 1) : p = [] ∨ ∃ a b l, p = a :: b :: l := by
  rcases p with _ | ⟨a, _ | ⟨b, l⟩⟩
  · exact .inl rfl
  · exact absurd rfl h
  · exact .inr ⟨a, b, l, rfl⟩

/-- A request that changes the incident table: the new table, one INCIDENT_EVENT, one trigger (R122). -/
theorem takeRequest_incidentChanged {s : State} {ty : Byte} {f : Frame} {rest : List Frame} {fits : Byte → Bool}
    {h : State → List Byte → Answer} {x : Table Incident} {c : IncidentChange} {n : Nat} {r' : Incident} {r : Result}
    {d : Detail} (ht : s.takes ty f rest) (hf : fits ty = true)
    (ha : h { s with link := { s.link with rxQueue := rest } } f.payload =
      ⟨State.incidentChanged x c n r' none { s with link := { s.link with rxQueue := rest } }, r, d⟩) :
    ∃ t, takeRequest fits h s = .next t ∧ t.incidents = x ∧
      t = State.trigger (State.raise (.incidentEvent c n r' none)
        { s.answered f rest r d with incidents := t.incidents }) := by
  have hx (u : State) (b : NoticeBody) : (State.trigger (u.raise b)).incidents = u.incidents := by
    rw [trigger_frame, raise_frame]
  refine ⟨_, takeRequest_answer ht hf ha, ?_⟩
  dsimp only
  rw [incidentChanged_placeReply, hx]
  exact ⟨rfl, rfl⟩

/-! ### CLEAR_INCIDENT (R118) -/

/-- Settles O29, by the payload, the handle and the slot. -/
theorem clearIncidentFreesSlot : Obligations.ClearIncidentFreesSlot := by
  intro s f rest ht hm
  have refused {r : Result} := takeRequest_refused (r := r) (d := .none) (fits := (· == 0x0A#8))
    handleClearIncident ht rfl
  refine ⟨fun hl => refused ?_, fun h hp => ⟨fun hh => refused ?_, fun hh hr => refused ?_, fun r hh hr => ?_⟩⟩
  · obtain e | ⟨a, b, l, e⟩ := length_ne_one hl <;> simp [handleClearIncident, hm, e, refuse]
  · simp [handleClearIncident, hm, hp, incidentSlots, hh, refuse]
  · simp [handleClearIncident, hm, hp, incidentSlots, Nat.not_le.2 hh, hr, refuse]
  · obtain ⟨t, e, hx, hd⟩ := takeRequest_incidentChanged (h := handleClearIncident) (x := s.incidents.del h.toNat)
      (c := .cleared) (n := h.toNat) (r' := r) (r := .ok) (d := .none) (fits := (· == 0x0A#8)) ht rfl
      (by simp [handleClearIncident, hm, hp, incidentSlots, Nat.not_le.2 hh, hr, accept])
    exact ⟨t, e, by rw [hx, look_del_self], fun k hk => by rw [hx, look_del_other _ hk], hd⟩

/-! ### CONFIRM_INCIDENT (R119) -/

/-- Settles O30, by the payload, the handle, the slot and its origin. -/
theorem confirmIncidentTakesOver : Obligations.ConfirmIncidentTakesOver := by
  intro s f rest ht hm
  have refused {r : Result} := takeRequest_refused (r := r) (d := .none) (fits := (· == 0x0B#8))
    handleConfirmIncident ht rfl
  have count : State.supervisorCount { s with link := { s.link with rxQueue := rest } } = s.supervisorCount := rfl
  refine ⟨fun hl => refused ?_, fun h hp => ⟨fun hh => refused ?_, fun hh hr => refused ?_, fun r hh hr =>
    ⟨fun ho => refused ?_, fun ho hc => refused ?_, fun ho hc => ?_⟩⟩⟩
  · obtain e | ⟨a, b, l, e⟩ := length_ne_one hl <;> simp [handleConfirmIncident, hm, e, refuse]
  · simp [handleConfirmIncident, hm, hp, incidentSlots, hh, refuse]
  · simp [handleConfirmIncident, hm, hp, incidentSlots, Nat.not_le.2 hh, hr, refuse]
  · simp [handleConfirmIncident, hm, hp, incidentSlots, Nat.not_le.2 hh, hr, ho, refuse]
  · simp [handleConfirmIncident, hm, hp, incidentSlots, Nat.not_le.2 hh, hr, ho, count, supervisorLimit, hc, refuse]
  · let r' : Incident := { r with origin := .supervisor, anchor := none, expiry := none }
    obtain ⟨t, e, hx, hd⟩ := takeRequest_incidentChanged (h := handleConfirmIncident) (x := s.incidents.put h.toNat r')
      (c := .confirmed) (n := h.toNat) (r' := r') (r := .ok) (d := .none) (fits := (· == 0x0B#8)) ht rfl
      (by simp [handleConfirmIncident, hm, hp, incidentSlots, Nat.not_le.2 hh, hr, ho, count, supervisorLimit,
        Nat.not_le.2 hc, accept, r'])
    exact ⟨t, e, by rw [hx, look_put_self], fun k hk => by rw [hx, look_put_other _ _ hk], hd⟩

/-! ### AMEND_INCIDENT (R117) -/

theorem amendIncident_badLength {s : State} {f : Frame} {rx : List Frame} (ht : s.takes 0x09#8 f rx)
    (hm : s.geo.mode = .run) (hp : parseAmend f.payload = .badLength) :
    exec .amendIncident s = .next (s.answered f rx .badLength .none) :=
  takeRequest_refused handleAmendIncident ht rfl (by simp [handleAmendIncident, hm, hp, refuse])

theorem amendIncident_badValue {s : State} {f : Frame} {rx : List Frame} (ht : s.takes 0x09#8 f rx)
    (hm : s.geo.mode = .run) (hp : parseAmend f.payload = .badValue) :
    exec .amendIncident s = .next (s.answered f rx .badValue .none) :=
  takeRequest_refused handleAmendIncident ht rfl (by simp [handleAmendIncident, hm, hp, refuse])

/-- A field of a length that some reading of its mark calls for, mark by mark (R117, log 14). -/
theorem fieldPiece_mark {w : Nat} {x : List Byte}
    (h : (∃ m, x = [m] ∧ m ≠ 1#8) ∨ ∃ m v, x = m :: v ∧ v.length = w ∧ m ≠ 0#8 ∧ m ≠ 2#8) :
    FieldPiece markCarries w x := by
  rcases h with ⟨m, e, h1⟩ | ⟨m, v, e, hv, h0, h2⟩
  · refine .inl ⟨m, e, ?_⟩
    unfold markCarries
    split <;> simp
  · refine .inr ⟨m, v, e, hv, ?_⟩
    rw [markCarries, if_neg (by simp [h0, h2])]
    split <;> nofun

theorem isSet_iff (m : Mark) : m.isSet = true ↔ ∃ v, m = .set v := by
  cases m <;> simp [Mark.isSet]

/-- The cap is named as clamped exactly where the value set does not fit (R117 step 3). -/
theorem fitCap_eq_iff (m : Mark) : m.fitCap = m ↔ ∀ v, m = .set v → fitSpeed 20 130 v = v := by
  cases m <;> simp [Mark.fitCap]

/-- R117 steps 4 to 7: what becomes of an amendment that reads well. -/
theorem handleAmendIncident_read {s : State} {p : List Byte} {q : AmendReq} {r : Incident} (hm : s.geo.mode = .run)
    (hp : parseAmend p = .ok q) (hr : s.incidents.look q.handle = some r) :
    handleAmendIncident s p =
      if (q.apply r).stop < (q.apply r).start then refuse s .badValue
      else if q.lanes.isSet = true ∧ r.kind ≠ .laneClosure then refuse s .badValue
      else if (q.start.isSet = true ∨ q.stop.isSet = true) ∧ r.anchor ≠ none then refuse s .conflict
      else
        ⟨s.incidentChanged (s.incidents.put q.handle (q.apply r)) .amended q.handle (q.apply r) none,
          if q.cap.fitCap = q.cap then .ok else .okClamped, if q.cap.fitCap = q.cap then .none else .clamped [4]⟩ := by
  simp only [handleAmendIncident, hm, hp, hr]
  by_cases hc : q.cap.fitCap = q.cap <;> simp [hc]

/-- Settles O28: what the payload reads as, then the checks against the record in their order. -/
theorem amendIncidentReplacesFields : Obligations.AmendIncidentReplacesFields := by
  intro s f rest more rx h start stop lanes cap legend ht hm h2 h1 hrest fits bad
  have sent (more : List Byte) := parseAmend_sent h start stop lanes cap legend h2 h1 more
  have values := valuesOk_iff h start stop lanes cap legend
  refine ⟨fun hp hmore => amendIncident_badLength ht hm ?_, fun n hn hp => amendIncident_badLength ht hm ?_,
    ?_, fun hp => ?_⟩
  · rw [hp, hrest]
    simpa only [List.append_assoc, if_pos hmore] using sent more
  · rw [hp, hrest]
    exact parseAmend_cut (hrest ▸ hn)
  · intro piece odd a b c d e hp ha hb hc hd he ho
    refine amendIncident_badValue ht hm ?_
    rw [hp]
    simpa only [List.append_assoc] using parseAmend_choice (fieldPiece_mark ha) (fieldPiece_mark hb) (fieldPiece_mark hc)
      (fieldPiece_mark hd) (fieldPiece_mark he) <| by
        simpa only [List.exists_mem_cons_iff, List.not_mem_nil, false_and, exists_false, or_false] using ho
  have reads : parseAmend f.payload =
      if (⟨h.toNat, start, stop, lanes, cap, legend⟩ : AmendReq).valuesOk then
        .ok ⟨h.toNat, start, stop, lanes, cap, legend⟩ else .badValue := by
    rw [hp, hrest]
    simpa only [List.append_assoc, List.append_nil, ne_eq, not_true_eq_false, if_false] using sent []
  refine ⟨fun hbad => amendIncident_badValue ht hm ?_, fun hbad hr => ?_, fun r hbad hr => ?_⟩
  · rw [reads, if_neg (fun hv => values.1 hv hbad)]
  · rw [if_pos (values.2 hbad)] at reads
    exact takeRequest_refused handleAmendIncident ht rfl (by simp [handleAmendIncident, hm, reads, hr, refuse])
  rw [if_pos (values.2 hbad)] at reads
  intro r' extent lanesSet
  have applied : AmendReq.apply ⟨h.toNat, start, stop, lanes, cap, legend⟩ r = r' := by cases cap <;> rfl
  have hlanes : lanes.isSet = true ↔ lanesSet := isSet_iff lanes
  have hext : (start.isSet = true ∨ stop.isSet = true) ↔ extent := by rw [isSet_iff, isSet_iff, ← exists_or]
  have answer := handleAmendIncident_read (s := { s with link := { s.link with rxQueue := rx } }) hm reads hr
  rw [applied] at answer
  have refused {res : Result} := takeRequest_refused (r := res) (d := .none) (fits := (· == 0x09#8))
    handleAmendIncident ht rfl
  refine ⟨fun hv => refused (answer.trans ?_), fun h1 h2 h3 h4 => refused (answer.trans ?_), fun h1 h2 h3 => ?_⟩
  · by_cases hlt : r'.stop < r'.start
    · exact if_pos hlt
    · exact (if_neg hlt).trans (if_pos ((hv.resolve_left hlt).imp_left hlanes.2))
  · rw [if_neg (Nat.not_lt.2 h1), if_neg (fun x => x.2 (h2 (hlanes.1 x.1))), if_pos ⟨hext.2 h3, h4⟩]
    rfl
  · rw [if_neg (Nat.not_lt.2 h1), if_neg (fun x => x.2 (h2 (hlanes.1 x.1))),
      if_neg (fun x => x.2 (h3 (hext.1 x.1)))] at answer
    obtain ⟨t, e, hx, hd⟩ := takeRequest_incidentChanged (fits := (· == 0x09#8)) ht rfl answer
    refine ⟨t, _, _, e, ?_, by rw [hx, look_put_self], fun k hk => by rw [hx, look_put_other _ _ hk], hd⟩
    by_cases hc : cap.fitCap = cap
    · exact .inl ⟨(fitCap_eq_iff cap).1 hc, if_pos hc, if_pos hc⟩
    · refine .inr ⟨?_, if_neg hc, if_neg hc⟩
      rw [fitCap_eq_iff] at hc
      push Not at hc
      exact hc

end Sys2Proof.Machine
end

section
/-! LUMINANCE (O37), and the reads that change nothing (O38). -/

namespace Sys2Proof.Machine

/-! ### LUMINANCE (R48) -/

/-- A level that is set: one LUMEN waits with it, and but for the LUMEN queue nothing else of the line changes. -/
theorem setLevel_spec (n : Nat) (c : LineCtl) :
    (c.setLevel n).level = n ∧
      { c.setLevel n with level := c.level,
                          queues := { (c.setLevel n).queues with lumen := c.queues.lumen } } = c ∧
      (c.queues.lumen = [] → (c.setLevel n).queues.lumen = [⟨0, .lumen n, .line, false⟩]) ∧
      (∀ e es, c.queues.lumen = e :: es → (c.setLevel n).queues.lumen = { e with job := .lumen n } :: es) := by
  unfold LineCtl.setLevel LineCtl.queueLumen
  dsimp only
  split
  · next h =>
    exact ⟨rfl, rfl, fun _ => by simp [LineCtl.deposit, Queues.look, Queues.put, h], fun e es k => by simp [h] at k⟩
  · next e es h =>
    refine ⟨rfl, rfl, fun k => by simp [h] at k, fun e' es' k => ?_⟩
    obtain ⟨rfl, rfl⟩ := List.cons.inj (h.symm.trans k)
    rfl

/-- Settles O37: each line takes the level by `setLevel_spec`. -/
theorem luminanceReachesBothLines : Obligations.LuminanceReachesBothLines := by
  intro s f rest ht hm
  have refused {r : Result} := takeRequest_refused (r := r) (d := .none) (fits := (· == 0x11#8))
    handleLuminance ht rfl
  refine ⟨fun hl => refused ?_, fun n hp => ⟨fun h1 h8 => ?_, fun hn => refused ?_⟩⟩
  · obtain e | ⟨a, b, l, e⟩ := length_ne_one hl <;> simp [handleLuminance, hm, e, refuse]
  · have answer : handleLuminance { s with link := { s.link with rxQueue := rest } } f.payload =
        accept ((State.onLine { s with link := { s.link with rxQueue := rest } } .a (LineCtl.setLevel n.toNat)).onLine .b
          (LineCtl.setLevel n.toNat)) := by
      rw [hp]
      exact (if_neg (by simp [hm])).trans (if_neg (by omega))
    refine ⟨_, takeRequest_answer (fits := (· == 0x11#8)) ht rfl answer, rfl, fun l => ?_⟩
    cases l
    · exact setLevel_spec n.toNat s.lineA
    · exact setLevel_spec n.toNat s.lineB
  · simp [handleLuminance, hm, hp, hn, refuse]

/-! ### READ_GANTRY (R168) -/

/-- When the confirmation STATE of a defined gantry is due: held, queued, or neither (log 38). -/
theorem confirmDueOf_held {s : State} {g : Nat} {r : GantryRec} {ms : Nat} (hr : s.geo.gantries.look g = some r)
    (h : (s.line r.line).held.look g = some ms) : s.confirmDueOf g = .remaining ms := by
  simp [State.confirmDueOf, hr, h]

theorem confirmDueOf_queued {s : State} {g : Nat} {r : GantryRec} (hr : s.geo.gantries.look g = some r)
    (h : (s.line r.line).held.look g = none) (hq : ∃ e ∈ (s.line r.line).queues.confirm, e.gantry = g) :
    s.confirmDueOf g = .queued := by
  simp [State.confirmDueOf, hr, h, hq]

theorem confirmDueOf_absent {s : State} {g : Nat} {r : GantryRec} (hr : s.geo.gantries.look g = some r)
    (h : (s.line r.line).held.look g = none) (hq : ∀ e ∈ (s.line r.line).queues.confirm, e.gantry ≠ g) :
    s.confirmDueOf g = .absent := by
  simp only [State.confirmDueOf, hr, h]
  exact if_neg (by simpa using hq)

/-- READ_GANTRY of a defined gantry reports the state held. -/
theorem readGantry_report {s : State} {f : Frame} {rest : List Frame} {g : Byte} {r : GantryRec}
    (hm : s.geo.mode = .run) (ht : s.takes 0x12#8 f rest) (hp : f.payload = [g]) (h1 : 1 ≤ g.toNat) (h2 : g.toNat ≤ 32)
    (hr : s.geo.gantries.look g.toNat = some r) :
    exec .readGantry s = .next (s.answered f rest .ok (.gantry (s.gantryReport g.toNat))) := by
  have hg : ¬(g.toNat = 0 ∨ 32 < g.toNat) := by omega
  have hh : s.geo.gantries.has g.toNat = true := (has_iff ..).2 (by simp [hr])
  refine takeRequest_refused handleReadGantry ht rfl ?_
  rw [hp]
  exact (if_neg (by simp [hm])).trans ((if_neg hg).trans (if_neg (by simp [hh])))

/-- Its refusals (R26). -/
theorem readGantry_refused {s : State} {f : Frame} {rest : List Frame} (hm : s.geo.mode = .run)
    (ht : s.takes 0x12#8 f rest) :
    (f.payload.length ≠ 1 → exec .readGantry s = .next (s.answered f rest .badLength .none)) ∧
      ∀ g : Byte, f.payload = [g] →
        (g.toNat = 0 ∨ 32 < g.toNat → exec .readGantry s = .next (s.answered f rest .badValue .none)) ∧
        (1 ≤ g.toNat → g.toNat ≤ 32 → s.geo.gantries.look g.toNat = none →
          exec .readGantry s = .next (s.answered f rest .notFound .none)) := by
  have refused {r : Result} := takeRequest_refused (r := r) (d := .none) (fits := (· == 0x12#8))
    handleReadGantry ht rfl
  refine ⟨fun hl => refused ?_, fun g hp => ⟨fun hg => refused ?_, fun h1 h2 hn => refused ?_⟩⟩
  · obtain e | ⟨a, b, l, e⟩ := length_ne_one hl <;> simp [handleReadGantry, hm, e, refuse]
  · simp [handleReadGantry, hm, hp, hg, refuse]
  · have hg : ¬(g.toNat = 0 ∨ 32 < g.toNat) := by omega
    simp [handleReadGantry, hm, hp, hg, (has_eq_false ..).2 hn, refuse]

/-! ### READ_STATION (R113) -/

/-- What READ_STATION reports of a station with a record (R113). -/
def State.stationReadout (s : State) (n : Nat) (r : StationRec) (x : StationState) : StationReadout where
  station := n
  home := s.geo.home.look n
  host := r.host
  state := { x with window := freshEntries s.geo.params.wrongway.window s.clock x.window }
  demands := stationDemands s.geo.params.congestion s.geo.params.queue (s.geo.home.look n) x.level x.queueOn
  lanes := (s.measure.stations.look n).elim [] lanesNow

theorem readStation_readout {s : State} {f : Frame} {rest : List Frame} {n : Byte} {r : StationRec} {x : StationState}
    (hm : s.geo.mode = .run) (ht : s.takes 0x13#8 f rest) (hp : f.payload = [n]) (h1 : 1 ≤ n.toNat) (h2 : n.toNat ≤ 24)
    (hr : s.geo.stations.look n.toNat = some r) (hx : s.traffic.look n.toNat = some x) :
    exec .readStation s = .next (s.answered f rest .ok (.station (s.stationReadout n.toNat r x))) := by
  have hn : ¬(n.toNat = 0 ∨ 24 < n.toNat) := by omega
  refine takeRequest_refused handleReadStation ht rfl ?_
  simp only [handleReadStation, hm, hp, hn, hr, hx, State.stationReadout, reduceCtorEq, if_false, Option.getD_some]
  cases s.measure.stations.look n.toNat <;> rfl

/-- Its refusals (R26). -/
theorem readStation_refused {s : State} {f : Frame} {rest : List Frame} (hm : s.geo.mode = .run)
    (ht : s.takes 0x13#8 f rest) :
    (f.payload.length ≠ 1 → exec .readStation s = .next (s.answered f rest .badLength .none)) ∧
      ∀ n : Byte, f.payload = [n] →
        (n.toNat = 0 ∨ 24 < n.toNat → exec .readStation s = .next (s.answered f rest .badValue .none)) ∧
        (1 ≤ n.toNat → n.toNat ≤ 24 → s.geo.stations.look n.toNat = none →
          exec .readStation s = .next (s.answered f rest .notFound .none)) := by
  have refused {r : Result} := takeRequest_refused (r := r) (d := .none) (fits := (· == 0x13#8))
    handleReadStation ht rfl
  refine ⟨fun hl => refused ?_, fun n hp => ⟨fun hn => refused ?_, fun h1 h2 hr => refused ?_⟩⟩
  · obtain e | ⟨a, b, l, e⟩ := length_ne_one hl <;> simp [handleReadStation, hm, e, refuse]
  · simp [handleReadStation, hm, hp, hn, refuse]
  · have hn : ¬(n.toNat = 0 ∨ 24 < n.toNat) := by omega
    simp [handleReadStation, hm, hp, hn, hr, refuse]

/-- The demands a station places: that of its level at its home gantry, and while its queue is ON those of the present
reach entries (R105, R107). -/
theorem mem_stationDemands (c : CongestionParams) (q : QueueParams) (home : Option Nat) (lv : Level) (on : Bool)
    (d : StationDemand) :
    d ∈ stationDemands c q home lv on ↔ ∃ h, home = some h ∧
      ((d.gantry = h ∧ (∃ l, c.level lv = some l ∧ d.speed = l.speed) ∧
          d.legend = if lv = .l1 then none else some 6) ∨
        on = true ∧ ∃ j, q.reaches h d.gantry j ∧ d.speed = q.entry j ∧ d.legend = some 5) := by
  have legend : (∃ l, c.level lv = some l ∧ d.speed = l.speed) →
      (d.legend = (if lv = .l2 ∨ lv = .l3 then some 6 else none) ↔ d.legend = if lv = .l1 then none else some 6) := by
    cases lv <;> simp [CongestionParams.level]
  cases home with
  | none => simp [stationDemands]
  | some h =>
    have level : d ∈ levelDemand c h lv ↔ d.gantry = h ∧ (∃ l, c.level lv = some l ∧ d.speed = l.speed) ∧
        d.legend = if lv = .l1 then none else some 6 := by
      rw [mem_levelDemand, and_congr_right_iff]
      exact fun _ => and_congr_right legend
    cases on <;> simp [stationDemands, level, mem_queueDemands]

/-- The status of a lane from its present fault reasons (R87). -/
theorem status_eq (l : LaneRec) (nodeCond : Bool) :
    l.status nodeCond = if l.reasons nodeCond ≠ ⟨false, false, false⟩ then .faulty
      else if l.suspect then .suspect else .valid := by
  have h : l.faulty nodeCond = true ↔ l.reasons nodeCond ≠ ⟨false, false, false⟩ := by
    simp only [LaneRec.faulty, LaneRec.reasons, ne_eq, Reasons.mk.injEq]
    cases l.loopA.stuck <;> cases l.loopB.stuck <;> cases l.silent <;> cases nodeCond <;> simp
  simp only [LaneRec.status, h]

/-! ### READ_INCIDENTS (R130) -/

theorem readIncidents_counts {s : State} {f : Frame} {rest : List Frame} (hm : s.geo.mode = .run)
    (ht : s.takes 0x14#8 f rest) (hp : f.payload = []) :
    exec .readIncidents s = .next (s.answered f rest .ok (.incidents s.supervisorCount s.incidents
      ([1, 2, 3, 4].map fun n => if s.sectionExists n then s.sections.look n else none))) := by
  refine takeRequest_refused handleReadIncidents ht rfl ?_
  rw [hp]
  exact if_neg (by simp [hm])

theorem readIncidents_badLength {s : State} {f : Frame} {rest : List Frame} (hm : s.geo.mode = .run)
    (ht : s.takes 0x14#8 f rest) (hp : f.payload ≠ []) :
    exec .readIncidents s = .next (s.answered f rest .badLength .none) := by
  obtain ⟨b, bs, h⟩ := List.exists_cons_of_ne_nil hp
  refine takeRequest_refused handleReadIncidents ht rfl ?_
  rw [h]
  exact if_neg (by simp [hm])

/-! ### All three reads -/

/-- Settles O38: each read reports the state held, or refuses. -/
theorem readsChangeNothing : Obligations.ReadsChangeNothing := by
  intro s f rest hm
  refine ⟨fun g r ht hp h1 h2 hr => ⟨_, readGantry_report hm ht hp h1 h2 hr, rfl, rfl, rfl,
      fun ms h => confirmDueOf_held hr h, fun h => ⟨confirmDueOf_queued hr h, confirmDueOf_absent hr h⟩, fun kv => ?_⟩,
    fun n r x ht hp h1 h2 hr hx => ⟨_, readStation_readout hm ht hp h1 h2 hr hx, rfl, rfl, rfl, rfl, rfl,
      fun d => mem_stationDemands .., fun en hen => ?_⟩,
    fun ht hp => ⟨_, readIncidents_counts hm ht hp, rfl, fun i hi => ?_⟩, readGantry_refused hm, readStation_refused hm,
    readIncidents_badLength hm⟩
  · simp [State.gantryReport]
  · simp only [State.stationReadout, hen, Option.elim_some, lanesNow, List.length_map, true_and, List.getElem?_map]
    intro i p y hy
    exact ⟨_, by rw [hy]; rfl, rfl, rfl, status_eq .., rfl⟩
  · interval_cases i <;> rfl

end Sys2Proof.Machine
end

section
/-! The codes and the bits on the wires (O60). -/

namespace Sys2Proof.Machine

/-! ### Aspect codes (R177) -/

/-- The code of an aspect a sign can show names that aspect. -/
theorem aspectOfCode_code {a : Aspect} (h : a = .blank ∨ a = .closed ∨ a = .divert .near ∨ a = .divert .off ∨
    (∃ k, 2 ≤ k ∧ k ≤ 13 ∧ a = .speed (10 * k)) ∨ ∃ n, 1 ≤ n ∧ n ≤ 63 ∧ a = .legend n) :
    aspectOfCode a.code = some a := by
  rcases h with rfl | rfl | rfl | rfl | ⟨k, h1, h2, rfl⟩ | ⟨n, h1, h2, rfl⟩
  · rfl
  · rfl
  · rfl
  · rfl
  · interval_cases k <;> rfl
  · interval_cases n <;> rfl

/-- A byte that names an aspect is the code of that aspect. -/
theorem code_of_aspectOfCode {b : Byte} {a : Aspect} (h : aspectOfCode b = some a) : b = a.code := by
  apply BitVec.eq_of_toNat_eq
  unfold aspectOfCode at h
  dsimp only at h
  split_ifs at h <;> cases h <;> simp only [Aspect.code, BitVec.toNat_ofNat] <;> omega

/-! ### STATE payloads (R45, R176) -/

/-- The sign entries of a STATE reply as they are sent. -/
def signEntries (xs : List (Health × Aspect)) : List Byte := xs.flatMap fun y => [BitVec.ofNat 8 y.1.code, y.2.code]

theorem healthOfCode_code (h : Health) : healthOfCode (BitVec.ofNat 8 h.code) = some h := by
  cases h <;> rfl

theorem stateSigns_entries {kinds : List SignKind} {xs : List (Health × Aspect)}
    (hc : ∀ y ∈ xs, aspectOfCode y.2.code = some y.2) (hl : xs.length = kinds.length)
    (hf : ∀ z ∈ kinds.zip xs, Aspect.fits z.1 z.2.2 = true) : stateSigns kinds (signEntries xs) = some xs := by
  induction kinds generalizing xs with
  | nil =>
    obtain rfl := List.length_eq_zero_iff.1 hl
    rfl
  | cons k ks ih =>
    obtain ⟨y, ys, rfl⟩ := List.exists_cons_of_length_eq_add_one hl
    have rest := ih (fun z hz => hc z (.tail _ hz)) (by simpa using hl) fun z hz => hf z (.tail _ hz)
    have first : Aspect.fits k y.2 = true := hf (k, y) (by simp)
    simp only [signEntries, List.flatMap_cons, List.cons_append, List.nil_append, stateSigns, healthOfCode_code,
      hc y (by simp), first, if_true]
    exact congrArg (Option.map (y :: ·)) rest

/-- Another number of entries than there are signs. -/
theorem stateSigns_length {kinds : List SignKind} {xs : List (Health × Aspect)} (hl : xs.length ≠ kinds.length) :
    stateSigns kinds (signEntries xs) = none := by
  induction kinds generalizing xs with
  | nil =>
    cases xs with
    | nil => exact absurd rfl hl
    | cons y ys => rfl
  | cons k ks ih =>
    cases xs with
    | nil => rfl
    | cons y ys =>
      have rest : stateSigns ks (signEntries ys) = none := ih (by simpa using hl)
      rw [signEntries] at rest
      simp only [signEntries, List.flatMap_cons, List.cons_append, List.nil_append, stateSigns, healthOfCode_code]
      cases aspectOfCode y.2.code with
      | none => rfl
      | some a => simp [rest]

/-- The flags of a STATE reply read back (R45). -/
theorem decodeState_flags (kinds : List SignKind) (restarted overflow : Bool) (rest : List Byte) :
    decodeState kinds (BitVec.ofNat 8 (restarted.toNat + 2 * overflow.toNat) :: rest) =
      (stateSigns kinds rest).map fun sg => ⟨restarted, overflow, sg⟩ := by
  cases restarted <;> cases overflow <;> rfl

/-! ### The bits of a byte (R18, R33) -/

/-- A chain of exclusive ors tells whether the number of ones is odd. -/
theorem foldl_xor_eq (f : Nat → Bool) (l : List Nat) (a : Bool) :
    (l.foldl (fun x i => x ^^ f i) a).toNat = (a.toNat + (l.map f).count true) % 2 := by
  induction l generalizing a with
  | nil => cases a <;> rfl
  | cons i l ih =>
    rw [List.foldl_cons, ih, List.map_cons, List.count_cons]
    cases a <;> cases f i <;> simp <;> omega

/-- The data bits of a byte in the order in which they are sent. -/
def dataBits (b : Byte) : List Bool := (List.range 8).map b.getLsbD

theorem oddOnes_toNat (b : Byte) : (oddOnes b).toNat = (dataBits b).count true % 2 := by
  rw [oddOnes, foldl_xor_eq]
  simp [dataBits]

/-- A character: start bit, data least significant bit first, parity, stop bit. -/
theorem charBits_spec (b : Byte) (parity : Bool) {i : Nat} (hi : i < 8) :
    (charBits b parity)[i + 1]? = some (b.getLsbD i) ∧ (charBits b parity)[0]? = some false ∧
      (charBits b parity)[10]? = some true ∧ (charBits b parity).length = 11 ∧
      ((charBits b parity).drop 1).take 9 = dataBits b ++ [parity] := by
  refine ⟨?_, rfl, rfl, rfl, rfl⟩
  interval_cases i <;> rfl

/-- Odd parity on a gantry line (R33). -/
theorem lineBits_parity (b : Byte) : (((lineBits b).drop 1).take 9).count true % 2 = 1 := by
  have h := oddOnes_toNat b
  rw [lineBits, (charBits_spec b _ (i := 0) (by omega)).2.2.2.2, List.count_append]
  cases ho : oddOnes b <;> rw [ho] at h <;> simp at h ⊢ <;> omega

/-- Even parity on SUP_TX (R18). -/
theorem supBits_parity (b : Byte) : (((supBits b).drop 1).take 9).count true % 2 = 0 := by
  have h := oddOnes_toNat b
  rw [supBits, (charBits_spec b _ (i := 0) (by omega)).2.2.2.2, List.count_append]
  cases ho : oddOnes b <;> rw [ho] at h <;> simp at h ⊢ <;> omega

/-- Each bit is driven for both halves of its time. -/
theorem ownByteDrive_bit (b : Byte) {i : Nat} (hi : i < 8) :
    (ownByteDrive b)[2 * i]? = (lineBits b)[i]?.map some ∧ (ownByteDrive b)[2 * i + 1]? = (lineBits b)[i]?.map some := by
  interval_cases i <;> exact ⟨rfl, rfl⟩

/-! ### The drive of a request (R33, R34, R37, R38, R42) -/

/-- Bytes that are all ACKed go out once each. -/
theorem sentBytes_acked {bs : List Byte} {sl : List Slot} (h : allAcked bs.length sl) (n : Nat) :
    sentBytes n bs sl = bs := by
  obtain ⟨hl, ha⟩ := h
  induction bs generalizing sl n with
  | nil => rw [sentBytes]
  | cons b bs ih =>
    obtain ⟨x, xs, rfl⟩ := List.exists_cons_of_length_eq_add_one hl
    rw [sentBytes, if_pos (ha x (by simp)), ih _ (by simpa using hl) fun y hy => ha y (.tail _ hy)]

theorem sendRest_acked {n : Nat} {sl : List Slot} (h : allAcked (n + 1) sl) : sendRest n sl = .accepted := by
  obtain ⟨hl, ha⟩ := h
  induction n generalizing sl with
  | zero =>
    obtain ⟨x, xs, rfl⟩ := List.exists_cons_of_length_eq_add_one hl
    simp [sendRest, sendByte, ha x]
  | succ n ih =>
    obtain ⟨x, xs, rfl⟩ := List.exists_cons_of_length_eq_add_one hl
    simp only [sendRest, sendByte, ha x (by simp), if_true]
    exact ih (by simpa using hl) fun y hy => ha y (.tail _ hy)

/-- A request whose bytes are all ACKed is accepted. -/
theorem sendRequest_acked {n : Nat} {sl : List Slot} (hn : 2 ≤ n) (h : allAcked n sl) : sendRequest n sl = .accepted := by
  obtain ⟨m, rfl⟩ := Nat.exists_eq_add_of_le' hn
  obtain ⟨hl, ha⟩ := h
  obtain ⟨x, xs, rfl⟩ := List.exists_cons_of_length_eq_add_one hl
  simp only [sendRequest, sendByte, ha x (by simp), if_true]
  exact sendRest_acked ⟨by simpa using hl, fun y hy => ha y (.tail _ hy)⟩

/-- Every telegram but a broadcast drives the bytes it sends, and behind an accepted request the slots of its reply. -/
theorem telegramDrive_addressed {f : Flight} (h : ∀ n, f.job ≠ .lumen n) (x : Transcript) :
    telegramDrive f x = (sentBytes 2 f.request x.slots).flatMap ownByteDrive ++
      if sendRequest f.request.length x.slots = .accepted ∧ f.job ≠ .display then
        (slotDrives (f.request.getD 0 0) (f.request.getD 1 0) f.job [] true x.reply).flatMap nodeByteDrive
      else [] := by
  unfold telegramDrive
  split
  · next n hn => exact absurd hn (h n)
  · rfl

/-! ### The slots of a reply (R33, R40) -/

section
variable {address function : Byte} {j : Job}

/-- A faulty byte in time is NACKed and not counted (R40). -/
theorem slotDrives_faulty {got : List Byte} {first : Bool} {c : LineChar} (cs : List LineChar)
    (hi : LineChar.intact c = false) (hg : c.gap ≤ if first then 20000 else 3000) :
    slotDrives address function j got first (c :: cs) = .nack :: slotDrives address function j got false cs := by
  have hgap : ¬(if first then replyLimit else gapLimit) < c.gap := Nat.not_lt.2 hg
  rw [slotDrives, if_neg hgap, if_neg (by simp [hi])]

/-- Intact bytes in time are ACKed while none of them fails the header and the reply is not whole before the last. -/
theorem slotDrives_intact {got : List Byte} {first : Bool} {cs : List LineChar}
    (hc : ∀ c ∈ cs, LineChar.intact c = true ∧ c.gap ≤ gapLimit)
    (ok : ∀ k, k < cs.length → headerFails address function j (got ++ (cs.map (·.data)).take (k + 1)) = false ∧
      (k + 1 < cs.length → wholePayload (got ++ (cs.map (·.data)).take (k + 1)) = none)) :
    slotDrives address function j got first cs = cs.map fun _ => .ack := by
  induction cs generalizing got first with
  | nil => rfl
  | cons c cs ih =>
    obtain ⟨hi, hg⟩ := hc c (by simp)
    obtain ⟨hh, hw⟩ := ok 0 (by simp)
    simp only [Nat.zero_add, List.map_cons, List.take_succ_cons, List.take_zero] at hh hw
    have hgap : ¬(if first then replyLimit else gapLimit) < c.gap := by
      cases first <;> simp [replyLimit, gapLimit] at hg ⊢ <;> omega
    rw [slotDrives, if_neg hgap, if_pos hi]
    simp only [hh, Bool.false_eq_true, if_false, List.map_cons]
    cases cs with
    | nil => simp [slotDrives]
    | cons d ds =>
      rw [hw (by simp)]
      simp only [Option.isSome_none, Bool.false_eq_true, if_false]
      refine congrArg _ (ih (fun x hx => hc x (.tail _ hx)) fun k hk => ?_)
      simpa using ok (k + 1) (by simpa using hk)

/-- The slots of an intact reply are all ACKed. -/
theorem slotDrives_reply {p : List Byte} {cs : List LineChar} (hp : p.length ≤ 48) (hl : j.lengthOk p.length = true)
    (h : arrives (telegram address (function ||| 0x80#8) p) cs) :
    slotDrives address function j [] true cs = cs.map fun _ => .ack := by
  obtain ⟨hd, hc⟩ := h
  refine slotDrives_intact hc fun k hk => ?_
  have hlen : cs.length = p.length + 4 := by
    rw [← List.length_map (f := (·.data)) (as := cs), hd]
    simp [telegram]
  rw [List.nil_append, hd]
  by_cases hlast : k + 1 = cs.length
  · refine ⟨?_, fun x => absurd hlast (Nat.ne_of_lt x)⟩
    rw [List.take_of_length_le (by simp [telegram]; omega)]
    cases p <;> rfl
  · have inHead := telegram_open (address := address) (function := function) (j := j) p hp hl k (by omega)
    have htake : (telegram address (function ||| 0x80#8) p).take (k + 1) =
        ([address, function ||| 0x80#8, BitVec.ofNat 8 p.length] ++ p).take (k + 1) :=
      List.take_append_of_le_length (by simp; omega)
    rw [htake]
    exact ⟨inHead.1, fun _ => inHead.2⟩

end

/-- Settles O60, part by part. -/
theorem wireCodesRoundTrip : Obligations.WireCodesRoundTrip := by
  refine ⟨fun a => aspectOfCode_code, fun b c a hb hc => (code_of_aspectOfCode hb).trans (code_of_aspectOfCode hc).symm,
    fun kinds xs restarted overflow hc => ⟨fun hl hf => ?_, fun hl => ?_⟩, fun b i hi => ?_,
    fun f x => ⟨fun n hn => ?_, fun hj ha => ?_, fun p hn hj h4 ha hp hl hr => ?_, fun a more u v hn hr hs hu hv => ?_⟩,
    fun a fn j got first c cs hi hg => ?_⟩
  · rw [decodeState_flags]
    exact congrArg (Option.map _) (stateSigns_entries hc hl hf)
  · rw [decodeState_flags]
    exact congrArg (Option.map _) (stateSigns_length hl)
  · obtain ⟨l1, l2, l3, l4, _⟩ := charBits_spec b (!oddOnes b) hi
    obtain ⟨s1, s2, s3, s4, _⟩ := charBits_spec b (oddOnes b) hi
    obtain ⟨d1, d2⟩ := ownByteDrive_bit b hi
    exact ⟨l1, s1, l2, s2, l3, s3, l4, s4, lineBits_parity b, supBits_parity b, rfl, d1, d2⟩
  · rw [telegramDrive, hn]
  · rw [telegramDrive_addressed (by simp [hj]), sentBytes_acked ha, if_neg (fun h => h.2 hj), List.append_nil]
  · rw [telegramDrive_addressed hn, sentBytes_acked ha, if_pos ⟨sendRequest_acked (by omega) ha, hj⟩,
      slotDrives_reply hp hl hr, List.flatMap_map]
    rfl
  · have once : sentBytes 2 f.request x.slots = [a, a] := by
      rw [hr, hs]
      simp [sentBytes, hu, hv]
    have failed : sendRequest f.request.length x.slots ≠ .accepted := by
      simp [sendRequest, sendByte, hs, hu, hv]
    rw [telegramDrive_addressed hn, once, if_neg (fun h => failed h.1)]
    simp
  · rw [slotDrives_faulty cs hi hg, List.flatMap_cons]
    rfl

end Sys2Proof.Machine
end

section
/-! The rows of the telegram engine: what an outcome row does with a telegram in flight, and how the line becomes FREE
again (O45, O51). -/

namespace Sys2Proof.Machine

/-- The sign a CAPS asks about (R47). -/
def Job.sign : Job → Nat
  | .caps i => i
  | _ => 0

/-! ### An outcome row with the ending it stands for (R36, R43) -/

section

variable {s : State} {l : Line} {x : Transcript} {f : Flight} (hr : s.resetHigh = true)
include hr

theorem exec_failure {w : Failure} {c : Bool} (he : s.ending l x = some (f, .failed w c)) :
    exec (w.row l x) s = .next (s.outcome l f .quiet (State.handFailure l f w c)) := by
  have row : failureRow w l x s = s.outcome l f .quiet (State.handFailure l f w c) := by simp [failureRow, he]
  cases w <;> exact (whenRunning_eq hr _).trans (congrArg _ row)

theorem exec_showAccepted (he : s.ending l x = some (f, .accepted)) :
    exec (.showAccepted l x) s = .next (s.outcome l f .free (State.handAccepted f)) := by
  rw [exec, execShowAccepted, whenRunning_eq hr]
  simp only [he]

theorem exec_stateReply {q : StateReply} (he : s.ending l x = some (f, .replied (.state q))) :
    exec (.stateReply l x) s = .next (s.outcome l f .free (State.handState l f q)) := by
  rw [exec, execStateReply, whenRunning_eq hr]
  simp only [he]

theorem exec_traceReply {q : TraceReply} (he : s.ending l x = some (f, .replied (.trace q))) :
    exec (.traceReply l x) s = .next (s.outcome l f .free (State.handTrace l f q)) := by
  rw [exec, execTraceReply, whenRunning_eq hr]
  simp only [he]

theorem exec_describeReply {q : DescribeReply} (he : s.ending l x = some (f, .replied (.describe q))) :
    exec (.describeReply l x) s = .next (s.outcome l f .free fun s =>
      (s.nodeSucceeded f.gantry f.retry).described f.gantry q) := by
  rw [exec, execDescribeReply, whenRunning_eq hr]
  simp only [he]

theorem exec_capsReply {es : List Aspect} (he : s.ending l x = some (f, .replied (.caps es))) :
    exec (.capsReply l x) s = .next (s.outcome l f .free fun s =>
      (s.nodeSucceeded f.gantry f.retry).capsTaken f.gantry f.job.sign es) := by
  rw [exec, execCapsReply, whenRunning_eq hr]
  simp only [he] <;> rfl

end

/-- A discarded telegram's outcome reaches the engine alone (R54). -/
theorem outcome_discarded {s : State} {l : Line} {f : Flight} (hd : f.discarded = true) (e : EngineState)
    (hand : State → State) :
    s.outcome l f e hand = s.setLine l { s.line l with engine := e, flight := none } := by
  simp only [State.outcome, hd, if_true]
  rfl

/-- The outcome of a telegram that is not discarded is handed on behind the engine's change. -/
theorem outcome_handed {s : State} {l : Line} {f : Flight} (hd : f.discarded = false) (e : EngineState)
    (hand : State → State) : s.outcome l f e hand = hand (s.onLine l (LineCtl.ended e)) := by
  simp [State.outcome, hd]

/-- Settles O45: each outcome row with `outcome_discarded`. -/
theorem discardedOutcomeChangesNothing : Obligations.DiscardedOutcomeChangesNothing := by
  intro s l x f hr hd
  refine ⟨fun w c he => ?_, fun he => ?_, fun r he => ?_, fun r he => ?_, fun r he => ?_, fun es he => ?_⟩
  · rw [exec_failure hr he, outcome_discarded hd]
  · rw [exec_showAccepted hr he, outcome_discarded hd]
  · rw [exec_stateReply hr he, outcome_discarded hd]
  · rw [exec_traceReply hr he, outcome_discarded hd]
  · rw [exec_describeReply hr he, outcome_discarded hd]
  · rw [exec_capsReply hr he, outcome_discarded hd]

/-! ### The line becomes FREE (R36, R42) -/

theorem broadcastSent_lumen {c : LineCtl} {f : Flight} {n : Nat} (hf : c.flight = some f) (hj : f.job = .lumen n) :
    c.broadcastSent = { c with engine := .free, flight := none } := by
  simp [LineCtl.broadcastSent, hf, hj, LineCtl.ended]

theorem quietEnd_due {c : LineCtl} {us : Nat} (he : c.engine = .quiet) (h : 3000 ≤ us) :
    c.quietEnd us = { c with engine := .free } := if_pos ⟨he, h⟩

theorem quietEnd_early {c : LineCtl} {us : Nat} (h : us < 3000) : c.quietEnd us = c :=
  if_neg fun k => absurd k.2 (Nat.not_le.2 h)

/-- Settles O51. -/
theorem lineBecomesFree : Obligations.LineBecomesFree := by
  intro s l hr
  refine ⟨fun f n hf hj => ?_, fun us he => ⟨fun h => ?_, fun h => ?_⟩⟩
  · rw [exec, execSent, whenRunning_eq hr, State.onLine, broadcastSent_lumen hf hj]
  · rw [exec, execLineQuietEnd, whenRunning_eq hr, State.onLine, quietEnd_due he h]
  · rw [exec, execLineQuietEnd, whenRunning_eq hr, onLine_fixed (quietEnd_early h)]

end Sys2Proof.Machine
end

section
/-! The timers of a line and of an OFFLINE node queue their telegrams (O52). -/

namespace Sys2Proof.Machine

/-! ### When a poll is due (R52, log 22) -/

/-- A telegram of this kind for the node of g is in flight on the line. -/
def LineCtl.flies (c : LineCtl) (g : Nat) (j : Job) : Prop := ∃ f, c.flight = some f ∧ f.gantry = g ∧ f.job = j

theorem tracePollDue_iff {s : State} {g : Nat} {c : LineCtl} {p : Poll} (hp : c.polls.look g = some p) :
    s.tracePollDue g c = true ↔ s.nodeState g = some .online ∧ s.geo.params.line.pollPeriod ≤ p.trace ∧
      (∀ e ∈ c.queues.trace, e.gantry ≠ g) ∧ ¬c.flies g .trace := by
  cases hf : c.flight <;>
    simp [State.tracePollDue, LineCtl.flies, hp, hf, and_assoc, imp_iff_not_or]

theorem routineStateDue_iff {s : State} {g : Nat} {c : LineCtl} {p : Poll} (hp : c.polls.look g = some p) :
    s.routineStateDue g c = true ↔ s.nodeState g = some .online ∧ s.geo.params.line.statePeriod * 1000 ≤ p.state ∧
      (∀ e ∈ c.queues.service, e.gantry = g → e.job ≠ .state .routine) ∧ ¬c.flies g (.state .routine) := by
  cases hf : c.flight <;>
    simp [State.routineStateDue, LineCtl.flies, hp, hf, and_assoc, imp_iff_not_or]

section Rows

variable {s : State} {g : Nat} (hr : s.resetHigh = true)
include hr

theorem exec_tracePollDue {r : GantryRec} (hg : s.geo.gantries.look g = some r) :
    exec (.tracePollDue g) s = .next (if s.tracePollDue g (s.line r.line) = true then
      s.onLine r.line (LineCtl.deposit .trace ⟨g, .trace, .line, false⟩) else s) := by
  rw [exec, execTracePollDue, whenRunning_eq hr, State.pollTrace, onLineOf_eq _ hg]
  split
  · rename_i h; rw [State.onLine, if_pos h]; rfl
  · rename_i h; rw [onLine_fixed]; exact if_neg h

theorem exec_routineStateDue {r : GantryRec} (hg : s.geo.gantries.look g = some r) :
    exec (.routineStateDue g) s = .next (if s.routineStateDue g (s.line r.line) = true then
      s.onLine r.line (LineCtl.deposit .service ⟨g, .state .routine, .line, false⟩) else s) := by
  rw [exec, execRoutineStateDue, whenRunning_eq hr, State.pollState, onLineOf_eq _ hg]
  split
  · rename_i h; rw [State.onLine, if_pos h]; rfl
  · rename_i h; rw [onLine_fixed]; exact if_neg h

theorem exec_confirmDue {r : GantryRec} (hg : s.geo.gantries.look g = some r)
    (hh : (s.line r.line).held.look g = some 0) :
    exec (.confirmDue g) s = .next (s.onLine r.line fun c =>
      { c with held := c.held.del g }.deposit .confirm ⟨g, .state .confirm, .rollout, false⟩) := by
  rw [exec, execConfirmDue, whenRunning_eq hr, onLineOf_eq _ hg, State.onLine, LineCtl.confirmDue, if_pos hh]
  rfl

theorem exec_lumenRepeat (l : Line) : exec (.lumenRepeat l) s = .next (s.onLine l LineCtl.repeatLumen) := by
  rw [exec, execLumenRepeat, whenRunning_eq hr]

theorem exec_offlineRetry : exec (.offlineRetry g) s = .next (if s.retryDue g then s.offlineRetry g else s) := by
  rw [exec, execOfflineRetry, whenRunning_eq hr]

end Rows

/-! ### The LUMEN repeat timer (R48) -/

theorem queueLumen_empty {c : LineCtl} (n : Nat) (h : c.queues.lumen = []) :
    c.queueLumen n = { c with queues := { c.queues with lumen := [⟨0, .lumen n, .line, false⟩] } } := by
  simp only [LineCtl.queueLumen, h, LineCtl.deposit, Queues.look, Queues.put, List.nil_append]

theorem queueLumen_waiting {c : LineCtl} (n : Nat) {e : Entry} {es : List Entry} (h : c.queues.lumen = e :: es) :
    c.queueLumen n = { c with queues := { c.queues with lumen := { e with job := .lumen n } :: es } } := by
  simp only [LineCtl.queueLumen, h]

theorem repeatLumen_due {c : LineCtl} {ms : Nat} (ht : c.lumenTimer = some ms) (h : 30000 ≤ ms) :
    c.repeatLumen = { c.queueLumen c.level with lumenTimer := some 0 } := by
  simp [LineCtl.repeatLumen, ht, lumenPeriod, h]

theorem repeatLumen_early {c : LineCtl} {ms : Nat} (ht : c.lumenTimer = some ms) (h : ms < 30000) :
    c.repeatLumen = c := by
  simp [LineCtl.repeatLumen, ht, lumenPeriod, Nat.not_le.2 h]

/-! ### The OFFLINE retry (R63) -/

theorem retryDue_iff {s : State} {g : Nat} {n : NodeRec} {ms : Nat} (hn : s.nodes.look g = some n)
    (ho : n.state = .offline) (ht : n.retry = some ms) : s.retryDue g = true ↔ 30000 ≤ ms := by
  have h : s.retryDue g = decide (retryLimit ≤ ms) := by simp [State.retryDue, hn, ho, ht]
  rw [h, decide_eq_true_iff, retryLimit]

theorem offlineRetry_eq {s : State} {g : Nat} {r : GantryRec} (hg : s.geo.gantries.look g = some r) :
    s.offlineRetry g = (s.onNode g fun n => { n with retry := none }).onLine r.line
      (LineCtl.deposit .service ⟨g, .describe, .registry, false⟩) := onLineOf_eq _ hg

/-- Settles O52: each timer's row with the lemma that says when it is due. -/
theorem dueTimersQueueTelegrams : Obligations.DueTimersQueueTelegrams := by
  intro s g r hr hg
  refine ⟨fun p ho hp => ⟨fun ht hq hf => ?_, fun h => ?_, fun ht hq hf => ?_, fun h => ?_⟩, fun ho => ⟨?_, ?_⟩,
    fun hh => ?_, fun l ms ht => ⟨fun hm hq => ?_, fun e es hm hq => ?_, fun hm => ?_⟩,
    fun n ms hn hs ht => ⟨fun hm => ?_, fun hm => ?_⟩⟩
  · rw [exec_tracePollDue hr hg, if_pos ((tracePollDue_iff hp).2 ⟨ho, ht, hq, hf⟩)]
    rfl
  · rw [exec_tracePollDue hr hg, if_neg fun hd => ?_]
    obtain ⟨-, ht, hq, hf⟩ := (tracePollDue_iff hp).1 hd
    rcases h with h | ⟨e, he, h⟩ | h
    · omega
    · exact hq e he h
    · exact hf h
  · rw [exec_routineStateDue hr hg, if_pos ((routineStateDue_iff hp).2 ⟨ho, ht, hq, hf⟩)]
    rfl
  · rw [exec_routineStateDue hr hg, if_neg fun hd => ?_]
    obtain ⟨-, ht, hq, hf⟩ := (routineStateDue_iff hp).1 hd
    rcases h with h | ⟨e, he, hg', h⟩ | h
    · omega
    · exact hq e he hg' h
    · exact hf h
  · rw [exec_tracePollDue hr hg, if_neg (by simp [State.tracePollDue, ho])]
  · rw [exec_routineStateDue hr hg, if_neg (by simp [State.routineStateDue, ho])]
  · refine ⟨_, exec_confirmDue hr hg hh, ?_, fun k hk => ?_, ?_⟩
    · simp
    · simp [hk]
    · rw [line_onLine_self]
      rfl
  · rw [exec_lumenRepeat hr, State.onLine, repeatLumen_due ht hm, queueLumen_empty _ hq]
  · rw [exec_lumenRepeat hr, State.onLine, repeatLumen_due ht hm, queueLumen_waiting _ hq]
  · rw [exec_lumenRepeat hr, onLine_fixed (repeatLumen_early ht hm)]
  · refine ⟨s.offlineRetry g, ?_, ?_, fun k hk => ?_, ?_⟩
    · rw [exec_offlineRetry hr, if_pos ((retryDue_iff hn hs ht).2 hm)]
    · simp [offlineRetry_eq hg, hn]
    · simp [offlineRetry_eq hg, hk]
    · rw [offlineRetry_eq hg]
      cases r.line <;> rfl
  · rw [exec_offlineRetry hr, if_neg fun hd => ?_]
    have := (retryDue_iff hn hs ht).1 hd
    omega

end Sys2Proof.Machine
end

section
/-! When a gate is HELD, the events at which it is evaluated, and its expiry (O59). -/

namespace Sys2Proof.Machine

/-! ### The events (R162) -/

theorem exec_passComplete_renews {s t : State} (ht : exec .passComplete s = .next t) (g : Nat) : RenewsShow g s t := by
  rw [exec, execPassComplete] at ht
  obtain rfl | ⟨-, rfl⟩ := whenRunning_cases ht
  · exact .refl g t
  · split
    · exact .refl g s
    · exact renews_completePass _ s g

/-! ### A publication (R157, R163) -/

theorem publish_replaces {s : State} {g : Nat} {r : RolloutRec} {q : Pending} (ho : s.nodeState g = some .online)
    (hr : s.rollout.look g = some r) (hf : r.inFlight = false) (hq : r.pending = some q)
    (hc : r.commanded ≠ (s.shown g).map some) (hs : q.body.contents ≠ s.shown g) :
    s.publish g = (s.endConfirmation g).replacePending g (s.shown g) := by
  have hc : entriesEqual r.commanded (s.shown g) = false := by rw [← Bool.not_eq_true, entriesEqual_iff]; exact hc
  simp [State.publish, State.compare, hr, ho, hf, hq, hc, hs]

theorem endConfirmation_rollout (s : State) (g : Nat) :
    (s.endConfirmation g).rollout = s.rollout.adjust g RolloutRec.settle := withdrawConfirm_rollout ..

theorem kinds_eq {s : State} {g : Nat} {r : GantryRec} (h : s.geo.gantries.look g = some r) : s.kinds g = r.kinds := by
  simp [State.kinds, h]

/-- R163: a publication that replaces the contents clears the expiry and starts the timer afresh exactly where the
closures shown change. -/
theorem publish_gate {s : State} {g : Nat} {gr : GantryRec} {r : RolloutRec} {q : Pending}
    (hg : s.geo.gantries.look g = some gr) (ho : s.nodeState g = some .online) (hr : s.rollout.look g = some r)
    (hf : r.inFlight = false) (hq : r.pending = some q) (hc : r.commanded ≠ (s.shown g).map some)
    (hs : q.body.contents ≠ s.shown g) :
    ∃ r', (s.publish g).rollout.look g = some r' ∧
      (closureSet gr.kinds q.body.contents = closureSet gr.kinds (s.shown g) →
        r'.gateExpired = r.gateExpired ∧ (r.gateTimer ≠ none → r'.gateTimer = r.gateTimer)) ∧
      (closureSet gr.kinds q.body.contents ≠ closureSet gr.kinds (s.shown g) →
        r'.gateExpired = false ∧ r'.gateTimer = if r'.gateHeld = true then some 0 else none) := by
  have hk : (s.endConfirmation g).kinds g = gr.kinds :=
    (kinds_congr (touch_endConfirmation g s).geo g).trans (kinds_eq hg)
  have hr' : (s.endConfirmation g).rollout.look g = some r.settle := by simp [endConfirmation_rollout, hr]
  obtain ⟨r', h1, h2, h3⟩ := replacePending_gate (s.shown g) hr' (q := q) hq
  rw [hk] at h2 h3
  exact ⟨r', by rw [publish_replaces ho hr hf hq hc hs]; exact h1, h2, h3⟩

/-! ### The expiry (R163) -/

theorem gateDue_iff {s : State} {g : Nat} {r : RolloutRec} {q : Pending} {ms : Nat} (hr : s.rollout.look g = some r)
    (hq : r.pending = some q) (ht : r.gateTimer = some ms) (he : r.gateExpired = false) :
    s.gateDue g = true ↔ s.geo.params.plan.gateTime * 1000 ≤ ms := by
  have h : s.gateDue g = decide (s.geo.params.plan.gateTime * 1000 ≤ ms) := by simp [State.gateDue, hr, hq, ht, he]
  rw [h, decide_eq_true_iff]

theorem exec_gateExpired {s : State} (hr : s.resetHigh = true) (g : Nat) :
    exec (.gateExpired g) s = .next (if s.gateDue g then s.expireGate g else s) := by
  rw [exec, execGateExpired, whenRunning_eq hr]

/-- The mark set and the SHOW released. -/
def RolloutRec.expire (r : RolloutRec) : RolloutRec := { r with gateExpired := true, gateHeld := false }

theorem expireGate_free {s : State} {g : Nat} {r : RolloutRec} (hr : s.rollout.look g = some r)
    (hh : r.gateHeld = false) : s.expireGate g = s.onRollout g RolloutRec.expire := by
  simp only [State.expireGate, hr, hh, Bool.false_eq_true, if_false]
  rfl

theorem expireGate_held {s : State} {g : Nat} {r : RolloutRec} (hr : s.rollout.look g = some r)
    (hh : r.gateHeld = true) :
    s.expireGate g = (s.onRollout g RolloutRec.expire).record .plan .gateExpired .warn (some g) none := by
  simp only [State.expireGate, hr, hh, if_true]
  rfl

theorem expireGate_rollout (s : State) (g : Nat) :
    (s.expireGate g).rollout = s.rollout.adjust g RolloutRec.expire ∨ s.rollout.look g = none := by
  cases hr : s.rollout.look g with
  | none => exact .inr rfl
  | some r =>
    refine .inl ?_
    cases hh : r.gateHeld with
    | false => rw [expireGate_free hr hh]; rfl
    | true => rw [expireGate_held hr hh, record_rollout]; rfl

/-- Settles O59: the evaluation is `evalGate_spec`, the events `settles_outcomeRow`, `renews_outcomeRow`,
`settles_gantryService`, `renews_completePass` and `setParameters_stands`, the replacement `publish_gate`. -/
theorem gateHoldsUntilItExpires : Obligations.GateHoldsUntilItExpires := by
  refine ⟨fun s g r q hr hq => ?_, fun s t l x f en c he hc ht => ⟨fun k hk => ?_, fun hp => ?_⟩,
    fun s t f rest g b k h hp ht hk hc => ?_, fun s t g ht hp => ?_,
    fun s t f rest fields rep h hm hp ht hr ho k => setParameters_stands h hm hp ht hr ho k,
    fun s g gr r q hg ho hr hf hq hc hs => ?_, fun s g r q ms hres hr hq ht he => ⟨fun hm => ?_, fun hm => ?_⟩⟩
  · obtain ⟨r', h1, h2, h3, h4, h5, h6⟩ := evalGate_spec hr hq
    refine ⟨r', h1, h2, h3, h4, h5, h6, evalGate_stands s g, fun hh d => ?_⟩
    rw [← Bool.not_eq_true, eligible_iff]
    exact fun h => h.1 ⟨rfl, r', h1, hh⟩
  · have h := settles_outcomeRow he hc ht
    exact ⟨fun d => h.fresh d k hk, h.kept k hk⟩
  · exact (renews_outcomeRow he hc ht).resolve_left hp
  · exact (settles_gantryService h hp ht).fresh hc k hk
  · exact (exec_passComplete_renews ht g).resolve_left hp
  · obtain ⟨r', h1, h2, h3⟩ := publish_gate hg ho hr hf hq hc hs
    have hk := closureSet_eq_iff (kinds_nodup gr) q.body.contents (s.shown g)
    exact ⟨r', h1, fun e => h2 (hk.2 e), fun e => h3 (fun e' => e (hk.1 e'))⟩
  · have hx := (expireGate_rollout s g).resolve_right (by simp [hr])
    refine ⟨s.expireGate g, ?_, ?_, fun k hk => ?_, fun hh => ?_, fun hh => ?_⟩
    · rw [exec_gateExpired hres, if_pos ((gateDue_iff hr hq ht he).2 hm)]
    · rw [hx, look_adjust_self, hr]; rfl
    · rw [hx, look_adjust_other _ _ hk]
    · rw [expireGate_free hr hh]; rfl
    · rw [hx, expireGate_held hr hh]; rfl
  · rw [exec_gateExpired hres, if_neg]
    rw [gateDue_iff hr hq ht he]
    omega

end Sys2Proof.Machine
end

section
/-! The arbiter's choice and the bytes of the telegram it sends (O41). -/

namespace Sys2Proof.Machine

/-! ### The oldest eligible entry of the first class that holds one (R50) -/

theorem takeFirst_none {ok : Entry → Bool} {es : List Entry} (h : ∀ e ∈ es, ok e = false) : takeFirst ok es = none := by
  induction es with
  | nil => rfl
  | cons e es ih =>
    rw [takeFirst, h e List.mem_cons_self, ih fun x hx => h x (List.mem_cons_of_mem _ hx)]
    rfl

theorem takeFirst_split {ok : Entry → Bool} {ahead : List Entry} {e : Entry} (behind : List Entry)
    (h : ∀ x ∈ ahead, ok x = false) (he : ok e = true) :
    takeFirst ok (ahead ++ e :: behind) = some (e, ahead ++ behind) := by
  induction ahead with
  | nil => rw [List.nil_append, takeFirst, he]; rfl
  | cons x xs ih =>
    rw [List.cons_append, takeFirst, h x List.mem_cons_self, ih fun y hy => h y (List.mem_cons_of_mem _ hy)]
    rfl

theorem choose_skip {s : State} {q : Queues} {before after : List Machine.Class}
    (h : ∀ c ∈ before, ∀ e ∈ q.look c, s.eligible e = false) : s.choose q (before ++ after) = s.choose q after := by
  induction before with
  | nil => rfl
  | cons c cs ih =>
    rw [List.cons_append, State.choose, takeFirst_none (h c List.mem_cons_self)]
    exact ih fun d hd => h d (List.mem_cons_of_mem _ hd)

theorem choose_first {s : State} {q : Queues} {c : Machine.Class} {ahead behind : List Entry} {e : Entry}
    (after : List Machine.Class) (hq : q.look c = ahead ++ e :: behind) (h : ∀ x ∈ ahead, s.eligible x = false)
    (he : s.eligible e = true) : s.choose q (c :: after) = some (e, q.put c (ahead ++ behind)) := by
  rw [State.choose, hq, takeFirst_split behind h he]

/-! ### The row (R36) -/

theorem exec_telegramStart {s : State} (hr : s.resetHigh = true) (l : Line) :
    exec (.telegramStart l) s = .next (s.startTelegram l) := by
  rw [exec, execTelegramStart, whenRunning_eq hr]

/-- The line controller that begins to send. -/
def LineCtl.sends (x : Flight) (q : Queues) (c : LineCtl) : LineCtl :=
  { c with engine := .sending, flight := some x, queues := q }

theorem startTelegram_none {s : State} {l : Line} (h : s.choose (s.line l).queues Class.order = none) :
    s.startTelegram l = s := by
  simp [State.startTelegram, h]

theorem startTelegram_some {s : State} {l : Line} (hm : s.geo.mode = .run) (hf : (s.line l).engine = .free) {e : Entry}
    {q : Queues} (h : s.choose (s.line l).queues Class.order = some (e, q)) :
    s.startTelegram l = State.takeShow e (s.onLine l (LineCtl.sends (s.flightOf e) q)) := by
  simp only [State.startTelegram, hm, hf, h, and_self, if_true]
  rfl

/-- A SHOW that is taken. -/
def RolloutRec.taken (r : RolloutRec) : RolloutRec := { r.noPending with inFlight := true }

theorem takeShow_display {e : Entry} (h : e.job = .display) (s : State) :
    State.takeShow e s = s.onRollout e.gantry RolloutRec.taken := by
  simp only [State.takeShow, h]
  rfl

theorem takeShow_other {e : Entry} (h : e.job ≠ .display) (s : State) : State.takeShow e s = s := by
  unfold State.takeShow
  split
  · rename_i hd; exact absurd hd h
  · rfl

theorem takeShow_line (e : Entry) (s : State) (l : Line) : (State.takeShow e s).line l = s.line l := by
  by_cases h : e.job = .display
  · rw [takeShow_display h, onRollout_line]
  · rw [takeShow_other h]

theorem takeShow_frame (e : Entry) (s : State) :
    State.takeShow e s = { s with rollout := (State.takeShow e s).rollout } := by
  by_cases h : e.job = .display
  · rw [takeShow_display h]; rfl
  · rw [takeShow_other h]

/-! ### The bytes of a request (R35, R44, R47, R48, R176) -/

theorem showPayload_eq (as : List Aspect) (i : Nat) :
    showPayload i as = (as.zipIdx i).flatMap fun y => [BitVec.ofNat 8 y.2, y.1.code] := by
  induction as generalizing i with
  | nil => rfl
  | cons a as ih => rw [showPayload, ih, List.zipIdx_cons, List.flatMap_cons]; rfl

theorem addressOf_gantry {s : State} {g : Nat} {r : GantryRec} (h : s.geo.gantries.look g = some r) :
    s.addressOf g = BitVec.ofNat 8 r.address := by simp [State.addressOf, h]

theorem addressOf_none {s : State} {g : Nat} (h : s.geo.gantries.look g = none) : s.addressOf g = 0 := by
  simp [State.addressOf, h]

theorem showBody_display {s : State} {e : Entry} {r : RolloutRec} {p : Pending} (hj : e.job = .display)
    (hr : s.rollout.look e.gantry = some r) (hp : r.pending = some p) : s.showBody e = some p.body := by
  simp [State.showBody, hj, hr, hp]

theorem showBody_other {s : State} {e : Entry} (hj : e.job ≠ .display) : s.showBody e = none := by
  unfold State.showBody
  split
  · rename_i hd; exact absurd hd hj
  · rfl

/-- The request of a telegram other than a SHOW. -/
theorem request_other {s : State} {e : Entry} (hj : e.job ≠ .display) :
    (s.flightOf e).request = telegram (s.addressOf e.gantry) e.job.code (e.job.payload []) := by
  simp only [State.flightOf, showBody_other hj]

theorem request_display {s : State} {e : Entry} {r : RolloutRec} {p : Pending} (hj : e.job = .display)
    (hr : s.rollout.look e.gantry = some r) (hp : r.pending = some p) :
    (s.flightOf e).request = telegram (s.addressOf e.gantry) 0x01#8
      (p.body.contents.zipIdx.flatMap fun y => [BitVec.ofNat 8 y.2, y.1.code]) := by
  simp only [State.flightOf, showBody_display hj hr hp, hj, Job.payload, showPayload_eq]
  rfl

/-- Settles O41: the choice is `choose_skip` and `choose_first`, with `eligible_iff` for what is eligible. -/
theorem arbiterTakesFirstEligible : Obligations.ArbiterTakesFirstEligible := by
  intro s l hr hm hf eligible bytes
  have bad {e : Entry} (h : ¬eligible e) : s.eligible e = false := by rw [← Bool.not_eq_true, eligible_iff]; exact h
  rw [exec_telegramStart hr]
  refine ⟨fun h => ?_, fun before after c ahead behind e ho hb hq ha he => ?_⟩
  · rw [startTelegram_none]
    have := choose_skip (s := s) (q := (s.line l).queues) (before := Class.order) (after := []) fun c _ e hc => bad (h c e hc)
    rwa [List.append_nil] at this
  have hc : s.choose (s.line l).queues Class.order = some (e, (s.line l).queues.put c (ahead ++ behind)) := by
    rw [Class.order, ← ho, choose_skip fun c' hc' x hx => bad (hb c' hc' x hx)]
    exact choose_first after hq (fun x hx => bad (ha x hx)) ((eligible_iff s e).2 he)
  have other {j : Job} (hj : e.job = j) (hd : j ≠ .display) : e.job ≠ .display := by rwa [hj]
  refine ⟨_, s.flightOf e, congrArg _ (startTelegram_some hm hf hc), ?_, ?_, rfl, rfl, rfl, rfl, ?_, fun c' h => ?_,
    fun l' h => ?_, ?_, fun o r hj hg => ?_, fun r hj hg => ?_,
    fun r hg => ⟨fun hj => ?_, fun i hj => ?_, fun k p hj hk hp => ?_⟩, fun n hj hg => ?_, fun hj => ?_,
    fun hj r p hk hp => ⟨showBody_display hj hk hp, ?_, fun k h => ?_⟩⟩
  · rw [takeShow_line, line_onLine_self]; rfl
  · rw [takeShow_line, line_onLine_self]; rfl
  · rw [takeShow_line, line_onLine_self]; exact look_put_class_self ..
  · rw [takeShow_line, line_onLine_self]; exact look_put_class_other _ _ h
  · rw [takeShow_line, line_onLine_other _ _ h]
  · rw [takeShow_frame, onLine_frame]
  · rw [request_other (other hj (by simp)), addressOf_gantry hg, hj]; rfl
  · rw [request_other (other hj (by simp)), addressOf_gantry hg, hj]; rfl
  · rw [request_other (other hj (by simp)), addressOf_gantry hg, hj]; rfl
  · rw [request_other (other hj (by simp)), addressOf_gantry hg, hj]; rfl
  · rw [request_display hj hk hp, addressOf_gantry hg]; rfl
  · rw [request_other (other hj (by simp)), addressOf_none hg, hj]; rfl
  · rw [takeShow_other hj, onLine_rollout]
  · rw [takeShow_display hj, onRollout_rollout, onLine_rollout, look_adjust_self, hk]; rfl
  · rw [takeShow_display hj, onRollout_rollout, onLine_rollout, look_adjust_other _ _ h]

end Sys2Proof.Machine
end

section
/-! What the transcript of a telegram says (O42). -/

namespace Sys2Proof.Machine

/-! ### The sending (R37, R38) -/

theorem sendRequest_noNode {a b : Slot} (n : Nat) (ha : slotAnswer a ≠ .ack) (hb : slotAnswer b ≠ .ack) :
    sendRequest n [a, b] = .failed .noNode := by
  simp [sendRequest, sendByte, ha, hb]

theorem sendRequest_nackLimit {k n : Nat} {sl xs : List Slot} (h1 : 1 ≤ k) (hk : k + 2 ≤ n)
    (ht : ackedWithin (2 :: List.replicate (k - 1) 4) sl) (hx : xs.length = 4) (hn : ∀ x ∈ xs, slotAnswer x ≠ .ack) :
    sendRequest n (sl ++ xs) = .failed .nackLimit := by
  obtain ⟨m, hm⟩ : ∃ m, n - 1 - k = m + 1 := ⟨n - 2 - k, by omega⟩
  have hb : sendByte 4 xs = some (false, []) := by
    have := sendByte_failed [] hn
    rwa [hx, List.append_nil] at this
  rw [sendRequest_taken xs h1 (by omega) ht, hm, sendRest, hb]

theorem sendRequest_check {n : Nat} {sl : List Slot} (x : Slot) (hn : 2 ≤ n)
    (ht : ackedWithin (2 :: List.replicate (n - 1 - 1) 4) sl) :
    sendRequest n (sl ++ [x]) = if slotAnswer x = .ack then .accepted else .failed .corrupt := by
  rw [sendRequest_taken [x] (by omega) (Nat.le_refl _) ht, Nat.sub_self]
  by_cases hx : slotAnswer x = .ack <;> simp [sendRest, sendByte, hx]

/-! ### From the request to the ending (R36, R42) -/

section

variable {s : State} {l : Line} {f : Flight} {t : Transcript} (hf : (s.line l).flight = some f)
  (hl : ∀ n, f.job ≠ .lumen n)
include hf hl

theorem ending_failed {w : Failure} (h : sendRequest f.request.length t.slots = .failed w) :
    s.ending l t = some (f, .failed w false) := by
  simp only [State.ending, hf]
  cases hj : f.job with
  | lumen n => exact absurd hj (hl n)
  | display => simp only [State.telegramEnding, hj, h]
  | state o => simp only [State.telegramEnding, hj, h]
  | trace => simp only [State.telegramEnding, hj, h]
  | describe => simp only [State.telegramEnding, hj, h]
  | caps i => simp only [State.telegramEnding, hj, h]

theorem ending_reply (hd : f.job ≠ .display) (h : sendRequest f.request.length t.slots = .accepted) :
    s.ending l t = some (f, s.replyEnding f t) := by
  simp only [State.ending, hf]
  cases hj : f.job with
  | lumen n => exact absurd hj (hl n)
  | display => exact absurd hj hd
  | state o => simp only [State.telegramEnding, hj, h]
  | trace => simp only [State.telegramEnding, hj, h]
  | describe => simp only [State.telegramEnding, hj, h]
  | caps i => simp only [State.telegramEnding, hj, h]

omit hl in
theorem ending_show (hd : f.job = .display) (h : sendRequest f.request.length t.slots = .accepted) :
    s.ending l t = some (f, .accepted) := by
  simp only [State.ending, hf, State.telegramEnding, hd, h]

end

/-! ### The reply (R39 to R41) -/

theorem replyEnding_failed {s : State} {f : Flight} {t : Transcript} {w : Failure} {c : Bool}
    (h : receive (f.request.getD 0 0) (f.request.getD 1 0) f.job t.idle [] true t.reply = .failed w c) :
    s.replyEnding f t = .failed w c := by
  simp only [State.replyEnding, h]

theorem replyEnding_content {s : State} {f : Flight} {t : Transcript} {p : List Byte}
    (h : receive (f.request.getD 0 0) (f.request.getD 1 0) f.job t.idle [] true t.reply = .reply p) {c : Content}
    (hc : decodeContent (s.kinds f.gantry) (s.hostedLanes f.gantry) p f.job = some c) :
    s.replyEnding f t = .replied c := by
  simp only [State.replyEnding, h, hc]

theorem replyEnding_noContent {s : State} {f : Flight} {t : Transcript} {p : List Byte}
    (h : receive (f.request.getD 0 0) (f.request.getD 1 0) f.job t.idle [] true t.reply = .reply p)
    (hc : decodeContent (s.kinds f.gantry) (s.hostedLanes f.gantry) p f.job = none) :
    s.replyEnding f t = .failed .corrupt true := by
  simp only [State.replyEnding, h, hc]

section

variable {address function : Byte} {j : Job} {idle : Nat}

theorem receive_silent (h : 20000 ≤ idle) :
    receive address function j idle [] true [] = .failed .replyTimeout false := by
  simp [receive, replyLimit, h]

theorem receive_late {c : LineChar} (cs : List LineChar) (h : 20000 < c.gap) :
    receive address function j idle [] true (c :: cs) = .failed .replyTimeout false := by
  simp [receive, replyLimit, h]

/-- A byte that fails at its place ends the reply at once, whatever is sent behind it. -/
theorem receive_headerFails {bs : List Byte} {b : Byte} {cs : List LineChar} (rest : List LineChar)
    (h : brings (bs ++ [b]) cs) (ht : inTime true cs)
    (ok : ∀ k, k < bs.length → headerFails address function j (bs.take (k + 1)) = false ∧
      wholePayload (bs.take (k + 1)) = none)
    (e : headerFails address function j (bs ++ [b]) = true) :
    receive address function j idle [] true (cs ++ rest) = .failed .corrupt false := by
  rw [receive_last rest h ht ok (.inl e), if_pos e]

theorem receive_badAddress {b : Byte} {cs : List LineChar} (rest : List LineChar) (ht : inTime true cs)
    (hb : b ≠ address) (h : brings [b] cs) :
    receive address function j idle [] true (cs ++ rest) = .failed .corrupt false :=
  receive_headerFails (bs := []) rest h ht (by simp) (by simp [headerFails, hb])

theorem receive_badFunction {b : Byte} {cs : List LineChar} (rest : List LineChar) (ht : inTime true cs)
    (hb : b ≠ function ||| 0x80#8) (h : brings [address, b] cs) :
    receive address function j idle [] true (cs ++ rest) = .failed .corrupt false := by
  refine receive_headerFails (bs := [address]) rest h ht (fun k hk => ?_) (by simp [headerFails, hb])
  obtain rfl : k = 0 := by simpa using hk
  simp [headerFails, wholePayload]

theorem receive_badLength {b : Byte} {cs : List LineChar} (rest : List LineChar) (ht : inTime true cs)
    (hb : 48 < b.toNat ∨ j.lengthOk b.toNat = false) (h : brings [address, function ||| 0x80#8, b] cs) :
    receive address function j idle [] true (cs ++ rest) = .failed .corrupt false := by
  refine receive_headerFails (bs := [address, function ||| 0x80#8]) rest h ht (fun k hk => ?_) ?_
  · match k, hk with
    | 0, _ => simp [headerFails, wholePayload]
    | 1, _ => simp [headerFails, wholePayload]
  · rcases hb with hb | hb
    · simp [headerFails, Nat.not_le.2 hb]
    · simp [headerFails, hb]

/-- The bytes of a telegram before its CHECK. -/
def replyHead (address function : Byte) (p : List Byte) : List Byte :=
  [address, function ||| 0x80#8, BitVec.ofNat 8 p.length] ++ p

variable {p : List Byte} (hp : p.length ≤ 48) (hl : j.lengthOk p.length = true) {cs : List LineChar}
include hp hl

/-- A silence behind a byte of the reply, intact or faulty, breaks it while its CHECK has not come. -/
theorem receive_partial {k : Nat} {bad : List LineChar} (rest : List LineChar)
    (hk : k ≤ (replyHead address function p).length) (h : brings ((replyHead address function p).take k) cs)
    (ht : inTime true cs) (hb : ∀ y ∈ bad, LineChar.intact y = false) (htb : inTime cs.isEmpty bad)
    (hne : cs ++ bad ≠ []) :
    receive address function j idle [] true (cs ++ bad ++ rest) =
      receive address function j idle ((replyHead address function p).take k) false rest := by
  have ok : ∀ i, i < ((replyHead address function p).take k).length →
      headerFails address function j ([] ++ ((replyHead address function p).take k).take (i + 1)) = false ∧
        wholePayload ([] ++ ((replyHead address function p).take k).take (i + 1)) = none := by
    intro i hi
    rw [List.length_take] at hi
    rw [List.nil_append, List.take_take, Nat.min_eq_left (by omega)]
    refine telegram_open p hp hl i ?_
    simp only [replyHead, List.length_append, List.length_cons, List.length_nil] at hk
    omega
  have hlast : (cs.isEmpty && bad.isEmpty) = false := by
    cases cs with
    | nil => simpa using hne
    | cons c cs => rfl
  rw [List.append_assoc, receive_brings _ h ht ok, List.nil_append, Bool.true_and, receive_bad bad rest hb htb, hlast]

/-- The byte at the place of CHECK ends the reply. -/
theorem receive_check {check : Byte} (h : brings (replyHead address function p ++ [check]) cs) (ht : inTime true cs) :
    receive address function j idle [] true cs =
      if check = crc8 (replyHead address function p) then .reply p else .failed .corrupt true := by
  have hn : (BitVec.ofNat 8 p.length).toNat = p.length := by simp; omega
  have hw : wholePayload (replyHead address function p ++ [check]) = some p := by
    simp [replyHead, wholePayload, hn]
  have hh : headerFails address function j (replyHead address function p ++ [check]) = false := by
    cases p <;> simp [replyHead, headerFails]
  have hm : checkMatches (replyHead address function p ++ [check]) =
      (check == crc8 (replyHead address function p)) := by
    simp [checkMatches]
  have e := receive_last (address := address) (function := function) (j := j) (idle := idle) [] h ht
    (fun k hk => telegram_open p hp hl k (by simp [replyHead] at hk; omega)) (.inr (by rw [hw]; simp))
  rw [List.append_nil] at e
  rw [e, hh, hw, hm]
  simp

end

theorem receive_broken {address function : Byte} {j : Job} {idle : Nat} (got : List Byte) (h : 3000 < idle) :
    receive address function j idle got false [] = .failed .replyBroken false := by
  simp [receive, gapLimit, h]

theorem receive_gap {address function : Byte} {j : Job} {idle : Nat} (got : List Byte) {c : LineChar}
    (rest : List LineChar) (h : 3000 < c.gap) :
    receive address function j idle got false (c :: rest) = .failed .replyBroken false := by
  simp [receive, gapLimit, h]

/-- Settles O42: the sending by `sendRequest_noNode`, `sendRequest_nackLimit` and `sendRequest_check`, the reply byte by
byte. -/
theorem transcriptGivesOutcome : Obligations.TranscriptGivesOutcome := by
  intro s l f hf hl hlen address function taken
  refine ⟨fun a b reply idle ha hb => ending_failed hf hl (sendRequest_noNode _ ha hb),
    fun k sl xs reply idle h1 hk ht hx hn => ending_failed hf hl (sendRequest_nackLimit h1 (by omega) ht hx hn),
    fun sl x reply idle ht hx => ending_failed hf hl ?_, fun sl x ht hx => ?_⟩
  · rw [sendRequest_check x (by omega) ht, if_neg hx]
  have sent : sendRequest f.request.length (sl ++ [x]) = .accepted := by
    rw [sendRequest_check x (by omega) ht, if_pos hx]
  intro ends
  refine ⟨fun hd reply idle => ending_show hf hd sent, fun hd => ?_⟩
  have fails {cs idle w c} (h : receive (f.request.getD 0 0) (f.request.getD 1 0) f.job idle [] true cs = .failed w c) :
      ends cs idle (.failed w c) :=
    (ending_reply hf hl hd sent).trans (congrArg (fun e => some (f, e)) (replyEnding_failed h))
  refine ⟨fun idle h => fails (receive_silent h), fun c cs idle h => fails (receive_late cs h),
    fun b cs rest idle ht => ⟨fun hb h => fails (receive_badAddress rest ht hb h),
      fun hb h => fails (receive_badFunction rest ht hb h), fun hb h => fails (receive_badLength rest ht hb h)⟩,
    fun p cs idle hp hlk ht => ?_⟩
  refine ⟨fun k bad hk h _ hb htb hne => ⟨fun hi => fails ?_, fun c rest hc => fails ?_⟩, fun check hck h => fails ?_,
    fun h => ?_⟩
  · rw [← List.append_nil (cs ++ bad), receive_partial hp hlk [] hk h ht hb htb hne, receive_broken _ hi]
  · rw [receive_partial hp hlk _ hk h ht hb htb hne, receive_gap _ _ hc]
  · exact (receive_check hp hlk h ht).trans (if_neg hck)
  · have whole := (receive_check (idle := idle) hp hlk h ht).trans (if_pos rfl)
    exact ⟨fun hc => (ending_reply hf hl hd sent).trans (congrArg (fun e => some (f, e)) (replyEnding_noContent whole hc)),
      fun c hc => (ending_reply hf hl hd sent).trans (congrArg (fun e => some (f, e)) (replyEnding_content whole hc))⟩

end Sys2Proof.Machine
end

section
/-! Banks and notices: what a record leaves in each bank (R170), and what a raised notice leaves in the queue (R29). -/

namespace Sys2Proof.Machine

/-! ### A bank takes an error (R170) -/

theorem take_fault {b : Bank} {e x : ErrorRec} (h : b.held = some x) (hx : x.severity = .fault) :
    (b.take e).1 = ⟨some x, true⟩ := by
  simp [Bank.take, h, hx]

theorem take_replaces {b : Bank} {e x : ErrorRec} (h : b.held = some x) (hx : x.severity = .warn)
    (he : e.severity = .fault) : (b.take e).1 = ⟨some e, true⟩ := by
  simp [Bank.take, h, hx, he]

/-- What becomes of a WARN (R171). -/
theorem take_warn_disposition (b : Bank) {e : ErrorRec} (he : e.severity = .warn) :
    (b.take e).2 = if b.held = none then .held else .notHeld := by
  cases h : b.held <;> simp [Bank.take, h, he]

/-- A WARN makes no bank faulty and clears none. -/
theorem faulty_take_warn (b : Bank) {e : ErrorRec} (he : e.severity = .warn) : (b.take e).1.faulty = b.faulty := by
  cases h : b.held with
  | none => simp [Bank.faulty, Bank.take, h, he]
  | some x => rw [take_warn h he]; simp [Bank.faulty, h]

theorem output_take_warn (b : Banks) (id : BankId) {e : ErrorRec} (he : e.severity = .warn) :
    (b.put id ((b.look id).take e).1).output = b.output := by
  cases id <;> simp [Banks.output, Banks.put, Banks.look, faulty_take_warn _ he]

/-- A bank that holds an error keeps it, or a FAULT has replaced it. -/
theorem take_held_or_fault {b : Bank} {e x : ErrorRec} (h : b.held = some x) :
    (b.take e).1.held = some x ∨ ∃ y, (b.take e).1.held = some y ∧ y.severity = .fault := by
  unfold Bank.take
  simp only [h]
  split
  · rename_i hs; exact .inr ⟨e, rfl, hs.2⟩
  · exact .inl rfl

theorem lineBank_ne_link (l : Line) : lineBank l ≠ .link := by cases l <;> simp [lineBank]

theorem lineBank_ne_measure (l : Line) : lineBank l ≠ .measure := by cases l <;> simp [lineBank]

/-- A notice that finds the queue full touches the LINK bank alone (R30). -/
theorem raise_bank {id : BankId} (hid : id ≠ .link) (b : NoticeBody) (s : State) :
    (s.raise b).banks.look id = s.banks.look id := by
  rw [raise_frame]
  cases id <;> first | rfl | exact absurd rfl hid

theorem record_bank_self {id : BankId} (hid : id ≠ .link) (c : ErrorCode) (v : Severity) (g st : Option Nat) (s : State) :
    (s.record id c v g st).banks.look id = ((s.banks.look id).take ⟨v, c, g, st, s.clock⟩).1 :=
  (raise_bank hid ..).trans (banks_look_put_self ..)

theorem record_bank_other {id m : BankId} (hm : m ≠ .link) (h : m ≠ id) (c : ErrorCode) (v : Severity) (g st : Option Nat)
    (s : State) : (s.record id c v g st).banks.look m = s.banks.look m :=
  (raise_bank hm ..).trans (banks_look_put_other _ _ h)

/-! ### The notice queue (R29) -/

/-- The notices of s stand at the head of those of t. -/
def Notices (s t : State) : Prop := s.link.notices <+: t.link.notices

theorem Notices.refl (s : State) : Notices s s := List.prefix_refl _

theorem Notices.trans {s t u : State} (h : Notices s t) (k : Notices t u) : Notices s u := List.IsPrefix.trans h k

theorem Notices.of_link {s t : State} (h : t.link = s.link) : Notices s t := by rw [Notices, h]

theorem Notices.ite {s t u : State} {p : Prop} [Decidable p] (h : Notices s t) (k : Notices s u) :
    Notices s (if p then t else u) := by
  split <;> assumption

theorem Notices.mem {s t : State} (h : Notices s t) {n : Notice} (hn : n ∈ s.link.notices) : n ∈ t.link.notices :=
  h.subset hn

theorem notices_raise (b : NoticeBody) (s : State) : Notices s (s.raise b) := by
  unfold State.raise
  split
  · exact List.prefix_append ..
  · split <;> exact List.prefix_refl _

/-- The state with an error that has reached a bank. -/
def State.bankTook (s : State) (id : BankId) (e : ErrorRec) : State :=
  { s with banks := s.banks.put id ((s.banks.look id).take e).1 }

theorem record_eq (id : BankId) (c : ErrorCode) (v : Severity) (g st : Option Nat) (s : State) :
    s.record id c v g st = (s.bankTook id ⟨v, c, g, st, s.clock⟩).raise (.fault id c v g st
      ((s.banks.look id).take ⟨v, c, g, st, s.clock⟩).2 (s.bankTook id ⟨v, c, g, st, s.clock⟩).faultOutput) := rfl

theorem notices_record (id : BankId) (c : ErrorCode) (v : Severity) (g st : Option Nat) (s : State) :
    Notices s (s.record id c v g st) := by
  rw [record_eq]
  exact Notices.trans (t := s.bankTook id ⟨v, c, g, st, s.clock⟩) (.of_link rfl) (notices_raise ..)

theorem raise_length (b : NoticeBody) (s : State) :
    (s.raise b).link.notices.length ≤ s.link.notices.length + 1 := by
  unfold State.raise
  split
  · simp
  · split <;> simp

theorem record_length (id : BankId) (c : ErrorCode) (v : Severity) (g st : Option Nat) (s : State) :
    (s.record id c v g st).link.notices.length ≤ s.link.notices.length + 1 := raise_length ..

/-- The FAULT notice of a WARN that finds room (R171). -/
theorem record_warn_notices {s : State} (h : s.link.notices.length < 32) (id : BankId) (c : ErrorCode)
    (g st : Option Nat) :
    (s.record id c .warn g st).link.notices = s.link.notices ++ [⟨s.clock, .fault id c .warn g st
      (if (s.banks.look id).held = none then .held else .notHeld) s.faultOutput⟩] := by
  have room : (s.bankTook id ⟨.warn, c, g, st, s.clock⟩).link.notices.length < 32 := h
  have output : (s.bankTook id ⟨.warn, c, g, st, s.clock⟩).faultOutput = s.faultOutput := output_take_warn s.banks id rfl
  rw [record_eq, raise_room room, output, take_warn_disposition _ rfl]
  rfl

theorem mem_raise {s : State} (h : s.link.notices.length < 32) (b : NoticeBody) :
    ⟨s.clock, b⟩ ∈ (s.raise b).link.notices := by
  rw [raise_room h]
  simp

end Sys2Proof.Machine
end

section
/-! A TRACE reply and what it does at the station and beyond (O48). -/

namespace Sys2Proof.Machine

/-! ### What a lane makes known leaves lines, nodes, stations and free values alone -/

/-- Only traffic state, incidents, link, banks and plan can differ. -/
def Beyond (s t : State) : Prop :=
  { t with traffic := s.traffic, incidents := s.incidents, link := s.link, banks := s.banks, plan := s.plan } = s

theorem Beyond.refl (s : State) : Beyond s s := rfl

theorem Beyond.trans {s t u : State} (h : Beyond s t) (k : Beyond t u) : Beyond s u := by
  unfold Beyond at h k ⊢
  calc ({ u with traffic := s.traffic, incidents := s.incidents, link := s.link, banks := s.banks, plan := s.plan } : State)
      = { { u with traffic := t.traffic, incidents := t.incidents, link := t.link, banks := t.banks, plan := t.plan } with
          traffic := s.traffic, incidents := s.incidents, link := s.link, banks := s.banks, plan := s.plan } := rfl
    _ = s := by rw [k, h]

theorem beyond_raise (b : NoticeBody) (s : State) : Beyond s (s.raise b) := by
  unfold Beyond
  rw [raise_frame]

theorem beyond_record (id : BankId) (c : ErrorCode) (v : Severity) (g st : Option Nat) (s : State) :
    Beyond s (s.record id c v g st) := by
  unfold Beyond
  rw [record_frame]

theorem beyond_trigger (s : State) : Beyond s s.trigger := by
  unfold Beyond
  rw [trigger_frame]

theorem beyond_incidentChanged (t : Table Incident) (c : IncidentChange) (h : Nat) (r : Incident) (p : Option Nat)
    (s : State) : Beyond s (s.incidentChanged t c h r p) :=
  have put : Beyond s { s with incidents := t } := rfl
  (put.trans (beyond_raise ..)).trans (beyond_trigger _)

theorem beyond_raiseOrTrack (st : Nat) (s : State) : Beyond s (s.raiseOrTrack st) := by
  unfold State.raiseOrTrack
  dsimp only
  split
  · exact beyond_incidentChanged ..
  · split
    · exact beyond_incidentChanged ..
    · exact beyond_record ..

theorem beyond_reversePassage (st lane : Nat) (s : State) : Beyond s (s.reversePassage st lane) := by
  unfold State.reversePassage
  split
  · exact .refl s
  · rename_i x _
    dsimp only
    split
    · have put : Beyond s { s with traffic := s.traffic.put st { x with window := [] } } := rfl
      exact (put.trans (beyond_raise ..)).trans (beyond_raiseOrTrack ..)
    · rfl

theorem beyond_laneEvents (st lane : Nat) (es : List LaneEvent) (s : State) : Beyond s (State.laneEvents st lane es s) := by
  induction es generalizing s with
  | nil => exact .refl s
  | cons e es ih =>
    refine Beyond.trans ?_ (ih _)
    cases e with
    | edgeSequence => exact beyond_record ..
    | implausible => exact beyond_record ..
    | stuckOn => exact beyond_record ..
    | reverse => exact beyond_reversePassage ..

/-- A reverse passage records nothing in MEASURE. -/
theorem reversePassage_measureBank (st lane : Nat) (s : State) :
    (s.reversePassage st lane).banks.measure = s.banks.measure := by
  have raise (b : NoticeBody) (u : State) : (u.raise b).banks.measure = u.banks.measure :=
    raise_bank (id := .measure) (by simp) b u
  have trig (u : State) : u.trigger.banks = u.banks := by rw [trigger_frame]
  have track (u : State) : (u.raiseOrTrack st).banks.measure = u.banks.measure := by
    unfold State.raiseOrTrack State.incidentChanged
    dsimp only
    split
    · rw [trig, raise]
    · split
      · rw [trig, raise]
      · exact record_bank_other (m := .measure) (by simp) (by simp) ..
  unfold State.reversePassage
  split
  · rfl
  · dsimp only
    split
    · rw [track, raise]
    · rfl

/-! ### The records of one reply at the lanes (R75) -/

/-- The state with another measurement unit. -/
def State.measured (m : Measure) (s : State) : State := { s with measure := m }

/-- Only the measurement unit and what `Beyond` names can differ. -/
def Station (s t : State) : Prop := Beyond s (t.measured s.measure)

theorem Station.trans {s t u : State} (h : Station s t) (k : Station t u) : Station s u := by
  refine Beyond.trans h ?_
  unfold Station Beyond at k
  unfold Beyond
  calc _ = State.measured s.measure { u.measured t.measure with
          traffic := t.traffic, incidents := t.incidents, link := t.link, banks := t.banks, plan := t.plan } := rfl
    _ = t.measured s.measure := by rw [k]

theorem Beyond.measure {s t : State} (h : Beyond s t) : t.measure = s.measure := by
  have := congrArg State.measure (show _ = _ from h)
  exact this

theorem Beyond.station {s t : State} (h : Beyond s t) : Station s t := by
  rw [Station, State.measured, ← h.measure]
  exact h

theorem Station.geo {s t : State} (h : Station s t) : t.geo = s.geo := by
  have := congrArg State.geo (show _ = _ from h)
  exact this

theorem edgeRecord_none {st : Nat} {r : StationRec} {s : State} {en : StationEntry} {e : EdgeRec}
    (he : s.measure.stations.look st = some en) (hl : en.lanes.look e.lane = none) : s.edgeRecord st r e = s := by
  simp [State.edgeRecord, he, hl]

theorem edgeRecord_lane {st : Nat} {r : StationRec} {s : State} {en : StationEntry} {e : EdgeRec} {y : LaneRec}
    (he : s.measure.stations.look st = some en) (hl : en.lanes.look e.lane = some y) :
    s.edgeRecord st r e = State.laneEvents st e.lane (takeRecord s.geo.params.measure r en.nodeCond y e).2
      (s.onStation st fun d =>
        { d with lanes := d.lanes.put e.lane (takeRecord s.geo.params.measure r en.nodeCond y e).1 }) := by
  simp [State.edgeRecord, he, hl]

/-- What the records of one reply leave of the station: every lane takes its own in reply order, and the other stations
stay; where they make nothing known, nothing but the measurement unit changes. -/
structure TakesRecords (st : Nat) (r : StationRec) (en : StationEntry) (es : List EdgeRec) (s t : State) : Prop where
  station : Station s t
  entry : ∃ en', t.measure.stations.look st = some en' ∧ en'.nodeCond = en.nodeCond ∧
    ∀ k, en'.lanes.look k = (en.lanes.look k).map fun y =>
      (takeRecords s.geo.params.measure r en.nodeCond y (es.filter fun e => e.lane == k)).1
  others : ∀ k, k ≠ st → t.measure.stations.look k = s.measure.stations.look k
  timer : t.measure.timer = s.measure.timer
  silent : (∀ k y, en.lanes.look k = some y →
      (takeRecords s.geo.params.measure r en.nodeCond y (es.filter fun e => e.lane == k)).2 = []) →
    t.measured s.measure = s

theorem edgeRecords_lanes {st : Nat} (r : StationRec) {en : StationEntry} {s : State} (es : List EdgeRec)
    (he : s.measure.stations.look st = some en) :
    TakesRecords st r en es s (es.foldl (State.edgeRecord st r) s) := by
  induction es using List.reverseRecOn with
  | nil => exact ⟨rfl, ⟨en, he, rfl, fun k => by simp [takeRecords]⟩, fun _ _ => rfl, rfl, fun _ => rfl⟩
  | append_singleton es e ih =>
    obtain ⟨hs, ⟨en', h1, h2, h3⟩, h4, h5, h6⟩ := ih
    rw [List.foldl_append, List.foldl_cons, List.foldl_nil]
    generalize es.foldl (State.edgeRecord st r) s = t at hs h1 h4 h5 h6 ⊢
    have early : (∀ k y, en.lanes.look k = some y → (takeRecords s.geo.params.measure r en.nodeCond y
        ((es ++ [e]).filter fun e => e.lane == k)).2 = []) → t.measured s.measure = s := fun h => h6 fun k y hk => by
      have := h k y hk
      rw [List.filter_append, takeRecords_append] at this
      exact (List.append_eq_nil_iff.1 this).1
    cases hl : en.lanes.look e.lane with
    | none =>
      rw [edgeRecord_none h1 (by rw [h3, hl]; rfl)]
      refine ⟨hs, ⟨en', h1, h2, fun k => ?_⟩, h4, h5, early⟩
      rw [h3]
      cases hk : en.lanes.look k with
      | none => rfl
      | some y =>
        have : e.lane ≠ k := by rintro rfl; simp [hl] at hk
        simp [List.filter_append, this]
    | some y =>
      let z := (takeRecords s.geo.params.measure r en.nodeCond y (es.filter fun d => d.lane == e.lane)).1
      have hz : en'.lanes.look e.lane = some z := by rw [h3, hl]; rfl
      have ht := edgeRecord_lane (r := r) h1 hz
      rw [h2, hs.geo] at ht
      let x := takeRecord s.geo.params.measure r en.nodeCond z e
      let u := t.onStation st fun d => { d with lanes := d.lanes.put e.lane x.1 }
      have hb : Beyond u (State.laneEvents st e.lane x.2 u) := beyond_laneEvents ..
      have hm : (State.edgeRecord st r t e).measure = u.measure := by rw [ht]; exact hb.measure
      refine ⟨(hs.trans (t := t) (u := u) rfl).trans (by rw [ht]; exact hb.station), ?_, fun k hk => ?_, ?_, fun h => ?_⟩
      · refine ⟨{ en' with lanes := en'.lanes.put e.lane x.1 }, by rw [hm]; simp [u, h1], h2, fun k => ?_⟩
        by_cases hk : k = e.lane
        · subst hk
          simp [List.filter_append, takeRecords_append, hl, takeRecords, x, z]
        · have hk' : e.lane ≠ k := fun h => hk h.symm
          simp [hk, hk', h3, List.filter_append]
      · rw [hm]
        simp [u, hk, h4]
      · rw [hm]
        exact h5
      · have hx : x.2 = [] := by
          have := h _ _ hl
          rw [List.filter_append, takeRecords_append, List.append_eq_nil_iff] at this
          simpa [takeRecords] using this.2
        have : State.edgeRecord st r t e = u := by rw [ht]; exact congrArg (State.laneEvents st e.lane · u) hx
        rw [this]
        exact early h

/-! ### The overflow flag (R78) -/

/-- A lane that has lost edge records, if it has. -/
def LaneRec.edgesLost (lost : Bool) (y : LaneRec) : LaneRec := if lost then { y with suspect := true, machine := .idle } else y

/-- A station that has lost edge records, if it has. -/
def StationEntry.edgesLost (lost : Bool) (en : StationEntry) : StationEntry :=
  if lost then { en with lanes := en.lanes.mapValues fun l => { l with suspect := true, machine := .idle } } else en

theorem look_edgesLost (lost : Bool) (en : StationEntry) (k : Nat) :
    (en.edgesLost lost).lanes.look k = (en.lanes.look k).map (LaneRec.edgesLost lost) := by
  cases lost with
  | true => simp [StationEntry.edgesLost]; rfl
  | false => cases h : en.lanes.look k <;> simp [StationEntry.edgesLost, h, LaneRec.edgesLost]

theorem nodeCond_edgesLost (lost : Bool) (en : StationEntry) : (en.edgesLost lost).nodeCond = en.nodeCond := by
  cases lost <;> rfl

theorem edgesLost_eq (st : Nat) (s : State) : s.edgesLost st =
    (s.onStation st (StationEntry.edgesLost true)).measureError .bufferOverflow .warn st := rfl

theorem edgesLost_station (st : Nat) (s : State) : Station s (s.edgesLost st) := by
  rw [edgesLost_eq]
  have h : Station s (s.onStation st (StationEntry.edgesLost true)) := rfl
  exact h.trans (beyond_record ..).station

theorem edgesLost_measure (st : Nat) (s : State) :
    (s.edgesLost st).measure = (s.onStation st (StationEntry.edgesLost true)).measure := (beyond_record ..).measure

/-- A station without records after its edge loss. -/
theorem edgesLost_apart {st : Nat} {r : StationRec} {s : State} (hr : s.geo.stations.look st = some r)
    (a b : LineCtl) (m : Measure) :
    (s.edgesLost st).apart a b m = (s.apart a b m).record .measure .bufferOverflow .warn (some r.host) (some st) := by
  rw [edgesLost_eq, State.measureError, onStation_geo, hr, Option.map_some, ← record_apart]
  rfl

/-! ### A TRACE reply at its station -/

/-- The state in which the records of a reply are taken: the overflow flag comes first. -/
theorem traceStation_eq (st : Nat) (r : StationRec) (q : TraceReply) (s : State) :
    s.traceStation st r q = q.records.foldl (State.edgeRecord st r) (if q.overflow then s.edgesLost st else s) := rfl

theorem traceStation_station {st : Nat} {r : StationRec} {q : TraceReply} {en : StationEntry} {s : State}
    (he : s.measure.stations.look st = some en) :
    ∃ u, Station s u ∧ u.measure = (s.onStation st (StationEntry.edgesLost q.overflow)).measure ∧
      (q.overflow = false → u = s) ∧
      TakesRecords st r (en.edgesLost q.overflow) q.records u (s.traceStation st r q) := by
  refine ⟨if q.overflow then s.edgesLost st else s, ?_, ?_, fun h => by simp [h], ?_⟩
  · split
    · exact edgesLost_station ..
    · rfl
  · cases q.overflow with
    | true => exact edgesLost_measure ..
    | false =>
      have h : s.measure.stations.adjust st (StationEntry.edgesLost false) = s.measure.stations :=
        adjust_eq_self _ _ _ fun _ _ => rfl
      exact congrArg (Measure.mk s.measure.timer) h.symm
  · rw [traceStation_eq]
    refine edgeRecords_lanes r q.records ?_
    cases h : q.overflow with
    | true => simp [edgesLost_measure, he]
    | false => simpa [StationEntry.edgesLost] using he

theorem knownOf_edgesLost (p : MeasureParams) (r : StationRec) (en : StationEntry) (lost : Bool) (es : List EdgeRec) :
    knownOf p r (en.edgesLost lost) es = es.zipIdx.flatMap fun x =>
      ((en.lanes.look x.1.lane).map fun y =>
        (takeRecord p r en.nodeCond
          (takeRecords p r en.nodeCond (y.edgesLost lost) ((es.take x.2).filter fun e => e.lane == x.1.lane)).1 x.1).2.map
            fun ev => (x.1.lane, ev)).getD [] := by
  simp only [knownOf, look_edgesLost, nodeCond_edgesLost, Option.map_map, Function.comp_def]

/-- An event of a lane leaves an error that MEASURE holds, or a FAULT replaces it (R170). -/
theorem laneDoes_measure (st host : Nat) {s : State} (x : Nat × LaneEvent) {e : ErrorRec}
    (h : s.banks.measure.held = some e) :
    (s.laneDoes st host x).banks.measure.held = some e ∨
      ∃ y, (s.laneDoes st host x).banks.measure.held = some y ∧ y.severity = .fault := by
  have recorded (c : ErrorCode) (v : Severity) :
      (s.record .measure c v (some host) (some st)).banks.measure.held = some e ∨
        ∃ y, (s.record .measure c v (some host) (some st)).banks.measure.held = some y ∧ y.severity = .fault := by
    have b := record_bank_self (id := .measure) (by simp) c v (some host) (some st) s
    simp only [Banks.look] at b
    rw [b]
    exact take_held_or_fault h
  obtain ⟨k, ev⟩ := x
  cases ev with
  | edgeSequence => exact recorded ..
  | implausible => exact recorded ..
  | stuckOn => exact recorded ..
  | reverse => exact .inl (by rw [State.laneDoes, reversePassage_measureBank]; exact h)

/-- A FAULT that MEASURE holds, or an error that only a FAULT replaces, through all that a reply makes known. -/
theorem laneDoes_foldl_measureBank (st host : Nat) (xs : List (Nat × LaneEvent)) {s : State} {e : ErrorRec}
    (h : s.banks.measure.held = some e) :
    (xs.foldl (State.laneDoes st host) s).banks.measure.held = some e ∨
      ∃ y, (xs.foldl (State.laneDoes st host) s).banks.measure.held = some y ∧ y.severity = .fault := by
  induction xs generalizing s e with
  | nil => exact .inl h
  | cons x xs ih =>
    rw [List.foldl_cons]
    obtain h1 | ⟨y, h1, hy⟩ := laneDoes_measure st host x h
    · exact ih h1
    · obtain h2 | h2 := ih h1
      · exact .inr ⟨y, h2, hy⟩
      · exact .inr h2

/-- A reply without records makes nothing of a lane known. -/
theorem knownOf_nil (p : MeasureParams) (r : StationRec) (en : StationEntry) : knownOf p r en [] = [] := rfl

/-! ### The reply at its line (R52) -/

/-- The line after a TRACE reply: the engine FREE, the poll timer of the node set. -/
def LineCtl.traced (g pollPeriod : Nat) (more : Bool) (c : LineCtl) : LineCtl :=
  { c with engine := .free, flight := none, polls := c.polls.adjust g (Poll.afterTrace pollPeriod more) }

theorem hosted_onLine (s : State) (l : Line) (h : LineCtl → LineCtl) (g : Nat) : (s.onLine l h).hosted g = s.hosted g := by
  cases l <;> rfl

theorem nodeState_onLine (s : State) (l : Line) (h : LineCtl → LineCtl) (g : Nat) :
    (s.onLine l h).nodeState g = s.nodeState g := by cases l <;> rfl

section Online

variable {s : State} {l : Line} {f : Flight} (q : TraceReply) (ho : s.nodeState f.gantry = some .online)
include ho

/-- The state in which a TRACE reply of an ONLINE node reaches its station: the timer is set. -/
theorem traceTimer_online : ((s.onLine l (LineCtl.ended .free)).nodeSucceeded f.gantry f.retry).onLine l (fun c =>
      { c with polls := c.polls.adjust f.gantry (Poll.afterTrace s.geo.params.line.pollPeriod q.more) }) =
    s.onLine l (LineCtl.traced f.gantry s.geo.params.line.pollPeriod q.more) := by
  have hs : (s.onLine l (LineCtl.ended .free)).nodeSucceeded f.gantry f.retry = s.onLine l (LineCtl.ended .free) :=
    if_neg fun h => by rw [nodeState_onLine, ho] at h; exact absurd h.1 (by simp)
  rw [hs]
  cases l <;> rfl

theorem handTrace_bare (hh : s.hosted f.gantry = none) :
    State.handTrace l f q (s.onLine l (LineCtl.ended .free)) =
      s.onLine l (LineCtl.traced f.gantry s.geo.params.line.pollPeriod q.more) := by
  simp only [State.handTrace, onLine_geo, traceTimer_online q ho, hosted_onLine, hh]

theorem handTrace_hosted {st : Nat} {r : StationRec} (hh : s.hosted f.gantry = some (st, r)) :
    State.handTrace l f q (s.onLine l (LineCtl.ended .free)) =
      (s.onLine l (LineCtl.traced f.gantry s.geo.params.line.pollPeriod q.more)).traceStation st r q := by
  simp only [State.handTrace, onLine_geo, traceTimer_online q ho, hosted_onLine, hh]

end Online

theorem traced_polls {c : LineCtl} {g : Nat} {p : Poll} (hp : c.polls.look g = some p) (period : Nat) (more : Bool) :
    (c.traced g period more).polls.look g = some { p with trace := if more then period else 0 } := by
  simp only [LineCtl.traced, look_adjust_self, hp, Option.map_some]
  rfl

theorem traced_others (c : LineCtl) {g k : Nat} (hk : k ≠ g) (period : Nat) (more : Bool) :
    (c.traced g period more).polls.look k = c.polls.look k := look_adjust_other _ _ hk

theorem Station.line {s t : State} (h : Station s t) (l : Line) : t.line l = s.line l := by
  have ha := congrArg State.lineA (show _ = _ from h)
  have hb := congrArg State.lineB (show _ = _ from h)
  cases l
  · exact ha
  · exact hb

/-- The error that the overflow flag leaves in an empty MEASURE bank (R78). -/
theorem bufferOverflow_measure {s : State} (h : s.banks.measure.held = none) (host st : Nat) :
    (s.record .measure .bufferOverflow .warn (some host) (some st)).banks.measure =
      ⟨some ⟨.warn, .bufferOverflow, some host, some st, s.clock⟩, false⟩ :=
  (record_bank_self (id := .measure) (by simp) ..).trans (take_empty h _)

/-- The station after a TRACE reply, seen from the state before it: the records of every lane in reply order. -/
theorem traceStation_known {s : State} {l : Line} {h : LineCtl → LineCtl} {st : Nat} {r : StationRec} {en : StationEntry}
    (q : TraceReply) (hr : s.geo.stations.look st = some r) (he : s.measure.stations.look st = some en) :
    ((s.onLine l h).traceStation st r q).apart s.lineA s.lineB s.measure =
      (knownOf s.geo.params.measure r (en.edgesLost q.overflow) q.records).foldl (State.laneDoes st r.host)
        (if q.overflow then s.record .measure .bufferOverflow .warn (some r.host) (some st) else s) := by
  have hs : (s.onLine l h).apart s.lineA s.lineB s.measure = s := by cases l <;> rfl
  have spec := congrArg (State.apart s.lineA s.lineB s.measure)
    (traceStation_spec (s := s.onLine l h) q (by simpa using hr) (by simpa using he))
  rw [apart_apart, ← laneDoes_foldl_apart, apply_ite (State.apart s.lineA s.lineB s.measure), ← record_apart, hs,
    onLine_geo] at spec
  exact spec

theorem Station.frame {s t : State} (h : Station s t) :
    { t with measure := s.measure, traffic := s.traffic, incidents := s.incidents, link := s.link, banks := s.banks,
             plan := s.plan } = s := h

/-- What a TRACE reply leaves apart from its line, measurement unit and what lanes make known. -/
theorem Station.apartFrame {s t : State} {l : Line} {h : LineCtl → LineCtl} (k : Station (s.onLine l h) t) :
    { t with lineA := s.lineA, lineB := s.lineB, measure := s.measure, traffic := s.traffic,
             incidents := s.incidents, link := s.link, banks := s.banks, plan := s.plan } = s := by
  have bare := congrArg (State.apart s.lineA s.lineB s.measure) k.frame
  have ends : ((s.onLine l h).apart s.lineA s.lineB s.measure).traffic = s.traffic ∧
      (s.onLine l h).incidents = s.incidents ∧ (s.onLine l h).link = s.link ∧ (s.onLine l h).banks = s.banks ∧
      (s.onLine l h).plan = s.plan ∧ (s.onLine l h).apart s.lineA s.lineB s.measure = s := by
    cases l <;> exact ⟨rfl, rfl, rfl, rfl, rfl, rfl⟩
  obtain ⟨h1, h2, h3, h4, h5, h6⟩ := ends
  rw [apart_traffic] at h1
  rw [h1, h2, h3, h4, h5, h6] at bare
  exact bare

/-- Settles O48: the timer is `traced_polls`, the lanes `traceStation_station`, what they make known
`traceStation_known`. -/
theorem traceReplyReachesStation : Obligations.TraceReplyReachesStation := by
  refine ⟨fun s l x f q g hr he hd hg hl ho hh => ?_, fun s l x f q g st sr en hr he hd hg hl ho hh hen => ?_⟩
  · refine ⟨_, exec_traceReply hr he, ?_⟩
    rw [outcome_handed hd, handTrace_bare q ho hh, line_onLine_self]
    refine ⟨rfl, fun p hp => traced_polls hp _ _, fun k hk => traced_others _ hk _ _,
      fun l' hl' => line_onLine_other _ _ hl', ?_⟩
    cases l <;> rfl
  · intro after ofLane known does
    have hknown : known = knownOf s.geo.params.measure sr (en.edgesLost q.overflow) q.records :=
      (knownOf_edgesLost ..).symm
    have hdoes : does = State.laneDoes st sr.host := by
      funext w y
      obtain ⟨k, ev⟩ := y
      cases ev <;> rfl
    let u := s.onLine l (LineCtl.traced f.gantry s.geo.params.line.pollPeriod q.more)
    obtain ⟨v, huv, hvm, hv, takes⟩ := traceStation_station (s := u) (r := sr) (q := q) (by simpa [u] using hen)
    have hut : Station u (u.traceStation st sr q) := huv.trans takes.station
    have hvg : v.geo = s.geo := huv.geo.trans (onLine_geo ..)
    have hvs : v.measure.stations = s.measure.stations.adjust st (StationEntry.edgesLost q.overflow) := by
      simp [hvm, State.onStation, u]
    obtain ⟨en', h1, h2, h3⟩ := takes.entry
    rw [hvg, nodeCond_edgesLost] at h3
    have reached (hsr : s.geo.stations.look st = some sr) :=
      traceStation_known (l := l) (h := LineCtl.traced f.gantry s.geo.params.line.pollPeriod q.more) q hsr hen
    refine ⟨_, exec_traceReply hr he, ?_⟩
    rw [outcome_handed hd, handTrace_hosted q ho hh]
    refine ⟨?_, fun p hp => ?_, fun l' hl' => ?_, ⟨en', h1, h2.trans (nodeCond_edgesLost ..), fun p y hy => ?_,
      fun p hp => ?_⟩, fun k hk => ?_, ?_, hut.apartFrame, fun hov hsil => ?_, fun hov hrec => ?_,
      fun hov hsr => ⟨fun hb => ?_, fun hrec => ⟨?_, ?_, fun hb => ?_⟩⟩, fun hsr => ?_⟩
    · rw [hut.line, line_onLine_self]; rfl
    · rw [hut.line, line_onLine_self]; exact traced_polls hp _ _
    · rw [hut.line, line_onLine_other _ _ hl']
    · rw [h3, look_edgesLost, hy]; rfl
    · rw [h3, look_edgesLost, hp]; rfl
    · rw [takes.others k hk, hvs, look_adjust_other _ _ hk]
    · exact takes.timer.trans (by simp [hvm, State.onStation, u])
    · have silent := takes.silent fun k y hk => by
        rw [look_edgesLost] at hk
        rw [hvg, nodeCond_edgesLost]
        obtain ⟨z, hz, rfl⟩ := Option.map_eq_some_iff.1 hk
        exact hsil k z hz
      rw [hv hov] at silent
      have := congrArg (State.apart s.lineA s.lineB s.measure) silent
      exact this.trans (by cases l <;> rfl)
    · rw [traceStation_eq, hov, hrec]
      cases l <;> rfl
    · by_cases hrec : q.records = []
      · have spec := congrArg (fun w => w.banks.measure.held) (reached hsr)
        rw [if_pos hov, hrec] at spec
        exact ⟨_, spec.trans (congrArg Bank.held (bufferOverflow_measure hb ..)), .inl rfl⟩
      have held := laneDoes_foldl_measureBank st sr.host
        (knownOf s.geo.params.measure sr (en.edgesLost q.overflow) q.records)
        (congrArg Bank.held (bufferOverflow_measure hb sr.host st))
      have spec := congrArg State.banks (reached hsr)
      rw [if_pos hov, apart_banks] at spec
      rw [← spec] at held
      obtain h | ⟨y, h, hy⟩ := held
      · exact ⟨_, h, .inl rfl⟩
      · exact ⟨y, h, .inr ⟨hy, hrec⟩⟩
    · have lost := edgesLost_measure st u
      rw [traceStation_eq, hov, hrec, List.foldl_nil, if_pos rfl, lost]
      simp [State.onStation, u, hen]
      rfl
    · have spec := reached hsr
      rw [if_pos hov, hrec] at spec
      exact spec
    · have spec := congrArg State.banks (reached hsr)
      rw [if_pos hov, hrec] at spec
      exact (congrArg Banks.measure spec).trans (bufferOverflow_measure hb ..)
    · rw [hknown, hdoes]
      exact reached hsr

end Sys2Proof.Machine
end

section
/-! A change of node state, part by part (R55, R65, R160): what the line of the node, the measurement unit, the rollout
record, the notices and banks, and the plan take from it. -/

namespace Sys2Proof.Machine

/-! ### Acts on lines, nodes, measurement unit and rollout alone -/

/-- The state with other lines, nodes, measurement unit and rollout. -/
def State.beside (a b : LineCtl) (ns : Table NodeRec) (m : Measure) (ro : Table RolloutRec) (s : State) : State :=
  { s with lineA := a, lineB := b, nodes := ns, measure := m, rollout := ro }

/-- Only lines, nodes, measurement unit and rollout can differ. -/
def Inside (s t : State) : Prop := t = s.beside t.lineA t.lineB t.nodes t.measure t.rollout

theorem Inside.refl (s : State) : Inside s s := rfl

theorem Inside.trans {s t u : State} (h : Inside s t) (k : Inside t u) : Inside s u :=
  calc u = t.beside u.lineA u.lineB u.nodes u.measure u.rollout := k
    _ = (s.beside t.lineA t.lineB t.nodes t.measure t.rollout).beside u.lineA u.lineB u.nodes u.measure u.rollout := by
      rw [← show t = s.beside t.lineA t.lineB t.nodes t.measure t.rollout from h]

theorem Inside.ite {s t u : State} {p : Prop} [Decidable p] (h : Inside s t) (k : Inside s u) :
    Inside s (if p then t else u) := by
  split <;> assumption

theorem Inside.link {s t : State} (h : Inside s t) : t.link = s.link := (congrArg State.link h :)
theorem Inside.banks {s t : State} (h : Inside s t) : t.banks = s.banks := (congrArg State.banks h :)
theorem Inside.plan {s t : State} (h : Inside s t) : t.plan = s.plan := (congrArg State.plan h :)
theorem Inside.geo {s t : State} (h : Inside s t) : t.geo = s.geo := (congrArg State.geo h :)

theorem inside_onLine (l : Line) (f : LineCtl → LineCtl) (s : State) : Inside s (s.onLine l f) := by cases l <;> rfl

theorem inside_onLineOf (g : Nat) (f : LineCtl → LineCtl) (s : State) : Inside s (s.onLineOf g f) := by
  unfold State.onLineOf
  split
  · rfl
  · exact inside_onLine ..

theorem inside_onRollout (g : Nat) (f : RolloutRec → RolloutRec) (s : State) : Inside s (s.onRollout g f) := rfl

theorem inside_evalGate (g : Nat) (s : State) : Inside s (s.evalGate g) := by
  unfold State.evalGate
  split
  · rfl
  · split <;> rfl

theorem inside_gatesBeside (g : Nat) (s : State) : Inside s (s.gatesBeside g) :=
  (inside_evalGate ..).trans (inside_evalGate ..)

theorem inside_lineOnNode (g : Nat) (old new : NodeState) (s : State) : Inside s (s.lineOnNode g old new) := by
  unfold State.lineOnNode
  split
  · exact inside_onLineOf ..
  · exact inside_onLineOf ..
  · exact inside_onLineOf ..
  · exact .ite (inside_onLineOf ..) (.refl s)
  · exact .refl s

theorem inside_measureOnNode (g : Nat) (old new : NodeState) (s : State) : Inside s (s.measureOnNode g old new) := by
  unfold State.measureOnNode
  split
  · rfl
  · exact .ite rfl (.ite rfl rfl)

/-! ### The rollout record and the line of a gantry whose node changes (R160) -/

/-- The pending SHOW is a retry. -/
def RolloutRec.keepsRetry (r : RolloutRec) : Bool :=
  match r.pending with
  | some p => p.retry
  | none => false

/-- The pending SHOW of a gantry is a retry. -/
def State.keepsRetry (s : State) (g : Nat) : Bool :=
  match s.rollout.look g with
  | some r => r.keepsRetry
  | none => false

/-- The commanded record of a gantry is known and not the confirmed one. -/
def State.disagrees (s : State) (g : Nat) : Bool :=
  match s.rollout.look g with
  | some r => r.disagrees
  | none => false

/-- The record of a gantry whose node leaves ONLINE: a pending retry stays. -/
def RolloutRec.leaveOnline (keeps : Bool) (r : RolloutRec) : RolloutRec := (if keeps then r.clearGate else r.noPending).settle

/-- The record of a gantry whose node enters a state from one that is not ONLINE. -/
def RolloutRec.enter (old new : NodeState) (disagrees : Bool) (r : RolloutRec) : RolloutRec :=
  match new with
  | .describing => { r with commanded := unknown r.commanded, failed := unknown r.failed }
  | .offline => { r.noPending with inFlight := false, confirmed := unknown r.confirmed }
  | .disabled => { r.noPending with inFlight := false, confirmed := unknown r.confirmed }
  | .online => if old = .suspect ∧ disagrees then { r with confirmation := .awaiting, polls := 0, resends := 0 } else r
  | _ => r

/-- The record of a gantry whose node changes its state (R160). -/
def RolloutRec.moved (old new : NodeState) (keeps disagrees : Bool) (r : RolloutRec) : RolloutRec :=
  RolloutRec.enter old new disagrees (if old = .online then r.leaveOnline keeps else r)

/-- The line of a gantry whose node leaves ONLINE. -/
def LineCtl.leaveOnline (g : Nat) (keeps : Bool) (c : LineCtl) : LineCtl :=
  (if keeps then c else c.removeShow g).withdrawConfirm g

/-- What the rollout unit does to the line of a gantry whose node enters a state. -/
def LineCtl.showsEnter (g : Nat) (old new : NodeState) (settle : Nat) (disagrees : Bool) (c : LineCtl) : LineCtl :=
  match new with
  | .offline => (c.removeShow g).withdrawConfirm g
  | .disabled => c.removeShow g
  | .online => if old = .suspect ∧ disagrees then c.depositConfirm settle g else c
  | _ => c

/-- What the line controller does at a change of node state (R52, R54, R57). -/
def LineCtl.nodeMoved (g : Nat) (old new : NodeState) (period : Nat) (c : LineCtl) : LineCtl :=
  match new with
  | .describing => c.stopPolls g
  | .offline => c.stopPolls g
  | .disabled => c.dropNode g
  | .online => if old = .describing then c.startPolls period g else c
  | _ => c

theorem onRollout_onLine (s : State) (l : Line) (c : LineCtl → LineCtl) (g : Nat) (f : RolloutRec → RolloutRec) :
    (s.onLine l c).onRollout g f = (s.onRollout g f).onLine l c := by cases l <;> rfl

theorem onLine_onLine (s : State) (l : Line) (c d : LineCtl → LineCtl) :
    (s.onLine l c).onLine l d = s.onLine l fun x => d (c x) := by cases l <;> rfl

theorem adjust_adjust {α : Type} (t : Table α) (n : Nat) (f h : α → α) :
    (t.adjust n f).adjust n h = t.adjust n fun x => h (f x) := by
  simp only [Table.adjust, List.map_map]
  refine List.map_congr_left fun kv _ => ?_
  by_cases e : kv.1 = n <;> simp [e]

theorem onRollout_onRollout (s : State) (g : Nat) (f h : RolloutRec → RolloutRec) :
    (s.onRollout g f).onRollout g h = s.onRollout g fun r => h (f r) :=
  congrArg (fun t : Table RolloutRec => { s with rollout := t }) (adjust_adjust ..)

/-- What the rollout unit does to the line of a gantry whose node changes its state (R160). -/
def LineCtl.showsMoved (g : Nat) (old new : NodeState) (settle : Nat) (keeps disagrees : Bool) (c : LineCtl) : LineCtl :=
  LineCtl.showsEnter g old new settle disagrees (if old = .online then c.leaveOnline g keeps else c)

section Rollout

variable {s : State} {g : Nat} {gr : GantryRec} (hg : s.geo.gantries.look g = some gr)
include hg

theorem removePending_eq : s.removePending g = (s.onRollout g RolloutRec.noPending).onLine gr.line (LineCtl.removeShow g) :=
  onLineOf_eq _ hg

theorem endConfirmation_eq : s.endConfirmation g =
    (s.onRollout g RolloutRec.settle).onLine gr.line (LineCtl.withdrawConfirm g) := onLineOf_eq _ hg

theorem depositConfirm_eq : s.depositConfirm g = s.onLine gr.line (LineCtl.depositConfirm s.geo.params.line.settle g) :=
  onLineOf_eq _ hg

end Rollout

/-- The rollout unit where a node leaves ONLINE. -/
def State.leaveOnline (g : Nat) (s : State) : State :=
  (if s.keepsRetry g then s.onRollout g RolloutRec.clearGate else s.removePending g).endConfirmation g

/-- The rollout unit where a node enters a state. -/
def State.showsEnter (g : Nat) (old new : NodeState) (disagrees : Bool) (s : State) : State :=
  match new with
  | .describing => s.onRollout g fun r => { r with commanded := unknown r.commanded, failed := unknown r.failed }
  | .offline =>
    ((s.removePending g).onRollout g fun r =>
      { r with inFlight := false, confirmed := unknown r.confirmed }).withdrawConfirm g
  | .disabled =>
    (s.removePending g).onRollout g fun r => { r with inFlight := false, confirmed := unknown r.confirmed }
  | .online =>
    if old = .suspect ∧ disagrees then
      (s.onRollout g fun r => { r with confirmation := .awaiting, polls := 0, resends := 0 }).depositConfirm g
    else s
  | _ => s

theorem rolloutOnNode_parts (s : State) (g : Nat) (old new : NodeState) :
    s.rolloutOnNode g old new =
      State.showsEnter g old new (s.disagrees g) (if old = .online then s.leaveOnline g else s) := by
  cases new with
  | online =>
    by_cases h : old = .suspect
    · subst h
      cases hr : s.rollout.look g with
      | none => simp [State.rolloutOnNode, State.showsEnter, State.disagrees, hr]
      | some r => simp [State.rolloutOnNode, State.showsEnter, State.disagrees, hr]
    · simp [State.rolloutOnNode, State.showsEnter, h]
      rfl
  | _ => rfl

section Rollout

variable {s : State} {g : Nat} {gr : GantryRec} (hg : s.geo.gantries.look g = some gr)
include hg

theorem leaveOnline_eq : s.leaveOnline g = (s.onRollout g (RolloutRec.leaveOnline (s.keepsRetry g))).onLine gr.line
    (LineCtl.leaveOnline g (s.keepsRetry g)) := by
  unfold State.leaveOnline RolloutRec.leaveOnline LineCtl.leaveOnline
  cases s.keepsRetry g with
  | true => simp [endConfirmation_eq (s := s.onRollout g RolloutRec.clearGate) hg, onRollout_onRollout]
  | false =>
    have hg' : (s.removePending g).geo.gantries.look g = some gr := by rw [(touch_removePending g s).geo]; exact hg
    simp only [Bool.false_eq_true, if_false]
    rw [endConfirmation_eq hg', removePending_eq hg, onRollout_onLine, onRollout_onRollout, onLine_onLine]

theorem showsEnter_eq (old new : NodeState) (disagrees : Bool) : State.showsEnter g old new disagrees s =
    (s.onRollout g (RolloutRec.enter old new disagrees)).onLine gr.line
      (LineCtl.showsEnter g old new s.geo.params.line.settle disagrees) := by
  have same : (s.onRollout g fun r => r) = s :=
    congrArg (fun t : Table RolloutRec => { s with rollout := t }) (adjust_eq_self _ _ _ fun _ _ => rfl)
  have stay (u : State) : u.onLine gr.line (fun c => c) = u := setLine_line ..
  cases new with
  | describing => exact (stay _).symm
  | offline =>
    simp only [State.showsEnter, State.withdrawConfirm, removePending_eq hg, onRollout_onLine, onRollout_onRollout]
    rw [onLineOf_eq (r := gr) _ (by simpa using hg), onLine_onLine]
    rfl
  | disabled =>
    simp only [State.showsEnter, removePending_eq hg, onRollout_onLine, onRollout_onRollout]
    rfl
  | online =>
    by_cases h : old = .suspect ∧ disagrees
    · have he : RolloutRec.enter old .online disagrees =
          fun r => { r with confirmation := .awaiting, polls := 0, resends := 0 } := by
        funext r; simp [RolloutRec.enter, h]
      have hc : LineCtl.showsEnter g old .online s.geo.params.line.settle disagrees =
          LineCtl.depositConfirm s.geo.params.line.settle g := by
        funext c; simp [LineCtl.showsEnter, h]
      rw [he, hc, State.showsEnter, if_pos h]
      exact depositConfirm_eq (s := s.onRollout g _) hg
    · have he : RolloutRec.enter old .online disagrees = fun r => r := by funext r; simp [RolloutRec.enter, h]
      have hc : LineCtl.showsEnter g old .online s.geo.params.line.settle disagrees = fun c => c := by
        funext c; simp [LineCtl.showsEnter, h]
      rw [he, hc, same, stay, State.showsEnter, if_neg h]
  | absent => exact (stay _).symm.trans (congrArg (fun u : State => u.onLine gr.line fun c => c) same.symm)
  | suspect => exact (stay _).symm.trans (congrArg (fun u : State => u.onLine gr.line fun c => c) same.symm)

end Rollout

/-- The rollout unit and the line at a change of node state, in two functions (R160). -/
theorem rolloutOnNode_eq {s : State} {g : Nat} {gr : GantryRec} (hg : s.geo.gantries.look g = some gr)
    (old new : NodeState) : s.rolloutOnNode g old new =
      (s.onRollout g (RolloutRec.moved old new (s.keepsRetry g) (s.disagrees g))).onLine gr.line
        (LineCtl.showsMoved g old new s.geo.params.line.settle (s.keepsRetry g) (s.disagrees g)) := by
  rw [rolloutOnNode_parts]
  have he : RolloutRec.moved old new (s.keepsRetry g) (s.disagrees g) = fun r => RolloutRec.enter old new (s.disagrees g)
      (if old = .online then r.leaveOnline (s.keepsRetry g) else r) := rfl
  have hc : LineCtl.showsMoved g old new s.geo.params.line.settle (s.keepsRetry g) (s.disagrees g) = fun c =>
      LineCtl.showsEnter g old new s.geo.params.line.settle (s.disagrees g)
        (if old = .online then c.leaveOnline g (s.keepsRetry g) else c) := rfl
  by_cases h : old = .online
  · have hg' : (s.leaveOnline g).geo.gantries.look g = some gr := by simp [leaveOnline_eq hg, hg]
    rw [if_pos h, showsEnter_eq hg', leaveOnline_eq hg, onRollout_onLine, onRollout_onRollout, onLine_onLine, he, hc]
    simp only [if_pos h]
    simp
  · rw [if_neg h, showsEnter_eq hg, he, hc]
    simp only [if_neg h]

/-! ### The gates beside (R162) -/

/-- The record after gates have been evaluated: its gate alone can differ, and only with a SHOW pending. -/
def RolloutRec.Gated (r r' : RolloutRec) : Prop :=
  { r' with gateHeld := r.gateHeld, gateTimer := r.gateTimer } = r ∧ (r.pending = none → r' = r)

theorem RolloutRec.Gated.refl (r : RolloutRec) : r.Gated r := ⟨rfl, fun _ => rfl⟩

theorem RolloutRec.Gated.trans {a b c : RolloutRec} (h : a.Gated b) (k : b.Gated c) : a.Gated c := by
  obtain ⟨h1, h2⟩ := h
  obtain ⟨k1, k2⟩ := k
  refine ⟨?_, fun e => ?_⟩
  · calc ({ c with gateHeld := a.gateHeld, gateTimer := a.gateTimer } : RolloutRec)
        = { { c with gateHeld := b.gateHeld, gateTimer := b.gateTimer } with
            gateHeld := a.gateHeld, gateTimer := a.gateTimer } := rfl
      _ = a := by rw [k1, h1]
  · obtain rfl := h2 e
    exact k2 e

theorem evalGate_other (s : State) {g k : Nat} (h : k ≠ g) : (s.evalGate g).rollout.look k = s.rollout.look k := by
  unfold State.evalGate
  split
  · rfl
  · split
    · rfl
    · simp [h]

theorem evalGate_gated {s : State} {k : Nat} {q : RolloutRec} (g : Nat) (hq : s.rollout.look k = some q) :
    ∃ q', (s.evalGate g).rollout.look k = some q' ∧ q.Gated q' := by
  by_cases h : k = g
  · subst h
    unfold State.evalGate
    simp only [hq]
    cases hp : q.pending with
    | none => exact ⟨q, hq, .refl q⟩
    | some p =>
      dsimp only
      rw [onRollout_rollout, look_adjust_self, hq]
      exact ⟨_, rfl, rfl, fun e => absurd e (by simp [hp])⟩
  · exact ⟨q, by rw [evalGate_other s h, hq], .refl q⟩

theorem gatesBeside_other (s : State) {g k : Nat} (h : k ≠ g - 1) (h' : k ≠ g + 1) :
    (s.gatesBeside g).rollout.look k = s.rollout.look k := by
  rw [State.gatesBeside, evalGate_other _ h', evalGate_other _ h]

theorem gatesBeside_gated {s : State} {k : Nat} {q : RolloutRec} (g : Nat) (hq : s.rollout.look k = some q) :
    ∃ q', (s.gatesBeside g).rollout.look k = some q' ∧ q.Gated q' := by
  obtain ⟨a, ha, h1⟩ := evalGate_gated (g - 1) hq
  obtain ⟨b, hb, h2⟩ := evalGate_gated (g + 1) ha
  exact ⟨b, hb, h1.trans h2⟩

/-! ### Notices and records beside lines, nodes, measurement unit and rollout -/

section Beside

variable (a b : LineCtl) (ns : Table NodeRec) (m : Measure) (ro : Table RolloutRec)

theorem raise_beside (n : NoticeBody) (s : State) : (s.beside a b ns m ro).raise n = (s.raise n).beside a b ns m ro := by
  unfold State.raise
  by_cases h : s.link.notices.length < noticeCapacity
  · simp [h, State.beside]
  · by_cases k : s.link.lost = true <;> simp [h, k, State.beside]

theorem record_beside (id : BankId) (c : ErrorCode) (v : Severity) (g st : Option Nat) (s : State) :
    (s.beside a b ns m ro).record id c v g st = (s.record id c v g st).beside a b ns m ro := by
  rw [record_eq, record_eq]
  exact raise_beside a b ns m ro _ (s.bankTook id ⟨v, c, g, st, s.clock⟩)

theorem nodeEvent_beside (g : Nat) (old new : NodeState) (r : Reason) (x : Option Mismatch) (s : State) :
    (s.beside a b ns m ro).nodeEvent g old new r x = (s.nodeEvent g old new r x).beside a b ns m ro := by
  unfold State.nodeEvent
  simp only [State.beside]
  split
  · rfl
  · exact raise_beside ..

theorem nodeRecord_beside (g : Nat) (new : NodeState) (r : Reason) (s : State) :
    (s.beside a b ns m ro).nodeRecord g new r = (s.nodeRecord g new r).beside a b ns m ro := by
  unfold State.nodeRecord
  split
  · rfl
  · exact record_beside ..

theorem nodeNotices_beside (g : Nat) (old new : NodeState) (r : Reason) (x : Option Mismatch) (d : Option NoticeBody)
    (s : State) : (s.beside a b ns m ro).nodeNotices g old new r x d = (s.nodeNotices g old new r x d).beside a b ns m ro := by
  cases d with
  | none => simp only [State.nodeNotices, nodeEvent_beside, nodeRecord_beside]
  | some d =>
    have hd : (s.beside a b ns m ro).draw = (s.draw.1, s.draw.2.beside a b ns m ro) := rfl
    simp only [State.nodeNotices, hd, raise_beside, nodeEvent_beside, nodeRecord_beside]
    split
    · rfl
    · split <;> rfl

end Beside

/-! ### The change as a whole -/

/-- The state after what line controller, measurement unit and rollout unit do at a change of node state. -/
def State.nodeMoved (g : Nat) (n : NodeRec) (new : NodeState) (r : Reason) (m : Option Mismatch) (s : State) : State :=
  State.rolloutOnNode g n.state new (State.measureOnNode g n.state new (State.lineOnNode g n.state new
    { s with nodes := s.nodes.put g (n.moved new r m s.clock) }))

section Change

variable {s : State} {g : Nat} {gr : GantryRec} {n : NodeRec} {new : NodeState} {r : Reason} {m : Option Mismatch}

theorem lineOnNode_eq (hg : s.geo.gantries.look g = some gr) (old new : NodeState) :
    s.lineOnNode g old new = s.onLine gr.line (LineCtl.nodeMoved g old new s.geo.params.line.pollPeriod) := by
  have stay (u : State) : u.onLine gr.line (fun c => c) = u := setLine_line ..
  cases new with
  | describing => exact onLineOf_eq _ hg
  | offline => exact onLineOf_eq _ hg
  | disabled => exact onLineOf_eq _ hg
  | online =>
    by_cases h : old = .describing
    · have hc : LineCtl.nodeMoved g old .online s.geo.params.line.pollPeriod =
          LineCtl.startPolls s.geo.params.line.pollPeriod g := by funext c; simp [LineCtl.nodeMoved, h]
      rw [hc, State.lineOnNode, if_pos h]
      exact onLineOf_eq _ hg
    · have hc : LineCtl.nodeMoved g old .online s.geo.params.line.pollPeriod = fun c => c := by
        funext c; simp [LineCtl.nodeMoved, h]
      rw [hc, stay, State.lineOnNode, if_neg h]
  | absent => exact (stay _).symm
  | suspect => exact (stay _).symm

theorem measureOnNode_congr {s t : State} (hh : t.geo = s.geo) (hm : t.measure = s.measure) (g : Nat) (old new : NodeState) :
    (t.measureOnNode g old new).measure = (s.measureOnNode g old new).measure := by
  have hg : t.hosted g = s.hosted g := by simp [State.hosted, hh]
  unfold State.measureOnNode
  rw [hg]
  split
  · exact hm
  · split
    · simp only [State.onStation, hm]
    · split
      · simp only [State.onStation, hm]
      · exact hm

theorem measureOnNode_eq (s : State) (g : Nat) (old new : NodeState) :
    s.measureOnNode g old new = { s with measure := (s.measureOnNode g old new).measure } := by
  unfold State.measureOnNode
  split
  · rfl
  · split
    · rfl
    · split <;> rfl

/-- The line of a gantry whose node changes its state (R52, R54, R57, R160). -/
def LineCtl.moved (g : Nat) (old new : NodeState) (p : LineParams) (keeps disagrees : Bool) (c : LineCtl) : LineCtl :=
  LineCtl.showsMoved g old new p.settle keeps disagrees (LineCtl.nodeMoved g old new p.pollPeriod c)

theorem nodeMoved_eq (hg : s.geo.gantries.look g = some gr) : s.nodeMoved g n new r m =
    State.onLine
      { s with
        nodes := s.nodes.put g (n.moved new r m s.clock)
        measure := (s.measureOnNode g n.state new).measure
        rollout := s.rollout.adjust g (RolloutRec.moved n.state new (s.keepsRetry g) (s.disagrees g)) }
      gr.line (LineCtl.moved g n.state new s.geo.params.line (s.keepsRetry g) (s.disagrees g)) := by
  let t : State := { s with nodes := s.nodes.put g (n.moved new r m s.clock) }
  have ht : t.geo.gantries.look g = some gr := hg
  have hm (c : LineCtl → LineCtl) : ((t.onLine gr.line c).measureOnNode g n.state new).measure =
      (s.measureOnNode g n.state new).measure := measureOnNode_congr (by simp [t]) (by simp [t]) ..
  rw [State.nodeMoved, lineOnNode_eq ht, measureOnNode_eq, hm, rolloutOnNode_eq (gr := gr) (by simpa using ht)]
  cases gr.line <;> rfl

/-- The line after a change of node state: with a new description its first telegram joins SERVICE. -/
def LineCtl.changed (g : Nat) (old new : NodeState) (p : LineParams) (keeps disagrees : Bool) (c : LineCtl) : LineCtl :=
  let d := LineCtl.moved g old new p keeps disagrees c
  if new = .describing then
    d.deposit .service ⟨g, if old = .offline then .caps 0 else .describe, .registry, false⟩
  else d

theorem changeNode_lineOf (hn : s.nodes.look g = some n) (hg : s.geo.gantries.look g = some gr) :
    (s.changeNode g new r m).line gr.line =
      LineCtl.changed g n.state new s.geo.params.line (s.keepsRetry g) (s.disagrees g) (s.line gr.line) := by
  obtain ⟨s2, h2, hgeo, hl⟩ := changeNode_line (new := new) (r := r) (m := m) hn gr.line
  have eq : s2 = s.nodeMoved g n new r m := h2
  have h : s2.line gr.line =
      LineCtl.moved g n.state new s.geo.params.line (s.keepsRetry g) (s.disagrees g) (s.line gr.line) := by
    rw [eq, nodeMoved_eq hg, line_onLine_self]
    cases gr.line <;> rfl
  rw [hl]
  unfold LineCtl.changed
  split
  · rw [State.depositService, onLineOf_eq (r := gr) _ (by rw [hgeo]; exact hg), line_onLine_self, h]
  · exact h

/-- What a change of node state has done before the triggers of R72, seen from the notices it raises. -/
structure Changes (g : Nat) (n : NodeRec) (new : NodeState) (told s u : State) : Prop where
  inside : Inside told u
  measure : u.measure = (s.measureOnNode g n.state new).measure
  gated : ∀ k q, s.rollout.look k = some q → ∃ q', u.rollout.look k = some q' ∧
    (if k = g then q.moved n.state new (s.keepsRetry g) (s.disagrees g) else q).Gated q'
  rollout : ∀ k, k ≠ g - 1 → k ≠ g + 1 → u.rollout.look k =
    (s.rollout.adjust g (RolloutRec.moved n.state new (s.keepsRetry g) (s.disagrees g))).look k

theorem Changes.next {g : Nat} {n : NodeRec} {new : NodeState} {told s u v : State} (h : Changes g n new told s u)
    (hi : Inside u v) (hm : v.measure = u.measure)
    (hr : ∀ k q, u.rollout.look k = some q → ∃ q', v.rollout.look k = some q' ∧ q.Gated q')
    (ho : ∀ k, k ≠ g - 1 → k ≠ g + 1 → v.rollout.look k = u.rollout.look k) : Changes g n new told s v where
  inside := h.inside.trans hi
  measure := hm.trans h.measure
  gated k q hq := by
    obtain ⟨a, ha, h1⟩ := h.gated k q hq
    obtain ⟨b, hb, h2⟩ := hr k a ha
    exact ⟨b, hb, h1.trans h2⟩
  rollout k h1 h2 := (ho k h1 h2).trans (h.rollout k h1 h2)

theorem evalGate_measure (g : Nat) (s : State) : (s.evalGate g).measure = s.measure := by
  unfold State.evalGate
  split
  · rfl
  · split <;> rfl

theorem nodeMoved_inside (hg : s.geo.gantries.look g = some gr) : Inside s (s.nodeMoved g n new r m) := by
  rw [nodeMoved_eq hg]
  refine Inside.trans ?_ (inside_onLine ..)
  rfl

theorem notices_changes (hg : s.geo.gantries.look g = some gr) (d : Option NoticeBody) :
    Changes g n new (s.nodeNotices g n.state new r m d) s ((s.nodeMoved g n new r m).nodeNotices g n.state new r m d) := by
  have told : (s.nodeMoved g n new r m).nodeNotices g n.state new r m d =
      (s.nodeNotices g n.state new r m d).beside (s.nodeMoved g n new r m).lineA (s.nodeMoved g n new r m).lineB
        (s.nodeMoved g n new r m).nodes (s.nodeMoved g n new r m).measure (s.nodeMoved g n new r m).rollout := by
    rw [← nodeNotices_beside]
    exact congrArg (State.nodeNotices g n.state new r m d) (nodeMoved_inside hg)
  have moved : (s.nodeMoved g n new r m).rollout =
      s.rollout.adjust g (RolloutRec.moved n.state new (s.keepsRetry g) (s.disagrees g)) := by
    rw [nodeMoved_eq hg, onLine_rollout]
  have measured : (s.nodeMoved g n new r m).measure = (s.measureOnNode g n.state new).measure := by
    rw [nodeMoved_eq hg, onLine_measure]
  rw [told, measured, moved]
  refine ⟨rfl, rfl, fun k q hq => ?_, fun k _ _ => rfl⟩
  refine ⟨_, ?_, .refl _⟩
  simp only [State.beside]
  by_cases h : k = g
  · subst h; simp [hq]
  · simp [h, hq]

/-- A change of node state: the notices, beside them the parts on lines, nodes, measurement unit and rollout, then the
triggers of R72. -/
theorem changeNode_stages (hn : s.nodes.look g = some n) (hg : s.geo.gantries.look g = some gr) :
    ∃ u v : State, Changes g n new (s.nodeNotices g n.state new r m (s.forgetNotice g new)) s u ∧
      v = (if (n.state == .online) != (new == .online) then u.trigger else u) ∧
      s.changeNode g new r m =
        if new = .describing ∧ n.signs.any (·.confirmFailed) = true then v.trigger else v := by
  obtain ⟨s3, s4, s5, s6, h3, h4, h5, h6, h7⟩ := changeNode_eq (g := g) (new := new) (r := r) (m := m) hn
  refine ⟨s5, s6, ?_, h6, h7⟩
  have k3 : Changes g n new (s.nodeNotices g n.state new r m (s.forgetNotice g new)) s s3 := by
    rw [h3]; exact notices_changes hg _
  have k4 : Changes g n new (s.nodeNotices g n.state new r m (s.forgetNotice g new)) s s4 := by
    rw [h4]
    split
    · exact k3.next (inside_onLineOf ..) (onLineOf_measure ..) (fun k q hq => ⟨q, by simpa using hq, .refl q⟩)
        (fun k _ _ => by simp)
    · exact k3
  rw [h5]
  split
  · exact k4.next (inside_gatesBeside ..) (by rw [State.gatesBeside, evalGate_measure, evalGate_measure])
      (fun k q hq => gatesBeside_gated g hq) (fun k h1 h2 => gatesBeside_other _ h1 h2)
  · exact k4

/-- A pass triggered or not. -/
def Passes (s t : State) : Prop :=
  t = { s with plan := { s.plan with running := t.plan.running, again := t.plan.again } }

theorem Passes.refl (s : State) : Passes s s := rfl

theorem passes_trigger (s : State) : Passes s s.trigger := trigger_frame s

theorem Passes.trans {s t u : State} (h : Passes s t) (k : Passes t u) : Passes s u := by
  unfold Passes at h k
  rw [h] at k
  exact k

theorem Passes.ite {s t u : State} {p : Prop} [Decidable p] (h : Passes s t) (k : Passes s u) :
    Passes s (if p then t else u) := by
  split <;> assumption

theorem Passes.link {s t : State} (h : Passes s t) : t.link = s.link := (congrArg State.link h :)
theorem Passes.banks {s t : State} (h : Passes s t) : t.banks = s.banks := (congrArg State.banks h :)
theorem Passes.measure {s t : State} (h : Passes s t) : t.measure = s.measure := (congrArg State.measure h :)
theorem Passes.rollout {s t : State} (h : Passes s t) : t.rollout = s.rollout := (congrArg State.rollout h :)

theorem changeNode_passes (hn : s.nodes.look g = some n) (hg : s.geo.gantries.look g = some gr) :
    ∃ u : State, Changes g n new (s.nodeNotices g n.state new r m (s.forgetNotice g new)) s u ∧
      Passes u (s.changeNode g new r m) := by
  obtain ⟨u, v, hu, hv, ht⟩ := changeNode_stages (new := new) (r := r) (m := m) hn hg
  refine ⟨u, hu, ?_⟩
  rw [ht, hv]
  exact .ite (.trans (.ite (passes_trigger _) (.refl _)) (passes_trigger _)) (.ite (passes_trigger _) (.refl _))

section Told

variable (hn : s.nodes.look g = some n) (hg : s.geo.gantries.look g = some gr)
include hn hg

theorem changeNode_link : (s.changeNode g new r m).link =
    (s.nodeNotices g n.state new r m (s.forgetNotice g new)).link := by
  obtain ⟨u, hu, ht⟩ := changeNode_passes (new := new) (r := r) (m := m) hn hg
  exact ht.link.trans hu.inside.link

theorem changeNode_banks : (s.changeNode g new r m).banks =
    (s.nodeNotices g n.state new r m (s.forgetNotice g new)).banks := by
  obtain ⟨u, hu, ht⟩ := changeNode_passes (new := new) (r := r) (m := m) hn hg
  exact ht.banks.trans hu.inside.banks

theorem changeNode_measure : (s.changeNode g new r m).measure = (s.measureOnNode g n.state new).measure := by
  obtain ⟨u, hu, ht⟩ := changeNode_passes (new := new) (r := r) (m := m) hn hg
  exact ht.measure.trans hu.measure

/-- The rollout record of the gantry after a change of node state, its gate apart. -/
theorem changeNode_gated {q : RolloutRec} (hq : s.rollout.look g = some q) :
    ∃ q', (s.changeNode g new r m).rollout.look g = some q' ∧
      (q.moved n.state new (s.keepsRetry g) (s.disagrees g)).Gated q' := by
  obtain ⟨u, hu, ht⟩ := changeNode_passes (new := new) (r := r) (m := m) hn hg
  obtain ⟨q', h1, h2⟩ := hu.gated g q hq
  rw [if_pos rfl] at h2
  exact ⟨q', by rw [ht.rollout, h1], h2⟩

/-- The rollout records at which no gate is evaluated. -/
theorem changeNode_rollout {k : Nat} (h1 : k ≠ g - 1) (h2 : k ≠ g + 1) : (s.changeNode g new r m).rollout.look k =
    (s.rollout.adjust g (RolloutRec.moved n.state new (s.keepsRetry g) (s.disagrees g))).look k := by
  obtain ⟨u, hu, ht⟩ := changeNode_passes (new := new) (r := r) (m := m) hn hg
  rw [ht.rollout, hu.rollout k h1 h2]

end Told

/-! ### The plan (R72) -/

theorem nodeEvent_eq (hg : s.geo.gantries.look g = some gr) (old new : NodeState) (r : Reason) (m : Option Mismatch) :
    s.nodeEvent g old new r m = s.raise (.nodeEvent g gr.line gr.address old new r m) := by
  simp [State.nodeEvent, hg]

theorem bankOf_eq (hg : s.geo.gantries.look g = some gr) : s.bankOf g = lineBank gr.line := by
  simp [State.bankOf, hg]

theorem nodeRecord_none (h : r.recorded new = none) : s.nodeRecord g new r = s := by
  simp [State.nodeRecord, h]

theorem nodeRecord_some (hg : s.geo.gantries.look g = some gr) {c : ErrorCode} {v : Severity}
    (h : r.recorded new = some (c, v)) : s.nodeRecord g new r = s.record (lineBank gr.line) c v (some g) none := by
  simp [State.nodeRecord, h, bankOf_eq hg]

/-- Only link, banks and free values can differ. -/
def Tells (s t : State) : Prop := { t with link := s.link, banks := s.banks, freeCount := s.freeCount } = s

theorem Tells.trans {s t u : State} (h : Tells s t) (k : Tells t u) : Tells s u := by
  unfold Tells at h k ⊢
  calc ({ u with link := s.link, banks := s.banks, freeCount := s.freeCount } : State)
      = { { u with link := t.link, banks := t.banks, freeCount := t.freeCount } with
          link := s.link, banks := s.banks, freeCount := s.freeCount } := rfl
    _ = s := by rw [k, h]

theorem tells_raise (b : NoticeBody) (s : State) : Tells s (s.raise b) := by unfold Tells; rw [raise_frame]

theorem tells_record (id : BankId) (c : ErrorCode) (v : Severity) (g st : Option Nat) (s : State) :
    Tells s (s.record id c v g st) := by unfold Tells; rw [record_frame]

theorem tells_nodeEvent (g : Nat) (old new : NodeState) (r : Reason) (m : Option Mismatch) (s : State) :
    Tells s (s.nodeEvent g old new r m) := by
  unfold State.nodeEvent
  split
  · rfl
  · exact tells_raise ..

theorem tells_nodeRecord (g : Nat) (new : NodeState) (r : Reason) (s : State) : Tells s (s.nodeRecord g new r) := by
  unfold State.nodeRecord
  split
  · rfl
  · exact tells_record ..

theorem tells_nodeNotices (g : Nat) (old new : NodeState) (r : Reason) (m : Option Mismatch) (d : Option NoticeBody)
    (s : State) : Tells s (s.nodeNotices g old new r m d) := by
  have drawn : Tells s s.draw.2 := rfl
  cases d with
  | none => exact (tells_nodeEvent ..).trans (tells_nodeRecord ..)
  | some b =>
    simp only [State.nodeNotices]
    split
    · exact ((drawn.trans (tells_raise ..)).trans (tells_nodeEvent ..)).trans (tells_nodeRecord ..)
    · split
      · exact ((drawn.trans (tells_nodeEvent ..)).trans (tells_raise ..)).trans (tells_nodeRecord ..)
      · exact ((drawn.trans (tells_nodeEvent ..)).trans (tells_nodeRecord ..)).trans (tells_raise ..)

theorem Tells.plan {s t : State} (h : Tells s t) : t.plan = s.plan := by
  have := congrArg State.plan (show _ = _ from h)
  exact this

theorem Tells.geo {s t : State} (h : Tells s t) : t.geo = s.geo := by
  have := congrArg State.geo (show _ = _ from h)
  exact this

section Plan

variable (hn : s.nodes.look g = some n) (hg : s.geo.gantries.look g = some gr)
include hn hg

/-- A node that comes to or leaves ONLINE triggers one pass, but for the restart of a node with marks to clear. -/
theorem changeNode_crosses (hc : (n.state = .online) ≠ (new = .online)) (hd : new ≠ .describing) :
    ∃ u : State, u.plan = s.plan ∧ u.geo = s.geo ∧ s.changeNode g new r m = u.trigger := by
  obtain ⟨u, v, hu, hv, ht⟩ := changeNode_stages (new := new) (r := r) (m := m) hn hg
  have crosses : ((n.state == .online) != (new == .online)) = true := by
    rw [bne_iff_ne, Ne, Bool.eq_iff_iff, beq_iff_eq, beq_iff_eq, ← eq_iff_iff]
    exact hc
  rw [if_pos crosses] at hv
  rw [if_neg fun h => hd h.1, hv] at ht
  have told := tells_nodeNotices g n.state new r m (s.forgetNotice g new) s
  exact ⟨u, hu.inside.plan.trans told.plan, hu.inside.geo.trans told.geo, ht⟩

theorem changeNode_clears (hc : n.state ≠ .online) (ha : ∃ y ∈ n.signs, y.confirmFailed = true) :
    ∃ u : State, u.plan = s.plan ∧ u.geo = s.geo ∧ s.changeNode g .describing r m = u.trigger := by
  obtain ⟨u, v, hu, hv, ht⟩ := changeNode_stages (new := .describing) (r := r) (m := m) hn hg
  rw [if_neg (by simp [hc])] at hv
  rw [if_pos ⟨rfl, by simpa using ha⟩, hv] at ht
  have told := tells_nodeNotices g n.state .describing r m (s.forgetNotice g .describing) s
  exact ⟨u, hu.inside.plan.trans told.plan, hu.inside.geo.trans told.geo, ht⟩

/-- No pass is triggered without either. -/
theorem changeNode_calm (hc : n.state ≠ .online) (hw : new ≠ .online)
    (ha : new = .describing → ∀ y ∈ n.signs, y.confirmFailed = false) : (s.changeNode g new r m).plan = s.plan := by
  obtain ⟨u, v, hu, hv, ht⟩ := changeNode_stages (new := new) (r := r) (m := m) hn hg
  rw [if_neg (by simp [hc, hw])] at hv
  have none_failed : ¬(new = .describing ∧ n.signs.any (·.confirmFailed) = true) := fun h => by
    obtain ⟨y, hy, e⟩ := List.any_eq_true.1 h.2
    rw [ha h.1 y hy] at e
    exact absurd e (by simp)
  rw [if_neg none_failed, hv] at ht
  rw [ht, hu.inside.plan, (tells_nodeNotices ..).plan]

end Plan

end Change

end Sys2Proof.Machine
end

section
/-! The notices and records of a change of node state (R65, R66). -/

namespace Sys2Proof.Machine

section Change

variable {s : State} {g : Nat} {gr : GantryRec} {n : NodeRec} {new : NodeState} {r : Reason} {m : Option Mismatch}

/-- The NODE_EVENT of a change of gantry g. -/
def GantryRec.event (gr : GantryRec) (g : Nat) (old new : NodeState) (r : Reason) (m : Option Mismatch) : NoticeBody :=
  .nodeEvent g gr.line gr.address old new r m

theorem notices_nodeRecord (g : Nat) (new : NodeState) (r : Reason) (s : State) : Notices s (s.nodeRecord g new r) := by
  unfold State.nodeRecord
  split
  · exact .refl s
  · exact notices_record ..

theorem notices_nodeEvent (g : Nat) (old new : NodeState) (r : Reason) (m : Option Mismatch) (s : State) :
    Notices s (s.nodeEvent g old new r m) := by
  unfold State.nodeEvent
  split
  · exact .refl s
  · exact notices_raise ..

theorem notices_nodeNotices (g : Nat) (old new : NodeState) (r : Reason) (m : Option Mismatch) (d : Option NoticeBody)
    (s : State) : Notices s (s.nodeNotices g old new r m d) := by
  have drawn : Notices s s.draw.2 := .refl s
  cases d with
  | none => exact (notices_nodeEvent ..).trans (notices_nodeRecord ..)
  | some b =>
    simp only [State.nodeNotices]
    split
    · exact ((drawn.trans (notices_raise ..)).trans (notices_nodeEvent ..)).trans (notices_nodeRecord ..)
    · split
      · exact ((drawn.trans (notices_nodeEvent ..)).trans (notices_raise ..)).trans (notices_nodeRecord ..)
      · exact ((drawn.trans (notices_nodeEvent ..)).trans (notices_nodeRecord ..)).trans (notices_raise ..)

theorem mem_nodeEvent (hg : s.geo.gantries.look g = some gr) (h : s.link.notices.length < 32) (old : NodeState) :
    ⟨s.clock, gr.event g old new r m⟩ ∈ (s.nodeEvent g old new r m).link.notices := by
  rw [nodeEvent_eq hg]
  exact mem_raise h _

/-- The NODE_EVENT stands among the notices of a change of node state, where two find room. -/
theorem mem_nodeNotices (hg : s.geo.gantries.look g = some gr) (h : s.link.notices.length ≤ 30) (old : NodeState)
    (d : Option NoticeBody) :
    ⟨s.clock, gr.event g old new r m⟩ ∈ (s.nodeNotices g old new r m d).link.notices := by
  have room : s.draw.2.link.notices.length < 32 := by change s.link.notices.length < 32; omega
  have first := mem_nodeEvent (s := s.draw.2) (new := new) (r := r) (m := m) hg room old
  cases d with
  | none => exact (notices_nodeRecord ..).mem (mem_nodeEvent hg (by omega) old)
  | some b =>
    simp only [State.nodeNotices]
    split
    · refine (notices_nodeRecord ..).mem ?_
      have hl := raise_length b s.draw.2
      have hg' : (s.draw.2.raise b).geo.gantries.look g = some gr := by rw [raise_frame]; exact hg
      have hc : (s.draw.2.raise b).clock = s.clock := by rw [raise_frame]; rfl
      have := mem_nodeEvent (new := new) (r := r) (m := m) hg' (by change _ ≤ s.link.notices.length + 1 at hl; omega) old
      rwa [hc] at this
    · split
      · exact ((notices_raise ..).trans (notices_nodeRecord ..)).mem first
      · exact ((notices_nodeRecord ..).trans (notices_raise ..)).mem first

theorem nodeEvent_bank {id : BankId} (hid : id ≠ .link) (g : Nat) (old new : NodeState) (r : Reason) (m : Option Mismatch)
    (s : State) : (s.nodeEvent g old new r m).banks.look id = s.banks.look id := by
  unfold State.nodeEvent
  split
  · rfl
  · exact raise_bank hid ..

theorem nodeEvent_geo (g : Nat) (old new : NodeState) (r : Reason) (m : Option Mismatch) (s : State) :
    (s.nodeEvent g old new r m).geo = s.geo := (tells_nodeEvent ..).geo

theorem nodeEvent_clock (g : Nat) (old new : NodeState) (r : Reason) (m : Option Mismatch) (s : State) :
    (s.nodeEvent g old new r m).clock = s.clock := (touch_nodeEvent g g old new r m s).clock

/-- What the record of a change leaves in a bank depends on clock, geometry and that bank. -/
theorem nodeRecord_bank_congr {s t : State} {id : BankId} (hid : id ≠ .link) (hc : t.clock = s.clock) (hg : t.geo = s.geo)
    (hb : t.banks.look id = s.banks.look id) (g : Nat) (new : NodeState) (r : Reason) :
    (t.nodeRecord g new r).banks.look id = (s.nodeRecord g new r).banks.look id := by
  have bank : t.bankOf g = s.bankOf g := by simp only [State.bankOf, hg]
  unfold State.nodeRecord
  split
  · exact hb
  · by_cases e : id = s.bankOf g
    · subst e
      rw [bank, record_bank_self hid, record_bank_self hid, hb, hc]
    · rw [bank, record_bank_other hid e, record_bank_other hid e, hb]

/-- In every bank but LINK the notices of a change leave what its record leaves. -/
theorem nodeNotices_bank {id : BankId} (hid : id ≠ .link) (g : Nat) (old new : NodeState) (r : Reason) (m : Option Mismatch)
    (d : Option NoticeBody) (s : State) :
    (s.nodeNotices g old new r m d).banks.look id = (s.nodeRecord g new r).banks.look id := by
  have clock (b : NoticeBody) (u : State) : (u.raise b).clock = u.clock := by rw [raise_frame]
  have geo (b : NoticeBody) (u : State) : (u.raise b).geo = u.geo := by rw [raise_frame]
  cases d with
  | none => exact nodeRecord_bank_congr hid (nodeEvent_clock ..) (nodeEvent_geo ..) (nodeEvent_bank hid ..) ..
  | some b =>
    have drawn : (s.draw.2.nodeRecord g new r).banks.look id = (s.nodeRecord g new r).banks.look id :=
      nodeRecord_bank_congr (s := s) (t := s.draw.2) hid rfl rfl rfl ..
    rw [← drawn]
    simp only [State.nodeNotices]
    split
    · exact nodeRecord_bank_congr hid ((nodeEvent_clock ..).trans (clock ..)) ((nodeEvent_geo ..).trans (geo ..))
        ((nodeEvent_bank hid ..).trans (raise_bank hid ..)) ..
    · split
      · exact nodeRecord_bank_congr hid ((clock ..).trans (nodeEvent_clock ..)) ((geo ..).trans (nodeEvent_geo ..))
          ((raise_bank hid ..).trans (nodeEvent_bank hid ..)) ..
      · rw [raise_bank hid]
        exact nodeRecord_bank_congr hid (nodeEvent_clock ..) (nodeEvent_geo ..) (nodeEvent_bank hid ..) ..

section Told

variable (hn : s.nodes.look g = some n) (hg : s.geo.gantries.look g = some gr)
include hn hg

theorem notices_changeNode : Notices s (s.changeNode g new r m) :=
  (notices_nodeNotices g n.state new r m (s.forgetNotice g new) s).trans (.of_link (changeNode_link hn hg))

theorem mem_changeNode (h : s.link.notices.length ≤ 30) :
    ⟨s.clock, gr.event g n.state new r m⟩ ∈ (s.changeNode g new r m).link.notices := by
  rw [changeNode_link hn hg]
  exact mem_nodeNotices hg h ..

theorem changeNode_bank {id : BankId} (hid : id ≠ .link) :
    (s.changeNode g new r m).banks.look id = (s.nodeRecord g new r).banks.look id := by
  rw [changeNode_banks hn hg, nodeNotices_bank hid]

/-- The record of a change in the line's bank (R65). -/
theorem changeNode_lineBank {c : ErrorCode} {v : Severity} (h : r.recorded new = some (c, v)) :
    (s.changeNode g new r m).banks.look (lineBank gr.line) =
      ((s.banks.look (lineBank gr.line)).take ⟨v, c, some g, none, s.clock⟩).1 := by
  rw [changeNode_bank hn hg (lineBank_ne_link _), nodeRecord_some hg h, record_bank_self (lineBank_ne_link _)]

/-- A change of node state reaches no bank but the line's. -/
theorem changeNode_measureBank : (s.changeNode g new r m).banks.measure = s.banks.measure := by
  refine (changeNode_bank (id := .measure) hn hg (by simp)).trans ?_
  unfold State.nodeRecord
  split
  · rfl
  · rw [bankOf_eq hg]
    exact record_bank_other (by simp) (Ne.symm (lineBank_ne_measure _)) ..

end Told

end Change

end Sys2Proof.Machine
end

section
/-! A failed telegram (R43, R53, R59): its record, what becomes of the node, and the edges that are lost (R46). -/

namespace Sys2Proof.Machine

/-! ### A failure is recorded (R43) -/

/-- The line at the end of a failed telegram: the engine QUIET, the poll timers of its job restarted (R36, R52). -/
def LineCtl.failing (g : Nat) (j : Job) (c : LineCtl) : LineCtl :=
  { c with engine := .quiet, flight := none, polls := c.polls.adjust g j.restartPolls }

/-- The state in which a failure has been recorded and nothing else done. -/
def State.warned (l : Line) (f : Flight) (w : Failure) (s : State) : State :=
  (s.onLine l (LineCtl.failing f.gantry f.job)).record (lineBank l) w.error .warn (some f.gantry) none

section Warned

variable (l : Line) (f : Flight) (w : Failure) (s : State)

theorem warned_line_self : (s.warned l f w).line l = (s.line l).failing f.gantry f.job := by
  rw [State.warned, record_line, line_onLine_self]

theorem warned_line_other {l' : Line} (h : l' ≠ l) : (s.warned l f w).line l' = s.line l' := by
  rw [State.warned, record_line, line_onLine_other _ _ h]

@[simp] theorem warned_nodes : (s.warned l f w).nodes = s.nodes := by rw [State.warned, record_frame]; exact onLine_nodes ..

@[simp] theorem warned_geo : (s.warned l f w).geo = s.geo := by rw [State.warned, record_frame]; exact onLine_geo ..

@[simp] theorem warned_clock : (s.warned l f w).clock = s.clock := by rw [State.warned, record_frame]; exact onLine_clock ..

@[simp] theorem warned_measure : (s.warned l f w).measure = s.measure := by rw [State.warned, record_frame]; exact onLine_measure ..

@[simp] theorem warned_rollout : (s.warned l f w).rollout = s.rollout := by rw [State.warned, record_frame]; exact onLine_rollout ..

@[simp] theorem warned_plan : (s.warned l f w).plan = s.plan := by rw [State.warned, record_frame]; exact onLine_plan ..

@[simp] theorem warned_traffic : (s.warned l f w).traffic = s.traffic := by rw [State.warned, record_frame]; exact onLine_traffic ..

@[simp] theorem warned_incidents : (s.warned l f w).incidents = s.incidents := by rw [State.warned, record_frame]; exact onLine_incidents ..

@[simp] theorem warned_sections : (s.warned l f w).sections = s.sections := by rw [State.warned, record_frame]; exact onLine_sections ..

theorem warned_bank_other {id : BankId} (h : id ≠ .link) (h' : id ≠ lineBank l) :
    (s.warned l f w).banks.look id = s.banks.look id := by
  rw [State.warned, record_bank_other h h', onLine_banks]

theorem warned_bank : (s.warned l f w).banks.look (lineBank l) =
    ((s.banks.look (lineBank l)).take ⟨.warn, w.error, some f.gantry, none, s.clock⟩).1 := by
  rw [State.warned, record_bank_self (lineBank_ne_link l), onLine_banks, onLine_clock]

theorem warned_notices (h : s.link.notices.length < 32) :
    (s.warned l f w).link.notices = s.link.notices ++ [⟨s.clock, .fault (lineBank l) w.error .warn (some f.gantry) none
      (if (s.banks.look (lineBank l)).held = none then .held else .notHeld) s.faultOutput⟩] := by
  have room : (s.onLine l (LineCtl.failing f.gantry f.job)).link.notices.length < 32 := by rw [onLine_link]; exact h
  rw [State.warned, record_warn_notices room]
  simp [State.faultOutput]

theorem warned_length : (s.warned l f w).link.notices.length ≤ s.link.notices.length + 1 := by
  have h := record_length (lineBank l) w.error .warn (some f.gantry) none (s.onLine l (LineCtl.failing f.gantry f.job))
  rwa [onLine_link] at h

/-- The FAULT notice of a failure stands first, whatever follows it. -/
theorem Notices.reported {l : Line} {f : Flight} {w : Failure} {s t : State} (h : Notices (s.warned l f w) t)
    (room : s.link.notices.length < 32) : t.link.notices[s.link.notices.length]? =
      some ⟨s.clock, .fault (lineBank l) w.error .warn (some f.gantry) none
        (if (s.banks.look (lineBank l)).held = none then .held else .notHeld) s.faultOutput⟩ := by
  obtain ⟨rest, hr⟩ := h
  rw [← hr, warned_notices l f w s room]
  simp

end Warned

/-! ### A failure is handed on (R45, R53, R59) -/

section Handed

variable {l : Line} {f : Flight} {w : Failure} {whole : Bool} {s : State}

/-- A completed STATE of a node that is ONLINE or SUSPECT. -/
theorem restartLoss_iff : s.restartLoss f whole = true ↔
    whole = true ∧ (∃ o, f.job = .state o) ∧ (s.nodeState f.gantry = some .online ∨ s.nodeState f.gantry = some .suspect) := by
  cases hj : f.job <;> simp [State.restartLoss, hj]

/-- The edge loss of a completed TRACE, if it is one (R46). -/
def State.losesEdges (f : Flight) (whole : Bool) (s : State) : State :=
  if whole = true ∧ f.job = .trace then s.loseEdges f.gantry else s

theorem warned_eq : ((s.onLine l (LineCtl.ended .quiet)).onLine l fun c =>
      { c with polls := c.polls.adjust f.gantry f.job.restartPolls }).record (lineBank l) w.error .warn (some f.gantry) none =
    s.warned l f w := by
  rw [onLine_onLine]
  rfl

theorem restartLoss_onLine (c : LineCtl → LineCtl) : (s.onLine l c).restartLoss f whole = s.restartLoss f whole := by
  simp only [State.restartLoss, nodeState_onLine]

theorem handFailure_restart (h : s.restartLoss f whole = true) :
    State.handFailure l f w whole (s.onLine l (LineCtl.ended .quiet)) =
      (s.warned l f w).changeNode f.gantry .describing .nodeRestart none := by
  simp only [State.handFailure, warned_eq, restartLoss_onLine, h, if_true]

theorem handFailure_plain (h : s.restartLoss f whole = false) (hj : f.job ≠ .display ∨ s.nodeState f.gantry ≠ some .online) :
    State.handFailure l f w whole (s.onLine l (LineCtl.ended .quiet)) =
      State.losesEdges f whole ((s.warned l f w).nodeFailed l f w) := by
  simp only [State.handFailure, warned_eq, restartLoss_onLine, h, nodeState_onLine, Bool.false_eq_true, if_false]
  rw [← State.losesEdges]
  cases hd : f.job with
  | display =>
    have ho := hj.resolve_left fun k => k hd
    cases f.body with
    | none => rfl
    | some b => exact if_neg ho
  | _ => rfl

theorem handFailure_show {b : ShowBody} (hj : f.job = .display) (hb : f.body = some b)
    (ho : s.nodeState f.gantry = some .online) :
    State.handFailure l f w whole (s.onLine l (LineCtl.ended .quiet)) =
      ((s.warned l f w).nodeFailed l f w).showRetried f.gantry b := by
  have h : s.restartLoss f whole = false := by simp [State.restartLoss, hj]
  simp only [State.handFailure, warned_eq, restartLoss_onLine, h, nodeState_onLine, Bool.false_eq_true, if_false]
  simp only [hj, hb, ho, if_true, reduceCtorEq, and_false, if_false]

end Handed

/-! ### The edge loss (R46) -/

/-- Only measurement unit, link and banks can differ. -/
def Loses (s t : State) : Prop := { t with measure := s.measure, link := s.link, banks := s.banks } = s

section Loses

variable {s t : State} (h : Loses s t)
include h

theorem Loses.nodes : t.nodes = s.nodes := by have := congrArg State.nodes (show _ = _ from h); exact this
theorem Loses.geo : t.geo = s.geo := by have := congrArg State.geo (show _ = _ from h); exact this
theorem Loses.clock : t.clock = s.clock := by have := congrArg State.clock (show _ = _ from h); exact this
theorem Loses.rollout : t.rollout = s.rollout := by have := congrArg State.rollout (show _ = _ from h); exact this
theorem Loses.plan : t.plan = s.plan := by have := congrArg State.plan (show _ = _ from h); exact this
theorem Loses.traffic : t.traffic = s.traffic := by have := congrArg State.traffic (show _ = _ from h); exact this
theorem Loses.incidents : t.incidents = s.incidents := by have := congrArg State.incidents (show _ = _ from h); exact this
theorem Loses.sections : t.sections = s.sections := by have := congrArg State.sections (show _ = _ from h); exact this

theorem Loses.line (l : Line) : t.line l = s.line l := by
  have ha := congrArg State.lineA (show _ = _ from h)
  have hb := congrArg State.lineB (show _ = _ from h)
  cases l
  · exact ha
  · exact hb

end Loses

theorem loses_edgesLost (st : Nat) (s : State) : Loses s (s.edgesLost st) := by
  rw [edgesLost_eq]
  unfold Loses State.measureError
  rw [record_frame]
  rfl

theorem loses_losesEdges (f : Flight) (whole : Bool) (s : State) : Loses s (State.losesEdges f whole s) := by
  unfold State.losesEdges State.loseEdges
  split
  · split
    · rfl
    · exact loses_edgesLost ..
  · rfl

theorem notices_edgesLost (st : Nat) (s : State) : Notices s (s.edgesLost st) := by
  rw [edgesLost_eq]
  exact Notices.trans (t := s.onStation st (StationEntry.edgesLost true)) (.of_link rfl) (notices_record ..)

theorem notices_losesEdges (f : Flight) (whole : Bool) (s : State) : Notices s (State.losesEdges f whole s) := by
  unfold State.losesEdges State.loseEdges
  split
  · split
    · exact .refl s
    · exact notices_edgesLost ..
  · exact .refl s

theorem losesEdges_not {f : Flight} {whole : Bool} (h : ¬(whole = true ∧ f.job = .trace)) (s : State) :
    State.losesEdges f whole s = s := if_neg h

theorem losesEdges_hosted {f : Flight} {whole : Bool} {s : State} {st : Nat} {sr : StationRec}
    (h : whole = true ∧ f.job = .trace) (hh : s.hosted f.gantry = some (st, sr)) :
    State.losesEdges f whole s = s.edgesLost st := by
  simp only [State.losesEdges, if_pos h, State.loseEdges, hh]

/-- An edge loss is recorded in MEASURE alone. -/
theorem losesEdges_bank (f : Flight) (whole : Bool) (s : State) {id : BankId} (h : id ≠ .link) (h' : id ≠ .measure) :
    (State.losesEdges f whole s).banks.look id = s.banks.look id := by
  unfold State.losesEdges State.loseEdges
  split
  · split
    · rfl
    · exact record_bank_other h h' ..
  · rfl

theorem edgesLost_bank {s : State} {st : Nat} {sr : StationRec} (hs : s.geo.stations.look st = some sr) :
    (s.edgesLost st).banks.measure =
      (s.banks.measure.take ⟨.warn, .bufferOverflow, some sr.host, some st, s.clock⟩).1 := by
  rw [edgesLost_eq, State.measureError, onStation_geo, hs]
  exact record_bank_self (id := .measure) (by simp) ..

/-! ### The node at a failure (R53, R59, R62, R63) -/

section Node

variable {l : Line} {f : Flight} {w : Failure} {s : State}

theorem nodeFailed_online (h : s.nodeState f.gantry = some .online) : s.nodeFailed l f w =
    (s.changeNode f.gantry .suspect (.failure w) none).onLine l (LineCtl.depositHead f.cls ⟨f.gantry, f.job, .line, true⟩) := by
  simp only [State.nodeFailed, h]

theorem nodeFailed_ends (h : s.nodeState f.gantry = some .suspect ∧ f.retry = true ∨ s.nodeState f.gantry = some .describing) :
    s.nodeFailed l f w = s.changeNode f.gantry .offline (.failure w) none := by
  obtain ⟨h, hr⟩ | h := h
  · simp only [State.nodeFailed, h, hr, if_true]
  · simp only [State.nodeFailed, h]

theorem nodeFailed_offline (h : s.nodeState f.gantry = some .offline) :
    s.nodeFailed l f w = s.onNode f.gantry fun n => { n with retry := some 0 } := by
  simp only [State.nodeFailed, h]

theorem nodeState_eq {g : Nat} {n : NodeRec} (hn : s.nodes.look g = some n) : s.nodeState g = some n.state := by
  simp [State.nodeState, hn]

end Node

/-! ### A WARN, then what a change of node state records (R65, R170) -/

/-- A WARN and a FAULT behind it, in a bank without a FAULT. -/
theorem take_warn_fault {b : Bank} {e x : ErrorRec} (he : e.severity = .warn) (hx : x.severity = .fault)
    (h : ∀ y, b.held = some y → y.severity = .warn) : ((b.take e).1.take x).1 = ⟨some x, true⟩ := by
  cases hb : b.held with
  | none => rw [take_empty hb]; exact take_replaces rfl he hx
  | some y => rw [take_warn hb he]; exact take_replaces rfl (h y hb) hx

/-- A WARN and anything behind it, in a bank with a FAULT. -/
theorem take_held_fault {b : Bank} {y : ErrorRec} (h : b.held = some y) (hy : y.severity = .fault) (e x : ErrorRec) :
    ((b.take e).1.take x).1 = ⟨some y, true⟩ := by
  rw [take_fault h hy]
  exact take_fault rfl hy

/-- Two WARNs. -/
theorem take_warn_warn {b : Bank} {e x : ErrorRec} (he : e.severity = .warn) (hx : x.severity = .warn) :
    ((b.take e).1.take x).1 = ⟨some (b.held.getD e), true⟩ := by
  cases hb : b.held with
  | none => rw [take_empty hb]; exact take_warn rfl hx
  | some y => rw [take_warn hb he]; exact take_warn rfl hx

end Sys2Proof.Machine
end

section
/-! A failed retry, or a failure while DESCRIBING, moves the node to OFFLINE (O44). -/

namespace Sys2Proof.Machine

/-! ### The line of a node that goes to OFFLINE -/

/-- The line of a node that goes to OFFLINE: no poll, no SHOW, no confirmation STATE of it (R52, R160). -/
def LineCtl.toOffline (g : Nat) (c : LineCtl) : LineCtl := ((c.stopPolls g).removeShow g).withdrawConfirm g

theorem changed_offline {old : NodeState} (h : old ≠ .online) (g : Nat) (p : LineParams) (keeps disagrees : Bool)
    (c : LineCtl) : LineCtl.changed g old .offline p keeps disagrees c = c.toOffline g := by
  simp [LineCtl.changed, LineCtl.moved, LineCtl.nodeMoved, LineCtl.showsMoved, LineCtl.showsEnter, LineCtl.toOffline, h]

theorem toOffline_polls (g : Nat) (c : LineCtl) : (c.toOffline g).polls.look g = none := look_del_self ..

theorem toOffline_shows {g : Nat} {c : LineCtl} {e : Entry}
    (h : e ∈ (c.toOffline g).queues.urgentShow ++ (c.toOffline g).queues.normalShow) : e.gantry ≠ g := by
  have urgent : (c.toOffline g).queues.urgentShow = c.queues.urgentShow.filter fun e => e.gantry != g := rfl
  have normal : (c.toOffline g).queues.normalShow = c.queues.normalShow.filter fun e => e.gantry != g := rfl
  simp [urgent, normal] at h
  obtain h | h := h <;> exact h.2

theorem moved_offline {old : NodeState} (h : old ≠ .online) (keeps disagrees : Bool) (q : RolloutRec) :
    q.moved old .offline keeps disagrees = { q.noPending with inFlight := false, confirmed := unknown q.confirmed } := by
  simp [RolloutRec.moved, RolloutRec.enter, h]

theorem unknown_none {es : List (Option Aspect)} {a : Option Aspect} (h : a ∈ unknown es) : a = none := by
  obtain ⟨_, _, rfl⟩ := List.mem_map.1 h
  rfl

theorem measureOnNode_off {s : State} {g : Nat} {old new : NodeState} (h : old ≠ .online) (h' : new ≠ .online) :
    s.measureOnNode g old new = s := by
  unfold State.measureOnNode
  split
  · rfl
  · simp [h, h']

/-- The node at the failure that moves it to OFFLINE. -/
theorem failureEnds {s : State} {f : Flight} {whole : Bool} {n : NodeRec} (hn : s.nodes.look f.gantry = some n)
    (h : n.state = .suspect ∧ f.retry = true ∧ (whole = true → ∀ o, f.job ≠ .state o) ∨ n.state = .describing) :
    n.state ≠ .online ∧ s.restartLoss f whole = false ∧
      (n.state = .suspect ∧ f.retry = true ∨ n.state = .describing) := by
  have hs := nodeState_eq hn
  refine ⟨?_, ?_, h.imp (fun k => ⟨k.1, k.2.1⟩) id⟩
  · obtain ⟨h, -⟩ | h := h <;> simp [h]
  · rw [← Bool.not_eq_true, restartLoss_iff, hs]
    rintro ⟨hw, ⟨o, ho⟩, hst⟩
    obtain ⟨-, -, h⟩ | h := h
    · exact h hw o ho
    · simp [h] at hst

/-- Settles O44: `warned` records the failure, `changeNode` moves the node and `losesEdges` takes the edge loss. -/
theorem failureMovesNodeOffline : Obligations.FailureMovesNodeOffline := by
  intro s l x f w whole r n hr he hd hg hl hn bank reported loses
  subst hl
  let a := s.warned r.line f w
  have hna : a.nodes.look f.gantry = some n := by simpa [a] using hn
  have hga : a.geo.gantries.look f.gantry = some r := by simpa [a] using hg
  have hsa : a.nodeState f.gantry = some n.state := nodeState_eq hna
  have hlen : a.link.notices.length ≤ s.link.notices.length + 1 := warned_length ..
  refine ⟨fun h => ?_, fun h => ?_⟩
  · obtain ⟨ho, hloss, hends⟩ := failureEnds hn h
    let b := a.changeNode f.gantry .offline (.failure w) none
    let t := State.losesEdges f whole b
    have htb : Loses b t := loses_losesEdges ..
    have touch : Touch f.gantry a b := touch_changeNode ..
    have hline : t.line r.line = ((s.line r.line).failing f.gantry f.job).toOffline f.gantry := by
      rw [htb.line, changeNode_lineOf hna hga, changed_offline ho]
      simp only [a, warned_line_self]
    have hbank : t.banks.look (lineBank r.line) = ((bank.take ⟨.warn, w.error, some f.gantry, none, s.clock⟩).1.take
        ⟨.fault, .nodeOffline, some f.gantry, none, s.clock⟩).1 := by
      simp only [t]
      rw [losesEdges_bank _ _ _ (lineBank_ne_link _) (lineBank_ne_measure _), changeNode_lineBank hna hga rfl]
      simp only [a, warned_bank, warned_clock]
      rfl
    have hmeasure : b.measure = s.measure := by
      rw [changeNode_measure hna hga, measureOnNode_off ho (by simp)]
      exact warned_measure ..
    have hmeasureBank : b.banks.measure = s.banks.measure := by
      rw [changeNode_measureBank hna hga]
      exact warned_bank_other (id := .measure) r.line f w s (by simp) (Ne.symm (lineBank_ne_measure _))
    have hclock : a.clock = s.clock := warned_clock ..
    have hgeo : b.geo = s.geo := touch.geo.trans (warned_geo ..)
    refine ⟨t, ?_, ?_, ?_, ?_, fun k hk => ?_, ?_, fun q hq => ?_, ?_, ?_, fun hw => ?_, fun e hb he => ?_, fun room => ?_,
      fun hlose st sr en hh hen => ?_, fun hlose => ?_, ?_, ?_, ?_, ?_⟩
    · rw [exec_failure hr he, outcome_handed hd, handFailure_plain hloss (.inr (by simp [nodeState_eq hn, ho])),
        nodeFailed_ends (by rw [hsa]; simpa using hends)]
    · rw [hline]; rfl
    · rw [hline]; rfl
    · rw [htb.nodes, changeNode_nodes hna, look_put_self]
      simp [NodeRec.moved, a]
    · rw [htb.nodes, touch.nodes k hk, warned_nodes]
    · rw [hline]; exact toOffline_polls ..
    · obtain ⟨q', h1, h2⟩ := changeNode_gated (new := .offline) (r := .failure w) (m := none) hna hga (q := q)
        (by simpa [a] using hq)
      rw [moved_offline ho] at h2
      obtain rfl := h2.2 rfl
      exact ⟨_, (congrArg (Table.look · f.gantry) htb.rollout).trans h1, rfl, rfl, fun a ha => unknown_none ha, rfl⟩
    · rw [hline]; exact fun e he => toOffline_shows he
    · exact ((notices_changeNode hna hga).trans (notices_losesEdges ..)).reported
    · rw [hbank, take_warn_fault rfl rfl hw]
    · rw [hbank, take_held_fault hb he]
    · refine (notices_losesEdges ..).mem ?_
      rw [← hclock]
      exact mem_changeNode hna hga (by omega)
    · have hhb : b.hosted f.gantry = some (st, sr) := by rw [State.hosted, hgeo]; exact hh
      have hen' : b.measure.stations.look st = some en := by rw [hmeasure]; exact hen
      have ht : t = b.edgesLost st := losesEdges_hosted hlose hhb
      refine ⟨?_, fun k hk => ?_, fun hsr hb => ?_⟩
      · rw [ht, edgesLost_measure, onStation_stations, look_adjust_self, hen']
        rfl
      · rw [ht, edgesLost_measure, onStation_stations, look_adjust_other _ _ hk, hmeasure]
      · rw [ht, edgesLost_bank (by rw [hgeo]; exact hsr), hmeasureBank, take_empty hb, touch.clock, hclock]
    · simp only [t]
      rw [losesEdges_not hlose]
      exact ⟨hmeasure, hmeasureBank⟩
    · rw [htb.geo, hgeo]
    · rw [htb.incidents, touch.incidents, warned_incidents]
    · rw [htb.traffic, touch.traffic, warned_traffic]
    · rw [htb.clock, touch.clock, warned_clock]
  · have hs := nodeState_eq hn
    have hloss : s.restartLoss f whole = false := by rw [← Bool.not_eq_true, restartLoss_iff, hs]; simp [h]
    let b := a.onNode f.gantry fun n => { n with retry := some 0 }
    let t := State.losesEdges f whole b
    have htb : Loses b t := loses_losesEdges ..
    have hbank : t.banks.look (lineBank r.line) = (bank.take ⟨.warn, w.error, some f.gantry, none, s.clock⟩).1 := by
      simp only [t]
      rw [losesEdges_bank _ _ _ (lineBank_ne_link _) (lineBank_ne_measure _)]
      exact warned_bank ..
    refine ⟨t, ?_, ?_, fun k hk => ?_, ?_, fun hb => ?_, fun e hb => ?_, ?_, ?_, ?_, ?_⟩
    · rw [exec_failure hr he, outcome_handed hd, handFailure_plain hloss (.inr (by simp [hs, h])),
        nodeFailed_offline (by rw [hsa, h])]
    · rw [htb.nodes, onNode_nodes, look_adjust_self, hna]
      rfl
    · rw [htb.nodes, onNode_nodes, look_adjust_other _ _ hk, warned_nodes]
    · exact (Notices.trans (t := b) (.of_link rfl) (notices_losesEdges ..)).reported
    · rw [hbank, take_empty hb]
    · rw [hbank, take_warn hb rfl]
    · rw [htb.line, onNode_line, warned_line_self]
      rfl
    · rw [htb.rollout, onNode_rollout, warned_rollout]
    · rw [htb.plan, onNode_plan, warned_plan]
    · rw [htb.geo, onNode_geo, warned_geo]

end Sys2Proof.Machine
end

section
/-! A failure of an ONLINE node's telegram: the retry, the failed SHOW, the restart loss (O43). -/

namespace Sys2Proof.Machine

/-! ### An evaluated gate evaluated again (R161) -/

theorem Calm.gateHolds {s t : State} (h : Calm s t) (g : Nat) (as : List Aspect) (cs : List (Option Aspect)) :
    t.gateHolds g as cs = s.gateHolds g as cs := by
  rw [Bool.eq_iff_iff, gateHolds_iff, gateHolds_iff]
  unfold State.gateAsks
  simp only [h.contin, h.kinds, tested_congr (h.kinds _) (h.nodes _), confirms_congr (h.kinds _) (h.seen _)]

theorem evalGate_pending {s : State} {g : Nat} {r : RolloutRec} {p : Pending} (hr : s.rollout.look g = some r)
    (hp : r.pending = some p) : s.evalGate g = s.onRollout g fun x =>
      { x with
        gateHeld := !r.gateExpired && s.gateHolds g p.body.contents r.commanded
        gateTimer := if (!r.gateExpired && s.gateHolds g p.body.contents r.commanded) && x.gateTimer.isNone then some 0
          else x.gateTimer } := by
  simp only [State.evalGate, hr, hp]

theorem evalGate_evalGate (s : State) (g : Nat) : (s.evalGate g).evalGate g = s.evalGate g := by
  cases hr : s.rollout.look g with
  | none => simp [State.evalGate, hr]
  | some r =>
    cases hp : r.pending with
    | none => simp [State.evalGate, hr, hp]
    | some p =>
      obtain ⟨r', hr', -, -, hk, -⟩ := evalGate_spec hr hp
      have hp' : r'.pending = some p := (congrArg RolloutRec.pending hk :).trans hp
      have hx : r'.gateExpired = r.gateExpired := (congrArg RolloutRec.gateExpired hk :)
      have hc : r'.commanded = r.commanded := (congrArg RolloutRec.commanded hk :)
      rw [evalGate_pending hr' hp', hx, hc, (calm_evalGate g s).gateHolds, evalGate_pending hr hp, onRollout_onRollout]
      refine congrArg (State.onRollout g · s) (funext fun x => ?_)
      cases (!r.gateExpired && s.gateHolds g p.body.contents r.commanded) <;> cases x.gateTimer <;> simp

/-! ### The fields an evaluated gate leaves alone -/

section Gated

variable {r r' : RolloutRec} (h : r.Gated r')
include h

theorem RolloutRec.Gated.pending : r'.pending = r.pending := (congrArg RolloutRec.pending h.1 :)
theorem RolloutRec.Gated.inFlight : r'.inFlight = r.inFlight := (congrArg RolloutRec.inFlight h.1 :)
theorem RolloutRec.Gated.gateExpired : r'.gateExpired = r.gateExpired := (congrArg RolloutRec.gateExpired h.1 :)
theorem RolloutRec.Gated.confirmation : r'.confirmation = r.confirmation := (congrArg RolloutRec.confirmation h.1 :)
theorem RolloutRec.Gated.polls : r'.polls = r.polls := (congrArg RolloutRec.polls h.1 :)
theorem RolloutRec.Gated.resends : r'.resends = r.resends := (congrArg RolloutRec.resends h.1 :)
theorem RolloutRec.Gated.commanded : r'.commanded = r.commanded := (congrArg RolloutRec.commanded h.1 :)
theorem RolloutRec.Gated.confirmed : r'.confirmed = r.confirmed := (congrArg RolloutRec.confirmed h.1 :)
theorem RolloutRec.Gated.failed : r'.failed = r.failed := (congrArg RolloutRec.failed h.1 :)

end Gated

/-! ### A node that leaves ONLINE for SUSPECT -/

theorem changed_suspect (g : Nat) (p : LineParams) (keeps disagrees : Bool) (c : LineCtl) :
    LineCtl.changed g .online .suspect p keeps disagrees c = c.leaveOnline g keeps := rfl

theorem moved_suspect (keeps disagrees : Bool) (q : RolloutRec) :
    q.moved .online .suspect keeps disagrees = q.leaveOnline keeps := rfl

section LeaveOnline

variable (g : Nat) (keeps : Bool) (c : LineCtl)

theorem leaveOnline_engine : (c.leaveOnline g keeps).engine = c.engine := by cases keeps <;> rfl
theorem leaveOnline_flight : (c.leaveOnline g keeps).flight = c.flight := by cases keeps <;> rfl
theorem leaveOnline_level : (c.leaveOnline g keeps).level = c.level := by cases keeps <;> rfl
theorem leaveOnline_polls : (c.leaveOnline g keeps).polls = c.polls := by cases keeps <;> rfl
theorem leaveOnline_held : (c.leaveOnline g keeps).held.look g = none := look_del_self ..

end LeaveOnline

/-- A station whose node leaves ONLINE (R90). -/
def StationEntry.nodeLost (en : StationEntry) : StationEntry := ⟨true, en.lanes.mapValues LaneRec.nodeLost⟩

theorem measureOnNode_lost {s : State} {g st : Nat} {sr : StationRec} {new : NodeState} (hh : s.hosted g = some (st, sr))
    (h : new ≠ .online) : s.measureOnNode g .online new = s.onStation st StationEntry.nodeLost := by
  simp only [State.measureOnNode, hh, ne_eq, h, not_false_eq_true, and_self, if_true]
  rfl

theorem measureOnNode_bare {s : State} {g : Nat} (hh : s.hosted g = none) (old new : NodeState) :
    s.measureOnNode g old new = s := by simp only [State.measureOnNode, hh]

/-! ### A change of node state without a DISPLAY_CHANGE -/

theorem forgetNotice_none (s : State) (g : Nat) {new : NodeState} (h : new ≠ .offline) (h' : new ≠ .disabled) :
    s.forgetNotice g new = none := if_neg fun k => k.1.elim h h'

theorem nodeNotices_alone (s : State) (g : Nat) (old new : NodeState) (r : Reason) (m : Option Mismatch) :
    s.nodeNotices g old new r m none = (s.nodeEvent g old new r m).nodeRecord g new r := rfl

theorem mem_changeNode_alone {s : State} {g : Nat} {gr : GantryRec} {n : NodeRec} {new : NodeState} {r : Reason}
    {m : Option Mismatch} (hn : s.nodes.look g = some n) (hg : s.geo.gantries.look g = some gr)
    (hd : s.forgetNotice g new = none) (h : s.link.notices.length < 32) :
    ⟨s.clock, gr.event g n.state new r m⟩ ∈ (s.changeNode g new r m).link.notices := by
  rw [changeNode_link hn hg, hd, nodeNotices_alone]
  exact (notices_nodeRecord ..).mem (mem_nodeEvent hg h _)

/-! ### The retry (R53) -/

/-- The failure of an ONLINE node's telegram: the node SUSPECT, the retry at the head of its class. -/
def State.retried (l : Line) (f : Flight) (w : Failure) (s : State) : State :=
  ((s.warned l f w).changeNode f.gantry .suspect (.failure w) none).onLine l
    (LineCtl.depositHead f.cls ⟨f.gantry, f.job, .line, true⟩)

/-- What holds of the state after the failure of an ONLINE node's telegram, whatever follows it. -/
structure Retried (l : Line) (f : Flight) (w : Failure) (r : GantryRec) (n : NodeRec) (s t : State) : Prop where
  engine : (t.line l).engine = .quiet
  flight : (t.line l).flight = none
  head : ((t.line l).queues.look f.cls).head? = some ⟨f.gantry, f.job, .line, true⟩
  held : (t.line l).held.look f.gantry = none
  level : (t.line l).level = (s.line l).level
  lines : ∀ l', l' ≠ l → t.line l' = s.line l'
  node : t.nodes.look f.gantry = some { n with state := .suspect, reason := .failure w, since := s.clock, step := none,
                                               mismatch := none, retry := none }
  nodes : ∀ k, k ≠ f.gantry → t.nodes.look k = s.nodes.look k
  reported : Notices (s.warned l f w) t
  bank : t.banks.look (lineBank l) =
    ⟨some ((s.banks.look (lineBank l)).held.getD ⟨.warn, w.error, some f.gantry, none, s.clock⟩), true⟩
  event : s.link.notices.length ≤ 30 →
    ⟨s.clock, .nodeEvent f.gantry l r.address .online .suspect (.failure w) none⟩ ∈ t.link.notices
  pass : s.geo.mode = .run → t.plan.running ≠ none
  clock : t.clock = s.clock
  geo : t.geo = s.geo
  incidents : t.incidents = s.incidents
  sections : t.sections = s.sections
  traffic : t.traffic = s.traffic
  targets : t.plan.targets = s.plan.targets
  demands : t.plan.demands = s.plan.demands

theorem retried_holds {s : State} {f : Flight} {r : GantryRec} {n : NodeRec} (w : Failure)
    (hg : s.geo.gantries.look f.gantry = some r) (hn : s.nodes.look f.gantry = some n) (ho : n.state = .online) :
    Retried r.line f w r n s (s.retried r.line f w) := by
  let a := s.warned r.line f w
  have hna : a.nodes.look f.gantry = some n := by simpa [a] using hn
  have hga : a.geo.gantries.look f.gantry = some r := by simpa [a] using hg
  let c := a.changeNode f.gantry .suspect (.failure w) none
  have touch : Touch f.gantry a c := touch_changeNode ..
  have hline : (s.retried r.line f w).line r.line = LineCtl.depositHead f.cls ⟨f.gantry, f.job, .line, true⟩
      (((s.line r.line).failing f.gantry f.job).leaveOnline f.gantry (a.keepsRetry f.gantry)) := by
    rw [State.retried, line_onLine_self, changeNode_lineOf hna hga, ho, changed_suspect, warned_line_self]
  have hbank : (s.retried r.line f w).banks = c.banks := onLine_banks ..
  have hlink : (s.retried r.line f w).link = c.link := onLine_link ..
  have hplan : (s.retried r.line f w).plan = c.plan := onLine_plan ..
  have hclock : a.clock = s.clock := warned_clock ..
  refine ⟨?_, ?_, ?_, ?_, ?_, fun l' h => ?_, ?_, fun k hk => ?_, ?_, ?_, fun room => ?_, fun hm => ?_, ?_, ?_, ?_, ?_, ?_,
    ?_, ?_⟩
  · rw [hline, depositHead_engine, leaveOnline_engine]; rfl
  · rw [hline, depositHead_flight, leaveOnline_flight]; rfl
  · rw [hline, depositHead_look_self]; rfl
  · rw [hline, depositHead_held, leaveOnline_held]
  · rw [hline, depositHead_level, leaveOnline_level]; rfl
  · rw [State.retried, line_onLine_other _ _ h, touch.lines r hga l' h, warned_line_other _ _ _ _ h]
  · rw [State.retried, onLine_nodes, changeNode_nodes hna, look_put_self, hclock]
    rfl
  · rw [State.retried, onLine_nodes, touch.nodes k hk, warned_nodes]
  · exact (notices_changeNode hna hga).trans (.of_link hlink)
  · rw [hbank, changeNode_lineBank hna hga rfl, warned_bank, take_warn_warn rfl rfl]
  · rw [hlink, ← hclock]
    have hlen : a.link.notices.length ≤ s.link.notices.length + 1 := warned_length ..
    have := mem_changeNode_alone (r := .failure w) (m := none) hna hga (forgetNotice_none a f.gantry (new := .suspect) (by simp)
      (by simp)) (by omega)
    rwa [ho] at this
  · obtain ⟨u, -, hu, ht⟩ := changeNode_crosses (new := .suspect) (r := .failure w) (m := none) hna hga (by simp [ho]) (by simp)
    rw [hplan, show c = u.trigger from ht]
    exact (trigger_run (by rw [hu, warned_geo]; exact hm)).1
  · rw [State.retried, onLine_clock, touch.clock, hclock]
  · rw [State.retried, onLine_geo, touch.geo, warned_geo]
  · rw [State.retried, onLine_incidents, touch.incidents, warned_incidents]
  · rw [State.retried, onLine_sections, touch.sections, warned_sections]
  · rw [State.retried, onLine_traffic, touch.traffic, warned_traffic]
  · rw [hplan, touch.targets, warned_plan]
  · rw [hplan, touch.demands, warned_plan]
/-- What follows a retry on rollout, measurement unit and other banks keeps all of it. -/
theorem Retried.next {l : Line} {f : Flight} {w : Failure} {r : GantryRec} {n : NodeRec} {s u t : State}
    (h : Retried l f w r n s u) (hl : ∀ l', t.line l' = u.line l') (hn : t.nodes = u.nodes) (hno : Notices u t)
    (hb : t.banks.look (lineBank l) = u.banks.look (lineBank l)) (hp : t.plan = u.plan) (hc : t.clock = u.clock)
    (hg : t.geo = u.geo) (hi : t.incidents = u.incidents) (hs : t.sections = u.sections) (ht : t.traffic = u.traffic) :
    Retried l f w r n s t where
  engine := by rw [hl, h.engine]
  flight := by rw [hl, h.flight]
  head := by rw [hl, h.head]
  held := by rw [hl, h.held]
  level := by rw [hl, h.level]
  lines l' k := by rw [hl, h.lines l' k]
  node := by rw [hn, h.node]
  nodes k hk := by rw [hn, h.nodes k hk]
  reported := h.reported.trans hno
  bank := by rw [hb, h.bank]
  event k := hno.mem (h.event k)
  pass k := by rw [hp]; exact h.pass k
  clock := hc.trans h.clock
  geo := hg.trans h.geo
  incidents := hi.trans h.incidents
  sections := hs.trans h.sections
  traffic := ht.trans h.traffic
  targets := by rw [hp, h.targets]
  demands := by rw [hp, h.demands]

theorem Retried.warned {l : Line} {f : Flight} {w : Failure} {r : GantryRec} {n : NodeRec} {s t : State}
    (h : Retried l f w r n s t) :
    ((s.banks.look (lineBank l)).held = none →
      t.banks.look (lineBank l) = ⟨some ⟨.warn, w.error, some f.gantry, none, s.clock⟩, true⟩) ∧
    (∀ e, (s.banks.look (lineBank l)).held = some e → t.banks.look (lineBank l) = ⟨some e, true⟩) :=
  ⟨fun k => by rw [h.bank, k]; rfl, fun e k => by rw [h.bank, k]; rfl⟩

theorem retried_loses {s : State} {l : Line} {f : Flight} {w : Failure} {r : GantryRec} {n : NodeRec} {u : State}
    (h : Retried l f w r n s u) (whole : Bool) : Retried l f w r n s (State.losesEdges f whole u) :=
  have k := loses_losesEdges f whole u
  h.next k.line k.nodes (notices_losesEdges ..) (losesEdges_bank _ _ _ (lineBank_ne_link _) (lineBank_ne_measure _)) k.plan
    k.clock k.geo k.incidents k.sections k.traffic

theorem showRetried_eq (g : Nat) (b : ShowBody) (s : State) : s.showRetried g b =
    (s.onRollout g fun r => { r.noPending with inFlight := false, pending := some ⟨b, true⟩ }).evalGate g := rfl

theorem retried_shown {s : State} {l : Line} {f : Flight} {w : Failure} {r : GantryRec} {n : NodeRec} {u : State}
    (h : Retried l f w r n s u) (b : ShowBody) : Retried l f w r n s (u.showRetried f.gantry b) :=
  have i : Inside u (u.showRetried f.gantry b) := (inside_onRollout ..).trans (inside_evalGate ..)
  have k : Touch f.gantry u (u.showRetried f.gantry b) := (touch_onRollout ..).trans (touch_evalGate ..)
  h.next (fun l' => by rw [showRetried_eq, evalGate_line, onRollout_line]) (evalGate_nodes ..) (.of_link i.link)
    (by rw [i.banks]) i.plan k.clock k.geo k.incidents k.sections k.traffic

/-! ### The station of a node whose telegram failed (R46, R90) -/

theorem retried_measureBank {s : State} {f : Flight} {r : GantryRec} {n : NodeRec} (w : Failure)
    (hg : s.geo.gantries.look f.gantry = some r) (hn : s.nodes.look f.gantry = some n) :
    (s.retried r.line f w).banks.measure = s.banks.measure := by
  have hna : (s.warned r.line f w).nodes.look f.gantry = some n := by simpa using hn
  have hga : (s.warned r.line f w).geo.gantries.look f.gantry = some r := by simpa using hg
  rw [State.retried, onLine_banks, changeNode_measureBank hna hga]
  exact warned_bank_other (id := .measure) r.line f w s (by simp) (Ne.symm (lineBank_ne_measure _))

section Station

variable {s : State} {f : Flight} {r : GantryRec} {n : NodeRec} (w : Failure)
  (hg : s.geo.gantries.look f.gantry = some r) (hn : s.nodes.look f.gantry = some n) (ho : n.state = .online)
include hg hn ho

theorem retried_measure {st : Nat} {sr : StationRec} (hh : s.hosted f.gantry = some (st, sr)) :
    (s.retried r.line f w).measure.stations = s.measure.stations.adjust st StationEntry.nodeLost := by
  have hna : (s.warned r.line f w).nodes.look f.gantry = some n := by simpa using hn
  have hga : (s.warned r.line f w).geo.gantries.look f.gantry = some r := by simpa using hg
  have hha : (s.warned r.line f w).hosted f.gantry = some (st, sr) := by rw [State.hosted, warned_geo]; exact hh
  rw [State.retried, onLine_measure, changeNode_measure hna hga, ho, measureOnNode_lost hha (by simp), onStation_stations,
    warned_measure]

/-- The station after the failure: its node condition, and the edge loss of a completed TRACE. -/
theorem retried_station {st : Nat} {sr : StationRec} {en : StationEntry} (whole : Bool)
    (hh : s.hosted f.gantry = some (st, sr)) (hen : s.measure.stations.look st = some en) :
    (State.losesEdges f whole (s.retried r.line f w)).measure.stations.look st =
      some (en.nodeLost.edgesLost (whole && decide (f.job = .trace))) ∧
    ∀ k, k ≠ st → (State.losesEdges f whole (s.retried r.line f w)).measure.stations.look k =
      s.measure.stations.look k := by
  have hm := retried_measure w hg hn ho hh
  by_cases h : whole = true ∧ f.job = .trace
  · have hhu : (s.retried r.line f w).hosted f.gantry = some (st, sr) := by
      rw [State.hosted, (retried_holds w hg hn ho).geo]; exact hh
    have hb : (whole && decide (f.job = .trace)) = true := by simp [h]
    rw [losesEdges_hosted h hhu, edgesLost_measure, onStation_stations, hm, hb]
    exact ⟨by simp [hen], fun k hk => by simp [hk]⟩
  · have hb : (whole && decide (f.job = .trace)) = false := by
      rw [← Bool.not_eq_true, Bool.and_eq_true, decide_eq_true_iff]; exact h
    rw [losesEdges_not h, hm, hb]
    exact ⟨by simp [hen, StationEntry.edgesLost], fun k hk => by simp [hk]⟩

end Station

theorem nodeLost_edgesLost (en : StationEntry) (b : Bool) : en.nodeLost.edgesLost b =
    ⟨true, en.lanes.map fun kv =>
      (kv.1, { kv.2 with machine := .idle, excluded := true, seen := { kv.2.seen with node := true },
                         suspect := kv.2.suspect || b })⟩ := by
  cases b <;> simp [StationEntry.nodeLost, StationEntry.edgesLost, Table.mapValues, LaneRec.nodeLost]

/-! ### The failed SHOW (R159) -/

/-- The record whose SHOW has failed while its node was ONLINE. -/
def RolloutRec.showFailed (b : ShowBody) (r : RolloutRec) : RolloutRec :=
  { r.noPending with inFlight := false, pending := some ⟨b, true⟩ }

theorem showFailed_leaveOnline (b : ShowBody) (keeps : Bool) (q : RolloutRec) :
    (q.leaveOnline keeps).showFailed b = q.settle.showFailed b := by cases keeps <;> rfl

theorem RolloutRec.Gated.showFailed {q q' : RolloutRec} (h : q.Gated q') (b : ShowBody) :
    q'.showFailed b = q.showFailed b := by
  rw [← h.1]
  rfl

/-- The record of the gantry once its failed SHOW is the pending SHOW again. -/
theorem retried_gated {s : State} {f : Flight} {r : GantryRec} {n : NodeRec} {q : RolloutRec} (w : Failure) (b : ShowBody)
    (hg : s.geo.gantries.look f.gantry = some r) (hn : s.nodes.look f.gantry = some n) (ho : n.state = .online)
    (hq : s.rollout.look f.gantry = some q) :
    ∃ q', ((s.retried r.line f w).showRetried f.gantry b).rollout.look f.gantry = some q' ∧
      (q.settle.showFailed b).Gated q' := by
  have hna : (s.warned r.line f w).nodes.look f.gantry = some n := by simpa using hn
  have hga : (s.warned r.line f w).geo.gantries.look f.gantry = some r := by simpa using hg
  obtain ⟨q1, h1, h2⟩ := changeNode_gated (new := .suspect) (r := .failure w) (m := none) hna hga (q := q) (by simpa using hq)
  rw [ho, moved_suspect] at h2
  have h3 : ((s.retried r.line f w).onRollout f.gantry (RolloutRec.showFailed b)).rollout.look f.gantry =
      some (q.settle.showFailed b) := by
    rw [onRollout_rollout, look_adjust_self, State.retried, onLine_rollout, h1, Option.map_some, h2.showFailed,
      showFailed_leaveOnline]
  exact evalGate_gated f.gantry h3

/-! ### The restart loss (R45, R61) -/

/-- The line of a node that goes from ONLINE or SUSPECT to DESCRIBING: its polls stopped, a DESCRIBE at the tail. -/
theorem changed_describing (g : Nat) {old : NodeState} (h : old = .online ∨ old = .suspect) (p : LineParams)
    (keeps disagrees : Bool) (c : LineCtl) :
    let d := LineCtl.changed g old .describing p keeps disagrees c
    d.engine = c.engine ∧ d.flight = c.flight ∧ d.polls.look g = none ∧
      d.queues.service.getLast? = some ⟨g, .describe, .registry, false⟩ := by
  have last (e : LineCtl) (y : Entry) : (e.deposit .service y).queues.service.getLast? = some y :=
    (congrArg List.getLast? (deposit_look_self e .service y)).trans List.getLast?_concat
  have polls (e : LineCtl) : (e.stopPolls g).polls.look g = none := look_del_self ..
  obtain rfl | rfl := h
  · refine ⟨?_, ?_, ?_, last ..⟩
    · exact leaveOnline_engine g keeps (c.stopPolls g)
    · exact leaveOnline_flight g keeps (c.stopPolls g)
    · exact (congrArg (Table.look · g) (leaveOnline_polls g keeps (c.stopPolls g))).trans (polls c)
  · exact ⟨rfl, rfl, polls c, last ..⟩

theorem moved_describing (old : NodeState) (keeps disagrees : Bool) (q : RolloutRec) :
    (q.moved old .describing keeps disagrees).commanded = unknown q.commanded ∧
      (q.moved old .describing keeps disagrees).confirmed = q.confirmed := by
  by_cases h : old = .online
  · cases keeps <;> simp [RolloutRec.moved, RolloutRec.enter, RolloutRec.leaveOnline, RolloutRec.clearGate,
      RolloutRec.noPending, RolloutRec.settle, h]
  · simp [RolloutRec.moved, RolloutRec.enter, h]

theorem clearAllFailed_clear {rs : List SignRec} {y : SignRec} (h : y ∈ clearAllFailed rs) : y.confirmFailed = false := by
  obtain ⟨_, _, rfl⟩ := List.mem_map.1 h
  rfl

/-- Settles O43: `retried_holds` is the retry, `retried_station` its station, `retried_gated` the failed SHOW; a restart
loss is a change of node state behind the record of the failure. -/
theorem failureQueuesRetry : Obligations.FailureQueuesRetry := by
  unfold Obligations.FailureQueuesRetry
  intro reported warned
  refine ⟨?_, fun s l x f w whole b r n q hr he hd hj hb hg hl hn ho hq => ?_,
    fun s l x f o r n q hr he hd hj hg hl hn ho hq => ?_⟩
  · intro s l x f w whole r n hr he hd hj hst hg hl hn ho loses
    subst hl
    have hs := nodeState_eq hn
    have hloss : s.restartLoss f whole = false := by
      rw [← Bool.not_eq_true, restartLoss_iff]
      rintro ⟨hw, ⟨o, k⟩, -⟩
      exact hst hw o k
    have h := retried_loses (retried_holds w hg hn ho) whole
    refine ⟨_, ?_, h.engine, h.flight, ⟨_, h.node, rfl⟩, h.nodes, h.head, h.lines, h.level, h.reported.reported, h.warned,
      h.event, h.pass, h.clock, h.geo, h.incidents, h.sections, h.traffic, h.targets, h.demands,
      fun st sr en hh hen => ?_, fun hlose => ?_⟩
    · rw [exec_failure hr he, outcome_handed hd, handFailure_plain hloss (.inl hj),
        nodeFailed_online (by rw [State.nodeState, warned_nodes, ← State.nodeState, hs, ho])]
      rfl
    · obtain ⟨h1, h2⟩ := retried_station w hg hn ho whole hh hen
      refine ⟨by rw [h1, nodeLost_edgesLost], h2, fun hlose hsr => ?_⟩
      have hu := retried_holds w hg hn ho
      rw [losesEdges_hosted hlose (by rw [State.hosted, hu.geo]; exact hh), edgesLost_bank (by rw [hu.geo]; exact hsr),
        retried_measureBank w hg hn, hu.clock]
      exact ⟨fun k => take_empty k _, fun e k => take_warn k rfl⟩
    · rw [losesEdges_not hlose, retried_measureBank w hg hn]
  · subst hl
    have hs := nodeState_eq hn
    have hcls : f.cls = b.cls.cls := by simp [Flight.cls, hj, hb]
    have h := retried_shown (retried_holds w hg hn ho) b
    have hhead := h.head
    rw [hcls, hj] at hhead
    obtain ⟨q', h1, h2⟩ := retried_gated w b hg hn ho hq
    refine ⟨_, _, q', ?_, h.engine, h.flight, h.node, rfl, rfl, rfl, hhead, h1, h2.pending, h2.inFlight, h2.gateExpired,
      h2.confirmation, h2.polls, h2.resends, h2.commanded, h2.confirmed, h2.failed, h.held, evalGate_evalGate .., h.lines,
      h.reported.reported, h.warned, h.clock, h.geo, h.incidents, h.sections, h.traffic, h.targets, h.demands⟩
    rw [exec_failure hr he, outcome_handed hd, handFailure_show hj hb (by rw [hs, ho]),
        nodeFailed_online (by rw [State.nodeState, warned_nodes, ← State.nodeState, hs, ho])]
    rfl
  · subst hl
    have hs := nodeState_eq hn
    have hloss : s.restartLoss f true = true := restartLoss_iff.2 ⟨rfl, ⟨o, hj⟩, by rw [hs]; simpa using ho⟩
    have hna : (s.warned r.line f .corrupt).nodes.look f.gantry = some n := by simpa using hn
    have hga : (s.warned r.line f .corrupt).geo.gantries.look f.gantry = some r := by simpa using hg
    have touch := touch_changeNode f.gantry .describing .nodeRestart none (s.warned r.line f .corrupt)
    obtain ⟨q', h1, h2⟩ := changeNode_gated (new := .describing) (r := .nodeRestart) (m := none) hna hga (q := q)
      (by simpa using hq)
    have hm := moved_describing n.state ((s.warned r.line f .corrupt).keepsRetry f.gantry)
      ((s.warned r.line f .corrupt).disagrees f.gantry) q
    obtain ⟨l1, l2, l3, l4⟩ := changed_describing f.gantry ho s.geo.params.line
      ((s.warned r.line f .corrupt).keepsRetry f.gantry) ((s.warned r.line f .corrupt).disagrees f.gantry)
      ((s.line r.line).failing f.gantry f.job)
    have hline := changeNode_lineOf (new := .describing) (r := .nodeRestart) (m := none) hna hga
    rw [warned_line_self, warned_geo] at hline
    rw [← hline] at l1 l2 l3 l4
    have hbank := changeNode_lineBank (new := .describing) (r := .nodeRestart) (m := none) hna hga rfl
    rw [warned_bank, warned_clock] at hbank
    refine ⟨_, n.moved .describing .nodeRestart none s.clock, q', ?_, l1, l2, ?_, rfl, rfl, ?_, rfl, fun y hy => ?_,
      fun k hk => ?_, l4, l3, h1, fun a ha => ?_, ?_, (notices_changeNode hna hga).reported, fun hw => ?_,
      fun e hb hf => ?_, fun l' hl' => ?_, ?_, ?_, ?_, ?_⟩
    · rw [show exec (.corrupt r.line x) s = _ from exec_failure hr he, outcome_handed hd, handFailure_restart hloss]
    · rw [changeNode_nodes hna, look_put_self, warned_clock]
    · obtain h | h := ho <;> simp [NodeRec.moved, h]
    · exact clearAllFailed_clear hy
    · rw [touch.nodes k hk, warned_nodes]
    · rw [h2.commanded, hm.1] at ha
      exact unknown_none ha
    · rw [h2.confirmed, hm.2]
    · rw [hbank, take_warn_fault rfl rfl hw]
    · rw [hbank, take_held_fault hb hf]
    · rw [touch.lines r hga l' hl', warned_line_other _ _ _ _ hl']
    · rw [touch.clock, warned_clock]
    · rw [touch.geo, warned_geo]
    · rw [touch.incidents, warned_incidents]
    · rw [touch.traffic, warned_traffic]

end Sys2Proof.Machine
end

section
/-! GANTRY_SERVICE (O35): OUT takes the node to DISABLED, IN to DESCRIBING, each with what the change brings about. -/

namespace Sys2Proof.Machine

/-! ### The line of a node that is DISABLED (R54) -/

theorem mem_keepIn {c : LineCtl} {k j : Class} {p : Entry → Bool} {e : Entry} (h : e ∈ (c.keepIn k p).queues.look j) :
    e ∈ c.queues.look j := by
  unfold LineCtl.keepIn at h
  by_cases hj : j = k
  · subst hj
    rw [look_put_class_self] at h
    exact List.mem_of_mem_filter h
  · rwa [look_put_class_other _ _ hj] at h

theorem mem_removeShow {c : LineCtl} {g : Nat} {j : Class} {e : Entry} (h : e ∈ (c.removeShow g).queues.look j) :
    e ∈ c.queues.look j := mem_keepIn (mem_keepIn h)

theorem mem_leaveOnline {c : LineCtl} {g : Nat} {keeps : Bool} {j : Class} {e : Entry}
    (h : e ∈ (c.leaveOnline g keeps).queues.look j) : e ∈ c.queues.look j := by
  cases keeps with
  | true => exact mem_keepIn (k := .confirm) h
  | false => exact mem_removeShow (mem_keepIn (k := .confirm) h)

theorem mem_dropNode {c : LineCtl} {g : Nat} {j : Class} {e : Entry} (h : e ∈ (c.dropNode g).queues.look j) :
    e.gantry ≠ g := by
  cases j <;> simpa using (List.mem_filter.1 h).2

/-- The line of a gantry taken out of service: no entry, no timer, its telegram in flight discarded. -/
theorem changed_disabled (g : Nat) (old : NodeState) (p : LineParams) (keeps disagrees : Bool) (c : LineCtl) :
    let d := LineCtl.changed g old .disabled p keeps disagrees c
    (∀ k, ∀ e ∈ d.queues.look k, e.gantry ≠ g) ∧ d.held.look g = none ∧ d.polls.look g = none ∧
      ∀ x, d.flight = some x → x.gantry = g → x.discarded = true := by
  have held : (c.dropNode g).held.look g = none := look_del_self ..
  have polls : (c.dropNode g).polls.look g = none := look_del_self ..
  have flight (x : Flight) (hx : (c.dropNode g).flight = some x) (hg : x.gantry = g) : x.discarded = true := by
    obtain ⟨y, -, rfl⟩ := Option.map_eq_some_iff.1 hx
    split at hg
    · rename_i h; rw [if_pos h]
    · contradiction
  by_cases h : old = .online
  · have eq : LineCtl.changed g old .disabled p keeps disagrees c = ((c.dropNode g).leaveOnline g keeps).removeShow g := by
      simp [LineCtl.changed, LineCtl.moved, LineCtl.nodeMoved, LineCtl.showsMoved, LineCtl.showsEnter, h]
    rw [eq]
    exact ⟨fun k e he => mem_dropNode (mem_leaveOnline (mem_removeShow he)), leaveOnline_held ..,
      (congrArg (Table.look · g) (leaveOnline_polls ..)).trans polls,
      fun x hx => flight x ((leaveOnline_flight ..).symm.trans hx)⟩
  · have eq : LineCtl.changed g old .disabled p keeps disagrees c = (c.dropNode g).removeShow g := by
      simp [LineCtl.changed, LineCtl.moved, LineCtl.nodeMoved, LineCtl.showsMoved, LineCtl.showsEnter, h]
    rw [eq]
    exact ⟨fun k e he => mem_dropNode (mem_removeShow he), held, polls, flight⟩

theorem moved_disabled (old : NodeState) (keeps disagrees : Bool) (q : RolloutRec) :
    (q.moved old .disabled keeps disagrees).pending = none ∧ (q.moved old .disabled keeps disagrees).inFlight = false ∧
      (q.moved old .disabled keeps disagrees).confirmed = unknown q.confirmed ∧
      (q.moved old .disabled keeps disagrees).commanded = q.commanded := by
  by_cases h : old = .online
  · cases keeps <;> simp [RolloutRec.moved, RolloutRec.enter, RolloutRec.leaveOnline, RolloutRec.clearGate,
      RolloutRec.noPending, RolloutRec.settle, h]
  · simp [RolloutRec.moved, RolloutRec.enter, RolloutRec.noPending, h]

/-! ### The DISPLAY_CHANGE of a forgotten record (R155, R156) -/

theorem anyKnown_iff (es : List (Option Aspect)) : anyKnown es = true ↔ ∃ a ∈ es, a ≠ none := by
  simp [anyKnown, Option.isSome_iff_ne_none]

theorem signChanges_get : ∀ {bs as cs : List (Option Aspect)} {i : Nat} {b a c : Option Aspect},
    bs[i]? = some b → as[i]? = some a → cs[i]? = some c → (signChanges bs as cs)[i]? = some ⟨a, c, b != a⟩
  | b :: bs, a :: as, c :: cs, 0, _, _, _, hb, ha, hc => by simp_all [signChanges]
  | b :: bs, a :: as, c :: cs, i + 1, _, _, _, hb, ha, hc => by
    simp only [List.getElem?_cons_succ] at hb ha hc
    simpa [signChanges] using signChanges_get hb ha hc

theorem unknown_get {es : List (Option Aspect)} {i : Nat} {b : Option Aspect} (h : es[i]? = some b) :
    (unknown es)[i]? = some none :=
  (List.getElem?_map ..).trans (congrArg (Option.map _) h)

/-! ### The notices of GANTRY_SERVICE OUT (R65, R66) -/

/-- The notices of a change that records nothing: the NODE_EVENT and the DISPLAY_CHANGE, in either order. -/
theorem nodeNotices_pair {s : State} {g : Nat} {gr : GantryRec} {old new : NodeState} {r : Reason} {m : Option Mismatch}
    (hg : s.geo.gantries.look g = some gr) (hr : r.recorded new = none) (h : s.link.notices.length ≤ 30) (b : NoticeBody) :
    (s.nodeNotices g old new r m (some b)).link.notices =
        s.link.notices ++ [⟨s.clock, gr.event g old new r m⟩, ⟨s.clock, b⟩] ∨
      (s.nodeNotices g old new r m (some b)).link.notices =
        s.link.notices ++ [⟨s.clock, b⟩, ⟨s.clock, gr.event g old new r m⟩] := by
  have pair (x y : NoticeBody) : ((s.draw.2.raise x).raise y).link.notices =
      s.link.notices ++ [⟨s.clock, x⟩, ⟨s.clock, y⟩] := by
    have room : s.draw.2.link.notices.length < 32 := by change s.link.notices.length < 32; omega
    have more : (s.draw.2.raise x).link.notices = s.link.notices ++ [⟨s.clock, x⟩] := by rw [raise_room room]; rfl
    have clock : (s.draw.2.raise x).clock = s.clock := by rw [raise_frame]; rfl
    rw [raise_room (by rw [more]; simp; omega), more, clock]
    simp
  have event (u : State) (hu : u.geo = s.geo) : u.nodeEvent g old new r m = u.raise (gr.event g old new r m) :=
    nodeEvent_eq (by rw [hu]; exact hg) ..
  have geo (x : NoticeBody) : (s.draw.2.raise x).geo = s.geo := by rw [raise_frame]; rfl
  simp only [State.nodeNotices, nodeRecord_none hr, event s.draw.2 rfl, event _ (geo b)]
  split
  · exact .inr (pair ..)
  · split <;> exact .inl (pair ..)

/-! ### What GANTRY_SERVICE answers (R64) -/

/-- The state in which a GANTRY_SERVICE request changes the node: the request taken, the service state set. -/
def State.serviceSet (g : Nat) (v : Service) (rest : List Frame) (s : State) : State :=
  { s with link := { s.link with rxQueue := rest } }.setService g v

section Handle

variable {s : State} {g v : Byte}

theorem handleGantryService_length {p : List Byte} (hm : s.geo.mode = .run) (hp : p.length ≠ 2) :
    handleGantryService s p = refuse s .badLength := by
  unfold handleGantryService
  rw [if_neg (by simp [hm])]
  split
  · exact absurd rfl hp
  · rfl

theorem handleGantryService_value (hm : s.geo.mode = .run) (hb : g.toNat = 0 ∨ 32 < g.toNat ∨ 1 < v.toNat) :
    handleGantryService s [g, v] = refuse s .badValue := by
  simp only [handleGantryService, hm, reduceCtorEq, if_false, hb, if_true]

variable (hm : s.geo.mode = .run) (h1 : 1 ≤ g.toNat) (h32 : g.toNat ≤ 32)
include hm h1 h32

theorem handleGantryService_notFound (hv : v.toNat ≤ 1) (hg : s.geo.gantries.look g.toNat = none) :
    handleGantryService s [g, v] = refuse s .notFound := by
  have inside : ¬(g.toNat = 0 ∨ 32 < g.toNat ∨ 1 < v.toNat) := by omega
  simp [handleGantryService, hm, inside, Table.has, hg]

variable {r : GantryRec} (hg : s.geo.gantries.look g.toNat = some r)
include hg

theorem handleGantryService_out (hd : s.nodeState g.toNat ≠ some .disabled) : handleGantryService s [g, 1#8] =
    accept ((s.setService g.toNat .out).changeNode g.toNat .disabled .serviceOut none) := by
  have inside : ¬(g.toNat = 0 ∨ 32 < g.toNat) := by omega
  simp [handleGantryService, hm, inside, Table.has, hg, hd]

theorem handleGantryService_in (hd : s.nodeState g.toNat = some .disabled) : handleGantryService s [g, 0#8] =
    accept ((s.setService g.toNat .inService).changeNode g.toNat .describing .serviceIn none) := by
  have inside : ¬(g.toNat = 0 ∨ 32 < g.toNat) := by omega
  simp [handleGantryService, hm, inside, Table.has, hg, hd]

theorem handleGantryService_same (h : v = 1#8 ∧ s.nodeState g.toNat = some .disabled ∨
    v = 0#8 ∧ s.nodeState g.toNat ≠ some .disabled) : handleGantryService s [g, v] = accept s := by
  have inside : ¬(g.toNat = 0 ∨ 32 < g.toNat) := by omega
  obtain ⟨rfl, hd⟩ | ⟨rfl, hd⟩ := h <;> simp [handleGantryService, hm, inside, Table.has, hg, hd]

end Handle

theorem exec_gantryService {s : State} {f : Frame} {rest : List Frame} {a : Answer} {p : List Byte}
    (ht : s.takes 0x0F#8 f rest) (hp : f.payload = p)
    (ha : handleGantryService { s with link := { s.link with rxQueue := rest } } p = a) :
    exec .gantryService s = .next (a.state.placeReply f a.result a.detail) := takeRequest_answer ht rfl (hp ▸ ha)

section Moves

variable {s : State} {f : Frame} {rest : List Frame} {g : Byte} {r : GantryRec} {n : NodeRec}
  (ht : s.takes 0x0F#8 f rest) (hm : s.geo.mode = .run) (h1 : 1 ≤ g.toNat) (h32 : g.toNat ≤ 32)
  (hg : s.geo.gantries.look g.toNat = some r) (hn : s.nodes.look g.toNat = some n)
include ht hm h1 h32 hg hn

theorem exec_serviceOut (hp : f.payload = [g, 1#8]) (hd : n.state ≠ .disabled) : exec .gantryService s =
    .next (((s.serviceSet g.toNat .out rest).changeNode g.toNat .disabled .serviceOut none).placeReply f .ok .none) :=
  exec_gantryService ht hp (handleGantryService_out (s := { s with link := { s.link with rxQueue := rest } }) hm h1 h32 hg
    (by simpa [State.nodeState, hn] using hd))

theorem exec_serviceIn (hp : f.payload = [g, 0#8]) (hd : n.state = .disabled) : exec .gantryService s =
    .next (((s.serviceSet g.toNat .inService rest).changeNode g.toNat .describing .serviceIn none).placeReply f .ok .none) :=
  exec_gantryService ht hp (handleGantryService_in (s := { s with link := { s.link with rxQueue := rest } }) hm h1 h32 hg
    (by simpa [State.nodeState, hn] using hd))

end Moves

/-- A pass triggered behind a request: started from the state it leaves, or asked for again (R134). -/
theorem trigger_reply {s u : State} (hm : u.geo.mode = .run) (hp : u.plan = s.plan) (f : Frame) (r : Result) (d : Detail) :
    (s.plan.running = none →
      (u.trigger.placeReply f r d).plan = { s.plan with running := some (u.trigger.placeReply f r d).snapshot }) ∧
    ∀ m, s.plan.running = some m → (u.trigger.placeReply f r d).plan = { s.plan with again := true } := by
  refine ⟨fun h => ?_, fun m h => ?_⟩
  · rw [trigger_idle hm (by rw [hp]; exact h), ← hp]
    rfl
  · rw [trigger_running hm (n := m) (by rw [hp]; exact h), ← hp]
    rfl

/-- A node in the state in which GANTRY_SERVICE changes it. -/
structure Served (s : State) (f : Frame) (g : Nat) (r : GantryRec) (n : NodeRec) (v : Service) (a t : State) : Prop where
  gantry : t.geo.gantries.look g = some { r with service := v }
  nodes : ∀ k, k ≠ g → t.nodes.look k = s.nodes.look k
  lines : ∀ l, l ≠ r.line → t.line l = s.line l
  clock : t.clock = s.clock
  incidents : t.incidents = s.incidents
  sections : t.sections = s.sections
  traffic : t.traffic = s.traffic
  params : t.geo.params = s.geo.params
  targets : t.plan.targets = s.plan.targets
  demands : t.plan.demands = s.plan.demands
  reply : t.link.replySlot = some ⟨f.typ ||| 0x80#8, f.tag, .ok, .none⟩
  look : a.nodes.look g = some n
  known : a.geo.gantries.look g = some { r with service := v }

theorem served_holds {s : State} {g : Nat} {r : GantryRec} {n : NodeRec} (hg : s.geo.gantries.look g = some r)
    (hn : s.nodes.look g = some n) (f : Frame) (rest : List Frame) (v : Service) (new : NodeState) (why : Reason) :
    Served s f g r n v (s.serviceSet g v rest) (((s.serviceSet g v rest).changeNode g new why none).placeReply f .ok .none) :=
  have touch := touch_changeNode g new why none (s.serviceSet g v rest)
  have hga : (s.serviceSet g v rest).geo.gantries.look g = some { r with service := v } := by simp [State.serviceSet, hg]
  { gantry := by rw [placeReply_geo, touch.geo, hga]
    nodes := fun k hk => by rw [placeReply_nodes, touch.nodes k hk]; rfl
    lines := fun l hl => by
      have h := touch.lines _ hga l hl
      cases l <;> exact h
    clock := touch.clock
    incidents := touch.incidents
    sections := touch.sections
    traffic := touch.traffic
    params := by rw [placeReply_geo, touch.geo]; rfl
    targets := touch.targets
    demands := touch.demands
    reply := rfl
    look := hn
    known := hga }

section Out

variable {s : State} {g : Nat} {r : GantryRec} {n : NodeRec} {rest : List Frame} {q : RolloutRec}
  (hg : s.geo.gantries.look g = some r) (hn : s.nodes.look g = some n)
include hg hn

/-- The state after GANTRY_SERVICE OUT, its reply apart. -/
theorem serviceOut_told : ((s.serviceSet g .out rest).changeNode g .disabled .serviceOut none).link =
    ((s.serviceSet g .out rest).nodeNotices g n.state .disabled .serviceOut none
      ((s.serviceSet g .out rest).forgetNotice g .disabled)).link :=
  changeNode_link (gr := { r with service := .out }) (n := n) hn (by simp [State.serviceSet, hg])

/-- A confirmed record without a known entry: the NODE_EVENT alone. -/
theorem serviceOut_alone (hq : s.rollout.look g = some q) (hk : ∀ a ∈ q.confirmed, a = none)
    (room : s.link.notices.length < 32) :
    ((s.serviceSet g .out rest).changeNode g .disabled .serviceOut none).link.notices =
      s.link.notices ++ [⟨s.clock, r.event g n.state .disabled .serviceOut none⟩] := by
  have silent : (s.serviceSet g .out rest).forgetNotice g .disabled = none := by
    refine if_neg fun h => ?_
    have hc : (s.serviceSet g .out rest).confirmed g = q.confirmed := by simp [State.confirmed, State.serviceSet, hq]
    obtain ⟨a, ha, hne⟩ := (anyKnown_iff _).1 h.2
    rw [hc] at ha
    exact hne (hk a ha)
  have hga : (s.serviceSet g .out rest).geo.gantries.look g = some { r with service := .out } := by
    simp [State.serviceSet, hg]
  have room' : (s.serviceSet g .out rest).link.notices.length < 32 := room
  rw [serviceOut_told hg hn, silent, nodeNotices_alone, nodeRecord_none rfl, nodeEvent_eq hga, raise_room room']
  rfl

/-- Known entries that become unknown: one DISPLAY_CHANGE beside the NODE_EVENT. -/
theorem serviceOut_shown (hq : s.rollout.look g = some q) (hk : ∃ a ∈ q.confirmed, a ≠ none)
    (room : s.link.notices.length ≤ 30) :
    let d : NoticeBody := .displayChange g .node (signChanges q.confirmed (unknown q.confirmed) q.commanded)
    let t := (s.serviceSet g .out rest).changeNode g .disabled .serviceOut none
    t.link.notices = s.link.notices ++ [⟨s.clock, r.event g n.state .disabled .serviceOut none⟩, ⟨s.clock, d⟩] ∨
      t.link.notices = s.link.notices ++ [⟨s.clock, d⟩, ⟨s.clock, r.event g n.state .disabled .serviceOut none⟩] := by
  have shown : (s.serviceSet g .out rest).forgetNotice g .disabled =
      some (.displayChange g .node (signChanges q.confirmed (unknown q.confirmed) q.commanded)) := by
    simp [State.forgetNotice, State.confirmed, State.commanded, State.serviceSet, hq, (anyKnown_iff _).2 hk]
  have hga : (s.serviceSet g .out rest).geo.gantries.look g = some { r with service := .out } := by
    simp [State.serviceSet, hg]
  intro d t
  have pair := nodeNotices_pair (old := n.state) (new := .disabled) (r := .serviceOut) (m := none) hga rfl
    (show (s.serviceSet g .out rest).link.notices.length ≤ 30 from room) d
  rw [← shown, ← serviceOut_told hg hn] at pair
  exact pair

/-- The station hosted by an ONLINE node taken out of service (R90). -/
theorem serviceOut_measure {st : Nat} {sr : StationRec} (ho : n.state = .online) (hh : s.hosted g = some (st, sr)) :
    ((s.serviceSet g .out rest).changeNode g .disabled .serviceOut none).measure.stations =
      s.measure.stations.adjust st StationEntry.nodeLost := by
  have hga : (s.serviceSet g .out rest).geo.gantries.look g = some { r with service := .out } := by
    simp [State.serviceSet, hg]
  rw [changeNode_measure (s := s.serviceSet g .out rest) (n := n) hn hga, ho, measureOnNode_lost (s := s.serviceSet g .out rest) hh (by simp)]
  rfl

theorem serviceOut_still (h : n.state ≠ .online ∨ s.hosted g = none) :
    ((s.serviceSet g .out rest).changeNode g .disabled .serviceOut none).measure = s.measure := by
  have hga : (s.serviceSet g .out rest).geo.gantries.look g = some { r with service := .out } := by
    simp [State.serviceSet, hg]
  rw [changeNode_measure (s := s.serviceSet g .out rest) (n := n) hn hga]
  obtain h | h := h
  · rw [measureOnNode_off h (by simp)]; rfl
  · rw [measureOnNode_bare (s := s.serviceSet g .out rest) h]; rfl

end Out

/-- Settles O35: each change with `served_holds` and the lemmas about its line, record, station and notices. -/
theorem gantryServiceMovesNode : Obligations.GantryServiceMovesNode := by
  refine ⟨?_, fun s f rest ht hm => ⟨fun hp => ?_, fun g v hp => ⟨fun hb => ?_, fun h1 h32 hv hg => ?_⟩⟩⟩
  · intro s f rest g r n ht hm h1 h32 hg hn triggers
    have hs := nodeState_eq hn
    refine ⟨fun hp hd => ?_, fun hp hd => ?_, fun h => ?_⟩
    · have h := served_holds hg hn f rest .out .disabled .serviceOut
      obtain ⟨l1, l2, l3, l4⟩ := changed_disabled g.toNat n.state s.geo.params.line
        ((s.serviceSet g.toNat .out rest).keepsRetry g.toNat) ((s.serviceSet g.toNat .out rest).disagrees g.toNat)
        (s.line r.line)
      have hline := changeNode_lineOf (new := .disabled) (r := .serviceOut) (m := none) h.look h.known
      rw [← show _ = LineCtl.changed g.toNat n.state .disabled s.geo.params.line _ _ (s.line r.line) from hline] at l1 l2 l3 l4
      have hevent := mem_changeNode (new := .disabled) (r := .serviceOut) (m := none) h.look h.known
      refine ⟨_, exec_serviceOut ht hm h1 h32 hg hn hp hd, h.gantry, ?_, h.nodes, l1, l2, l3, l4, fun q hq => ?_, fun ho st sr en hh hen => ?_,
        fun hw => serviceOut_still hg hn hw, hevent, ?_, fun ho => ?_, fun ho => ?_, h.lines, h.clock, h.incidents, h.sections,
        h.traffic, h.params, h.targets, h.demands, h.reply⟩
      · rw [placeReply_nodes, changeNode_nodes h.look, look_put_self]
        rfl
      · obtain ⟨q', h1, h2⟩ := changeNode_gated (new := .disabled) (r := .serviceOut) (m := none) h.look h.known (q := q) hq
        obtain ⟨m1, m2, m3, m4⟩ := moved_disabled n.state ((s.serviceSet g.toNat .out rest).keepsRetry g.toNat)
          ((s.serviceSet g.toNat .out rest).disagrees g.toNat) q
        refine ⟨q', h1, h2.pending.trans m1, h2.inFlight.trans m2, fun a ha => ?_, h2.commanded.trans m4⟩
        rw [h2.confirmed, m3] at ha
        exact unknown_none ha
      · rw [placeReply_measure, serviceOut_measure hg hn ho hh]
        refine ⟨?_, fun k hk => look_adjust_other _ _ hk⟩
        rw [look_adjust_self, hen]
        rfl
      · intro e q room hq
        refine ⟨fun hk => serviceOut_alone hg hn hq hk (by omega), fun hk =>
          ⟨_, serviceOut_shown hg hn hq hk room, fun i b c hb hc => ?_⟩⟩
        rw [signChanges_get hb (unknown_get hb) hc]
        cases b <;> rfl
      · obtain ⟨u, hu, hgeo, ht'⟩ := changeNode_crosses (new := .disabled) (r := .serviceOut) (m := none) h.look h.known
          (by simp [ho]) (by simp)
        rw [ht']
        exact trigger_reply (by rw [hgeo]; exact hm) hu ..
      · exact changeNode_calm h.look h.known ho (by simp) (by simp)
    · have h := served_holds hg hn f rest .inService .describing .serviceIn
      have hline := changeNode_lineOf (new := .describing) (r := .serviceIn) (m := none) h.look h.known
      have hevent := mem_changeNode_alone (new := .describing) (r := .serviceIn) (m := none) h.look h.known
        (forgetNotice_none _ _ (by simp) (by simp))
      rw [hd] at hevent
      refine ⟨_, exec_serviceIn ht hm h1 h32 hg hn hp hd, h.gantry, ⟨n.moved .describing .serviceIn none s.clock, ?_, rfl, rfl, ?_, rfl, rfl⟩, fun ha => ?_,
        fun ha => ?_, h.nodes, ?_, fun q hq => ?_, fun room => hevent (by change s.link.notices.length < 32; omega), h.lines,
        h.clock, h.incidents, h.sections, h.traffic, h.params⟩
      · rw [placeReply_nodes, changeNode_nodes h.look, look_put_self]
        rfl
      · simp [NodeRec.moved, hd]
      · obtain ⟨u, hu, hgeo, ht'⟩ := changeNode_clears (r := .serviceIn) (m := none) h.look h.known (by simp [hd]) ha
        rw [ht']
        exact trigger_reply (by rw [hgeo]; exact hm) hu ..
      · exact changeNode_calm h.look h.known (by simp [hd]) (by simp) fun _ => ha
      · have last := congrArg List.getLast? (deposit_look_self (((s.line r.line).stopPolls g.toNat)) .service
          ⟨g.toNat, .describe, .registry, false⟩)
        rw [List.getLast?_concat] at last
        rw [hd] at hline
        rw [← last]
        exact congrArg (fun c : LineCtl => c.queues.service.getLast?) hline
      · obtain ⟨q', h1, h2⟩ := changeNode_gated (new := .describing) (r := .serviceIn) (m := none) h.look h.known (q := q) hq
        rw [hd] at h2
        refine ⟨q', h1, fun a ha => ?_, fun a ha => ?_, h2.confirmed⟩
        · rw [h2.commanded] at ha; exact unknown_none ha
        · rw [h2.failed] at ha; exact unknown_none ha
    · obtain ⟨hp, hd⟩ | ⟨hp, hd⟩ := h
      · exact exec_gantryService ht hp (handleGantryService_same (s := { s with link := { s.link with rxQueue := rest } }) hm
          h1 h32 hg (.inl ⟨rfl, by simpa [State.nodeState, hn] using hd⟩))
      · exact exec_gantryService ht hp (handleGantryService_same (s := { s with link := { s.link with rxQueue := rest } }) hm
          h1 h32 hg (.inr ⟨rfl, by simpa [State.nodeState, hn] using hd⟩))
  · exact exec_gantryService ht rfl (handleGantryService_length hm hp)
  · exact exec_gantryService ht hp (handleGantryService_value hm hb)
  · exact exec_gantryService ht hp (handleGantryService_notFound hm h1 h32 hv hg)

end Sys2Proof.Machine
end

section
/-! The accepted SHOW, and how STATE replies judge and clear it (O46): R154, R159, R164 to R167. -/

namespace Sys2Proof.Machine

/-! ### Acts on lines and rollout alone -/

/-- Only the lines and the rollout can differ. -/
def Rolls (s t : State) : Prop := { t with lineA := s.lineA, lineB := s.lineB, rollout := s.rollout } = s

theorem Rolls.refl (s : State) : Rolls s s := rfl

theorem Rolls.trans {s t u : State} (h : Rolls s t) (k : Rolls t u) : Rolls s u := by
  unfold Rolls at h k ⊢
  calc ({ u with lineA := s.lineA, lineB := s.lineB, rollout := s.rollout } : State)
      = { { u with lineA := t.lineA, lineB := t.lineB, rollout := t.rollout } with
          lineA := s.lineA, lineB := s.lineB, rollout := s.rollout } := rfl
    _ = s := by rw [k, h]

theorem rolls_onLine (l : Line) (f : LineCtl → LineCtl) (s : State) : Rolls s (s.onLine l f) := by cases l <;> rfl

theorem rolls_onLineOf (g : Nat) (f : LineCtl → LineCtl) (s : State) : Rolls s (s.onLineOf g f) := by
  unfold State.onLineOf
  split
  · rfl
  · exact rolls_onLine ..

theorem rolls_onRollout (g : Nat) (f : RolloutRec → RolloutRec) (s : State) : Rolls s (s.onRollout g f) := rfl

theorem rolls_evalGate (g : Nat) (s : State) : Rolls s (s.evalGate g) := by
  unfold State.evalGate
  split
  · rfl
  · split <;> rfl

theorem rolls_endConfirmation (g : Nat) (s : State) : Rolls s (s.endConfirmation g) :=
  (rolls_onRollout ..).trans (rolls_onLineOf ..)

theorem rolls_removePending (g : Nat) (s : State) : Rolls s (s.removePending g) :=
  (rolls_onRollout ..).trans (rolls_onLineOf ..)

theorem rolls_createPending (g : Nat) (k : ShowKind) (as : List Aspect) (s : State) : Rolls s (s.createPending g k as) := by
  unfold State.createPending
  split
  · rfl
  · exact (((rolls_removePending ..).trans (rolls_onRollout ..)).trans (rolls_onLineOf ..)).trans (rolls_evalGate ..)

section Rolls

variable {s t : State} (h : Rolls s t)
include h

theorem Rolls.geo : t.geo = s.geo := by have := congrArg State.geo (show _ = _ from h); exact this
theorem Rolls.nodes : t.nodes = s.nodes := by have := congrArg State.nodes (show _ = _ from h); exact this
theorem Rolls.plan : t.plan = s.plan := by have := congrArg State.plan (show _ = _ from h); exact this

end Rolls

/-! ### A SHOW becomes pending (R157, R165) -/

/-- The record with a new pending SHOW, its gate not evaluated yet. -/
def RolloutRec.withShow (b : ShowBody) (r : RolloutRec) : RolloutRec := { r.noPending with pending := some ⟨b, false⟩ }

/-- The line with the entry of a new pending SHOW. -/
def LineCtl.withShow (g : Nat) (cls : ShowClass) (c : LineCtl) : LineCtl :=
  (c.removeShow g).deposit cls.cls ⟨g, .display, .rollout, false⟩

theorem createPending_eq {s : State} {g : Nat} {gr : GantryRec} {r : RolloutRec} (hg : s.geo.gantries.look g = some gr)
    (hr : s.rollout.look g = some r) (k : ShowKind) (as : List Aspect) :
    s.createPending g k as = ((s.onRollout g (RolloutRec.withShow ⟨as, k, showClass gr.kinds k as r.commanded⟩)).onLine gr.line
      (LineCtl.withShow g (showClass gr.kinds k as r.commanded))).evalGate g := by
  have hk : s.kinds g = gr.kinds := kinds_eq hg
  simp only [State.createPending, hr, hk]
  rw [removePending_eq hg, onRollout_onLine, onRollout_onRollout]
  rw [onLineOf_eq (r := gr) _ (by simpa using hg), onLine_onLine]
  rfl

/-- The record after a SHOW has become pending: a gate that stands, its timer at 0 exactly if HELD. -/
theorem createPending_look {s : State} {g : Nat} {gr : GantryRec} {r : RolloutRec} (hg : s.geo.gantries.look g = some gr)
    (hr : s.rollout.look g = some r) (k : ShowKind) (as : List Aspect) :
    ∃ r', (s.createPending g k as).rollout.look g = some r' ∧
      r' = { r with pending := some ⟨⟨as, k, showClass gr.kinds k as r.commanded⟩, false⟩, gateHeld := r'.gateHeld,
                    gateTimer := if r'.gateHeld = true then some 0 else none, gateExpired := false } := by
  rw [createPending_eq hg hr]
  have hw : ((s.onRollout g (RolloutRec.withShow ⟨as, k, showClass gr.kinds k as r.commanded⟩)).onLine gr.line
      (LineCtl.withShow g (showClass gr.kinds k as r.commanded))).rollout.look g =
      some (r.withShow ⟨as, k, showClass gr.kinds k as r.commanded⟩) := by simp [hr]
  obtain ⟨r', h1, -, h3, h4, -, -⟩ := evalGate_spec hw rfl
  refine ⟨r', h1, ?_⟩
  have timer : r'.gateTimer = if r'.gateHeld = true then some 0 else none := by
    rw [h3]
    simp [RolloutRec.withShow, RolloutRec.noPending]
  rw [← timer]
  calc r' = { ({ r' with gateHeld := false, gateTimer := none } : RolloutRec) with
        gateHeld := r'.gateHeld, gateTimer := r'.gateTimer } := rfl
    _ = _ := by
      rw [show ({ r' with gateHeld := false, gateTimer := none } : RolloutRec) =
        r.withShow ⟨as, k, showClass gr.kinds k as r.commanded⟩ from h4]
      rfl

theorem createPending_other {s : State} {g j : Nat} {gr : GantryRec} {r : RolloutRec}
    (hg : s.geo.gantries.look g = some gr) (hr : s.rollout.look g = some r) (k : ShowKind) (as : List Aspect) (h : j ≠ g) :
    (s.createPending g k as).rollout.look j = s.rollout.look j := by
  rw [createPending_eq hg hr, evalGate_other _ h, onLine_rollout, onRollout_rollout, look_adjust_other _ _ h]

theorem createPending_line {s : State} {g : Nat} {gr : GantryRec} {r : RolloutRec}
    (hg : s.geo.gantries.look g = some gr) (hr : s.rollout.look g = some r) (k : ShowKind) (as : List Aspect) :
    (s.createPending g k as).line gr.line = (s.line gr.line).withShow g (showClass gr.kinds k as r.commanded) := by
  rw [createPending_eq hg hr, evalGate_line, line_onLine_self, onRollout_line]

/-! ### A confirmation STATE held or withdrawn (R51, R157) -/

theorem depositConfirm_free {c : LineCtl} {g : Nat} (h : ∀ e ∈ c.queues.confirm, e.gantry ≠ g) (settle : Nat) :
    c.depositConfirm settle g = { c with held := c.held.put g settle } := if_neg (by simpa using h)

theorem depositConfirm_waits {c : LineCtl} {g : Nat} (h : ∃ e ∈ c.queues.confirm, e.gantry = g) (settle : Nat) :
    c.depositConfirm settle g = c := if_pos (by simpa using h)

theorem depositConfirm_others (c : LineCtl) {g k : Nat} (h : k ≠ g) (settle : Nat) :
    (c.depositConfirm settle g).held.look k = c.held.look k := by
  unfold LineCtl.depositConfirm
  split
  · rfl
  · exact look_put_other _ _ h

theorem depositConfirm_frame (c : LineCtl) (g settle : Nat) : { c.depositConfirm settle g with held := c.held } = c := by
  unfold LineCtl.depositConfirm
  split <;> rfl

theorem depositConfirm_queues (c : LineCtl) (g settle : Nat) : (c.depositConfirm settle g).queues = c.queues :=
  (congrArg LineCtl.queues (depositConfirm_frame c g settle) :)

/-! ### The queues after a SHOW has become pending -/

theorem keepIn_look (c : LineCtl) (j k : Class) (p : Entry → Bool) :
    (c.keepIn j p).queues.look k = if k = j then (c.queues.look k).filter p else c.queues.look k := by
  by_cases h : k = j
  · rw [if_pos h, h]; exact look_put_class_self ..
  · rw [if_neg h]; exact look_put_class_other _ _ h

theorem deposit_look (c : LineCtl) (j k : Class) (e : Entry) :
    (c.deposit j e).queues.look k = c.queues.look k ++ if k = j then [e] else [] := by
  by_cases h : k = j
  · rw [if_pos h, h]; exact deposit_look_self ..
  · rw [if_neg h, List.append_nil]; exact look_put_class_other _ _ h

theorem removeShow_look (c : LineCtl) (g : Nat) (k : Class) : (c.removeShow g).queues.look k =
    if k = .urgentShow ∨ k = .normalShow then (c.queues.look k).filter (fun e => decide (e.gantry ≠ g))
    else c.queues.look k := by
  have keep : (fun e : Entry => e.gantry != g) = fun e => decide (e.gantry ≠ g) := by
    funext e; rw [Bool.eq_iff_iff]; simp
  simp only [LineCtl.removeShow, keepIn_look, keep]
  cases k <;> rfl

theorem withdrawConfirm_look (c : LineCtl) (g : Nat) (k : Class) : (c.withdrawConfirm g).queues.look k =
    if k = .confirm then (c.queues.look k).filter (fun e => decide (e.gantry ≠ g) || e.retry) else c.queues.look k := by
  have keep : (fun e : Entry => e.gantry != g || e.retry) = fun e => decide (e.gantry ≠ g) || e.retry := by
    funext e; rw [Bool.eq_iff_iff]; simp
  refine (keepIn_look c .confirm k _).trans ?_
  rw [keep]

/-- Every class of a line whose gantry gets a new SHOW and loses its confirmation STATE (R51, R157). -/
theorem withdraw_withShow_look (c : LineCtl) (g : Nat) (cls : ShowClass) (k : Class) :
    ((c.withdrawConfirm g).withShow g cls).queues.look k =
      if k = .urgentShow ∨ k = .normalShow then
        (c.queues.look k).filter (fun e => decide (e.gantry ≠ g)) ++
          (if k = cls.cls then [⟨g, .display, .rollout, false⟩] else [])
      else if k = .confirm then c.queues.confirm.filter fun e => decide (e.gantry ≠ g) || e.retry
      else c.queues.look k := by
  have hcls : ¬(k = .urgentShow ∨ k = .normalShow) → k ≠ cls.cls := fun h e => h (by subst e; cases cls <;> simp [ShowClass.cls])
  rw [LineCtl.withShow, deposit_look, removeShow_look, withdrawConfirm_look]
  by_cases h : k = .urgentShow ∨ k = .normalShow
  · have hk : k ≠ .confirm := by rintro rfl; simp at h
    rw [if_pos h, if_pos h, if_neg hk]
  · rw [if_neg h, if_neg h, if_neg (hcls h), List.append_nil]
    split
    · rename_i hk; rw [hk]; rfl
    · rfl

/-! ### The SHOW is accepted (R154, R159) -/

/-- The record of a gantry whose SHOW has been accepted. -/
def RolloutRec.accepted (b : ShowBody) (r : RolloutRec) : RolloutRec :=
  { r with inFlight := false, commanded := b.contents.map some, confirmation := .awaiting, polls := 0,
           resends := if b.kind = .ordinary then 0 else r.resends + 1 }

/-- The state in which an accepted SHOW has been taken, before the gantry is compared afresh. -/
def State.accepted (l : Line) (g : Nat) (b : ShowBody) (s : State) : State :=
  (s.onRollout g (RolloutRec.accepted b)).onLine l fun c =>
    (c.ended .free).depositConfirm s.geo.params.line.settle g

section Accepted

variable {s : State} {l : Line} {f : Flight} {b : ShowBody} {g : GantryRec}

theorem showAccepted_eq {gr : GantryRec} {k : Nat} (hg : s.geo.gantries.look k = some gr) (b : ShowBody) :
    s.showAccepted k b = State.compare k
      ((s.onRollout k (RolloutRec.accepted b)).onLine gr.line (LineCtl.depositConfirm s.geo.params.line.settle k)) := by
  have taken : (fun r : RolloutRec =>
      { r with inFlight := false, commanded := b.contents.map some, confirmation := .awaiting, polls := 0,
               resends := match b.kind with | .ordinary => 0 | .resend => r.resends + 1 }) = RolloutRec.accepted b := by
    funext r
    cases hb : b.kind <;> simp [RolloutRec.accepted, hb]
  simp only [State.showAccepted]
  rw [depositConfirm_eq (gr := gr) (by simpa using hg)]
  exact congrArg (fun h : RolloutRec → RolloutRec => State.compare k ((s.onRollout k h).onLine gr.line
    (LineCtl.depositConfirm s.geo.params.line.settle k))) taken

theorem handAccepted_online (ho : s.nodeState f.gantry = some .online) (hb : f.body = some b)
    (hg : s.geo.gantries.look f.gantry = some g) (hl : g.line = l) :
    State.handAccepted f (s.onLine l (LineCtl.ended .free)) = (s.accepted l f.gantry b).compare f.gantry := by
  have hs : (s.onLine l (LineCtl.ended .free)).nodeSucceeded f.gantry f.retry = s.onLine l (LineCtl.ended .free) :=
    if_neg fun h => by rw [nodeState_onLine, ho] at h; exact absurd h.1 (by simp)
  subst hl
  simp only [State.handAccepted, hs, hb]
  rw [showAccepted_eq (gr := g) (by simpa using hg), onRollout_onLine, onLine_onLine, onLine_geo]
  rfl

/-- A gantry whose node is ONLINE with no SHOW in flight is published by comparing it (R157). -/
theorem publish_compare {k : Nat} {r : RolloutRec} (ho : s.nodeState k = some .online) (hr : s.rollout.look k = some r)
    (hf : r.inFlight = false) : s.publish k = s.compare k := by
  simp [State.publish, hr, ho, hf]

theorem compare_equal {k : Nat} {r : RolloutRec} (hr : s.rollout.look k = some r) (hc : r.commanded = (s.shown k).map some)
    (hp : ∀ p, r.pending = some p → p.body.kind = .resend ∨ p.retry = true) : s.compare k = s := by
  have same : entriesEqual r.commanded (s.shown k) = true := (entriesEqual_iff ..).2 hc
  simp only [State.compare, hr, same, if_true]
  cases hq : r.pending with
  | none => rfl
  | some p =>
    refine if_neg ?_
    rintro ⟨h1, h2⟩
    obtain h | h := hp p hq
    · simp [h1] at h
    · simp [h2] at h

theorem compare_creates {k : Nat} {r : RolloutRec} (hr : s.rollout.look k = some r)
    (hc : r.commanded ≠ (s.shown k).map some) (hp : r.pending = none) :
    s.compare k = (s.endConfirmation k).createPending k .ordinary (s.shown k) := by
  have differs : entriesEqual r.commanded (s.shown k) = false := by
    rw [← Bool.not_eq_true, entriesEqual_iff]; exact hc
  simp [State.compare, hr, differs, hp]

end Accepted

/-! ### The marks of a STATE reply, sign by sign (R166, R167) -/

theorem differing_get : ∀ {cs : List (Option Aspect)} {ds : List Aspect} {i : Nat} {c : Option Aspect} {d : Aspect},
    cs[i]? = some c → ds[i]? = some d → (differing cs ds)[i]? = some (c != some d)
  | c :: cs, d :: ds, 0, _, _, hc, hd => by
    obtain rfl := Option.some.inj hc
    obtain rfl := Option.some.inj hd
    rfl
  | _ :: cs, _ :: ds, i + 1, _, _, hc, hd => differing_get (cs := cs) (ds := ds) hc hd

theorem recordFailed_get : ∀ {ms : List Bool} {cs fs : List (Option Aspect)} {i : Nat} {m : Bool} {c y : Option Aspect},
    ms[i]? = some m → cs[i]? = some c → fs[i]? = some y → (recordFailed ms cs fs)[i]? = some (if m then c else y)
  | m :: ms, c :: cs, y :: fs, 0, _, _, _, hm, hc, hy => by
    obtain rfl := Option.some.inj hm
    obtain rfl := Option.some.inj hc
    obtain rfl := Option.some.inj hy
    rfl
  | _ :: ms, _ :: cs, _ :: fs, i + 1, _, _, _, hm, hc, hy => recordFailed_get (ms := ms) (cs := cs) (fs := fs) hm hc hy

theorem markSigns_get : ∀ {ms : List Bool} {rs : List SignRec} {i : Nat} {m : Bool} {z : SignRec},
    ms[i]? = some m → rs[i]? = some z → (markSigns ms rs)[i]? = some (if m then { z with confirmFailed := true } else z)
  | m :: ms, z :: rs, 0, _, _, hm, hz => by
    obtain rfl := Option.some.inj hm
    obtain rfl := Option.some.inj hz
    rfl
  | _ :: ms, _ :: rs, i + 1, _, _, hm, hz => markSigns_get (ms := ms) (rs := rs) hm hz

theorem clearSigns_get : ∀ {ms : List Bool} {rs : List SignRec} {i : Nat} {m : Bool} {z : SignRec},
    ms[i]? = some m → rs[i]? = some z → (clearSigns ms rs)[i]? = some (if m then { z with confirmFailed := false } else z)
  | m :: ms, z :: rs, 0, _, _, hm, hz => by
    obtain rfl := Option.some.inj hm
    obtain rfl := Option.some.inj hz
    rfl
  | _ :: ms, _ :: rs, i + 1, _, _, hm, hz => clearSigns_get (ms := ms) (rs := rs) hm hz

theorem recovered_get : ∀ {cs fs : List (Option Aspect)} {ds : List Aspect} {i : Nat} {c y : Option Aspect} {d : Aspect},
    cs[i]? = some c → fs[i]? = some y → ds[i]? = some d →
    (recovered cs fs ds)[i]? = some (y.isSome && c == some d && c == y)
  | c :: cs, y :: fs, d :: ds, 0, _, _, _, hc, hy, hd => by
    obtain rfl := Option.some.inj hc
    obtain rfl := Option.some.inj hy
    obtain rfl := Option.some.inj hd
    rfl
  | _ :: cs, _ :: fs, _ :: ds, i + 1, _, _, _, hc, hy, hd => recovered_get (cs := cs) (fs := fs) (ds := ds) hc hy hd

theorem discardFailed_get : ∀ {ms : List Bool} {fs : List (Option Aspect)} {i : Nat} {m : Bool} {y : Option Aspect},
    ms[i]? = some m → fs[i]? = some y → (discardFailed ms fs)[i]? = some (if m then none else y)
  | m :: ms, y :: fs, 0, _, _, hm, hy => by
    obtain rfl := Option.some.inj hm
    obtain rfl := Option.some.inj hy
    rfl
  | _ :: ms, _ :: fs, i + 1, _, _, hm, hy => discardFailed_get (ms := ms) (fs := fs) hm hy

/-! ### The registry takes marks (R70) -/

/-- What a request about confirm-failed marks leaves. -/
structure Marks (g : Nat) (f : List SignRec → List SignRec) (n : NodeRec) (s t : State) : Prop where
  node : t.nodes.look g = some { n with signs := f n.signs }
  gated : ∀ q, s.rollout.look g = some q → ∃ q', t.rollout.look g = some q' ∧ q.Gated q'
  pass : f n.signs ≠ n.signs → s.geo.mode = .run → t.plan.running ≠ none
  line : ∀ l, t.line l = s.line l
  geo : t.geo = s.geo
  traffic : t.traffic = s.traffic
  banks : t.banks = s.banks
  link : t.link = s.link
  clock : t.clock = s.clock

theorem applyMarks_holds {s : State} {g : Nat} {n : NodeRec} (hn : s.nodes.look g = some n)
    (f : List SignRec → List SignRec) : Marks g f n s (s.applyMarks g f) := by
  by_cases h : f n.signs = n.signs
  · have eq : s.applyMarks g f = s := by simp [State.applyMarks, hn, h]
    rw [eq]
    exact ⟨by rw [h, hn], fun q hq => ⟨q, hq, .refl q⟩, fun k => absurd h k, fun _ => rfl, rfl, rfl, rfl, rfl, rfl⟩
  · let a : State := { s with nodes := s.nodes.put g { n with signs := f n.signs } }
    have eq : s.applyMarks g f = (a.gatesBeside g).trigger := by simp [State.applyMarks, hn, h, a]
    have i : Inside s (a.gatesBeside g) := Inside.trans (t := a) rfl (inside_gatesBeside ..)
    have p : Passes (a.gatesBeside g) (a.gatesBeside g).trigger := passes_trigger _
    have k : Touch g s (a.gatesBeside g).trigger :=
      ((touch_putNode g _ s).trans (touch_gatesBeside ..)).trans (touch_trigger ..)
    rw [eq]
    refine ⟨?_, fun q hq => ?_, fun _ hm => (trigger_run (by rw [i.geo]; exact hm)).1, fun l => ?_, k.geo, k.traffic,
      p.banks.trans i.banks, p.link.trans i.link, k.clock⟩
    · rw [trigger_nodes, gatesBeside_nodes, look_put_self]
    · rw [trigger_rollout]
      exact gatesBeside_gated g (s := a) hq
    · rw [trigger_line, gatesBeside_line]
      cases l <;> rfl

end Sys2Proof.Machine
end

section
/-! The judgement of a STATE reply and the marks it clears, case by case; the settling of O46. -/

namespace Sys2Proof.Machine

section Judge

variable {s : State} {g : Nat} {r : RolloutRec} {shown : List Aspect} {poll : Bool} (hr : s.rollout.look g = some r)
include hr

/-- A judgement that changes nothing (R164, R165). -/
theorem judge_nothing (h : r.confirmation = .settled ∨ r.confirmation = .resending ∧ r.commanded ≠ shown.map some ∨
    r.confirmation = .awaiting ∧ r.commanded ≠ shown.map some ∧ poll = false) : s.judge g poll shown = s := by
  obtain h | ⟨h, hd⟩ | ⟨h, hd, hp⟩ := h
  · simp [State.judge, hr, h]
  · have := (not_congr (entriesEqual_iff r.commanded shown)).2 hd
    simp [State.judge, hr, h, this]
  · have := (not_congr (entriesEqual_iff r.commanded shown)).2 hd
    simp [State.judge, hr, h, this, hp]

/-- R164: a reply that shows the commanded record settles the gantry. -/
theorem judge_settles (h : r.confirmation = .awaiting) (hd : r.commanded = shown.map some) :
    s.judge g poll shown = s.endConfirmation g := by
  have := (entriesEqual_iff r.commanded shown).2 hd
  simp [State.judge, hr, h, this]

/-- R165: in RESENDING a reply that matches settles; a pending RESEND ends. -/
theorem judge_resent (h : r.confirmation = .resending) (hd : r.commanded = shown.map some) :
    s.judge g poll shown =
      if ∃ p, r.pending = some p ∧ p.body.kind = .resend then (s.onRollout g RolloutRec.settle).removePending g
      else s.onRollout g RolloutRec.settle := by
  have := (entriesEqual_iff r.commanded shown).2 hd
  cases hp : r.pending with
  | none => simp [State.judge, hr, h, this, hp]
  | some p => by_cases hk : p.body.kind = .resend <;> simp [State.judge, hr, h, this, hp, hk]

section Miss

variable (h : r.confirmation = .awaiting) (hd : r.commanded ≠ shown.map some)
include h hd

/-- R164: a poll below the third that differs. -/
theorem judge_polls (hp : r.polls + 1 < 3) :
    s.judge g true shown = (s.onRollout g fun r => { r with polls := r.polls + 1 }).depositConfirm g := by
  have := (not_congr (entriesEqual_iff r.commanded shown)).2 hd
  simp only [State.judge, hr, h, this, hp, if_true, Bool.false_eq_true, if_false]

/-- R165: the third poll of a round that differs, below two resends. -/
theorem judge_round (hp : 3 ≤ r.polls + 1) (hq : r.resends < 2) :
    s.judge g true shown = (s.onRollout g fun r => { r with confirmation := .resending, polls := 0 }).createPending g .resend
      (knownAspects r.commanded) := by
  have := (not_congr (entriesEqual_iff r.commanded shown)).2 hd
  simp only [State.judge, hr, h, this, Nat.not_lt.2 hp, if_true, Bool.false_eq_true, if_false, State.roundFailed,
    onRollout_rollout, look_adjust_self, Option.map_some, hq, onRollout_onRollout]

/-- R166: the third poll of a round that differs, after the second resend. -/
theorem judge_fails (hp : 3 ≤ r.polls + 1) (hq : 2 ≤ r.resends) :
    s.judge g true shown = (s.onRollout g fun r => { r with polls := r.polls + 1 }).confirmFailed g shown := by
  have := (not_congr (entriesEqual_iff r.commanded shown)).2 hd
  simp only [State.judge, hr, h, this, Nat.not_lt.2 hp, if_true, Bool.false_eq_true, if_false, State.roundFailed,
    onRollout_rollout, look_adjust_self, Option.map_some, Nat.not_lt.2 hq]

end Miss

end Judge

theorem knownAspects_some (as : List Aspect) : knownAspects (as.map some) = as := by simp [knownAspects]

/-! ### A sequence that has failed (R166) -/

/-- The marks of the signs that differ from the commanded record. -/
def RolloutRec.marks (shown : List Aspect) (r : RolloutRec) : List Bool := differing r.commanded shown

/-- The record with the failed aspects of the signs that differ. -/
def RolloutRec.failedAt (marks : List Bool) (r : RolloutRec) : RolloutRec :=
  { r with failed := recordFailed marks r.commanded r.failed }

section Failed

variable {s : State} {g : Nat} {gr : GantryRec} {r : RolloutRec} {n : NodeRec} (hg : s.geo.gantries.look g = some gr)
  (hr : s.rollout.look g = some r) (hn : s.nodes.look g = some n) (shown : List Aspect)
include hg hr hn

theorem confirmFailed_eq : s.confirmFailed g shown = State.onRollout g RolloutRec.settle
      (((s.onRollout g (RolloutRec.failedAt (r.marks shown))).applyMarks g (markSigns (r.marks shown))).record
        (lineBank gr.line) .confirmFail .fault (some g) none) := by
  have marks := applyMarks_holds (s := s.onRollout g (RolloutRec.failedAt (r.marks shown))) hn (markSigns (r.marks shown))
  have bank := bankOf_eq (s := (s.onRollout g (RolloutRec.failedAt (r.marks shown))).applyMarks g
    (markSigns (r.marks shown))) (g := g) (gr := gr) (by rw [marks.geo]; exact hg)
  simp only [State.confirmFailed, hr]
  rw [← bank]
  rfl

/-- What a failed sequence leaves. -/
structure Failed (g : Nat) (gr : GantryRec) (n : NodeRec) (r : RolloutRec) (shown : List Aspect) (s t : State) : Prop where
  record : ∃ r', t.rollout.look g = some r' ∧ (r.failedAt (r.marks shown)).settle.Gated r'
  node : t.nodes.look g = some { n with signs := markSigns (r.marks shown) n.signs }
  bank : t.banks.look (lineBank gr.line) =
    ((s.banks.look (lineBank gr.line)).take ⟨.fault, .confirmFail, some g, none, s.clock⟩).1
  pass : markSigns (r.marks shown) n.signs ≠ n.signs → s.geo.mode = .run → t.plan.running ≠ none
  line : ∀ l, t.line l = s.line l
  geo : t.geo = s.geo
  traffic : t.traffic = s.traffic

theorem confirmFailed_holds : Failed g gr n r shown s (s.confirmFailed g shown) := by
  have marks := applyMarks_holds (s := s.onRollout g (RolloutRec.failedAt (r.marks shown))) hn (markSigns (r.marks shown))
  rw [confirmFailed_eq hg hr hn]
  generalize hu : (s.onRollout g (RolloutRec.failedAt (r.marks shown))).applyMarks g (markSigns (r.marks shown)) = u at marks ⊢
  have told := tells_record (lineBank gr.line) .confirmFail .fault (some g) none u
  refine ⟨?_, ?_, ?_, fun h hm => ?_, fun l => ?_, ?_, ?_⟩
  · obtain ⟨q, h1, h2⟩ := marks.gated (r.failedAt (r.marks shown)) (by simp [hr])
    refine ⟨q.settle, by simp [h1], ?_, fun hp => ?_⟩
    · rw [← h2.1]
      rfl
    · rw [h2.2 hp]
  · rw [onRollout_nodes, record_nodes, marks.node]
  · rw [onRollout_banks, record_bank_self (lineBank_ne_link _), marks.banks, marks.clock]
    rfl
  · rw [onRollout_plan, told.plan]
    exact marks.pass h hm
  · rw [onRollout_line, record_line, marks.line, onRollout_line]
  · rw [onRollout_geo, told.geo, marks.geo, onRollout_geo]
  · rw [onRollout_traffic, record_frame]
    exact marks.traffic

end Failed

/-- A bank that has taken an error is not empty. -/
theorem take_nonempty (b : Bank) (e : ErrorRec) : (b.take e).1.held ≠ none := by
  cases h : b.held with
  | none => rw [take_empty h]; simp
  | some x => obtain k | ⟨y, k, -⟩ := take_held_or_fault (e := e) h <;> simp [k]

/-- R166, sign by sign. -/
theorem failed_signs {r : RolloutRec} {n : NodeRec} {shown : List Aspect} {i : Nat} {c y : Option Aspect} {d : Aspect}
    {z : SignRec} (hc : r.commanded[i]? = some c) (hd : shown[i]? = some d) (hy : r.failed[i]? = some y)
    (hz : n.signs[i]? = some z) :
    (r.failedAt (r.marks shown)).failed[i]? = some (if c = some d then y else c) ∧
      (markSigns (r.marks shown) n.signs)[i]? = some (if c = some d then z else { z with confirmFailed := true }) := by
  have mark : (r.marks shown)[i]? = some (c != some d) := differing_get hc hd
  have failed := recordFailed_get mark hc hy
  have sign := markSigns_get mark hz
  by_cases h : c = some d
  · simp only [h, bne_self_eq_false, Bool.false_eq_true, if_false] at failed sign ⊢
    exact ⟨failed, sign⟩
  · have hb : (c != some d) = true := by simpa using h
    simp only [hb, if_true] at failed sign
    simp only [h, if_false]
    exact ⟨failed, sign⟩

/-! ### The marks that a reply clears (R167) -/

/-- The record without the failed aspects of cleared signs. -/
def RolloutRec.discardedAt (marks : List Bool) (r : RolloutRec) : RolloutRec := { r with failed := discardFailed marks r.failed }

theorem clearRecovered_flight {s : State} {g : Nat} {r : RolloutRec} (hr : s.rollout.look g = some r)
    (h : r.inFlight = true) (shown : List Aspect) : s.clearRecovered g shown = s := by
  simp [State.clearRecovered, hr, h]

theorem clearRecovered_eq {s : State} {g : Nat} {r : RolloutRec} (hr : s.rollout.look g = some r)
    (h : r.inFlight = false) (shown : List Aspect) : s.clearRecovered g shown =
      (s.onRollout g (RolloutRec.discardedAt (recovered r.commanded r.failed shown))).applyMarks g
        (clearSigns (recovered r.commanded r.failed shown)) := by
  simp only [State.clearRecovered, hr, h, Bool.false_eq_true, if_false]
  rfl

/-- R167, sign by sign. -/
theorem cleared_signs {r : RolloutRec} {n : NodeRec} {shown : List Aspect} {i : Nat} {c y : Option Aspect} {d : Aspect}
    {z : SignRec} (hc : r.commanded[i]? = some c) (hd : shown[i]? = some d) (hy : r.failed[i]? = some y)
    (hz : n.signs[i]? = some z) :
    (c = some d → y = c → (discardFailed (recovered r.commanded r.failed shown) r.failed)[i]? = some none ∧
      (clearSigns (recovered r.commanded r.failed shown) n.signs)[i]? = some { z with confirmFailed := false }) ∧
    (c ≠ some d ∨ y ≠ c → (discardFailed (recovered r.commanded r.failed shown) r.failed)[i]? = some y ∧
      (clearSigns (recovered r.commanded r.failed shown) n.signs)[i]? = some z) := by
  have mark := recovered_get hc hy hd
  have failed := discardFailed_get mark hy
  have sign := clearSigns_get mark hz
  refine ⟨fun h1 h2 => ?_, fun h => ?_⟩
  · have hm : (y.isSome && c == some d && c == y) = true := by simp [h2, h1]
    simp only [hm, if_true] at failed sign
    exact ⟨failed, sign⟩
  · have hm : (y.isSome && c == some d && c == y) = false := by
      rw [← Bool.not_eq_true, Bool.and_eq_true, Bool.and_eq_true, beq_iff_eq, beq_iff_eq]
      rintro ⟨⟨-, h1⟩, h2⟩
      exact h.elim (fun k => k h1) (fun k => k h2.symm)
    simp only [hm, Bool.false_eq_true, if_false] at failed sign
    exact ⟨failed, sign⟩

end Sys2Proof.Machine
end

section
/-! O46 settled: the accepted SHOW with the comparison behind it, the judgement and the marks cleared. -/

namespace Sys2Proof.Machine

/-! ### The state behind an accepted SHOW -/

section Accepted

variable {s : State} {l : Line} {k : Nat} {b : ShowBody} {g : GantryRec} {r : RolloutRec}

theorem accepted_look (hr : s.rollout.look k = some r) : (s.accepted l k b).rollout.look k = some (r.accepted b) := by
  simp [State.accepted, hr]

theorem accepted_other {j : Nat} (h : j ≠ k) : (s.accepted l k b).rollout.look j = s.rollout.look j := by
  simp [State.accepted, h]

theorem accepted_line : (s.accepted l k b).line l =
    ((s.line l).ended .free).depositConfirm s.geo.params.line.settle k := by
  rw [State.accepted, line_onLine_self, onRollout_line]

theorem accepted_rolls : Rolls s (s.accepted l k b) := (rolls_onRollout ..).trans (rolls_onLine ..)

theorem accepted_lines {l' : Line} (h : l' ≠ l) : (s.accepted l k b).line l' = s.line l' := by
  rw [State.accepted, line_onLine_other _ _ h, onRollout_line]

theorem shown_congr {s t : State} (h : t.plan = s.plan) (k : Nat) : t.shown k = s.shown k := by
  simp only [State.shown, h]

/-- The gantry of an accepted SHOW compared with other targets and nothing pending: a new SHOW, no confirmation. -/
theorem accepted_creates (hr : s.rollout.look k = some r)
    (hd : s.shown k ≠ b.contents) (hp : r.pending = none) :
    (s.accepted l k b).compare k =
      ((s.accepted l k b).endConfirmation k).createPending k .ordinary (s.shown k) := by
  have hw : (s.accepted l k b).shown k = s.shown k := shown_congr accepted_rolls.plan k
  have hc : (r.accepted b).commanded ≠ ((s.accepted l k b).shown k).map some := by
    rw [hw]
    exact fun h => hd ((List.map_injective_iff.2 (Option.some_injective _)) h).symm
  rw [compare_creates (accepted_look hr) hc hp, hw]

end Accepted

/-- An evaluated gate, as the record it was. -/
theorem RolloutRec.Gated.eq {r r' : RolloutRec} (h : r.Gated r') :
    r' = { r with gateHeld := r'.gateHeld, gateTimer := r'.gateTimer } := by
  conv_rhs => rw [← h.1]

theorem depositConfirm_other_rollout (s : State) (g k : Nat) (f : RolloutRec → RolloutRec) (h : k ≠ g) :
    ((s.onRollout g f).depositConfirm g).rollout.look k = s.rollout.look k := by
  rw [depositConfirm_rollout, onRollout_rollout, look_adjust_other _ _ h]

/-- A judgement reaches no record but the gantry's, unless the sequence fails (R166). -/
theorem judge_other {s : State} {g k : Nat} {gr : GantryRec} {r : RolloutRec} {poll : Bool} {shown : List Aspect}
    (hg : s.geo.gantries.look g = some gr) (hr : s.rollout.look g = some r) (hk : k ≠ g)
    (h : r.confirmation ≠ .awaiting ∨ r.commanded = shown.map some ∨ r.polls + 1 < 3 ∨ r.resends < 2) :
    (s.judge g poll shown).rollout.look k = s.rollout.look k := by
  by_cases hd : r.commanded = shown.map some
  · cases hc : r.confirmation with
    | settled => rw [judge_nothing hr (.inl hc)]
    | awaiting => rw [judge_settles hr hc hd, endConfirmation_rollout, look_adjust_other _ _ hk]
    | resending =>
      rw [judge_resent hr hc hd]
      split
      · rw [removePending_eq (gr := gr) (by simpa using hg), onRollout_onRollout]
        simp [hk]
      · simp [hk]
  · cases hc : r.confirmation with
    | settled => rw [judge_nothing hr (.inl hc)]
    | resending => rw [judge_nothing hr (.inr (.inl ⟨hc, hd⟩))]
    | awaiting =>
      cases poll with
      | false => rw [judge_nothing hr (.inr (.inr ⟨hc, hd, rfl⟩))]
      | true =>
        by_cases hp : r.polls + 1 < 3
        · rw [judge_polls hr hc hd hp, depositConfirm_other_rollout _ _ _ _ hk]
        · have hq : r.resends < 2 := ((h.resolve_left (fun n => n hc)).resolve_left hd).resolve_left hp
          rw [judge_round hr hc hd (Nat.not_lt.1 hp) hq]
          have hra : (s.onRollout g fun r => { r with confirmation := .resending, polls := 0 }).rollout.look g =
              some { r with confirmation := .resending, polls := 0 } := by simp [hr]
          have hga : (s.onRollout g fun r => { r with confirmation := .resending, polls := 0 }).geo.gantries.look g =
              some gr := hg
          rw [createPending_other hga hra _ _ hk]
          simp [hk]

/-- Settles O46: `accepted_creates` and `compare_equal` compare afresh, the judgement is a lemma for each case,
`failed_signs` and `cleared_signs` say what becomes of each sign. -/
theorem acceptedShowIsCommanded : Obligations.AcceptedShowIsCommanded := by
  unfold Obligations.AcceptedShowIsCommanded
  refine ⟨?_, ?_, ?_⟩
  · intro s l x f b g r hres he hd hb ho hg hl hr waits want taken
    let u := s.accepted l f.gantry b
    have hu : u.rollout.look f.gantry = some taken := accepted_look hr
    have hou : u.nodeState f.gantry = some .online := by rw [State.nodeState, accepted_rolls.nodes]; exact ho
    have hgu : u.geo.gantries.look f.gantry = some g := by rw [accepted_rolls.geo]; exact hg
    refine ⟨u, u.compare f.gantry, ?_, (publish_compare hou hu rfl).symm, hu, fun k hk => accepted_other hk, fun hw => ?_,
      fun hw => ?_, fun k hk => ?_, ?_, fun l' hl' => accepted_lines hl', accepted_rolls, fun hw hp => ?_, fun hw hp => ?_⟩
    · rw [exec_showAccepted hres he, outcome_handed hd, handAccepted_online ho hb hg hl]
    · rw [accepted_line, depositConfirm_free (c := (s.line l).ended .free) (fun e he' h => hw ⟨e, he', h⟩)]
      exact look_put_self ..
    · rw [accepted_line, depositConfirm_waits (c := (s.line l).ended .free) hw]
      rfl
    · rw [accepted_line, depositConfirm_others _ hk]
      rfl
    · rw [accepted_line]
      exact depositConfirm_frame ((s.line l).ended .free) ..
    · refine compare_equal hu ?_ hp
      rw [shown_congr accepted_rolls.plan]
      exact (congrArg (List.map some) hw).symm
    · intro cls
      subst hl
      have hgc : (u.endConfirmation f.gantry).geo.gantries.look f.gantry = some g := by
        rw [(rolls_endConfirmation ..).geo]; exact hgu
      have hrc : (u.endConfirmation f.gantry).rollout.look f.gantry = some taken.settle := by
        rw [endConfirmation_rollout, look_adjust_self, hu]; rfl
      have hline : ((u.endConfirmation f.gantry).createPending f.gantry .ordinary want).line g.line =
          ((u.line g.line).withdrawConfirm f.gantry).withShow f.gantry cls := by
        rw [createPending_line hgc hrc, endConfirmation_eq hgu, line_onLine_self, onRollout_line]
        rfl
      rw [accepted_creates hr hw hp]
      obtain ⟨r', h1, h2⟩ := createPending_look hgc hrc .ordinary want
      refine ⟨⟨r', h1, ?_, h2⟩, fun k hk => ?_, ?_, fun k hk => ?_, fun c => ?_, ?_, fun l' hl' => ?_, ?_⟩
      · rw [createPending_eq hgc hrc]
        exact evalGate_stands _ _
      · rw [createPending_other hgc hrc _ _ hk, endConfirmation_rollout, look_adjust_other _ _ hk]
        exact accepted_other hk
      · rw [hline]
        exact look_del_self ..
      · rw [hline]
        refine (look_del_other _ hk).trans ?_
        rw [accepted_line, depositConfirm_others _ hk]
        rfl
      · rw [hline, withdraw_withShow_look, accepted_line, depositConfirm_queues]
        rfl
      · rw [hline, accepted_line]
        have frame := depositConfirm_frame ((s.line g.line).ended .free) f.gantry s.geo.params.line.settle
        exact (congrArg (fun c : LineCtl => { c with held := (s.line g.line).held, queues := (s.line g.line).queues }) frame :)
      · rw [(touch_createPending ..).lines g hgc l' hl', (touch_endConfirmation ..).lines g hgu l' hl']
        exact accepted_lines hl'
      · exact (accepted_rolls.trans (rolls_endConfirmation ..)).trans (rolls_createPending ..)
  · intro s g poll shown gr n r hg hn hr t calm same
    refine ⟨judge_nothing hr, fun h k hk => ?_, fun h hd => ?_, fun h hd hp => ⟨fun h3 => ?_, fun h3 h2 as has => ?_, fun h3 h2 => ?_⟩,
      fun h hd => ?_⟩
    · exact judge_other hg hr hk h
    · have ht : t = s.endConfirmation g := judge_settles hr h hd
      have hline : t.line gr.line = (s.line gr.line).withdrawConfirm g := by
        rw [ht, endConfirmation_eq hg, line_onLine_self, onRollout_line]
      refine ⟨?_, ?_, fun e he hge => ?_, ?_⟩
      · rw [ht, endConfirmation_rollout, look_adjust_self, hr]
        rfl
      · rw [hline]
        exact look_del_self ..
      · rw [hline] at he
        change e ∈ ((s.line gr.line).withdrawConfirm g).queues.look .confirm at he
        rw [withdrawConfirm_look, if_pos rfl] at he
        simpa [hge] using (List.mem_filter.1 he).2
      · rw [ht]
        exact rolls_endConfirmation ..
    · subst hp
      have ht : t = _ := judge_polls hr h hd h3
      have hgp : (s.onRollout g fun r => { r with polls := r.polls + 1 }).geo.gantries.look g = some gr := hg
      have hline : t.line gr.line = (s.line gr.line).depositConfirm s.geo.params.line.settle g := by
        rw [ht, depositConfirm_eq hgp, line_onLine_self, onRollout_line, onRollout_geo]
      refine ⟨?_, fun hw => ?_, fun hw => ?_, fun k hk => ?_, ?_, ?_⟩
      · rw [ht, depositConfirm_rollout, onRollout_rollout, look_adjust_self, hr]
        rfl
      · rw [hline, depositConfirm_free hw]
        exact look_put_self ..
      · rw [hline, depositConfirm_waits hw]
      · rw [hline, depositConfirm_others _ hk]
      · rw [hline, depositConfirm_frame]
      · rw [ht]
        exact (rolls_onRollout ..).trans (rolls_onLineOf ..)
    · subst hp
      intro cls
      have ht : t = _ := judge_round hr h hd h3 h2
      have hga : (s.onRollout g fun r => { r with confirmation := .resending, polls := 0 }).geo.gantries.look g = some gr := hg
      have hra : (s.onRollout g fun r => { r with confirmation := .resending, polls := 0 }).rollout.look g =
          some { r with confirmation := .resending, polls := 0 } := by simp [hr]
      have known : knownAspects r.commanded = as := by rw [has, knownAspects_some]
      rw [known] at ht
      obtain ⟨r', h1, h2⟩ := createPending_look hga hra .resend as
      refine ⟨⟨r', by rw [ht]; exact h1, (congrArg RolloutRec.pending h2 :), (congrArg RolloutRec.confirmation h2 :),
        (congrArg RolloutRec.polls h2 :), (congrArg RolloutRec.resends h2 :), (congrArg RolloutRec.commanded h2 :),
        (congrArg RolloutRec.confirmed h2 :), (congrArg RolloutRec.failed h2 :)⟩, ?_, ?_⟩
      · rw [ht, createPending_line hga hra, LineCtl.withShow, deposit_look_self]
        exact List.getLast?_concat
      · rw [ht]
        exact (rolls_onRollout ..).trans (rolls_createPending ..)
    · subst hp
      have ht : t = _ := judge_fails hr h hd h3 h2
      have hrp : (s.onRollout g fun r => { r with polls := r.polls + 1 }).rollout.look g =
          some { r with polls := r.polls + 1 } := by simp [hr]
      have failed := confirmFailed_holds (s := s.onRollout g fun r => { r with polls := r.polls + 1 }) hg hrp hn shown
      rw [← ht] at failed
      obtain ⟨r', h1, h2⟩ := failed.record
      refine ⟨r', _, h1, failed.node, ?_, rfl, fun i c d y z hc hd hy hz => ?_, fun hb => ?_, ?_, failed.pass,
        failed.line .a, failed.line .b, failed.geo, failed.traffic⟩
      · rw [h2.failed]
        exact h2.eq
      · rw [h2.failed]
        exact failed_signs (r := { r with polls := r.polls + 1 }) hc hd hy hz
      · rw [failed.bank]
        exact congrArg Bank.held (take_empty hb _)
      · rw [failed.bank]
        exact take_nonempty _ _
    · have ht : t = _ := judge_resent hr h hd
      by_cases hp : ∃ p, r.pending = some p ∧ p.body.kind = .resend
      · rw [if_pos hp, removePending_eq (gr := gr) (by simpa using hg), onRollout_onRollout] at ht
        refine ⟨r.settle.noPending, ?_, rfl, rfl, rfl, rfl, fun _ _ _ => rfl, ?_⟩
        · rw [ht, onLine_rollout, onRollout_rollout, look_adjust_self, hr]
          rfl
        · rw [ht]
          exact (rolls_onRollout ..).trans (rolls_onLine ..)
      · rw [if_neg hp] at ht
        refine ⟨r.settle, ?_, rfl, rfl, rfl, rfl, fun p h1 h2 => absurd ⟨p, h1, h2⟩ hp, ?_⟩
        · rw [ht, onRollout_rollout, look_adjust_self, hr]
          rfl
        · rw [ht]
          exact rolls_onRollout ..
  · intro s g shown n r hn hr t
    refine ⟨fun h => clearRecovered_flight hr h shown, fun h => ?_⟩
    have marks := applyMarks_holds (s := s.onRollout g (RolloutRec.discardedAt (recovered r.commanded r.failed shown))) hn
      (clearSigns (recovered r.commanded r.failed shown))
    rw [← clearRecovered_eq hr h shown] at marks
    obtain ⟨q, h1, h2⟩ := marks.gated (r.discardedAt (recovered r.commanded r.failed shown)) (by simp [hr])
    refine ⟨q, _, h1, marks.node, rfl, fun i c d y z hc hd hy hz => ?_⟩
    obtain ⟨clears, keeps⟩ := cleared_signs hc hd hy hz
    rw [h2.failed]
    refine ⟨fun k1 k2 => ⟨(clears k1 k2).1, (clears k1 k2).2, fun hz' hm => marks.pass (fun e => ?_) hm⟩, keeps⟩
    have := (clears k1 k2).2
    rw [e, hz] at this
    have := congrArg SignRec.confirmFailed (Option.some.inj this)
    rw [hz'] at this
    cases this

end Sys2Proof.Machine
end

section
/-! What the rollout unit's part of a STATE reply keeps (R155, R164 to R167): the layer below O47. -/

namespace Sys2Proof.Machine

/-! ### Acts that reach the confirmation of a gantry alone -/

/-- The registry's reports of a sign, its confirm-failed mark apart. -/
def SignRec.reported (z : SignRec) : List Aspect × Option Health × Option Aspect × Bool :=
  (z.caps, z.health, z.displayed, z.degradedMark)

/-- What judgement and marks leave alone: commanded and confirmed record, the reports of the signs, service entries and
poll timers, engine and flight, the measurement unit; a notice raised stays, and so does a pass begun. -/
structure Judges (g : Nat) (s t : State) : Prop where
  touch : Touch g s t
  inner : Inner s t
  node : ∀ n, s.nodes.look g = some n → ∃ ys, t.nodes.look g = some { n with signs := ys } ∧
    ys.map SignRec.reported = n.signs.map SignRec.reported
  record : ∀ r, s.rollout.look g = some r → ∃ r', t.rollout.look g = some r' ∧ r'.commanded = r.commanded ∧
    r'.confirmed = r.confirmed
  flight : ∀ l, (t.line l).flight = (s.line l).flight
  polls : ∀ l, (t.line l).polls = (s.line l).polls
  service : ∀ l, (t.line l).queues.service = (s.line l).queues.service
  measure : t.measure = s.measure
  pass : s.plan.running ≠ none → t.plan.running ≠ none
  notices : Notices s t

theorem Judges.refl (g : Nat) (s : State) : Judges g s s :=
  ⟨.refl g s, .refl s, fun n hn => ⟨n.signs, hn, rfl⟩, fun r hr => ⟨r, hr, rfl, rfl⟩, fun _ => rfl, fun _ => rfl, fun _ => rfl,
    rfl, id, .refl s⟩

theorem Judges.trans {g : Nat} {s t u : State} (h : Judges g s t) (k : Judges g t u) : Judges g s u where
  touch := h.touch.trans k.touch
  inner := h.inner.trans k.inner
  node n hn := by
    obtain ⟨ys, h1, h2⟩ := h.node n hn
    obtain ⟨zs, k1, k2⟩ := k.node _ h1
    exact ⟨zs, k1, k2.trans h2⟩
  record r hr := by
    obtain ⟨a, h1, h2, h3⟩ := h.record r hr
    obtain ⟨b, k1, k2, k3⟩ := k.record a h1
    exact ⟨b, k1, k2.trans h2, k3.trans h3⟩
  flight l := (k.flight l).trans (h.flight l)
  polls l := (k.polls l).trans (h.polls l)
  service l := (k.service l).trans (h.service l)
  measure := k.measure.trans h.measure
  pass x := k.pass (h.pass x)
  notices := h.notices.trans k.notices

theorem Judges.ite {g : Nat} {s t u : State} {p : Prop} [Decidable p] (h : Judges g s t) (k : Judges g s u) :
    Judges g s (if p then t else u) := by
  split <;> assumption

theorem judges_onRollout (g : Nat) (f : RolloutRec → RolloutRec) (s : State)
    (hf : ∀ r, (f r).commanded = r.commanded ∧ (f r).confirmed = r.confirmed) : Judges g s (s.onRollout g f) where
  touch := touch_onRollout ..
  inner := inner_onRollout ..
  node n hn := ⟨n.signs, hn, rfl⟩
  record r hr := ⟨f r, by simp [hr], (hf r).1, (hf r).2⟩
  flight l := by rw [onRollout_line]
  polls l := by rw [onRollout_line]
  service l := by rw [onRollout_line]
  measure := rfl
  pass := id
  notices := .refl s

/-- An act on the line of g that keeps engine, level and LUMEN timer, flight, polls and service entries. -/
theorem judges_onLineOf (g : Nat) (f : LineCtl → LineCtl) (s : State) (h : ∀ c, LineKept c (f c))
    (h1 : ∀ c, (f c).engine = c.engine) (h2 : ∀ c, (f c).level = c.level) (h3 : ∀ c, (f c).lumenTimer = c.lumenTimer)
    (h4 : ∀ c, (f c).flight = c.flight) (h5 : ∀ c, (f c).polls = c.polls)
    (h6 : ∀ c, (f c).queues.service = c.queues.service) : Judges g s (s.onLineOf g f) := by
  have line (l : Line) : (s.onLineOf g f).line l = s.line l ∨ (s.onLineOf g f).line l = f (s.line l) := by
    cases hg : s.geo.gantries.look g with
    | none => rw [onLineOf_none f hg]; exact .inl rfl
    | some r =>
      rw [onLineOf_eq f hg]
      by_cases e : l = r.line
      · subst e; exact .inr (line_onLine_self ..)
      · exact .inl (line_onLine_other _ _ e)
  refine ⟨touch_onLineOf g f s h1 h2 h3, inner_onLineOf g f s h, fun n hn => ⟨n.signs, by rw [onLineOf_nodes]; exact hn, rfl⟩,
    fun r hr => ⟨r, by rw [onLineOf_rollout]; exact hr, rfl, rfl⟩, fun l => ?_, fun l => ?_, fun l => ?_, onLineOf_measure ..,
    fun k => by rw [onLineOf_plan]; exact k, .of_link (onLineOf_link ..)⟩
  · obtain e | e := line l <;> rw [e]; exact h4 _
  · obtain e | e := line l <;> rw [e]; exact h5 _
  · obtain e | e := line l <;> rw [e]; exact h6 _

theorem judges_evalGate (g k : Nat) (s : State) : Judges g s (s.evalGate k) where
  touch := touch_evalGate ..
  inner := inner_evalGate ..
  node n hn := ⟨n.signs, by rw [evalGate_nodes]; exact hn, rfl⟩
  record r hr := by
    obtain ⟨r', h1, h2⟩ := evalGate_gated k hr
    exact ⟨r', h1, h2.commanded, h2.confirmed⟩
  flight l := by rw [evalGate_line]
  polls l := by rw [evalGate_line]
  service l := by rw [evalGate_line]
  measure := evalGate_measure ..
  pass h := by rw [(inside_evalGate k s).plan]; exact h
  notices := .of_link (inside_evalGate k s).link

theorem judges_gatesBeside (g : Nat) (s : State) : Judges g s (s.gatesBeside g) :=
  (judges_evalGate ..).trans (judges_evalGate ..)

theorem trigger_keeps (s : State) (h : s.plan.running ≠ none) : s.trigger.plan.running ≠ none := by
  unfold State.trigger
  split
  · exact h
  · split
    · simp
    · exact h

theorem judges_trigger (g : Nat) (s : State) : Judges g s s.trigger where
  touch := touch_trigger ..
  inner := inner_trigger ..
  node n hn := ⟨n.signs, by rw [trigger_nodes]; exact hn, rfl⟩
  record r hr := ⟨r, by rw [trigger_rollout]; exact hr, rfl, rfl⟩
  flight l := by rw [trigger_line]
  polls l := by rw [trigger_line]
  service l := by rw [trigger_line]
  measure := (passes_trigger s).measure
  pass := trigger_keeps s
  notices := .of_link (passes_trigger s).link

theorem judges_raise (g : Nat) (b : NoticeBody) (s : State) : Judges g s (s.raise b) where
  touch := touch_raise ..
  inner := inner_raise ..
  node n hn := ⟨n.signs, by rw [raise_nodes]; exact hn, rfl⟩
  record r hr := ⟨r, by rw [raise_rollout]; exact hr, rfl, rfl⟩
  flight l := by rw [raise_line]
  polls l := by rw [raise_line]
  service l := by rw [raise_line]
  measure := by rw [raise_frame]
  pass h := by rw [raise_frame]; exact h
  notices := notices_raise ..

theorem judges_record (g : Nat) (id : BankId) (c : ErrorCode) (v : Severity) (x st : Option Nat) (s : State) :
    Judges g s (s.record id c v x st) where
  touch := touch_record ..
  inner := inner_record ..
  node n hn := ⟨n.signs, by rw [record_nodes]; exact hn, rfl⟩
  record r hr := ⟨r, by rw [record_rollout]; exact hr, rfl, rfl⟩
  flight l := by rw [record_line]
  polls l := by rw [record_line]
  service l := by rw [record_line]
  measure := by rw [record_frame]
  pass h := by rw [record_frame]; exact h
  notices := notices_record ..

theorem judges_depositConfirm (g : Nat) (s : State) : Judges g s (s.depositConfirm g) := by
  have fields (c : LineCtl) (k settle : Nat) : { c.depositConfirm settle k with held := c.held } = c :=
    depositConfirm_frame ..
  exact judges_onLineOf _ _ _ (kept_depositConfirm _ _) (fun c => (congrArg LineCtl.engine (fields c ..) :))
    (fun c => (congrArg LineCtl.level (fields c ..) :)) (fun c => (congrArg LineCtl.lumenTimer (fields c ..) :))
    (fun c => (congrArg LineCtl.flight (fields c ..) :)) (fun c => (congrArg LineCtl.polls (fields c ..) :))
    (fun c => (congrArg (·.queues.service) (fields c ..) :))

theorem judges_endConfirmation (g : Nat) (s : State) : Judges g s (s.endConfirmation g) :=
  (judges_onRollout g _ s (fun _ => by exact ⟨rfl, rfl⟩)).trans (judges_onLineOf _ _ _ (kept_withdrawConfirm _) (fun _ => rfl)
    (fun _ => rfl) (fun _ => rfl) (fun _ => rfl) (fun _ => rfl) (fun _ => rfl))

theorem judges_removePending (g : Nat) (s : State) : Judges g s (s.removePending g) :=
  (judges_onRollout g _ s (fun _ => by exact ⟨rfl, rfl⟩)).trans (judges_onLineOf _ _ _ (kept_removeShow _) (fun _ => rfl)
    (fun _ => rfl) (fun _ => rfl) (fun _ => rfl) (fun _ => rfl) (fun _ => rfl))

theorem service_ne_cls (c : ShowClass) : Class.service ≠ c.cls := by cases c <;> simp [ShowClass.cls]

theorem judges_createPending (g : Nat) (k : ShowKind) (as : List Aspect) (s : State) :
    Judges g s (s.createPending g k as) := by
  unfold State.createPending
  split
  · exact .refl g s
  · refine (((judges_removePending g s).trans (judges_onRollout g _ _ (fun _ => by exact ⟨rfl, rfl⟩))).trans
      (judges_onLineOf g _ _ (kept_deposit _ _) (fun _ => rfl) (fun _ => rfl) (fun _ => rfl) (fun _ => rfl) (fun _ => rfl)
        fun c => ?_)).trans (judges_evalGate ..)
    exact look_put_class_other (m := .service) _ _ (service_ne_cls _)

/-- Setting or clearing confirm-failed marks changes no report. -/
theorem reported_markSigns : ∀ (ms : List Bool) (rs : List SignRec),
    (markSigns ms rs).map SignRec.reported = rs.map SignRec.reported
  | [], _ => rfl
  | _ :: _, [] => rfl
  | m :: ms, r :: rs => by
    rw [markSigns, List.map_cons, List.map_cons, reported_markSigns ms rs]
    cases m <;> rfl

theorem reported_clearSigns : ∀ (ms : List Bool) (rs : List SignRec),
    (clearSigns ms rs).map SignRec.reported = rs.map SignRec.reported
  | [], _ => rfl
  | _ :: _, [] => rfl
  | m :: ms, r :: rs => by
    rw [clearSigns, List.map_cons, List.map_cons, reported_clearSigns ms rs]
    cases m <;> rfl

theorem judges_applyMarks (g : Nat) (f : List SignRec → List SignRec) (s : State)
    (hf : ∀ rs, (f rs).map SignRec.reported = rs.map SignRec.reported) : Judges g s (s.applyMarks g f) := by
  unfold State.applyMarks
  split
  · exact .refl g s
  · rename_i n hn
    split
    · exact .refl g s
    · have put : Judges g s { s with nodes := s.nodes.put g { n with signs := f n.signs } } :=
        { touch := touch_putNode ..
          inner := inner_putNode ..
          node := fun x hx => by
            rw [hn] at hx
            obtain rfl := Option.some.inj hx
            exact ⟨f n.signs, look_put_self .., hf _⟩
          record := fun r hr => ⟨r, hr, rfl, rfl⟩
          flight := fun l => by cases l <;> rfl
          polls := fun l => by cases l <;> rfl
          service := fun l => by cases l <;> rfl
          measure := rfl
          pass := id
          notices := .refl s }
      exact (put.trans (judges_gatesBeside ..)).trans (judges_trigger ..)

theorem judges_confirmFailed (g : Nat) (as : List Aspect) (s : State) : Judges g s (s.confirmFailed g as) := by
  unfold State.confirmFailed
  split
  · exact .refl g s
  · exact (((judges_onRollout g _ s (fun _ => by exact ⟨rfl, rfl⟩)).trans (judges_applyMarks g _ _ (reported_markSigns _))).trans
      (judges_record ..)).trans (judges_onRollout g _ _ (fun _ => by exact ⟨rfl, rfl⟩))

theorem judges_roundFailed (g : Nat) (as : List Aspect) (s : State) : Judges g s (s.roundFailed g as) := by
  unfold State.roundFailed
  split
  · exact .refl g s
  · exact .ite ((judges_onRollout g _ s (fun _ => by exact ⟨rfl, rfl⟩)).trans (judges_createPending ..)) (judges_confirmFailed ..)

theorem judges_judge (g : Nat) (poll : Bool) (as : List Aspect) (s : State) : Judges g s (s.judge g poll as) := by
  have settled : Judges g s (s.onRollout g RolloutRec.settle) := judges_onRollout g _ s (fun _ => by exact ⟨rfl, rfl⟩)
  unfold State.judge
  split
  · exact .refl g s
  · simp only
    split
    · exact .refl g s
    · refine .ite (judges_endConfirmation ..) (.ite ?_ (.refl g s))
      have polled : Judges g s (s.onRollout g fun r => { r with polls := r.polls + 1 }) :=
        judges_onRollout g _ s (fun _ => by exact ⟨rfl, rfl⟩)
      exact .ite (polled.trans (judges_depositConfirm ..)) (polled.trans (judges_roundFailed ..))
    · refine .ite ?_ (.refl g s)
      split
      · exact .ite (settled.trans (judges_removePending ..)) settled
      · exact settled

theorem judges_clearRecovered (g : Nat) (as : List Aspect) (s : State) : Judges g s (s.clearRecovered g as) := by
  unfold State.clearRecovered
  split
  · exact .refl g s
  · exact .ite (.refl g s) ((judges_onRollout g _ s (fun _ => by exact ⟨rfl, rfl⟩)).trans
      (judges_applyMarks g _ _ (reported_clearSigns _)))

end Sys2Proof.Machine
end

section
/-! A STATE reply at the registry and the rollout unit (R45, R69, R155): the steps O47 puts together. -/

namespace Sys2Proof.Machine

/-! ### An act on a line beside the acts of registry and rollout unit -/

section Line

variable (s : State) (l : Line) (c : LineCtl → LineCtl)

theorem evalGate_onLine (g : Nat) : (s.onLine l c).evalGate g = (s.evalGate g).onLine l c := by
  have holds : (s.onLine l c).gateHolds g = s.gateHolds g := by
    funext as cs
    exact (calm_onLine l c s).gateHolds g as cs
  cases hr : s.rollout.look g with
  | none => simp [State.evalGate, hr]
  | some r =>
    cases hp : r.pending with
    | none => simp [State.evalGate, hr, hp]
    | some p =>
      simp only [State.evalGate, onLine_rollout, hr, hp, holds]
      exact onRollout_onLine ..

theorem gatesBeside_onLine (g : Nat) : (s.onLine l c).gatesBeside g = (s.gatesBeside g).onLine l c := by
  simp only [State.gatesBeside, evalGate_onLine]

theorem trigger_onLine : (s.onLine l c).trigger = s.trigger.onLine l c := by
  have h := trigger_apart s (s.onLine l c).lineA (s.onLine l c).lineB s.measure
  have e (u : State) (hu : u.lineA = s.lineA) (hb : u.lineB = s.lineB) (hm : u.measure = s.measure) :
      u.apart (s.onLine l c).lineA (s.onLine l c).lineB s.measure = u.onLine l c := by
    cases l <;> simp [State.apart, State.onLine, State.setLine, State.line, hu, hb, ← hm]
  rw [e s rfl rfl rfl, e s.trigger (by rw [trigger_frame]) (by rw [trigger_frame]) (by rw [trigger_frame])] at h
  exact h

theorem onNode_onLine (g : Nat) (f : NodeRec → NodeRec) : (s.onLine l c).onNode g f = (s.onNode g f).onLine l c := by
  cases l <;> rfl

end Line

/-! ### The registry takes the signs (R69) -/

/-- The record of a node whose signs have been reported. -/
def NodeRec.reports (xs : List (Health × Aspect)) (n : NodeRec) : NodeRec := { n with signs := takeReports n.signs xs }

section Signs

variable {s : State} {g : Nat} {n : NodeRec} (hn : s.nodes.look g = some n) (xs : List (Health × Aspect))
include hn

theorem takeSigns_changed (h : healthChanges n.signs xs = true) :
    s.takeSigns g xs = ((s.onNode g (NodeRec.reports xs)).gatesBeside g).trigger := by
  simp only [State.takeSigns, hn, h, if_true]
  rfl

theorem takeSigns_same (h : healthChanges n.signs xs = false) : s.takeSigns g xs = s.onNode g (NodeRec.reports xs) := by
  simp only [State.takeSigns, hn, h, Bool.false_eq_true, if_false]
  rfl

theorem takeSigns_node : (s.takeSigns g xs).nodes.look g = some (n.reports xs) := by
  cases h : healthChanges n.signs xs with
  | true => rw [takeSigns_changed hn xs h, trigger_nodes, gatesBeside_nodes, onNode_nodes, look_adjust_self, hn]; rfl
  | false => rw [takeSigns_same hn xs h, onNode_nodes, look_adjust_self, hn]; rfl

theorem takeSigns_onLine (l : Line) (c : LineCtl → LineCtl) :
    (s.onLine l c).takeSigns g xs = (s.takeSigns g xs).onLine l c := by
  have hl : (s.onLine l c).nodes.look g = some n := by rw [onLine_nodes]; exact hn
  cases h : healthChanges n.signs xs with
  | true =>
    rw [takeSigns_changed hn xs h, takeSigns_changed hl xs h, onNode_onLine, gatesBeside_onLine, trigger_onLine]
  | false => rw [takeSigns_same hn xs h, takeSigns_same hl xs h, onNode_onLine]

end Signs

theorem takeReports_length : ∀ (rs : List SignRec) (xs : List (Health × Aspect)), (takeReports rs xs).length = rs.length
  | [], _ => by simp [takeReports]
  | _ :: _, [] => rfl
  | r :: rs, x :: xs => congrArg (· + 1) (takeReports_length rs xs)

theorem takeReports_get : ∀ {rs : List SignRec} {xs : List (Health × Aspect)} {i : Nat} {z : SignRec}, rs[i]? = some z →
    (∀ y, xs[i]? = some y → (takeReports rs xs)[i]? = some (z.report y)) ∧
      (xs[i]? = none → (takeReports rs xs)[i]? = some z)
  | r :: rs, [], i, z, hz => ⟨fun y hy => by simp at hy, fun _ => hz⟩
  | r :: rs, x :: xs, 0, z, hz => by
    obtain rfl := Option.some.inj hz
    exact ⟨fun y hy => by obtain rfl := Option.some.inj hy; rfl, fun hx => by simp at hx⟩
  | r :: rs, x :: xs, i + 1, z, hz => takeReports_get (rs := rs) (xs := xs) hz

theorem report_eq (z : SignRec) (y : Health × Aspect) : z.report y =
    { z with health := some y.1, displayed := some y.2, degradedMark := z.degradedMark || decide (y.1 = .degraded) } := by
  have h : (y.1 == .degraded) = decide (y.1 = .degraded) := by rw [Bool.eq_iff_iff]; simp
  rw [SignRec.report, h]

/-- Some sign reports another health than the record holds. -/
theorem healthChanges_iff : ∀ (rs : List SignRec) (xs : List (Health × Aspect)), healthChanges rs xs = true ↔
    ∃ (i : Nat) (z : SignRec) (y : Health × Aspect), rs[i]? = some z ∧ xs[i]? = some y ∧ z.health ≠ some y.1
  | [], _ => by simp [healthChanges]
  | _ :: _, [] => by simp [healthChanges]
  | r :: rs, x :: xs => by
    rw [healthChanges, Bool.or_eq_true, bne_iff_ne, healthChanges_iff rs xs]
    constructor
    · rintro (h | ⟨i, z, y, hz, hy, h⟩)
      · exact ⟨0, r, x, rfl, rfl, h⟩
      · exact ⟨i + 1, z, y, hz, hy, h⟩
    · rintro ⟨i, z, y, hz, hy, h⟩
      cases i with
      | zero =>
        obtain rfl := Option.some.inj hz
        obtain rfl := Option.some.inj hy
        exact .inl h
      | succ i => exact .inr ⟨i, z, y, hz, hy, h⟩

/-- Reports for as many signs as there are: health and aspect as reported, the rest as before. -/
theorem takeReports_maps : ∀ {rs : List SignRec} {xs : List (Health × Aspect)}, rs.length = xs.length →
    (takeReports rs xs).map (·.health) = xs.map (fun y => some y.1) ∧
      (takeReports rs xs).map (·.displayed) = xs.map (fun y => some y.2) ∧
      (takeReports rs xs).map (·.caps) = rs.map (·.caps) ∧
      (takeReports rs xs).map (·.confirmFailed) = rs.map (·.confirmFailed)
  | [], [], _ => ⟨rfl, rfl, rfl, rfl⟩
  | r :: rs, x :: xs, h => by
    obtain ⟨h1, h2, h3, h4⟩ := takeReports_maps (rs := rs) (xs := xs) (Nat.succ.inj h)
    simp only [takeReports, List.map_cons, h1, h2, h3, h4]
    exact ⟨rfl, rfl, rfl, rfl⟩

/-! ### The STATE of a node that is ONLINE -/

theorem nodeSucceeded_still {s : State} {g : Nat} (h : s.nodeState g ≠ some .suspect) (retry : Bool) :
    s.nodeSucceeded g retry = s := if_neg fun k => h k.1

theorem stateTaken_online {s : State} {g : Nat} {n : NodeRec} {q : StateReply} (hn : s.nodes.look g = some n)
    (ho : n.state = .online) (hq : q.restarted = false) (retry : Bool) :
    s.stateTaken g retry q = s.takeSigns g q.signs := by
  have still := nodeSucceeded_still (s := s) (g := g) (by rw [nodeState_eq hn, ho]; simp) retry
  have done : ¬((n.reports q.signs).state = .describing ∧ (n.reports q.signs).step = some .state) := by
    rintro ⟨h, -⟩
    exact absurd (ho.symm.trans h) (by simp)
  simp only [State.stateTaken, hq, Bool.false_and, Bool.false_eq_true, if_false, still, takeSigns_node hn, done]

/-! ### The rollout unit takes the displayed aspects (R155) -/

section Confirms

variable {s : State} {g : Nat} {r : RolloutRec} (hr : s.rollout.look g = some r) (poll : Bool) {shown : List Aspect}
include hr

theorem rolloutState_same (h : r.confirmed = shown.map some) :
    s.rolloutState g poll shown = (s.judge g poll shown).clearRecovered g shown := by
  simp only [State.rolloutState, hr, h, if_true]

theorem rolloutState_differs (h : r.confirmed ≠ shown.map some) : s.rolloutState g poll shown =
    ((State.gatesBeside g (State.raise (.displayChange g .state (signChanges r.confirmed (shown.map some) r.commanded))
      (s.onRollout g fun r => { r with confirmed := shown.map some }))).judge g poll shown).clearRecovered g shown := by
  simp only [State.rolloutState, hr, h, if_false]

end Confirms

/-! ### Marks that clear nothing (R167) -/

theorem recovered_false : ∀ {cs fs : List (Option Aspect)} {ds : List Aspect},
    (∀ a ∈ fs, a = none) ∨ (∀ a ∈ cs, a = none) → ∀ m ∈ recovered cs fs ds, m = false
  | c :: cs, y :: fs, d :: ds, h, m, hm => by
    rw [recovered, List.mem_cons] at hm
    obtain rfl | hm := hm
    · obtain h | h := h
      · simp [h y (by simp)]
      · simp [h c (by simp)]
    · exact recovered_false (h.imp (fun k a ha => k a (List.mem_cons_of_mem _ ha)) fun k a ha => k a (List.mem_cons_of_mem _ ha))
        m hm
  | [], _, _, _, m, hm => by simp [recovered] at hm
  | _ :: _, [], _, _, m, hm => by simp [recovered] at hm
  | _ :: _, _ :: _, [], _, m, hm => by simp [recovered] at hm

theorem discardFailed_false : ∀ {ms : List Bool} {fs : List (Option Aspect)}, (∀ m ∈ ms, m = false) → discardFailed ms fs = fs
  | [], _, _ => by simp [discardFailed]
  | _ :: _, [], _ => rfl
  | m :: ms, y :: fs, h => by
    rw [discardFailed, h m (by simp), discardFailed_false fun k hk => h k (List.mem_cons_of_mem _ hk)]
    rfl

theorem clearSigns_false : ∀ {ms : List Bool} {rs : List SignRec}, (∀ m ∈ ms, m = false) → clearSigns ms rs = rs
  | [], _, _ => rfl
  | _ :: _, [], _ => rfl
  | m :: ms, r :: rs, h => by
    rw [clearSigns, h m (by simp), clearSigns_false fun k hk => h k (List.mem_cons_of_mem _ hk)]
    rfl

theorem onRollout_same (s : State) (g : Nat) {f : RolloutRec → RolloutRec} (h : ∀ r, f r = r) : s.onRollout g f = s :=
  congrArg (fun t : Table RolloutRec => { s with rollout := t }) (adjust_eq_self _ _ _ fun v _ => h v)

theorem applyMarks_same (s : State) (g : Nat) {f : List SignRec → List SignRec} (h : ∀ rs, f rs = rs) :
    s.applyMarks g f = s := by
  unfold State.applyMarks
  split
  · rfl
  · exact if_pos (h _)

/-- No mark clears where no failed aspect is known, or nothing is known to be commanded. -/
theorem clearRecovered_nothing {s : State} {g : Nat} {r : RolloutRec} (hr : s.rollout.look g = some r)
    (h : (∀ a ∈ r.failed, a = none) ∨ (∀ a ∈ r.commanded, a = none)) (shown : List Aspect) :
    s.clearRecovered g shown = s := by
  cases hf : r.inFlight with
  | true => exact clearRecovered_flight hr hf shown
  | false =>
    have marks := recovered_false (ds := shown) h
    rw [clearRecovered_eq hr hf, onRollout_same s g fun x => ?_, applyMarks_same s g fun rs => clearSigns_false marks]
    rw [RolloutRec.discardedAt, discardFailed_false marks]

/-! ### The reply of an ONLINE node at its line (R45, R52) -/

/-- The line after a STATE reply: the engine FREE, the poll timers of the node set. -/
def LineCtl.stated (g pollPeriod : Nat) (overflow : Bool) (c : LineCtl) : LineCtl :=
  { c with engine := .free, flight := none, polls := c.polls.adjust g (Poll.afterState pollPeriod overflow) }

/-- The state before the rollout unit takes the aspects a STATE shows, where the node is and stays ONLINE. -/
def State.stated (l : Line) (f : Flight) (q : StateReply) (s : State) : State :=
  s.onLine l (LineCtl.stated f.gantry s.geo.params.line.pollPeriod q.overflowPending)

theorem handState_online {s : State} {l : Line} {f : Flight} {q : StateReply} {n : NodeRec}
    (hn : s.nodes.look f.gantry = some n) (ho : n.state = .online) (hq : q.restarted = false) :
    State.handState l f q (s.onLine l (LineCtl.ended .free)) =
      ((s.stated l f q).takeSigns f.gantry q.signs).rolloutState f.gantry
        (decide (f.job = .state .confirm ∧ f.retry = false)) (q.signs.map fun y => y.2) := by
  have hne : (s.onLine l (LineCtl.ended .free)).nodes.look f.gantry = some n := by rw [onLine_nodes]; exact hn
  have poll : (f.job == .state .confirm && !f.retry) = decide (f.job = .state .confirm ∧ f.retry = false) := by
    rw [Bool.eq_iff_iff]; simp
  have geo : (s.takeSigns f.gantry q.signs).geo = s.geo := by
    have k : Touch f.gantry s (s.takeSigns f.gantry q.signs) := by
      cases h : healthChanges n.signs q.signs with
      | true =>
        rw [takeSigns_changed hn q.signs h]
        exact ((touch_onNode ..).trans (touch_gatesBeside ..)).trans (touch_trigger ..)
      | false => rw [takeSigns_same hn q.signs h]; exact touch_onNode ..
    exact k.geo
  simp only [State.handState, stateTaken_online hne ho hq, takeSigns_onLine hn, onLine_onLine, poll, onLine_geo]
  rw [State.stated, takeSigns_onLine hn]
  rfl

end Sys2Proof.Machine
end

section
/-! A SUSPECT node that comes back ONLINE (R62, R160): the state from which its retried telegram is taken (O47). -/

namespace Sys2Proof.Machine

/-! ### An act on the node's line beside a change of node state -/

theorem onLine_beside (s : State) (l : Line) (c : LineCtl → LineCtl) : s.onLine l c =
    s.beside (s.onLine l c).lineA (s.onLine l c).lineB s.nodes s.measure s.rollout := by cases l <;> rfl

theorem nodeNotices_onLine (s : State) (l : Line) (c : LineCtl → LineCtl) (g : Nat) (old new : NodeState) (r : Reason)
    (m : Option Mismatch) (d : Option NoticeBody) :
    (s.onLine l c).nodeNotices g old new r m d = (s.nodeNotices g old new r m d).onLine l c := by
  have told := tells_nodeNotices g old new r m d s
  have ha : (s.nodeNotices g old new r m d).lineA = s.lineA := nodeNotices_line s g old new r m d .a
  have hb : (s.nodeNotices g old new r m d).lineB = s.lineB := nodeNotices_line s g old new r m d .b
  have hn : (s.nodeNotices g old new r m d).nodes = s.nodes := nodeNotices_nodes ..
  have hr : (s.nodeNotices g old new r m d).rollout = s.rollout := nodeNotices_rollout ..
  have hm : (s.nodeNotices g old new r m d).measure = s.measure := by
    have := congrArg State.measure (show _ = _ from told)
    exact this
  rw [onLine_beside s l c, nodeNotices_beside, onLine_beside (s.nodeNotices g old new r m d) l c, hn, hr, hm]
  cases l <;> simp [State.onLine, State.setLine, State.line, ha, hb]

theorem forgetNotice_onLine (s : State) (l : Line) (c : LineCtl → LineCtl) (g : Nat) (new : NodeState) :
    (s.onLine l c).forgetNotice g new = s.forgetNotice g new := by cases l <;> rfl

section Change

variable {s : State} {g : Nat} {gr : GantryRec} {n : NodeRec} {new : NodeState} {r : Reason} {m : Option Mismatch}
  {c : LineCtl → LineCtl}

theorem nodeMoved_onLine (hg : s.geo.gantries.look g = some gr)
    (hc : ∀ d, LineCtl.moved g n.state new s.geo.params.line (s.keepsRetry g) (s.disagrees g) (c d) =
      c (LineCtl.moved g n.state new s.geo.params.line (s.keepsRetry g) (s.disagrees g) d)) :
    (s.onLine gr.line c).nodeMoved g n new r m = (s.nodeMoved g n new r m).onLine gr.line c := by
  have hgl : (s.onLine gr.line c).geo.gantries.look g = some gr := by rw [onLine_geo]; exact hg
  have hm : ((s.onLine gr.line c).measureOnNode g n.state new).measure = (s.measureOnNode g n.state new).measure :=
    measureOnNode_congr (onLine_geo ..) (onLine_measure ..) ..
  have keeps : (s.onLine gr.line c).keepsRetry g = s.keepsRetry g := by simp [State.keepsRetry]
  have disagrees : (s.onLine gr.line c).disagrees g = s.disagrees g := by simp [State.disagrees]
  rw [nodeMoved_eq hgl, nodeMoved_eq hg, hm, keeps, disagrees, onLine_onLine]
  simp only [← hc]
  cases gr.line <;> rfl

/-- A change of node state whose part on the line commutes with another act on that line, and that queues nothing. -/
theorem changeNode_onLine (hn : s.nodes.look g = some n) (hg : s.geo.gantries.look g = some gr) (hd : new ≠ .describing)
    (hc : ∀ d, LineCtl.moved g n.state new s.geo.params.line (s.keepsRetry g) (s.disagrees g) (c d) =
      c (LineCtl.moved g n.state new s.geo.params.line (s.keepsRetry g) (s.disagrees g) d)) :
    (s.onLine gr.line c).changeNode g new r m = (s.changeNode g new r m).onLine gr.line c := by
  have hnl : (s.onLine gr.line c).nodes.look g = some n := by rw [onLine_nodes]; exact hn
  have shown : (s.onLine gr.line c).forgetNotice g new = s.forgetNotice g new := forgetNotice_onLine ..
  have push (p : Prop) [Decidable p] (f : State → State) (hf : ∀ u : State, f (u.onLine gr.line c) = (f u).onLine gr.line c)
      (u : State) : (if p then f (u.onLine gr.line c) else u.onLine gr.line c) = (if p then f u else u).onLine gr.line c := by
    split
    · exact hf u
    · rfl
  obtain ⟨s3, s4, s5, s6, h3, h4, h5, h6, h7⟩ := changeNode_eq (g := g) (new := new) (r := r) (m := m) hn
  obtain ⟨t3, t4, t5, t6, k3, k4, k5, k6, k7⟩ := changeNode_eq (g := g) (new := new) (r := r) (m := m) hnl
  have e3 : t3 = s3.onLine gr.line c := by
    rw [k3, h3, shown]
    exact (congrArg (State.nodeNotices g n.state new r m (s.forgetNotice g new)) (nodeMoved_onLine hg hc)).trans
      (nodeNotices_onLine ..)
  have e4 : t4 = s4.onLine gr.line c := by rw [k4, h4, if_neg hd, if_neg hd, e3]
  have e5 : t5 = s5.onLine gr.line c := by
    rw [k5, h5, shown, e4]
    exact push _ (State.gatesBeside g) (fun u => gatesBeside_onLine ..) s4
  have e6 : t6 = s6.onLine gr.line c := by
    rw [k6, h6, e5]
    exact push _ State.trigger (fun u => trigger_onLine ..) s5
  rw [k7, h7, e6, if_neg (fun h => hd h.1), if_neg (fun h => hd h.1)]

/-- Where no DISPLAY_CHANGE is raised no free value is drawn. -/
theorem changeNode_frame (hn : s.nodes.look g = some n) (hg : s.geo.gantries.look g = some gr)
    (hs : s.forgetNotice g new = none) :
    { s.changeNode g new r m with
      lineA := s.lineA, lineB := s.lineB, nodes := s.nodes, measure := s.measure, rollout := s.rollout, plan := s.plan,
      link := s.link, banks := s.banks } = s := by
  obtain ⟨u, hu, ht⟩ := changeNode_passes (new := new) (r := r) (m := m) hn hg
  have told : ({ s.nodeNotices g n.state new r m (s.forgetNotice g new) with link := s.link, banks := s.banks } : State) = s := by
    rw [hs, nodeNotices_alone, nodeEvent_eq hg]
    unfold State.nodeRecord
    split
    · rw [raise_frame]
    · rw [record_frame, raise_frame]
  have hi := hu.inside
  unfold Passes at ht
  unfold Inside at hi
  rw [ht, hi]
  generalize s.nodeNotices g n.state new r m (s.forgetNotice g new) = a at told
  rw [← told]
  rfl

end Change

/-! ### The node comes back ONLINE -/

/-- The state after a SUSPECT node has come back ONLINE. -/
def State.recovered (g : Nat) (s : State) : State := s.changeNode g .online .recovered none

theorem moved_recovered_line (g : Nat) (p : LineParams) (keeps disagrees : Bool) (c : LineCtl) :
    LineCtl.moved g .suspect .online p keeps disagrees c = if disagrees then c.depositConfirm p.settle g else c := by
  cases disagrees <;> rfl

theorem depositConfirm_ended (c : LineCtl) (g settle : Nat) (e : EngineState) :
    (c.ended e).depositConfirm settle g = (c.depositConfirm settle g).ended e := by
  unfold LineCtl.depositConfirm
  rw [ended_queues]
  split <;> rfl

theorem recovered_node {s : State} {g : Nat} {n : NodeRec} (hn : s.nodes.look g = some n) :
    (s.recovered g).nodes.look g = some { n with
      state := .online, reason := .recovered, since := s.clock, step := none, mismatch := none, retry := none } := by
  rw [State.recovered, changeNode_nodes hn, look_put_self]
  rfl

theorem recovered_geo (s : State) (g : Nat) : (s.recovered g).geo = s.geo := (touch_changeNode ..).geo

section Recovered

variable {s : State} {l : Line} {f : Flight} {gr : GantryRec} {n : NodeRec}
  (hg : s.geo.gantries.look f.gantry = some gr) (hn : s.nodes.look f.gantry = some n) (hs : n.state = .suspect)
include hg hn hs

theorem recovered_line : (s.recovered f.gantry).line gr.line =
    if s.disagrees f.gantry then (s.line gr.line).depositConfirm s.geo.params.line.settle f.gantry else s.line gr.line := by
  rw [State.recovered, changeNode_lineOf hn hg, hs]
  exact moved_recovered_line ..

theorem recovered_onLine (e : EngineState) : (s.onLine gr.line (LineCtl.ended e)).recovered f.gantry =
    (s.recovered f.gantry).onLine gr.line (LineCtl.ended e) := by
  refine changeNode_onLine hn hg (by simp) fun d => ?_
  rw [hs, moved_recovered_line, moved_recovered_line, depositConfirm_ended]
  split <;> rfl

/-- The retry of a SUSPECT node that succeeds is taken in the state where the node is back ONLINE. -/
theorem nodeSucceeded_recovered (hr : f.retry = true) (e : EngineState) :
    (s.onLine gr.line (LineCtl.ended e)).nodeSucceeded f.gantry f.retry =
      ((s.recovered f.gantry).onLine gr.line (LineCtl.ended e)).nodeSucceeded f.gantry f.retry := by
  have suspect : (s.onLine gr.line (LineCtl.ended e)).nodeState f.gantry = some .suspect := by
    rw [nodeState_onLine, nodeState_eq hn, hs]
  have online : ((s.recovered f.gantry).onLine gr.line (LineCtl.ended e)).nodeState f.gantry ≠ some .suspect := by
    rw [nodeState_onLine, nodeState_eq (recovered_node hn)]
    simp
  rw [nodeSucceeded_still online, State.nodeSucceeded, if_pos ⟨suspect, hr⟩]
  exact recovered_onLine hg hn hs e

theorem recovered_flight : ((s.recovered f.gantry).line gr.line).flight = (s.line gr.line).flight := by
  rw [recovered_line hg hn hs]
  split
  · exact (congrArg LineCtl.flight (depositConfirm_frame (s.line gr.line) f.gantry s.geo.params.line.settle) :)
  · rfl

end Recovered

theorem telegramEnding_congr {s t : State} (h : t.geo = s.geo) (f : Flight) (x : Transcript) :
    t.telegramEnding f x = s.telegramEnding f x := by
  have reply : t.replyEnding f x = s.replyEnding f x := by
    have hh : t.hostedLanes f.gantry = s.hostedLanes f.gantry := by simp only [State.hostedLanes, State.hosted, h]
    simp only [State.replyEnding, kinds_congr h, hh]
  simp only [State.telegramEnding, reply]

theorem ending_congr {s t : State} {l : Line} (h : t.geo = s.geo) (hf : (t.line l).flight = (s.line l).flight)
    (x : Transcript) : t.ending l x = s.ending l x := by
  simp only [State.ending, hf, telegramEnding_congr h]

/-! ### Every success is handed on behind the node's recovery (R43, R62) -/

section Handed

variable {a b : State} {l : Line} {f : Flight} (h : a.nodeSucceeded f.gantry f.retry = b.nodeSucceeded f.gantry f.retry)
include h

theorem handAccepted_congr : State.handAccepted f a = State.handAccepted f b := by
  simp only [State.handAccepted, h]

theorem handTrace_congr (hg : a.geo = b.geo) (q : TraceReply) : State.handTrace l f q a = State.handTrace l f q b := by
  simp only [State.handTrace, h, hg]

theorem handState_congr (hg : a.geo = b.geo) {q : StateReply} (hq : q.restarted = false) :
    State.handState l f q a = State.handState l f q b := by
  have taken : a.stateTaken f.gantry f.retry q = b.stateTaken f.gantry f.retry q := by
    simp only [State.stateTaken, hq, Bool.false_and, Bool.false_eq_true, if_false, h]
  simp only [State.handState, taken, hg]

end Handed

/-! ### What recovery leaves of rollout, station and notices (R65, R90, R160) -/

theorem moved_recovered (keeps disagrees : Bool) (q : RolloutRec) : q.moved .suspect .online keeps disagrees =
    if disagrees then { q with confirmation := .awaiting, polls := 0, resends := 0 } else q := by
  cases disagrees <;> rfl

/-- Every commanded entry is known, and the record is not the confirmed one. -/
theorem disagrees_iff {s : State} {g : Nat} {r : RolloutRec} (hr : s.rollout.look g = some r) :
    s.disagrees g = true ↔ (∀ a ∈ r.commanded, a ≠ none) ∧ r.commanded ≠ r.confirmed := by
  simp [State.disagrees, hr, RolloutRec.disagrees, Option.isSome_iff_ne_none]

section Left

variable {s : State} {g : Nat} {gr : GantryRec} {n : NodeRec} (hg : s.geo.gantries.look g = some gr)
  (hn : s.nodes.look g = some n)
include hg hn

theorem recovered_bare (hh : s.hosted g = none) : (s.recovered g).measure = s.measure := by
  rw [State.recovered, changeNode_measure hn hg, measureOnNode_bare hh]

variable (hs : n.state = .suspect)
include hs

theorem recovered_record {r : RolloutRec} (hr : s.rollout.look g = some r) (h1 : 1 ≤ g) :
    (s.recovered g).rollout.look g =
      some (if s.disagrees g then { r with confirmation := .awaiting, polls := 0, resends := 0 } else r) := by
  rw [State.recovered, changeNode_rollout hn hg (by omega) (by omega), look_adjust_self, hr, hs]
  exact congrArg some (moved_recovered ..)

theorem recovered_station {st : Nat} {sr : StationRec} (hh : s.hosted g = some (st, sr)) :
    (s.recovered g).measure.stations = s.measure.stations.adjust st fun en => ⟨false, en.lanes⟩ := by
  rw [State.recovered, changeNode_measure hn hg, hs]
  simp [State.measureOnNode, hh]

theorem recovered_event (room : s.link.notices.length < 32) : (s.recovered g).banks = s.banks ∧
    (s.recovered g).link = { s.link with notices := s.link.notices ++
      [⟨s.clock, gr.event g .suspect .online .recovered none⟩] } := by
  have silent : s.forgetNotice g .online = none := forgetNotice_none _ _ (by simp) (by simp)
  rw [State.recovered, changeNode_banks hn hg, changeNode_link hn hg, silent, nodeNotices_alone, nodeRecord_none rfl,
    nodeEvent_eq hg, raise_room room, hs]
  exact ⟨rfl, rfl⟩

end Left

end Sys2Proof.Machine
end

section
/-! The restart and the end of a description by a STATE reply (R45, R57, R61): the chains of O47. -/

namespace Sys2Proof.Machine

/-! ### The registry's part -/

theorem takeSigns_judges {s : State} {g : Nat} {n : NodeRec} (hn : s.nodes.look g = some n) (xs : List (Health × Aspect)) :
    Judges g (s.onNode g (NodeRec.reports xs)) (s.takeSigns g xs) := by
  cases h : healthChanges n.signs xs with
  | true =>
    rw [takeSigns_changed hn xs h]
    exact (judges_gatesBeside ..).trans (judges_trigger ..)
  | false =>
    rw [takeSigns_same hn xs h]
    exact .refl ..

theorem takeSigns_told {s : State} {g : Nat} {n : NodeRec} (hn : s.nodes.look g = some n) (xs : List (Health × Aspect)) :
    (s.takeSigns g xs).link = s.link ∧ (s.takeSigns g xs).banks = s.banks ∧
      ∀ l, (s.takeSigns g xs).line l = s.line l := by
  cases h : healthChanges n.signs xs with
  | true =>
    have i := inside_gatesBeside g (s.onNode g (NodeRec.reports xs))
    have p := passes_trigger ((s.onNode g (NodeRec.reports xs)).gatesBeside g)
    rw [takeSigns_changed hn xs h]
    exact ⟨p.link.trans i.link, p.banks.trans i.banks, fun l => by rw [trigger_line, gatesBeside_line, onNode_line]⟩
  | false =>
    rw [takeSigns_same hn xs h]
    exact ⟨rfl, rfl, fun l => onNode_line ..⟩

/-- A restart, and the end of a description: what the registry makes of a STATE reply beyond its signs. -/
theorem stateTaken_restart {s : State} {g : Nat} {n : NodeRec} {q : StateReply} (hn : s.nodes.look g = some n)
    (ho : n.state = .online ∨ n.state = .suspect) (hq : q.restarted = true) (retry : Bool) :
    s.stateTaken g retry q = (s.takeSigns g q.signs).changeNode g .describing .nodeRestart none := by
  have hs : (s.nodeState g == some .online || s.nodeState g == some .suspect) = true := by
    rw [nodeState_eq hn]
    simpa using ho
  simp only [State.stateTaken, hq, hs, Bool.and_self, if_true]

theorem stateTaken_enrolled {s : State} {g : Nat} {n : NodeRec} (hn : s.nodes.look g = some n)
    (hd : n.state = .describing) (hst : n.step = some .state) (q : StateReply) (retry : Bool) :
    s.stateTaken g retry q = (s.takeSigns g q.signs).changeNode g .online .described none := by
  have hs : (s.nodeState g == some .online || s.nodeState g == some .suspect) = false := by
    rw [nodeState_eq hn, hd]
    rfl
  have still := nodeSucceeded_still (s := s) (g := g) (by rw [nodeState_eq hn, hd]; simp) retry
  have here : (n.reports q.signs).state = .describing ∧ (n.reports q.signs).step = some .state := ⟨hd, hst⟩
  simp only [State.stateTaken, hs, Bool.and_false, Bool.false_eq_true, if_false, still, takeSigns_node hn, here, and_self,
    if_true]

/-! ### The rollout unit's part -/

/-- What the displayed aspects of a STATE reply leave, once the confirmed record is theirs. -/
structure Shows (g : Nat) (shown : List Aspect) (s t : State) : Prop where
  touch : Touch g s t
  inner : Inner s t
  node : ∀ n, s.nodes.look g = some n → ∃ ys, t.nodes.look g = some { n with signs := ys } ∧
    ys.map SignRec.reported = n.signs.map SignRec.reported
  record : ∀ r, s.rollout.look g = some r → ∃ r', t.rollout.look g = some r' ∧ r'.commanded = r.commanded ∧
    r'.confirmed = shown.map some
  flight : ∀ l, (t.line l).flight = (s.line l).flight
  polls : ∀ l, (t.line l).polls = (s.line l).polls
  service : ∀ l, (t.line l).queues.service = (s.line l).queues.service
  measure : t.measure = s.measure
  pass : s.plan.running ≠ none → t.plan.running ≠ none
  notices : Notices s t

theorem rolloutState_shows {s : State} {g : Nat} {r : RolloutRec} (hr : s.rollout.look g = some r) (poll : Bool)
    (shown : List Aspect) : Shows g shown s (s.rolloutState g poll shown) := by
  by_cases h : r.confirmed = shown.map some
  · have k : Judges g s (s.rolloutState g poll shown) := by
      rw [rolloutState_same hr poll h]
      exact (judges_judge ..).trans (judges_clearRecovered ..)
    refine ⟨k.touch, k.inner, k.node, fun x hx => ?_, k.flight, k.polls, k.service, k.measure, k.pass, k.notices⟩
    rw [hr] at hx
    obtain rfl := Option.some.inj hx
    obtain ⟨r', h1, h2, h3⟩ := k.record r hr
    exact ⟨r', h1, h2, h3.trans h⟩
  · let a := s.onRollout g fun r => { r with confirmed := shown.map some }
    have k : Judges g a (s.rolloutState g poll shown) := by
      rw [rolloutState_differs hr poll h]
      exact (((judges_raise g _ a).trans (judges_gatesBeside ..)).trans (judges_judge ..)).trans (judges_clearRecovered ..)
    refine ⟨(touch_onRollout ..).trans k.touch, (inner_onRollout ..).trans k.inner, k.node, fun x hx => ?_,
      fun l => (k.flight l).trans (by rw [onRollout_line]), fun l => (k.polls l).trans (by rw [onRollout_line]),
      fun l => (k.service l).trans (by rw [onRollout_line]), k.measure, k.pass, k.notices⟩
    obtain ⟨r', h1, h2, h3⟩ := k.record { x with confirmed := shown.map some } (by simp [a, hx])
    exact ⟨r', h1, h2, h3⟩

/-- Nothing is judged in a settled gantry, and no mark cleared where nothing is known to be commanded. -/
theorem rolloutState_quiet {s : State} {g : Nat} {r : RolloutRec} (hr : s.rollout.look g = some r) (poll : Bool)
    (shown : List Aspect) (hc : r.confirmation = .settled) (hn : ∀ a ∈ r.commanded, a = none) :
    (s.rolloutState g poll shown).nodes = s.nodes ∧
      ∃ r', (s.rolloutState g poll shown).rollout.look g = some r' ∧ r'.confirmation = .settled := by
  by_cases h : r.confirmed = shown.map some
  · rw [rolloutState_same hr poll h, judge_nothing hr (.inl hc), clearRecovered_nothing hr (.inr hn)]
    exact ⟨rfl, r, hr, hc⟩
  · rw [rolloutState_differs hr poll h]
    have ha : (State.raise (.displayChange g .state (signChanges r.confirmed (shown.map some) r.commanded))
        (s.onRollout g fun r => { r with confirmed := shown.map some })).rollout.look g =
        some { r with confirmed := shown.map some } := by simp [hr]
    obtain ⟨q, h1, h2⟩ := gatesBeside_gated g ha
    have hq : q.confirmation = .settled := h2.confirmation.trans hc
    have hk : ∀ a ∈ q.commanded, a = none := by rw [h2.commanded]; exact hn
    rw [judge_nothing h1 (.inl hq), clearRecovered_nothing h1 (.inr hk)]
    exact ⟨by rw [gatesBeside_nodes, raise_nodes, onRollout_nodes], q, h1, hq⟩

end Sys2Proof.Machine
end

section
/-! O47 settled: the five cases of a STATE reply. -/

namespace Sys2Proof.Machine

/-! ### A reply with which the node changes its state (R45, R57) -/

/-- The state in which a STATE reply has been taken by registry and line, where it changes the state of the node. -/
def State.stateMoved (l : Line) (f : Flight) (q : StateReply) (new : NodeState) (why : Reason) (s : State) : State :=
  (((s.onLine l (LineCtl.ended .free)).takeSigns f.gantry q.signs).changeNode f.gantry new why none).onLine l fun c =>
    { c with polls := c.polls.adjust f.gantry (Poll.afterState s.geo.params.line.pollPeriod q.overflowPending) }

/-- What holds before the rollout unit takes the displayed aspects, and so after it. -/
structure StateMoved (f : Flight) (q : StateReply) (gr : GantryRec) (n : NodeRec) (r : RolloutRec) (new : NodeState)
    (why : Reason) (s t : State) : Prop where
  node : t.nodes.look f.gantry = some ((n.reports q.signs).moved new why none s.clock)
  record : ∃ (keeps disagrees : Bool) (r' : RolloutRec), t.rollout.look f.gantry = some r' ∧
    ∃ a, r.Gated a ∧ (a.moved n.state new keeps disagrees).Gated r'
  line : ∃ keeps disagrees, t.line gr.line =
    let d := LineCtl.changed f.gantry n.state new s.geo.params.line keeps disagrees ((s.line gr.line).ended .free)
    { d with polls := d.polls.adjust f.gantry (Poll.afterState s.geo.params.line.pollPeriod q.overflowPending) }
  lines : ∀ l, l ≠ gr.line → t.line l = s.line l
  nodes : ∀ k, k ≠ f.gantry → t.nodes.look k = s.nodes.look k
  geo : t.geo = s.geo
  clock : t.clock = s.clock
  incidents : t.incidents = s.incidents
  sections : t.sections = s.sections
  traffic : t.traffic = s.traffic
  targets : t.plan.targets = s.plan.targets
  demands : t.plan.demands = s.plan.demands
  bank : ∀ c v, why.recorded new = some (c, v) → t.banks.look (lineBank gr.line) =
    ((s.banks.look (lineBank gr.line)).take ⟨v, c, some f.gantry, none, s.clock⟩).1
  measure : t.measure = (s.measureOnNode f.gantry n.state new).measure
  link : new ≠ .offline → new ≠ .disabled → why.recorded new = none → s.link.notices.length < 32 →
    t.link.notices = s.link.notices ++ [⟨s.clock, gr.event f.gantry n.state new why none⟩]
  pass : (n.state = .online) ≠ (new = .online) → new ≠ .describing → s.geo.mode = .run → t.plan.running ≠ none

theorem takeSigns_gated {s : State} {g : Nat} {n : NodeRec} (hn : s.nodes.look g = some n) (xs : List (Health × Aspect))
    {r : RolloutRec} (hr : s.rollout.look g = some r) : ∃ a, (s.takeSigns g xs).rollout.look g = some a ∧ r.Gated a := by
  cases h : healthChanges n.signs xs with
  | true =>
    rw [takeSigns_changed hn xs h, trigger_rollout]
    exact gatesBeside_gated g (s := s.onNode g (NodeRec.reports xs)) hr
  | false =>
    rw [takeSigns_same hn xs h]
    exact ⟨r, hr, .refl r⟩

theorem stateMoved_holds {s : State} {f : Flight} {gr : GantryRec} {n : NodeRec} {r : RolloutRec} (q : StateReply)
    (new : NodeState) (why : Reason) (hg : s.geo.gantries.look f.gantry = some gr) (hn : s.nodes.look f.gantry = some n)
    (hr : s.rollout.look f.gantry = some r) :
    StateMoved f q gr n r new why s (s.stateMoved gr.line f q new why) := by
  let a := s.onLine gr.line (LineCtl.ended .free)
  let v := a.takeSigns f.gantry q.signs
  let b := v.changeNode f.gantry new why none
  have hna : a.nodes.look f.gantry = some n := by simpa [a] using hn
  have hnv : v.nodes.look f.gantry = some (n.reports q.signs) := takeSigns_node hna _
  have judged : Judges f.gantry (a.onNode f.gantry (NodeRec.reports q.signs)) v := takeSigns_judges hna _
  obtain ⟨vlink, vbanks, vline⟩ := takeSigns_told hna q.signs
  have av : Touch f.gantry a v := (touch_onNode ..).trans judged.touch
  have vb : Touch f.gantry v b := touch_changeNode ..
  have ab : Touch f.gantry a b := av.trans vb
  have hclock : v.clock = s.clock := av.clock.trans (onLine_clock ..)
  have hgeo : v.geo = s.geo := av.geo.trans (onLine_geo ..)
  have hgv : v.geo.gantries.look f.gantry = some gr := by rw [hgeo]; exact hg
  have hlink : v.link = s.link := vlink.trans (onLine_link ..)
  have hbanks : v.banks = s.banks := vbanks.trans (onLine_banks ..)
  have hmeasure : v.measure = s.measure := judged.measure.trans (onLine_measure ..)
  refine ⟨?_, ?_, ?_, fun l hl => ?_, fun k hk => ?_, ?_, ?_, ?_, ?_, ?_, ?_, ?_, fun c w hw => ?_, ?_,
    fun h1 h2 hw room => ?_, fun hc hd hm => ?_⟩
  · rw [State.stateMoved, onLine_nodes, changeNode_nodes hnv, look_put_self, hclock]
  · obtain ⟨x, h1, h2⟩ := takeSigns_gated hna q.signs (r := r) (by simpa [a] using hr)
    obtain ⟨r', h3, h4⟩ := changeNode_gated (new := new) (r := why) (m := none) hnv hgv h1
    exact ⟨_, _, r', by rw [State.stateMoved, onLine_rollout]; exact h3, x, h2, h4⟩
  · refine ⟨v.keepsRetry f.gantry, v.disagrees f.gantry, ?_⟩
    rw [State.stateMoved, line_onLine_self, changeNode_lineOf hnv hgv, hgeo, vline, line_onLine_self]
    rfl
  · rw [State.stateMoved, line_onLine_other _ _ hl, vb.lines gr hgv l hl, vline, line_onLine_other _ _ hl]
  · rw [State.stateMoved, onLine_nodes, ab.nodes k hk, onLine_nodes]
  · rw [State.stateMoved, onLine_geo, ab.geo, onLine_geo]
  · rw [State.stateMoved, onLine_clock, ab.clock, onLine_clock]
  · rw [State.stateMoved, onLine_incidents, ab.incidents, onLine_incidents]
  · rw [State.stateMoved, onLine_sections, ab.sections, onLine_sections]
  · rw [State.stateMoved, onLine_traffic, ab.traffic, onLine_traffic]
  · rw [State.stateMoved, onLine_plan, ab.targets, onLine_plan]
  · rw [State.stateMoved, onLine_plan, ab.demands, onLine_plan]
  · rw [State.stateMoved, onLine_banks, changeNode_lineBank hnv hgv hw, hbanks, hclock]
  · rw [State.stateMoved, onLine_measure, changeNode_measure hnv hgv]
    exact measureOnNode_congr hgeo hmeasure ..
  · rw [State.stateMoved, onLine_link, changeNode_link hnv hgv, forgetNotice_none _ _ h1 h2, nodeNotices_alone,
      nodeRecord_none hw, nodeEvent_eq hgv, raise_room (by rw [hlink]; exact room), hlink, hclock]
    rfl
  · obtain ⟨u, -, hu, ht⟩ := changeNode_crosses (r := why) (m := none) hnv hgv hc hd
    rw [State.stateMoved, onLine_plan, ht]
    exact (trigger_run (by rw [hu, hgeo]; exact hm)).1

/-- The handing on of a STATE reply with which the node changes its state. -/
theorem handState_moved {s : State} {l : Line} {f : Flight} {q : StateReply} {new : NodeState} {why : Reason}
    (h : (s.onLine l (LineCtl.ended .free)).stateTaken f.gantry f.retry q =
      ((s.onLine l (LineCtl.ended .free)).takeSigns f.gantry q.signs).changeNode f.gantry new why none) :
    State.handState l f q (s.onLine l (LineCtl.ended .free)) =
      (s.stateMoved l f q new why).rolloutState f.gantry (f.job == .state .confirm && !f.retry)
        (q.signs.map fun y => y.2) := by
  simp only [State.handState, h, onLine_geo]
  rfl

theorem polls_none {t : Table Poll} {g : Nat} (h : t.look g = none) (f : Poll → Poll) : (t.adjust g f).look g = none := by
  rw [look_adjust_self, h]
  rfl

/-- The reports of signs decide health, aspect and capabilities. -/
theorem reported_maps {ys rs : List SignRec} (h : ys.map SignRec.reported = rs.map SignRec.reported) :
    ys.map (·.health) = rs.map (·.health) ∧ ys.map (·.displayed) = rs.map (·.displayed) ∧
      ys.map (·.caps) = rs.map (·.caps) := by
  have proj {α : Type} (p : List Aspect × Option Health × Option Aspect × Bool → α) :
      ys.map (fun z => p z.reported) = rs.map fun z => p z.reported := by
    have := congrArg (List.map p) h
    rwa [List.map_map, List.map_map] at this
  exact ⟨proj (·.2.1), proj (·.2.2.1), proj (·.1)⟩

theorem measureOnNode_described {s : State} {g st : Nat} {sr : StationRec} (hh : s.hosted g = some (st, sr)) :
    s.measureOnNode g .describing .online =
      s.onStation st fun en => ⟨false, en.lanes.mapValues LaneRec.described⟩ := by
  simp [State.measureOnNode, hh]

theorem moved_describing_settled {old : NodeState} (keeps disagrees : Bool) {a : RolloutRec}
    (h : old = .online ∨ a.confirmation = .settled) :
    (a.moved old .describing keeps disagrees).confirmation = .settled := by
  by_cases ho : old = .online
  · subst ho
    rfl
  · have := h.resolve_left ho
    simpa [RolloutRec.moved, RolloutRec.enter, ho] using this

/-- Settles O47: `handState_online` for a node that stays ONLINE, `stateMoved_holds` for one that changes its state,
`recovered` for a retry. -/
theorem stateReplyIsTaken : Obligations.StateReplyIsTaken := by
  unfold Obligations.StateReplyIsTaken
  refine ⟨?_, ?_, ?_, ?_, ?_⟩
  · intro s l x f q g n r hres he hd hj hg hl hn ho hq hov hr hc hfail hconf hhealth
    have hlen : n.signs.length = q.signs.length := by simpa using congrArg List.length hhealth
    have calm : healthChanges n.signs q.signs = false := by
      rw [← Bool.not_eq_true, healthChanges_iff]
      rintro ⟨i, z, y, hz, hy, hne⟩
      have := congrArg (·[i]?) hhealth
      simp only [List.getElem?_map, hz, hy, Option.map_some, Option.some.injEq] at this
      exact hne this
    have hns : (s.stated l f q).nodes.look f.gantry = some n := by rw [State.stated, onLine_nodes]; exact hn
    have hrs : ((s.stated l f q).onNode f.gantry (NodeRec.reports q.signs)).rollout.look f.gantry = some r := by
      rw [onNode_rollout, State.stated, onLine_rollout]; exact hr
    obtain ⟨p1, p2, p3, p4⟩ := takeReports_maps hlen
    refine ⟨(s.stated l f q).onNode f.gantry (NodeRec.reports q.signs), n.reports q.signs, ?_, ?_, rfl, p1, p2, p3, p4,
      fun k hk => ?_, ?_, fun p hp => ?_, fun l' hl' => ?_, ?_⟩
    · rw [exec_stateReply hres he, outcome_handed hd, handState_online hn ho hq, takeSigns_same hns _ calm,
        rolloutState_same hrs _ (hconf.trans (List.map_map ..).symm), judge_nothing hrs (.inl hc),
        clearRecovered_nothing hrs (.inl hfail)]
    · rw [onNode_nodes, look_adjust_self, hns]
      rfl
    · rw [onNode_nodes, look_adjust_other _ _ hk, State.stated, onLine_nodes]
    · rw [onNode_line, State.stated, line_onLine_self]
      rfl
    · rw [onNode_line, State.stated, line_onLine_self]
      simp only [LineCtl.stated, look_adjust_self, hp, Option.map_some, Poll.afterState, hov, Bool.false_eq_true, if_false]
    · rw [onNode_line, State.stated, line_onLine_other _ _ hl']
    · cases l <;> rfl
  · intro s l x f q g n r hres he hd hg hl hn ho hq hr shown changed
    have hns : (s.stated l f q).nodes.look f.gantry = some n := by rw [State.stated, onLine_nodes]; exact hn
    have hchanged : healthChanges n.signs q.signs = true ↔ changed := healthChanges_iff ..
    let s2 := (s.stated l f q).takeSigns f.gantry q.signs
    obtain ⟨r2, hr2, gated⟩ := takeSigns_gated hns q.signs (r := r) (by rw [State.stated, onLine_rollout]; exact hr)
    let d : NoticeBody := .displayChange f.gantry .state (signChanges r.confirmed (shown.map some) r.commanded)
    let s3 : State := if r.confirmed = shown.map some then s2 else
      State.gatesBeside f.gantry (State.raise d (s2.onRollout f.gantry fun y => { y with confirmed := shown.map some }))
    have hs1 : (s.stated l f q).onNode f.gantry (NodeRec.reports q.signs) =
        { s.setLine l { s.line l with
            engine := .free, flight := none,
            polls := (s.line l).polls.adjust f.gantry (Poll.afterState s.geo.params.line.pollPeriod q.overflowPending) } with
          nodes := s.nodes.adjust f.gantry (NodeRec.reports q.signs) } := by
      cases l <;> rfl
    refine ⟨takeReports n.signs q.signs, s.nodes.adjust f.gantry (NodeRec.reports q.signs),
      (s.line l).polls.adjust f.gantry (Poll.afterState s.geo.params.line.pollPeriod q.overflowPending), s2, s3,
      takeReports_length .., fun i z hz => ⟨fun y hy => ?_, (takeReports_get hz).2⟩, ?_, fun k hk => look_adjust_other _ _ hk,
      ?_, fun k hk => look_adjust_other _ _ hk, fun h => ?_, fun h => ?_, fun h => if_pos h, fun h => ?_, ?_⟩
    · rw [(takeReports_get hz).1 y hy, report_eq]
    · rw [look_adjust_self, hn]
      rfl
    · rw [look_adjust_self]
      rfl
    · rw [← hs1]
      exact takeSigns_changed hns _ (hchanged.2 h)
    · rw [← hs1]
      exact takeSigns_same hns _ (by rw [← Bool.not_eq_true, hchanged]; exact h)
    · refine ⟨s2.rollout.adjust f.gantry fun y => { y with confirmed := shown.map some },
        signChanges r.confirmed (shown.map some) r.commanded, look_adjust_self .., fun k hk => look_adjust_other _ _ hk,
        fun i b c y hb hc hy => ?_, if_neg h⟩
      have hy' : (shown.map some)[i]? = some (some y) := by rw [List.getElem?_map, hy]; rfl
      rw [signChanges_get hb hy' hc]
      have hne : (b != some y) = decide (b ≠ some y) := by rw [Bool.eq_iff_iff]; simp
      rw [hne]
    · rw [exec_stateReply hres he, outcome_handed hd, handState_online hn ho hq]
      by_cases h : r.confirmed = shown.map some
      · rw [rolloutState_same hr2 _ (gated.confirmed.trans h), show s3 = s2 from if_pos h]
      · rw [rolloutState_differs hr2 _ (by rw [gated.confirmed]; exact h), gated.confirmed, gated.commanded,
          show s3 = _ from if_neg h]
  · intro s l x f q g n r hres he hd hg hl hn ho hq hr
    subst hl
    have h := stateMoved_holds q .describing .nodeRestart hg hn hr
    obtain ⟨keeps, disagrees, r1, h1, a, ha, hm⟩ := h.record
    have moved := moved_describing n.state keeps disagrees a
    have k := rolloutState_shows h1 (f.job == .state .confirm && !f.retry) (q.signs.map fun y => y.2)
    obtain ⟨ys, n1, -⟩ := k.node _ h.node
    obtain ⟨r', k1, k2, k3⟩ := k.record r1 h1
    obtain ⟨lkeeps, ldis, hline⟩ := h.line
    obtain ⟨l1, l2, l3, l4⟩ := changed_describing f.gantry ho s.geo.params.line lkeeps ldis
      ((s.line g.line).ended .free)
    have hunknown : ∀ c ∈ r1.commanded, c = none := by
      rw [hm.commanded, moved.1]
      exact fun c hc => unknown_none hc
    refine ⟨_, _, r', ?_, n1, rfl, rfl, ?_, rfl, ?_, ?_, ?_, ?_, k1, fun c hc => ?_,
      by rw [k3, List.map_map]; rfl, fun hs => ?_, fun hb => ?_⟩
    · rw [exec_stateReply hres he, outcome_handed hd, handState_moved
        (stateTaken_restart (by rw [onLine_nodes]; exact hn) ho hq _)]
    · obtain h | h := ho <;> simp [NodeRec.moved, NodeRec.reports, h]
    · rw [k.service, hline]
      exact l4
    · rw [k.touch.engine, hline]
      exact l1
    · rw [k.flight, hline]
      exact l2
    · rw [k.polls, hline]
      exact polls_none l3 _
    · rw [k2] at hc
      exact hunknown c hc
    · have settled : r1.confirmation = .settled := by
        rw [hm.confirmation]
        exact moved_describing_settled keeps disagrees (hs.imp id fun e => ha.confirmation.trans e)
      obtain ⟨q1, r2, q2, q3⟩ := rolloutState_quiet h1 (f.job == .state .confirm && !f.retry) (q.signs.map fun y => y.2)
        settled hunknown
      rw [q1, h.node] at n1
      obtain rfl := Option.some.inj (k1.symm.trans q2)
      have hys : clearAllFailed (n.reports q.signs).signs = ys := congrArg NodeRec.signs (Option.some.inj n1)
      exact ⟨fun y hy => clearAllFailed_clear (rs := (n.reports q.signs).signs) (by rw [hys]; exact hy), q3⟩
    · have bank := h.bank _ _ rfl
      rw [take_empty hb] at bank
      exact k.inner.held _ _ (congrArg Bank.held bank) rfl
  · intro s l x f q g n r hres he hd hg hl hn hdes hstep hr hlen
    subst hl
    have h := stateMoved_holds q .online .described hg hn hr
    obtain ⟨keeps, disagrees, r1, h1, a, ha, hm⟩ := h.record
    have k := rolloutState_shows h1 (f.job == .state .confirm && !f.retry) (q.signs.map fun y => y.2)
    obtain ⟨ys, n1, n2⟩ := k.node _ h.node
    obtain ⟨r', k1, k2, k3⟩ := k.record r1 h1
    obtain ⟨lkeeps, ldis, hline⟩ := h.line
    obtain ⟨m1, m2, m3⟩ := reported_maps n2
    obtain ⟨p1, p2, p3, -⟩ := takeReports_maps hlen
    have still : r1.commanded = r.commanded := by
      rw [hm.commanded, hdes]
      exact ha.commanded
    refine ⟨_, _, r', ?_, n1, ?_, m1.trans p1, m2.trans p2, m3.trans p3, fun k' hk => ?_, ?_, ?_, ?_, fun l' hl' => ?_, k1,
      k2.trans still, by rw [k3, List.map_map]; rfl, fun st sr en hh hen => ?_, fun hm => ?_, fun room => ?_, ?_, ?_, ?_, ?_,
      ?_, ?_, ?_⟩
    · rw [exec_stateReply hres he, outcome_handed hd, handState_moved
        (stateTaken_enrolled (by rw [onLine_nodes]; exact hn) hdes hstep _ _)]
    · rfl
    · rw [k.touch.nodes k' hk, h.nodes k' hk]
    · rw [k.touch.engine, hline, hdes]
      rfl
    · rw [k.flight, hline, hdes]
      rfl
    · rw [k.polls, hline, hdes]
      have started : (LineCtl.changed f.gantry .describing .online s.geo.params.line lkeeps ldis
          ((s.line g.line).ended .free)).polls.look f.gantry = some ⟨s.geo.params.line.pollPeriod, 0⟩ := look_put_self ..
      simp only [look_adjust_self, started, Option.map_some, Poll.afterState, ite_self]
    · rw [k.touch.lines g (by rw [h.geo]; exact hg) l' hl', h.lines l' hl']
    · rw [k.measure, h.measure, hdes, measureOnNode_described hh, onStation_stations]
      refine ⟨?_, fun j hj => look_adjust_other _ _ hj⟩
      rw [look_adjust_self, hen]
      rfl
    · exact k.pass (h.pass (by simp [hdes]) (by simp) hm)
    · obtain ⟨rest, hrest⟩ := k.notices
      rw [← hrest, h.link (by simp) (by simp) rfl room, hdes]
      simp [GantryRec.event]
    · rw [k.touch.geo, h.geo]
    · rw [k.touch.clock, h.clock]
    · rw [k.touch.incidents, h.incidents]
    · rw [k.touch.sections, h.sections]
    · rw [k.touch.traffic, h.traffic]
    · rw [k.touch.targets, h.targets]
    · rw [k.touch.demands, h.demands]
  · intro s l x f g n r hres hfl hd hret h1 hg hl hn hs hr differs
    subst hl
    have hdis := disagrees_iff hr
    have hrec := recovered_record hg hn hs hr h1
    have hline := recovered_line hg hn hs
    have hnode := recovered_node hn
    have touch : Touch f.gantry s (s.recovered f.gantry) := touch_changeNode ..
    have hend := ending_congr (recovered_geo s f.gantry) (recovered_flight hg hn hs) x
    have hhand (e : EngineState) := nodeSucceeded_recovered hg hn hs hret e
    have hres' : (s.recovered f.gantry).resetHigh = true := touch.resetHigh.trans hres
    have hgeo : (s.onLine g.line (LineCtl.ended .free)).geo =
        ((s.recovered f.gantry).onLine g.line (LineCtl.ended .free)).geo := by
      rw [onLine_geo, onLine_geo, recovered_geo]
    refine ⟨s.recovered f.gantry, hend, fun q he hq => ?_, fun q he => ?_, fun q he => ?_, fun q he => ?_, fun he => ?_, hnode,
      touch.nodes, fun st sr en hh hen => ?_, fun hh => recovered_bare hg hn hh, fun hw => ⟨?_, fun hw' => ?_, fun hw' => ?_,
      fun k hk => ?_⟩, fun hw => ⟨?_, ?_⟩, fun k k1 k2 k3 => ?_, fun l' => ?_, touch.lines g hg, fun hm => ?_, touch.targets,
      touch.demands, fun room => ?_, changeNode_frame hn hg (forgetNotice_none _ _ (by simp) (by simp))⟩
    · rw [exec_stateReply hres he, exec_stateReply hres' (hend.trans he), outcome_handed hd, outcome_handed hd,
        handState_congr (hhand .free) hgeo hq]
    · rw [exec_traceReply hres he, exec_traceReply hres' (hend.trans he), outcome_handed hd, outcome_handed hd,
        handTrace_congr (hhand .free) hgeo]
    · rw [exec_describeReply hres he, exec_describeReply hres' (hend.trans he), outcome_handed hd, outcome_handed hd]
      simp only [hhand]
    · rw [exec_capsReply hres he, exec_capsReply hres' (hend.trans he), outcome_handed hd, outcome_handed hd]
      simp only [hhand]
    · rw [exec_showAccepted hres he, exec_showAccepted hres' (hend.trans he), outcome_handed hd, outcome_handed hd,
        handAccepted_congr (hhand .free)]
    · rw [recovered_station hg hn hs hh]
      refine ⟨?_, fun k hk => look_adjust_other _ _ hk⟩
      rw [look_adjust_self, hen]
      rfl
    · rw [hrec, if_pos (hdis.2 hw)]
    · rw [hline, if_pos (hdis.2 hw), depositConfirm_free hw']
      exact look_put_self ..
    · rw [hline, if_pos (hdis.2 hw), depositConfirm_waits hw']
    · rw [hline, if_pos (hdis.2 hw), depositConfirm_others _ hk]
    · rw [hrec, if_neg (mt hdis.1 hw)]
    · rw [hline, if_neg (mt hdis.1 hw)]
    · rw [State.recovered, changeNode_rollout hn hg (by omega) k3, look_adjust_other _ _ k1]
    · by_cases hl' : l' = g.line
      · subst hl'
        rw [hline]
        split
        · exact depositConfirm_frame ..
        · rfl
      · rw [touch.lines g hg l' hl']
    · obtain ⟨u, -, hu, ht⟩ := changeNode_crosses (new := .online) (r := .recovered) (m := none) hn hg (by simp [hs]) (by simp)
      rw [State.recovered, ht]
      exact (trigger_run (by rw [hu]; exact hm)).1
    · exact recovered_event hg hn hs room

end Sys2Proof.Machine
end

section
/-! READ_NODE (O39): the reply is the record held, the degraded marks of that gantry are cleared. -/

namespace Sys2Proof.Machine

/-- A gantry with a node: the record is reported, and its degraded marks are cleared (R73). -/
theorem readNode_report {s : State} {f : Frame} {rest : List Frame} {g : Byte} {r : GantryRec} {n : NodeRec}
    (hm : s.geo.mode = .run) (ht : s.takes 0x15#8 f rest) (hp : f.payload = [g]) (h1 : 1 ≤ g.toNat) (h32 : g.toNat ≤ 32)
    (hr : s.geo.gantries.look g.toNat = some r) (hn : s.nodes.look g.toNat = some n) :
    exec .readNode s =
      .next ((s.onNode g.toNat clearDegraded).answered f rest .ok (.node ⟨g.toNat, r.service, n, r.kinds⟩)) := by
  have inside : ¬(g.toNat = 0 ∨ 32 < g.toNat) := by omega
  let taken : State := { s with link := { s.link with rxQueue := rest } }
  have answer : handleReadNode taken f.payload =
      ⟨taken.onNode g.toNat clearDegraded, .ok, .node ⟨g.toNat, r.service, n, r.kinds⟩⟩ := by
    simp [handleReadNode, taken, hm, hp, inside, hr, hn]
  exact takeRequest_answer ht rfl answer

/-- Its refusals (R26). -/
theorem readNode_refused {s : State} {f : Frame} {rest : List Frame} (hm : s.geo.mode = .run)
    (ht : s.takes 0x15#8 f rest) :
    (f.payload.length ≠ 1 → exec .readNode s = .next (s.answered f rest .badLength .none)) ∧
      ∀ g : Byte, f.payload = [g] →
        (g.toNat = 0 ∨ 32 < g.toNat → exec .readNode s = .next (s.answered f rest .badValue .none)) ∧
        (1 ≤ g.toNat → g.toNat ≤ 32 → s.geo.gantries.look g.toNat = none →
          exec .readNode s = .next (s.answered f rest .notFound .none)) := by
  have refused {r : Result} := takeRequest_refused (r := r) (d := .none) (fits := (· == 0x15#8))
    handleReadNode ht rfl
  refine ⟨fun hl => refused ?_, fun g hp => ⟨fun hg => refused ?_, fun h1 h32 hn => refused ?_⟩⟩
  · obtain e | ⟨a, b, l, e⟩ := length_ne_one hl <;> simp [handleReadNode, hm, e, refuse]
  · simp [handleReadNode, hm, hp, hg, refuse]
  · have inside : ¬(g.toNat = 0 ∨ 32 < g.toNat) := by omega
    simp [handleReadNode, hm, hp, inside, hn, refuse]

/-- Settles O39: `readNode_report` is the reply and the marks, `readNode_refused` the refusals. -/
theorem readNodeClearsDegradedMarks : Obligations.ReadNodeClearsDegradedMarks := by
  intro s f rest ht hm
  obtain ⟨length, refused⟩ := readNode_refused hm ht
  refine ⟨length, fun g hp => ⟨(refused g hp).1, (refused g hp).2, fun r n h1 h32 hr hn => ?_⟩⟩
  refine ⟨_, readNode_report hm ht hp h1 h32 hr hn, ?_, fun k hk => look_adjust_other _ _ hk, rfl⟩
  rw [answered_nodes, onNode_nodes, look_adjust_self, hn]
  rfl

end Sys2Proof.Machine
end

section
/-! A CAPS reply (O50): the capability list of its sign, the BAD_CAPABILITY record, the pass, the next step. -/

namespace Sys2Proof.Machine

/-! ### The description goes on (R57) -/

/-- The telegram of a description step. -/
def DescStep.job : DescStep → Job
  | .describe => .describe
  | .caps i => .caps i
  | .state => .state .enrol

theorem onNode_onNode (s : State) (g : Nat) (f h : NodeRec → NodeRec) :
    (s.onNode g f).onNode g h = s.onNode g fun n => h (f n) :=
  congrArg (fun t : Table NodeRec => { s with nodes := t }) (adjust_adjust ..)

/-- The next step of a description: the step of the node, and its telegram at the tail of SERVICE. -/
theorem nextStep_eq {s : State} {g : Nat} {gr : GantryRec} (hg : s.geo.gantries.look g = some gr) (st : DescStep) :
    s.nextStep g st = (s.onNode g fun n => { n with step := some st }).onLine gr.line
      (LineCtl.deposit .service ⟨g, st.job, .registry, false⟩) := by
  cases st <;> exact onLineOf_eq (s := s.onNode g _) _ hg

/-- Only the telegram of a SUSPECT node that is a retry brings the node back (R62). -/
theorem nodeSucceeded_unretried {s : State} {g : Nat} {n : NodeRec} {retry : Bool} (hn : s.nodes.look g = some n)
    (h : n.state = .suspect → retry = false) : s.nodeSucceeded g retry = s := by
  refine if_neg fun k => ?_
  obtain ⟨hs, hr⟩ := k
  rw [nodeState_eq hn, Option.some_inj] at hs
  simp [h hs] at hr

/-! ### The kept list (R68, R177) -/

theorem keepCaps_nil (k : SignKind) (es : List Aspect) :
    keepCaps k [] es = (es.filter fun a => decide (a ≠ .blank) && Aspect.fits k a).eraseDups := by
  rw [keepCaps_eq, List.nil_append]
  exact congrArg List.eraseDups (List.filter_eq_self.2 fun _ _ => rfl)

theorem sameSet_iff (xs ys : List Aspect) : sameSet xs ys = true ↔ ∀ a, a ∈ ys ↔ a ∈ xs := by
  simp only [sameSet, Bool.and_eq_true, List.all_eq_true, List.contains_iff_mem]
  exact ⟨fun h a => ⟨h.2 a, h.1 a⟩, fun h => ⟨fun a => (h a).2, fun a => (h a).1⟩⟩

/-! ### What a CAPS reply does, act by act -/

/-- The node with the capability list of one sign replaced. -/
def NodeRec.withCaps (i : Nat) (y : SignRec) (kept : List Aspect) (n : NodeRec) : NodeRec :=
  { n with signs := n.signs.set i { y with caps := kept } }

/-- The record of a CAPS reply with an entry of the wrong kind (R68). -/
def State.capsReported (g : Nat) (l : Line) (k : SignKind) (es : List Aspect) (s : State) : State :=
  if es.any fun a => !Aspect.fits k a then s.record (lineBank l) .badCapability .warn (some g) none else s

/-- The trigger of a list that changes as a set (R72). -/
def State.capsTriggered (old new : List Aspect) (s : State) : State := if sameSet old new then s else s.trigger

/-- The step of a description behind that of sign i (R57). -/
def NodeRec.after (n : NodeRec) (i : Nat) : DescStep := if i + 1 < n.signs.length then .caps (i + 1) else .state

theorem after_job (n : NodeRec) (i : Nat) :
    (n.after i).job = if i + 1 < n.signs.length then .caps (i + 1) else .state .enrol := by
  unfold NodeRec.after
  split <;> rfl

/-- The state behind a CAPS reply, but for the step of the description. -/
def State.capsKept (g i : Nat) (l : Line) (k : SignKind) (y : SignRec) (es : List Aspect) (s : State) : State :=
  ((s.onNode g (NodeRec.withCaps i y (keepCaps k [] es))).capsReported g l k es).capsTriggered y.caps (keepCaps k [] es)

/-- The description of a DESCRIBING node at the step of sign i goes on. -/
def State.describedSign (g i : Nat) (n : NodeRec) (s : State) : State :=
  if n.state = .describing ∧ n.step = some (.caps i) then s.nextStep g (n.after i) else s

theorem capsTaken_eq {s : State} {g i : Nat} {gr : GantryRec} {n : NodeRec} {k : SignKind} {y : SignRec}
    (es : List Aspect) (hn : s.nodes.look g = some n) (hg : s.geo.gantries.look g = some gr) (hk : gr.kinds[i]? = some k)
    (hy : n.signs[i]? = some y) : s.capsTaken g i es = (s.capsKept g i gr.line k y es).describedSign g i n := by
  have kind : (s.kinds g)[i]? = some k := by rw [kinds_eq hg, hk]
  simp only [State.capsTaken, hn, kind, hy, State.capsKept, State.capsTriggered, State.capsReported]
  rw [bankOf_eq (s := s.onNode g _) hg]
  rfl

section Kept

variable (s : State) (g i : Nat) (l : Line) (k : SignKind) (y : SignRec) (es : List Aspect)

theorem capsKept_nodes : (s.capsKept g i l k y es).nodes =
    s.nodes.adjust g (NodeRec.withCaps i y (keepCaps k [] es)) := by
  unfold State.capsKept State.capsTriggered State.capsReported
  split <;> split <;> simp

theorem capsKept_line (l' : Line) : (s.capsKept g i l k y es).line l' = s.line l' := by
  unfold State.capsKept State.capsTriggered State.capsReported
  split <;> split <;> simp

variable {s g i l k y es}

/-- A trigger leaves what a CAPS reply records. -/
theorem capsTriggered_told (old new : List Aspect) (u : State) :
    (u.capsTriggered old new).banks = u.banks ∧ (u.capsTriggered old new).link = u.link := by
  unfold State.capsTriggered
  split
  · exact ⟨rfl, rfl⟩
  · exact ⟨(passes_trigger u).banks, (passes_trigger u).link⟩

/-- Entries of the right kind record nothing. -/
theorem capsKept_fits (h : ∀ a ∈ es, Aspect.fits k a = true) :
    (s.capsKept g i l k y es).banks = s.banks ∧ (s.capsKept g i l k y es).link = s.link := by
  have silent (u : State) : u.capsReported g l k es = u := if_neg (by simpa using h)
  obtain ⟨banks, link⟩ := capsTriggered_told y.caps (keepCaps k [] es)
    (s.onNode g (NodeRec.withCaps i y (keepCaps k [] es)))
  rw [State.capsKept, silent]
  exact ⟨banks, link⟩

/-- An entry of the wrong kind makes one BAD_CAPABILITY record, a WARN. -/
theorem capsKept_wrong (h : ∃ a ∈ es, Aspect.fits k a = false) :
    (s.capsKept g i l k y es).banks.look (lineBank l) =
      ((s.banks.look (lineBank l)).take ⟨.warn, .badCapability, some g, none, s.clock⟩).1 := by
  have reported (u : State) : u.capsReported g l k es = u.record (lineBank l) .badCapability .warn (some g) none :=
    if_pos (by simpa using h)
  rw [State.capsKept, (capsTriggered_told ..).1, reported, record_bank_self (lineBank_ne_link l)]
  rfl

/-- The state in which a changed list triggers a pass has plan and geometry as they were. -/
theorem capsReported_plan (u : State) :
    (u.capsReported g l k es).plan = u.plan ∧ (u.capsReported g l k es).geo = u.geo := by
  unfold State.capsReported
  split
  · exact ⟨(tells_record ..).plan, (tells_record ..).geo⟩
  · exact ⟨rfl, rfl⟩

/-- A list that is the same as a set triggers nothing. -/
theorem capsKept_same (h : ∀ a, a ∈ keepCaps k [] es ↔ a ∈ y.caps) : (s.capsKept g i l k y es).plan = s.plan := by
  rw [State.capsKept, State.capsTriggered, if_pos ((sameSet_iff ..).2 h), (capsReported_plan _).1, onNode_plan]

/-- A list that differs as a set triggers a pass. -/
theorem capsKept_differs (h : ∃ a, ¬(a ∈ keepCaps k [] es ↔ a ∈ y.caps)) (hm : s.geo.mode = .run) :
    (s.plan.running = none → ∃ m, (s.capsKept g i l k y es).plan = { s.plan with running := some m }) ∧
      ∀ m, s.plan.running = some m → (s.capsKept g i l k y es).plan = { s.plan with again := true } := by
  let u := (s.onNode g (NodeRec.withCaps i y (keepCaps k [] es))).capsReported g l k es
  have plan : u.plan = s.plan := (capsReported_plan _).1
  have mode : u.geo.mode = .run := (congrArg Geometry.mode (capsReported_plan _).2).trans hm
  have triggered : s.capsKept g i l k y es = u.trigger := if_neg (by rw [sameSet_iff]; simpa using h)
  rw [triggered, ← plan]
  exact ⟨fun hp => ⟨u.snapshot, by rw [trigger_idle mode hp]⟩, fun m hp => by rw [trigger_running mode hp]⟩

end Kept

/-! ### The step of the description (R57) -/

theorem describedSign_off {n : NodeRec} {i : Nat} (h : ¬(n.state = .describing ∧ n.step = some (.caps i))) (g : Nat)
    (s : State) : s.describedSign g i n = s := if_neg h

section Next

variable {s : State} {g i : Nat} {gr : GantryRec} {n : NodeRec} (hg : s.geo.gantries.look g = some gr)
include hg

theorem describedSign_on (h : n.state = .describing ∧ n.step = some (.caps i)) : s.describedSign g i n =
    (s.onNode g fun n' => { n' with step := some (n.after i) }).onLine gr.line
      (LineCtl.deposit .service ⟨g, (n.after i).job, .registry, false⟩) := (if_pos h).trans (nextStep_eq hg _)

theorem inside_describedSign : Inside s (s.describedSign g i n) := by
  by_cases h : n.state = .describing ∧ n.step = some (.caps i)
  · rw [describedSign_on hg h]
    exact Inside.trans (t := s.onNode g _) rfl (inside_onLine ..)
  · rw [describedSign_off h g s]
    exact .refl s

theorem describedSign_others {m : Nat} (hm : m ≠ g) : (s.describedSign g i n).nodes.look m = s.nodes.look m := by
  by_cases h : n.state = .describing ∧ n.step = some (.caps i)
  · rw [describedSign_on hg h, onLine_nodes, onNode_nodes, look_adjust_other _ _ hm]
  · rw [describedSign_off h g s]

theorem describedSign_lines {l : Line} (hl : l ≠ gr.line) : (s.describedSign g i n).line l = s.line l := by
  by_cases h : n.state = .describing ∧ n.step = some (.caps i)
  · rw [describedSign_on hg h, line_onLine_other _ _ hl, onNode_line]
  · rw [describedSign_off h g s]

end Next

/-! ### What a CAPS reply leaves alone -/

/-- Only lines, nodes, plan, link and banks can differ. -/
def Registers (s t : State) : Prop :=
  { t with lineA := s.lineA, lineB := s.lineB, nodes := s.nodes, plan := s.plan, link := s.link, banks := s.banks } = s

theorem Registers.geo {s t : State} (h : Registers s t) : t.geo = s.geo := (congrArg State.geo (show _ = s from h) :)

theorem Registers.trans {s t u : State} (h : Registers s t) (k : Registers t u) : Registers s u := by
  unfold Registers at h k ⊢
  calc ({ u with lineA := s.lineA, lineB := s.lineB, nodes := s.nodes, plan := s.plan, link := s.link,
                 banks := s.banks } : State)
      = { { u with lineA := t.lineA, lineB := t.lineB, nodes := t.nodes, plan := t.plan, link := t.link,
                   banks := t.banks } with
          lineA := s.lineA, lineB := s.lineB, nodes := s.nodes, plan := s.plan, link := s.link, banks := s.banks } := rfl
    _ = s := by rw [k, h]

theorem Registers.ite {s t u : State} {p : Prop} [Decidable p] (h : Registers s t) (k : Registers s u) :
    Registers s (if p then t else u) := by
  split <;> assumption

theorem registers_onLine (l : Line) (f : LineCtl → LineCtl) (s : State) : Registers s (s.onLine l f) := by
  cases l <;> rfl

theorem registers_trigger (s : State) : Registers s s.trigger := by unfold Registers; rw [trigger_frame]

theorem registers_record (id : BankId) (c : ErrorCode) (v : Severity) (g st : Option Nat) (s : State) :
    Registers s (s.record id c v g st) := by unfold Registers; rw [record_frame]

theorem registers_capsKept (g i : Nat) (l : Line) (k : SignKind) (y : SignRec) (es : List Aspect) (s : State) :
    Registers s (s.capsKept g i l k y es) := by
  let u := s.onNode g (NodeRec.withCaps i y (keepCaps k [] es))
  have reported : Registers u (u.capsReported g l k es) := .ite (registers_record ..) rfl
  have triggered : Registers (u.capsReported g l k es) (s.capsKept g i l k y es) := .ite rfl (registers_trigger _)
  exact Registers.trans (t := u) rfl (reported.trans triggered)

theorem registers_describedSign {s : State} {g : Nat} {gr : GantryRec} (hg : s.geo.gantries.look g = some gr) (i : Nat)
    (n : NodeRec) : Registers s (s.describedSign g i n) := by
  unfold State.describedSign
  rw [nextStep_eq hg]
  exact .ite (Registers.trans (t := s.onNode g _) rfl (registers_onLine ..)) rfl

/-- Settles O50: `capsKept` stores the list, records and triggers, `describedSign` takes the description on. -/
theorem capsReplyReplacesList : Obligations.CapsReplyReplacesList := by
  intro s l x f i es g n k y hr he hd hj hg hl hn hs hk hy kept goesOn next job
  subst hl
  have hkept : kept = keepCaps k [] es := (keepCaps_nil k es).symm
  let a := s.onLine g.line (LineCtl.ended .free)
  let d := a.capsKept f.gantry i g.line k y es
  let t := d.describedSign f.gantry i n
  have hna : a.nodes.look f.gantry = some n := by simpa [a] using hn
  have hga : a.geo.gantries.look f.gantry = some g := by simpa [a] using hg
  have had : Registers a d := registers_capsKept ..
  have hgd : d.geo.gantries.look f.gantry = some g := by
    rw [had.geo]; exact hga
  have hdt : Inside d t := inside_describedSign hgd
  have row : exec (.capsReply g.line x) s = .next t := by
    rw [exec_capsReply hr he, outcome_handed hd, nodeSucceeded_unretried hna hs, hj]
    exact congrArg _ (capsTaken_eq es hna hga hk hy)
  have node : d.nodes.look f.gantry = some (n.withCaps i y kept) := by
    simp only [d, capsKept_nodes, look_adjust_self, hna, hkept, Option.map_some]
  have others (k' : Nat) (hk' : k' ≠ f.gantry) : d.nodes.look k' = s.nodes.look k' := by
    simp only [d, capsKept_nodes, look_adjust_other _ _ hk', a, onLine_nodes]
  have line : d.line g.line = { s.line g.line with engine := .free, flight := none } := by
    simp only [d, capsKept_line, a, line_onLine_self]
    rfl
  have lines (l' : Line) (hl' : l' ≠ g.line) : d.line l' = s.line l' := by
    simp only [d, capsKept_line, a, line_onLine_other _ _ hl']
  have registers : Registers s t := (registers_onLine ..).trans (had.trans (registers_describedSign hgd ..))
  refine ⟨t, row, ?_, fun k' hk' => (describedSign_others hgd hk').trans (others k' hk'), fun h => ?_, fun h => ?_, ?_,
    fun l' hl' => (describedSign_lines hgd hl').trans (lines l' hl'), fun h => ?_, fun h => ?_, fun h => ?_, fun h hm => ?_,
    registers⟩
  · by_cases h : goesOn
    · refine ⟨{ n.withCaps i y kept with step := some next }, ?_, rfl, fun _ => rfl, fun k => absurd h k⟩
      rw [show t = _ from describedSign_on hgd h, onLine_nodes, onNode_nodes, look_adjust_self, node]
      rfl
    · refine ⟨n.withCaps i y kept, ?_, rfl, fun k => absurd k h, fun _ => rfl⟩
      rw [show t = d from describedSign_off h .., node]
  · rw [show t = _ from describedSign_on hgd h, line_onLine_self, onNode_line, line, after_job]
    rfl
  · rw [show t = d from describedSign_off h .., line]
  · by_cases h : goesOn
    · rw [show t = _ from describedSign_on hgd h, line_onLine_self, onNode_line, line]
      rfl
    · rw [show t = d from describedSign_off h .., line]
  · rw [hdt.banks, hdt.link, (capsKept_fits h).1, (capsKept_fits h).2]
    exact ⟨onLine_banks .., onLine_link ..⟩
  · rw [hdt.banks, capsKept_wrong h, onLine_banks, onLine_clock]
    exact ⟨fun e he => by rw [take_warn he rfl]; exact ⟨rfl, rfl⟩, fun he => by rw [take_empty he]⟩
  · rw [hdt.plan, capsKept_same (by rwa [hkept] at h), onLine_plan]
  · rw [hdt.plan, ← show a.plan = s.plan from onLine_plan ..]
    exact capsKept_differs (by rwa [hkept] at h) (by rw [onLine_geo]; exact hm)

end Sys2Proof.Machine
end

section
/-! A DESCRIBE reply (O49): the comparison, and what becomes of a DESCRIBING and of an OFFLINE node. -/

namespace Sys2Proof.Machine

/-! ### The comparison (R58) -/

theorem hostedLanes_onLine (s : State) (l : Line) (h : LineCtl → LineCtl) (g : Nat) :
    (s.onLine l h).hostedLanes g = s.hostedLanes g := by rw [State.hostedLanes, hosted_onLine, State.hostedLanes]

section Check

variable {s : State} {g : Nat} {gr : GantryRec} {q : DescribeReply} (hg : s.geo.gantries.look g = some gr)
include hg

theorem describeCheck_eq : s.describeCheck g q =
    if q.lanes ≠ LaneSet.positions gr.lanes then some .lanes
    else if q.panel ≠ gr.panel then some .panel
    else if q.loops ≠ s.hostedLanes g then some .loops
    else none := by
  rw [State.describeCheck, hg]
  rfl

theorem describeCheck_agrees (h : q.lanes = LaneSet.positions gr.lanes ∧ q.panel = gr.panel ∧ q.loops = s.hostedLanes g) :
    s.describeCheck g q = none := by
  obtain ⟨lanes, panel, loops⟩ := h
  rw [describeCheck_eq hg, if_neg (not_not.2 lanes), if_neg (not_not.2 panel), if_neg (not_not.2 loops)]

theorem describeCheck_lanes (h : q.lanes ≠ LaneSet.positions gr.lanes) : s.describeCheck g q = some .lanes := by
  rw [describeCheck_eq hg, if_pos h]

theorem describeCheck_panel (h : q.lanes = LaneSet.positions gr.lanes ∧ q.panel ≠ gr.panel) :
    s.describeCheck g q = some .panel := by
  rw [describeCheck_eq hg, if_neg (not_not.2 h.1), if_pos h.2]

theorem describeCheck_loops
    (h : q.lanes = LaneSet.positions gr.lanes ∧ q.panel = gr.panel ∧ q.loops ≠ s.hostedLanes g) :
    s.describeCheck g q = some .loops := by
  obtain ⟨lanes, panel, loops⟩ := h
  rw [describeCheck_eq hg, if_neg (not_not.2 lanes), if_neg (not_not.2 panel), if_pos loops]

end Check

/-! ### The four outcomes (R57, R63) -/

section Described

variable {s : State} {g : Nat} {n : NodeRec} {q : DescribeReply} {m : Mismatch} (hn : s.nodes.look g = some n)
include hn

theorem described_agrees (hs : n.state = .describing) (hp : n.step = some .describe) (hc : s.describeCheck g q = none) :
    s.described g q = s.nextStep g (.caps 0) := by
  simp only [State.described, hn, hs, hc, hp, if_true]

theorem described_mismatch (hs : n.state = .describing) (hp : n.step = some .describe)
    (hc : s.describeCheck g q = some m) : s.described g q = s.changeNode g .offline .describeMismatch (some m) := by
  simp only [State.described, hn, hs, hc, hp, if_true]

theorem described_retryAgrees (hs : n.state = .offline) (hc : s.describeCheck g q = none) :
    s.described g q = s.changeNode g .describing .retryReplied none := by
  simp only [State.described, hn, hs, hc]

theorem described_retryMismatch (hs : n.state = .offline) (hc : s.describeCheck g q = some m) :
    s.described g q = s.offlineMismatch g m n := by
  simp only [State.described, hn, hs, hc]

end Described

/-- A retry DESCRIBE with the mismatch the node already has (R63). -/
theorem offlineMismatch_same {g : Nat} {m : Mismatch} {n : NodeRec} (h : n.reason = .describeMismatch ∧ n.mismatch = some m)
    (s : State) : s.offlineMismatch g m n = s.onNode g fun n => { n with retry := some 0 } := if_pos h

/-- A retry DESCRIBE with a mismatch that is new (R63, R65). -/
theorem offlineMismatch_new {s : State} {g : Nat} {gr : GantryRec} {m : Mismatch} {n : NodeRec}
    (hg : s.geo.gantries.look g = some gr) (h : ¬(n.reason = .describeMismatch ∧ n.mismatch = some m)) :
    s.offlineMismatch g m n =
      State.record (lineBank gr.line) .describeMismatch .fault (some g) none
        (State.raise (gr.event g .offline .offline .describeMismatch (some m))
          (s.onNode g fun n => { n with retry := some 0, reason := .describeMismatch, mismatch := some m })) := by
  let u := s.onNode g fun n => { n with retry := some 0, reason := .describeMismatch, mismatch := some m }
  have told : s.offlineMismatch g m n =
      (u.nodeEvent g .offline .offline .describeMismatch (some m)).nodeRecord g .offline .describeMismatch := by
    rw [State.offlineMismatch, if_neg h, onNode_onNode]
  have hgu : (u.nodeEvent g .offline .offline .describeMismatch (some m)).geo.gantries.look g = some gr := by
    rw [nodeEvent_geo]; exact hg
  rw [told, nodeRecord_some hgu rfl, nodeEvent_eq (s := u) hg]
  rfl

/-! ### Banks and notices -/

/-- A FAULT in a bank without one. -/
theorem take_fault_held {b : Bank} {e : ErrorRec} (he : e.severity = .fault)
    (h : ∀ x, b.held = some x → x.severity = .warn) : (b.take e).1.held = some e := by
  cases hb : b.held with
  | none => rw [take_empty hb]
  | some x => rw [take_replaces hb (h x hb) he]

/-- A change that records nothing and forgets no display, its NODE_EVENT finding room (R65). -/
theorem changeNode_event {s : State} {g : Nat} {gr : GantryRec} {n : NodeRec} {new : NodeState} {r : Reason}
    {m : Option Mismatch} (hn : s.nodes.look g = some n) (hg : s.geo.gantries.look g = some gr)
    (hd : s.forgetNotice g new = none) (hr : r.recorded new = none) (room : s.link.notices.length < 32) :
    (s.changeNode g new r m).link.notices = s.link.notices ++ [⟨s.clock, gr.event g n.state new r m⟩] ∧
      (s.changeNode g new r m).banks = s.banks := by
  rw [changeNode_link hn hg, changeNode_banks hn hg, hd, nodeNotices_alone, nodeRecord_none hr, nodeEvent_eq hg,
    raise_room room]
  exact ⟨rfl, rfl⟩

/-! ### An OFFLINE node whose retry agrees (R56, R63) -/

/-- The line of an OFFLINE node that goes to DESCRIBING: no poll of it, and CAPS 0 at the tail of SERVICE. -/
theorem changed_retryReplied (g : Nat) (p : LineParams) (keeps disagrees : Bool) (c : LineCtl) :
    LineCtl.changed g .offline .describing p keeps disagrees c =
      (c.stopPolls g).deposit .service ⟨g, .caps 0, .registry, false⟩ := rfl

theorem moved_retryReplied (keeps disagrees : Bool) (q : RolloutRec) :
    q.moved .offline .describing keeps disagrees =
      { q with commanded := unknown q.commanded, failed := unknown q.failed } := rfl

/-! ### The row -/

theorem exec_described {s : State} {l : Line} {x : Transcript} {f : Flight} {q : DescribeReply} {n : NodeRec}
    (hr : s.resetHigh = true) (he : s.ending l x = some (f, .replied (.describe q))) (hd : f.discarded = false)
    (hn : s.nodes.look f.gantry = some n) (hs : n.state ≠ .suspect) :
    exec (.describeReply l x) s = .next ((s.onLine l (LineCtl.ended .free)).described f.gantry q) := by
  rw [exec_describeReply hr he, outcome_handed hd, nodeSucceeded_unretried (n := n) (by simpa using hn) (absurd · hs)]

/-- Settles O49: the comparison by `describeCheck_eq`, the outcomes by the four `described` lemmas and `changeNode`. -/
theorem describeReplyIsCompared : Obligations.DescribeReplyIsCompared := by
  intro s l x f q g n hr he hd hg hl hn loops finds agrees
  subst hl
  let a := s.onLine g.line (LineCtl.ended .free)
  have hna : a.nodes.look f.gantry = some n := by simpa [a] using hn
  have hga : a.geo.gantries.look f.gantry = some g := by simpa [a] using hg
  have geo : a.geo = s.geo := onLine_geo ..
  have clock : a.clock = s.clock := onLine_clock ..
  have link : a.link = s.link := onLine_link ..
  have banks : a.banks = s.banks := onLine_banks ..
  have self : a.line g.line = { s.line g.line with engine := .free, flight := none } := line_onLine_self ..
  have lanes : loops = a.hostedLanes f.gantry :=
    (show loops = s.hostedLanes f.gantry from rfl).trans (hostedLanes_onLine ..).symm
  have agreed (h : agrees) : a.describeCheck f.gantry q = none := describeCheck_agrees hga (lanes ▸ h)
  have found {m : Mismatch} (h : finds m) : a.describeCheck f.gantry q = some m := by
    cases m with
    | lanes => exact describeCheck_lanes hga h
    | panel => exact describeCheck_panel hga h
    | loops => exact describeCheck_loops hga (lanes ▸ h)
  have row (h : n.state ≠ .suspect) := exec_described hr he hd hn h
  refine ⟨fun hs hp h => ?_, fun m hs hp h => ?_, fun hs h => ?_, fun m hs h => ?_⟩
  · refine ⟨_, row (by simp [hs]), ?_⟩
    rw [described_agrees hna hs hp (agreed h), nextStep_eq hga]
    refine ⟨?_, fun k hk => ?_, ?_, ?_, fun l' hl' => ?_, ?_⟩
    · rw [onLine_nodes, onNode_nodes, look_adjust_self, hna]
      rfl
    · rw [onLine_nodes, onNode_nodes, look_adjust_other _ _ hk, onLine_nodes]
    · rw [line_onLine_self, onNode_line, self]
      rfl
    · rw [line_onLine_self, onNode_line, self]
      rfl
    · rw [line_onLine_other _ _ hl', onNode_line, line_onLine_other _ _ hl']
    · simp only [a]
      cases g.line <;> rfl
  · have touch := touch_changeNode f.gantry .offline .describeMismatch (some m) a
    have line := changeNode_lineOf (new := .offline) (r := .describeMismatch) (m := some m) hna hga
    have bank := changeNode_lineBank (new := .offline) (r := .describeMismatch) (m := some m) hna hga rfl
    have event := mem_changeNode (new := .offline) (r := .describeMismatch) (m := some m) hna hga
    rw [changed_offline (by simp [hs]), self] at line
    rw [banks, clock] at bank
    rw [link, clock, hs] at event
    refine ⟨_, row (by simp [hs]), ?_⟩
    rw [described_mismatch hna hs hp (found h)]
    refine ⟨?_, fun k hk => ?_, ?_, ?_, fun hw => ?_, event, touch.geo.trans geo, ?_, ?_, touch.clock.trans clock⟩
    · rw [changeNode_nodes hna, look_put_self, clock]
      rfl
    · rw [touch.nodes k hk, onLine_nodes]
    · rw [line]; rfl
    · rw [line]; rfl
    · rw [bank, take_fault_held rfl hw]
    · rw [touch.incidents, onLine_incidents]
    · rw [touch.traffic, onLine_traffic]
  · have touch := touch_changeNode f.gantry .describing .retryReplied none a
    have line := changeNode_lineOf (new := .describing) (r := .retryReplied) (m := none) hna hga
    have event := changeNode_event (new := .describing) (r := .retryReplied) (m := none) hna hga
      (forgetNotice_none _ _ (by simp) (by simp)) rfl
    rw [hs, changed_retryReplied, self] at line
    rw [link, clock, banks, hs] at event
    refine ⟨_, n.moved .describing .retryReplied none s.clock, row (by simp [hs]), ?_⟩
    rw [described_retryAgrees hna hs (agreed h)]
    refine ⟨?_, ?_, fun k hk => ?_, ?_, ?_, ?_, fun r hq => ?_, event, fun l' hl' => ?_, ?_, touch.geo.trans geo, ?_, ?_,
      touch.clock.trans clock⟩
    · rw [changeNode_nodes hna, look_put_self, clock]
    · simp [NodeRec.moved, hs, clearAllFailed]
    · rw [touch.nodes k hk, onLine_nodes]
    · rw [line]; rfl
    · rw [line]; rfl
    · rw [line]
      exact (congrArg List.getLast? (deposit_look_self _ .service _)).trans List.getLast?_concat
    · obtain ⟨r', look, gated⟩ := changeNode_gated (new := .describing) (r := .retryReplied) (m := none) hna hga (q := r)
        (by simpa [a] using hq)
      rw [hs, moved_retryReplied] at gated
      refine ⟨r', look, fun b hb => ?_, fun b hb => ?_, gated.confirmed⟩
      · rw [gated.commanded] at hb; exact unknown_none hb
      · rw [gated.failed] at hb; exact unknown_none hb
    · rw [touch.lines g hga l' hl', line_onLine_other _ _ hl']
    · rw [changeNode_measure hna hga, measureOnNode_off (by simp [hs]) (by simp), onLine_measure]
    · rw [touch.incidents, onLine_incidents]
    · rw [touch.traffic, onLine_traffic]
  · have retried := described_retryMismatch hna hs (found h)
    by_cases known : n.reason = .describeMismatch ∧ n.mismatch = some m
    · refine ⟨_, s.nodes.adjust f.gantry fun n => { n with retry := some 0 }, { n with retry := some 0 },
        row (by simp [hs]), by rw [look_adjust_self, hn]; rfl, fun k hk => look_adjust_other _ _ hk,
        fun _ => ⟨rfl, ?_⟩, fun new => absurd known new⟩
      rw [retried, offlineMismatch_same known, State.onNode, onLine_nodes]
      rfl
    · refine ⟨_, s.nodes.adjust f.gantry fun n =>
          { n with retry := some 0, reason := .describeMismatch, mismatch := some m },
        { n with retry := some 0, reason := .describeMismatch, mismatch := some m },
        row (by simp [hs]), by rw [look_adjust_self, hn]; rfl, fun k hk => look_adjust_other _ _ hk,
        fun same => absurd same known, fun _ => ⟨rfl, ?_⟩⟩
      rw [retried, offlineMismatch_new hga known, State.onNode, onLine_nodes]
      rfl

end Sys2Proof.Machine
end

section
/-! Passages and the rows of the passage machine (R76, R80 to R86): the layer below O53. -/

namespace Sys2Proof.Machine

/-! ### The loops of a lane (R74) -/

section Loops

variable (l : LaneRec) (b : Bool) (x : Loop)

@[simp] theorem setLoop_machine : (l.setLoop b x).machine = l.machine := by cases b <;> rfl
@[simp] theorem setLoop_acc : (l.setLoop b x).acc = l.acc := by cases b <;> rfl
@[simp] theorem setLoop_suspect : (l.setLoop b x).suspect = l.suspect := by cases b <;> rfl
@[simp] theorem setLoop_excluded : (l.setLoop b x).excluded = l.excluded := by cases b <;> rfl
@[simp] theorem setLoop_seen : (l.setLoop b x).seen = l.seen := by cases b <;> rfl
@[simp] theorem setLoop_loop_self : (l.setLoop b x).loop b = x := by cases b <;> rfl
@[simp] theorem setLoop_loop_other : (l.setLoop b x).loop (!b) = l.loop (!b) := by cases b <;> rfl

/-- A loop that keeps its stuck mark keeps the lane's STUCK_ON reason. -/
theorem setLoop_stuck (h : x.stuck = (l.loop b).stuck) :
    ((l.setLoop b x).loopA.stuck || (l.setLoop b x).loopB.stuck) = (l.loopA.stuck || l.loopB.stuck) := by
  cases b
  · exact congrArg (· || l.loopB.stuck) h
  · exact congrArg (l.loopA.stuck || ·) h

/-- A loop that keeps its level keeps the condition that both loops are low. -/
theorem setLoop_high (h : x.high = (l.loop b).high) :
    ((l.setLoop b x).loopA.high || (l.setLoop b x).loopB.high) = (l.loopA.high || l.loopB.high) := by
  cases b
  · exact congrArg (· || l.loopB.high) h
  · exact congrArg (l.loopA.high || ·) h

theorem high_of_loop {l : LaneRec} {b : Bool} (h : (l.loop b).high = true) : (l.loopA.high || l.loopB.high) = true := by
  cases b
  · exact Bool.or_eq_true_iff.2 (.inl h)
  · exact Bool.or_eq_true_iff.2 (.inr h)

end Loops

/-! ### Passages (R83 to R86) -/

section Passages

variable {p : MeasureParams} {r : StationRec} {nc : Bool} {l : LaneRec} {tA tB tAf : Tick}

theorem forwardPassage_rejects (h : tickDelta tA tB = 0 ∨ 250 < passageSpeed r.spacing (tickDelta tA tB)) :
    forwardPassage p r nc l tA tB tAf = l.rejectImplausible := if_pos h

variable (hd : 1 ≤ tickDelta tA tB) (hv : passageSpeed r.spacing (tickDelta tA tB) ≤ 250)
include hd hv

theorem forwardPassage_faulty (hf : l.faulty nc = true) :
    forwardPassage p r nc l tA tB tAf = ({ l with silent := false }, []) :=
  (if_neg (by omega)).trans (if_pos hf)

theorem forwardPassage_counts (hf : l.faulty nc = false) :
    forwardPassage p r nc l tA tB tAf =
      ({ l with
          acc := l.acc.addPassage p (passageSpeed r.spacing (tickDelta tA tB)) (tickDelta tA tAf)
            (vehicleLength r.spacing r.loopLength (tickDelta tA tAf) (tickDelta tA tB)) }, []) :=
  (if_neg (by omega)).trans (if_neg (by simp [hf]))

end Passages

/-- The class of a length, where class 3 begins above class 2 (R85). -/
theorem addPassage_eq {p : MeasureParams} (hc : p.class1Limit < p.class2Limit) (a : Acc) (v occ len : Nat) :
    a.addPassage p v occ len =
      { a with
        count := min 65535 (a.count + 1)
        sumV := min 4294967295 (a.sumV + v)
        occupied := min 4294967295 (a.occupied + occ)
        class1 := if len ≤ p.class1Limit then min 65535 (a.class1 + 1) else a.class1
        class2 := if p.class1Limit < len ∧ len ≤ p.class2Limit then min 65535 (a.class2 + 1) else a.class2
        class3 := if p.class2Limit < len then min 65535 (a.class3 + 1) else a.class3 } := by
  have above : (p.class1Limit < len ∧ p.class2Limit < len) ↔ p.class2Limit < len := by omega
  simp only [Acc.addPassage, above]
  rfl

theorem reversed_passes {nc : Bool} {l : LaneRec} {d : Nat} (h : 1 ≤ d) :
    reversed nc l d =
      ({ l with machine := .revWait, acc := { l.acc with reverse := min 65535 (l.acc.reverse + 1) } },
        if l.faulty nc then [] else [.reverse]) := if_neg (by omega)

theorem reversed_rejects {nc : Bool} {l : LaneRec} :
    reversed nc l 0 = LaneRec.rejectImplausible { l with machine := .revWait } := rfl

/-- What a passage reads of loop B is its stuck mark alone. -/
theorem forwardPassage_loopB (p : MeasureParams) (r : StationRec) (nc : Bool) (l : LaneRec) (tA tB tAf : Tick)
    {x : Loop} (h : x.stuck = l.loopB.stuck) :
    forwardPassage p r nc { l with loopB := x } tA tB tAf =
      ({ (forwardPassage p r nc l tA tB tAf).1 with loopB := x }, (forwardPassage p r nc l tA tB tAf).2) := by
  have same : LaneRec.faulty { l with loopB := x } nc = l.faulty nc := by simp only [LaneRec.faulty, h]
  simp only [forwardPassage, same]
  split
  · rfl
  · split <;> rfl

/-! ### The rows of the passage machine (R80) -/

section Rows

variable {p : MeasureParams} {r : StationRec} {nc : Bool} {l : LaneRec} {t : Tick}

theorem passEdge_idle_riseA (h : l.machine = .idle) :
    passEdge p r nc l false true t = ({ l with machine := .aLead t none }, []) := by simp only [passEdge, h]

theorem passEdge_idle_riseB (h : l.machine = .idle) :
    passEdge p r nc l true true t = ({ l with machine := if l.loopA.high then .idle else .bLead t }, []) := by
  simp only [passEdge, h]
  split
  · rw [← h]
  · rfl

theorem passEdge_idle_fall (h : l.machine = .idle) (b : Bool) : passEdge p r nc l b false t = (l, []) := by
  simp only [passEdge, h]

variable {tA tB : Tick} {tAf : Option Tick}

theorem passEdge_aLead_fallA (h : l.machine = .aLead tA tAf) :
    passEdge p r nc l false false t = ({ l with machine := .aLead tA (some t) }, []) := by simp only [passEdge, h]

theorem passEdge_aLead_waits (h : l.machine = .aLead tA none) (gap : tickDelta tA t ≤ p.maxGap) :
    passEdge p r nc l true true t = ({ l with machine := .fwdWait tA t }, []) := by simp only [passEdge, h, if_pos gap]

theorem passEdge_aLead_passes {f : Tick} (h : l.machine = .aLead tA (some f)) (gap : tickDelta tA t ≤ p.maxGap) :
    passEdge p r nc l true true t = forwardPassage p r nc { l with machine := .idle } tA t f := by
  simp only [passEdge, h, if_pos gap]

theorem passEdge_aLead_late (h : l.machine = .aLead tA tAf) (gap : p.maxGap < tickDelta tA t) :
    passEdge p r nc l true true t =
      ({ l.countUnpaired with machine := if l.loopA.high then .idle else .bLead t }, []) := by
  simp only [passEdge, h, if_neg (Nat.not_le.2 gap)]

theorem passEdge_aLead_riseA (h : l.machine = .aLead tA tAf) :
    passEdge p r nc l false true t = ({ l.countUnpaired with machine := .aLead t none }, []) := by
  simp only [passEdge, h]

theorem passEdge_aLead_fallB (h : l.machine = .aLead tA tAf) : passEdge p r nc l true false t = (l, []) := by
  simp only [passEdge, h]

theorem passEdge_fwdWait_fallA (h : l.machine = .fwdWait tA tB) :
    passEdge p r nc l false false t = forwardPassage p r nc { l with machine := .idle } tA tB t := by
  simp only [passEdge, h]

theorem passEdge_fwdWait_loopB (h : l.machine = .fwdWait tA tB) (rise : Bool) :
    passEdge p r nc l true rise t = (l, []) := by
  simp only [passEdge, h]

theorem passEdge_bLead_riseA (h : l.machine = .bLead tB) (gap : tickDelta tB t ≤ p.maxGap) :
    passEdge p r nc l false true t = reversed nc l (tickDelta tB t) := by simp only [passEdge, h, if_pos gap]

theorem passEdge_bLead_late (h : l.machine = .bLead tB) (gap : p.maxGap < tickDelta tB t) :
    passEdge p r nc l false true t = ({ l.countUnpaired with machine := .aLead t none }, []) := by
  simp only [passEdge, h, if_neg (Nat.not_le.2 gap)]

theorem passEdge_bLead_riseB (h : l.machine = .bLead tB) :
    passEdge p r nc l true true t = ({ l.countUnpaired with machine := .bLead t }, []) := by simp only [passEdge, h]

theorem passEdge_bLead_fall (h : l.machine = .bLead tB) (b : Bool) : passEdge p r nc l b false t = (l, []) := by
  simp only [passEdge, h]

theorem passEdge_revWait (h : l.machine = .revWait) (b rise : Bool) : passEdge p r nc l b rise t = (l, []) := by
  simp only [passEdge, h]

end Rows

/-! ### The end of REV_WAIT (R81) -/

theorem endReverse_machine (l : LaneRec) : (endReverse l).machine =
    if l.machine = .revWait ∧ (l.loopA.high || l.loopB.high) = false then .idle else l.machine := by
  simp only [endReverse, Bool.or_eq_false_iff]
  split <;> rfl

theorem endReverse_eq (l : LaneRec) : endReverse l = { l with machine := (endReverse l).machine } := by
  unfold endReverse
  split <;> rfl

theorem endReverse_other {l : LaneRec} (h : l.machine ≠ .revWait) : endReverse l = l := if_neg fun k => h k.1

theorem endReverse_high {l : LaneRec} (h : (l.loopA.high || l.loopB.high) = true) : endReverse l = l :=
  if_neg fun k => by simp [k.2] at h

/-! ### An EDGE to another level (R76, R80) -/

/-- A lane whose loop has taken the level of an EDGE (R76, R88). -/
def LaneRec.edged (l : LaneRec) (e : EdgeRec) : LaneRec :=
  l.setLoop e.loopB ⟨e.high, 0, e.high && (l.loop e.loopB).stuck⟩

section Edged

variable (l : LaneRec) (e : EdgeRec)

theorem edged_machine : (l.edged e).machine = l.machine := setLoop_machine ..
theorem edged_acc : (l.edged e).acc = l.acc := setLoop_acc ..

/-- A rise changes no stuck mark (R88). -/
theorem edged_faulty (rise : e.high = true) (nc : Bool) : (l.edged e).faulty nc = l.faulty nc := by
  have stuck := setLoop_stuck l e.loopB ⟨e.high, 0, e.high && (l.loop e.loopB).stuck⟩ (by rw [rise, Bool.true_and])
  have silent : (l.edged e).silent = l.silent := by unfold LaneRec.edged; cases e.loopB <;> rfl
  rw [LaneRec.faulty, silent, LaneRec.edged, stuck, LaneRec.faulty]

end Edged

section Edge

variable {p : MeasureParams} {r : StationRec} {nc : Bool} {l : LaneRec} {e : EdgeRec}
  (hx : (l.loop e.loopB).high ≠ e.high) (he : e.held = false)
include hx he

theorem takeRecord_edge : takeRecord p r nc l e =
    (endReverse (passEdge p r nc (l.edged e) e.loopB e.high e.tick).1,
      (passEdge p r nc (l.edged e) e.loopB e.high e.tick).2) := by
  simp only [takeRecord, he, takeEdge, if_neg hx]
  rfl

/-- A row of R80 that does not leave the machine in REV_WAIT is the whole effect of the record. -/
theorem takeRecord_row {u : LaneRec} {es : List LaneEvent}
    (row : passEdge p r nc (l.edged e) e.loopB e.high e.tick = (u, es)) (hu : u.machine ≠ .revWait) :
    takeRecord p r nc l e = (u, es) := by
  rw [takeRecord_edge hx he, row, endReverse_other hu]

/-- A rise or fall in REV_WAIT, and its end when both loops are low (R81). -/
theorem takeRecord_revWait (hm : l.machine = .revWait) : takeRecord p r nc l e =
    ({ l.edged e with machine := if e.high || (l.loop (!e.loopB)).high then .revWait else .idle }, []) := by
  have waits : (l.edged e).machine = .revWait := (edged_machine l e).trans hm
  have high : ((l.edged e).loopA.high || (l.edged e).loopB.high) = (e.high || (l.loop (!e.loopB)).high) := by
    unfold LaneRec.edged
    cases e.loopB
    · rfl
    · exact Bool.or_comm ..
  rw [takeRecord_edge hx he, passEdge_revWait waits, endReverse_eq, endReverse_machine, high, waits]
  cases e.high || (l.loop (!e.loopB)).high <;> rfl

/-- A rise or fall that the machine ignores. -/
theorem takeRecord_ignored {m : Passage} (row : passEdge p r nc (l.edged e) e.loopB e.high e.tick = (l.edged e, []))
    (hm : l.machine = m) (hr : m ≠ .revWait) :
    takeRecord p r nc l e = ({ l.edged e with machine := m, acc := l.acc }, []) := by
  have same : { l.edged e with machine := m, acc := l.acc } = l.edged e := by
    rw [← hm, ← edged_machine l e, ← edged_acc l e]
  rw [same]
  exact takeRecord_row hx he row (by rwa [edged_machine, hm])

/-- A row of R80 that completes a forward passage. -/
theorem takeRecord_passage {tA tB tAf : Tick} (row : passEdge p r nc (l.edged e) e.loopB e.high e.tick =
      forwardPassage p r nc { l.edged e with machine := .idle } tA tB tAf) :
    takeRecord p r nc l e = forwardPassage p r nc { l.edged e with machine := .idle } tA tB tAf := by
  have idle := (forwardPassage_keeps p r nc { l.edged e with machine := .idle } tA tB tAf).1
  exact takeRecord_row hx he row fun h => Passage.noConfusion (idle.symm.trans h)

end Edge

/-- What an EDGE does to its lane once the loop has its level: the rest of the lane and the count of edge errors stay,
and no edge error and no stuck loop is made known. -/
structure PassageOnly (l : LaneRec) (x : LaneRec × List LaneEvent) : Prop where
  lane : x.1 =
    { l with machine := x.1.machine, acc := x.1.acc, silent := x.1.silent, implausible := x.1.implausible }
  errors : x.1.acc.edgeErrors = l.acc.edgeErrors
  sequence : LaneEvent.edgeSequence ∉ x.2
  stuck : LaneEvent.stuckOn ∉ x.2

namespace PassageOnly

theorem reject (l : LaneRec) : PassageOnly l l.rejectImplausible := by
  refine ⟨rfl, rfl, ?_, ?_⟩ <;> cases h : l.implausible <;> simp [LaneRec.rejectImplausible, h]

/-- The lane changed, and nothing made known. -/
theorem quiet {l u : LaneRec}
    (h : u = { l with machine := u.machine, acc := u.acc, silent := u.silent, implausible := u.implausible })
    (he : u.acc.edgeErrors = l.acc.edgeErrors) : PassageOnly l (u, []) := ⟨h, he, by simp, by simp⟩

/-- The state in which the machine leaves its start does not count. -/
theorem of_machine {l : LaneRec} {m : Passage} {x : LaneRec × List LaneEvent}
    (h : PassageOnly { l with machine := m } x) : PassageOnly l x := ⟨h.lane, h.errors, h.sequence, h.stuck⟩

theorem forward (p : MeasureParams) (r : StationRec) (nc : Bool) (l : LaneRec) (tA tB tAf : Tick) :
    PassageOnly l (forwardPassage p r nc l tA tB tAf) := by
  simp only [forwardPassage]
  split
  · exact reject l
  · split <;> exact quiet rfl rfl

theorem reverse (nc : Bool) (l : LaneRec) (d : Nat) : PassageOnly l (reversed nc l d) := by
  unfold reversed
  split
  · exact (reject _).of_machine
  · refine ⟨rfl, rfl, ?_, ?_⟩ <;> dsimp only <;> split <;> simp

theorem edge (p : MeasureParams) (r : StationRec) (nc : Bool) (l : LaneRec) (b rise : Bool) (t : Tick) :
    PassageOnly l (passEdge p r nc l b rise t) := by
  unfold passEdge
  split
  case h_2 => split <;> exact quiet rfl rfl -- IDLE, B rises
  case h_5 => -- A_LEAD, B rises
    split
    · split
      · exact (forward ..).of_machine
      · exact quiet rfl rfl
    · exact quiet rfl rfl
  case h_8 => exact (forward ..).of_machine -- FWD_WAIT, A falls
  case h_10 => -- B_LEAD, A rises
    split
    · exact reverse ..
    · exact quiet rfl rfl
  all_goals exact quiet rfl rfl

theorem ended {l : LaneRec} {x : LaneRec × List LaneEvent} (h : PassageOnly l x) :
    PassageOnly l (endReverse x.1, x.2) := by
  rw [endReverse_eq]
  exact ⟨by rw [h.lane], h.errors, h.sequence, h.stuck⟩

theorem loop {l : LaneRec} {x : LaneRec × List LaneEvent} (h : PassageOnly l x) (b : Bool) : x.1.loop b = l.loop b := by
  rw [h.lane]
  rfl

end PassageOnly

theorem takeRecord_passageOnly {p : MeasureParams} {r : StationRec} {nc : Bool} {l : LaneRec} {e : EdgeRec}
    (hx : (l.loop e.loopB).high ≠ e.high) (he : e.held = false) : PassageOnly (l.edged e) (takeRecord p r nc l e) := by
  rw [takeRecord_edge hx he]
  exact (PassageOnly.edge ..).ended

/-- A rise leaves its loop high, so that REV_WAIT does not end with it (R81). -/
theorem takeRecord_rise {p : MeasureParams} {r : StationRec} {nc : Bool} {l : LaneRec} {e : EdgeRec}
    (hx : (l.loop e.loopB).high ≠ e.high) (he : e.held = false) (rise : e.high = true) :
    takeRecord p r nc l e = passEdge p r nc (l.edged e) e.loopB e.high e.tick := by
  have kept := (PassageOnly.edge p r nc (l.edged e) e.loopB e.high e.tick).loop e.loopB
  rw [takeRecord_edge hx he]
  generalize passEdge p r nc (l.edged e) e.loopB e.high e.tick = z at kept ⊢
  have high : (z.1.loop e.loopB).high = true := by rw [kept, LaneRec.edged, setLoop_loop_self, rise]
  rw [endReverse_high (high_of_loop high)]

end Sys2Proof.Machine
end

section
/-! The four edges of a vehicle, in each of their orders (R80, R86). -/

namespace Sys2Proof.Machine

/-! ### Records one after another -/

/-- A record that makes nothing known. -/
theorem takeRecords_quiet {p : MeasureParams} {r : StationRec} {nc : Bool} {l u : LaneRec} {e : EdgeRec}
    (h : takeRecord p r nc l e = (u, [])) (es : List EdgeRec) :
    takeRecords p r nc l (e :: es) = takeRecords p r nc u es := by
  simp only [takeRecords, h, List.nil_append]

/-- A record that makes something known, and records behind it that do not. -/
theorem takeRecords_made {p : MeasureParams} {r : StationRec} {nc : Bool} {l u v : LaneRec} {e : EdgeRec}
    {es : List EdgeRec} {made : List LaneEvent} (first : takeRecord p r nc l e = (u, made))
    (rest : takeRecords p r nc u es = (v, [])) : takeRecords p r nc l (e :: es) = (v, made) := by
  simp only [takeRecords, first, rest, List.append_nil]

theorem takeRecords_single (p : MeasureParams) (r : StationRec) (nc : Bool) (l : LaneRec) (e : EdgeRec) :
    takeRecords p r nc l [e] = takeRecord p r nc l e := by
  simp only [takeRecords, List.append_nil]

/-- A lane with its machine and its loops replaced: what moves while a vehicle is over it. -/
def LaneRec.over (l : LaneRec) (m : Passage) (x y : Loop) : LaneRec := { l with machine := m, loopA := x, loopB := y }

theorem over_self {l : LaneRec} {m : Passage} {x y : Loop} (hm : l.machine = m) (hx : l.loopA = x) (hy : l.loopB = y) :
    l = l.over m x y := by
  rw [LaneRec.over, ← hm, ← hx, ← hy]

/-- An EDGE record of lane `n`. -/
abbrev edgeOf (n : Nat) (isB high : Bool) (t : Tick) : EdgeRec := ⟨n, isB, false, high, t⟩

/-- A loop after a rise, without a stuck mark. -/
def Loop.risen : Loop := ⟨true, 0, false⟩

/-! ### A rises first (R80) -/

section Forward

variable {p : MeasureParams} {r : StationRec} {nc : Bool} {l : LaneRec} {n h : Nat} {y : Loop} {a a' b b' : Tick}
  {es : List EdgeRec}

theorem takeRecords_startA :
    takeRecords p r nc (l.over .idle ⟨false, h, false⟩ y) (edgeOf n false true a :: es) =
      takeRecords p r nc (l.over (.aLead a none) .risen y) es :=
  takeRecords_quiet (takeRecord_row Bool.noConfusion rfl (passEdge_idle_riseA rfl) Passage.noConfusion) es

/-- A's fall before B has risen. -/
theorem takeRecords_fallA :
    takeRecords p r nc (l.over (.aLead a none) .risen y) (edgeOf n false false a' :: es) =
      takeRecords p r nc (l.over (.aLead a (some a')) .fresh y) es :=
  takeRecords_quiet (takeRecord_row Bool.noConfusion rfl (passEdge_aLead_fallA rfl) Passage.noConfusion) es

/-- B rises in time, A still high. -/
theorem takeRecords_waits (gap : tickDelta a b ≤ p.maxGap) :
    takeRecords p r nc (l.over (.aLead a none) .risen ⟨false, h, false⟩) (edgeOf n true true b :: es) =
      takeRecords p r nc (l.over (.fwdWait a b) .risen .risen) es :=
  takeRecords_quiet (takeRecord_row Bool.noConfusion rfl (passEdge_aLead_waits rfl gap) Passage.noConfusion) es

/-- B's fall behind a passage leaves IDLE as it is. -/
theorem takeRecords_passage_fallB {k : LaneRec} {e : EdgeRec}
    (passes : takeRecord p r nc k e = forwardPassage p r nc (l.over .idle .fresh .risen) a b a') :
    takeRecords p r nc k [e, edgeOf n true false b'] =
      forwardPassage p r nc (l.over .idle .fresh .fresh) a b a' := by
  have keeps := forwardPassage_keeps p r nc (l.over .idle .fresh .risen) a b a'
  have falls := forwardPassage_loopB p r nc (l.over .idle .fresh .risen) a b a' (x := .fresh) rfl
  rw [takeRecords, passes, takeRecords_single]
  generalize forwardPassage p r nc (l.over .idle .fresh .risen) a b a' = z at keeps falls ⊢
  obtain ⟨idle, -, high⟩ := keeps
  have row : passEdge p r nc (z.1.edged (edgeOf n true false b')) true false b' =
      (z.1.edged (edgeOf n true false b'), []) :=
    passEdge_idle_fall ((edged_machine ..).trans idle) true
  rw [takeRecord_row (by rw [LaneRec.loop, high]; nofun) rfl row (by rw [edged_machine, idle]; nofun), List.append_nil]
  exact falls.symm

/-- The three orders in which A rises first and B in time (R80). -/
theorem takeRecords_forward {hA hB : Nat} (gap : tickDelta a b ≤ p.maxGap)
    (order : es ∈ [
      [edgeOf n false true a, edgeOf n true true b, edgeOf n false false a', edgeOf n true false b'],
      [edgeOf n false true a, edgeOf n false false a', edgeOf n true true b, edgeOf n true false b'],
      [edgeOf n false true a, edgeOf n true true b, edgeOf n true false b', edgeOf n false false a']]) :
    takeRecords p r nc (l.over .idle ⟨false, hA, false⟩ ⟨false, hB, false⟩) es =
      forwardPassage p r nc (l.over .idle .fresh .fresh) a b a' := by
  simp only [List.mem_cons, List.not_mem_nil, or_false] at order
  obtain rfl | rfl | rfl := order
  · rw [takeRecords_startA, takeRecords_waits gap]
    exact takeRecords_passage_fallB (takeRecord_passage Bool.noConfusion rfl (passEdge_fwdWait_fallA rfl))
  · rw [takeRecords_startA, takeRecords_fallA]
    exact takeRecords_passage_fallB (takeRecord_passage Bool.noConfusion rfl (passEdge_aLead_passes rfl gap))
  · have fallB : takeRecord p r nc (l.over (.fwdWait a b) .risen .risen) (edgeOf n true false b') =
        (l.over (.fwdWait a b) .risen .fresh, []) :=
      takeRecord_row Bool.noConfusion rfl (passEdge_fwdWait_loopB rfl _) Passage.noConfusion
    rw [takeRecords_startA, takeRecords_waits gap, takeRecords_quiet fallB, takeRecords_single]
    exact takeRecord_passage Bool.noConfusion rfl (passEdge_fwdWait_fallA rfl)

end Forward

/-! ### B rises first (R86) -/

section Reverse

variable {p : MeasureParams} {r : StationRec} {nc : Bool} {l : LaneRec} {n h : Nat} {y : Loop} {a a' b b' : Tick}
  {es : List EdgeRec}

/-- What a reverse passage reads of the loops is their stuck marks alone. -/
theorem reversed_over {m m' : Passage} {x y x' y' : Loop} {d : Nat}
    (same : (x.stuck || y.stuck) = (x'.stuck || y'.stuck)) :
    reversed nc (l.over m x y) d =
      ((reversed nc (l.over m' x' y') d).1.over .revWait x y, (reversed nc (l.over m' x' y') d).2) := by
  simp only [reversed, LaneRec.faulty, LaneRec.over, same]
  split <;> rfl

theorem takeRecords_startB {hB : Nat} :
    takeRecords p r nc (l.over .idle ⟨false, h, false⟩ ⟨false, hB, false⟩) (edgeOf n true true b :: es) =
      takeRecords p r nc (l.over (.bLead b) ⟨false, h, false⟩ .risen) es :=
  takeRecords_quiet (takeRecord_row Bool.noConfusion rfl (passEdge_idle_riseB rfl) Passage.noConfusion) es

/-- A completes a reverse passage in time, behind a B that may have fallen (R86). -/
theorem takeRecord_reverses (hy : y.stuck = false) (gap : tickDelta b a ≤ p.maxGap) :
    takeRecord p r nc (l.over (.bLead b) ⟨false, h, false⟩ y) (edgeOf n false true a) =
      ((reversed nc (l.over .idle .fresh .fresh) (tickDelta b a)).1.over .revWait .risen y,
        (reversed nc (l.over .idle .fresh .fresh) (tickDelta b a)).2) := by
  have row : passEdge p r nc (l.over (.bLead b) .risen y) false true a = _ :=
    (passEdge_bLead_riseA rfl gap).trans
      (reversed_over (m' := .idle) (x' := .fresh) (y' := .fresh) (by rw [hy]; rfl))
  exact (takeRecord_rise Bool.noConfusion rfl rfl).trans row

/-- The three orders in which B rises first and A in time (R86). -/
theorem takeRecords_reverse {hA hB : Nat} (gap : tickDelta b a ≤ p.maxGap)
    (order : es ∈ [
      [edgeOf n true true b, edgeOf n false true a, edgeOf n true false b', edgeOf n false false a'],
      [edgeOf n true true b, edgeOf n false true a, edgeOf n false false a', edgeOf n true false b'],
      [edgeOf n true true b, edgeOf n true false b', edgeOf n false true a, edgeOf n false false a']]) :
    takeRecords p r nc (l.over .idle ⟨false, hA, false⟩ ⟨false, hB, false⟩) es =
      ((reversed nc (l.over .idle .fresh .fresh) (tickDelta b a)).1.over .idle .fresh .fresh,
        (reversed nc (l.over .idle .fresh .fresh) (tickDelta b a)).2) := by
  have reverses (y : Loop) (hy : y.stuck = false) :=
    takeRecord_reverses (p := p) (r := r) (nc := nc) (l := l) (n := n) (h := hA) hy gap
  generalize reversed nc (l.over .idle .fresh .fresh) (tickDelta b a) = z at reverses ⊢
  have lastA : takeRecord p r nc (z.1.over .revWait .risen .fresh) (edgeOf n false false a') =
      (z.1.over .idle .fresh .fresh, []) := takeRecord_revWait Bool.noConfusion rfl rfl
  simp only [List.mem_cons, List.not_mem_nil, or_false] at order
  obtain rfl | rfl | rfl := order
  · have fallB : takeRecord p r nc (z.1.over .revWait .risen .risen) (edgeOf n true false b') =
        (z.1.over .revWait .risen .fresh, []) := takeRecord_revWait Bool.noConfusion rfl rfl
    rw [takeRecords_startB]
    exact takeRecords_made (reverses _ rfl) ((takeRecords_quiet fallB _).trans ((takeRecords_single ..).trans lastA))
  · have fallA : takeRecord p r nc (z.1.over .revWait .risen .risen) (edgeOf n false false a') =
        (z.1.over .revWait .fresh .risen, []) := takeRecord_revWait Bool.noConfusion rfl rfl
    have lastB : takeRecord p r nc (z.1.over .revWait .fresh .risen) (edgeOf n true false b') =
        (z.1.over .idle .fresh .fresh, []) := takeRecord_revWait Bool.noConfusion rfl rfl
    rw [takeRecords_startB]
    exact takeRecords_made (reverses _ rfl) ((takeRecords_quiet fallA _).trans ((takeRecords_single ..).trans lastB))
  · have fallB : takeRecord p r nc (l.over (.bLead b) ⟨false, hA, false⟩ .risen) (edgeOf n true false b') =
        (l.over (.bLead b) ⟨false, hA, false⟩ .fresh, []) :=
      takeRecord_row Bool.noConfusion rfl (passEdge_bLead_fall rfl _) Passage.noConfusion
    rw [takeRecords_startB, takeRecords_quiet fallB]
    exact takeRecords_made (reverses _ rfl) ((takeRecords_single ..).trans lastA)

end Reverse

end Sys2Proof.Machine
end

section
/-! Records that disagree, HELD records, and the node condition; O53 settled. -/

namespace Sys2Proof.Machine

/-! ### A record that disagrees with the loop's level (R76, R77, R91) -/

section Disagrees

variable {p : MeasureParams} {r : StationRec} {nc : Bool} {l : LaneRec} {e : EdgeRec}

theorem takeRecord_disagrees
    (h : (l.loop e.loopB).high = e.high ∧ e.held = false ∨ (l.loop e.loopB).high ≠ e.high ∧ e.held = true) :
    takeRecord p r nc l e = sequenceError p (l.setLoop e.loopB
      (if e.held then ⟨e.high, 1, e.high && (l.loop e.loopB).stuck⟩ else { l.loop e.loopB with held := 0 })) := by
  have idle (u : LaneRec) : endReverse (sequenceError p u).1 = (sequenceError p u).1 :=
    endReverse_other Passage.noConfusion
  obtain ⟨agrees, edge⟩ | ⟨differs, held⟩ := h
  · simp only [takeRecord, takeEdge, edge, if_pos agrees, Bool.false_eq_true, if_false, idle]
  · simp only [takeRecord, takeHeld, held, if_neg differs, if_true, idle]

theorem sequenceError_setLoop (p : MeasureParams) (l : LaneRec) (b : Bool) (x : Loop) :
    (sequenceError p (l.setLoop b x)).1 =
      { l.setLoop b x with
        machine := .idle
        acc := { l.acc with edgeErrors := min 65535 (l.acc.edgeErrors + 1) }
        suspect := (sequenceError p (l.setLoop b x)).1.suspect } := by
  cases b <;> rfl

theorem sequenceError_crosses
    (h : l.acc.edgeErrors ≤ p.edgeErrorLimit ∧ p.edgeErrorLimit < min 65535 (l.acc.edgeErrors + 1)) :
    (sequenceError p l).1.suspect = true ∧ (sequenceError p l).2 = [.edgeSequence] := by
  have crosses : decide
      (l.acc.edgeErrors ≤ p.edgeErrorLimit ∧ p.edgeErrorLimit < satAdd countTop l.acc.edgeErrors 1) = true :=
    decide_eq_true h
  simp only [sequenceError, crosses, Bool.or_true, if_true, and_self]

theorem sequenceError_within
    (h : ¬(l.acc.edgeErrors ≤ p.edgeErrorLimit ∧ p.edgeErrorLimit < min 65535 (l.acc.edgeErrors + 1))) :
    (sequenceError p l).1.suspect = l.suspect ∧ (sequenceError p l).2 = [] := by
  have within : decide
      (l.acc.edgeErrors ≤ p.edgeErrorLimit ∧ p.edgeErrorLimit < satAdd countTop l.acc.edgeErrors 1) = false :=
    decide_eq_false h
  simp only [sequenceError, within, Bool.or_false, Bool.false_eq_true, if_false, and_self]

end Disagrees

/-! ### A HELD record that agrees (R77, R82, R88) -/

/-- A lane whose loop has one more held mark. -/
def LaneRec.heldOn (l : LaneRec) (b : Bool) : LaneRec :=
  l.setLoop b { l.loop b with held := min 255 ((l.loop b).held + 1) }

/-- The lane after that, with what the passage machine makes of the mark. -/
def LaneRec.marked (l : LaneRec) (b : Bool) : LaneRec := endReverse (passHeld (l.heldOn b) b)

theorem passHeld_eq (l : LaneRec) (b : Bool) :
    passHeld l b = { l with machine := (passHeld l b).machine, acc := (passHeld l b).acc } := by
  unfold passHeld
  repeat' split
  all_goals rfl

theorem marked_eq (l : LaneRec) (b : Bool) :
    l.marked b = { l.heldOn b with machine := (l.marked b).machine, acc := (l.marked b).acc } := by
  rw [LaneRec.marked, endReverse_eq, passHeld_eq]

/-- A stuck mark changes no level. -/
theorem endReverse_becomeStuck (l : LaneRec) (b : Bool) :
    (endReverse (becomeStuck l b).1, (becomeStuck l b).2) = becomeStuck (endReverse l) b := by
  have machine : (becomeStuck l b).1.machine = l.machine := setLoop_machine ..
  have high : ((becomeStuck l b).1.loopA.high || (becomeStuck l b).1.loopB.high) = (l.loopA.high || l.loopB.high) :=
    setLoop_high _ _ _ rfl
  rw [endReverse_eq, endReverse_machine, machine, high, ← endReverse_machine, endReverse_eq l]
  cases b <;> rfl

/-- A loop that becomes stuck at this mark (R88). -/
theorem becomeStuck_marked (l : LaneRec) (b : Bool) :
    becomeStuck (l.marked b) b =
      ({ l.setLoop b { l.loop b with held := min 255 ((l.loop b).held + 1), stuck := true } with
          machine := (l.marked b).machine, acc := (l.marked b).acc,
          excluded := true, seen := { l.seen with stuckOn := true } },
        if l.loopA.stuck || l.loopB.stuck then [] else [.stuckOn]) := by
  rw [marked_eq]
  cases b <;> rfl

section Marks

variable {l : LaneRec} {b : Bool}

/-- A start abandoned by a mark of its own loop (R82). -/
theorem marked_start {tA tB : Tick} {tAf : Option Tick}
    (h : l.machine = .aLead tA tAf ∧ b = false ∨ l.machine = .bLead tB ∧ b = true) :
    (l.marked b).machine = .idle ∧ (l.marked b).acc = { l.acc with unpaired := min 65535 (l.acc.unpaired + 1) } := by
  have abandons : passHeld (l.heldOn b) b = { (l.heldOn b).countUnpaired with machine := .idle } := by
    obtain ⟨start, rfl⟩ | ⟨start, rfl⟩ := h
    · simp only [passHeld, LaneRec.heldOn, setLoop_machine, start]
    · simp only [passHeld, LaneRec.heldOn, setLoop_machine, start]
  rw [LaneRec.marked, abandons, endReverse_other Passage.noConfusion]
  exact ⟨rfl, by rw [LaneRec.countUnpaired, LaneRec.heldOn, setLoop_acc]; rfl⟩

/-- A passage rejected at A's fourth mark (R82). -/
theorem marked_fourth {tA tB : Tick} (h : l.machine = .fwdWait tA tB) (fourth : min 255 (l.loopA.held + 1) = 4) :
    (l.marked false).machine = .idle ∧
      (l.marked false).acc = { l.acc with rejected := min 65535 (l.acc.rejected + 1) } := by
  have rejects : passHeld (l.heldOn false) false = { (l.heldOn false).countRejected with machine := .idle } := by
    simp only [passHeld, LaneRec.heldOn, setLoop_machine, h]
    exact if_pos fourth
  rw [LaneRec.marked, rejects, endReverse_other Passage.noConfusion]
  exact ⟨rfl, rfl⟩

/-- A mark that the machine does not heed. -/
theorem marked_unheeded (h : passHeld (l.heldOn b) b = l.heldOn b) :
    (l.marked b).acc = l.acc ∧ (l.marked b).machine =
      if l.machine = .revWait ∧ (l.loopA.high || l.loopB.high) = false then .idle else l.machine := by
  have high : ((l.heldOn b).loopA.high || (l.heldOn b).loopB.high) = (l.loopA.high || l.loopB.high) :=
    setLoop_high _ _ _ rfl
  rw [LaneRec.marked, h, endReverse_machine, endReverse_eq, high, LaneRec.heldOn, setLoop_machine, setLoop_acc]
  exact ⟨rfl, rfl⟩

theorem marked_other {tA tB : Tick} {tAf : Option Tick}
    (h : l.machine = .idle ∨ l.machine = .aLead tA tAf ∧ b = true ∨ l.machine = .bLead tB ∧ b = false ∨
      l.machine = .fwdWait tA tB ∧ (b = true ∨ min 255 ((l.loop b).held + 1) ≠ 4)) :
    (l.marked b).machine = l.machine ∧ (l.marked b).acc = l.acc := by
  have unheeded : passHeld (l.heldOn b) b = l.heldOn b := by
    obtain idle | ⟨lead, rfl⟩ | ⟨lead, rfl⟩ | ⟨waits, rfl | few⟩ := h
    · simp only [passHeld, LaneRec.heldOn, setLoop_machine, idle]
    · simp only [passHeld, LaneRec.heldOn, setLoop_machine, lead]
    · simp only [passHeld, LaneRec.heldOn, setLoop_machine, lead]
    · simp only [passHeld, LaneRec.heldOn, setLoop_machine, waits]
    · cases b
      · simp only [passHeld, LaneRec.heldOn, setLoop_machine, waits]
        exact if_neg few
      · simp only [passHeld, LaneRec.heldOn, setLoop_machine, waits]
  have active : l.machine ≠ .revWait := by
    obtain h | ⟨h, -⟩ | ⟨h, -⟩ | ⟨h, -⟩ := h <;> rw [h] <;> nofun
  obtain ⟨acc, machine⟩ := marked_unheeded unheeded
  exact ⟨machine.trans (if_neg fun k => active k.1), acc⟩

theorem marked_revWait (h : l.machine = .revWait) : (l.marked b).acc = l.acc ∧
    (l.marked b).machine = if l.loopA.high || l.loopB.high then .revWait else .idle := by
  have unheeded : passHeld (l.heldOn b) b = l.heldOn b := by
    simp only [passHeld, LaneRec.heldOn, setLoop_machine, h]
  obtain ⟨acc, machine⟩ := marked_unheeded unheeded
  refine ⟨acc, machine.trans ?_⟩
  rw [h]
  cases l.loopA.high || l.loopB.high <;> rfl

end Marks

section Held

variable {p : MeasureParams} {r : StationRec} {nc : Bool} {l : LaneRec} {e : EdgeRec}
  (hx : (l.loop e.loopB).high = e.high) (he : e.held = true)
include hx he

theorem takeRecord_sticks (sticks : e.high = true ∧ min 255 ((l.loop e.loopB).held + 1) = p.stuckMarks) :
    takeRecord p r nc l e = becomeStuck (l.marked e.loopB) e.loopB := by
  simp only [takeRecord, he, takeHeld, if_pos hx, if_true]
  exact (congrArg (fun z : LaneRec × List LaneEvent => (endReverse z.1, z.2)) (if_pos sticks)).trans
    (endReverse_becomeStuck ..)

theorem takeRecord_marks (marks : ¬(e.high = true ∧ min 255 ((l.loop e.loopB).held + 1) = p.stuckMarks)) :
    takeRecord p r nc l e =
      ({ l.heldOn e.loopB with machine := (l.marked e.loopB).machine, acc := (l.marked e.loopB).acc }, []) := by
  rw [← marked_eq]
  simp only [takeRecord, he, takeHeld, if_pos hx, if_true]
  exact congrArg (fun z : LaneRec × List LaneEvent => (endReverse z.1, z.2)) (if_neg marks)

/-- Whether or not the loop becomes stuck, machine and accumulators are those of the mark. -/
theorem takeRecord_held_machine : (takeRecord p r nc l e).1.machine = (l.marked e.loopB).machine ∧
    (takeRecord p r nc l e).1.acc = (l.marked e.loopB).acc := by
  by_cases sticks : e.high = true ∧ min 255 ((l.loop e.loopB).held + 1) = p.stuckMarks
  · rw [takeRecord_sticks hx he sticks]
    exact ⟨setLoop_machine .., setLoop_acc ..⟩
  · rw [takeRecord_marks hx he sticks]
    exact ⟨rfl, rfl⟩

end Held

/-! ### The node condition (R90) -/

theorem measureOnNode_same {s : State} {g : Nat} {old new : NodeState} (h : old = .online ↔ new = .online) :
    s.measureOnNode g old new = s := by
  by_cases on : new = .online
  · simp only [State.measureOnNode, h.2 on, on, ne_eq, not_true_eq_false, and_false, false_and, if_false]
    split <;> rfl
  · exact measureOnNode_off (mt h.1 on) on

section NodeCondition

variable {s : State} {g st : Nat} {sr : StationRec} (hh : s.hosted g = some (st, sr)) {old new : NodeState}
include hh

theorem measureOnNode_returns (h : old ≠ .online) : s.measureOnNode g old .online =
    s.onStation st fun en => ⟨false, if old = .suspect then en.lanes else en.lanes.mapValues LaneRec.described⟩ := by
  simp only [State.measureOnNode, hh, h, ne_eq, not_false_eq_true, not_true_eq_false, and_self, if_false, if_true]

/-- A change of node state does nothing to the measurement unit but at the station that the node hosts. -/
theorem measureOnNode_station (old new : NodeState) :
    s.measureOnNode g old new = s ∨ ∃ f, s.measureOnNode g old new = s.onStation st f := by
  by_cases same : old = .online ↔ new = .online
  · exact .inl (measureOnNode_same same)
  · by_cases on : new = .online
    · subst on
      exact .inr ⟨_, measureOnNode_returns hh fun h => same ⟨fun _ => rfl, fun _ => h⟩⟩
    · obtain rfl : old = .online := by_contra fun h => same ⟨fun k => absurd k h, fun k => absurd k on⟩
      exact .inr ⟨_, measureOnNode_lost hh on⟩

end NodeCondition

/-! ### The obligation -/

/-- Settles O53: the passage arithmetic (R79, R83 to R85), the six orders of a crossing by the rows of the passage
machine (R80, R86), an EDGE row by row (R76, R80, R81), a record that disagrees (R77, R91), a HELD record that agrees
(R82, R88), and the node condition (R90). -/
theorem forwardPassageIsMeasured : Obligations.ForwardPassageIsMeasured := by
  unfold Obligations.ForwardPassageIsMeasured
  refine ⟨fun p r nc l tA tB tAf classes => ⟨fun h => ?_, fun hd hv hf => ?_, fun hd hv hf => ?_⟩,
    fun p r nc l n hA hB a a' b b' idle low lowB => ?_,
    fun p r nc l e => ⟨fun hx he => ?_, fun hx he => ?_, fun h => ?_, fun hx he => ?_⟩,
    fun s g st sr en old new hosted entry => ⟨?_, ?_, fun k hk => ?_, fun left out => ?_, fun back on => ?_,
      fun off new' on => ?_, measureOnNode_same⟩⟩
  · exact forwardPassage_rejects h
  · exact forwardPassage_faulty hd hv hf
  · rw [forwardPassage_counts hd hv hf, addPassage_eq classes]
    simp only [decide_eq_true_eq, if_true]
    rfl
  · obtain ⟨k, rfl⟩ : ∃ k : LaneRec, l = k.over .idle ⟨false, hA, false⟩ ⟨false, hB, false⟩ :=
      ⟨l, over_self idle low lowB⟩
    refine ⟨fun gap es order => takeRecords_forward gap order, fun late => ⟨?_, ?_⟩, ?_,
      fun gap es order => ⟨fun hd => ?_, fun hd => ?_⟩⟩
    · rw [takeRecords_startA, takeRecords_single]
      exact takeRecord_row Bool.noConfusion rfl (passEdge_aLead_late rfl late) Passage.noConfusion
    · rw [takeRecords_startA, takeRecords_fallA, takeRecords_single]
      exact takeRecord_row Bool.noConfusion rfl (passEdge_aLead_late rfl late) Passage.noConfusion
    · rw [takeRecords_startA, takeRecords_fallA, takeRecords_single]
      exact takeRecord_row Bool.noConfusion rfl (passEdge_aLead_riseA rfl) Passage.noConfusion
    · rw [takeRecords_reverse gap order, reversed_passes (show 1 ≤ tickDelta b a from hd)]
      rfl
    · rw [takeRecords_reverse gap order, show tickDelta b a = 0 from hd, reversed_rejects]
      rfl
  · have crosses := takeRecord_passageOnly (p := p) (r := r) (nc := nc) hx he
    exact ⟨(crosses.loop _).trans (setLoop_loop_self ..), (crosses.loop _).trans (setLoop_loop_other ..),
      crosses.lane.trans (by rw [crosses.loop, LaneRec.edged, setLoop_loop_self]),
      crosses.errors.trans (by rw [edged_acc]), crosses.sequence, crosses.stuck⟩
  · obtain ⟨lane, b, held, high, t⟩ := e
    obtain rfl : held = false := he
    refine ⟨fun idle => ⟨?_, ?_, ?_⟩, fun tA tAf lead => ⟨?_, ?_, ?_, ?_, ?_⟩, fun tA tB waits => ⟨?_, ?_⟩,
      fun tB lead => ⟨?_, ?_, ?_, ?_⟩, fun waits => ?_⟩
    -- IDLE
    · rintro ⟨rfl, rfl⟩
      exact Prod.ext_iff.1 ((takeRecord_rise hx rfl rfl).trans (passEdge_idle_riseA idle))
    · rintro ⟨rfl, rfl⟩
      exact Prod.ext_iff.1 ((takeRecord_rise hx rfl rfl).trans (passEdge_idle_riseB idle))
    · rintro rfl
      exact Prod.ext_iff.1 (takeRecord_ignored hx rfl
        (passEdge_idle_fall ((edged_machine ..).trans idle) _) idle nofun)
    -- A_LEAD
    · rintro ⟨rfl, rfl⟩
      exact Prod.ext_iff.1 (takeRecord_row hx rfl (passEdge_aLead_fallA lead) Passage.noConfusion)
    · rintro ⟨rfl, rfl⟩ gap
      refine ⟨?_, ?_⟩
      · rintro rfl
        exact Prod.ext_iff.1 ((takeRecord_rise hx rfl rfl).trans (passEdge_aLead_waits lead gap))
      · rintro f rfl
        exact takeRecord_passage hx rfl (passEdge_aLead_passes lead gap)
    · rintro ⟨rfl, rfl⟩ late
      exact Prod.ext_iff.1 ((takeRecord_rise hx rfl rfl).trans (passEdge_aLead_late lead late))
    · rintro ⟨rfl, rfl⟩
      exact Prod.ext_iff.1 ((takeRecord_rise hx rfl rfl).trans (passEdge_aLead_riseA lead))
    · rintro rfl rfl
      exact Prod.ext_iff.1 (takeRecord_ignored hx rfl (passEdge_aLead_fallB lead) rfl (by rw [lead]; nofun))
    -- FWD_WAIT
    · rintro ⟨rfl, rfl⟩
      exact takeRecord_passage hx rfl (passEdge_fwdWait_fallA waits)
    · rintro rfl
      exact Prod.ext_iff.1 (takeRecord_ignored hx rfl
        (passEdge_fwdWait_loopB ((edged_machine ..).trans waits) _) rfl (by rw [waits]; nofun))
    -- B_LEAD
    · rintro ⟨rfl, rfl⟩ gap
      have passes := (takeRecord_rise hx rfl rfl).trans (passEdge_bLead_riseA (r := r) (nc := nc) lead gap)
      refine ⟨fun hd => ?_, fun hd => ?_⟩
      · exact Prod.ext_iff.1 (passes.trans ((reversed_passes hd).trans (by rw [edged_faulty _ _ rfl])))
      · rw [show tickDelta tB t = 0 from hd, reversed_rejects] at passes
        exact Prod.ext_iff.1 passes
    · rintro ⟨rfl, rfl⟩ late
      exact Prod.ext_iff.1 ((takeRecord_rise hx rfl rfl).trans (passEdge_bLead_late lead late))
    · rintro ⟨rfl, rfl⟩
      exact Prod.ext_iff.1 ((takeRecord_rise hx rfl rfl).trans (passEdge_bLead_riseB lead))
    · rintro rfl
      exact Prod.ext_iff.1 (takeRecord_ignored hx rfl
        (passEdge_bLead_fall ((edged_machine ..).trans lead) _) rfl (by rw [lead]; nofun))
    -- REV_WAIT
    · have ends := takeRecord_revWait (p := p) (r := r) (nc := nc) hx rfl waits
      rw [← edged_acc]
      exact Prod.ext_iff.1 ends
  · rw [takeRecord_disagrees h]
    refine ⟨sequenceError_setLoop .., fun crosses => ?_, fun within => ?_⟩
    · exact sequenceError_crosses (by rwa [setLoop_acc])
    · rw [← setLoop_suspect l e.loopB]
      exact sequenceError_within (by rwa [setLoop_acc])
  · obtain ⟨machine, acc⟩ := takeRecord_held_machine (p := p) (r := r) (nc := nc) hx he
    refine ⟨?_, fun sticks => ?_, fun marks => ?_, fun tA tAf tB start => ?_, fun tA tB waits isA fourth => ?_,
      fun tA tAf tB other => ?_, fun waits => ?_⟩
    · by_cases sticks : e.high = true ∧ min 255 ((l.loop e.loopB).held + 1) = p.stuckMarks
      · rw [takeRecord_sticks hx he sticks, becomeStuck_marked]
        cases e.loopB <;> rfl
      · rw [takeRecord_marks hx he sticks]
        cases e.loopB <;> rfl
    · rw [takeRecord_sticks hx he sticks, becomeStuck_marked]
      exact ⟨by cases e.loopB <;> rfl, rfl, rfl, rfl⟩
    · rw [takeRecord_marks hx he marks]
      exact ⟨by cases e.loopB <;> rfl, setLoop_excluded .., setLoop_seen .., rfl⟩
    · rw [machine, acc]
      exact marked_start start
    · rw [machine, acc, isA]
      rw [isA] at fourth
      exact marked_fourth waits fourth
    · rw [machine, acc]
      exact marked_other other
    · rw [machine, acc]
      exact marked_revWait waits
  · rw [measureOnNode_eq]
  · obtain same | ⟨f, at_st⟩ := measureOnNode_station hosted old new
    · rw [same]
    · rw [at_st, onStation_timer]
  · obtain same | ⟨f, at_st⟩ := measureOnNode_station hosted old new
    · rw [same]
    · rw [at_st, onStation_stations, look_adjust_other _ _ hk]
  · rw [left, measureOnNode_lost hosted out, onStation_stations, look_adjust_self, entry]
    rfl
  · rw [back, on, measureOnNode_returns (old := .suspect) hosted nofun, onStation_stations, look_adjust_self, entry]
    rfl
  · rw [on, measureOnNode_returns hosted off, onStation_stations, look_adjust_self, entry, Option.map_some, if_neg new']
    rfl

end Sys2Proof.Machine
end

section
/-! STATION_RESET (O36) and the wrong-way driver (O56). -/

namespace Sys2Proof.Machine

/-! ### STATION_RESET (R109) -/

/-- Settles O36, by the payload, the station's number and its definition. -/
theorem stationResetRestartsFilters : Obligations.StationResetRestartsFilters := by
  intro s f rest ht hm
  have refused {r : Result} := takeRequest_refused (r := r) (d := .none) (fits := (· == 0x10#8))
    handleStationReset ht rfl
  refine ⟨fun hl => refused ?_, fun n hp => ⟨fun hn => refused ?_, fun h1 h24 undefined => refused ?_,
    fun r x h1 h24 defined entry => ?_⟩⟩
  · obtain e | ⟨a, b, l, e⟩ := length_ne_one hl <;> simp [handleStationReset, hm, e, refuse]
  · simp [handleStationReset, hm, hp, hn, refuse]
  · have range : ¬(n.toNat = 0 ∨ 24 < n.toNat) := by omega
    simp [handleStationReset, hm, hp, range, (has_eq_false ..).2 undefined, refuse]
  · have range : ¬(n.toNat = 0 ∨ 24 < n.toNat) := by omega
    have known : s.geo.stations.has n.toNat = true := (has_iff ..).2 (by simp [defined])
    have answer : handleStationReset { s with link := { s.link with rxQueue := rest } } f.payload =
        accept { s with
          link := { s.link with rxQueue := rest }
          traffic := s.traffic.adjust n.toNat (StationState.restart s.geo.params.measure.freeSpeed) } := by
      simp [handleStationReset, hm, hp, range, known]
    exact ⟨_, takeRequest_answer (fits := (· == 0x10#8)) ht rfl answer,
      (look_adjust_self ..).trans (by rw [entry]; rfl), fun k hk => look_adjust_other _ _ hk, rfl⟩

/-! ### The record to track (R120) -/

/-- A record that R120 can track from station `st`: of DETECTION origin, its anchor at the station or downstream within
track. -/
def State.trackable (s : State) (st h : Nat) (i : Incident) (b : Nat) : Prop :=
  s.incidents.look h = some i ∧ i.origin = .detection ∧ i.anchor = some b ∧ s.stationChainage st ≤ s.stationChainage b ∧
    s.stationChainage b ≤ s.stationChainage st + s.geo.params.wrongway.track

theorem trackable_iff {s : State} (hr : s.incidents.rising = true) {st h : Nat} {i : Incident} :
    (∃ b, s.trackable st h i b) ↔ (h, i) ∈ s.incidents ∧ s.qualifies st i = true := by
  rw [mem_iff_look hr]
  unfold State.trackable State.qualifies
  cases i.anchor <;> simp

/-- The record with the lowest anchor among those that can be tracked, the lower handle of two, is the one found. -/
theorem nearest_of_trackable {s : State} (hr : s.incidents.rising = true) {st h b : Nat} {i : Incident}
    (own : s.trackable st h i b)
    (first : ∀ h' i' b', s.trackable st h' i' b' →
      s.stationChainage b < s.stationChainage b' ∨ s.stationChainage b = s.stationChainage b' ∧ h ≤ h') :
    s.nearest st s.incidents = some (h, i) := by
  have at_anchor {h : Nat} {i : Incident} {b : Nat} (k : s.trackable st h i b) :
      s.anchorChainage i = s.stationChainage b := by
    obtain ⟨_, _, anchor, _⟩ := k
    simp [State.anchorChainage, anchor]
  obtain ⟨listed, qualified⟩ := (trackable_iff hr).1 ⟨b, own⟩
  refine ((nearest_spec s st s.incidents ((rising_iff _).1 hr)).1 h i).2 ⟨listed, qualified, fun h' i' m' q' => ?_⟩
  obtain ⟨b', other⟩ := (trackable_iff hr).2 ⟨m', q'⟩
  rw [at_anchor own, at_anchor other]
  exact first h' i' b' other

/-- With no such record none is found. -/
theorem nearest_of_no_trackable {s : State} (hr : s.incidents.rising = true) {st : Nat}
    (no : ∀ h i b, ¬s.trackable st h i b) : s.nearest st s.incidents = none := by
  refine (nearest_spec s st s.incidents ((rising_iff _).1 hr)).2.2 fun h i listed => ?_
  by_contra qualified
  obtain ⟨b, k⟩ := (trackable_iff hr).2 ⟨listed, Bool.eq_true_of_not_eq_false qualified⟩
  exact no h i b k

theorem lowestFree_eq_none {α : Type} {t : Table α} {cap : Nat} (h : ∀ k, k < cap → t.look k ≠ none) :
    t.lowestFree cap = none := by
  cases e : t.lowestFree cap with
  | none => rfl
  | some n =>
    obtain ⟨below, free, _⟩ := lowestFree_eq_some.1 e
    exact absurd free (h n below)

/-! ### What a confirmation does (R120) -/

/-- The record found is moved to the station, with one TRACKED event that names its old anchor. -/
theorem raiseOrTrack_tracks {s : State} {st h : Nat} {i : Incident} (found : s.nearest st s.incidents = some (h, i)) :
    let i' : Incident := { i with anchor := some st, start := s.stationChainage st, stop := s.stationChainage st,
                                  expiry := some (s.geo.params.wrongway.expiry * 1000) }
    s.raiseOrTrack st = s.incidentChanged (s.incidents.put h i') .tracked h i' i.anchor := by
  simp only [State.raiseOrTrack, found]

/-- With none to track a new WRONG_WAY record takes the lowest free slot. -/
theorem raiseOrTrack_raises {s : State} {st h : Nat} (no : s.nearest st s.incidents = none)
    (free : s.incidents.lowestFree incidentSlots = some h) :
    let i' : Incident :=
      { kind := .wrongWay, origin := .detection, start := s.stationChainage st, stop := s.stationChainage st, lanes := none,
        cap := none, legend := none, anchor := some st, expiry := some (s.geo.params.wrongway.expiry * 1000),
        raised := s.clock }
    s.raiseOrTrack st = s.incidentChanged (s.incidents.put h i') .raised h i' none := by
  simp only [State.raiseOrTrack, no, free]

/-- With none to track and no free slot the loss is recorded. -/
theorem raiseOrTrack_full {s : State} {st : Nat} (no : s.nearest st s.incidents = none)
    (full : s.incidents.lowestFree incidentSlots = none) :
    s.raiseOrTrack st = s.record .plan .detectionTableFull .fault none (some st) := by
  simp only [State.raiseOrTrack, no, full]

/-! ### The window of a station (R110, R111) -/

/-- Below the threshold the window alone changes. -/
theorem reversePassage_below {s : State} {st lane : Nat} {x : StationState} (entry : s.traffic.look st = some x)
    (few : (windowAfter s.geo.params.wrongway.window s.clock lane x.window).length < s.geo.params.wrongway.threshold) :
    s.reversePassage st lane = { s with
      traffic := s.traffic.put st
        { x with window := windowAfter s.geo.params.wrongway.window s.clock lane x.window } } := by
  simp [State.reversePassage, entry, Nat.not_le.2 few]

/-- At the threshold the window is emptied and the alert raised before R120 is carried out. -/
theorem reversePassage_confirms {s : State} {st lane : Nat} {x : StationState} (entry : s.traffic.look st = some x)
    (many : s.geo.params.wrongway.threshold ≤
      (windowAfter s.geo.params.wrongway.window s.clock lane x.window).length) :
    s.reversePassage st lane =
      State.raiseOrTrack st
        (State.raise (.wrongWayAlert st (s.stationChainage st) lane
            ((windowAfter s.geo.params.wrongway.window s.clock lane x.window).map fun e => e.clock))
          { s with traffic := s.traffic.put st { x with window := [] } }) := by
  simp [State.reversePassage, entry, many]

/-- Settles O56, by the length of the window, then by whether a record can be tracked and whether a slot is free. -/
theorem wrongWayDriverIsConfirmed : Obligations.WrongWayDriverIsConfirmed := by
  intro s st lane x r wf entry station p w0 w
  have here : s.stationChainage st = r.chainage := by simp [State.stationChainage, station]
  refine ⟨fun few => ?_, fun many => ?_⟩
  · rw [reversePassage_below entry few]
    exact ⟨look_put_self .., fun k other => look_put_other _ _ other, rfl⟩
  refine ⟨s.traffic.put st { x with window := [] }, look_put_self .., fun k other => look_put_other _ _ other, ?_⟩
  intro a chainage tracks
  have confirms : s.reversePassage st lane = a.raiseOrTrack st := by
    rw [reversePassage_confirms entry many, here]
    rfl
  obtain ⟨incidents, geo, clock⟩ : a.incidents = s.incidents ∧ a.geo = s.geo ∧ a.clock = s.clock := by
    dsimp only [a]
    rw [raise_frame]
    exact ⟨rfl, rfl, rfl⟩
  have rising : a.incidents.rising = true := incidents ▸ wf.incidents.1
  have stands (k : Nat) : a.stationChainage k = chainage k := by
    dsimp only [State.stationChainage, chainage]
    rw [geo]
    cases s.geo.stations.look k <;> rfl
  have at_st : a.stationChainage st = r.chainage := by
    rw [stands]
    simp only [chainage, station]
  have trackable (h : Nat) (i : Incident) (b : Nat) : a.trackable st h i b ↔ tracks h i b := by
    simp only [State.trackable, tracks, stands b, at_st, incidents, geo, p]
  refine ⟨fun h i b own first => ?_, fun no => ?_⟩
  · have found := nearest_of_trackable rising ((trackable h i b).2 own) fun h' i' b' other => by
      rw [stands, stands]
      exact first h' i' b' ((trackable h' i' b').1 other)
    have tracked := raiseOrTrack_tracks found
    obtain ⟨_, _, anchor, _⟩ := own
    rw [at_st, geo, incidents, anchor] at tracked
    exact ⟨_, look_put_self .., fun k other => look_put_other _ _ other, confirms.trans tracked⟩
  have none_found := nearest_of_no_trackable rising fun h i b k => no h i b ((trackable h i b).1 k)
  refine ⟨fun h below free taken => ?_, fun full => ?_⟩
  · have raised := raiseOrTrack_raises none_found (lowestFree_eq_some.2 ⟨below, incidents ▸ free, incidents ▸ taken⟩)
    rw [at_st, geo, clock, incidents] at raised
    exact ⟨_, look_put_self .., fun k other => look_put_other _ _ other, confirms.trans raised⟩
  · rw [confirms]
    exact raiseOrTrack_full none_found (lowestFree_eq_none (incidents ▸ full))

end Sys2Proof.Machine
end

section
/-! The filter, the level and queue machines of a station and its close (O55). -/

namespace Sys2Proof.Machine

/-! ### The filter (R101) -/

/-- One step of the filter does not leave the natural numbers. -/
theorem smooth_eq (k x v : Nat) : (smooth k x v : Int) = (x : Int) + ((16 * v : Int) - x) / 2 ^ k := by
  have pos : (0 : Int) < 2 ^ k := by positivity
  have floor : -(x : Int) ≤ ((16 * v : Int) - x) / 2 ^ k := by
    rw [Int.le_ediv_iff_mul_le pos]
    nlinarith
  exact Int.toNat_of_nonneg (by omega)

/-- A value at or below 16 times the interval value rises, not beyond it. -/
theorem smooth_rises {k x v : Nat} (h : x ≤ 16 * v) : x ≤ smooth k x v ∧ smooth k x v ≤ 16 * v := by
  have step := smooth_eq k x v
  have up : 0 ≤ ((16 * v : Int) - x) / 2 ^ k := Int.ediv_nonneg (by omega) (by positivity)
  have short : ((16 * v : Int) - x) / 2 ^ k ≤ (16 * v : Int) - x := Int.ediv_le_self _ (by omega)
  omega

/-- A value at or above 16 times the interval value falls, not beyond it. -/
theorem smooth_falls {k x v : Nat} (h : 16 * v ≤ x) : 16 * v ≤ smooth k x v ∧ smooth k x v ≤ x := by
  have step := smooth_eq k x v
  have pos : (0 : Int) < 2 ^ k := by positivity
  have down : ((16 * v : Int) - x) / 2 ^ k < 1 := by
    rw [Int.ediv_lt_iff_lt_mul pos]
    omega
  have short : (16 * v : Int) - x ≤ ((16 * v : Int) - x) / 2 ^ k := by
    rw [Int.le_ediv_iff_mul_le pos]
    nlinarith
  omega

/-! ### The congestion level machine (R103, R104) -/

theorem rank_injective {x y : Level} (h : x.rank = y.rank) : x = y := by
  cases x <;> cases y <;> simp_all [Level.rank]

/-- The level one below is the one whose place is one lower. -/
theorem down_of_rank {x y : Level} (h : x.rank + 1 = y.rank) : y.down = x := by
  refine rank_injective (Nat.succ_injective (Eq.trans ?_ h.symm))
  cases y with
  | clear => exact absurd h (Nat.succ_ne_zero _)
  | l1 | l2 | l3 => rfl

/-- The flow calls for a level: it is present and its flow_on is no greater (R103). -/
def CongestionParams.calls (c : CongestionParams) (q : Nat) (x : Level) : Prop :=
  ∃ l, c.level x = some l ∧ l.flowOn ≠ 0 ∧ l.flowOn ≤ q

theorem calledBy_iff {c : CongestionParams} {q : Nat} {x : Level} {l : LevelParams} (h : c.level x = some l) :
    l.calledBy q = true ↔ c.calls q x := by
  simp [CongestionParams.calls, h, LevelParams.calledBy, LevelParams.present]

/-- The highest level called for is NONE or one that is called for, and none above it is. -/
theorem highest_spec (c : CongestionParams) (q : Nat) :
    (c.highest q = .clear ∨ c.calls q (c.highest q)) ∧ ∀ x, c.calls q x → x.rank ≤ (c.highest q).rank := by
  have calls1 : c.l1.calledBy q = true ↔ c.calls q .l1 := calledBy_iff rfl
  have calls2 : c.l2.calledBy q = true ↔ c.calls q .l2 := calledBy_iff rfl
  have calls3 : c.l3.calledBy q = true ↔ c.calls q .l3 := calledBy_iff rfl
  unfold CongestionParams.highest
  split
  · next h3 => exact ⟨.inr (calls3.1 h3), fun x _ => by cases x <;> decide⟩
  · next no3 =>
    split
    · next h2 =>
      refine ⟨.inr (calls2.1 h2), fun x hx => ?_⟩
      cases x with
      | l3 => exact absurd (calls3.2 hx) no3
      | clear | l1 | l2 => decide
    · next no2 =>
      split
      · next h1 =>
        refine ⟨.inr (calls1.1 h1), fun x hx => ?_⟩
        cases x with
        | l3 => exact absurd (calls3.2 hx) no3
        | l2 => exact absurd (calls2.2 hx) no2
        | clear | l1 => decide
      · next no1 =>
        refine ⟨.inl rfl, fun x hx => ?_⟩
        cases x with
        | l3 => exact absurd (calls3.2 hx) no3
        | l2 => exact absurd (calls2.2 hx) no2
        | l1 => exact absurd (calls1.2 hx) no1
        | clear => decide

/-- A level that is called for while no higher one is, is the highest. -/
theorem highest_eq {c : CongestionParams} {q : Nat} {x : Level} (called : c.calls q x)
    (top : ∀ z : Level, x.rank < z.rank → ¬c.calls q z) : c.highest q = x := by
  obtain ⟨own, above⟩ := highest_spec c q
  refine rank_injective (Nat.le_antisymm (Nat.le_of_not_lt fun higher => ?_) (above x called))
  obtain clear | other := own
  · rw [clear] at higher
    exact absurd higher (Nat.not_lt_zero _)
  · exact top _ higher other

theorem levelMachine_rises {c : CongestionParams} {q : Nat} {t : StationState} (h : t.level.rank < (c.highest q).rank) :
    levelMachine c q t = { t with level := c.highest q, levelCount := 0 } :=
  if_pos h

/-- At NONE, with no level called for, the machine rests. -/
theorem levelMachine_rests {c : CongestionParams} {q : Nat} {t : StationState} (h : (c.highest q).rank ≤ t.level.rank)
    (clear : c.level t.level = none) : levelMachine c q t = t := by
  rw [levelMachine, if_neg (Nat.not_lt.2 h), clear]

/-- At a level with no higher one called for, the machine counts the closes below flow_off and drops one step. -/
theorem levelMachine_holds {c : CongestionParams} {q : Nat} {t : StationState} {l : LevelParams}
    (h : (c.highest q).rank ≤ t.level.rank) (at_ : c.level t.level = some l) :
    levelMachine c q t =
      if q < l.flowOff then
        if c.releaseCount ≤ t.levelCount + 1 then { t with level := t.level.down, levelCount := 0 }
        else { t with levelCount := t.levelCount + 1 }
      else { t with levelCount := 0 } := by
  rw [levelMachine, if_neg (Nat.not_lt.2 h), at_]

theorem level_eq_none {c : CongestionParams} {x : Level} : c.level x = none ↔ x = .clear := by
  cases x <;> simp [CongestionParams.level]

/-- A level that is present stays; of any other the highest present one below is taken. -/
theorem floorLevel_of_level {c : CongestionParams} {x : Level} {l : LevelParams} (h : c.level x = some l) :
    c.floorLevel x = if l.flowOn ≠ 0 then x else c.floorLevel x.down := by
  cases x with
  | clear => cases h
  | l1 | l2 | l3 =>
    cases h
    simp [CongestionParams.floorLevel, LevelParams.present, Level.down]

/-- What `floorLevel` answers: a present level or NONE, no higher than the one given, with no present one between. -/
structure FloorOf (c : CongestionParams) (x y : Level) : Prop where
  present : ∀ m, c.level y = some m → m.flowOn ≠ 0
  le : y.rank ≤ x.rank
  between : ∀ (z : Level) (m : LevelParams), y.rank < z.rank → z.rank ≤ x.rank → c.level z = some m → m.flowOn = 0

/-- One level up: what holds of the level below carries over. -/
theorem floorLevel_up {c : CongestionParams} {x : Level} {l : LevelParams} (h : c.level x = some l)
    (below : FloorOf c x.down (c.floorLevel x.down)) : FloorOf c x (c.floorLevel x) := by
  have step : x.down.rank + 1 = x.rank := by
    cases x with
    | clear => cases h
    | l1 | l2 | l3 => rfl
  rw [floorLevel_of_level h]
  split
  · next here =>
    refine ⟨fun m hm => ?_, Nat.le_refl _, fun z m low high _ => absurd high (Nat.not_le.2 low)⟩
    obtain rfl := Option.some.inj (h.symm.trans hm)
    exact here
  · next absent =>
    refine ⟨below.present, by have := below.le; omega, fun z m low high hz => ?_⟩
    obtain lower | here := Nat.lt_or_eq_of_le high
    · exact below.between z m low (by omega) hz
    · obtain rfl := rank_injective here
      obtain rfl := Option.some.inj (h.symm.trans hz)
      exact not_not.1 absent

theorem floorLevel_spec (c : CongestionParams) (x : Level) : FloorOf c x (c.floorLevel x) := by
  have h0 : FloorOf c .clear (c.floorLevel .clear) :=
    ⟨nofun, Nat.le_refl _, fun _ _ low high _ => absurd high (Nat.not_le.2 low)⟩
  have h1 : FloorOf c .l1 (c.floorLevel .l1) := floorLevel_up rfl h0
  have h2 : FloorOf c .l2 (c.floorLevel .l2) := floorLevel_up rfl h1
  cases x with
  | clear => exact h0
  | l1 => exact h1
  | l2 => exact h2
  | l3 => exact floorLevel_up rfl h2

/-- A level that is present, or NONE, is left by the adjustment. -/
theorem adjustLevel_present {c : CongestionParams} {t : StationState}
    (h : ∀ l, c.level t.level = some l → l.flowOn ≠ 0) : adjustLevel c t = t := by
  refine if_pos ?_
  cases hl : c.level t.level with
  | none => rw [level_eq_none.1 hl]; rfl
  | some l => rw [floorLevel_of_level hl, if_pos (h l hl)]

theorem adjustLevel_absent {c : CongestionParams} {t : StationState} {l : LevelParams} (hl : c.level t.level = some l)
    (absent : l.flowOn = 0) :
    (c.floorLevel t.level).rank < t.level.rank ∧
      adjustLevel c t = { t with level := c.floorLevel t.level, levelCount := 0 } := by
  have spec := floorLevel_spec c t.level
  have moved : c.floorLevel t.level ≠ t.level := fun e => spec.present l (by rw [e, hl]) absent
  exact ⟨Nat.lt_of_le_of_ne spec.le fun e => moved (rank_injective e), if_neg moved⟩

/-! ### The close of one station (R97 to R102, R108) -/

theorem lanes_eq_zero (ls : List LaneResult) :
    (stationSums ls).lanes = 0 ↔ ∀ y ∈ ls, y.report.included = false := by
  simp [stationSums_eq]

theorem lanes_ne_zero (ls : List LaneResult) :
    (stationSums ls).lanes ≠ 0 ↔ ∃ y ∈ ls, y.report.included = true := by
  simp [lanes_eq_zero]

/-- The record after a close with an included lane. -/
theorem closedStation_valid {ls : List LaneResult} (h : (stationSums ls).lanes ≠ 0) (p : Params) (adjust : Bool)
    (x : StationState) : closedStation p adjust ls x =
      validClose p (stationSums ls) (if adjust then adjustLevel p.congestion x else x) :=
  if_pos (bne_iff_ne.2 h)

/-- The record after a close without one. -/
theorem closedStation_invalid {ls : List LaneResult} (h : (stationSums ls).lanes = 0) (p : Params) (adjust : Bool)
    (x : StationState) : closedStation p adjust ls x =
      invalidClose (if adjust then adjustLevel p.congestion x else x) :=
  if_neg (by simp [h])

/-- R108: the count rises, and at the third the level is NONE. -/
theorem invalidClose_eq (x : StationState) :
    let n := min 255 (x.invalidCloses + 1)
    invalidClose x =
      { x with valid := false, v := none, f := none, invalidCloses := n,
               level := if n = 3 then .clear else x.level, levelCount := if n = 3 then 0 else x.levelCount } := by
  dsimp only
  unfold invalidClose satAdd
  dsimp only
  split <;> rfl

/-- What a close makes known, but for STATION_INVALID: its STATION_REPORT. -/
theorem stationClosed_report {ls : List LaneResult} {x : StationState}
    (h : (stationSums ls).lanes ≠ 0 ∨ x.invalidCloses ≠ 3) (now : Clock) (st : Nat) (s : State) :
    s.stationClosed now st ls x =
      State.raise (.stationReport st now (ls.map fun y => y.report) x) { s with traffic := s.traffic.put st x } := by
  unfold State.stationClosed
  dsimp only
  rw [if_neg fun k => h.elim (fun lanes => lanes (bne_eq_false_iff_eq.1 k.1)) fun few => few k.2]

/-- The third INVALID close records STATION_INVALID before its STATION_REPORT (R97, R108). -/
theorem stationClosed_third {ls : List LaneResult} {x : StationState} (h : (stationSums ls).lanes = 0)
    (h3 : x.invalidCloses = 3) (now : Clock) (st : Nat) (s : State) :
    s.stationClosed now st ls x =
      State.raise (.stationReport st now (ls.map fun y => y.report) x)
        (State.record .measure .stationInvalid .fault ((s.geo.stations.look st).map fun r => r.host) (some st)
          { s with traffic := s.traffic.put st x }) := by
  unfold State.stationClosed
  dsimp only
  rw [if_pos ⟨bne_eq_false_iff_eq.2 h, h3⟩]
  rfl

theorem stationClosed_traffic (now : Clock) (st : Nat) (ls : List LaneResult) (x : StationState) (s : State) :
    (s.stationClosed now st ls x).traffic = s.traffic.put st x := by
  unfold State.stationClosed State.measureError
  rw [raise_frame]
  split
  · rw [record_frame]
  · rfl

/-- Settles O55, machine by machine, then the two closes of a station. -/
theorem trafficMachinesFollowTheirRules : Obligations.TrafficMachinesFollowTheirRules := by
  refine ⟨fun k x v _ _ => ⟨smooth_eq k x v, smooth_rises, smooth_falls⟩, fun c q t => ⟨?_, ?_, adjustLevel_present, ?_⟩,
    fun q v t => ⟨fun off => ⟨fun low => ?_, fun high => ?_⟩,
      fun on => ⟨fun low => ?_, fun high few => ?_, fun high many => ?_⟩⟩,
    fun p ls t => ?_, fun s st now ls x0 adjust entry => ?_⟩
  -- R103
  · intro x called higher top
    have high := highest_eq called top
    rw [levelMachine_rises (high ▸ higher), high]
  · intro none_above
    have still : (c.highest q).rank ≤ t.level.rank := by
      obtain clear | called := (highest_spec c q).1
      · rw [clear]; exact Nat.zero_le _
      · exact none_above _ called
    refine ⟨fun clear => levelMachine_rests still (level_eq_none.2 clear), fun l hl => ?_⟩
    rw [levelMachine_holds still hl]
    refine ⟨fun high => if_neg (Nat.not_lt.2 high), fun low few => ?_, fun x low many one => ?_⟩
    · rw [if_pos low, if_neg (Nat.not_le.2 few)]
    · rw [if_pos low, if_pos many, down_of_rank one]
  -- R104
  · intro l hl absent
    have spec := floorLevel_spec c t.level
    obtain ⟨lower, moved⟩ := adjustLevel_absent hl absent
    exact ⟨_, moved, lower, spec.present, fun z m low high => spec.between z m low (Nat.le_of_lt high)⟩
  -- R106
  · simp [queueMachine, off, low]
  · simp [queueMachine, off, Nat.not_lt.2 high]
  · simp [queueMachine, on, Nat.not_lt.2 low]
  · simp [queueMachine, on, high, Nat.not_le.2 few]
  · simp [queueMachine, on, high, many]
  -- R98 to R102
  · rw [stationSums_eq]
    rfl
  -- R97, R108
  · intro t x n held report
    have closed : t = s.stationClosed now st ls (closedStation s.geo.params adjust ls x0) := closeStation_some entry ..
    have traffic : t.traffic = s.traffic.put st (closedStation s.geo.params adjust ls x0) := by
      rw [closed, stationClosed_traffic]
    refine ⟨fun k other => ?_, fun included => ?_, fun excluded => ?_⟩
    · rw [traffic, look_put_other _ _ other]
    · have lanes := (lanes_ne_zero ls).2 included
      rw [closedStation_valid lanes] at closed traffic
      refine ⟨by rw [traffic, look_put_self], ?_⟩
      rw [traffic, closed, stationClosed_report (.inl lanes)]
    · have lanes := (lanes_eq_zero ls).2 excluded
      have after : closedStation s.geo.params adjust ls x0 = held :=
        (closedStation_invalid lanes ..).trans (invalidClose_eq x)
      rw [after] at closed traffic
      refine ⟨by rw [traffic, look_put_self], fun few => ?_, fun third => ?_⟩
      · rw [traffic, closed, stationClosed_report (.inr few)]
      · rw [traffic, closed, stationClosed_third lanes third]

end Sys2Proof.Machine
end

section
/-! What a pass wants of each sign and shows (O58). -/

namespace Sys2Proof.Machine

/-! ### The negotiation (R146, R147) -/

/-- The negotiation of a sign of either kind. -/
def negotiate (caps : List Aspect) : SignKind → Aspect → Aspect
  | .lane _ => negotiateLane caps
  | .panel => negotiatePanel caps

/-- What a sign shows of a wanted aspect, aspect by aspect. -/
structure Negotiated (caps : List Aspect) (wanted shown : Aspect) : Prop where
  offered : shown = .blank ∨ shown ∈ caps
  blank : wanted = .blank → shown = .blank
  speed : ∀ v, wanted = .speed v → (shown = .blank ∨ ∃ u, shown = .speed u ∧ u ≤ v) ∧
    ∀ w, .speed w ∈ caps → w ≤ v → ∃ u, shown = .speed u ∧ w ≤ u
  closed : wanted = .closed → shown = if .closed ∈ caps then .closed else .blank
  divert : ∀ d, wanted = .divert d →
    shown = if .divert d ∈ caps then .divert d else if .closed ∈ caps then .closed else .blank
  legend : ∀ m, wanted = .legend m → shown = if .legend m ∈ caps then .legend m else .blank

/-- A speed is shown as the greatest listed one that is no greater (R146). -/
theorem negotiated_speed (caps : List Aspect) (v : Nat) : Negotiated caps (.speed v) (negotiateLane caps (.speed v)) := by
  obtain ⟨listed, greatest⟩ := bestSpeed_spec caps v
  cases best : bestSpeed caps v with
  | none =>
    have shown : negotiateLane caps (.speed v) = .blank := by simp only [negotiateLane, best]
    rw [shown]
    refine ⟨.inl rfl, nofun, fun v' e => ?_, nofun, nofun, nofun⟩
    cases e
    refine ⟨.inl rfl, fun w hw le => ?_⟩
    obtain ⟨u, found, _⟩ := greatest w hw le
    exact nomatch best.symm.trans found
  | some u =>
    have shown : negotiateLane caps (.speed v) = .speed u := by simp only [negotiateLane, best]
    obtain ⟨offered, below⟩ := listed u best
    rw [shown]
    refine ⟨.inr offered, nofun, fun v' e => ?_, nofun, nofun, nofun⟩
    cases e
    refine ⟨.inr ⟨u, rfl, below⟩, fun w hw le => ⟨u, rfl, ?_⟩⟩
    obtain ⟨u', found, above⟩ := greatest w hw le
    exact Option.some.inj (best.symm.trans found) ▸ above

/-- CLOSED, a DIVERT or a LEGEND is shown as itself where it is listed; a DIVERT that is not, as CLOSED where that is. -/
theorem negotiated_listed {caps : List Aspect} {a : Aspect} (h : a ∈ caps) (hs : ∀ v, a ≠ .speed v) :
    Negotiated caps a a :=
  ⟨.inr h, id, fun v e => absurd e (hs v), fun e => e ▸ (if_pos (e ▸ h)).symm, fun _ e => e ▸ (if_pos (e ▸ h)).symm,
    fun _ e => e ▸ (if_pos (e ▸ h)).symm⟩

/-- What a sign's kind can show is negotiated by R146 and R147. -/
theorem negotiate_spec (caps : List Aspect) {k : SignKind} {a : Aspect} (h : Aspect.fits k a = true) :
    Negotiated caps a (negotiate caps k a) := by
  cases a with
  | blank =>
    have shown : negotiate caps k .blank = .blank := by cases k <;> rfl
    rw [shown]
    exact ⟨.inl rfl, fun _ => rfl, nofun, nofun, nofun, nofun⟩
  | speed v =>
    cases k with
    | panel => cases h
    | lane p => exact negotiated_speed caps v
  | closed =>
    cases k with
    | panel => cases h
    | lane p =>
      simp only [negotiate, negotiateLane, List.contains_eq_mem, decide_eq_true_eq]
      split
      · next listed => exact negotiated_listed listed nofun
      · next absent => exact ⟨.inl rfl, nofun, nofun, fun _ => (if_neg absent).symm, nofun, nofun⟩
  | divert d =>
    cases k with
    | panel => cases h
    | lane p =>
      simp only [negotiate, negotiateLane, List.contains_eq_mem, decide_eq_true_eq]
      refine ⟨?_, nofun, nofun, nofun, fun d' e => by cases e; rfl, nofun⟩
      split
      · next listed => exact .inr listed
      · split
        · next listed => exact .inr listed
        · exact .inl rfl
  | legend m =>
    cases k with
    | lane p => cases h
    | panel =>
      simp only [negotiate, negotiatePanel, List.contains_eq_mem, decide_eq_true_eq]
      split
      · next listed => exact negotiated_listed listed nofun
      · next absent => exact ⟨.inl rfl, nofun, nofun, nofun, nofun, fun m' e => by cases e; exact (if_neg absent).symm⟩

/-! ### The target of a sign (R144, R145, R148, R149) -/

section Settled

variable {n : Snapshot} {g : Nat} {r : GantryRec} {down : Option (GantryRec × Target)} {c : Carry}

/-- What is not shown of a sign's wanted aspect is handed on to g−1, or it is the panel's. -/
def Snapshot.carried (n : Snapshot) (g : Nat) : SignKind → Bool
  | .lane p => n.carries g p
  | .panel => true

theorem settleSign_eq (k : SignKind) (caps : List Aspect) :
    n.settleSign g r down c (k, caps) =
      signTarget (n.wanted g r down c k) (negotiate caps k (n.wanted g r down c k)) (n.carried g k) := by
  cases k <;> rfl

theorem carries_iff {p : Nat} : n.carries g p = true ↔
    ∃ q, n.gantries.look (g - 1) = some q ∧ g - 1 ∈ n.contin ∧ q.lanes.getLsbD p = true := by
  unfold Snapshot.carries
  cases n.gantries.look (g - 1) <;> simp [LaneSet.holds]

/-- A lane signal wants its cell aspect, else the gantry speed, else BLANK (R144). -/
theorem wanted_lane_cell {p : Nat} {a : Cell} (h : n.wantedCell g r down c p = some a) :
    n.wanted g r down c (.lane p) = a.toAspect := by
  simp only [Snapshot.wanted, h]
  cases a <;> rfl

theorem wanted_lane_speed {p v : Nat} (h : n.wantedCell g r down c p = none) (hv : n.gantrySpeed g r down c = some v) :
    n.wanted g r down c (.lane p) = .speed v := by
  simp only [Snapshot.wanted, h, hv]

theorem wanted_lane_blank {p : Nat} (h : n.wantedCell g r down c p = none) (hv : n.gantrySpeed g r down c = none) :
    n.wanted g r down c (.lane p) = .blank := by
  simp only [Snapshot.wanted, h, hv]

theorem wanted_fits (k : SignKind) : Aspect.fits k (n.wanted g r down c k) = true := by
  cases k with
  | lane p =>
    cases h : n.wantedCell g r down c p with
    | some a => rw [wanted_lane_cell h]; cases a <;> rfl
    | none =>
      cases hv : n.gantrySpeed g r down c with
      | some v => rw [wanted_lane_speed h hv]; rfl
      | none => rw [wanted_lane_blank h hv]; rfl
  | panel =>
    simp only [Snapshot.wanted]
    split <;> rfl

/-- No gantry speed is above corridor_max (R138). -/
theorem gantrySpeed_le {v : Nat} (h : n.gantrySpeed g r down c = some v) : v ≤ n.plan.corridorMax := by
  obtain ⟨u, _, rfl⟩ := List.mem_map.1 (lowest_mem _ _ h)
  exact Nat.min_le_right ..

end Settled

/-! ### The targets of a pass (R139) -/

theorem targets_keys (n : Snapshot) : n.targets.keys = n.gantries.keys := by
  unfold Snapshot.targets Table.keys
  rw [List.map_reverse, sweep_keys, List.map_reverse, List.reverse_reverse]

/-- Each target settles a gantry of the snapshot; where these stand in rising number, with the finished target of the
gantry below. -/
theorem targets_settled {n : Snapshot} {g : Nat} {t : Target} (h : (g, t) ∈ n.targets) :
    ∃ r down c, (g, r) ∈ n.gantries ∧ t = n.settle g r down c ∧
      (n.gantries.rising = true → c = carryFrom down ∧ ∀ r' t', down = some (r', t') ↔ n.below g r' t') := by
  by_cases hr : n.gantries.rising = true
  · obtain ⟨r, down, listed, settled, below⟩ := targets_spec hr h
    exact ⟨r, down, _, mem_of_look listed, settled, fun _ => ⟨rfl, below⟩⟩
  · obtain ⟨r, down, c, listed, settled⟩ := sweep_mem _ _ (List.mem_reverse.1 h)
    exact ⟨r, down, c, List.mem_reverse.1 listed, settled, fun k => absurd k hr⟩

/-! ### The marks of a sign (R148, R149) -/

theorem signTarget_unserved (w s : Aspect) (b : Bool) :
    (signTarget w s b).unserved = true ↔ w ≠ .blank ∧ s = .blank := by simp [signTarget]

theorem signTarget_mismatch (w s : Aspect) (b : Bool) : (signTarget w s b).mismatch = true ↔ s ≠ w := by
  simp [signTarget]

/-- A sign is lost where it is unserved and its wanted aspect is not handed on. -/
theorem signTarget_lost (w s : Aspect) (b : Bool) :
    (signTarget w s b).lost = true ↔ (signTarget w s b).unserved = true ∧ b = false := by simp [signTarget]

/-! ### What a gantry's signs want, in the words of the rules (R140 to R145) -/

section Wanted

variable {n : Snapshot} (hr : n.gantries.rising = true) {g : Nat} {r : GantryRec} {down : Option (GantryRec × Target)}
  (below : ∀ r' t', down = some (r', t') ↔ n.below g r' t')

include hr below

theorem wanted_lane_spec {p : Nat} (hp : r.lanes.getLsbD p = true) :
    (∀ a : Cell, n.wantsCell g r p a → n.wanted g r down (carryFrom down) (.lane p) = a.toAspect) ∧
      ((∀ a : Cell, ¬n.wantsCell g r p a) →
        (∀ v, n.gantrySpeed g r down (carryFrom down) = some v →
          n.wanted g r down (carryFrom down) (.lane p) = .speed v) ∧
        (n.gantrySpeed g r down (carryFrom down) = none → n.wanted g r down (carryFrom down) (.lane p) = .blank)) := by
  have cell := wantedCell_iff hr below hp
  refine ⟨fun a wants => wanted_lane_cell ((cell a).2 wants), fun no => ?_⟩
  have no_cell : n.wantedCell g r down (carryFrom down) p = none :=
    Option.eq_none_iff_forall_ne_some.2 fun a e => no a ((cell a).1 e)
  exact ⟨fun v => wanted_lane_speed no_cell, wanted_lane_blank no_cell⟩

theorem wanted_panel_spec :
    (∀ m, n.asksLegend g r m → (∀ u, n.asksLegend g r u → m ≤ u) →
        n.wanted g r down (carryFrom down) .panel = .legend m) ∧
      ((∀ m, ¬n.asksLegend g r m) → n.wanted g r down (carryFrom down) .panel = .blank) := by
  have asked := mem_legends (q := r) hr below
  refine ⟨fun m asks least => ?_, fun no => ?_⟩
  · simp only [Snapshot.wanted, (lowest_of asked m).2 ⟨asks, least⟩]
  · have empty := (lowest_eq_none _).2 (List.eq_nil_iff_forall_not_mem.2 fun m hm => no m ((asked m).1 hm))
    simp only [Snapshot.wanted, empty]

end Wanted

/-- Settles O58: each target settles a gantry, each of its signs by what `Snapshot.wanted` and `negotiate` give. -/
theorem planShowsOnlyWhatSignsOffer : Obligations.PlanShowsOnlyWhatSignsOffer := by
  intro n
  refine ⟨targets_keys n, fun g t listed => ?_⟩
  obtain ⟨r, down, c, gantry, rfl, ordered⟩ := targets_settled listed
  refine ⟨fun v => gantrySpeed_le, r, gantry, ?_, fun hr v => ?_, fun i x k sign kind => ?_⟩
  · simp [Snapshot.settle, signLists_length]
  · obtain ⟨rfl, below⟩ := ordered hr
    exact gantrySpeed_iff hr below v
  intro list
  have settled : x = signTarget (n.wanted g r down c k) (negotiate list k (n.wanted g r down c k)) (n.carried g k) := by
    obtain ⟨k', kind', settled⟩ := settle_sign sign
    obtain rfl := Option.some.inj (kind.symm.trans kind')
    exact settled.trans (settleSign_eq k list)
  have fits : Aspect.fits k x.wanted = true := by rw [settled]; exact wanted_fits k
  have negotiated : Negotiated list x.wanted x.shown := by rw [settled]; exact negotiate_spec list (wanted_fits k)
  have shown_fits : Aspect.fits k x.shown = true := by
    rw [settled, ← settleSign_eq]
    exact settleSign_fits n g r down c (k, list)
  refine ⟨fun hr => ?_, negotiated.offered, fits, shown_fits, negotiated.blank, negotiated.speed, negotiated.closed,
    negotiated.divert, negotiated.legend, ?_, ?_, ?_⟩
  · obtain ⟨rfl, below⟩ := ordered hr
    refine ⟨?_, ?_⟩
    · rintro p rfl
      have lane : r.lanes.getLsbD p = true := by
        simpa [LaneSet.positions, LaneSet.holds] using (List.mem_filter.1 (kinds_lane.1 ⟨i, kind⟩)).2
      obtain ⟨cell, no_cell⟩ := wanted_lane_spec hr below lane
      rw [settled]
      refine ⟨cell, no_cell, ?_⟩
      rw [signTarget_lost, ← carries_iff, Bool.not_eq_true]
      rfl
    · rintro rfl
      obtain ⟨legend, no_legend⟩ := wanted_panel_spec (r := r) hr below
      rw [settled]
      exact ⟨legend, no_legend, by simp [signTarget, Snapshot.carried]⟩
  · rw [settled]
    exact signTarget_unserved ..
  · rw [settled]
    exact signTarget_mismatch ..
  · rw [settled, signTarget_lost]
    exact And.left

end Sys2Proof.Machine
end

section
/-! RAISE_INCIDENT, the expiry of a DETECTION record, and SHOULDER (O27, O31, O34). -/

namespace Sys2Proof.Machine

/-! ### INCIDENT_EXPIRY (R121) -/

/-- A changed incident table is the one that is stored: neither the notice nor the trigger touches it (R122). -/
@[simp] theorem incidentChanged_incidents (t : Table Incident) (c : IncidentChange) (h : Nat) (r : Incident)
    (previous : Option Nat) (s : State) : (s.incidentChanged t c h r previous).incidents = t := by
  rw [State.incidentChanged, trigger_frame, raise_frame]

/-- In RUN a DETECTION record with no time left is freed. -/
theorem expireIncident_frees {s : State} {h : Nat} {r : Incident} (hm : s.geo.mode = .run)
    (hr : s.incidents.look h = some r) (ho : r.origin = .detection) (he : r.expiry = some 0) :
    s.expireIncident h = s.incidentChanged (s.incidents.del h) .expired h r none := by
  simp only [State.expireIncident, hr]
  exact if_pos ⟨ho, he, hm⟩

/-- A record of another origin, or with time left, stays. -/
theorem expireIncident_stays {s : State} {h : Nat} {r : Incident} (hr : s.incidents.look h = some r)
    (hs : ¬(r.origin = .detection ∧ r.expiry = some 0)) : s.expireIncident h = s := by
  simp only [State.expireIncident, hr]
  exact if_neg fun k => hs ⟨k.1, k.2.1⟩

/-- Settles O31, by whether the record is one of DETECTION with no time left. -/
theorem detectionRecordExpires : Obligations.DetectionRecordExpires := by
  intro s h r high hm hr
  refine ⟨fun ho he => ?_, fun stays => whenRunning_self (expireIncident_stays hr ?_)⟩
  · have runs : exec (.incidentExpiry h) s = .next (s.expireIncident h) := whenRunning_eq high _
    rw [expireIncident_frees hm hr ho he] at runs
    refine ⟨_, runs, ?_, fun k hk => ?_, ?_⟩ <;> rw [incidentChanged_incidents]
    · exact look_del_self ..
    · exact look_del_other _ hk
    · rfl
  · rintro ⟨ho, he⟩
    rcases stays with sup | left
    · cases ho.symm.trans sup
    · exact left he

/-! ### SHOULDER (R129) -/

/-- R129 steps 3 to 5: what becomes of a request whose two values are in their ranges. -/
theorem handleShoulder_read {s : State} {n w : Byte} (hm : s.geo.mode = .run) (h1 : 1 ≤ n.toNat) (h4 : n.toNat ≤ 4)
    (hw : w.toNat ≤ 1) :
    handleShoulder s [n, w] =
      if s.sectionExists n.toNat = false then refuse s .notFound
      else if w = 0#8 ∧ s.shoulderConflict n.toNat = true then refuse s .conflict
      else if s.sections.look n.toNat = some (if w = 0#8 then .opened else .closed) then accept s
      else accept (State.trigger
        { s with sections := s.sections.put n.toNat (if w = 0#8 then .opened else .closed) }) := by
  simp only [handleShoulder, hm, reduceCtorEq, if_false]
  exact if_neg (by omega)

/-- A section that takes another state: the new sections, one trigger, and the reply. -/
theorem takeRequest_sectionsChanged {s : State} {ty : Byte} {f : Frame} {rest : List Frame} {fits : Byte → Bool}
    {h : State → List Byte → Answer} {x : Table Shoulder} (ht : s.takes ty f rest) (hf : fits ty = true)
    (ha : h { s with link := { s.link with rxQueue := rest } } f.payload =
      accept (State.trigger { s with link := { s.link with rxQueue := rest }, sections := x })) :
    ∃ t, takeRequest fits h s = .next t ∧ t.sections = x ∧
      t = State.trigger { s.answered f rest .ok .none with sections := t.sections } := by
  have kept (u : State) : u.trigger.sections = u.sections := by rw [trigger_frame]
  refine ⟨_, takeRequest_answer ht hf ha, ?_⟩
  dsimp only [accept]
  rw [trigger_placeReply, kept]
  exact ⟨rfl, rfl⟩

/-- A payload that is not two bytes long. -/
theorem handleShoulder_badLength {s : State} {p : List Byte} (hm : s.geo.mode = .run) (hl : p.length ≠ 2) :
    handleShoulder s p = refuse s .badLength := by
  simp only [handleShoulder, hm, reduceCtorEq, if_false]
  split
  · exact absurd rfl hl
  · rfl

/-- Settles O34: the payload, then the section, the closures in force and the state it has. -/
theorem shoulderChangesSection : Obligations.ShoulderChangesSection := by
  intro s f rest ht hm hr inSection closed
  have refused {r : Result} := takeRequest_refused (r := r) (d := .none) (fits := (· == 0x0E#8)) handleShoulder ht rfl
  let s' : State := { s with link := { s.link with rxQueue := rest } }
  have named (n : Nat) : s'.sectionExists n = true ↔ ∃ g, inSection n g := sectionExists_iff hr n
  have defined {n : Nat} (k : ∃ g, inSection n g) : ¬s'.sectionExists n = false := by simp [(named n).2 k]
  have conflict (n : Nat) : s'.shoulderConflict n = true ↔ closed n := shoulderConflict_iff hr n
  refine ⟨fun hl => refused (handleShoulder_badLength hm hl), fun n w hp => ⟨fun bad => refused ?_,
    fun h1 h4 hw no => refused ?_, fun h1 h4 some_gantry => ⟨fun hw hc => refused ?_, fun want hwant => ?_⟩⟩⟩
  · simp [handleShoulder, hm, hp, bad, refuse]
  · have answer := handleShoulder_read (s := s') (w := w) hm h1 h4 hw
    rw [hp, answer, if_pos (Bool.eq_false_iff.2 fun k => no ((named _).1 k))]
    rfl
  · have answer := handleShoulder_read (s := s') (w := w) hm h1 h4 (by simp [hw])
    rw [hp, answer, if_neg (defined some_gantry), if_pos ⟨hw, (conflict _).2 hc⟩]
    rfl
  · obtain ⟨hw, code, free⟩ : w.toNat ≤ 1 ∧ (if w = 0#8 then Shoulder.opened else .closed) = want ∧
        ¬(w = 0#8 ∧ s'.shoulderConflict n.toNat = true) := by
      rcases hwant with ⟨rfl, rfl, hc⟩ | ⟨rfl, rfl⟩
      · exact ⟨by decide, rfl, fun k => hc ((conflict _).1 k.2)⟩
      · exact ⟨by decide, rfl, by simp⟩
    have answer := handleShoulder_read (s := s') (w := w) hm h1 h4 hw
    rw [code, ← hp, if_neg (defined some_gantry), if_neg free] at answer
    refine ⟨fun same => refused (answer.trans (if_pos same)), fun differs => ?_⟩
    obtain ⟨t, e, sections, changed⟩ := takeRequest_sectionsChanged (fits := (· == 0x0E#8)) ht rfl
      (answer.trans (if_neg differs))
    exact ⟨t, e, by rw [sections]; exact look_put_self .., fun k hk => by rw [sections]; exact look_put_other _ _ hk,
      changed⟩

/-! ### RAISE_INCIDENT (R116) -/

theorem raiseIncident_badLength {s : State} {f : Frame} {rest : List Frame} (ht : s.takes 0x08#8 f rest)
    (hm : s.geo.mode = .run) (hp : parseRaise f.payload = .badLength) :
    exec .raiseIncident s = .next (s.answered f rest .badLength .none) :=
  takeRequest_refused handleRaiseIncident ht rfl (by simp [handleRaiseIncident, hm, hp, refuse])

theorem raiseIncident_badValue {s : State} {f : Frame} {rest : List Frame} (ht : s.takes 0x08#8 f rest)
    (hm : s.geo.mode = .run) (hp : parseRaise f.payload = .badValue) :
    exec .raiseIncident s = .next (s.answered f rest .badValue .none) :=
  takeRequest_refused handleRaiseIncident ht rfl (by simp [handleRaiseIncident, hm, hp, refuse])

/-- R116 step 4: no room for another record of SUPERVISOR origin, or no free slot. -/
theorem raiseIncident_tableFull {s : State} {f : Frame} {rest : List Frame} {q : RaiseReq} (ht : s.takes 0x08#8 f rest)
    (hm : s.geo.mode = .run) (hp : parseRaise f.payload = .ok q)
    (full : supervisorLimit ≤ s.supervisorCount ∨ s.incidents.lowestFree incidentSlots = none) :
    exec .raiseIncident s = .next (s.answered f rest .tableFull .none) := by
  refine takeRequest_refused handleRaiseIncident ht rfl ?_
  have count : State.supervisorCount { s with link := { s.link with rxQueue := rest } } = s.supervisorCount := rfl
  simp only [handleRaiseIncident, hm, hp, count, reduceCtorEq, if_false]
  split
  · rfl
  · next room =>
    rw [full.resolve_left room]
    rfl

/-- The record that a request stores (R116). -/
def RaiseReq.stored (q : RaiseReq) (clock : Clock) : Incident :=
  { kind := q.kind, origin := .supervisor, start := q.start, stop := q.stop, lanes := q.lanes, cap := storedCap q.cap,
    legend := q.legend, anchor := none, expiry := none, raised := clock }

/-- R116 step 5: a request that passes stores its record in the lowest free slot. -/
theorem raiseIncident_stores {s : State} {f : Frame} {rest : List Frame} {q : RaiseReq} {h : Nat}
    (ht : s.takes 0x08#8 f rest) (hm : s.geo.mode = .run) (hp : parseRaise f.payload = .ok q)
    (room : s.supervisorCount < supervisorLimit) (free : s.incidents.lowestFree incidentSlots = some h) :
    ∃ t, exec .raiseIncident s = .next t ∧ t.incidents = s.incidents.put h (q.stored s.clock) ∧
      t = State.trigger (State.raise (.incidentEvent .raised h (q.stored s.clock) none)
        { s.answered f rest (if storedCap q.cap = q.cap then .ok else .okClamped)
            (if storedCap q.cap = q.cap then .handle h else .handleClamped h [4]) with incidents := t.incidents }) := by
  have count : State.supervisorCount { s with link := { s.link with rxQueue := rest } } = s.supervisorCount := rfl
  refine takeRequest_incidentChanged (h := handleRaiseIncident) ht rfl ?_
  simp only [handleRaiseIncident, hm, hp, count, Nat.not_le.2 room, free, reduceCtorEq, if_false]
  by_cases hc : storedCap q.cap = q.cap
  · simp only [if_pos hc]
    rfl
  · simp only [if_neg hc]
    rfl

/-- The reply names the cap exactly where another one is stored than was sent (R116 step 3). -/
theorem storedCap_eq_iff (cap : Option Byte) : storedCap (cap.map fun v => v.toNat) = cap.map (fun v => v.toNat) ↔
    ∀ v, cap = some v → fitSpeed 20 130 v.toNat = v.toNat := by
  cases cap <;> simp [storedCap]

/-- The codes of the kinds (log 12). -/
theorem kindOfCode_of_mem {k : Byte} {kind : IncidentKind} (h : (k, kind) ∈ [(0#8, IncidentKind.laneClosure),
    (1#8, .carriagewayClosure), (2#8, .hazard), (3#8, .wrongWay)]) : kindOfCode k = some kind := by
  simp only [List.mem_cons, Prod.mk.injEq, List.not_mem_nil, or_false] at h
  rcases h with ⟨rfl, rfl⟩ | ⟨rfl, rfl⟩ | ⟨rfl, rfl⟩ | ⟨rfl, rfl⟩ <;> rfl

/-- Each code up to 3 names a kind. -/
theorem kindOfCode_of_le {k : Byte} (h : k.toNat ≤ 3) : ∃ kind, kindOfCode k = some kind := by
  obtain rfl | rfl | rfl | rfl : k = 0#8 ∨ k = 1#8 ∨ k = 2#8 ∨ k = 3#8 := by bv_omega
  all_goals exact ⟨_, rfl⟩

/-- A field of a length that some reading of its presence byte calls for (R116, log 14). -/
theorem fieldPiece_presence {x : List Byte}
    (h : (∃ p, x = [p] ∧ p ≠ 1#8) ∨ ∃ p v, x = [p, v] ∧ p ≠ 0#8) : FieldPiece presence 1 x := by
  rcases h with ⟨p, e, h1⟩ | ⟨p, v, e, h0⟩
  · refine .inl ⟨p, e, ?_⟩
    simp [presence, yesNo, h1]
  · refine .inr ⟨p, [v], e, rfl, ?_⟩
    simp [presence, yesNo, h0]

/-- Settles O27: what the payload reads as, then the room for a record and the slot it takes. -/
theorem raiseIncidentTakesLowestSlot : Obligations.RaiseIncidentTakesLowestSlot := by
  intro s f rest k s1 s0 e1 e0 lanes cap legend more ht hm field whole start stop fits lacks bad
  have sent (o : Option Byte) : field o = optSent o := by cases o <;> rfl
  have whole_eq : whole = k :: s1 :: s0 :: e1 :: e0 :: (optSent lanes ++ optSent cap ++ optSent legend) := by
    simp only [whole, sent]
  have reads (more : List Byte) : parseRaise (whole ++ more) =
      if more = [] ∧ ¬lacks then checkRaise k s1 s0 e1 e0 lanes cap legend else .badLength := by
    rw [whole_eq, ← parseRaise_sent]
    simp only [List.cons_append, List.append_assoc]
  have good (ok : ¬lacks) : parseRaise whole = checkRaise k s1 s0 e1 e0 lanes cap legend := by
    rw [← List.append_nil whole, reads, if_pos ⟨rfl, ok⟩]
  refine ⟨?_, fun hp h => raiseIncident_badLength ht hm ?_, fun n hn hp => raiseIncident_badLength ht hm ?_,
    fun hp ok hbad => raiseIncident_badValue ht hm ?_, fun hp ok hbad => ?_⟩
  · intro piece odd a b c hp ha hb hc hk ho
    refine raiseIncident_badValue ht hm ?_
    rw [hp]
    simpa only [List.append_assoc] using parseRaise_choice (fieldPiece_presence ha) (fieldPiece_presence hb)
      (fieldPiece_presence hc) hk <| by
        simpa only [List.exists_mem_cons_iff, List.not_mem_nil, false_and, exists_false, or_false] using ho
  · rw [hp, reads, if_neg]
    rintro ⟨empty, ok⟩
    exact h.elim (absurd empty) ok
  · rw [hp, whole_eq]
    exact parseRaise_cut (whole_eq ▸ hn)
  · rw [hp, good ok]
    exact checkRaise_bad ok hbad
  have parsed {kind : IncidentKind} (hk : kindOfCode k = some kind) : parseRaise f.payload = .ok _ :=
    (congrArg parseRaise hp).trans ((good ok).trans (checkRaise_good hk ok hbad))
  refine ⟨fun full => ?_, fun h kind hk room below free taken => ?_⟩
  · obtain ⟨kind, hk⟩ := kindOfCode_of_le (Nat.not_lt.1 fun high => hbad (.inl high))
    exact raiseIncident_tableFull ht hm (parsed hk) (full.imp_right lowestFree_eq_none)
  · obtain ⟨t, e, table, changed⟩ := raiseIncident_stores ht hm (parsed (kindOfCode_of_mem hk)) room
      (lowestFree_eq_some.2 ⟨below, free, taken⟩)
    have stored : RaiseReq.stored ⟨kind, start, stop, lanes.map fun v => v.setWidth 6, cap.map fun v => v.toNat,
        legend.map fun v => v.toNat⟩ s.clock =
          { kind := kind, origin := .supervisor, start := start, stop := stop, lanes := lanes.map fun v => v.setWidth 6,
            cap := cap.map fun v => fits v.toNat, legend := legend.map fun v => v.toNat, anchor := none, expiry := none,
            raised := s.clock } := by cases cap <;> rfl
    rw [← stored]
    refine ⟨t, _, _, e, ?_, by rw [table]; exact look_put_self .., fun j hj => by rw [table]; exact look_put_other _ _ hj,
      changed⟩
    by_cases kept : ∀ v, cap = some v → fits v.toNat = v.toNat
    · have same := (storedCap_eq_iff cap).2 kept
      exact .inl ⟨kept, if_pos same, if_pos same⟩
    · have differs := mt (storedCap_eq_iff cap).1 kept
      push Not at kept
      exact .inr ⟨kept, if_neg differs, if_neg differs⟩

end Sys2Proof.Machine
end

section
/-! PLACE_DEMAND and WITHDRAW_DEMAND (O32, O33). -/

namespace Sys2Proof.Machine

/-! ### The host demand table changes (R131) -/

/-- A request that changes the host demand table: the new table, one trigger, and the reply. -/
theorem takeRequest_demandsChanged {s : State} {ty : Byte} {f : Frame} {rest : List Frame} {fits : Byte → Bool}
    {h : State → List Byte → Answer} {a : Answer} {x : Table Demand} (ht : s.takes ty f rest) (hf : fits ty = true)
    (ha : h { s with link := { s.link with rxQueue := rest } } f.payload = a)
    (hx : a.state = State.trigger
      { s with link := { s.link with rxQueue := rest }, plan := { s.plan with demands := x } }) :
    ∃ t, takeRequest fits h s = .next t ∧ t.plan.demands = x ∧ t = State.trigger
      { s.answered f rest a.result a.detail with plan := { s.plan with demands := t.plan.demands } } := by
  have kept (u : State) : u.trigger.plan.demands = u.plan.demands := by rw [trigger_frame]
  refine ⟨_, takeRequest_answer ht hf ha, ?_⟩
  rw [hx, trigger_placeReply, kept]
  exact ⟨rfl, rfl⟩

/-! ### WITHDRAW_DEMAND (R133) -/

/-- A taken slot below the limit is freed. -/
theorem handleWithdrawDemand_frees {s : State} {h : Byte} (hm : s.geo.mode = .run) (hh : h.toNat < 48)
    (taken : s.plan.demands.look h.toNat ≠ none) : handleWithdrawDemand s [h] =
      accept (State.trigger { s with plan := { s.plan with demands := s.plan.demands.del h.toNat } }) := by
  obtain ⟨d, hd⟩ := Option.ne_none_iff_exists'.1 taken
  simp only [handleWithdrawDemand, hm, demandSlots, Nat.not_le.2 hh, hd, reduceCtorEq, if_false]

/-- Settles O33, by the mode, the payload, the handle and the slot. -/
theorem withdrawDemandFreesSlot : Obligations.WithdrawDemandFreesSlot := by
  intro s f rest ht
  have refused {r : Result} := takeRequest_refused (r := r) (d := .none) (fits := (· == 0x0D#8))
    handleWithdrawDemand ht rfl
  refine ⟨fun hm => refused (if_pos hm), fun hm hl => refused ?_, fun h hm hp =>
    ⟨fun hh => refused ?_, fun hh free => refused ?_, fun hh taken => ?_⟩⟩
  · obtain e | ⟨a, b, l, e⟩ := length_ne_one hl <;> simp [handleWithdrawDemand, hm, e, refuse]
  · simp [handleWithdrawDemand, hm, hp, demandSlots, hh, refuse]
  · simp [handleWithdrawDemand, hm, hp, demandSlots, Nat.not_le.2 hh, free, refuse]
  · let s' : State := { s with link := { s.link with rxQueue := rest } }
    have answer : handleWithdrawDemand s' f.payload = _ := hp ▸ handleWithdrawDemand_frees (s := s') hm hh taken
    obtain ⟨t, e, table, changed⟩ := takeRequest_demandsChanged (fits := (· == 0x0D#8)) ht rfl answer rfl
    have free : t.plan.demands.look h.toNat = none := by rw [table, look_del_self]
    have others (k : Nat) (hk : k ≠ h.toNat) : t.plan.demands.look k = s.plan.demands.look k := by
      rw [table, look_del_other _ hk]
    refine ⟨t, e, free, others, changed, fun below => lowestFree_eq_some.2 ⟨hh, free, fun k hk => ?_⟩⟩
    rw [others k (Nat.ne_of_lt hk)]
    exact below k hk

/-! ### PLACE_DEMAND (R132) -/

/-- A demand as it is stored (R132, step 3). -/
def DemandWhat.fit : DemandWhat → DemandWhat
  | .speed v => .speed (fitSpeed 20 130 v)
  | what => what

/-- The speed that step 3 of R132 changed, if it did. -/
def DemandWhat.changed : DemandWhat → Option Nat
  | .speed v => if fitSpeed 20 130 v = v then none else some (fitSpeed 20 130 v)
  | _ => none

/-- A demand whose values have passed goes on as it is stored (R132, steps 4 to 6). -/
theorem handlePlaceDemand_read {s : State} {p : List Byte} {g : Nat} {what : DemandWhat} (hm : s.geo.mode = .run)
    (hp : parsePlace p = .ok ⟨g, what⟩) : handlePlaceDemand s p = placeChecked s ⟨g, what.fit⟩ what.changed := by
  simp only [handlePlaceDemand, hm, hp, reduceCtorEq, if_false]
  cases what <;> rfl

theorem placeDemand_badLength {s : State} {f : Frame} {rest : List Frame} (ht : s.takes 0x0C#8 f rest)
    (hm : s.geo.mode = .run) (hp : parsePlace f.payload = .badLength) :
    exec .placeDemand s = .next (s.answered f rest .badLength .none) :=
  takeRequest_refused handlePlaceDemand ht rfl (by simp [handlePlaceDemand, hm, hp, refuse])

theorem placeDemand_badValue {s : State} {f : Frame} {rest : List Frame} (ht : s.takes 0x0C#8 f rest)
    (hm : s.geo.mode = .run) (hp : parsePlace f.payload = .badValue) :
    exec .placeDemand s = .next (s.answered f rest .badValue .none) :=
  takeRequest_refused handlePlaceDemand ht rfl (by simp [handlePlaceDemand, hm, hp, refuse])

/-- Settles O32: what the payload reads as by `parsePlace_fits`, then the gantry, its lanes and the table by
`placeChecked_defined`. -/
theorem placeDemandTakesLowestSlot : Obligations.PlaceDemandTakesLowestSlot := by
  intro s f rest ht hm
  refine ⟨fun short => placeDemand_badLength ht hm (parsePlace_short short), ?_⟩
  intro g k more hp fits bad stored asks changed
  refine ⟨fun misfit => placeDemand_badLength ht hm (hp ▸ parsePlace_length misfit),
    fun ok isBad => placeDemand_badValue ht hm (hp ▸ (parsePlace_fits ok).1 isBad), fun ok good => ?_⟩
  obtain ⟨sent, read, shape⟩ := (parsePlace_fits ok).2 good
  have asked : asks sent.fit ∧ (¬changed ∧ sent.changed = none ∨
      changed ∧ ∃ w, sent.fit = .speed w ∧ sent.changed = some w) := by
    rcases shape with ⟨ls, a, c, rfl, rfl, rfl, code⟩ | ⟨v, rfl, rfl, rfl⟩ | ⟨n, rfl, rfl, rfl⟩
    · exact ⟨.inl ⟨ls, a, c, rfl, rfl, rfl, code⟩, .inl ⟨by simp [changed], rfl⟩⟩
    · refine ⟨.inr (.inl ⟨v, rfl, rfl, rfl⟩), ?_⟩
      by_cases same : fitSpeed 20 130 v.toNat = v.toNat
      · refine .inl ⟨?_, if_pos same⟩
        rintro ⟨w, -, e, differs⟩
        cases e
        exact differs same
      · exact .inr ⟨⟨v, rfl, rfl, same⟩, _, rfl, if_neg same⟩
    · exact ⟨.inr (.inr ⟨n, rfl, rfl, rfl⟩), .inl ⟨by simp [changed], rfl⟩⟩
  let s' : State := { s with link := { s.link with rxQueue := rest } }
  have answer : handlePlaceDemand s' f.payload = placeChecked s' ⟨g.toNat, sent.fit⟩ sent.changed :=
    hp ▸ handlePlaceDemand_read hm read
  have refused {r : Result} (e : placeChecked s' ⟨g.toNat, sent.fit⟩ sent.changed = refuse s' r) :
      exec .placeDemand s = .next (s.answered f rest r .none) :=
    takeRequest_refused (d := .none) handlePlaceDemand ht rfl (answer.trans e)
  refine ⟨sent.fit, asked.1, fun undefined => refused ?_, fun r defined => ?_⟩
  · simp only [placeChecked, s', undefined]
  intro lacks
  obtain ⟨lacking, full, takes⟩ := placeChecked_defined (s := s') (d := ⟨g.toNat, sent.fit⟩) sent.changed defined
  refine ⟨fun h => refused (lacking h), fun h taken => refused (full h (lowestFree_eq_none taken)), ?_⟩
  intro h has below free taken
  obtain ⟨state, plain, clamped⟩ := takes h has (lowestFree_eq_some.2 ⟨below, free, taken⟩)
  obtain ⟨t, e, table, triggered⟩ := takeRequest_demandsChanged (fits := (· == 0x0C#8)) ht rfl answer state
  refine ⟨t, _, _, e, ?_, by rw [table]; exact look_put_self .., fun j hj => by rw [table]; exact look_put_other _ _ hj,
    triggered⟩
  rcases asked.2 with ⟨same, unchanged⟩ | ⟨differs, w, speed, named⟩
  · obtain ⟨res, detail⟩ := plain unchanged
    exact .inl ⟨same, res, detail⟩
  · obtain ⟨res, detail⟩ := clamped w named
    exact .inr ⟨differs, res, w, speed, detail⟩

end Sys2Proof.Machine
end

section
/-! What a publication is made of (R157): acts on the record of the gantry, on its line, and an evaluation of its gate,
chosen by what rollout, geometry, nodes and plan hold. -/

namespace Sys2Proof.Machine

/-! ### Publication act by act -/

/-- A relation of two states that agree in all a publication at g reads, kept by each of the acts it is made of. -/
structure Lockstep (g : Nat) (R : State → State → Prop) : Prop where
  rollout : ∀ {a b}, R a b → b.rollout = a.rollout
  geo : ∀ {a b}, R a b → b.geo = a.geo
  nodes : ∀ {a b}, R a b → b.nodes = a.nodes
  plan : ∀ {a b}, R a b → b.plan = a.plan
  onRollout : ∀ {a b}, R a b → ∀ f, R (a.onRollout g f) (b.onRollout g f)
  onLineOf : ∀ {a b}, R a b → ∀ f, R (a.onLineOf g f) (b.onLineOf g f)
  evalGate : ∀ {a b}, R a b → R (a.evalGate g) (b.evalGate g)

section Lockstep

variable {g : Nat} {R : State → State → Prop} (h : Lockstep g R) {a b : State} (k : R a b)
include h k

theorem Lockstep.endConfirmation : R (a.endConfirmation g) (b.endConfirmation g) := h.onLineOf (h.onRollout k _) _

theorem Lockstep.removePending : R (a.removePending g) (b.removePending g) := h.onLineOf (h.onRollout k _) _

theorem Lockstep.createPending (kind : ShowKind) (as : List Aspect) :
    R (a.createPending g kind as) (b.createPending g kind as) := by
  unfold State.createPending
  rw [h.rollout k, kinds_congr (h.geo k)]
  cases a.rollout.look g with
  | none => exact k
  | some r => exact h.evalGate (h.onLineOf (h.onRollout (h.removePending k) _) _)

theorem Lockstep.replacePending (as : List Aspect) : R (a.replacePending g as) (b.replacePending g as) := by
  unfold State.replacePending
  rw [h.rollout k, kinds_congr (h.geo k)]
  cases a.rollout.look g with
  | none => exact k
  | some r =>
    dsimp only
    cases r.pending with
    | none => exact k
    | some p =>
      refine h.evalGate ?_
      split
      · exact h.onRollout k _
      · exact h.onLineOf (h.onRollout k _) _

theorem Lockstep.compare : R (a.compare g) (b.compare g) := by
  unfold State.compare
  rw [h.rollout k, shown_congr (h.plan k)]
  cases a.rollout.look g with
  | none => exact k
  | some r =>
    dsimp only
    split
    · split
      · split
        · exact h.removePending k
        · exact k
      · exact k
    · split
      · exact h.createPending (h.endConfirmation k) _ _
      · split
        · exact k
        · exact h.replacePending (h.endConfirmation k) _

theorem Lockstep.publish : R (a.publish g) (b.publish g) := by
  have state : b.nodeState g = a.nodeState g := by rw [State.nodeState, h.nodes k]; rfl
  unfold State.publish
  rw [h.rollout k, state, shown_congr (h.plan k)]
  cases a.rollout.look g with
  | none => exact k
  | some r =>
    dsimp only
    split
    · split
      · exact k
      · exact h.compare k
    · split
      · split
        · exact h.replacePending (h.endConfirmation k) _
        · exact k
      · exact k
    · exact k

end Lockstep

/-! ### What a publication leaves alone -/

/-- Only the rollout record of g and the line that reaches its node can differ. -/
structure AtGantry (g : Nat) (s t : State) : Prop where
  rolls : Rolls s t
  others : ∀ k, k ≠ g → t.rollout.look k = s.rollout.look k
  lines : ∀ gr, s.geo.gantries.look g = some gr → ∀ l, l ≠ gr.line → t.line l = s.line l

theorem AtGantry.refl (g : Nat) (s : State) : AtGantry g s s := ⟨.refl s, fun _ _ => rfl, fun _ _ _ _ => rfl⟩

theorem AtGantry.trans {g : Nat} {s t u : State} (h : AtGantry g s t) (k : AtGantry g t u) : AtGantry g s u :=
  ⟨h.rolls.trans k.rolls, fun m hm => (k.others m hm).trans (h.others m hm), fun gr hg l hl =>
    (k.lines gr (h.rolls.geo ▸ hg) l hl).trans (h.lines gr hg l hl)⟩

theorem atGantry_onRollout (g : Nat) (f : RolloutRec → RolloutRec) (s : State) : AtGantry g s (s.onRollout g f) :=
  ⟨rolls_onRollout .., fun _ hk => look_adjust_other _ _ hk, fun _ _ l _ => onRollout_line _ _ _ l⟩

theorem atGantry_onLineOf (g : Nat) (f : LineCtl → LineCtl) (s : State) : AtGantry g s (s.onLineOf g f) :=
  ⟨rolls_onLineOf .., fun _ _ => by rw [onLineOf_rollout], fun gr hg l hl => by
    rw [onLineOf_eq f hg, line_onLine_other _ _ hl]⟩

theorem atGantry_evalGate (g : Nat) (s : State) : AtGantry g s (s.evalGate g) :=
  ⟨rolls_evalGate .., fun _ hk => evalGate_other s hk, fun _ _ l _ => evalGate_line s g l⟩

theorem lockstep_atGantry (g : Nat) (s : State) : Lockstep g fun a b => b = a ∧ AtGantry g s a where
  rollout := fun ⟨e, _⟩ => e ▸ rfl
  geo := fun ⟨e, _⟩ => e ▸ rfl
  nodes := fun ⟨e, _⟩ => e ▸ rfl
  plan := fun ⟨e, _⟩ => e ▸ rfl
  onRollout := fun ⟨e, h⟩ f => ⟨e ▸ rfl, h.trans (atGantry_onRollout g f _)⟩
  onLineOf := fun ⟨e, h⟩ f => ⟨e ▸ rfl, h.trans (atGantry_onLineOf g f _)⟩
  evalGate := fun ⟨e, h⟩ => ⟨e ▸ rfl, h.trans (atGantry_evalGate g _)⟩

theorem publish_atGantry (g : Nat) (s : State) : AtGantry g s (s.publish g) :=
  ((lockstep_atGantry g s).publish ⟨rfl, .refl g s⟩).2

/-! ### Publication beside records and notices -/

/-- The state with other notices, banks and free values. -/
def State.told (x : Link) (b : Banks) (n : Nat) (s : State) : State := { s with link := x, banks := b, freeCount := n }

theorem Tells.eq_told {s t : State} (h : Tells s t) : t = s.told t.link t.banks t.freeCount := by
  calc t = ({ t with link := s.link, banks := s.banks, freeCount := s.freeCount } : State).told
        t.link t.banks t.freeCount := rfl
    _ = s.told t.link t.banks t.freeCount := by rw [show _ = s from h]

section Told

variable (x : Link) (b : Banks) (n : Nat)

theorem onLineOf_told (g : Nat) (f : LineCtl → LineCtl) (s : State) :
    (s.told x b n).onLineOf g f = (s.onLineOf g f).told x b n := by
  cases hg : s.geo.gantries.look g with
  | none => rw [onLineOf_none f hg]; exact onLineOf_none f hg
  | some gr =>
    rw [onLineOf_eq f hg, onLineOf_eq (s := s.told x b n) f hg]
    cases gr.line <;> rfl

theorem evalGate_told (g : Nat) (s : State) : (s.told x b n).evalGate g = (s.evalGate g).told x b n := by
  have same : (s.told x b n).rollout = s.rollout := rfl
  unfold State.evalGate
  rw [same]
  cases s.rollout.look g with
  | none => rfl
  | some r =>
    cases hp : r.pending with
    | none => simp only [hp]
    | some p => simp only [hp]; rfl

theorem lockstep_told (g : Nat) : Lockstep g fun s t => t = s.told x b n where
  rollout := fun e => e ▸ rfl
  geo := fun e => e ▸ rfl
  nodes := fun e => e ▸ rfl
  plan := fun e => e ▸ rfl
  onRollout := fun e _ => e ▸ rfl
  onLineOf := fun e f => e ▸ onLineOf_told x b n g f _
  evalGate := fun e => e ▸ evalGate_told x b n g _

theorem publish_told (g : Nat) (s : State) : (s.told x b n).publish g = (s.publish g).told x b n :=
  (lockstep_told x b n g).publish rfl

end Told

end Sys2Proof.Machine
end

section
/-! The completion of a pass (R136, R150) and the class of a SHOW (R158). -/

namespace Sys2Proof.Machine

/-! ### UNSERVED records (R150) -/

/-- One UNSERVED record. -/
def State.lostRecord (s : State) (e : Nat × Severity) : State := s.record .plan .unserved e.2 (some e.1) none

theorem recordLost_eq_foldl (es : List (Nat × Severity)) (s : State) : recordLost es s = es.foldl State.lostRecord s := by
  induction es generalizing s with
  | nil => rfl
  | cons e es ih => exact ih _

/-- The signs that are lost now and were not before, each with its gantry and the severity of what it wants. -/
theorem lostErrors_eq (old new : Table Target) : lostErrors old new = new.flatMap fun kv =>
    (kv.2.signs.zipIdx.filter fun x =>
      x.1.lost && !((((old.look kv.1).map fun o => o.signs).getD [])[x.2]?.any fun y => y.lost)).map
        fun x => (kv.1, lostSeverity x.1.wanted) := by
  refine List.flatMap_congr fun kv _ => ?_
  rw [← List.drop_zero (l := ((old.look kv.1).map fun o => o.signs).getD []), newlyLost_eq, List.map_map, List.drop_zero]
  rfl

/-- The state with other free values and another plan. -/
def State.replanned (n : Nat) (p : Plan) (s : State) : State := { s with freeCount := n, plan := p }

theorem raise_replanned (n : Nat) (p : Plan) (b : NoticeBody) (s : State) :
    (s.replanned n p).raise b = (s.raise b).replanned n p := by
  unfold State.raise State.replanned
  dsimp only
  split
  · rfl
  · split <;> rfl

theorem lostRecord_replanned (n : Nat) (p : Plan) (s : State) (e : Nat × Severity) :
    (s.replanned n p).lostRecord e = (s.lostRecord e).replanned n p :=
  raise_replanned n p _
    { s with banks := s.banks.put .plan ((s.banks.look .plan).take ⟨e.2, .unserved, some e.1, none, s.clock⟩).1 }

theorem tells_lostRecords (es : List (Nat × Severity)) (s : State) : Tells s (es.foldl State.lostRecord s) := by
  induction es generalizing s with
  | nil => rfl
  | cons e es ih => exact (tells_record ..).trans (ih _)

/-- The records of a pass, in some order, made with the targets replaced (R136, R150). -/
theorem recordAllLost_eq (old new : Table Target) (p : Plan) (s : State) :
    ∃ (es : List (Nat × Severity)) (n : Nat), es.Perm (lostErrors old new) ∧
      recordAllLost old new { s with plan := p } =
        State.told (es.foldl State.lostRecord s).link (es.foldl State.lostRecord s).banks n { s with plan := p } := by
  let s1 : State := { s with plan := p }
  refine ⟨(s1.anyOrder (lostErrors old new)).1, (s1.anyOrder (lostErrors old new)).2.freeCount, anyOrder_perm .., ?_⟩
  generalize hn : (s1.anyOrder (lostErrors old new)).2.freeCount = n
  generalize hes : (s1.anyOrder (lostErrors old new)).1 = es
  calc recordAllLost old new s1
      = es.foldl State.lostRecord (s.replanned n p) := by
        rw [recordAllLost, recordLost_eq_foldl, hes, anyOrder_state, hn]; rfl
    _ = (es.foldl State.lostRecord s).replanned n p := List.foldl_hom _ fun u e => lostRecord_replanned n p u e
    _ = _ := by conv_lhs => rw [(tells_lostRecords es s).eq_told]
                rfl

/-! ### Publication downstream first (R157) -/

theorem publishAll_eq_foldl (gs : List Nat) (s : State) : publishAll gs s = gs.foldl (fun w g => w.publish g) s := by
  induction gs generalizing s with
  | nil => rfl
  | cons g gs ih => exact ih _

theorem publishAll_rolls (gs : List Nat) (s : State) : Rolls s (publishAll gs s) := by
  induction gs generalizing s with
  | nil => exact .refl s
  | cons g gs ih => exact (publish_atGantry g s).rolls.trans (ih _)

theorem publishAll_told (x : Link) (b : Banks) (n : Nat) (gs : List Nat) (s : State) :
    publishAll gs (s.told x b n) = (publishAll gs s).told x b n := by
  induction gs generalizing s with
  | nil => rfl
  | cons g gs ih => rw [publishAll, publish_told, ih]; rfl

/-! ### The next pass (R136) -/

/-- The engine behind a pass: IDLE, or running the next one. -/
def State.passEnds (s : State) : State :=
  if s.plan.again then { s with plan := { s.plan with again := false, running := some s.snapshot } }
  else { s with plan := { s.plan with running := none } }

/-- R136, R150, R157: a pass that completes makes its records and, beside them, publishes its targets. -/
theorem completePass_eq (n : Snapshot) (s : State) :
    ∃ (es : List (Nat × Severity)) (k : Nat), es.Perm (lostErrors s.plan.targets n.targets) ∧
    s.completePass n = ((publishAll (Table.keys n.targets).reverse
      { s with plan := { s.plan with targets := n.targets } }).told
        (es.foldl State.lostRecord s).link (es.foldl State.lostRecord s).banks k).passEnds := by
  obtain ⟨es, k, perm, e⟩ := recordAllLost_eq s.plan.targets n.targets { s.plan with targets := n.targets } s
  refine ⟨es, k, perm, ?_⟩
  rw [← publishAll_told, ← e]
  rfl

/-- What a pass that completes leaves behind in t: these targets, the engine IDLE or running the next pass, the banks and
notices as in `told`, rollout and lines as in `shown`, the rest as in s. -/
structure PassEnded (targets : Table Target) (s told shown t : State) : Prop where
  targets : t.plan.targets = targets
  again : t.plan.again = false
  idle : s.plan.again = false → t.plan.running = none
  next : s.plan.again = true → t.plan.running = some t.snapshot
  told : t.banks = told.banks ∧ t.link = told.link
  shown : t.rollout = shown.rollout ∧ t.lineA = shown.lineA ∧ t.lineB = shown.lineB
  rest : t.plan.demands = s.plan.demands ∧ t.nodes = s.nodes ∧ t.incidents = s.incidents ∧ t.sections = s.sections ∧
    t.traffic = s.traffic ∧ t.measure = s.measure ∧ t.geo = s.geo ∧ t.clock = s.clock

theorem passEnds_ended {s v : State} {ts : Table Target} (h : Rolls { s with plan := { s.plan with targets := ts } } v)
    (w : State) (k : Nat) : PassEnded ts s w v (v.told w.link w.banks k).passEnds := by
  obtain ⟨la, lb, ro, rfl⟩ : ∃ la lb ro, v =
      { s with plan := { s.plan with targets := ts }, lineA := la, lineB := lb, rollout := ro } :=
    ⟨v.lineA, v.lineB, v.rollout, congrArg (fun u : State =>
      ({ u with lineA := v.lineA, lineB := v.lineB, rollout := v.rollout } : State)) h⟩
  unfold State.passEnds
  split
  · next again =>
    exact ⟨rfl, rfl, fun e => absurd (again.symm.trans e) Bool.noConfusion, fun _ => rfl, ⟨rfl, rfl⟩, ⟨rfl, rfl, rfl⟩,
      ⟨rfl, rfl, rfl, rfl, rfl, rfl, rfl, rfl⟩⟩
  · next idle =>
    exact ⟨rfl, Bool.eq_false_iff.2 idle, fun _ => rfl, fun e => absurd e idle, ⟨rfl, rfl⟩, ⟨rfl, rfl, rfl⟩,
      ⟨rfl, rfl, rfl, rfl, rfl, rfl, rfl, rfl⟩⟩

/-- R136, R150, R157: a pass that completes makes its records, in some order, and publishes its targets downstream
first. -/
theorem completePass_ended (n : Snapshot) (s : State) :
    ∃ es : List (Nat × Severity), es.Perm (lostErrors s.plan.targets n.targets) ∧
      PassEnded n.targets s (es.foldl State.lostRecord s)
        ((Table.keys n.targets).reverse.foldl (fun w g => w.publish g)
          { s with plan := { s.plan with targets := n.targets } }) (s.completePass n) := by
  obtain ⟨es, k, perm, e⟩ := completePass_eq n s
  have rolls := publishAll_rolls (Table.keys n.targets).reverse { s with plan := { s.plan with targets := n.targets } }
  refine ⟨es, perm, ?_⟩
  rw [e, ← publishAll_eq_foldl]
  exact passEnds_ended rolls _ k

/-! ### The class of a SHOW (R158) -/

theorem warningLegend_iff (o : Option Aspect) :
    warningLegend o = true ↔ ∃ m, 1 ≤ m ∧ m ≤ 4 ∧ o = some (.legend m) := by
  rcases o with _ | _ | _ | _ | _ | m <;> simp [warningLegend]

/-- What makes a SHOW of the sign a change of a closure or a warning. -/
def SignKind.warns (a : Aspect) (c : Option Aspect) : SignKind → Prop
  | .lane _ => cellState (some a) ≠ cellState c
  | .panel => c ≠ some a ∧ (warningLegend (some a) = true ∨ warningLegend c = true)

theorem SignKind.warns_iff (k : SignKind) (a : Aspect) (c : Option Aspect) : k.warns a c ↔
    (∃ p, k = .lane p) ∧ cellState (some a) ≠ cellState c ∨ k = .panel ∧ c ≠ some a ∧
      ((∃ m, 1 ≤ m ∧ m ≤ 4 ∧ some a = some (.legend m)) ∨ ∃ m, 1 ≤ m ∧ m ≤ 4 ∧ c = some (.legend m)) := by
  cases k <;> simp [SignKind.warns, warningLegend_iff]

theorem changesWarning_cons (k : SignKind) (ks : List SignKind) (a : Aspect) (as : List Aspect) (c : Option Aspect)
    (cs : List (Option Aspect)) :
    changesWarning (k :: ks) (a :: as) (c :: cs) = true ↔ k.warns a c ∨ changesWarning ks as cs = true := by
  cases k <;> simp [changesWarning, SignKind.warns]

/-- Some sign changes a closure or a warning. -/
theorem changesWarning_iff : ∀ (ks : List SignKind) (as : List Aspect) (cs : List (Option Aspect)),
    changesWarning ks as cs = true ↔
      ∃ (i : Nat) (k : SignKind) (a : Aspect) (c : Option Aspect), ks[i]? = some k ∧ as[i]? = some a ∧
        cs[i]? = some c ∧ k.warns a c
  | [], _, _ => by simp [changesWarning]
  | k :: ks, [], _ => by cases k <;> simp [changesWarning]
  | k :: ks, _ :: _, [] => by cases k <;> simp [changesWarning]
  | k :: ks, a :: as, c :: cs => by
    rw [changesWarning_cons, changesWarning_iff ks as cs]
    exact Iff.trans (by simp) Nat.or_exists_add_one

theorem carriesWarning_iff (as : List Aspect) : carriesWarning as = true ↔
    ∃ a ∈ as, a = .closed ∨ (∃ d, a = .divert d) ∨ ∃ m, 1 ≤ m ∧ m ≤ 4 ∧ some a = some (.legend m) := by
  simp [carriesWarning, isCell_iff, warningLegend_iff, Aspect.closes, or_assoc]

theorem showClass_ordinary (ks : List SignKind) (as : List Aspect) (cs : List (Option Aspect)) :
    showClass ks .ordinary as cs = .urgent ↔ changesWarning ks as cs = true := by simp [showClass]

theorem showClass_resend (ks : List SignKind) (as : List Aspect) (cs : List (Option Aspect)) :
    showClass ks .resend as cs = .urgent ↔ carriesWarning as = true := by simp [showClass]

end Sys2Proof.Machine
end

section
/-! Publication at one gantry (R157, R164), and O57 settled. -/

namespace Sys2Proof.Machine

/-! ### Contents replaced (R157, R163) -/

/-- The record whose pending SHOW has become q, its gate not evaluated yet; `same` says that it shows the same closures. -/
def RolloutRec.reshow (same : Bool) (q : Pending) (r : RolloutRec) : RolloutRec :=
  { r with pending := some q, gateTimer := if same then r.gateTimer else none, gateExpired := same && r.gateExpired }

/-- The line where a pending SHOW has got a class: in another one it joins the tail (R51). -/
def LineCtl.reshow (g : Nat) (old cls : ShowClass) (retry : Bool) (c : LineCtl) : LineCtl :=
  if cls = old then c
  else (c.removeShow g).deposit cls.cls ⟨g, .display, if retry then .line else .rollout, retry⟩

theorem reshow_same (g : Nat) (cls : ShowClass) (retry : Bool) (c : LineCtl) : c.reshow g cls cls retry = c := if_pos rfl

theorem reshow_moves {old cls : ShowClass} (h : cls ≠ old) (g : Nat) (retry : Bool) (c : LineCtl) :
    c.reshow g old cls retry =
      (c.removeShow g).deposit cls.cls ⟨g, .display, if retry then .line else .rollout, retry⟩ := if_neg h

section Replace

variable {s : State} {g : Nat} {gr : GantryRec} {r : RolloutRec} {p : Pending}
  (hg : s.geo.gantries.look g = some gr) (hr : s.rollout.look g = some r) (hp : r.pending = some p) (as : List Aspect)
include hg hr hp

theorem replacePending_eq : s.replacePending g as =
    ((s.onRollout g (RolloutRec.reshow (closureSet gr.kinds p.body.contents == closureSet gr.kinds as)
        ⟨⟨as, .ordinary, showClass gr.kinds .ordinary as r.commanded⟩, p.retry⟩)).onLine gr.line
      (LineCtl.reshow g p.body.cls (showClass gr.kinds .ordinary as r.commanded) p.retry)).evalGate g := by
  simp only [State.replacePending, hr, hp, kinds_eq hg]
  refine congrArg (State.evalGate g) ?_
  split
  · next same => rw [same, onLine_fixed (reshow_same ..)]; rfl
  · next moves =>
    rw [onLineOf_eq (r := gr) _ (by simpa using hg)]
    exact congrArg _ (funext fun c => (reshow_moves moves g p.retry c).symm)

theorem replacePending_look : ∃ r' same, (s.replacePending g as).rollout.look g = some r' ∧
    (r.reshow same ⟨⟨as, .ordinary, showClass gr.kinds .ordinary as r.commanded⟩, p.retry⟩).Gated r' := by
  obtain ⟨r', look, gated⟩ := evalGate_gated g (k := g) (s := (s.onRollout g (RolloutRec.reshow
      (closureSet gr.kinds p.body.contents == closureSet gr.kinds as)
      ⟨⟨as, .ordinary, showClass gr.kinds .ordinary as r.commanded⟩, p.retry⟩)).onLine gr.line
        (LineCtl.reshow g p.body.cls (showClass gr.kinds .ordinary as r.commanded) p.retry))
    (by rw [onLine_rollout, onRollout_rollout, look_adjust_self, hr]; rfl)
  exact ⟨r', _, by rw [replacePending_eq hg hr hp as]; exact look, gated⟩

theorem replacePending_line : (s.replacePending g as).line gr.line =
    (s.line gr.line).reshow g p.body.cls (showClass gr.kinds .ordinary as r.commanded) p.retry := by
  rw [replacePending_eq hg hr hp as, evalGate_line, line_onLine_self, onRollout_line]

end Replace

/-! ### The confirmation ends (R157, R164) -/

/-- The record with its confirmation ended; its pending SHOW and its gate are not said. -/
def RolloutRec.Ended (r r' : RolloutRec) : Prop :=
  r' = { r with pending := r'.pending, gateHeld := r'.gateHeld, gateTimer := r'.gateTimer,
                gateExpired := r'.gateExpired, confirmation := .settled, polls := 0, resends := 0 }

theorem RolloutRec.Ended.gated {r a r' : RolloutRec} (h : r.Ended a) (k : a.Gated r') : r.Ended r' := by
  unfold RolloutRec.Ended at h ⊢
  rw [k.eq, h]

/-- The confirmation STATE of g is withdrawn from a line, held or waiting, and no other. -/
structure LineCtl.Unpolled (g : Nat) (c d : LineCtl) : Prop where
  gone : d.held.look g = none
  others : ∀ k, k ≠ g → d.held.look k = c.held.look k
  confirm : d.queues.confirm = c.queues.confirm.filter fun e => e.gantry != g || e.retry

theorem unpolled_of {g : Nat} {c d : LineCtl} (held : d.held = c.held.del g)
    (confirm : d.queues.confirm = (c.withdrawConfirm g).queues.confirm) : c.Unpolled g d :=
  ⟨held ▸ look_del_self .., fun _ hk => held ▸ look_del_other _ hk, confirm⟩

theorem withShow_unpolled (g : Nat) (cls : ShowClass) (c : LineCtl) :
    c.Unpolled g ((c.withdrawConfirm g).withShow g cls) := unpolled_of rfl (by cases cls <;> rfl)

theorem reshow_unpolled (g : Nat) (old cls : ShowClass) (retry : Bool) (c : LineCtl) :
    c.Unpolled g ((c.withdrawConfirm g).reshow g old cls retry) := by
  unfold LineCtl.reshow
  split
  · exact unpolled_of rfl rfl
  · exact unpolled_of rfl (by cases cls <;> rfl)

theorem cls_injective : Function.Injective ShowClass.cls := fun a b h => by
  cases a <;> cases b <;> cases h <;> rfl

theorem removeShow_free {c : LineCtl} {g : Nat} {k : ShowClass} {e : Entry}
    (h : e ∈ (c.removeShow g).queues.look k.cls) : e.gantry ≠ g := by
  rw [removeShow_look, if_pos (by cases k <;> simp [ShowClass.cls])] at h
  exact of_decide_eq_true (List.mem_filter.1 h).2

/-- A SHOW that changes its class leaves the queue of the old one. -/
theorem reshow_leaves {g : Nat} {old cls : ShowClass} (h : cls ≠ old) {retry : Bool} {c : LineCtl} {e : Entry}
    (he : e ∈ (c.reshow g old cls retry).queues.look old.cls) : e.gantry ≠ g := by
  rw [reshow_moves h, deposit_look, if_neg fun same => h (cls_injective same).symm, List.append_nil] at he
  exact removeShow_free he

/-! ### A SHOW of the targets (R157) -/

/-- A gantry that gets a new SHOW: what becomes of its record and its line. -/
structure Created (g : Nat) (gr : GantryRec) (r : RolloutRec) (as : List Aspect) (c : LineCtl) (t : State) : Prop where
  record : ∃ r', t.rollout.look g = some r' ∧ r.Ended r' ∧ r'.gateExpired = false ∧
    r'.pending = some ⟨⟨as, .ordinary, showClass gr.kinds .ordinary as r.commanded⟩, false⟩
  unpolled : c.Unpolled g (t.line gr.line)
  tail : ((t.line gr.line).queues.look (showClass gr.kinds .ordinary as r.commanded).cls).getLast? =
    some ⟨g, .display, .rollout, false⟩

/-- A gantry whose pending SHOW p gets other contents: what becomes of its record and its line. -/
structure Replaced (g : Nat) (gr : GantryRec) (r : RolloutRec) (p : Pending) (as : List Aspect) (c : LineCtl)
    (t : State) : Prop where
  record : ∃ r', t.rollout.look g = some r' ∧ r.Ended r' ∧
    r'.pending = some ⟨⟨as, .ordinary, showClass gr.kinds .ordinary as r.commanded⟩, p.retry⟩
  unpolled : c.Unpolled g (t.line gr.line)
  stays : showClass gr.kinds .ordinary as r.commanded = p.body.cls →
    (t.line gr.line).queues.urgentShow = c.queues.urgentShow ∧ (t.line gr.line).queues.normalShow = c.queues.normalShow
  moves : showClass gr.kinds .ordinary as r.commanded ≠ p.body.cls →
    ((t.line gr.line).queues.look (showClass gr.kinds .ordinary as r.commanded).cls).getLast? =
        some ⟨g, .display, if p.retry then .line else .rollout, p.retry⟩ ∧
      ∀ e ∈ (t.line gr.line).queues.look p.body.cls.cls, e.gantry ≠ g

section Show

variable {s : State} {g : Nat} {gr : GantryRec} {r : RolloutRec} (hg : s.geo.gantries.look g = some gr)
  (hr : s.rollout.look g = some r) (as : List Aspect)
include hg hr

/-- The state behind the end of a confirmation. -/
theorem endConfirmation_at : (s.endConfirmation g).geo.gantries.look g = some gr ∧
    (s.endConfirmation g).rollout.look g = some r.settle ∧
    (s.endConfirmation g).line gr.line = (s.line gr.line).withdrawConfirm g := by
  refine ⟨(rolls_endConfirmation g s).geo ▸ hg, ?_, ?_⟩
  · rw [endConfirmation_rollout, look_adjust_self, hr]; rfl
  · rw [endConfirmation_eq hg, line_onLine_self, onRollout_line]

theorem created_holds : Created g gr r as (s.line gr.line) ((s.endConfirmation g).createPending g .ordinary as) := by
  obtain ⟨hg', hr', line⟩ := endConfirmation_at hg hr
  obtain ⟨r', look, e⟩ := createPending_look hg' hr' .ordinary as
  have after : ((s.endConfirmation g).createPending g .ordinary as).line gr.line =
      ((s.line gr.line).withdrawConfirm g).withShow g (showClass gr.kinds .ordinary as r.commanded) :=
    (createPending_line hg' hr' .ordinary as).trans (line ▸ rfl)
  refine ⟨⟨r', look, ?_, by rw [e], by rw [e]; rfl⟩, after ▸ withShow_unpolled .., ?_⟩
  · unfold RolloutRec.Ended
    rw [e]
    rfl
  · rw [after, LineCtl.withShow, deposit_look_self]
    exact List.getLast?_concat ..

theorem replaced_holds {p : Pending} (hp : r.pending = some p) :
    Replaced g gr r p as (s.line gr.line) ((s.endConfirmation g).replacePending g as) := by
  obtain ⟨hg', hr', line⟩ := endConfirmation_at hg hr
  have after : ((s.endConfirmation g).replacePending g as).line gr.line = LineCtl.reshow g p.body.cls
      (showClass gr.kinds .ordinary as r.commanded) p.retry ((s.line gr.line).withdrawConfirm g) := by
    rw [replacePending_line hg' hr' hp, line]
    rfl
  refine ⟨?_, after ▸ reshow_unpolled .., fun same => ?_, fun moves => ?_⟩
  · obtain ⟨r', same, look, gated⟩ := replacePending_look hg' hr' hp as
    exact ⟨r', look, RolloutRec.Ended.gated (a := r.settle.reshow same _) rfl gated, gated.pending⟩
  · rw [after, same, reshow_same]
    exact ⟨rfl, rfl⟩
  · rw [after]
    refine ⟨?_, fun e he => reshow_leaves moves he⟩
    rw [reshow_moves moves, deposit_look_self]
    exact List.getLast?_concat ..

end Show

/-! ### Which of them a publication does (R157) -/

section Publish

variable {s : State} {g : Nat} {r : RolloutRec}

theorem publish_elsewhere (online : s.nodeState g ≠ some .online) (suspect : s.nodeState g ≠ some .suspect) :
    s.publish g = s := by
  unfold State.publish
  split
  · rfl
  · split
    · contradiction
    · contradiction
    · rfl

variable (hr : s.rollout.look g = some r)
include hr

theorem publish_inFlight (ho : s.nodeState g = some .online) (hf : r.inFlight = true) : s.publish g = s := by
  simp [State.publish, hr, ho, hf]

theorem compare_removes (hc : r.commanded = (s.shown g).map some) {p : Pending} (hp : r.pending = some p)
    (hk : p.body.kind = .ordinary) (hn : p.retry = false) : s.compare g = s.removePending g := by
  have same : entriesEqual r.commanded (s.shown g) = true := (entriesEqual_iff ..).2 hc
  simp [State.compare, hr, same, hp, hk, hn]

theorem compare_carried (hc : r.commanded ≠ (s.shown g).map some) {p : Pending} (hp : r.pending = some p)
    (hs : p.body.contents = s.shown g) : s.compare g = s := by
  have differs : entriesEqual r.commanded (s.shown g) = false := by
    rw [← Bool.not_eq_true, entriesEqual_iff]; exact hc
  simp [State.compare, hr, differs, hp, hs]

theorem publish_retry (hs : s.nodeState g = some .suspect) {p : Pending} (hp : r.pending = some p)
    (retry : p.retry = true) (hc : p.body.contents ≠ s.shown g) :
    s.publish g = (s.endConfirmation g).replacePending g (s.shown g) := by
  simp [State.publish, hr, hs, hp, retry, hc]

theorem publish_retryStays (hs : s.nodeState g = some .suspect)
    (h : ∀ p, r.pending = some p → p.retry = true → p.body.contents = s.shown g) : s.publish g = s := by
  simp only [State.publish, hr, hs]
  cases hp : r.pending with
  | none => rfl
  | some p => exact if_neg fun ⟨retry, differs⟩ => differs (h p hp retry)

end Publish

/-- Settles O57: the pass by `completePass_ended`, a gantry by the lemma for each case of R157, the classes by
`changesWarning_iff` and `carriesWarning_iff`. -/
theorem passCompletesWithTargets : Obligations.PassCompletesWithTargets := by
  refine ⟨fun s n high running => ?_, fun s g gr r hg hr => ?_, ?_⟩
  · have runs : exec .passComplete s = .next (s.completePass n) := by
      rw [exec, execPassComplete, whenRunning_eq high, running]
    obtain ⟨es, perm, targets, again, idle, next, told, shown, rest⟩ := completePass_ended n s
    exact ⟨_, runs, targets, again, idle, next, ⟨es, lostErrors_eq .. ▸ perm, told⟩, shown, rest⟩
  · intro t want same cls settled unpolled replaced
    obtain ⟨rolls, others, lines⟩ := publish_atGantry g s
    have replaces {p : Pending} (hp : r.pending = some p)
        (e : s.publish g = (s.endConfirmation g).replacePending g want) : replaced p := by
      obtain ⟨record, ⟨gone, kept, confirm⟩, stays, moves⟩ := e ▸ replaced_holds hg hr want hp
      exact ⟨record, ⟨gone, kept, confirm⟩, stays, moves⟩
    refine ⟨others, lines gr hg, rolls, publish_elsewhere, fun online => ⟨publish_inFlight hr online,
      fun idle eq => ⟨fun p hp hk hn => ?_, fun keeps => ?_⟩, fun idle differs => ⟨fun absent => ?_, fun p hp =>
        ⟨fun carried => ?_, fun other => replaces hp (publish_replaces online hr idle hp differs other)⟩⟩⟩,
      fun suspect => ⟨fun p hp retry other => replaces hp (publish_retry hr suspect hp retry other),
        publish_retryStays hr suspect⟩⟩
    · have e : s.publish g = _ := (publish_compare online hr idle).trans (compare_removes hr eq hp hk hn)
      rw [removePending_eq hg] at e
      refine ⟨?_, fun x hx => ?_⟩
      · simp only [t, e, onLine_rollout, onRollout_rollout, look_adjust_self, hr]
        rfl
      · simp only [t, e, line_onLine_self] at hx
        rcases List.mem_append.1 hx with h | h
        · exact removeShow_free (k := .urgent) h
        · exact removeShow_free (k := .normal) h
    · exact (publish_compare online hr idle).trans (compare_equal hr eq keeps)
    · have e : s.publish g = _ := (publish_compare online hr idle).trans (compare_creates hr differs absent)
      obtain ⟨record, ⟨gone, kept, confirm⟩, tail⟩ := e ▸ created_holds hg hr want
      exact ⟨record, ⟨gone, kept, confirm⟩, tail⟩
    · exact (publish_compare online hr idle).trans (compare_carried hr differs hp carried)
  · intro kinds as cs warns
    refine ⟨(showClass_ordinary ..).trans ((changesWarning_iff ..).trans ?_),
      (showClass_resend ..).trans (carriesWarning_iff as)⟩
    simp only [SignKind.warns_iff, warns]

end Sys2Proof.Machine
end

section
/-! A FAULT record stays in its bank (O8): every command but READ_FAULTS and the resets leaves it there (R170). -/

namespace Sys2Proof.Machine

/-! ### Acts that keep FAULT records -/

/-- Every FAULT record of s stands in its bank in t (R170). -/
structure KeepsFaults (s t : State) : Prop where
  held : ∀ id e, (s.banks.look id).held = some e → e.severity = .fault → (t.banks.look id).held = some e

theorem KeepsFaults.refl (s : State) : KeepsFaults s s := ⟨fun _ _ h _ => h⟩

theorem KeepsFaults.trans {s t u : State} (h : KeepsFaults s t) (k : KeepsFaults t u) : KeepsFaults s u :=
  ⟨fun id e he hf => k.held id e (h.held id e he hf) hf⟩

theorem KeepsFaults.of_banks {s t : State} (h : t.banks = s.banks) : KeepsFaults s t :=
  ⟨fun id e he _ => by rw [h]; exact he⟩

theorem KeepsFaults.ite {s t u : State} {p : Prop} [Decidable p] (h : KeepsFaults s t) (k : KeepsFaults s u) :
    KeepsFaults s (if p then t else u) := by
  split <;> assumption

theorem Inner.keepsFaults {s t : State} (h : Inner s t) : KeepsFaults s t := ⟨h.held⟩

/-- An event's row keeps the FAULT records that its act keeps. -/
theorem keepsFaults_whenRunning {s t : State} {f : State → State} (e : whenRunning s f = .next t)
    (hf : KeepsFaults s (f s)) : KeepsFaults s t := by
  obtain rfl | ⟨_, rfl⟩ := whenRunning_cases e
  · exact .refl t
  · exact hf

/-- A request row without effect, or one whose banks are those of its block's answer. -/
theorem takeRequest_banks {s t : State} {fits : Byte → Bool} {h : State → List Byte → Answer}
    (e : takeRequest fits h s = .next t) :
    t = s ∨ ∃ u p, u.banks = s.banks ∧ t.banks = (h u p).state.banks := by
  obtain rfl | ⟨f, rest, _, _, rfl⟩ := takeRequest_cases e
  · exact .inl rfl
  · exact .inr ⟨{ s with link := { s.link with rxQueue := rest } }, f.payload, rfl, placeReply_banks ..⟩

/-- A request's row keeps the FAULT records that its block's answer keeps. -/
theorem keepsFaults_takeRequest {s t : State} {fits : Byte → Bool} {h : State → List Byte → Answer}
    (hh : ∀ u p, KeepsFaults u (h u p).state) (e : takeRequest fits h s = .next t) : KeepsFaults s t := by
  obtain rfl | ⟨u, p, hu, ht⟩ := takeRequest_banks e
  · exact .refl t
  · exact (KeepsFaults.of_banks hu).trans ((hh u p).trans (.of_banks ht))

/-! ### Rows of the supervisor link (chapter 2) -/

theorem keepsFaults_setFramer (f : Framer) (s : State) : KeepsFaults s (s.setFramer f) := .of_banks (setFramer_banks ..)

theorem keepsFaults_linkError (c : ErrorCode) (s : State) : KeepsFaults s (s.linkError c) :=
  (inner_linkError c s).keepsFaults

/-- The framer starts anew and its error is recorded. -/
theorem keepsFaults_framerError (f : Framer) (c : ErrorCode) (s : State) : KeepsFaults s ((s.setFramer f).linkError c) :=
  (keepsFaults_setFramer f s).trans (keepsFaults_linkError c _)

theorem keepsFaults_completeFrame (bytes : List Byte) (m : Option CharError) (s : State) :
    KeepsFaults s (s.completeFrame bytes m) := by
  have queued (f : Frame) : KeepsFaults s (s.queueFrame f) := .ite (.of_banks rfl) (keepsFaults_linkError ..)
  unfold State.completeFrame
  split
  · exact keepsFaults_linkError ..
  · exact keepsFaults_linkError ..
  · refine .ite ?_ (keepsFaults_linkError ..)
    split
    · exact queued _
    · exact .refl s

theorem keepsFaults_character (c : SupChar) (both : Bool) (s : State) : KeepsFaults s (s.character c both) := by
  unfold State.character
  dsimp only
  split
  case h_1 => exact .ite (keepsFaults_setFramer ..) (.ite (.refl s) (keepsFaults_framerError ..))
  case h_2 => exact .ite (keepsFaults_framerError ..) (keepsFaults_setFramer ..)
  case h_3 => exact keepsFaults_setFramer ..
  case h_4 => exact .ite (keepsFaults_setFramer ..) ((keepsFaults_setFramer ..).trans (keepsFaults_completeFrame ..))

theorem keepsFaults_receiveCharacter (c : SupChar) (s : State) : KeepsFaults s (s.receiveCharacter c) :=
  .ite (.refl s) (.ite ((inner_draw s).keepsFaults.trans (keepsFaults_character ..)) (keepsFaults_character ..))

theorem keepsFaults_frameTimeout (gap : Nat) (s : State) : KeepsFaults s (s.frameTimeout gap) :=
  .ite (.refl s) (.ite (keepsFaults_framerError ..) (.refl s))

theorem sendReply_banks (s : State) : s.sendReply.banks = s.banks := by
  unfold State.sendReply
  split <;> rfl

theorem sendNotice_banks (s : State) : s.sendNotice.banks = s.banks := by
  unfold State.sendNotice
  split <;> rfl

theorem frameSent_banks (s : State) : s.frameSent.banks = s.banks := by
  unfold State.frameSent
  split <;> rfl

/-! ### Rows of the gantry lines (chapter 3) -/

/-- The telegram ends at its line, and its outcome is handed on unless R54 discards it. -/
theorem keepsFaults_outcome (l : Line) (f : Flight) (e : EngineState) {hand : State → State} (hh : ∀ u, Inner u (hand u))
    (s : State) : KeepsFaults s (s.outcome l f e hand) :=
  have ended : KeepsFaults s (s.onLine l (LineCtl.ended e)) := .of_banks (onLine_banks ..)
  .ite ended (ended.trans (hh _).keepsFaults)

theorem keepsFaults_failureRow (w : Failure) (l : Line) (x : Transcript) (s : State) :
    KeepsFaults s (failureRow w l x s) := by
  unfold failureRow
  split
  · exact .ite (keepsFaults_outcome _ _ _ (inner_handFailure l _ _ _) s) (.refl s)
  · exact .refl s

theorem keepsFaults_startTelegram (l : Line) (s : State) : KeepsFaults s (s.startTelegram l) := by
  refine .ite ?_ (.refl s)
  split
  · exact .refl s
  · exact (KeepsFaults.of_banks (onLine_banks ..)).trans (inner_takeShow ..).keepsFaults

theorem keepsFaults_showAccepted (l : Line) (x : Transcript) {s t : State} (e : execShowAccepted l x s = .next t) :
    KeepsFaults s t := by
  refine keepsFaults_whenRunning e ?_
  split
  · exact keepsFaults_outcome _ _ _ (inner_handAccepted _) s
  · exact .refl s

theorem keepsFaults_stateReply (l : Line) (x : Transcript) {s t : State} (e : execStateReply l x s = .next t) :
    KeepsFaults s t := by
  refine keepsFaults_whenRunning e ?_
  split
  · exact keepsFaults_outcome _ _ _ (inner_handState l _ _) s
  · exact .refl s

theorem keepsFaults_traceReply (l : Line) (x : Transcript) {s t : State} (e : execTraceReply l x s = .next t) :
    KeepsFaults s t := by
  refine keepsFaults_whenRunning e ?_
  split
  · exact keepsFaults_outcome _ _ _ (inner_handTrace l _ _) s
  · exact .refl s

theorem keepsFaults_describeReply (l : Line) (x : Transcript) {s t : State} (e : execDescribeReply l x s = .next t) :
    KeepsFaults s t := by
  refine keepsFaults_whenRunning e ?_
  split
  · exact keepsFaults_outcome _ _ _ (fun u => (inner_nodeSucceeded ..).trans (inner_described ..)) s
  · exact .refl s

theorem keepsFaults_capsReply (l : Line) (x : Transcript) {s t : State} (e : execCapsReply l x s = .next t) :
    KeepsFaults s t := by
  refine keepsFaults_whenRunning e ?_
  split
  · exact keepsFaults_outcome _ _ _ (fun u => (inner_nodeSucceeded ..).trans (inner_capsTaken ..)) s
  · exact .refl s

/-- A row that leaves all but one line's controller alone. -/
theorem keepsFaults_onLine {l : Line} {f : LineCtl → LineCtl} {s t : State}
    (e : whenRunning s (fun s => s.onLine l f) = .next t) : KeepsFaults s t :=
  keepsFaults_whenRunning e (.of_banks (onLine_banks ..))

theorem keepsFaults_passComplete {s t : State} (e : execPassComplete s = .next t) : KeepsFaults s t := by
  refine keepsFaults_whenRunning e ?_
  split
  · exact .refl s
  · exact (inner_completePass ..).keepsFaults

/-! ### Requests (chapters 1, 2, 4 to 9) -/

theorem keepsFaults_of_state_eq {h : State → List Byte → Answer} (hh : ∀ u p, (h u p).state = u) (u : State)
    (p : List Byte) : KeepsFaults u (h u p).state := by
  rw [hh]
  exact .refl u

theorem handleDefineGantry_banks (s : State) (p : List Byte) : (handleDefineGantry s p).state.banks = s.banks := by
  unfold handleDefineGantry
  repeat' split
  all_goals rfl

theorem handleDefineStation_banks (s : State) (p : List Byte) : (handleDefineStation s p).state.banks = s.banks := by
  unfold handleDefineStation
  repeat' split
  all_goals rfl

/-- A group that waits or is stored leaves the banks alone; a PLAN group in RUN is an act inside a step (R11). -/
theorem keepsFaults_storeGroup (v : GroupValue) (s : State) : KeepsFaults s (s.storeGroup v) := by
  unfold State.storeGroup
  split
  case h_5 => exact (inner_planInRun ..).keepsFaults
  all_goals exact .of_banks rfl

theorem keepsFaults_setParameters (s : State) (p : List Byte) : KeepsFaults s (handleSetParameters s p).state := by
  unfold handleSetParameters
  repeat' split
  all_goals first
    | exact .refl s
    | exact keepsFaults_storeGroup ..

theorem keepsFaults_startRun (s : State) : KeepsFaults s s.startRun :=
  .trans (t := s.begun) (.of_banks rfl) (inner_startRun s).keepsFaults

/-- START refuses, or begins a run (R12, R13). -/
theorem handleStart_state (s : State) (p : List Byte) :
    (handleStart s p).state = s ∨ (handleStart s p).state = s.startRun := by
  unfold handleStart
  repeat' split
  · exact .inl rfl
  · exact .inl rfl
  · exact .inl rfl
  · exact .inr rfl

theorem keepsFaults_start (s : State) (p : List Byte) : KeepsFaults s (handleStart s p).state := by
  obtain e | e := handleStart_state s p <;> rw [e]
  · exact .refl s
  · exact keepsFaults_startRun s

theorem handleStop_banks (s : State) (p : List Byte) : (handleStop s p).state.banks = s.banks := by
  unfold handleStop
  repeat' split
  all_goals rfl

theorem handleReset_banks (s : State) (p : List Byte) : (handleReset s p).state.banks = s.banks := by
  unfold handleReset
  split <;> rfl

/-- A change beside the banks, with its trigger of a pass. -/
theorem keepsFaults_triggered {s t : State} (h : t.banks = s.banks) : KeepsFaults s t.trigger :=
  (KeepsFaults.of_banks h).trans (inner_trigger t).keepsFaults

theorem keepsFaults_placeChecked (s : State) (d : Demand) (v : Option Nat) : KeepsFaults s (placeChecked s d v).state := by
  obtain e | ⟨n, _, e⟩ := placeChecked_state s d v <;> rw [e]
  · exact .refl s
  · exact keepsFaults_triggered rfl

theorem keepsFaults_placeDemand (s : State) (p : List Byte) : KeepsFaults s (handlePlaceDemand s p).state := by
  unfold handlePlaceDemand
  repeat' split
  all_goals first
    | exact .refl s
    | exact keepsFaults_placeChecked ..

theorem keepsFaults_withdrawDemand (s : State) (p : List Byte) : KeepsFaults s (handleWithdrawDemand s p).state := by
  unfold handleWithdrawDemand
  repeat' split
  all_goals first
    | exact .refl s
    | exact keepsFaults_triggered rfl

theorem keepsFaults_shoulder (s : State) (p : List Byte) : KeepsFaults s (handleShoulder s p).state := by
  obtain e | ⟨_, n, w, e⟩ := handleShoulder_state s p <;> rw [e]
  · exact .refl s
  · exact keepsFaults_triggered rfl

theorem handleLuminance_banks (s : State) (p : List Byte) : (handleLuminance s p).state.banks = s.banks := by
  unfold handleLuminance
  repeat' split
  all_goals rfl

/-! ### Every command -/

/-- Every command but READ_FAULTS and the resets keeps the FAULT records. -/
theorem keepsFaults_exec {c : Instr} {s t : State} (hc : isReset c = false) (hr : c ≠ .readFaults)
    (e : exec c s = .next t) : KeepsFaults s t := by
  cases c with
  | powerOn | resetN | resetReplySent => cases hc
  | readFaults => exact absurd rfl hr
  | supRxCharacter c => exact keepsFaults_whenRunning e (keepsFaults_receiveCharacter c s)
  | frameTimeout n => exact keepsFaults_whenRunning e (keepsFaults_frameTimeout n s)
  | sendReply => exact keepsFaults_whenRunning e (.of_banks (sendReply_banks s))
  | sendNotice => exact keepsFaults_whenRunning e (.of_banks (sendNotice_banks s))
  | frameSent => exact keepsFaults_whenRunning e (.of_banks (frameSent_banks s))
  | unknownType => exact keepsFaults_takeRequest (keepsFaults_of_state_eq unknown_state) e
  | identify => exact keepsFaults_takeRequest (keepsFaults_of_state_eq identify_state) e
  | readGantry => exact keepsFaults_takeRequest (keepsFaults_of_state_eq readGantry_state) e
  | readStation => exact keepsFaults_takeRequest (keepsFaults_of_state_eq readStation_state) e
  | readIncidents => exact keepsFaults_takeRequest (keepsFaults_of_state_eq readIncidents_state) e
  | defineGantry => exact keepsFaults_takeRequest (fun u p => .of_banks (handleDefineGantry_banks u p)) e
  | defineStation => exact keepsFaults_takeRequest (fun u p => .of_banks (handleDefineStation_banks u p)) e
  | setParameters => exact keepsFaults_takeRequest keepsFaults_setParameters e
  | start => exact keepsFaults_takeRequest keepsFaults_start e
  | stop => exact keepsFaults_takeRequest (fun u p => .of_banks (handleStop_banks u p)) e
  | reset => exact keepsFaults_takeRequest (fun u p => .of_banks (handleReset_banks u p)) e
  | raiseIncident => exact keepsFaults_takeRequest (fun u p => (inner_raiseIncident u p).keepsFaults) e
  | amendIncident => exact keepsFaults_takeRequest (fun u p => (inner_amendIncident u p).keepsFaults) e
  | clearIncident => exact keepsFaults_takeRequest (fun u p => (inner_clearIncident u p).keepsFaults) e
  | confirmIncident => exact keepsFaults_takeRequest (fun u p => (inner_confirmIncident u p).keepsFaults) e
  | placeDemand => exact keepsFaults_takeRequest keepsFaults_placeDemand e
  | withdrawDemand => exact keepsFaults_takeRequest keepsFaults_withdrawDemand e
  | shoulder => exact keepsFaults_takeRequest keepsFaults_shoulder e
  | gantryService => exact keepsFaults_takeRequest (fun u p => (inner_gantryService u p).keepsFaults) e
  | stationReset => exact keepsFaults_takeRequest (fun u p => (inner_stationReset u p).keepsFaults) e
  | luminance => exact keepsFaults_takeRequest (fun u p => .of_banks (handleLuminance_banks u p)) e
  | readNode => exact keepsFaults_takeRequest (fun u p => (inner_readNode u p).keepsFaults) e
  | telegramStart l => exact keepsFaults_whenRunning e (keepsFaults_startTelegram l s)
  | showAccepted l x => exact keepsFaults_showAccepted l x e
  | stateReply l x => exact keepsFaults_stateReply l x e
  | traceReply l x => exact keepsFaults_traceReply l x e
  | describeReply l x => exact keepsFaults_describeReply l x e
  | capsReply l x => exact keepsFaults_capsReply l x e
  | noNode l x | nackLimit l x | corrupt l x | replyTimeout l x | replyBroken l x =>
    exact keepsFaults_whenRunning e (keepsFaults_failureRow _ l x s)
  | sent | lineQuietEnd | lumenRepeat => exact keepsFaults_onLine e
  | tracePollDue g => exact keepsFaults_whenRunning e (inner_pollTrace g s).keepsFaults
  | routineStateDue g => exact keepsFaults_whenRunning e (inner_pollState g s).keepsFaults
  | confirmDue g =>
    exact keepsFaults_whenRunning (f := fun s => s.onLineOf g (LineCtl.confirmDue g)) e (.of_banks (onLineOf_banks ..))
  | offlineRetry g => exact keepsFaults_whenRunning e (.ite (inner_offlineRetry g s).keepsFaults (.refl s))
  | intervalClose => exact keepsFaults_whenRunning e (.ite (inner_closeInterval s).keepsFaults (.refl s))
  | incidentExpiry n => exact keepsFaults_whenRunning e (inner_expireIncident n s).keepsFaults
  | passComplete => exact keepsFaults_passComplete e
  | gateExpired g => exact keepsFaults_whenRunning e (.ite (inner_expireGate g s).keepsFaults (.refl s))

/-- Settles O8: an error that arrives never displaces a FAULT (`take_held`), and no command but READ_FAULTS and the
resets does more to a bank than let errors arrive. -/
theorem faultRecordStaysUntilRead : Obligations.FaultRecordStaysUntilRead :=
  fun _ _ _ id x hc hr hx hf e => (keepsFaults_exec hc hr e).held id x hx hf

end Sys2Proof.Machine
end

section
/-! READ_FAULTS and the bytes of its reply (O40). -/

namespace Sys2Proof.Machine

/-! ### The bank that a byte names (R173, R174) -/

theorem bankOfCode_past {b : Byte} (h : 4 < b.toNat) : bankOfCode b = none := by
  have hne (n : Nat) (hn : n ≤ 4) : b ≠ BitVec.ofNat 8 n := by
    rintro rfl
    rw [BitVec.toNat_ofNat] at h
    omega
  rw [bankOfCode, if_neg (hne 0 (by omega)), if_neg (hne 1 (by omega)), if_neg (hne 2 (by omega)),
    if_neg (hne 3 (by omega)), if_neg (hne 4 (by omega))]

theorem bankOfCode_row {b : Byte} {id : BankId}
    (h : (b, id) ∈ [(0#8, BankId.link), (1#8, .lineA), (2#8, .lineB), (3#8, .measure), (4#8, .plan)]) :
    bankOfCode b = some id := by
  simp only [List.mem_cons, Prod.mk.injEq, List.not_mem_nil, or_false] at h
  obtain ⟨rfl, rfl⟩ | ⟨rfl, rfl⟩ | ⟨rfl, rfl⟩ | ⟨rfl, rfl⟩ | ⟨rfl, rfl⟩ := h <;> rfl

/-! ### The row READ_FAULTS (R173) -/

section Row

variable {s : State} {f : Frame} {rest : List Frame} {b : Byte} {id : BankId}

theorem readFaults_badLength (ht : s.takes 0x16#8 f rest) (hp : f.payload.length ≠ 1) :
    exec .readFaults s = .next (s.answered f rest .badLength .none) := by
  refine takeRequest_refused handleReadFaults ht rfl ?_
  unfold handleReadFaults
  split
  · next b hb => rw [hb] at hp; exact absurd rfl hp
  · rfl

theorem readFaults_badValue (ht : s.takes 0x16#8 f rest) (hp : f.payload = [b]) (hb : bankOfCode b = none) :
    exec .readFaults s = .next (s.answered f rest .badValue .none) := by
  refine takeRequest_refused handleReadFaults ht rfl ?_
  simp only [handleReadFaults, hp, hb]
  rfl

/-- READ_FAULTS of a bank replies with the bank and empties it. -/
theorem readFaults_bank (ht : s.takes 0x16#8 f rest) (hp : f.payload = [b]) (hb : bankOfCode b = some id) :
    exec .readFaults s = .next { s.answered f rest .ok (.bank id (s.banks.look id)) with
      banks := s.banks.put id Bank.empty } := by
  have ha : handleReadFaults { s with link := { s.link with rxQueue := rest } } f.payload =
      ⟨{ s with link := { s.link with rxQueue := rest }, banks := s.banks.put id Bank.empty }, .ok,
        .bank id (s.banks.look id)⟩ := by
    simp only [handleReadFaults, hp, hb]
  exact takeRequest_answer ht rfl ha

end Row

/-- An error whose FAULT notice finds room is held without overflow in a bank that is clear (R170). -/
theorem record_clear {s : State} {id : BankId} (h : s.link.notices.length < 32) (hb : (s.banks.look id).held = none)
    (c : ErrorCode) (v : Severity) (g st : Option Nat) :
    (s.record id c v g st).banks.look id = ⟨some ⟨v, c, g, st, s.clock⟩, false⟩ := by
  have room : (s.bankTook id ⟨v, c, g, st, s.clock⟩).link.notices.length < 32 := h
  rw [record_eq, raise_room room]
  exact (banks_look_put_self ..).trans (take_empty hb _)

/-! ### The bytes of a bank (R169, R174) -/

/-- The four bytes of a clock value, high byte first. -/
theorem bClock_eq (c : Clock) : bClock c =
    [c.extractLsb' 24 8, c.extractLsb' 16 8, c.extractLsb' 8 8, c.extractLsb' 0 8] := by
  have byte (k : Nat) : BitVec.ofNat 8 (c.toNat / 2 ^ k) = c.extractLsb' k 8 := by
    apply BitVec.eq_of_toNat_eq
    rw [BitVec.toNat_ofNat, BitVec.extractLsb'_toNat, Nat.shiftRight_eq_div_pow]
  rw [bClock, b4, b2, b2, ← byte 24, ← byte 16, ← byte 8, ← byte 0, Nat.div_div_eq_div_mul]
  simp

theorem bBool_eq (b : Bool) : bBool b = [if b then 1#8 else 0#8] := by cases b <;> rfl

/-- A number that may be absent: its presence byte, then its value (R174). -/
theorem bOpt_b1_eq (o : Option Nat) : bOpt b1 o = match o with | none => [0#8] | some n => [1#8, BitVec.ofNat 8 n] := by
  cases o <;> rfl

theorem severity_byte (v : Severity) : b1 v.code = [match v with | .warn => 0#8 | .fault => 1#8] := by
  cases v <;> rfl

theorem bBank_none (id : BankId) (more : Bool) : bBank id ⟨none, more⟩ =
    b1 id.code ++ [0#8] ++ bBool more ++ [0#8, 0#8, 0#8, 0#8, 0#8] := by
  simp only [bBank, bOpt, Option.bind_none, Option.isSome_none, List.append_assoc]
  rfl

/-- Of an error that is held severity, code and clock are present. -/
theorem bBank_some (id : BankId) (more : Bool) (e : ErrorRec) : bBank id ⟨some e, more⟩ =
    b1 id.code ++ [1#8] ++ bBool more ++ (1#8 :: b1 e.severity.code) ++ (1#8 :: b1 e.code.value) ++ bOpt b1 e.gantry ++
      bOpt b1 e.station ++ (1#8 :: bClock e.clock) :=
  rfl

/-- Settles O40: the row from `readFaults_bank`, the bytes field by field in the order of R169. -/
theorem readFaultsClearsOneBank : Obligations.ReadFaultsClearsOneBank := by
  refine ⟨fun s f rest ht => ⟨readFaults_badLength ht, fun b hp hb => readFaults_badValue ht hp (bankOfCode_past hb),
    fun b id hp hb => ⟨_, readFaults_bank ht hp (bankOfCode_row hb), banks_look_put_self ..,
      fun m hm => banks_look_put_other _ _ hm, rfl, fun c v g st room => ?_⟩⟩, fun id more => ?_, fun id more e => ?_⟩
  · exact record_clear room (by rw [banks_look_put_self]; rfl) ..
  · rw [Detail.bytes, bBank_none, bBool_eq]
    rfl
  · rw [Detail.bytes, bBank_some, bBool_eq, severity_byte, bOpt_b1_eq, bOpt_b1_eq, bClock_eq]
    rfl

end Sys2Proof.Machine
end

section
/-! The FAULT output (O9): what asserts it, what releases it, and what leaves it as it is (R172). -/

namespace Sys2Proof.Machine

/-! ### The output and the banks -/

theorem bank_faulty_iff (b : Bank) : b.faulty = true ↔ ∃ e, b.held = some e ∧ e.severity = .fault := by
  cases h : b.held <;> simp [Bank.faulty, h]

theorem output_iff (b : Banks) : b.output = true ↔ ∃ id, (b.look id).faulty = true := by
  simp only [Banks.output, Bool.or_eq_true]
  constructor
  · rintro ((((h | h) | h) | h) | h)
    · exact ⟨.link, h⟩
    · exact ⟨.lineA, h⟩
    · exact ⟨.lineB, h⟩
    · exact ⟨.measure, h⟩
    · exact ⟨.plan, h⟩
  · rintro ⟨id, h⟩
    cases id with
    | link => exact .inl (.inl (.inl (.inl h)))
    | lineA => exact .inl (.inl (.inl (.inr h)))
    | lineB => exact .inl (.inl (.inr h))
    | measure => exact .inl (.inr h)
    | plan => exact .inr h

theorem faultOutput_iff (s : State) :
    s.faultOutput = true ↔ ∃ id e, (s.banks.look id).held = some e ∧ e.severity = .fault := by
  simp only [State.faultOutput, output_iff, bank_faulty_iff]

theorem faultOutput_congr {s t : State} (h : t.banks = s.banks) : t.faultOutput = s.faultOutput :=
  congrArg Banks.output h

/-- Without a FAULT in any bank the output is released. -/
theorem faultOutput_released {s : State} (h : ∀ id e, (s.banks.look id).held = some e → e.severity = .warn) :
    s.faultOutput = false := by
  refine Bool.eq_false_iff.2 fun k => ?_
  obtain ⟨id, e, he, hf⟩ := (faultOutput_iff s).1 k
  rw [h id e he] at hf
  cases hf

/-! ### The recording of a FAULT -/

/-- A FAULT that arrives leaves a FAULT in its bank, itself or the one that was there (R170). -/
theorem take_of_fault (b : Bank) {e : ErrorRec} (he : e.severity = .fault) :
    ∃ x, (b.take e).1.held = some x ∧ x.severity = .fault := by
  cases h : b.held with
  | none => exact ⟨e, by rw [take_empty h], he⟩
  | some x =>
    cases hx : x.severity with
    | warn => exact ⟨e, by rw [take_replaces h hx he], he⟩
    | fault => exact ⟨x, take_held h hx, hx⟩

theorem faultOutput_recordFault (id : BankId) (c : ErrorCode) (g st : Option Nat) (s : State) :
    (s.record id c .fault g st).faultOutput = true := by
  obtain ⟨x, held, fault⟩ := take_of_fault (s.banks.look id) (e := ⟨.fault, c, g, st, s.clock⟩) rfl
  rw [record_eq]
  refine (faultOutput_iff _).2 ⟨id, x, (inner_raise _ _).held id x ?_ fault, fault⟩
  exact (congrArg Bank.held (banks_look_put_self ..)).trans held

/-! ### Resets -/

/-- The state of R15 has the FAULT output released, and each reset leads there, but for a RESET_N that stays high and a
RESET_REPLY_SENT without its reply. -/
theorem faultOutput_reset {c : Instr} {s t : State} (hc : isReset c = true)
    (hs : ∀ r1 r0, c = .resetReplySent r1 r0 → ∃ x r, s.link.tx = some x ∧ x.what = .resetReply r ∧ s.resetHigh = true)
    (hn : ∀ r1 r0, c = .resetN true r1 r0 → s.resetHigh = false) (e : exec c s = .next t) : t.faultOutput = false := by
  cases c with
  | powerOn r1 r0 => cases e; rfl
  | resetN high r1 r0 =>
    cases e
    cases high with
    | false => rfl
    | true => rw [State.resetPin, if_pos rfl, hn r1 r0 rfl]; rfl
  | resetReplySent r1 r0 =>
    obtain ⟨⟨w, bs⟩, r, tx, rfl, high⟩ := hs r1 r0 rfl
    cases (whenRunning_eq high _).symm.trans e
    rw [if_pos (sendsReset_of_tx tx)]
    rfl
  | _ => cases hc

/-! ### START and STOP -/

/-- A notice raises no FAULT: the NOTICE_LOST of a full queue is a WARN (R30). -/
theorem faultOutput_raise (b : NoticeBody) (s : State) : (s.raise b).faultOutput = s.faultOutput := by
  unfold State.raise
  split
  · rfl
  · split
    · rfl
    · exact output_take_warn s.banks .link rfl

theorem faultOutput_nodeEvent (g : Nat) (old new : NodeState) (r : Reason) (m : Option Mismatch) (s : State) :
    (s.nodeEvent g old new r m).faultOutput = s.faultOutput := by
  unfold State.nodeEvent
  split
  · rfl
  · exact faultOutput_raise ..

/-- A node that a START moves on to DESCRIBING records nothing (R65). -/
theorem faultOutput_describeNode {g : Nat} {s : State} {gr : GantryRec} (hg : s.geo.gantries.look g = some gr) :
    (s.changeNode g .describing .start none).faultOutput = s.faultOutput := by
  cases hn : s.nodes.look g with
  | none => simp only [State.changeNode, hn]
  | some n =>
    have shown : s.forgetNotice g .describing = none := by simp [State.forgetNotice]
    refine (faultOutput_congr (changeNode_banks hn hg)).trans ?_
    rw [shown]
    exact faultOutput_nodeEvent ..

theorem look_of_mem_keys {α : Type} {t : Table α} {n : Nat} (h : n ∈ t.keys) : ∃ v, t.look n = some v := by
  induction t with
  | nil => cases h
  | cons kv t ih =>
    obtain ⟨k, w⟩ := kv
    by_cases e : n = k
    · exact ⟨w, (look_cons ..).trans (if_pos e)⟩
    · obtain ⟨v, hv⟩ := ih ((List.mem_cons.1 h).resolve_left e)
      exact ⟨v, (look_cons ..).trans ((if_neg e).trans hv)⟩

theorem faultOutput_describeAll (gs : List Nat) {s : State} (h : ∀ g ∈ gs, ∃ r, s.geo.gantries.look g = some r) :
    (describeAll gs s).faultOutput = s.faultOutput := by
  induction gs generalizing s with
  | nil => rfl
  | cons g gs ih =>
    obtain ⟨r, hr⟩ := h g List.mem_cons_self
    refine (ih fun k hk => ?_).trans (faultOutput_describeNode hr)
    rw [(touch_changeNode ..).geo]
    exact h k (List.mem_cons_of_mem _ hk)

theorem faultOutput_startRun (s : State) : s.startRun.faultOutput = s.faultOutput := by
  refine (faultOutput_congr (passes_trigger _).banks).trans ?_
  exact faultOutput_describeAll _ (s := s.begun) fun g hg => look_of_mem_keys hg

/-- A request's row leaves the output as its block's answer does. -/
theorem faultOutput_takeRequest {s t : State} {fits : Byte → Bool} {h : State → List Byte → Answer}
    (hh : ∀ u p, (h u p).state.faultOutput = u.faultOutput) (e : takeRequest fits h s = .next t) :
    t.faultOutput = s.faultOutput := by
  obtain rfl | ⟨u, p, hu, ht⟩ := takeRequest_banks e
  · rfl
  · exact (faultOutput_congr ht).trans ((hh u p).trans (faultOutput_congr hu))

theorem faultOutput_start (s : State) (p : List Byte) : (handleStart s p).state.faultOutput = s.faultOutput := by
  obtain e | e := handleStart_state s p <;> rw [e]
  exact faultOutput_startRun s

/-! ### The obligation -/

/-- Settles O9: the output reads the banks, so each clause is what its command does to them. -/
theorem faultOutputFollowsBanks : Obligations.FaultOutputFollowsBanks := by
  refine ⟨faultOutput_iff, fun c s t hc hs hn e => faultOutput_reset hc hs hn e,
    fun s id c g st => faultOutput_recordFault id c g st s, fun s t f rest b id ht hp hb hw e => ?_, ?_⟩
  · cases (readFaults_bank ht hp hb).symm.trans e
    refine faultOutput_released fun m x hx => ?_
    by_cases hm : m = id
    · subst hm
      rw [banks_look_put_self] at hx
      cases hx
    · exact hw m x hm (by rwa [banks_look_put_other _ _ hm] at hx)
  · rintro c s t (rfl | rfl) e
    · exact faultOutput_takeRequest faultOutput_start e
    · exact faultOutput_takeRequest (fun u p => faultOutput_congr (handleStop_banks u p)) e

end Sys2Proof.Machine
end

section
/-! The queue of waiting commands (O1, O3): a step runs the command at its front, and no command changes the rest. -/

namespace Sys2Proof.Machine

/-- Settles O1. -/
theorem stepRunsFrontCommand : Obligations.StepRunsFrontCommand := by
  intro c rest s h
  simp only [step, h]

/-! ### The two kinds of row (R25, log 2) -/

section Rows

variable {s t : State}

/-- An event's row keeps the queue where its act does. -/
theorem whenRunning_pending {f : State → State} (e : whenRunning s f = .next t) (hf : (f s).pending = s.pending) :
    t.pending = s.pending := by
  obtain rfl | ⟨_, rfl⟩ := whenRunning_cases e
  · rfl
  · exact hf

/-- A request's row keeps the queue where its block's answer does. -/
theorem takeRequest_pending {fits : Byte → Bool} {h : State → List Byte → Answer}
    (hh : ∀ u p, (h u p).state.pending = u.pending) (e : takeRequest fits h s = .next t) : t.pending = s.pending := by
  obtain rfl | ⟨f, rest, _, _, rfl⟩ := takeRequest_cases e
  · rfl
  · exact (placeReply_pending ..).trans (hh ..)

/-- A request's row keeps the queue where its block only reads. -/
theorem takeRequest_pending_of_state {fits : Byte → Bool} {h : State → List Byte → Answer}
    (hh : ∀ u p, (h u p).state = u) (e : takeRequest fits h s = .next t) : t.pending = s.pending :=
  takeRequest_pending (fun u p => congrArg State.pending (hh u p)) e

/-- A request's row keeps the queue where its block's answer is an act inside a step. -/
theorem takeRequest_pending_of_inner {fits : Byte → Bool} {h : State → List Byte → Answer}
    (hh : ∀ u p, Inner u (h u p).state) (e : takeRequest fits h s = .next t) : t.pending = s.pending :=
  takeRequest_pending (fun u p => (hh u p).pending) e

end Rows

/-! ### Rows of the supervisor link (chapter 2) -/

@[simp] theorem linkError_pending (c : ErrorCode) (s : State) : (s.linkError c).pending = s.pending :=
  (inner_linkError c s).pending

@[simp] theorem queueFrame_pending (f : Frame) (s : State) : (s.queueFrame f).pending = s.pending := by
  unfold State.queueFrame
  split
  · rfl
  · exact linkError_pending ..

@[simp] theorem completeFrame_pending (bytes : List Byte) (m : Option CharError) (s : State) :
    (s.completeFrame bytes m).pending = s.pending := by
  unfold State.completeFrame
  split
  · exact linkError_pending ..
  · exact linkError_pending ..
  · dsimp only
    split
    · split
      · exact queueFrame_pending ..
      · rfl
    · exact linkError_pending ..

@[simp] theorem character_pending (c : SupChar) (both : Bool) (s : State) :
    (s.character c both).pending = s.pending := by
  unfold State.character
  dsimp only
  split
  case h_1 => split_ifs <;> simp
  case h_2 => split_ifs <;> simp
  case h_3 => rfl
  case h_4 => split_ifs <;> simp

theorem receiveCharacter_pending (c : SupChar) (s : State) : (s.receiveCharacter c).pending = s.pending := by
  unfold State.receiveCharacter
  split_ifs <;> simp

theorem frameTimeout_pending (gap : Nat) (s : State) : (s.frameTimeout gap).pending = s.pending := by
  unfold State.frameTimeout
  split_ifs <;> simp

theorem sendReply_pending (s : State) : s.sendReply.pending = s.pending := by
  unfold State.sendReply
  split <;> rfl

theorem sendNotice_pending (s : State) : s.sendNotice.pending = s.pending := by
  unfold State.sendNotice
  split <;> rfl

theorem frameSent_pending (s : State) : s.frameSent.pending = s.pending := by
  unfold State.frameSent
  split <;> rfl

/-! ### Rows of the gantry lines (chapter 3) -/

@[simp] theorem handAccepted_pending (f : Flight) (s : State) : (s.handAccepted f).pending = s.pending :=
  (inner_handAccepted f s).pending

@[simp] theorem handState_pending (l : Line) (f : Flight) (r : StateReply) (s : State) :
    (s.handState l f r).pending = s.pending := (inner_handState l f r s).pending

@[simp] theorem handTrace_pending (l : Line) (f : Flight) (r : TraceReply) (s : State) :
    (s.handTrace l f r).pending = s.pending := (inner_handTrace l f r s).pending

@[simp] theorem nodeSucceeded_pending (g : Nat) (retry : Bool) (s : State) :
    (s.nodeSucceeded g retry).pending = s.pending := (inner_nodeSucceeded g retry s).pending

@[simp] theorem described_pending (g : Nat) (r : DescribeReply) (s : State) : (s.described g r).pending = s.pending :=
  (inner_described g r s).pending

@[simp] theorem capsTaken_pending (g i : Nat) (es : List Aspect) (s : State) :
    (s.capsTaken g i es).pending = s.pending := (inner_capsTaken g i es s).pending

/-- The telegram ends at its line, and its outcome is handed on unless R54 discards it. -/
theorem outcome_pending (l : Line) (f : Flight) (e : EngineState) {hand : State → State}
    (hh : ∀ u, (hand u).pending = u.pending) (s : State) : (s.outcome l f e hand).pending = s.pending := by
  unfold State.outcome
  dsimp only
  split
  · exact onLine_pending ..
  · exact (hh _).trans (onLine_pending ..)

theorem failureRow_pending (w : Failure) (l : Line) (x : Transcript) (s : State) :
    (failureRow w l x s).pending = s.pending := by
  unfold failureRow
  split
  · split
    · exact outcome_pending _ _ _ (fun u => (inner_handFailure l _ _ _ u).pending) s
    · rfl
  · rfl

theorem startTelegram_pending (l : Line) (s : State) : (s.startTelegram l).pending = s.pending := by
  unfold State.startTelegram
  split
  · split
    · rfl
    · exact (inner_takeShow ..).pending.trans (onLine_pending ..)
  · rfl

/-- A row that leaves all but one line's controller alone. -/
theorem whenRunning_onLine_pending {l : Line} {f : LineCtl → LineCtl} {s t : State}
    (e : whenRunning s (fun s => s.onLine l f) = .next t) : t.pending = s.pending :=
  whenRunning_pending e (onLine_pending ..)

/-! ### The end of a pass (chapter 8) -/

theorem execPassComplete_pending {s t : State} (e : execPassComplete s = .next t) : t.pending = s.pending := by
  refine whenRunning_pending e ?_
  split
  · rfl
  · exact (inner_completePass ..).pending

/-! ### Requests whose answer is not an act inside a step -/

@[simp] theorem trigger_pending (s : State) : s.trigger.pending = s.pending := (inner_trigger s).pending

theorem handleDefineGantry_pending (s : State) (p : List Byte) :
    (handleDefineGantry s p).state.pending = s.pending := by
  unfold handleDefineGantry
  repeat' split
  all_goals rfl

theorem handleDefineStation_pending (s : State) (p : List Byte) :
    (handleDefineStation s p).state.pending = s.pending := by
  unfold handleDefineStation
  repeat' split
  all_goals rfl

/-- A group that waits or is stored leaves the queue alone; a PLAN group in RUN is an act inside a step (R11). -/
theorem storeGroup_pending (v : GroupValue) (s : State) : (s.storeGroup v).pending = s.pending := by
  unfold State.storeGroup
  split
  case h_5 => exact (inner_planInRun ..).pending
  all_goals rfl

theorem handleSetParameters_pending (s : State) (p : List Byte) :
    (handleSetParameters s p).state.pending = s.pending := by
  unfold handleSetParameters
  repeat' split
  all_goals first
    | rfl
    | exact storeGroup_pending ..

theorem handleStart_pending (s : State) (p : List Byte) : (handleStart s p).state.pending = s.pending := by
  obtain e | e := handleStart_state s p <;> rw [e]
  exact (inner_startRun s).pending

theorem handleStop_pending (s : State) (p : List Byte) : (handleStop s p).state.pending = s.pending := by
  unfold handleStop
  repeat' split
  all_goals rfl

theorem handleReset_pending (s : State) (p : List Byte) : (handleReset s p).state.pending = s.pending := by
  unfold handleReset
  split <;> rfl

theorem placeChecked_pending (s : State) (d : Demand) (v : Option Nat) :
    (placeChecked s d v).state.pending = s.pending := by
  obtain e | ⟨n, _, e⟩ := placeChecked_state s d v <;> rw [e]
  exact trigger_pending _

theorem handlePlaceDemand_pending (s : State) (p : List Byte) : (handlePlaceDemand s p).state.pending = s.pending := by
  unfold handlePlaceDemand
  repeat' split
  all_goals first
    | rfl
    | exact placeChecked_pending ..

theorem handleWithdrawDemand_pending (s : State) (p : List Byte) :
    (handleWithdrawDemand s p).state.pending = s.pending := by
  unfold handleWithdrawDemand
  repeat' split
  all_goals first
    | rfl
    | exact trigger_pending _

theorem handleShoulder_pending (s : State) (p : List Byte) : (handleShoulder s p).state.pending = s.pending := by
  obtain e | ⟨_, n, w, e⟩ := handleShoulder_state s p <;> rw [e]
  exact trigger_pending _

theorem handleLuminance_pending (s : State) (p : List Byte) : (handleLuminance s p).state.pending = s.pending := by
  unfold handleLuminance
  repeat' split
  all_goals rfl

theorem handleReadFaults_pending (s : State) (p : List Byte) : (handleReadFaults s p).state.pending = s.pending := by
  unfold handleReadFaults
  repeat' split
  all_goals rfl

/-! ### Every command -/

/-- Settles O3: an event's row keeps the queue as its act does, a request's row as its block's answer does, and
the state of a reset carries the queue over. -/
theorem everyCommandKeepsTheQueue : Obligations.EveryCommandKeepsTheQueue := by
  intro c s t e
  cases c with
  | powerOn | resetN | resetReplySent =>
    obtain rfl | ⟨rate, high, rfl⟩ := exec_reset rfl e
    · rfl
    · exact resetWith_pending ..
  | supRxCharacter c => exact whenRunning_pending e (receiveCharacter_pending c s)
  | frameTimeout n => exact whenRunning_pending e (frameTimeout_pending n s)
  | sendReply => exact whenRunning_pending e (sendReply_pending s)
  | sendNotice => exact whenRunning_pending e (sendNotice_pending s)
  | frameSent => exact whenRunning_pending e (frameSent_pending s)
  | unknownType => exact takeRequest_pending_of_state unknown_state e
  | identify => exact takeRequest_pending_of_state identify_state e
  | readGantry => exact takeRequest_pending_of_state readGantry_state e
  | readStation => exact takeRequest_pending_of_state readStation_state e
  | readIncidents => exact takeRequest_pending_of_state readIncidents_state e
  | defineGantry => exact takeRequest_pending handleDefineGantry_pending e
  | defineStation => exact takeRequest_pending handleDefineStation_pending e
  | setParameters => exact takeRequest_pending handleSetParameters_pending e
  | start => exact takeRequest_pending handleStart_pending e
  | stop => exact takeRequest_pending handleStop_pending e
  | reset => exact takeRequest_pending handleReset_pending e
  | raiseIncident => exact takeRequest_pending_of_inner inner_raiseIncident e
  | amendIncident => exact takeRequest_pending_of_inner inner_amendIncident e
  | clearIncident => exact takeRequest_pending_of_inner inner_clearIncident e
  | confirmIncident => exact takeRequest_pending_of_inner inner_confirmIncident e
  | placeDemand => exact takeRequest_pending handlePlaceDemand_pending e
  | withdrawDemand => exact takeRequest_pending handleWithdrawDemand_pending e
  | shoulder => exact takeRequest_pending handleShoulder_pending e
  | gantryService => exact takeRequest_pending_of_inner inner_gantryService e
  | stationReset => exact takeRequest_pending_of_inner inner_stationReset e
  | luminance => exact takeRequest_pending handleLuminance_pending e
  | readNode => exact takeRequest_pending_of_inner inner_readNode e
  | readFaults => exact takeRequest_pending handleReadFaults_pending e
  | telegramStart l => exact whenRunning_pending e (startTelegram_pending l s)
  | showAccepted | stateReply | traceReply | describeReply | capsReply =>
    simp only [exec, execShowAccepted, execStateReply, execTraceReply, execDescribeReply, execCapsReply] at e
    refine whenRunning_pending e ?_
    split
    · exact outcome_pending _ _ _ (fun u => by simp) s
    · rfl
  | noNode l x | nackLimit l x | corrupt l x | replyTimeout l x | replyBroken l x =>
    exact whenRunning_pending e (failureRow_pending _ l x s)
  | sent | lineQuietEnd | lumenRepeat => exact whenRunning_onLine_pending e
  | tracePollDue g => exact whenRunning_pending e (inner_pollTrace g s).pending
  | routineStateDue g => exact whenRunning_pending e (inner_pollState g s).pending
  | confirmDue g =>
    exact whenRunning_pending (f := fun s => s.onLineOf g (LineCtl.confirmDue g)) e (onLineOf_pending ..)
  | offlineRetry g => exact whenRunning_pending e (Inner.ite (inner_offlineRetry g s) (.refl s)).pending
  | intervalClose => exact whenRunning_pending e (Inner.ite (inner_closeInterval s) (.refl s)).pending
  | incidentExpiry n => exact whenRunning_pending e (inner_expireIncident n s).pending
  | passComplete => exact execPassComplete_pending e
  | gateExpired g => exact whenRunning_pending e (Inner.ite (inner_expireGate g s) (.refl s)).pending

end Sys2Proof.Machine
end
